-- ==== Sys2Proof/Word.lean ====
section
/-! DEFINITION. The words of the VRK-9640 (R1, R2, R55, R60) and their plainest arithmetic. -/

namespace Sys2Proof

/-- A byte of memory, of a pool buffer or of an operand slot. -/
abbrev Byte := BitVec 8

/-- A scalar register, an address, a system register value (R60, R61). -/
abbrev Word := BitVec 64

/-- An instruction word (R55). -/
abbrev IWord := BitVec 32

/-- Scalar register number (R56). -/
abbrev SReg := BitVec 6
/-- Chain register number: bits 4:0 of its field (R56). -/
abbrev CReg := BitVec 5
/-- Element-mask register number: bits 2:0 of its field (R56). -/
abbrev MReg := BitVec 3
/-- Completion-mask register number: bits 2:0 of its field (R56). -/
abbrev KReg := BitVec 3
/-- Operand slot number (R56). -/
abbrev OReg := BitVec 6

/-- An element mask: one bit per element (R60); `vlmax` is at most 65,535 (R61). -/
abbrev Mask := BitVec 65536

/-- The unbounded integer `v`, wrapped to 64 bits (R4, R70). -/
def wrap64 (v : Int) : Word := BitVec.ofInt 64 v

/-- Bits `hi:lo` of `n` as a natural number (R2). -/
def bitsOf (n hi lo : Nat) : Nat := n / 2 ^ lo % 2 ^ (hi + 1 - lo)

/-- Bit `i` of `n`. -/
def bitOf (n i : Nat) : Bool := n / 2 ^ i % 2 == 1

/-- The two's-complement value of the low `bits` bits of `n` (R57, R70). -/
def signedOf (bits n : Nat) : Int :=
  let m := n % 2 ^ bits
  if 2 * m < 2 ^ bits then (m : Int) else (m : Int) - (2 ^ bits : Nat)

/-- The number that bytes hold, the first byte least significant (R2). -/
def leNat : List Byte → Nat
  | [] => 0
  | b :: bs => b.toNat + 256 * leNat bs

/-- The `n` bytes of `v`, the least significant first (R2). -/
def leBytes : Nat → Nat → List Byte
  | 0, _ => []
  | n + 1, v => BitVec.ofNat 8 v :: leBytes n (v / 256)

end Sys2Proof
end

