-- ==== Sys2Proof/Machine/Numbers.lean ====
section
/-! DEFINITION. Number formats and exact arithmetic (R94-R109, R112-R115, R140, R141): a value is
computed exactly and rounded, wrapped or saturated once. -/

namespace Sys2Proof.Machine

/-- An element format (R58, R95, R97, R99). -/
inductive Fmt where
  /-- Signed integer of the given width. -/
  | i (bits : Nat)
  /-- Unsigned integer of the given width. -/
  | n (bits : Nat)
  | bf16 | fp16 | fp32
  /-- Signed P3109 variant of the given precision. -/
  | ps (p : Nat)
  /-- Unsigned P3109 variant of the given precision. -/
  | pu (p : Nat)
  deriving DecidableEq, Repr

/-- The format a code names (R58): none for the reserved codes 15, 23 and 31. -/
def Fmt.ofCode (c : Nat) : Option Fmt :=
  match c with
  | 0 => some (.i 2) | 1 => some (.n 2) | 2 => some (.i 4) | 3 => some (.n 4)
  | 4 => some (.i 8) | 5 => some (.n 8) | 6 => some (.i 16) | 7 => some (.n 16)
  | 8 => some (.i 32) | 9 => some (.n 32) | 10 => some (.i 64) | 11 => some (.n 64)
  | 12 => some .bf16 | 13 => some .fp16 | 14 => some .fp32
  | c => if 16 ≤ c ∧ c ≤ 22 then some (.ps (c - 15)) else if 24 ≤ c ∧ c ≤ 30 then some (.pu (c - 23)) else none

/-- Element width in bits: 8 × Size (R123). -/
def Fmt.bits : Fmt → Nat
  | .i b => b | .n b => b | .bf16 => 16 | .fp16 => 16 | .fp32 => 32 | .ps _ => 8 | .pu _ => 8

/-- Integer formats (R95). -/
def Fmt.isInt : Fmt → Bool
  | .i _ => true | .n _ => true | _ => false

/-- Brick formats (R229). -/
def Fmt.isBrick : Fmt → Bool
  | .i b => b ≤ 16 | .n b => b ≤ 16 | _ => true

/-- Signed integer formats. -/
def Fmt.isSigned : Fmt → Bool
  | .i _ => true | _ => false

/-- Rounding modes (R58, R101). -/
inductive Rnd where
  | rne | rtz | rup | rdn | rna
  deriving DecidableEq, Repr

/-- Rounding codes (R58); codes 5-7 never reach an instruction (R59). -/
def Rnd.ofCode : Nat → Rnd
  | 0 => .rne | 1 => .rtz | 2 => .rup | 3 => .rdn | _ => .rna

/-- Floating-point flags (R106). -/
abbrev Flags := BitVec 6

/-- How results are written: rounding, saturation, P3109 infinities (R58). -/
structure NumMode where
  rnd : Rnd
  sat : Bool
  inf : Bool
  deriving DecidableEq, Repr

/-- The layout of a floating format (R97, R99). -/
structure FSpec where
  prec   : Nat
  ebits  : Nat
  bias   : Nat
  signed : Bool
  ieee   : Bool

/-- Layouts of the floating formats (R97, R99). -/
def Fmt.spec : Fmt → FSpec
  | .bf16 => ⟨8, 8, 127, true, true⟩
  | .fp16 => ⟨11, 5, 15, true, true⟩
  | .fp32 => ⟨24, 8, 127, true, true⟩
  | .ps p => ⟨p, 8 - p, 2 ^ (7 - p), true, false⟩
  | .pu p => ⟨p, 9 - p, 2 ^ (8 - p), false, false⟩
  | _ => ⟨24, 8, 127, true, true⟩

/-- The canonical quiet NaN (R105). -/
def Fmt.nan : Fmt → Nat
  | .bf16 => 0x7FC0 | .fp16 => 0x7E00 | .fp32 => 0x7FC00000 | .ps _ => 0x80 | .pu _ => 0xFF | _ => 0

/-- The exact value of an element: `(-1)^neg × m × 2^e`, an infinity, or a NaN (R97, R99). -/
inductive Val where
  | nan (signalling : Bool)
  | inf (neg : Bool)
  | fin (neg : Bool) (m : Nat) (e : Int)
  deriving DecidableEq, Repr

/-- The finite value of the magnitude code `c` (exponent and significand fields) of a layout. -/
def FSpec.magVal (s : FSpec) (neg : Bool) (c : Nat) : Val :=
  let f := 2 ^ (s.prec - 1)
  let ex := c / f
  let t := c % f
  let low : Int := 1 - (s.bias : Int) - ((s.prec - 1 : Nat) : Int)
  if ex = 0 then .fin neg t low else .fin neg (t + f) (low + (ex : Int) - 1)

/-- The value of a pattern (R95, R97, R99); `inf` is `gm`.inf. -/
def Fmt.val (f : Fmt) (inf : Bool) (c : Nat) : Val :=
  match f with
  | .i b => let v := signedOf b c; .fin (v < 0) v.natAbs 0
  | .n b => .fin false (c % 2 ^ b) 0
  | .ps _ =>
      let c := c % 256
      if c = 0x80 then .nan false
      else if inf ∧ c = 0x7F then .inf false
      else if inf ∧ c = 0xFF then .inf true
      else if c = 0 then .fin false 0 0
      else f.spec.magVal (c / 128 == 1) (c % 128)
  | .pu _ =>
      let c := c % 256
      if c = 0xFF then .nan false
      else if inf ∧ c = 0xFE then .inf false
      else if c = 0 then .fin false 0 0
      else f.spec.magVal false c
  | _ =>
      let s := f.spec
      let fr := 2 ^ (s.prec - 1)
      let c := c % 2 ^ f.bits
      let neg := c / 2 ^ (f.bits - 1) == 1
      let mag := c % 2 ^ (f.bits - 1)
      if mag / fr = 2 ^ s.ebits - 1 then
        if mag % fr = 0 then .inf neg else .nan (mag % fr / 2 ^ (s.prec - 2) == 0)
      else s.magVal neg mag

/-- The unsigned value of an integer pattern, or the signed one, as an integer. -/
def Fmt.int (f : Fmt) (c : Nat) : Int :=
  match f with
  | .i b => signedOf b c
  | _ => (c % 2 ^ f.bits : Nat)

/-- The floor of the base-2 logarithm of `num / den`, both positive. -/
def floorLog (num den : Nat) : Int :=
  let k : Int := (Nat.log2 num : Int) - (Nat.log2 den : Int)
  let ge := if 0 ≤ k then den * 2 ^ k.toNat ≤ num else den ≤ num * 2 ^ (-k).toNat
  if ge then k else k - 1

/-- Whether a magnitude with remainder `r` of `d` above the integer `m` rounds up (R101). In a format of one significand bit
both neighbours of a tie have it set: `rne` takes the greater there (log 81). -/
def roundsUp (mode : Rnd) (neg : Bool) (m r d : Nat) : Bool :=
  match mode with
  | .rne => d < 2 * r || (2 * r == d && m % 2 == 1)
  | .rna => d ≤ 2 * r
  | .rtz => false
  | .rup => !neg && r != 0
  | .rdn => neg && r != 0

/-- `num / den × 2^e` rounded to a multiple `m` of `2^q` (R101): `m`, and whether it is inexact. -/
def roundAt (mode : Rnd) (neg : Bool) (num den : Nat) (e q : Int) : Nat × Bool :=
  let n := if q ≤ e then num * 2 ^ (e - q).toNat else num
  let d := if q ≤ e then den else den * 2 ^ (q - e).toNat
  let m := n / d
  let r := n % d
  (if roundsUp mode neg m r d then m + 1 else m, r != 0)

/-- The quantum of the top bit of precision `p` for `num / den × 2^e`. -/
def topQuantum (p num den : Nat) (e : Int) : Int := floorLog num den + e - ((p - 1 : Nat) : Int)

/-- The lowest quantum of a layout: its smallest subnormal, or smallest normal when it has none. -/
def FSpec.low (s : FSpec) : Int := 1 - (s.bias : Int) - ((s.prec - 1 : Nat) : Int)

/-- The magnitude code of `m × 2^q` with `m ≤ 2^prec`; it may lie above the format's codes. -/
def FSpec.magCode (s : FSpec) (m : Nat) (q : Int) : Nat :=
  let f := 2 ^ (s.prec - 1)
  if m < f then m else (q - s.low + 1).toNat * f + (m - f)

/-- The largest finite magnitude code (R97, R100). -/
def Fmt.maxMag (f : Fmt) (inf : Bool) : Nat :=
  match f with
  | .ps _ => if inf then 0x7E else 0x7F
  | .pu _ => if inf then 0xFD else 0xFE
  | _ => (2 ^ f.spec.ebits - 1) * 2 ^ (f.spec.prec - 1) - 1

/-- A pattern from sign and magnitude code. -/
def Fmt.signed (f : Fmt) (neg : Bool) (mag : Nat) : Nat :=
  if neg then 2 ^ (f.bits - 1) + mag else mag

/-- Flag masks of `fflags` (R106). -/
def flNx : Flags := 1
def flUf : Flags := 2
def flOf : Flags := 4
def flDz : Flags := 8
def flNv : Flags := 16
def flSv : Flags := 32

/-- A NaN result with or without `nv` (R105). -/
def nanOf (f : Fmt) (nv : Bool) : Nat × Flags := (f.nan, if nv then flNv else 0)

/-- An overflow into `f` (R103, R104). -/
def overflow (f : Fmt) (nm : NumMode) (mode : Rnd) (neg : Bool) : Nat × Flags :=
  let fl := flOf ||| flNx
  let big := f.signed neg (f.maxMag nm.inf)
  if nm.sat then (big, fl)
  else if f.spec.ieee then
    match mode, neg with
    | .rtz, _ | .rup, true | .rdn, false => (big, fl)
    | _, _ => (f.signed neg (f.maxMag nm.inf + 1), fl)
  else if nm.inf then (f.signed neg (f.maxMag nm.inf + 1), fl)
  else (f.nan, fl)

/-- A negative non-zero value, or -∞, into an unsigned P3109 variant (R104): no other flag than nv (log 81). -/
def negIntoUnsigned (f : Fmt) (nm : NumMode) : Nat × Flags := (if nm.sat then 0 else f.nan, flNv)

/-- An exact zero of sign `neg` in a floating format (R101, R104). -/
def zeroOf (f : Fmt) (neg : Bool) : Nat := if f.spec.ieee then f.signed neg 0 else 0

/-- RoundTo (R101-R104) of the non-zero exact value `(-1)^neg × num / den × 2^e`. -/
def roundRat (f : Fmt) (nm : NumMode) (mode : Rnd) (neg : Bool) (num den : Nat) (e : Int) : Nat × Flags :=
  let s := f.spec
  let qt := topQuantum s.prec num den e
  let q := if qt < s.low then s.low else qt
  let (m, inexact) := roundAt mode neg num den e q
  let (mu, _) := roundAt mode neg num den e qt
  -- tiny: the result rounded with the exponent unbounded is below the smallest normal (R102)
  let tiny := if qt < s.low then mu < 2 ^ (s.prec - 1) * 2 ^ (s.low - qt).toNat else false
  let fl := if inexact then (if tiny then flNx ||| flUf else flNx) else 0
  if m = 0 then (zeroOf f neg, fl)
  else if neg ∧ ¬ s.signed then negIntoUnsigned f nm
  else
    let mag := s.magCode m q
    if f.maxMag nm.inf < mag then overflow f nm mode neg else (f.signed neg mag, fl)

/-- An infinity written to `f` (R103, R104). -/
def infTo (f : Fmt) (nm : NumMode) (neg : Bool) : Nat × Flags :=
  if f.spec.ieee then (f.signed neg (f.maxMag nm.inf + 1), 0)
  else if neg ∧ ¬ f.spec.signed then negIntoUnsigned f nm
  else if nm.inf then (f.signed neg (f.maxMag nm.inf + 1), 0)
  else (if nm.sat then f.signed neg (f.maxMag nm.inf) else f.nan, flNv)

/-- RoundTo (R101) of an exact value; a NaN gives the canonical NaN, with `nv` if signalling (R105). -/
def roundVal (f : Fmt) (nm : NumMode) (mode : Rnd) (v : Val) : Nat × Flags :=
  match v with
  | .nan s => nanOf f s
  | .inf neg => infTo f nm neg
  | .fin neg m e => if m = 0 then (zeroOf f neg, 0) else roundRat f nm mode neg m 1 e

/-- An integer result of format `f`, wrapped or saturated (R96). -/
def intTo (f : Fmt) (sat : Bool) (v : Int) : Nat × Flags :=
  let b := f.bits
  let lo : Int := if f.isSigned then -(2 ^ (b - 1) : Nat) else 0
  let hi : Int := if f.isSigned then (2 ^ (b - 1) : Nat) - 1 else (2 ^ b : Nat) - 1
  if sat ∧ (v < lo ∨ hi < v) then
    let w := if v < lo then lo else hi
    ((w % (2 ^ b : Nat)).toNat, flSv)
  else ((v % (2 ^ b : Nat)).toNat, 0)

/-- The exact integer of a value with exponent zero or above. -/
def Val.toInt : Val → Int
  | .fin neg m e => let a : Int := (m * 2 ^ e.toNat : Nat); if neg then -a else a
  | _ => 0

/-- Whether a value is a signalling NaN. -/
def Val.isSig : Val → Bool
  | .nan s => s | _ => false
/-- Whether a value is a NaN. -/
def Val.isNan : Val → Bool
  | .nan _ => true | _ => false
/-- The negated value. -/
def Val.neg : Val → Val
  | .nan s => .nan s | .inf n => .inf !n | .fin n m e => .fin (!n) m e
/-- The absolute value. -/
def Val.abs : Val → Val
  | .nan s => .nan s | .inf _ => .inf false | .fin _ m e => .fin false m e

/-- The exact sum of two finite values, as sign, magnitude and exponent; an exact zero keeps a common
sign and is otherwise +0, or -0 under `rdn` (R101, IEEE 754-2019). -/
def addFin (mode : Rnd) (n1 : Bool) (m1 : Nat) (e1 : Int) (n2 : Bool) (m2 : Nat) (e2 : Int) : Val :=
  let e := if e1 ≤ e2 then e1 else e2
  let a : Int := (m1 * 2 ^ (e1 - e).toNat : Nat)
  let b : Int := (m2 * 2 ^ (e2 - e).toNat : Nat)
  let s := (if n1 then -a else a) + (if n2 then -b else b)
  if s = 0 then .fin (if n1 == n2 then n1 else mode == .rdn) 0 0
  else .fin (s < 0) s.natAbs e

/-- The sum of two values, and whether it is an invalid operation (R105). -/
def Val.add (mode : Rnd) : Val → Val → Val × Bool
  | .nan s, y => (.nan false, s || y.isSig)
  | .inf _, .nan s => (.nan false, s)
  | .fin .., .nan s => (.nan false, s)
  | .inf a, .inf b => if a == b then (.inf a, false) else (.nan false, true)
  | .inf a, .fin .. => (.inf a, false)
  | .fin .., .inf b => (.inf b, false)
  | .fin n1 m1 e1, .fin n2 m2 e2 => (addFin mode n1 m1 e1 n2 m2 e2, false)

/-- The product of two values, and whether it is an invalid operation (R105). -/
def Val.mul : Val → Val → Val × Bool
  | .nan s, y => (.nan false, s || y.isSig)
  | .inf _, .nan s => (.nan false, s)
  | .fin .., .nan s => (.nan false, s)
  | .inf a, .inf b => (.inf (a != b), false)
  | .inf a, .fin b m _ => if m = 0 then (.nan false, true) else (.inf (a != b), false)
  | .fin a m _, .inf b => if m = 0 then (.nan false, true) else (.inf (a != b), false)
  | .fin n1 m1 e1, .fin n2 m2 e2 => (.fin (n1 != n2) (m1 * m2) (e1 + e2), false)

/-- The order of two values that are no NaN: -1, 0 or 1 (zeros are equal). -/
def Val.cmp (x y : Val) : Int :=
  match x, y with
  | .inf a, .inf b => if a == b then 0 else if a then -1 else 1
  | .inf a, _ => if a then -1 else 1
  | _, .inf b => if b then 1 else -1
  | .fin n1 m1 e1, .fin n2 m2 e2 =>
      match addFin .rne n1 m1 e1 (!n2) m2 e2 with
      | .fin neg m _ => if m = 0 then 0 else if neg then -1 else 1
      | _ => 0
  | _, _ => 0

/-- Whether a value that is no NaN bears a minus sign. -/
def Val.isNeg : Val → Bool
  | .nan _ => false | .inf n => n | .fin n _ _ => n

/-- `x` ranks below `y`, with -0 below +0 (R141). -/
def Val.below (x y : Val) : Bool :=
  let c := x.cmp y
  c < 0 || (c == 0 && x.isNeg && !y.isNeg)

/-- A result of arithmetic on values, written to `fa` (R98, R140). -/
def writeVal (f : Fmt) (nm : NumMode) (r : Val × Bool) : Nat × Flags :=
  if r.2 then nanOf f true
  else if f.isInt then intTo f nm.sat r.1.toInt
  else roundVal f nm nm.rnd r.1

/-- `a + b` (R140). -/
def opAdd (fa fb : Fmt) (nm : NumMode) (a b : Nat) : Nat × Flags :=
  writeVal fa nm ((fa.val nm.inf a).add nm.rnd (fb.val nm.inf b))
/-- `a − b` (R140). -/
def opSub (fa fb : Fmt) (nm : NumMode) (a b : Nat) : Nat × Flags :=
  writeVal fa nm ((fa.val nm.inf a).add nm.rnd (fb.val nm.inf b).neg)
/-- `a × b` (R140). -/
def opMul (fa fb : Fmt) (nm : NumMode) (a b : Nat) : Nat × Flags :=
  writeVal fa nm ((fa.val nm.inf a).mul (fb.val nm.inf b))

/-- `d + p`, fused, with `p` the exact product `a × b` or its negation (R140, R105). -/
def fuse (fa : Fmt) (nm : NumMode) (d : Val) (p : Val × Bool) : Nat × Flags :=
  if d.isNan && p.2 && !p.1.isSig then
    -- a NaN addend beside an invalid product: the operands are not all numbers (R105)
    nanOf fa d.isSig
  else if p.2 then nanOf fa true
  else writeVal fa nm (d.add nm.rnd p.1)

/-- Whether the product of `a` and `b` is invalid because an operand signals. -/
def sigPair (a b : Val) : Bool := a.isSig || b.isSig

/-- `d + a × b` (R140). -/
def opFma (fa fb : Fmt) (nm : NumMode) (a b d : Nat) : Nat × Flags :=
  let x := fa.val nm.inf a
  let y := fb.val nm.inf b
  if sigPair x y then nanOf fa true else fuse fa nm (fa.val nm.inf d) (x.mul y)
/-- `d − a × b` (R140). -/
def opFms (fa fb : Fmt) (nm : NumMode) (a b d : Nat) : Nat × Flags :=
  let x := fa.val nm.inf a
  let y := fb.val nm.inf b
  let p := x.mul y
  if sigPair x y then nanOf fa true else fuse fa nm (fa.val nm.inf d) (p.1.neg, p.2)

/-- The correctly rounded quotient of two values (R115, R141). In a variant without infinities a zero divisor sets dz and
nv (log 81). -/
def divVal (f : Fmt) (nm : NumMode) (x y : Val) : Nat × Flags :=
  match x, y with
  | .nan s, y => nanOf f (s || y.isSig)
  | _, .nan s => nanOf f s
  | .inf _, .inf _ => nanOf f true
  | .inf a, .fin b _ _ => infTo f nm (a != b)
  | .fin a _ _, .inf b => (zeroOf f (a != b), 0)
  | .fin a m e, .fin b n g =>
      if n = 0 then
        if m = 0 then nanOf f true
        else
          let r := infTo f nm (a != b)
          (r.1, r.2 ||| flDz)
      else if m = 0 then (zeroOf f (a != b), 0)
      else roundRat f nm nm.rnd (a != b) m n (e - g)

/-- `a ÷ b` (R141). -/
def opDiv (fa fb : Fmt) (nm : NumMode) (a b : Nat) : Nat × Flags :=
  if fa.isInt then
    if fb.int b = 0 then (2 ^ fa.bits - 1, 0) else intTo fa nm.sat ((fa.int a).tdiv (fb.int b))
  else divVal fa nm (fa.val nm.inf a) (fb.val nm.inf b)

/-- The lesser (`least`) or the greater of two elements (R141). -/
def opMinMax (least : Bool) (fa fb : Fmt) (nm : NumMode) (a b : Nat) : Nat × Flags :=
  let x := fa.val nm.inf a
  let y := fb.val nm.inf b
  if fa.isInt then
    let p := fa.int a
    let q := fb.int b
    intTo fa nm.sat (if least then (if q < p then q else p) else (if p < q then q else p))
  else
    let nv : Flags := if sigPair x y then flNv else 0
    let r := if x.isNan then (if y.isNan then (.nan false) else y)
      else if y.isNan then x
      else if least then (if y.below x then y else x) else (if x.below y then y else x)
    let w := roundVal fa nm nm.rnd r
    (w.1, w.2 ||| nv)

/-- Shifts (R140): `kind` 0 `vshl`, 1 `vshr`, 2 `vsra`. -/
def opShift (kind : Nat) (fa fb : Fmt) (a b : Nat) : Nat × Flags :=
  let w := fa.bits
  let c := fb.int b
  let u := a % 2 ^ w
  let out := c < 0 || (w : Int) ≤ c
  let r := match kind with
    | 0 => if out then 0 else u * 2 ^ c.toNat % 2 ^ w
    | 1 => if out then 0 else u / 2 ^ c.toNat
    | _ => if out then (if u / 2 ^ (w - 1) = 1 then 2 ^ w - 1 else 0)
           else (signedOf w u / (2 ^ c.toNat : Nat) % (2 ^ w : Nat)).toNat
  (r, 0)

/-- `vfsh` (R140). -/
def opFsh (fa fb : Fmt) (a b d : Nat) : Nat × Flags :=
  let w := fa.bits
  ((a % 2 ^ w * 2 ^ w + d % 2 ^ w) / 2 ^ (fb.int b % (w : Int)).toNat % 2 ^ w, 0)

/-- `vbext` (R140). -/
def opBext (fa fb : Fmt) (a b : Nat) : Nat × Flags :=
  let c := fb.int b
  let p := (c % 64).toNat
  let q := (c / 64 % 64).toNat + 1
  (a % 2 ^ fa.bits / 2 ^ p % 2 ^ q, 0)

/-- `vabs` (R140). -/
def opAbs (fa : Fmt) (nm : NumMode) (a : Nat) : Nat × Flags :=
  if fa.isInt then intTo fa nm.sat (fa.int a).natAbs else roundVal fa nm nm.rnd (fa.val nm.inf a).abs
/-- `vneg` (R140). -/
def opNeg (fa : Fmt) (nm : NumMode) (a : Nat) : Nat × Flags :=
  if fa.isInt then intTo fa nm.sat (-(fa.int a)) else roundVal fa nm nm.rnd (fa.val nm.inf a).neg

/-- The number of one bits among the low `k` bits. -/
def popCount : Nat → Nat → Nat
  | 0, _ => 0
  | k + 1, v => v % 2 + popCount k (v / 2)

/-- The number of zero bits above the highest one bit of the low `k` bits. -/
def leadZeros : Nat → Nat → Nat
  | 0, _ => 0
  | k + 1, v => if v / 2 ^ k % 2 = 1 then 0 else 1 + leadZeros k v

/-- The number of zero bits below the lowest one bit of the low `k` bits. -/
def trailZeros : Nat → Nat → Nat
  | 0, _ => 0
  | k + 1, v => if v % 2 = 1 then 0 else 1 + trailZeros k (v / 2)

/-- A value rounded to an integer (R113): the integer, and whether it is inexact. -/
def roundInt (mode : Rnd) (neg : Bool) (m : Nat) (e : Int) : Int × Bool :=
  let (r, inexact) := roundAt mode neg m 1 e 0
  (if neg then -(r : Int) else r, inexact)

/-- `vcvt` (R113): an element of `fa` into `fb`; `sat` is `gm`.sat, or set by `vcvt.sat`. -/
def opCvt (fa fb : Fmt) (nm : NumMode) (a : Nat) : Nat × Flags :=
  if fb.isInt then
    if fa.isInt then intTo fb nm.sat (fa.int a)
    else
      match fa.val nm.inf a with
      | .nan _ => (0, flNv)
      | .inf neg =>
          if nm.sat then
            let r := intTo fb true (if neg then -(2 ^ 65 : Nat) else (2 ^ 65 : Nat))
            (r.1, r.2 ||| flNv)
          else (0, flNv)
      | .fin neg m e =>
          let (v, inexact) := roundInt nm.rnd neg m e
          let r := intTo fb nm.sat v
          let out := (intTo fb true v).2 != 0
          (r.1, r.2 ||| (if inexact then flNx else 0) ||| (if out then flNv else 0))
  else roundVal fb nm nm.rnd (fa.val nm.inf a)

/-- Round to nearest even, unsaturated, infinities off: the mode of R114, and with `gm`.sat that of R109, R240 and R243. -/
def rneMode : NumMode := { rnd := .rne, sat := false, inf := false }

/-- RNE to fp32 of an exact value, as a value (R114). -/
def rne32 (v : Val) : Val := Fmt.val .fp32 false (roundVal .fp32 rneMode .rne v).1

/-- The floor of a finite value, and the exact rest (R114). -/
def floorVal (neg : Bool) (m : Nat) (e : Int) : Int × Val :=
  if 0 ≤ e then
    let a : Int := (m * 2 ^ e.toNat : Nat)
    (if neg then -a else a, .fin false 0 0)
  else
    let d := 2 ^ (-e).toNat
    let n : Int := if neg then -(m : Int) else m
    let fl := n / (d : Int)
    (fl, .fin false (n - fl * d).toNat e)

/-- `vexp2` (R114): the series in fp32, then one rounding for bf16 and fp16. -/
def opExp2 (fa : Fmt) (nm : NumMode) (a : Nat) : Nat × Flags :=
  let fin32 (y : Nat) : Nat × Flags :=
    if fa = .fp32 then (y, 0) else roundVal fa nm nm.rnd (Fmt.val .fp32 false y)
  match fa.val false a with
  | .nan s => nanOf fa s
  | .inf neg => if neg then fin32 0 else fin32 0x7F800000
  | .fin neg m e =>
      let (n, f) := floorVal neg m e
      if 128 ≤ n then fin32 0x7F800000
      else if n < -160 then fin32 0
      else
        let c (p : Nat) : Val := Fmt.val .fp32 false p
        let mulR (x y : Val) : Val := rne32 (x.mul y).1
        let addR (x y : Val) : Val := rne32 (x.add .rne y).1
        let t := mulR (c 0x3DA00000) f
        let t := addR (c 0x3E680000) t
        let t := mulR f t
        let t := addR (c 0x3F320000) t
        let t := mulR f t
        let p := addR (.fin false 1 0) t
        match p with
        | .fin _ pm pe => fin32 (roundVal .fp32 rneMode .rne (.fin false pm (pe + n))).1
        | _ => fin32 0x7F800000

/-- `vrcp` (R115). -/
def opRcp (fa : Fmt) (nm : NumMode) (a : Nat) : Nat × Flags :=
  divVal fa nm (.fin false 1 0) (fa.val false a)

/-- The integer square root, bit by bit from bit `k - 1`. -/
def isqrt : Nat → Nat → Nat → Nat
  | 0, _, r => r
  | k + 1, n, r => let c := r + 2 ^ k; isqrt k n (if c * c ≤ n then c else r)

/-- `vsqrt` (R115): the root to well beyond the precision, with a sticky bit, rounded once. -/
def opSqrt (fa : Fmt) (nm : NumMode) (a : Nat) : Nat × Flags :=
  match fa.val false a with
  | .nan s => nanOf fa s
  | .inf neg => if neg then nanOf fa true else infTo fa nm false
  | .fin neg m e =>
      if m = 0 then (zeroOf fa neg, 0)
      else if neg then nanOf fa true
      else
        let m2 := if e % 2 = 0 then m else 2 * m
        let e2 := if e % 2 = 0 then e else e - 1
        let n := m2 * 4 ^ 32
        let r := isqrt 48 n 0
        roundRat fa nm nm.rnd false (2 * r + (if r * r = n then 0 else 1)) 1 (e2 / 2 - 33)

/-- `vcmp` conditions on two elements of the same kind (R143): the bit and the flags. -/
def opCmp (cond : Nat) (fa fb : Fmt) (nm : NumMode) (a b : Nat) : Bool × Flags :=
  if fa.isInt then
    let p := fa.int a
    let q := fb.int b
    let u := a % 2 ^ fa.bits
    let w := b % 2 ^ fb.bits
    (match cond with
      | 0 => p == q | 1 => p != q | 2 => p < q | 3 => p ≤ q | 4 => u < w | _ => u ≤ w, 0)
  else
    let x := fa.val nm.inf a
    let y := fb.val nm.inf b
    if x.isNan || y.isNan then
      (cond == 1, if cond = 2 ∨ cond = 3 ∨ sigPair x y then flNv else 0)
    else
      let c := x.cmp y
      (match cond with | 0 => c == 0 | 1 => c != 0 | 2 => c < 0 | _ => c ≤ 0, 0)

/-- The exact sum of products taken one after the other, and whether it is invalid. -/
def productSum : List (Val × Val) → Val × Bool
  | [] => (.fin true 0 0, false)
  | (x, y) :: t =>
      let p := x.mul y
      let r := productSum t
      if sigPair x y || p.2 || r.2 then (.nan false, true)
      else p.1.add .rne r.1

/-- Whether some product is the infinity of sign `neg`. -/
def productInf (neg : Bool) (l : List (Val × Val)) : Bool := l.any fun p => (p.1.mul p.2).1 == .inf neg

/-- The exact sum of one K-group's products and whether it is invalid (R109): two infinities of opposite signs make it
so wherever they stand in the group. -/
def groupSum (l : List (Val × Val)) : Val × Bool :=
  if productInf false l && productInf true l then (.nan false, true) else productSum l

/-- The exact sum, as an integer, of one K-group's integer products (R109). -/
def groupInt : List (Int × Int) → Int
  | [] => 0
  | (x, y) :: t => x * y + groupInt t

/-- One K-group added to a floating accumulator (R109): an overflow follows `gm`.sat (R103). The empty sum is -0, so
that the sum is -0 exactly when every product is. -/
def accFloat (sat : Bool) (acc : Nat) (g : List (Val × Val)) : Nat × Flags :=
  let s := groupSum g
  let v := Fmt.val .fp32 false acc
  let nv := s.2 || v.isSig
  if v.isNan || s.1.isNan || s.2 then (Fmt.nan .fp32, if nv then flNv else 0)
  else
    let r := v.add .rne s.1
    if r.2 then nanOf .fp32 true else roundVal .fp32 { rneMode with sat := sat } .rne r.1

/-- One K-group added to an i32 accumulator (R109). -/
def accInt (sat : Bool) (acc : Nat) (g : List (Int × Int)) : Nat × Flags :=
  intTo (.i 32) sat (signedOf 32 acc + groupInt g)

/-- A list cut into runs of `k` (structural in the list's length `fuel`). -/
def chunksOf {α : Type} (k : Nat) : Nat → List α → List (List α)
  | 0, _ => []
  | fuel + 1, l => if l.isEmpty then [] else l.take k :: chunksOf k fuel (l.drop k)

/-- KSum (R237, R109): the K-groups of 32 products added to `acc` in ascending order. `rows` holds the
patterns of one A row and one B column. -/
def kSum (fa fb : Fmt) (nm : NumMode) (acc : Nat) (ab : List (Nat × Nat)) : Nat × Flags :=
  let intAcc := fa.isInt && fb.isInt
  (chunksOf 32 ab.length ab).foldl (fun r g =>
    let s := if intAcc then accInt nm.sat r.1 (g.map fun p => (fa.int p.1, fb.int p.2))
      else accFloat nm.sat r.1 (g.map fun p => (fa.val nm.inf p.1, fb.val nm.inf p.2))
    (s.1, r.2 ||| s.2)) (acc, 0)

/-- One level of the reduction tree (R108). -/
def treeLevel (comb : Nat → Nat → Nat × Flags) : List Nat → List Nat × Flags
  | a :: b :: t =>
      let c := comb a b
      let r := treeLevel comb t
      (c.1 :: r.1, c.2 ||| r.2)
  | l => (l, 0)

/-- The reduction tree of one element group (R108); `fuel` bounds the levels. -/
def tree (comb : Nat → Nat → Nat × Flags) : Nat → List Nat → List Nat × Flags
  | 0, l => (l, 0)
  | fuel + 1, l =>
      if l.length ≤ 1 then (l, 0)
      else
        let a := treeLevel comb l
        let b := tree comb fuel a.1
        (b.1, a.2 ||| b.2)

/-- The partial value after one more element group (R108). -/
def combineGroup (comb : Nat → Nat → Nat × Flags) (p : Option Nat × Flags) (g : List Nat) : Option Nat × Flags :=
  match tree comb 12 g with
  | (x :: _, fl) =>
      match p.1 with
      | none => (some x, p.2 ||| fl)
      | some y => let c := comb y x; (some c.1, p.2 ||| fl ||| c.2)
  | ([], fl) => (p.1, p.2 ||| fl)

end Sys2Proof.Machine
end

