-- ==== Sys2Proof/Config.lean ====
section
/-! DEFINITION. What the manual leaves open: free values with no body (nothing can be proved of
one), and what an implementation fixes. -/

namespace Sys2Proof.Config

/-- A value the manual leaves unspecified (log 2): the argument is the state's counter of free values. -/
opaque freeValue : Nat → Word

/-- A byte of a line read under another key than the one it was written with, where one of the two is random, or the slot
has been loaded anew with the same material (R273, log 6): the key it was written under, the key of the read, the byte's
DRAM address, the line's bytes. -/
opaque unreadable : Nat → Nat → Nat → List Byte → Byte

/-- Whether a byte of a failed chunk holds its new value (R178, log 7): the state's counter of free
values and the byte's number in the copy. -/
opaque chunkByteNew : Nat → Nat → Bool

/-- Whether an image's signature verifies (R275, R283, log 8): the manual gives no key material. -/
opaque imageVerifies : List Byte → Bool

/-- The version that an image carries (R275, R283, log 8). -/
opaque imageVersion : List Byte → Nat

/-- Whether a byte of the Dusk record is one of the storage that a location code names (R322, log 35): the code, and the
byte's offset in the record. -/
opaque duskStruck : Nat → Nat → Bool

/-- The PA of the monitor image's entry (R275, log 8). -/
opaque monitorEntry : Word

/-- The monitor image that Folman measures and verifies (R275, log 8). -/
opaque monitorImage : List Byte

/-- Ids of the devices of the peer domain, assigned at Dawn (R271, R280). -/
opaque peersAtDawn : List Nat

/-- The device that each of the sixteen peer links reaches (R280, R319). -/
opaque linkDevice : Nat → Nat

end Sys2Proof.Config
end

