-- ==== Sys2Proof/Machine/Sparse.lean ====
section
/-! DEFINITION. Sparse tables: a list of keys and values in one canonical form, strictly rising in the
key and with no entry equal to what an unlisted key reads as. Memory, register files and the tables
of strands, complexes and partitions are all held so. -/

namespace Sys2Proof.Machine

/-- A table from `Nat` to `α`: the unlisted keys read as a default the reader names. -/
abbrev Sparse (α : Type) := List (Nat × α)

/-- What key `k` holds: the default `d` when it is not listed. -/
def Sparse.get {α : Type} (d : α) (k : Nat) : Sparse α → α
  | [] => d
  | (j, v) :: t => if j = k then v else Sparse.get d k t

/-- The table without key `k`. -/
def Sparse.erase {α : Type} (k : Nat) (t : Sparse α) : Sparse α := t.filter fun e => e.1 != k

/-- The table with `v` placed before the first greater key. -/
def Sparse.place {α : Type} (k : Nat) (v : α) : Sparse α → Sparse α
  | [] => [(k, v)]
  | (j, w) :: t => if k < j then (k, v) :: (j, w) :: t else (j, w) :: Sparse.place k v t

/-- The table with key `k` holding `v`: writing the default removes the entry. -/
def Sparse.put {α : Type} [DecidableEq α] (d : α) (k : Nat) (v : α) (t : Sparse α) : Sparse α :=
  if v = d then Sparse.erase k t else Sparse.place k v (Sparse.erase k t)

/-- The keys rise strictly. -/
def Sparse.rising {α : Type} : Sparse α → Bool
  | [] => true
  | [_] => true
  | a :: b :: t => a.1 < b.1 && Sparse.rising (b :: t)

/-- The canonical form: strictly rising keys, no entry equal to the default. -/
def Sparse.wf {α : Type} [DecidableEq α] (d : α) (t : Sparse α) : Bool :=
  Sparse.rising t && t.all fun e => e.2 != d

end Sys2Proof.Machine
end

