-- ==== Sys2Proof/Syntax.lean ====
section
/-! DEFINITION. The instructions: one constructor per row of spec/opcode_table.json. The first part
holds the encoded instructions (R55-R68); the second the steps of engines, launch unit, host and
Folman that the table lists without an encoding. -/

namespace Sys2Proof

/-- Operation of an atomic (R214). -/
inductive AmoOp where
  | add | min | max | minu | maxu | and | or | xor | swap | cas
  deriving DecidableEq, Repr

/-- Order of a scalar atomic (R214). -/
inductive AmoOrder where
  | rlx | acq | rel | ar | sc
  deriving DecidableEq, Repr

/-- Scope (R198, R214). -/
inductive Scope where
  | strand | core | cplx | clus | quad | pkg | sys
  deriving DecidableEq, Repr

/-- Order of a fence (R220). -/
inductive FenceOrder where
  | acq | rel | ar | sc
  deriving DecidableEq, Repr

/-- Order of a vector atomic (R218). -/
inductive VamoOrder where
  | rlx | acq | rel | ar
  deriving DecidableEq, Repr

/-- Scope of a vector atomic (R218). -/
inductive VamoScope where
  | cplx | quad | pkg | sys
  deriving DecidableEq, Repr

/-- Access size of a scalar load or store (R77). -/
inductive Size where
  | b | h | w | d
  deriving DecidableEq, Repr

/-- Condition of `vcmp` (R143). -/
inductive Cond where
  | eq | ne | lt | le | ltu | leu
  deriving DecidableEq, Repr

/-- The mode fields of a `grp` or `grpk` word (R58). -/
structure GrpMode where
  inv   : Bool
  guard : BitVec 3
  fa    : BitVec 5
  fb    : BitVec 5
  rnd   : BitVec 3
  sat   : Bool
  inf   : Bool
  g     : BitVec 3
  deriving DecidableEq, Repr

/-- What a peer device asks of this part's DRAM (R217, R271). -/
inductive PeerOp where
  | read  (bytes : Nat)
  | write (bytes : List Byte)
  | amo   (op : AmoOp) (wide : Bool) (operand compare : Word)
  deriving DecidableEq, Repr

/-- What Folman counts corrected errors of (R317): a DRAM row of a channel, a way of an L1 or LLC slice, a 64 KiB
bank of a near pool or of operand memory on a complex. -/
inductive RasUnit where
  | row  (channel row : Nat)
  | way  (n : Nat)
  | bank (cplx n : Nat)
  deriving DecidableEq, Repr

/-- One row of the opcode table. -/
inductive Instr where
  -- 0x01 SYS (R88-R93)
  | nop
  | svc (n : BitVec 12)
  | tret
  | sysr (d : SReg) (r : BitVec 12)
  | sysw (d : SReg) (r : BitVec 12)
  | endStrand
  | wfi
  -- 0x02 ALU (R71, R72)
  | add (d a b : SReg)
  | sub (d a b : SReg)
  | mul (d a b : SReg)
  | mulh (d a b : SReg)
  | mulhu (d a b : SReg)
  | div (d a b : SReg)
  | divu (d a b : SReg)
  | rem (d a b : SReg)
  | remu (d a b : SReg)
  | and (d a b : SReg)
  | or (d a b : SReg)
  | xor (d a b : SReg)
  | shl (d a b : SReg)
  | shr (d a b : SReg)
  | sra (d a b : SReg)
  | rotl (d a b : SReg)
  | min (d a b : SReg)
  | max (d a b : SReg)
  | minu (d a b : SReg)
  | maxu (d a b : SReg)
  | slt (d a b : SReg)
  | sltu (d a b : SReg)
  | clz (d a : SReg)
  | ctz (d a : SReg)
  | popc (d a : SReg)
  -- 0x03-0x0B immediates (R73-R75)
  | addi (d a : SReg) (i : BitVec 14)
  | andi (d a : SReg) (i : BitVec 14)
  | ori (d a : SReg) (i : BitVec 14)
  | xori (d a : SReg) (i : BitVec 14)
  | shli (d a : SReg) (n : BitVec 6)
  | shri (d a : SReg) (n : BitVec 6)
  | srai (d a : SReg) (n : BitVec 6)
  | slti (d a : SReg) (i : BitVec 14)
  | sltiu (d a : SReg) (i : BitVec 14)
  | lhi (d : SReg) (o : BitVec 20)
  | pcadd (d : SReg) (o : BitVec 20)
  -- 0x0C-0x0F scalar memory and atomics (R77, R214)
  | lds (d a : SReg) (z : Size) (o : BitVec 12)
  | ldu (d a : SReg) (z : Size) (o : BitVec 12)
  | sts (d a : SReg) (z : Size) (o : BitVec 12)
  | amo (d a : SReg) (p : AmoOp) (o : AmoOrder) (sc : Scope) (w : Bool)
  -- 0x10-0x17 branches and jumps (R80, R81)
  | beq (a b : SReg) (o : BitVec 14)
  | bne (a b : SReg) (o : BitVec 14)
  | blt (a b : SReg) (o : BitVec 14)
  | bge (a b : SReg) (o : BitVec 14)
  | bltu (a b : SReg) (o : BitVec 14)
  | bgeu (a b : SReg) (o : BitVec 14)
  | jal (d : SReg) (o : BitVec 20)
  | jalr (d a : SReg) (i : BitVec 14)
  -- 0x18-0x1A strips and vector length (R82-R85)
  | strip (d a : SReg)
  | stripClose (d : SReg)
  | snext (d : SReg)
  | setvl (d a : SReg)
  | setvlx (d a : SReg) (o : BitVec 13)
  -- 0x1B-0x1D convoy heads and bit fields (R76, R87)
  | grp (m : GrpMode)
  | grpk (m : GrpMode)
  | bext (d a : SReg) (p l : BitVec 6)
  | bins (d a : SReg) (p l : BitVec 6)
  | fsh (d a : SReg) (n : BitVec 6)
  -- 0x20 VALU (R140)
  | vadd (d a b : CReg) (x : Bool)
  | vsub (d a b : CReg) (x : Bool)
  | vmul (d a b : CReg) (x : Bool)
  | vfma (d a b : CReg) (x : Bool)
  | vfms (d a b : CReg) (x : Bool)
  | vdiv (d a b : CReg) (x : Bool)
  | vmin (d a b : CReg) (x : Bool)
  | vmax (d a b : CReg) (x : Bool)
  | vand (d a b : CReg) (x : Bool)
  | vor (d a b : CReg) (x : Bool)
  | vxor (d a b : CReg) (x : Bool)
  | vshl (d a b : CReg) (x : Bool)
  | vshr (d a b : CReg) (x : Bool)
  | vsra (d a b : CReg) (x : Bool)
  | vfsh (d a b : CReg) (x : Bool)
  | vbext (d a b : CReg) (x : Bool)
  | vabs (d a : CReg) (x : Bool)
  | vneg (d a : CReg) (x : Bool)
  | vpopc (d a : CReg) (x : Bool)
  | vclz (d a : CReg) (x : Bool)
  | vsel (d a b : CReg) (n : MReg) (x : Bool)
  -- 0x21 VALU with a broadcast scalar (R140)
  | vaddScalar (d a : CReg) (b : SReg) (x : Bool)
  | vsubScalar (d a : CReg) (b : SReg) (x : Bool)
  | vmulScalar (d a : CReg) (b : SReg) (x : Bool)
  | vfmaScalar (d a : CReg) (b : SReg) (x : Bool)
  | vfmsScalar (d a : CReg) (b : SReg) (x : Bool)
  | vdivScalar (d a : CReg) (b : SReg) (x : Bool)
  | vminScalar (d a : CReg) (b : SReg) (x : Bool)
  | vmaxScalar (d a : CReg) (b : SReg) (x : Bool)
  | vandScalar (d a : CReg) (b : SReg) (x : Bool)
  | vorScalar (d a : CReg) (b : SReg) (x : Bool)
  | vxorScalar (d a : CReg) (b : SReg) (x : Bool)
  | vshlScalar (d a : CReg) (b : SReg) (x : Bool)
  | vshrScalar (d a : CReg) (b : SReg) (x : Bool)
  | vsraScalar (d a : CReg) (b : SReg) (x : Bool)
  | vfshScalar (d a : CReg) (b : SReg) (x : Bool)
  | vbextScalar (d a : CReg) (b : SReg) (x : Bool)
  | vselScalar (d a : CReg) (b : SReg) (n : MReg) (x : Bool)
  -- 0x22-0x23 compare and reduce (R143, R144)
  | vcmp (d : MReg) (a b : CReg) (c : Cond)
  | vcmpScalar (d : MReg) (a : CReg) (b : SReg) (c : Cond)
  | vredsum (d : SReg) (a : CReg) (b : SReg)
  | vredmax (d : SReg) (a : CReg) (b : SReg)
  | vredmin (d : SReg) (a : CReg) (b : SReg)
  -- 0x24 conversions and moves (R112, R142)
  | vcvt (d a : CReg) (x : Bool)
  | vcvtSat (d a : CReg) (x : Bool)
  | vexp2 (d a : CReg) (x : Bool)
  | vrcp (d a : CReg) (x : Bool)
  | vsqrt (d a : CReg) (x : Bool)
  | vidx (d : CReg) (x : Bool)
  | vmv (d a : CReg) (x : Bool)
  | vmvScalar (d : CReg) (a : SReg) (x : Bool)
  -- 0x25 permutes (R145)
  | vperm (d a b : CReg)
  | vcomp (d a : CReg) (b : MReg)
  | vexpd (d a : CReg) (b : MReg)
  | vslide (d a : CReg) (b : SReg)
  -- 0x26 masks (R146)
  | mand (d a b : MReg)
  | mor (d a b : MReg)
  | mxor (d a b : MReg)
  | mnot (d a : MReg)
  | mpopc (d : SReg) (a : MReg)
  | mfirst (d : SReg) (a : MReg)
  | mset (d : MReg) (a b : SReg)
  | mget (d : SReg) (a : MReg) (b : SReg)
  -- 0x27, 0x28 divergence (R148, R149)
  | vbr (a : MReg) (o : BitVec 14)
  | vjoin (o : BitVec 26)
  -- 0x29, 0x2A chain structure (R135)
  | cnew (d : CReg)
  | cfree (d : CReg)
  | cshare (d a : CReg)
  | cprep (d a : CReg)
  | capp (d a : CReg)
  | cprepElement (d : CReg) (a : SReg)
  | cappElement (d : CReg) (a : SReg)
  | ctrimH (d : CReg) (a : SReg)
  | ctrimT (d : CReg) (a : SReg)
  | csplit (d a : CReg) (b : SReg)
  | csplice (d a b : CReg)
  | clen (d : SReg) (a : CReg)
  | cseg (d : SReg) (a : CReg) (b : SReg)
  | cflat (d a : CReg)
  | cget (d : SReg) (a : CReg) (b : SReg)
  | cput (d : CReg) (a b : SReg)
  | cspill (a : CReg) (b : SReg)
  | cfill (d : CReg) (a : SReg)
  | chld (d : CReg) (a : SReg)
  | chst (a : CReg) (b : SReg)
  | ctrimHImm (d : CReg) (n : BitVec 11)
  | ctrimTImm (d : CReg) (n : BitVec 11)
  | csplitImm (d a : CReg) (n : BitVec 11)
  | cgetImm (d : SReg) (a : CReg) (n : BitVec 11)
  | cputImm (d : CReg) (a : SReg) (n : BitVec 11)
  -- 0x2B, 0x2C vector memory (R165-R171)
  | vld (d : CReg) (a : SReg)
  | vlds (d : CReg) (a b : SReg)
  | vldx (d : CReg) (a : SReg) (b : CReg)
  | vldff (d : CReg) (a : SReg)
  | vldk (d : CReg) (a : SReg) (b : KReg)
  | vst (d : CReg) (a : SReg)
  | vsts (d : CReg) (a b : SReg)
  | vstx (d : CReg) (a : SReg) (b : CReg)
  -- 0x2D-0x2F streams, copies, completion masks (R189)
  | strm (d : CReg) (a : SReg)
  | strmx (d : CReg) (a : SReg)
  | strmoff (d : CReg)
  | cpy (a : SReg)
  | cpyx (a : SReg)
  | cpyr (a : SReg)
  | waitk (d : KReg) (a : SReg)
  | ktest (d : SReg) (a : KReg) (b : SReg)
  | kclr (d : KReg)
  -- 0x30 SYNC (R220-R227)
  | fence (o : FenceOrder) (s : Scope)
  | ifence
  | gbar (g : BitVec 8)
  | garr (g : BitVec 8)
  | gwt (g : BitVec 8)
  | qpost (a : SReg)
  -- 0x31 (R218)
  | vamo (d : CReg) (a : SReg) (b : CReg) (p : AmoOp) (o : VamoOrder) (s : VamoScope)
  -- 0x32 MAT, 0x33 TOPK (R251)
  | oclaim (d : OReg) (a : SReg)
  | orel (d : OReg)
  | oput (d : OReg) (a : CReg)
  | oget (d : CReg) (a : OReg)
  | mma (d : CReg) (a b : OReg)
  | mmaz (d : CReg) (a b : OReg)
  | bswalk (d : OReg) (a b : SReg)
  | biasupd (d : OReg) (a : CReg) (b : SReg)
  | tkon (a : SReg)
  | tkoff
  | tkget (d a : CReg)
  | tksave (a : SReg)
  | tkload (a : SReg)
  -- 0x34 CTX, 0x35 CTXLD (R261)
  | tnew (d : SReg)
  | tnewq (d : SReg)
  | tset (a : SReg)
  | tsets (a : SReg)
  | tget (d : SReg)
  | tretTag (a : SReg)
  | citw (a b : SReg)
  | citr (d a : SReg)
  | citp (a : SReg) (b : CReg)
  | stcm (d a : SReg) (z : Size)
  | vstcm (d : CReg) (a : SReg)
  | ldt (d a b : SReg) (z : Size)
  | vldt (d : CReg) (a b : SReg)
  -- Steps with no encoding: launch unit and graph (`p` partition, `q` queue, `n` node)
  | doorbell (p q : Nat)
  | descriptorPoll (p q : Nat)
  | strandPlace (p : Nat)
  | gangStart (p : Nat)
  | recordComplete (p : Nat)
  | heldCompletionWrite (p q : Nat)
  | copyNodeComplete (p n : Nat)
  | graphCopyFault (p n : Nat)
  -- Engines (`c` a copy, `j` its chunk, `sid` a strand, `x` a complex)
  | chunkComplete (c j : Nat)
  | chunkFail (c j : Nat)
  | streamRefill (sid : Nat) (r : CReg)
  | bufferReclaim (x : Nat)
  | allocGrant (sid : Nat)
  | allocTimeout (sid : Nat)
  | tagGrant (p : Nat)
  | tagDrainComplete (p t : Nat)
  | slotGrant (x : Nat) (o : OReg)
  | barrierDepart (sid : Nat)
  | waitkWake (sid : Nat)
  | wfiWake (sid : Nat)
  | convoyDrained (sid : Nat)
  | preemptionTaken (sid v : Nat)
  | priorityAge (sid : Nat)
  -- Folman, links, errors
  | clockStepDown (sensor : Nat)
  | pageMigrate (page dev : Nat)
  | linkCrcError (link : Nat) (replayed retrained : Bool)
  | correctedError (u : RasUnit)
  | lastingFaultRetire (u : RasUnit)
  | fatalError (kind : BitVec 8) (loc : BitVec 32)
  | quadrantReady (q : Nat)
  -- Management mailbox (`host`: the host's copy, else the monitor's)
  | readEventLog (host : Bool)
  | readDuskRecord (host : Bool)
  | readSensors (host : Bool)
  | mailboxComplete (host : Bool)
  -- Decode and fetch failures
  | unassignedOpcode (w : IWord)
  | reservedFieldNotZero (w : IWord)
  -- Host and peer memory
  | hostMemoryAccess (pa : Nat) (bytes : Nat) (write : Option (List Byte))
  | peerMemoryAccess (dev addr : Nat) (op : PeerOp)
  -- Steps without arguments: governor, migration, Dawn, mailbox commands, a fetch that fails
  | clockStepUp
  | migrationWindowEnd
  | dawn
  | writeFirmwareImage
  | commitFirmwareImage
  | loadKeySlot
  | eraseKeySlot
  | fetchFault
  -- System register writes with a row of their own (`d` the source scalar)
  | lanesplitWrite (d : SReg)
  | poolDescriptorWrite (far : Bool) (d : SReg)
  | ptrootWrite (d : SReg)
  | pselWrite (d : SReg)
  | partitionCreate (d : SReg)
  | pbootWrite (d : SReg)
  | poolReset (d : SReg)
  | preqWrite (d : SReg)
  | gnodeWrite (d : SReg)
  | grpentWrite (d : SReg)
  | qpwrWrite (d : SReg)
  | tagcapWrite (d : SReg)
  | cellStoreWrite (size : Bool) (d : SReg)
  | fragcntWrite (d : SReg)
  | vlWrite (d : SReg)
  | vlmaxWrite (d : SReg)
  | sheadWrite (d : SReg)
  | gmWrite (d : SReg)
  deriving DecidableEq, Repr

end Sys2Proof
end

