-- ==== Sys2Proof/Machine/State.lean ====
section
/-! DEFINITION. The state of the package as plain data: every register, memory and table the manual
gives it (INVENTORY.md, State), and the state right after reset. -/

namespace Sys2Proof.Machine

/-- Privilege mode of a strand (R23, R277). -/
inductive Mode where
  | user | supervisor | monitor
  deriving DecidableEq, Repr

/-- A cause code (R287). -/
inductive Cause where
  | preemption | unassigned | reserved | convoy | mode | privilege | svc | misaligned | notPresent
  | permission | format | tag | cellStore | race | poison | pool | spine | refs | element | stream
  | fragment | strip | slot | geometry | topology | copy | group | record
  deriving DecidableEq, Repr

/-- The code `ecause` holds (R287). -/
def Cause.code : Cause → BitVec 8
  | .preemption => 0x00 | .unassigned => 0x01 | .reserved => 0x02 | .convoy => 0x03 | .mode => 0x04
  | .privilege => 0x05 | .svc => 0x07 | .misaligned => 0x08 | .notPresent => 0x10 | .permission => 0x11
  | .format => 0x12 | .tag => 0x13 | .cellStore => 0x14 | .race => 0x18 | .poison => 0x19
  | .pool => 0x20 | .spine => 0x21 | .refs => 0x22 | .element => 0x23 | .stream => 0x24
  | .fragment => 0x28 | .strip => 0x29 | .slot => 0x30 | .geometry => 0x31 | .topology => 0x32
  | .copy => 0x38 | .group => 0x3C | .record => 0x3D

/-- A segment of a spine (R122): `count` bytes of buffer `id` from byte `start`. -/
structure Seg where
  id    : Nat
  start : Nat
  count : Nat
  deriving DecidableEq, Repr

/-- Stream mode of a chain register (R185, R186). -/
structure Stream where
  /-- The stream's own copy of its pattern block, doublewords D0-D7. -/
  block  : List Word
  far    : Bool
  tag    : Nat
  mode   : Mode
  /-- Elements popped so far. -/
  q      : Nat
  /-- The held strip: its segments and its element count. -/
  held   : Option (List Seg × Nat)
  /-- Buffers fetched ahead, and how many elements of the traversal have been fetched. -/
  ahead  : List Seg
  fetched : Nat
  /-- An element that failed a check during refill: traversal index, cause, address (R186). -/
  bad    : Option (Nat × Cause × Nat)
  /-- The refill's agent number (R197). -/
  agent  : Nat
  deriving DecidableEq, Repr

/-- A chain register (R60): a spine, and the stream it is in, if any. -/
structure Chain where
  segs   : List Seg := []
  stream : Option Stream := none
  deriving DecidableEq, Repr

/-- The empty chain (R23). -/
def Chain.empty : Chain := { segs := [], stream := none }

/-- One releasing agent's part of a synchronisation (R198, R201): where the agent is, the scope of
its release, and what happens-before it. -/
structure Token where
  inside : Bool
  strand : Option Nat
  core   : Option Nat
  cplx   : Option Nat
  clus   : Option Nat
  quad   : Option Nat
  scope  : Scope
  clk    : List (Nat × Nat)
  deriving DecidableEq, Repr

/-- A completion mask register and its status (R182). -/
structure KMask where
  bits   : BitVec 512 := 0
  cause  : BitVec 8 := 0
  poison : BitVec 8 := 0
  oow    : BitVec 32 := 0
  fva    : BitVec 57 := 0
  /-- The completion bit and traversal index of the recorded fault (R182). -/
  fbit   : Nat := 0
  ftrav  : Nat := 0
  /-- What each set bit releases (R206). -/
  toks   : List (Nat × Token) := []
  deriving DecidableEq, Repr

/-- A completion mask register at strand start (R23). -/
def KMask.clear : KMask := {}

/-- The group mode register `gm` (R58). -/
structure Gm where
  gk    : Bool := false
  inv   : Bool := false
  guard : BitVec 3 := 0
  fa    : BitVec 5 := 0
  fb    : BitVec 5 := 0
  rnd   : BitVec 3 := 0
  sat   : Bool := false
  inf   : Bool := false
  g     : BitVec 3 := 0
  deriving DecidableEq, Repr

/-- An entry of the pending-fragment buffer (R147). -/
structure Frag where
  pc   : Word := 0
  /-- Join target (bits 63:2) and kind (bits 1:0). -/
  jn   : Word := 0
  mask : Mask := 0
  deriving DecidableEq, Repr

/-- A candidate of the top-k epilogue (R240): 32-bit patterns. -/
structure Cand where
  key   : BitVec 32
  value : BitVec 32
  idx   : BitVec 32
  deriving DecidableEq, Repr

/-- The armed top-k epilogue (R239). -/
structure Epilogue where
  rows    : Nat
  k       : Nat
  /-- Accumulator format: i32 rather than fp32. -/
  int     : Bool
  biasen  : Bool
  bslot   : OReg
  /-- Control bits 16:0 as `tksave` writes them. -/
  control : BitVec 17
  colbase : BitVec 32
  lists   : List (List Cand)
  deriving DecidableEq, Repr

/-- What a strand that is not ready waits for (R36). -/
inductive Wait where
  | none
  /-- A slot, with the geometry that its claim gives it (R232). -/
  | slot (o : OReg) (g : Word)
  /-- A tag, and the register that receives it (R262). -/
  | tag (d : SReg)
  | barrier (i : Nat)
  /-- A completion mask, with the range of bits waited for (R192). -/
  | waitk (k : KReg) (range : Word)
  | wfi
  /-- A buffer of the near or far pool, waited for since clock `since`: `held` are those that earlier allocations of the
  instruction have been granted, by their index in the pool (R120, R299). -/
  | alloc (far : Bool) (since : Nat) (held : List Nat)
  | cell
  | copies
  | flight (k : KReg)
  | chainCopy (c : CReg)
  | slotCopy (o : OReg)
  | create
  | poolReset
  | ending
  deriving DecidableEq, Repr

/-- Where a strand came from (R19, R278). -/
inductive OriginKind where
  | record | boot | monitor
  deriving DecidableEq, Repr

/-- The record that a strand completes (R19, R20, R46). -/
structure Origin where
  kind  : OriginKind := .boot
  queue : Nat := 0
  /-- Ring index, 0xFFFF for a graph-started record (R297). -/
  ring  : Nat := 0
  token : Word := 0
  /-- Graph node, 0xFFFF for none. -/
  node  : Nat := 65535
  /-- The parked records that complete together with a resume record: their queues and ring indices (R46). -/
  parkedOf : List (Nat × Nat) := []
  /-- The graph nodes of those parked records: they complete too (R26, R46). -/
  parkedNodes : List Nat := []
  /-- Whether the strand counts as resident in the groups of its `grpmem`: a boot or monitor strand has no
  group (R277, R278). -/
  grouped : Bool := false
  deriving DecidableEq, Repr

/-- A key that DRAM lines are encrypted under (R273, R320). -/
inductive Key where
  /-- The material that slot `slot` was loaded with as its `n`-th key. -/
  | loaded (slot n material : Nat)
  /-- The `n`-th key of slot `slot`, which Folman drew at random. -/
  | random (slot n : Nat)
  /-- The key that Folman alone holds. -/
  | folman
  deriving DecidableEq, Repr

/-- One strand (R60, R61, R23). -/
structure Strand where
  resident : Bool := false
  /-- The model's own number of the strand as an agent, kept across parking. -/
  uid      : Nat := 0
  part     : Nat := 0
  mode     : Mode := .user
  pc       : Word := 0
  regs     : Sparse Word := []
  chains   : Sparse Chain := []
  masks    : Sparse Mask := []
  kmasks   : Sparse KMask := []
  vl       : BitVec 16 := 0
  vlmax    : BitVec 16 := 0
  vstart   : Word := 0
  si       : Word := 0
  srem     : Word := 0
  shead    : Word := 0
  gm       : Gm := {}
  ctx      : BitVec 16 := 0
  fflags   : BitVec 6 := 0
  farPool  : Bool := false
  grpmem   : BitVec 32 := 0
  cdirty   : BitVec 32 := 0
  mdirty   : BitVec 8 := 0
  redpart  : Sparse Word := []
  redsel   : BitVec 3 := 0
  redlive  : BitVec 8 := 0
  memdone  : BitVec 8 := 0
  frags    : List Frag := []
  runMask  : Mask := BitVec.allOnes 65536
  fragsel  : BitVec 26 := 0
  barst    : BitVec 36 := 0
  parkid   : BitVec 16 := 0
  epc      : Word := 0
  ecause   : BitVec 8 := 0
  eval     : Word := 0
  evpos    : Word := 0
  escratch : Word := 0
  estatus  : BitVec 4 := 0
  epilogue : Option Epilogue := none
  wait     : Wait := .none
  /-- The pattern block that a copy or stream instruction which waits has read at its issue, with its VA: it is read once
  (R173, R191). -/
  again    : Option (Word × List Word) := none
  grant    : Nat := 0
  lanereq  : Nat := 0
  lanemin  : Nat := 0
  prio     : Nat := 0
  /-- Levels gained by waiting for issue, and the clocks since the last issue during which the strand was ready
  (R36). -/
  age      : Nat := 0
  unissued : Nat := 0
  fuse     : Bool := false
  preq     : Bool := false
  /-- A `tret` to user mode has found a request pending: it is taken before the next instruction (R294). -/
  due      : Bool := false
  origin   : Origin := {}
  deriving DecidableEq, Repr

/-- An empty strand slot. -/
def Strand.blank : Strand := {}

/-- What parking leaves on the complex (R45, R47). -/
structure Parked where
  parkid : BitVec 16
  cplx   : Nat
  uid    : Nat
  /-- The slot it had: its refills go on (R184). -/
  sid    : Nat
  kmasks : Sparse KMask
  chains : Sparse Chain
  grpmem : BitVec 32
  origin : Origin
  deriving DecidableEq, Repr

/-- A buffer pool of a complex (R116-R120). `base` is the far pool's PA bits 47:16. -/
structure Pool where
  enable  : Bool := false
  bsize   : BitVec 3 := 0
  base    : BitVec 32 := 0
  count   : BitVec 24 := 0
  free    : List Nat := []
  refs    : Sparse Nat := []
  deriving DecidableEq, Repr

/-- An operand slot (R231): its bytes, claim, geometry and bias shadow. -/
structure Slot where
  /-- The claiming strand's agent number, and its `strandid` at the claim. -/
  owner   : Option Nat := none
  sid     : Nat := 0
  geom    : Word := 0
  pending : Bool := false
  data    : Sparse Byte := []
  shadow  : Sparse Byte := []
  /-- 64-byte ranges of the shadow whose bytes were marked when it was taken (R243, R316). -/
  shadowPoison : List Nat := []
  /-- Strands that wait for the slot, oldest first (R232). -/
  waiters : List Nat := []
  /-- 64-byte ranges that carry the poison marker (R316). -/
  poison  : List Nat := []
  toks    : List Token := []
  deriving DecidableEq, Repr

/-- An unclaimed slot that holds zeros (R231). -/
def Slot.free : Slot := {}

/-- One complex (R7, R30, R61, R116). -/
structure Complex where
  lock     : Bool := false
  reserve1 : BitVec 4 := 0
  reserve0 : BitVec 4 := 0
  split    : BitVec 4 := 4
  near     : Pool := {}
  far      : Pool := {}
  /-- Ids of the buffers of both pools that await the reclaimer, in the order they joined (R121). -/
  reclaim  : List Nat := []
  sram     : Sparse Byte := []
  sramPoison : List Nat := []
  osel     : BitVec 6 := 0
  slots    : Sparse Slot := []
  degraded : Bool := false
  deriving DecidableEq, Repr

/-- A complex after reset. -/
def Complex.reset : Complex := {}

/-- A group table entry (R34), and what the arrivals of its generation release (R201 case 3). -/
structure Group where
  valid    : Bool := false
  cores    : Bool := false
  members  : BitVec 12 := 0
  arrived  : BitVec 12 := 0
  resident : BitVec 12 := 0
  gen      : BitVec 8 := 0
  gathering : List Token := []
  released : List Token := []
  deriving DecidableEq, Repr

/-- An invalid, zero entry (R34). -/
def Group.clear : Group := {}

/-- The state of a tag (R252); `draining` holds the clock of its retirement point (R258). -/
inductive TagState where
  | free | live | draining (since : Nat)
  deriving DecidableEq, Repr

/-- Something ready to be placed (R29): the head record of a queue, an enqueued graph node, or a co-resident
group whose members have been gathered. -/
inductive Ready where
  | queue (q : Nat) | node (n : Nat) | group (g : Nat)
  deriving DecidableEq, Repr

/-- Who waits for a tag (R253): a strand at `tnew`, or a record or group that is ready to be placed. -/
inductive TagReq where
  | strand (sid : Nat) | record (r : Ready)
  deriving DecidableEq, Repr

/-- A cell (R255, R256): the line it copies, its tag, and its place in the cell store. -/
structure CellEntry where
  line : Nat
  tag  : Nat
  idx  : Nat
  deriving DecidableEq, Repr

/-- How the launch unit judged a record it read (R22, R35, R323). -/
inductive Verdict where
  | ok | invalid | badGroup
  deriving DecidableEq, Repr

/-- A record that the launch unit has read from a ring (R18, R21): its doublewords, none when the read failed;
whether some side could ever hold its lane minimum, as judged at that read (R22); the launch unit's verdict,
once it has judged it; whether it has been started or refused. -/
structure QRec where
  idx     : Nat
  /-- Its number among the records read from the queue: ring indices count modulo 65,536 only (R17). -/
  seq     : Nat
  words   : List Word
  capable : Bool
  verdict : Option Verdict
  started : Bool
  deriving DecidableEq, Repr

/-- An enqueued graph strand node (R26): its id, the queue it names and its start record. -/
structure NodeRec where
  n     : Nat
  queue : Nat
  words : List Word
  deriving DecidableEq, Repr

/-- The launch unit's own copy of a queue descriptor (R17, R18). -/
structure QState where
  enabled  : Bool := false
  ringbase : Word := 0
  ringsize : Nat := 0
  head     : Nat := 0
  cplbase  : Word := 0
  cplsize  : Nat := 0
  cpltail  : Nat := 0
  cplhead  : Nat := 0
  /-- Index after the last record read, and the records read that head has not passed. -/
  readTo   : Nat := 0
  recs     : List QRec := []
  /-- Records read so far. -/
  count    : Nat := 0
  /-- Records started and not completed, each with the agent number of its strand (R19). -/
  live     : List (Nat × Nat) := []
  /-- Completion entries held, oldest first: D0 and D1 (R20). -/
  held     : List (Word × Word) := []
  deriving DecidableEq, Repr

/-- A queue that has not been found enabled. -/
def QState.off : QState := {}

/-- A strand that has ended and whose record's completion is due (R19). -/
structure Ended where
  /-- The strand's agent number. -/
  uid    : Nat
  origin : Origin
  status : BitVec 8
  deriving DecidableEq, Repr

/-- One partition (R16, R61). -/
structure Partition where
  evec     : Word := 0
  qbase    : Word := 0
  gbase    : Word := 0
  grpsel   : BitVec 8 := 0
  gcount   : BitVec 16 := 0
  ptroot   : Word := 0
  cellbase : Word := 0
  cellsize : Word := 0
  tagcap   : BitVec 16 := 0
  tagsel   : BitVec 16 := 0
  preqBusy : Bool := false
  preqResult : BitVec 3 := 0
  preqTarget : BitVec 11 := 0
  partid   : BitVec 4 := 0
  cplxlo   : Word := 0
  cplxhi   : Word := 0
  pbound   : Sparse Word := []
  keyrange : Word := 0
  groups   : Sparse Group := []
  tags     : Sparse TagState := []
  tagReqs  : List TagReq := []
  cit      : Sparse (BitVec 16) := []
  cells    : List CellEntry := []
  queues   : Sparse QState := []
  /-- Ready records and nodes in the order in which they became ready (R29). -/
  ready    : List Ready := []
  /-- Graph strand nodes enqueued, and nodes found bad at their first read (R25, R26). -/
  nodes    : List NodeRec := []
  badNodes : List Nat := []
  /-- The queue field of each node as the launch unit last read it, by the node's address (R25, R323). -/
  nodeQueues : Sparse (Option Nat) := []
  /-- Graph copy nodes whose copy has faulted and been reported (R28). -/
  faultedNodes : List Nat := []
  ended    : List Ended := []
  parked   : List Parked := []
  deriving DecidableEq, Repr

/-- A partition after reset (R252, R259, R276). -/
def Partition.reset : Partition := {}

/-- On whose behalf a copy runs (R180, R28). -/
inductive CopyOwner where
  | strand (uid : Nat)
  /-- Node `n` of partition `p`, whose entries go to queue `q`. -/
  | node (p n q : Nat)
  deriving DecidableEq, Repr

/-- A copy in flight, or a graph copy node that has not completed (R28, R180). -/
structure Copy where
  id      : Nat
  owner   : CopyOwner
  part    : Nat
  cplx    : Nat
  mode    : Mode
  tag     : Nat
  blockVa : Nat
  block   : List Word
  /-- For dkind 2, the segments written (R179). -/
  segs    : List Seg
  /-- Chunks not yet handled, chunks that failed, chunks completed. -/
  todo    : List Nat
  failed  : List Nat
  done    : List Nat
  /-- Whether out-of-window elements are counted: not by `cpyr` (R191). -/
  counts  : Bool
  /-- The recorded fault of a graph copy: completion bit, traversal index, cause, address (R28). -/
  fault   : Option (Nat × Nat × Cause × Nat)
  /-- What happened before the copy's issue (R183). -/
  clk     : List (Nat × Nat)
  deriving DecidableEq, Repr

/-- How Folman's log names an agent of a race (R307): by `strandid`, or by pattern block VA for a copy. -/
inductive Party where
  | strand (sid : Nat)
  | copy (va : Nat)
  deriving DecidableEq, Repr

/-- One recorded access of a granule (R306): agent, its epoch, its family, its name in the event log. -/
structure Touch where
  agent  : Nat
  epoch  : Nat
  family : Nat
  name   : Party
  deriving DecidableEq, Repr

/-- The accesses of one granule that a later one may race with (R306). -/
structure Granule where
  writes : List Touch := []
  reads  : List Touch := []
  deriving DecidableEq, Repr

/-- A granule nobody has touched. -/
def Granule.clear : Granule := {}

/-- The happens-before bookkeeping of the race checker (R201, R306). -/
structure Order where
  /-- For each agent, the epochs of each agent that happen-before its next access. -/
  clk   : Sparse (List (Nat × Nat)) := []
  /-- Tokens left by release fences, and found by relaxed atomic reads (R201 case 2). -/
  fence : Sparse (List Token) := []
  seen  : Sparse (List Token) := []
  /-- The release sequence at each atomic location (R201). -/
  cells : Sparse (List Token) := []
  grans : Sparse Granule := []
  deriving DecidableEq, Repr

/-- A command in the management mailbox (R279): whether it has run and with what result. -/
inductive MboxRun where
  | idle | started | ran (result : BitVec 8)
  deriving DecidableEq, Repr

/-- One copy of the management mailbox (R279). -/
structure Mailbox where
  run    : MboxRun := .idle
  result : BitVec 8 := 0
  command : Word := 0
  args   : Sparse Byte := []
  /-- Host function through which the last command was started. -/
  fn     : Nat := 0
  deriving DecidableEq, Repr

/-- A firmware slot (R275, R283). -/
structure FwSlot where
  image  : List Byte := []
  failed : Bool := false
  deriving DecidableEq, Repr

/-- Storage that an error hits which its code cannot correct (R305, R316). -/
inductive Upset where
  | line  (l : Nat)
  | sram  (cplx range : Nat)
  | slot  (cplx o range : Nat)
  deriving DecidableEq, Repr

/-- What an event log entry records (R282); the manual does not give the entry's bit layout. -/
inductive LogEvent where
  | clockStep (step : Nat) (sensor : Option Nat)
  | digest (value : Nat)
  | retired (unit : RasUnit) (count : Nat)
  | lastingFault (unit : RasUnit)
  | uncorrectable (line : Nat)
  | corrected (unit : RasUnit)
  | race (a b : Party)
  | doubleFault (sid : Nat) (cause : BitVec 8)
  | launchFault (part : Nat) (queue : Bool) (n addr : Nat)
  | queueOff (part q : Nat)
  | imageFailed
  | link (n : Nat)
  | struck (u : Upset)
  | fatal (kind : BitVec 8) (place : BitVec 32)
  | lostWrite (pa : Nat)
  deriving DecidableEq, Repr

/-- The header of the Dusk record (R322). -/
structure Dusk where
  more   : Nat
  kind   : BitVec 8
  place  : BitVec 32
  clock  : Nat
  size   : Nat
  offset : List Nat
  deriving DecidableEq, Repr

/-- What moves at a step: a strand issues, or one of the table's steps without encoding happens, or one of the other
things happens that the outside world can do. -/
inductive Move where
  | issue (sid : Nat)
  | act (i : Instr)
  /-- The host writes bytes of the mailbox window through one of its functions (R279). -/
  | mailbox (fn offset : Nat) (bytes : List Byte)
  /-- An uncorrectable error strikes (R316). -/
  | upset (u : Upset)
  /-- The host (0) or peer device `agent - 1` reads `n` bytes of its own memory, or writes some (R270, R280). -/
  | own (agent addr n : Nat) (write : Option (List Byte))
  /-- The monitor verifies a partition's image (R275). -/
  | partImage (image : List Byte)
  /-- The last link to a peer fails: until it goes down, accesses to that peer are pending ones (R319). -/
  | failing (link : Nat)
  /-- The package loses its power (R284). -/
  | powerOff
  deriving DecidableEq, Repr

/-- The package. -/
structure State where
  strands  : Sparse Strand
  cxs      : Sparse Complex
  parts    : Sparse Partition
  /-- DRAM by DRAM address; host and peer memory by physical address (R158, R271). -/
  mem      : List Host.Cell
  /-- For each DRAM line, the key it was last written under (R273). -/
  lineKey  : Sparse (Option Key)
  /-- How many keys each slot has had before the one it holds. -/
  keyLoads : Sparse Nat
  /-- The key material that each slot was loaded with, as a number; none while its key is a random one. -/
  keyBytes : Sparse (Option Nat)
  poison   : List Nat
  badLines : List Nat
  copies   : List Copy
  order    : Order
  clock    : Nat
  psel     : Word
  mvec     : Word
  qpwrOn   : BitVec 4
  qpwrReady : BitVec 4
  /-- The governor's clock step: 0 for 2.0 GHz to 5 for 1.0 GHz (R13). Wall time in units of 5/2520 ns, the time of
  the governor's last move, and the time since which every sensor has stayed below its limit. -/
  clockStep : Nat
  time     : Nat
  steppedAt : Option Nat
  coolAt   : Nat
  stage    : BitVec 8
  failCode : BitVec 8
  halted   : Bool
  hostBox  : Mailbox
  monBox   : Mailbox
  fwA      : FwSlot
  fwB      : FwSlot
  /-- The slot marked active is B; a committed image waits for the next Dawn; the fused counter. -/
  activeB  : Bool
  committed : Bool
  rollback : Nat
  log      : List LogEvent
  /-- The Dusk record written since the last Dawn (R320-R322). -/
  dusk     : Option Dusk
  /-- MSI-X vectors raised and not yet taken by the host, as function and vector (R279, R321). -/
  msix     : List (Nat × Nat)
  /-- Peer devices of the domain, those removed from it, and the links that are down (R271, R319). -/
  peers    : List Nat
  removed  : List Nat
  linksDown : List Nat
  /-- The peer whose last link is failing (R319). -/
  losing   : Option Nat
  /-- Where each migrated page is backed, its moves in this window, the clock at which that began, and how often each
  device has reached each page, by page number × 128 + id, the part itself being device 64 (R281, log 33). -/
  pageHome : Sparse Nat
  pageMoves : Sparse Nat
  windowAt : Nat
  pageUse  : Sparse Nat
  /-- Corrected errors with their times, units that hold a lasting fault with their counts, spare rows used per
  channel, retired units (R317, R318). -/
  errors   : List (RasUnit × Nat)
  lasting  : List (RasUnit × Nat)
  spares   : Sparse Nat
  retired  : List RasUnit
  /-- The model's own fields: the strand that issues, the slot that each core has issued from last (R36), the steps
  the environment has chosen, the counter of free values, the next agent number. -/
  cur      : Nat
  turns    : Sparse Nat
  agenda   : List Move
  freeCount : Nat
  nextId   : Nat
  deriving DecidableEq, Repr

/-- Why the machine stops. Only `step` raises a fault; no instruction does. -/
inductive Fault where
  /-- Raised by `step` after a fatal error (R321): the package stays halted until the next Dawn. Safe. -/
  | halted
  deriving DecidableEq, Repr

/-- Why an instruction has no meaning. -/
inductive Refusal where
  /-- Raised by an arm of `exec` for an instruction that is not modelled yet. Safe. -/
  | notModelled (mnemonic : String)
  deriving DecidableEq, Repr

/-- What a memory byte that nothing has written reads as (log 3). -/
def unwritten : Byte := 0

/-- The canonical form of a memory (strictly rising addresses, no entry equal to an unwritten byte). -/
def Memory.wf (m : List Host.Cell) : Bool := Sparse.wf unwritten m

/-- The package right after reset: nothing has run, Dawn is at its first stage (R275). -/
def State.reset : State :=
  { strands := [], cxs := [], parts := [], mem := [], lineKey := [], keyLoads := [], keyBytes := [], poison := []
    badLines := [], copies := [], order := {}, clock := 0, psel := 0, mvec := 0, qpwrOn := 0xF
    qpwrReady := 0xF, clockStep := 0, time := 0, steppedAt := none, coolAt := 0, stage := 0, failCode := 0
    halted := false, hostBox := {}, monBox := {}, fwA := {}, fwB := {}, activeB := false, committed := false
    rollback := 0, log := [], dusk := none, msix := [], peers := [], removed := [], linksDown := []
    losing := none, pageHome := [], pageMoves := [], windowAt := 0, pageUse := [], errors := [], lasting := []
    spares := [], retired := [], cur := 0, turns := [], agenda := [], freeCount := 0, nextId := 1 }

end Sys2Proof.Machine
end

