-- ==== Sys2Proof/Machine/Ops.lean ====
section
/-! DEFINITION. The named operations on strands, complexes and partitions: reads and writes of
registers, taking a trap (R285) and returning from one (R90). -/

namespace Sys2Proof.Machine

/-- What a meaning answers. -/
abbrev Out := Host.Outcome State Fault Refusal

/-! ### Who is where -/

/-- The strand in slot `sid` (`strandid`: core number × 8 + slot, R61). -/
def State.strand (s : State) (sid : Nat) : Strand := Sparse.get Strand.blank sid s.strands
/-- The strand that executes. -/
def State.me (s : State) : Strand := s.strand s.cur
/-- Replace the strand in slot `sid`. -/
def State.setStrand (s : State) (sid : Nat) (t : Strand) : State :=
  { s with strands := Sparse.put Strand.blank sid t s.strands }
/-- Replace the executing strand. -/
def State.setMe (s : State) (t : Strand) : State := s.setStrand s.cur t
/-- Partition `p`. -/
def State.part (s : State) (p : Nat) : Partition := Sparse.get Partition.reset p s.parts
/-- Replace partition `p`. -/
def State.setPart (s : State) (p : Nat) (x : Partition) : State :=
  { s with parts := Sparse.put Partition.reset p x s.parts }
/-- The executing strand's partition. -/
def State.myPart (s : State) : Partition := s.part s.me.part
/-- Replace the executing strand's partition. -/
def State.setMyPart (s : State) (x : Partition) : State := s.setPart s.me.part x
/-- Complex `x`. -/
def State.cx (s : State) (x : Nat) : Complex := Sparse.get Complex.reset x s.cxs
/-- Replace complex `x`. -/
def State.setCx (s : State) (x : Nat) (c : Complex) : State :=
  { s with cxs := Sparse.put Complex.reset x c s.cxs }

/-- The core, complex, cluster and quadrant of a strand slot (R7). -/
def coreOf (sid : Nat) : Nat := sid / 8
/-- The complex of a strand slot (R7). -/
def cxOf (sid : Nat) : Nat := sid / 16
/-- The cluster of a strand slot (R7). -/
def clusOf (sid : Nat) : Nat := sid / 64
/-- The quadrant of a strand slot (R7). -/
def quadOf (sid : Nat) : Nat := sid / 512
/-- The executing strand's complex. -/
def State.myCx (s : State) : Nat := cxOf s.cur

/-- Whether complex `x` belongs to partition `p` (R61, `cplxlo` and `cplxhi`). -/
def Partition.owns (p : Partition) (x : Nat) : Bool :=
  if x < 64 then p.cplxlo.getLsbD x else x < 128 && p.cplxhi.getLsbD (x - 64)

/-- The partition number that monitor strands carry: none of the 16 (R277, log 9). -/
def noPart : Nat := 16

/-- A fresh agent number. -/
def State.fresh (s : State) : Nat × State := (s.nextId, { s with nextId := s.nextId + 1 })

/-- A value the manual leaves unspecified (log 2), and the state with the counter advanced. -/
def State.free (s : State) : Word × State :=
  (Config.freeValue s.freeCount, { s with freeCount := s.freeCount + 1 })

/-! ### Register files (R56, R60) -/

/-- Scalar register: `s0` reads zero. -/
def Strand.reg (t : Strand) (r : SReg) : Word := if r = 0 then 0 else Sparse.get 0 r.toNat t.regs
/-- A write of a scalar register: `s0` discards it. -/
def Strand.setReg (t : Strand) (r : SReg) (v : Word) : Strand :=
  if r = 0 then t else { t with regs := Sparse.put 0 r.toNat v t.regs }
/-- Element mask: `m0` reads all ones. -/
def Strand.mask (t : Strand) (m : MReg) : Mask :=
  if m = 0 then BitVec.allOnes 65536 else Sparse.get 0 m.toNat t.masks
/-- A write of an element mask: `m0` discards it; any other sets its `mdirty` bit (R146). -/
def Strand.setMask (t : Strand) (m : MReg) (v : Mask) : Strand :=
  if m = 0 then t
  else { t with masks := Sparse.put 0 m.toNat v t.masks, mdirty := t.mdirty ||| (1 <<< m.toNat) }
/-- Chain register. -/
def Strand.chain (t : Strand) (c : CReg) : Chain := Sparse.get Chain.empty c.toNat t.chains
/-- A write of a chain register sets its `cdirty` bit (R126). -/
def Strand.setChain (t : Strand) (c : CReg) (v : Chain) : Strand :=
  { t with chains := Sparse.put Chain.empty c.toNat v t.chains, cdirty := t.cdirty ||| (1 <<< c.toNat) }
/-- A chain register changed in place, with no mark in `cdirty`. -/
def Strand.putChain (t : Strand) (c : CReg) (v : Chain) : Strand :=
  { t with chains := Sparse.put Chain.empty c.toNat v t.chains }
/-- Completion mask. -/
def Strand.kmask (t : Strand) (k : KReg) : KMask := Sparse.get KMask.clear k.toNat t.kmasks
/-- Replace a completion mask. -/
def Strand.setKmask (t : Strand) (k : KReg) (v : KMask) : Strand :=
  { t with kmasks := Sparse.put KMask.clear k.toNat v t.kmasks }

/-- The executing strand's scalar register. -/
def State.reg (s : State) (r : SReg) : Word := s.me.reg r

/-- The strand goes on at `pc`: its instruction has completed, so it waits for nothing. -/
def Strand.go (t : Strand) (pc : Word) : Strand := { t with pc := pc, wait := .none }

/-- The write of a scalar result, and the PC past the instruction (R69). -/
def State.result (s : State) (d : SReg) (v : Word) : State := s.setMe ((s.me.setReg d v).go (s.me.pc + 4))

/-- The PC past the instruction (R69). -/
def State.advance (s : State) : State := s.setMe (s.me.go (s.me.pc + 4))

/-- A clock that the strand was ready for and not issued in (R36). -/
def Strand.ages (t : Strand) : Strand :=
  if t.resident && t.wait == .none then { t with unissued := t.unissued + 1 } else t

/-- An event log entry (R282): 4,096 are kept, the oldest overwritten first. -/
def State.logs (s : State) (e : LogEvent) : State :=
  { s with log := (s.log ++ [e]).drop ((s.log.length + 1) - 4096) }

/-- Strand slots with a resident strand, ascending. -/
def State.residents (s : State) : List Nat :=
  (s.strands.filter fun e => e.2.resident).map (·.1)

/-- Resident strands of complex `x`. -/
def State.onCx (s : State) (x : Nat) : List Nat := s.residents.filter fun i => cxOf i == x

/-- Resident strands of partition `p`. -/
def State.ofPart (s : State) (p : Nat) : List Nat := s.residents.filter fun i => (s.strand i).part == p

/-- A strand that waits in `wfi` becomes ready and continues past it (R93). -/
def State.wake (sid : Nat) (s : State) : State :=
  let t := s.strand sid
  if t.wait = .wfi then s.setStrand sid (t.go (t.pc + 4)) else s

/-- An event of R93 in partition `p`: its strands leave `wfi`. -/
def State.wakePart (s : State) (p : Nat) : State := (s.ofPart p).foldl (fun s i => State.wake i s) s

/-- An event that wakes the monitor strands (R277). -/
def State.wakeMonitor (s : State) : State :=
  (s.residents.filter fun i => (s.strand i).mode == .monitor).foldl (fun s i => State.wake i s) s

/-! ### Pre-emption requests (R295) -/

/-- Partitions whose `preq` names strand slot `sid` and is busy. -/
def State.resolveIn (res : BitVec 3) (sid : Nat) : List Nat → State → State
  | [], s => s
  | p :: ps, s =>
      let x := s.part p
      let s := if x.preqBusy && x.preqTarget.toNat == sid then
          s.setPart p { x with preqBusy := false, preqResult := res } else s
      State.resolveIn res sid ps s

/-- Resolve every request directed at `sid` with result `res` (R295); a monitor strand that waits in
`wfi` continues (R277). -/
def State.resolvePreq (s : State) (res : BitVec 3) (sid : Nat) : State :=
  if (s.strand sid).preq then
    let s := State.resolveIn res sid (List.range 16) s
    (s.setStrand sid { s.strand sid with preq := false, due := false }).wakeMonitor
  else s

/-! ### Traps (R285-R287) -/

/-- What a trap records. -/
structure TrapRec where
  cause  : Cause
  epc    : Word
  eval   : Word
  evpos  : Word
  vstart : Word

/-- The vector of a trap taken in mode `m` (R285). -/
def State.vector (s : State) (sid : Nat) : Word :=
  if (s.strand sid).mode = .monitor then s.mvec else (s.part (s.strand sid).part).evec

/-- `estatus` and the mode after trap entry (R285). -/
def Strand.enter (t : Strand) : Strand :=
  let rp : BitVec 4 := if t.redlive = 0 then 0 else 4
  let keep := t.estatus &&& 2
  match t.mode with
  | .monitor => { t with estatus := (t.estatus &&& 1) ||| keep ||| rp ||| 8 }
  | .supervisor => { t with estatus := 1 ||| keep ||| rp, mode := .supervisor }
  | .user => { t with estatus := keep ||| rp, mode := .supervisor }

/-- Trap entry of strand `sid` (R285). A convoy sets `redlive` and `memdone` before it; outside a
convoy they stand (log 10). -/
def State.trapIn (s : State) (sid : Nat) (r : TrapRec) : State :=
  let t := (s.strand sid).enter
  s.setStrand sid { t with
    epc := r.epc, ecause := r.cause.code, eval := r.eval, evpos := r.evpos, vstart := r.vstart
    pc := s.vector sid, wait := .none, again := none }

/-- A trap of the executing instruction, outside a convoy (R285): nothing else changes. -/
def State.trap (s : State) (c : Cause) (eval : Word) : State :=
  s.trapIn s.cur { cause := c, epc := s.me.pc, eval := eval, evpos := 0, vstart := 0 }

/-- A trap that names the instruction's own address in `eval` (R287). -/
def State.trapHere (s : State) (c : Cause) : State := s.trap c s.me.pc

/-- A pre-emption taken by strand `sid` (R43, R285, R295): the manual gives `eval` no value for it (log 2), and `evpos`
one only for a walk whose interim chains cannot be built (R249). -/
def State.preempted (s : State) (sid : Nat) (epc vstart : Word) (evpos : Word := 0) : State :=
  let f := s.free
  (f.2.resolvePreq 1 sid).trapIn sid { cause := .preemption, epc := epc, eval := f.1, evpos := evpos, vstart := vstart }

/-- Return from a trap (R90). -/
def State.trapReturn (s : State) : State :=
  let t := s.me
  let m : Mode := if t.estatus.getLsbD 3 then .monitor
    else if t.estatus.getLsbD 0 then .supervisor else .user
  s.setMe ({ t with mode := m }.go (t.epc &&& ~~~3))

/-- The executing strand waits (R36), and nothing else changes. -/
def State.waits (s : State) (w : Wait) : State := s.setMe { s.me with wait := w }

end Sys2Proof.Machine
end

