-- ==== Sys2Proof/Machine/Flags.lean ====
section
/-! DEFINITION. The mode fields of `gm` (R58) and the flags of `fflags` (R106). -/

namespace Sys2Proof.Machine

/-- Format of field `fa`: `gm` never holds a reserved code (R59). -/
def Gm.fmtA (g : Gm) : Fmt := (Fmt.ofCode g.fa.toNat).getD (.i 8)
/-- Format of field `fb`. -/
def Gm.fmtB (g : Gm) : Fmt := (Fmt.ofCode g.fb.toNat).getD (.i 8)
/-- Rounding, saturation and infinities of `gm`. -/
def Gm.num (g : Gm) : NumMode := { rnd := Rnd.ofCode g.rnd.toNat, sat := g.sat, inf := g.inf }

/-- Whether mode fields hold a reserved code (R59, R87). -/
def badMode (fa fb rnd g : Nat) : Bool :=
  (Fmt.ofCode fa).isNone || (Fmt.ofCode fb).isNone || decide (4 < rnd) || decide (4 < g)

/-- The flags raised are sticky (R106). -/
def Strand.raise (t : Strand) (f : Flags) : Strand := { t with fflags := t.fflags ||| f }

/-- Whole elements of `n` bytes (R123): floor(Len ÷ Size). -/
def elems (f : Fmt) (n : Nat) : Nat := n * 8 / f.bits
/-- Bytes that `n` elements fill, the last one whole. -/
def elemBytes (f : Fmt) (n : Nat) : Nat := (n * f.bits + 7) / 8
/-- Elements of a 512-byte element group (R37). -/
def groupElems (f : Fmt) : Nat := 4096 / f.bits

end Sys2Proof.Machine
end

