-- ==== Sys2Proof/Machine/Aes.lean ====
section
/-! DEFINITION. The cipher of DRAM lines (R273): AES-XTS-256 on one line of 64 bytes. The manual names IEEE 1619, which
builds it on the block cipher of FIPS 197: both are written here from their definitions, no table copied (PRESUMED,
log 6). -/

namespace Sys2Proof.Machine

/-! ### Bytes as polynomials over the two-element field -/

/-- A byte times `x`, modulo x^8 + x^4 + x^3 + x + 1. -/
def timesX (a : Byte) : Byte := if a.msb then (a <<< 1) ^^^ 0x1B else a <<< 1

/-- `a` times `x` to the power `n`. -/
def timesXs (a : Byte) : Nat → Byte
  | 0 => a
  | n + 1 => timesX (timesXs a n)

/-- The product of two bytes: one multiple of `a` for each bit of `b`. -/
def byteMul (a b : Byte) : Byte :=
  (List.range 8).foldl (fun p i => if b.getLsbD i then p ^^^ timesXs a i else p) 0

/-- `a` squared `n` times over. -/
def squared (a : Byte) : Nat → Byte
  | 0 => a
  | n + 1 => let q := squared a n; byteMul q q

/-- The inverse of a byte, and 0 of 0: its power 254, which is 2 + 4 + 8 + ... + 128. -/
def byteInv (a : Byte) : Byte := (List.range 7).foldl (fun p i => byteMul p (squared a (i + 1))) 1

/-- The substitution of a byte: its inverse beside four turns of it, with a constant added. -/
def substitute (a : Byte) : Byte :=
  let b := byteInv a
  b ^^^ b.rotateLeft 1 ^^^ b.rotateLeft 2 ^^^ b.rotateLeft 3 ^^^ b.rotateLeft 4 ^^^ 0x63

/-- The byte that `substitute` takes to `a`. -/
def restore (a : Byte) : Byte := byteInv (a.rotateLeft 1 ^^^ a.rotateLeft 3 ^^^ a.rotateLeft 6 ^^^ 0x05)

/-! ### The block cipher -/

/-- Bytes added place by place. -/
def addBytes (a b : List Byte) : List Byte := (a.zip b).map fun x => x.1 ^^^ x.2

/-- Word `i` of the key schedule from the words before it, the newest first: eight words to a key. -/
def nextKeyWord (i : Nat) (ws : List (List Byte)) : List Byte :=
  let last := ws.headD []
  let t :=
    if i % 8 = 0 then
      match (last.drop 1 ++ last.take 1).map substitute with
      | b :: bs => (b ^^^ timesXs 1 (i / 8 - 1)) :: bs
      | [] => []
    else if i % 8 = 4 then last.map substitute
    else last
  addBytes (ws.getD 7 []) t

/-- The sixty words of the key schedule of a 32-byte key, the newest first. -/
def keyWords (key : List Byte) : List (List Byte) :=
  (List.range 52).foldl (fun ws i => nextKeyWord (i + 8) ws :: ws)
    ((List.range 8).map fun i => (key.drop (4 * (7 - i))).take 4)

/-- The fifteen round keys, in order. -/
def roundKeys (key : List Byte) : List (List Byte) :=
  let ws := (keyWords key).reverse
  (List.range 15).map fun r => ((ws.drop (4 * r)).take 4).flatten

/-- A block given place by place: row `i % 4` of column `i / 4`. -/
def blockOf (f : Nat → Byte) : List Byte := (List.range 16).map f

/-- Row `r` turned by `r` columns, one way or the other. -/
def turnRows (back : Bool) (b : List Byte) : List Byte :=
  blockOf fun i => b.getD (i % 4 + 4 * ((i / 4 + (if back then 4 - i % 4 else i % 4)) % 4)) 0

/-- Each column times the matrix whose rows are turns of `c`. -/
def mixColumns (c : List Byte) (b : List Byte) : List Byte :=
  blockOf fun i => (List.range 4).foldl
    (fun p k => p ^^^ byteMul (b.getD (i / 4 * 4 + k) 0) (c.getD ((k + 4 - i % 4) % 4) 0)) 0

/-- A block of 16 bytes enciphered under round keys: the last of the fourteen rounds mixes no columns. -/
def encipher (rk : List (List Byte)) (b : List Byte) : List Byte :=
  (List.range 14).foldl (fun b r =>
    let t := turnRows false (b.map substitute)
    addBytes (if r < 13 then mixColumns [2, 3, 1, 1] t else t) (rk.getD (r + 1) []))
    (addBytes b (rk.getD 0 []))

/-- The block that `encipher` takes to `b`. -/
def decipher (rk : List (List Byte)) (b : List Byte) : List Byte :=
  (List.range 14).foldl (fun b r =>
    let t := addBytes b (rk.getD (14 - r) [])
    (turnRows true (if r = 0 then t else mixColumns [14, 11, 13, 9] t)).map restore) b
    |> fun b => addBytes b (rk.getD 0 [])

/-! ### A line -/

/-- The tweak of block `j` of the line at DRAM address `l`: the address enciphered under the second half of the key
material, times the `j`-th power of `x` in the field of 2^128 elements. -/
def tweakOf (key l : Nat) : Nat → Nat
  | 0 => leNat (encipher (roundKeys ((leBytes 64 key).drop 32)) (leBytes 16 l))
  | j + 1 =>
      let t := 2 * tweakOf key l j
      if t < 2 ^ 128 then t else (t - 2 ^ 128) ^^^ 0x87

/-- The bytes of block `j` of the line at `l` as DRAM holds them under `key`. -/
def sealBlock (key l j : Nat) (b : List Byte) : List Byte :=
  let t := leBytes 16 (tweakOf key l j)
  addBytes (encipher (roundKeys ((leBytes 64 key).take 32)) (addBytes b t)) t

/-- What a read under `key` makes of them. -/
def openBlock (key l j : Nat) (b : List Byte) : List Byte :=
  let t := leBytes 16 (tweakOf key l j)
  addBytes (decipher (roundKeys ((leBytes 64 key).take 32)) (addBytes b t)) t

/-- Byte `l` of a line that was written under the material `x`, read under the material `y`; `b` holds the plain bytes of
its block. -/
def crossByte (x y l : Nat) (b : List Byte) : Byte :=
  let ln := l / 64 * 64
  let j := l % 64 / 16
  (openBlock y ln j (sealBlock x ln j b)).getD (l % 16) 0

end Sys2Proof.Machine
end

