-- ==== Sys2Proof/Machine/Race.lean ====
section
/-! DEFINITION. Synchronisation and the race checker (R197-R201, R306, R307): every agent carries the
epochs of each agent that happen-before its next access; a release leaves them in a token, an acquire
takes them from one. -/

namespace Sys2Proof.Machine

/-- Epochs by agent. -/
abbrev Epochs := List (Nat × Nat)

/-- The later of two sets of epochs, agent by agent. -/
def Epochs.join (a b : Epochs) : Epochs :=
  b.foldl (fun (a : Epochs) e => if Sparse.get 0 e.1 a < e.2 then Sparse.put 0 e.1 e.2 a else a) a

/-- Every epoch of `a` is in `b`. -/
def Epochs.le (a b : Epochs) : Bool := a.all fun e => decide (e.2 ≤ Sparse.get 0 e.1 b)

/-- The location of a strand (R197). -/
def strandLoc (sid uid : Nat) : Token :=
  { inside := true, strand := some uid, core := some (coreOf sid), cplx := some (cxOf sid)
    clus := some (clusOf sid), quad := some (quadOf sid), scope := .sys, clk := [] }
/-- The location of an agent located at complex `x`: a copy or a stream refill (R197, R198). -/
def cplxLoc (x : Nat) : Token :=
  { inside := true, strand := none, core := none, cplx := some x, clus := some (x / 4)
    quad := some (x / 32), scope := .sys, clk := [] }
/-- The location of a graph copy node (R197). -/
def quadLoc (q : Nat) : Token :=
  { inside := true, strand := none, core := none, cplx := none, clus := none, quad := some q
    scope := .sys, clk := [] }
/-- The location of the launch unit (R197). -/
def pkgLoc : Token :=
  { inside := true, strand := none, core := none, cplx := none, clus := none, quad := none
    scope := .sys, clk := [] }
/-- The agent number of partition `p`'s launch unit: above every number that `fresh` gives. -/
def launchAgent (p : Nat) : Nat := 2 ^ 64 + p
/-- The number under which the chunks that copies of strand `u` have handled are gathered (R92, R201 case 5):
it makes no access of its own. -/
def copiesOf (u : Nat) : Nat := 2 ^ 67 + u
/-- The agent number of the host (0), and of peer device `d` (`d` + 1). -/
def outAgent (d : Nat) : Nat := 2 ^ 66 + d
/-- The location of the host and of peer devices (R197). -/
def outLoc : Token := { pkgLoc with inside := false }

/-- Both name the same instance. -/
def sameSome (a b : Option Nat) : Bool := a.isSome && a == b

/-- `incl(P, Q, s)` (R198). -/
def incl (p q : Token) (s : Scope) : Bool :=
  match s with
  | .strand => sameSome p.strand q.strand
  | .core => sameSome p.core q.core
  | .cplx => sameSome p.cplx q.cplx
  | .clus => sameSome p.clus q.clus
  | .quad => sameSome p.quad q.quad
  | .pkg => p.inside && q.inside
  | .sys => true

/-- The epochs that happen-before agent `a`'s next access. -/
def State.clkOf (s : State) (a : Nat) : Epochs := Sparse.get [] a s.order.clk

/-- Replace them. -/
def State.setClk (s : State) (a : Nat) (e : Epochs) : State :=
  { s with order := { s.order with clk := Sparse.put [] a e s.order.clk } }

/-- A release by agent `a` at `loc` (R200): what it leaves, and the state in which a new region begins. -/
def State.release (s : State) (a : Nat) (loc : Token) (sc : Scope) : Token × State :=
  let c := s.clkOf a
  let e := Sparse.put 0 a (Sparse.get 0 a c + 1) c
  ({ loc with scope := sc, clk := e }, s.setClk a e)

/-- What agent `b` has done happens-before agent `a`'s next access (R201 case 5). -/
def State.follows (s : State) (a b : Nat) : State :=
  let r := s.release b pkgLoc .sys
  r.2.setClk a (Epochs.join (r.2.clkOf a) r.1.clk)

/-- An acquire by agent `a` at `loc` of scope `t` (R201): tokens whose scope also includes both. -/
def State.acquire (s : State) (a : Nat) (loc : Token) (t : Scope) (toks : List Token) : State :=
  let good := toks.filter fun k => incl k loc k.scope && incl k loc t
  if good.isEmpty then s
  else s.setClk a (good.foldl (fun c k => Epochs.join c k.clk) (s.clkOf a))

/-- The executing strand's agent number and location. -/
def State.myLoc (s : State) : Token := strandLoc s.cur s.me.uid

/-- A release by the executing strand. -/
def State.myRelease (s : State) (sc : Scope) : Token × State := s.release s.me.uid s.myLoc sc
/-- An acquire by the executing strand. -/
def State.myAcquire (s : State) (t : Scope) (toks : List Token) : State :=
  s.acquire s.me.uid s.myLoc t toks

/-- A tagged byte as a key (R199). -/
def byteKey (tag loc : Nat) : Nat := tag * 2 ^ 48 + loc

/-- The release sequence at a key. -/
def State.tokensAt (s : State) (k : Nat) : List Token := Sparse.get [] k s.order.cells
/-- Replace it. -/
def State.setTokens (s : State) (k : Nat) (l : List Token) : State :=
  { s with order := { s.order with cells := Sparse.put [] k l s.order.cells } }

/-- A token more at a key: one that it makes superfluous goes. -/
def addToken (l : List Token) (t : Token) : List Token :=
  t :: l.filter fun u => !(decide ({ u with clk := [] } = { t with clk := [] }) && Epochs.le u.clk t.clk)

/-- Tokens that a release fence of agent `a` gives to its later writes (R201 case 2). -/
def State.fenceOf (s : State) (a : Nat) : List Token := Sparse.get [] a s.order.fence

/-- An ordinary read by `a` of the byte at `k`: what it finds serves a later acquire fence. -/
def State.sawTokens (s : State) (a k : Nat) : State :=
  let l := s.tokensAt k
  if l.isEmpty then s
  else { s with order := { s.order with seen := Sparse.put [] a (Sparse.get [] a s.order.seen ++ l) s.order.seen } }

/-- An ordinary write by `a` of the byte at `k` ends the release sequence there, and stands for an
earlier release fence of `a` (R201). -/
def State.wroteTokens (s : State) (a k : Nat) : State :=
  let l := s.fenceOf a
  if l.isEmpty && s.order.cells.isEmpty then s else s.setTokens k l

/-- A granule: 8 bytes of DRAM addresses (R306). -/
def State.granule (s : State) (g : Nat) : Granule := Sparse.get Granule.clear g s.order.grans

/-- Whether an earlier access `t` races with agent `a` of `family`, whose clock is `c` (R306). -/
def Touch.races (t : Touch) (a family : Nat) (c : Epochs) : Bool :=
  t.agent != a && t.family != family && Sparse.get 0 t.agent c < t.epoch

/-- The earlier accesses with which an access of granule `g` races (R306). -/
def State.racers (s : State) (a family g : Nat) (write : Bool) : List Touch :=
  let x := s.granule g
  let c := s.clkOf a
  (x.writes ++ (if write then x.reads else [])).filter fun t => t.races a family c

/-- Record an access of granule `g` (R306). -/
def State.touch (s : State) (a family : Nat) (name : Party) (g : Nat) (write : Bool) : State :=
  let x := s.granule g
  let t : Touch := { agent := a, epoch := Sparse.get 0 a (s.clkOf a) + 1, family := family, name := name }
  let others (l : List Touch) := l.filter fun u => u.agent != a
  let x' : Granule := if write then { x with writes := t :: others x.writes }
    else { x with reads := t :: others x.reads }
  { s with order := { s.order with grans := Sparse.put Granule.clear g x' s.order.grans } }

end Sys2Proof.Machine
end

