-- ==== Sys2Proof/Machine/Memory.lean ====
section
/-! DEFINITION. Memory (R150-R160, R254-R258, R271-R273, R305): bytes and the keys they are encrypted
under, translation, the checks of one access, cells of tagged pages, and fetching an instruction. -/

namespace Sys2Proof.Machine

/-! ### Bytes -/

/-- PA of the first byte that is not DRAM (R271). -/
def dramTop : Nat := 2 ^ 39
/-- First PA of peer memory (R271). -/
def peerBase : Nat := 2 ^ 46
/-- First PA of the monitor's mailbox (R271). -/
def mboxBase : Nat := 2 ^ 47

/-- The DRAM address of PA `p < 2^39` under a home policy (R158). -/
def dramAddr (p home : Nat) : Nat :=
  let c := bitsOf p 38 31
  let o := bitsOf p 30 0
  match home with
  | 1 => (c / 8 * 8 + bitsOf p 12 10) * 2 ^ 31 + (o - bitsOf p 12 10 * 2 ^ 10 + c % 8 * 2 ^ 10)
  | 2 => (c / 64 * 64 + bitsOf p 15 10) * 2 ^ 31 + (o - bitsOf p 15 10 * 2 ^ 10 + c % 64 * 2 ^ 10)
  | _ => c * 2 ^ 31 + o

/-- The key under which memory holds the byte of PA `p`: its DRAM address, or the PA itself. -/
def placeOf (p home : Nat) : Nat := if p < dramTop then dramAddr p home else p

/-- The byte held at place `l`. -/
def State.byteAt (s : State) (l : Nat) : Byte := Sparse.get unwritten l s.mem
/-- Memory with byte `b` at place `l`. -/
def State.setByte (s : State) (l : Nat) (b : Byte) : State := { s with mem := Sparse.put unwritten l b s.mem }
/-- Memory with bytes `bs` from place `l`. -/
def State.setBytes (s : State) (l : Nat) : List Byte → State
  | [] => s
  | b :: bs => (s.setByte l b).setBytes (l + 1) bs
/-- `n` bytes from place `l`. -/
def State.bytesAt (s : State) (l n : Nat) : List Byte := (List.range n).map fun i => s.byteAt (l + i)
/-- First byte of the Dusk region (R320). -/
def duskBase : Nat := 0x7FF0000000

/-- Whether place `l` lies in the Dusk region (R320). -/
def inDusk (l : Nat) : Bool := duskBase ≤ l && l < dramTop

/-- The key in a slot (R273): the material it was loaded with, or a random key that no other slot has. -/
def State.keyNow (s : State) (k : Nat) : Key :=
  let n := Sparse.get 0 k s.keyLoads
  match Sparse.get none k s.keyBytes with
  | some b => .loaded k n b
  | none => .random k n
/-- A key as a number. -/
def Key.num : Key → Nat
  | .folman => 1
  | .random k n => 2 + 4 * (k + 2 ^ 14 * n)
  | .loaded k n m => 3 + 4 * (k + 2 ^ 14 * (m + 2 ^ 512 * n))
/-- The number that stands for no key slot at all, in a read that names none (log 6). -/
def noKey : Nat := 0
/-- Whether a slot still holds key `w`: Folman's is in none (R320). -/
def State.keyHeld (s : State) : Key → Bool
  | .folman => false
  | .random k n => s.keyNow k == .random k n
  | .loaded k n m => s.keyNow k == .loaded k n m

/-- The key that line `ln` is encrypted under: in the Dusk region, Folman's (R273, R320). -/
def State.keyOf (s : State) (ln : Nat) : Option Key :=
  if inDusk (ln * 64) then some .folman else Sparse.get none ln s.lineKey

/-- The byte at place `l` of a line written under key `w`, as a read under key `v` finds it (R273): loaded material fixes
it, a random key does not. A slot that has been loaded anew with the material it had leaves its lines unreadable too, as
R273 says of every reload (log 6). -/
def State.crossed (s : State) (w v : Key) (l : Nat) : Byte :=
  let hidden := Config.unreadable w.num v.num l (s.bytesAt (l / 64 * 64) 64)
  match w, v with
  | .loaded j _ x, .loaded k _ y =>
      if x ≠ y then crossByte x y l (s.bytesAt (l / 16 * 16) 16)
      else if j = k then hidden else s.byteAt l
  | _, _ => hidden

/-- The byte at place `l` as a read under key slot `k` finds it (R273, log 6). -/
def State.plainByte (s : State) (k l : Nat) : Byte :=
  if dramTop ≤ l then s.byteAt l
  else
    match s.keyOf (l / 64) with
    | none => s.byteAt l
    | some w => if w = s.keyNow k then s.byteAt l else s.crossed w (s.keyNow k) l

/-- The byte at place `l` as a read that names no key slot finds it (R273, log 6): a table walk, a descriptor, the host
or a peer. -/
def State.clearByte (s : State) (l : Nat) : Byte :=
  if dramTop ≤ l then s.byteAt l
  else
    match s.keyOf (l / 64) with
    | none => s.byteAt l
    | some w => if s.keyHeld w then s.byteAt l else Config.unreadable w.num noKey l (s.bytesAt (l / 64 * 64) 64)

/-- `n` bytes of PA `p` as a number, read by the part itself: a table walk or a descriptor (R154). The manual names
no home policy for these reads: policy 0 is the model's choice (log 47). -/
def State.physNat (s : State) (p n : Nat) : Nat := leNat ((List.range n).map fun i => s.clearByte (placeOf p 0 + i))

/-- `n` bytes from place `l` under key slot `k`. -/
def State.plain (s : State) (k l n : Nat) : List Byte := (List.range n).map fun i => s.plainByte k (l + i)

/-- The line of place `l` re-encrypted under key slot `k` (R273): the whole line is the data unit. -/
def State.rekey (s : State) (k l : Nat) : State :=
  if dramTop ≤ l then s
  else
    let w := s.keyNow k
    let ln := l / 64
    if s.keyOf ln = some w then s
    else
      let bs := s.plain k (ln * 64) 64
      { s.setBytes (ln * 64) bs with lineKey := Sparse.put none ln (some w) s.lineKey }

/-- Write bytes from place `l`, inside one line, under key slot `k`: none in the Dusk region, which only Folman writes
(R320, log 35). -/
def State.putPlain (s : State) (k l : Nat) (bs : List Byte) : State :=
  if inDusk l then s else (s.rekey k l).setBytes l bs

/-! ### The monitor's mailbox window (R279) -/

/-- The Dawn status word (R275, R279, R321). -/
def State.statusWord (s : State) : Nat :=
  s.stage.toNat + 256 * s.failCode.toNat + (if s.halted then 2 ^ 31 else 0)

/-- The control doubleword of a mailbox (R279). -/
def Mailbox.control (b : Mailbox) : Nat := (if b.run = .idle then 0 else 1) + 256 * b.result.toNat

/-- Byte `o` of a mailbox window (R279). -/
def State.boxByte (s : State) (b : Mailbox) (o : Nat) : Byte :=
  if o < 4 then BitVec.ofNat 8 (s.statusWord / 256 ^ o)
  else if 8 ≤ o ∧ o < 16 then BitVec.ofNat 8 (b.control / 256 ^ (o - 8))
  else if 16 ≤ o ∧ o < 24 then BitVec.ofNat 8 (b.command.toNat / 256 ^ (o - 16))
  else if 0x100 ≤ o ∧ o < 0x1000 then Sparse.get 0 (o - 0x100) b.args
  else 0

/-- A write of byte `o` of a mailbox window (R279). -/
def Mailbox.put (b : Mailbox) (o : Nat) (v : Byte) : Mailbox :=
  if o = 8 then (if v.getLsbD 0 && b.run = .idle then { b with run := .started } else b)
  else if 16 ≤ o ∧ o < 24 then
    let sh := 8 * (o - 16)
    let w := (b.command &&& ~~~((0xFF : Word) <<< sh)) ||| (v.setWidth 64 <<< sh)
    { b with command := w &&& 0x0000FFFF0000FFFF }
  else if 0x100 ≤ o ∧ o < 0x1000 then { b with args := Sparse.put 0 (o - 0x100) v b.args }
  else b

/-- Writes of consecutive bytes of a mailbox window. -/
def Mailbox.puts (b : Mailbox) (o : Nat) : List Byte → Mailbox
  | [] => b
  | v :: vs => (b.put o v).puts (o + 1) vs

/-! ### Translation (R153-R159, R278) -/

/-- What translation gives for one address. -/
structure Page where
  pa     : Nat
  home   : Nat := 0
  key    : Nat := 0
  format : Nat := 0
  /-- Level of the leaf: 3 for a 64 KiB page. -/
  level  : Nat := 3
  tagged : Bool := false
  user   : Bool := false
  exec   : Bool := true
  write  : Bool := true
  read   : Bool := true
  /-- Made without translation (R278). -/
  direct : Bool := false
  deriving DecidableEq, Repr

/-- Shift and index width of each level (R154). -/
def walkLevels : List (Nat × Nat × Nat) := [(0, 49, 8), (1, 38, 11), (2, 27, 11), (3, 16, 11)]

/-- The walk from `node` through the remaining levels (R154-R156). A valid entry of level 3 that is no leaf fails it: the
manual does not name that entry (log 22). -/
def State.walk (s : State) (va : Nat) : Nat → List (Nat × Nat × Nat) → Option Page
  | _, [] => none
  | node, (lv, sh, w) :: rest =>
      let e := s.physNat (node + 8 * (va / 2 ^ sh % 2 ^ w)) 8
      if !bitOf e 0 || bitsOf e 63 62 != 0 then none
      else if !bitOf e 1 then
        if bitsOf e 27 2 != 0 then none else s.walk va (bitsOf e 61 28 * 2 ^ 14) rest
      else
        let frame := bitsOf e 61 30 * 2 ^ 16
        if lv = 0 || frame % 2 ^ sh != 0 || bitsOf e 29 28 = 3 then none
        else some {
          pa := frame + va % 2 ^ sh, home := bitsOf e 29 28, key := bitsOf e 27 14
          format := bitsOf e 13 8, level := lv, tagged := bitOf e 6, user := bitOf e 5
          exec := bitOf e 4, write := bitOf e 3, read := bitOf e 2 }

/-- PA of a partition's level-0 table node (R157). -/
def Partition.root (p : Partition) : Nat := bitsOf p.ptroot.toNat 47 14

/-- The page that holds `va` for an access of partition `p` in mode `m`: none is cause 0x10
(R153, R156, R157, R278). -/
def State.page (s : State) (p : Nat) (m : Mode) (va : Int) : Option Page :=
  if va < 0 then none
  else
    let v := va.toNat
    let x := s.part p
    if m = .monitor then (if v < 2 ^ 48 then some { pa := v, direct := true } else none)
    else if x.root = 0 then
      if m = .supervisor && decide (v < 2 ^ 48) then
        some { pa := v, key := bitsOf x.keyrange.toNat 13 0, direct := true }
      else none
    else if v < 2 ^ 57 then s.walk v (x.root * 2 ^ 14) walkLevels
    else none

/-- Whether PA `a` lies in one of the partition's ranges (R159, R272). -/
def Partition.inBounds (p : Partition) (a : Nat) : Bool :=
  (List.range 8).any fun i =>
    let b := (Sparse.get 0 i p.pbound).toNat
    bitsOf b 31 0 ≤ a / 2 ^ 16 && a / 2 ^ 16 ≤ bitsOf b 63 32

/-- Whether the partition may name key slot `k` (R159, R272). -/
def Partition.ownsKey (p : Partition) (k : Nat) : Bool :=
  bitsOf p.keyrange.toNat 13 0 ≤ k && k ≤ bitsOf p.keyrange.toNat 29 16

/-- Whether place `l` lies in the memory of the peer whose last link is failing: an access to it is pending (R319). -/
def State.lost (s : State) (l : Nat) : Bool :=
  match s.losing with
  | none => false
  | some d => peerBase + d * 2 ^ 40 ≤ l && l < peerBase + (d + 1) * 2 ^ 40

/-- Whether PA `a` names something in mode `m` (R271, R284, R319). -/
def State.reachable (s : State) (m : Mode) (a : Nat) : Bool :=
  if a < dramTop then m != .monitor || s.qpwrReady.getLsbD (a / 2 ^ 37)
  else if a < peerBase then true
  else if a < mboxBase then
    let d := (a - peerBase) / 2 ^ 40
    (a - peerBase) % 2 ^ 40 < dramTop && s.peers.contains d && !s.removed.contains d
  else m == .monitor && decide (a < mboxBase + 65536)

/-- Permission, bounds, key slot and address map: cause 0x11 when false (R156, R159, R271); nobody but Folman writes the
Dusk region, and a store to it is refused so (R320, log 35). -/
def State.permits (s : State) (p : Nat) (m : Mode) (g : Page) (load store fetch : Bool) : Bool :=
  let x := s.part p
  (!load || g.read) && (!store || g.write) && (!fetch || g.exec)
  && (g.direct || (match m with | .user => g.user | _ => !fetch || !g.user))
  && s.reachable m g.pa && !(store && inDusk (placeOf g.pa g.home))
  && (m == .monitor || (x.inBounds g.pa && x.ownsKey g.key))

/-! ### Tagged pages (R254-R257) -/

/-- On whose behalf an access is made: partition, mode, effective tag on a tagged page, agent, its family and its
name for the race checker, which does not see a `quiet` access (R306, R307). -/
structure Access where
  part   : Nat
  mode   : Mode
  tag    : Nat
  agent  : Nat
  family : Nat
  name   : Party := .strand 0
  quiet  : Bool := false
  deriving DecidableEq, Repr

/-- Access by the executing strand. -/
def State.myAccess (s : State) : Access :=
  { part := s.me.part, mode := s.me.mode, tag := s.me.ctx.toNat, agent := s.me.uid, family := s.me.uid
    name := .strand s.cur }

/-- State of tag `t` of a partition: tag 0 is always live (R252). -/
def Partition.tag (p : Partition) (t : Nat) : TagState :=
  if t = 0 then .live else Sparse.get .free t p.tags

/-- Order 5 of R78 and R166: the tag that a tagged page is reached with is live. -/
def State.tagOk (s : State) (a : Access) (g : Page) : Bool :=
  !g.tagged || ((s.part a.part).tag a.tag == .live && decide (a.tag < 65536))

/-- The cell of a line and tag, if it exists (R255). -/
def Partition.cell (p : Partition) (line tag : Nat) : Option CellEntry :=
  p.cells.find? fun c => c.line == line && c.tag == tag

/-- Place of the first byte of cell `i` (R256). -/
def Partition.cellPlace (p : Partition) (i : Nat) : Nat := p.cellbase.toNat + 64 * i

/-- Effective tag of an access to a page (R199). -/
def Access.tagOn (a : Access) (g : Page) : Nat := if g.tagged then a.tag else 0

/-- Where the bytes of an access lie: the cell of its tag, or the line itself (R255). An access through a page that the
monitor has mapped onto the cell store meets the plain bytes that stand there, and leaves its own: R256 calls the contents
of the cells undefined then (log 80). -/
def State.locate (s : State) (a : Access) (g : Page) : Nat :=
  let l := placeOf g.pa g.home
  let t := a.tagOn g
  if t = 0 then l
  else match (s.part a.part).cell (l / 64) t with
    | some c => (s.part a.part).cellPlace c.idx + l % 64
    | none => l

/-- Whether a store must first materialise a cell (R208, R255). -/
def State.needsCell (s : State) (a : Access) (g : Page) : Bool :=
  a.tagOn g != 0 && ((s.part a.part).cell (placeOf g.pa g.home / 64) (a.tagOn g)).isNone

/-- The effective tag of the bytes that a read finds: a template read is one of tag 0 for every relation (R208). -/
def State.readTag (s : State) (a : Access) (g : Page) : Nat := if s.needsCell a g then 0 else a.tagOn g

/-- The lowest free cell of the store, searching `n` cells from `i`. -/
def freeCell (cells : List CellEntry) (i : Nat) : Nat → Option Nat
  | 0 => none
  | n + 1 => if cells.any fun c => c.idx == i then freeCell cells (i + 1) n else some i

/-- The cell a materialisation would take: only the first `cells.length + 1` need be looked at. -/
def Partition.takeCell (p : Partition) : Option Nat :=
  freeCell p.cells 0 (Nat.min p.cellsize.toNat (p.cells.length + 1))

/-- Whether some draining tag still holds cells (R257). -/
def Partition.drainPending (p : Partition) : Bool :=
  p.cells.any fun c => match p.tag c.tag with | .draining _ => true | _ => false

/-- Line `l` of memory written whole: its marker goes (R305). -/
def State.unmark (s : State) (l : Nat) : State :=
  { s with poison := s.poison.filter (· != l), badLines := s.badLines.filter (· != l) }

/-- A materialisation (R208): an ordinary read of the template's line, whose bytes are copied to a free cell; the
cell's line loses its marker. -/
def State.materialise (s : State) (a : Access) (g : Page) : State :=
  let p := s.part a.part
  let line := placeOf g.pa g.home / 64
  match p.takeCell with
  | none => s
  | some i =>
      let dst := p.cellPlace i
      let s := s.putPlain g.key dst (s.plain g.key (line * 64) 64)
      let s := s.unmark (dst / 64)
      let s := s.setPart a.part { s.part a.part with
        cells := (s.part a.part).cells ++ [{ line := line, tag := a.tagOn g, idx := i }] }
      let s := (List.range 64).foldl (fun s k => s.sawTokens a.agent (byteKey 0 (line * 64 + k))) s
      (List.range 64).foldl (fun s k => s.wroteTokens a.agent (byteKey (a.tagOn g) (line * 64 + k))) s

/-! ### The checks of an access (R78, R166) -/

/-- What Folman logs of a failed check: the DRAM line that a read found uncorrectable (R305), the two agents of a
race (R307), one pair for each earlier access that it conflicts with. -/
structure Note where
  line   : Option Nat := none
  rivals : List (Party × Party) := []
  deriving DecidableEq, Repr

/-- What the checks of an access find. -/
inductive Check where
  | ok (g : Page)
  /-- A failed check: its cause and what is logged of it. -/
  | bad (c : Cause) (note : Note)
  /-- A store waits for a cell (R257). -/
  | cell
  deriving DecidableEq, Repr

/-- Whether the race checker covers the page (R306). -/
def Page.covered (g : Page) : Bool := !g.tagged && g.write && g.format == 0 && g.pa < dramTop

/-- Granules of `n` bytes from place `l`. -/
def granules (l n : Nat) : List Nat := (List.range ((l + n - 1) / 8 + 1 - l / 8)).map (l / 8 + ·)

/-- Whether the line of place `l` is marked (R305). -/
def State.marked (s : State) (l : Nat) : Bool := l < dramTop && s.poison.contains (l / 64)
/-- Whether the line of place `l` holds an uncorrectable error that no read has found (R305, R316). -/
def State.broken (s : State) (l : Nat) : Bool := l < dramTop && s.badLines.contains (l / 64)

/-- Orders 5 to 8 of R78 and R166 for `n` bytes on page `g`, whose other checks have passed.
`covers`: the access, with its fellows, writes the whole line (R305). -/
def State.checkLate (s : State) (a : Access) (g : Page) (n : Nat) (load store covers : Bool) : Check :=
  if !s.tagOk a g then .bad .tag {}
  else
    let x := s.part a.part
    let need := store && s.needsCell a g
    if need && x.takeCell.isNone then (if x.drainPending then .cell else .bad .cellStore {})
    else
      let l := s.locate a g
      let rivals := if !a.quiet && g.covered then (granules l n).flatMap fun k => s.racers a.agent a.family k store else []
      if !rivals.isEmpty then .bad .race { rivals := (rivals.map (·.name)).eraseDups.map fun r => (r, a.name) }
      else if load && s.lost l then .bad .poison {}
      else if (load || need) && (s.marked l || s.broken l) then .bad .poison { line := some (l / 64) }
      else if store && !covers && !need && s.marked l then .bad .poison {}
      else .ok g

/-- Order 4 of R78 and R216: plain pages only, and tagged ones below 2^39 (R162, R254). -/
def Page.plainOk (g : Page) : Bool := g.format == 0 && !(g.tagged && dramTop ≤ g.pa)

/-- Orders 2 to 8 of R78 for `n` bytes at `va`. -/
def State.checkAt (s : State) (a : Access) (va : Int) (n : Nat) (load store covers : Bool) : Check :=
  match s.page a.part a.mode va with
  | none => .bad .notPresent {}
  | some g =>
      if !s.permits a.part a.mode g load store false then .bad .permission {}
      else if !g.plainOk then .bad .format {}
      else s.checkLate a g n load store covers

/-- The checks of R78 for `n` bytes at `va`. -/
def State.check (s : State) (a : Access) (va : Int) (n : Nat) (load store : Bool) (covers : Bool := false) : Check :=
  if va % n ≠ 0 then .bad .misaligned {} else s.checkAt a va n load store covers

/-- What a failed check leaves: the marker on the line found uncorrectable, and Folman's log (R305, R307). -/
def State.noted (s : State) (n : Note) : State :=
  let s := match n.line with
    | some l =>
        if s.badLines.contains l then
          { s with badLines := s.badLines.filter (· != l), poison := l :: s.poison }.logs (.uncorrectable l)
        else s
    | none => s
  n.rivals.foldl (fun s r => s.logs (.race r.1 r.2)) s

/-! ### Performed accesses -/

/-- The number that names this part itself among the devices of the domain: peers have 0 to 63. -/
def thisPart : Nat := 64

/-- An access of device `dev` to 64 KiB page `g` counted (R281). -/
def State.counts (s : State) (g dev : Nat) : State :=
  { s with pageUse := Sparse.put 0 (g * 128 + dev) (Sparse.get 0 (g * 128 + dev) s.pageUse + 1) s.pageUse }

/-- An access of the part itself to page `g` counted, when it belongs to a domain: each load, store or atomic, and each
element of a vector access or of a copy, is one (R281, log 33). -/
def State.used (s : State) (g : Page) : State :=
  if s.peers.isEmpty || decide (mboxBase ≤ g.pa) then s else s.counts (g.pa / 65536) thisPart

/-- Record an access with the race checker (R306). -/
def State.touchAll (s : State) (a : Access) (g : Page) (l n : Nat) (write : Bool) : State :=
  if !a.quiet && g.covered then (granules l n).foldl (fun s k => s.touch a.agent a.family a.name k write) s else s

/-- Bytes of a page as an access finds them: memory, or the monitor's mailbox. -/
def State.peek (s : State) (a : Access) (g : Page) (n : Nat) : List Byte :=
  if mboxBase ≤ g.pa then (List.range n).map fun i => s.boxByte s.monBox (g.pa - mboxBase + i)
  else s.plain g.key (s.locate a g) n

/-- An ordinary read of `n` bytes on page `g`: the bytes and the state after it. -/
def State.load (s : State) (a : Access) (g : Page) (n : Nat) : List Byte × State :=
  let l := s.locate a g
  let t := s.readTag a g
  let s' := (s.used g).touchAll a g l n false
  (s.peek a g n,
   if s.order.cells.isEmpty then s'
   else (List.range n).foldl (fun s i => s.sawTokens a.agent (byteKey t (placeOf g.pa g.home + i))) s')

/-- The bytes of a write placed, with its cell materialised first (R208); `covers` clears the marker. A write that a
failing peer has not acknowledged is discarded and logged (R319). -/
def State.poke (s : State) (a : Access) (g : Page) (bs : List Byte) (covers : Bool) : State :=
  if mboxBase ≤ g.pa then { s with monBox := s.monBox.puts (g.pa - mboxBase) bs }
  else if s.lost g.pa then s.logs (.lostWrite g.pa)
  else
    let s := if s.needsCell a g then s.materialise a g else s
    let l := s.locate a g
    let s := s.putPlain g.key l bs
    if covers && (s.marked l || s.broken l) then s.unmark (l / 64) else s

/-- An ordinary write of bytes on page `g`. -/
def State.store (s : State) (a : Access) (g : Page) (bs : List Byte) (covers : Bool := false) : State :=
  let s := (s.used g).poke a g bs covers
  let l := s.locate a g
  let s := s.touchAll a g l bs.length true
  let t := a.tagOn g
  if s.order.cells.isEmpty && (s.fenceOf a.agent).isEmpty then s
  else (List.range bs.length).foldl (fun s i => s.wroteTokens a.agent (byteKey t (placeOf g.pa g.home + i))) s

/-! ### Instruction fetch (R156, R209, R305) -/

/-- The word at `va` for strand `sid`, or the cause of a failed fetch. -/
def State.fetch (s : State) (sid va : Nat) : Except (Cause × Note) IWord :=
  let t := s.strand sid
  match s.page t.part t.mode va with
  | none => .error (.notPresent, {})
  | some g =>
      if !s.permits t.part t.mode g false false true then .error (.permission, {})
      else if g.format != 0 || g.tagged then .error (.format, {})
      else
        let l := placeOf g.pa g.home
        if s.lost l then .error (.poison, {})
        else if s.marked l || s.broken l then .error (.poison, { line := some (l / 64) })
        else if mboxBase ≤ g.pa then
          .ok (BitVec.ofNat 32 (leNat ((List.range 4).map fun i => s.boxByte s.monBox (g.pa - mboxBase + i))))
        else .ok (BitVec.ofNat 32 (leNat (s.plain g.key l 4)))

end Sys2Proof.Machine
end

