-- ==== Sys2Proof/Machine/Pools.lean ====
section
/-! DEFINITION. Buffer pools and spines (R116-R127, R298, R299): allocation, reference counts, the
reclaim queue, buffer bytes, and the edits of a list of segments. -/

namespace Sys2Proof.Machine

/-- Whether buffer `id` lies in the far pool (R117). -/
def idFar (id : Nat) : Bool := bitOf id 23
/-- Index of buffer `id` in its pool (R117). -/
def idIndex (id : Nat) : Nat := bitsOf id 22 0
/-- The id of buffer `i` of a pool (R117). -/
def mkId (far : Bool) (i : Nat) : Nat := if far then 2 ^ 23 + i else i

/-- A pool of a complex. -/
def Complex.pool (c : Complex) (far : Bool) : Pool := if far then c.far else c.near
/-- Replace a pool. -/
def Complex.setPool (c : Complex) (far : Bool) (p : Pool) : Complex :=
  if far then { c with far := p } else { c with near := p }
/-- A pool of complex `x`. -/
def State.pool (s : State) (x : Nat) (far : Bool) : Pool := (s.cx x).pool far
/-- Replace a pool of complex `x`. -/
def State.setPool (s : State) (x : Nat) (far : Bool) (p : Pool) : State := s.setCx x ((s.cx x).setPool far p)

/-- Buffer size in bytes (R116). -/
def Pool.size (p : Pool) : Nat := 64 * 2 ^ p.bsize.toNat
/-- Reference count of buffer `i` of a pool (R119). -/
def Pool.ref (p : Pool) (i : Nat) : Nat := Sparse.get 0 i p.refs
/-- Reference count of buffer `id` on complex `x`. -/
def State.refs (s : State) (x id : Nat) : Nat := (s.pool x (idFar id)).ref (idIndex id)

/-- One more reference. -/
def Pool.take (p : Pool) (i : Nat) : Pool := { p with refs := Sparse.put 0 i (p.ref i + 1) p.refs }
/-- One reference fewer. -/
def Pool.drop (p : Pool) (i : Nat) : Pool := { p with refs := Sparse.put 0 i (p.ref i - 1) p.refs }

/-- The header of buffer `i` (R118), as the Dusk record shows it: `waiting` when it awaits the reclaimer. -/
def Pool.header (p : Pool) (far waiting : Bool) (i : Nat) : Nat :=
  let link := match p.free.dropWhile (· != i) with
    | _ :: n :: _ => mkId far n
    | _ => 0xFFFFFF
  link * 2 ^ 40 + (if waiting then 2 ^ 17 else 0) + (if p.free.contains i then 2 ^ 16 else 0) + p.ref i % 2 ^ 16

/-- One more reference for each segment. -/
def State.addRefs (s : State) (x : Nat) (l : List Seg) : State :=
  l.foldl (fun s g => s.setPool x (idFar g.id) ((s.pool x (idFar g.id)).take (idIndex g.id))) s
/-- One reference fewer for buffer `id`; at 0 it joins the complex's reclaim queue (R121). -/
def State.dropRef (s : State) (x id : Nat) : State :=
  let far := idFar id
  let i := idIndex id
  let s' := s.setPool x far ((s.pool x far).drop i)
  if s.refs x id = 1 then s'.setCx x { s'.cx x with reclaim := (s'.cx x).reclaim ++ [mkId far i] } else s'

/-- One reference fewer for each segment. -/
def State.dropRefs (s : State) (x : Nat) (l : List Seg) : State := l.foldl (fun s g => s.dropRef x g.id) s

/-- Whether adding a reference per segment would raise a count above 0xFFFF (R119). -/
def State.saturates (s : State) (x : Nat) (l : List Seg) : Bool :=
  l.any fun g => 65535 < s.refs x g.id + l.countP fun h => h.id == g.id

/-- Why an allocation gives no buffer (R299). -/
inductive NoBuffer where
  | disabled | empty
  deriving DecidableEq, Repr

/-- `eval` of cause 0x20 (R299). -/
def noBufferEval (far : Bool) (w : NoBuffer) : Word :=
  (if far then 1 else 0) + (if w = .disabled then 2 else 0)

/-- Since when strand `sid` waits for a buffer of the pool. -/
def State.waitsFor (s : State) (far : Bool) (sid : Nat) : Option Nat :=
  match (s.strand sid).wait with
  | .alloc f since _ => if f == far then some since else none
  | _ => none

/-- Whether an allocation of another strand waits on the pool: it is older than one that begins now, and so is granted
first (R120). -/
def State.behind (s : State) (x : Nat) (far : Bool) : Bool :=
  (s.onCx x).any fun i => i != s.cur && (s.waitsFor far i).isSome

/-- Whether strand `sid` is the one of complex `x` whose allocation has waited longest on the pool; of two that began at
one clock the one in the lower slot is (R120, log 13). -/
def State.oldest (s : State) (x : Nat) (far : Bool) (sid : Nat) : Bool :=
  (s.onCx x).all fun i => match s.waitsFor far i, s.waitsFor far sid with
    | some a, some b => b < a || (a == b && decide (sid ≤ i))
    | _, _ => true

/-- Buffers that the earlier allocations of a waiting strand's instruction have been granted (R299). -/
def Wait.held (far : Bool) : Wait → List Nat
  | .alloc f _ l => if f == far then l else []
  | _ => []

/-- Buffers that the executing strand's allocations may take now: while others wait, no more than it has been granted
(R120, R299). -/
def State.room (s : State) (x : Nat) (far : Bool) : Nat :=
  let free := (s.pool x far).free
  if s.behind x far then ((s.me.wait.held far).filter free.contains).length else free.length

/-- Buffers taken off the head of the free list. -/
def Pool.hold (p : Pool) (l : List Nat) : Pool :=
  { p with free := p.free.drop l.length, refs := l.foldl (fun r i => Sparse.put 0 i 1 r) p.refs }

/-- Buffers that an instruction has been granted stand at the head of the free list again, for it to take when it is
executed again. -/
def Pool.unhold (p : Pool) (l : List Nat) : Pool :=
  { p with free := l ++ p.free, refs := l.foldl (fun r i => Sparse.put 0 i 0 r) p.refs }

/-- The executing strand's buffers put back for its instruction, which is executed again. -/
def State.unheld (s : State) : State :=
  match s.me.wait with
  | .alloc far _ l => s.setPool s.myCx far ((s.pool s.myCx far).unhold l)
  | _ => s

/-- Buffers granted to an instruction that no register has come to name go to the reclaim queue (R298): those of `l` that
stand on the free list. -/
def State.returned (s : State) (x : Nat) (far : Bool) (l : List Nat) : State :=
  let p := s.pool x far
  let back := l.filter p.free.contains
  if back.isEmpty then s
  else
    let s := s.setPool x far { p with free := p.free.filter fun i => !back.contains i }
    s.setCx x { s.cx x with reclaim := (s.cx x).reclaim ++ back.map (mkId far) }

/-- The executing strand waits no more for a buffer, and what it has been granted is returned (R298, R299). -/
def State.letGo (s : State) : State :=
  match s.me.wait with
  | .alloc far _ l => s.unheld.returned s.myCx far l
  | _ => s

/-- An allocation (R120): the head of the free list, with one reference. -/
def State.alloc (s : State) (x : Nat) (far : Bool) : Except NoBuffer (Nat × State) :=
  let p := s.pool x far
  if !p.enable then .error .disabled
  else match p.free with
    | [] => .error .empty
    | i :: rest => .ok (mkId far i, s.setPool x far { p with free := rest, refs := Sparse.put 0 i 1 p.refs })

/-- `n` allocations in order. -/
def State.allocs (s : State) (x : Nat) (far : Bool) : Nat → Except NoBuffer (List Nat × State)
  | 0 => .ok ([], s)
  | n + 1 =>
      match s.alloc x far with
      | .error e => .error e
      | .ok (i, s') => match s'.allocs x far n with
        | .error e => .error e
        | .ok (l, s'') => .ok (i :: l, s'')

/-! ### Bytes of buffers (R117) -/

/-- Place of byte 0 of a far buffer: the far region is read under home policy 0. -/
def Pool.farPlace (p : Pool) (i : Nat) : Nat := placeOf (p.base.toNat * 65536 + i * p.size) 0

/-- The byte of a far buffer at place `l`: as it stands, but for one in the Dusk region, which no key slot opens
(R320, log 6). -/
def State.farByte (s : State) (l : Nat) : Byte := if inDusk l then s.clearByte l else s.byteAt l

/-- Bytes of a far buffer written from place `l`: none in the Dusk region, which only Folman writes (R320, log 35). -/
def State.setFar (s : State) (l : Nat) : List Byte → State
  | [] => s
  | b :: bs => (if inDusk l then s else s.setByte l b).setFar (l + 1) bs

/-- `n` bytes of buffer `id` from byte `o`. -/
def State.bufBytes (s : State) (x id o n : Nat) : List Byte :=
  let p := s.pool x (idFar id)
  let i := idIndex id
  if idFar id then (List.range n).map fun k => s.farByte (p.farPlace i + o + k)
  else (List.range n).map fun k => Sparse.get 0 (i * p.size + o + k) (s.cx x).sram

/-- Bytes placed in a sparse table from key `k`. -/
def putBytes (t : Sparse Byte) (k : Nat) : List Byte → Sparse Byte
  | [] => t
  | b :: bs => putBytes (Sparse.put 0 k b t) (k + 1) bs

/-- Whole 64-byte ranges that `n` bytes from `o` cover. -/
def wholeRanges (o n : Nat) : List Nat :=
  (List.range ((o + n) / 64 - (o + 63) / 64)).map ((o + 63) / 64 + ·)

/-- 64-byte ranges that `n` bytes from `o` touch. -/
def anyRanges (o n : Nat) : List Nat := if n = 0 then [] else (List.range ((o + n - 1) / 64 + 1 - o / 64)).map (o / 64 + ·)

/-- Bytes written into buffer `id` from byte `o`; whole 64-byte ranges lose their marker (R305, R316). -/
def State.setBuf (s : State) (x id o : Nat) (bs : List Byte) : State :=
  let p := s.pool x (idFar id)
  let i := idIndex id
  if idFar id then
    let l := p.farPlace i + o
    let s := s.setFar l bs
    let keeps (r : Nat) : Bool := !(wholeRanges l bs.length).contains r
    if s.poison.isEmpty && s.badLines.isEmpty then s
    else { s with poison := s.poison.filter keeps, badLines := s.badLines.filter keeps }
  else
    let c := s.cx x
    let l := i * p.size + o
    s.setCx x { c with sram := putBytes c.sram l bs
                       sramPoison := c.sramPoison.filter fun r => !(wholeRanges l bs.length).contains r }

/-- The lines of memory of `n` bytes of buffer `id` from byte `o` that a read finds uncorrectable are marked and logged
(R305, R316). -/
def State.notedBuf (s : State) (x id o n : Nat) : State :=
  if idFar id then
    (anyRanges ((s.pool x true).farPlace (idIndex id) + o) n).foldl (fun s l => s.noted { line := some l }) s
  else s

/-- Whether `n` bytes of buffer `id` from byte `o` hold a marked range (R305, R316). -/
def State.bufMarked (s : State) (x id o n : Nat) : Bool :=
  let p := s.pool x (idFar id)
  let i := idIndex id
  if idFar id then
    !(s.poison.isEmpty && s.badLines.isEmpty)
      && (anyRanges (p.farPlace i + o) n).any fun r => s.poison.contains r || s.badLines.contains r
  else
    let c := s.cx x
    !c.sramPoison.isEmpty && (anyRanges (i * p.size + o) n).any c.sramPoison.contains

/-- Whether a write of `n` bytes of buffer `id` from byte `o` covers only part of a marked line of memory: nothing is
written then (R305). -/
def State.bufHeld (s : State) (x id o n : Nat) : Bool :=
  if idFar id then
    let l := (s.pool x true).farPlace (idIndex id) + o
    !s.poison.isEmpty && (anyRanges l n).any fun r => s.poison.contains r && !(wholeRanges l n).contains r
  else false

/-! ### Spines (R122-R124) -/

/-- Length in bytes of a list of segments. -/
def segsLen (l : List Seg) : Nat := (l.map (·.count)).sum

/-- The bytes of a list of segments. -/
def State.segBytes (s : State) (x : Nat) (l : List Seg) : List Byte :=
  l.flatMap fun g => s.bufBytes x g.id g.start g.count

/-- The segments after the first `n` bytes. -/
def segsDrop : Nat → List Seg → List Seg
  | _, [] => []
  | n, g :: t =>
      if n = 0 then g :: t
      else if g.count ≤ n then segsDrop (n - g.count) t
      else { g with start := g.start + n, count := g.count - n } :: t

/-- The segments of the first `n` bytes. -/
def segsTake : Nat → List Seg → List Seg
  | _, [] => []
  | n, g :: t =>
      if n = 0 then []
      else if g.count ≤ n then g :: segsTake (n - g.count) t
      else [{ g with count := n }]

/-- The segment that holds bytes `o` to `o + n - 1` whole, with the index and the offset in its buffer. -/
def segAt (o n : Nat) : List Seg → Nat → Option (Nat × Nat)
  | [], _ => none
  | g :: t, k =>
      if o < g.count then (if o + n ≤ g.count then some (k, g.start + o) else none)
      else segAt (o - g.count) n t (k + 1)

/-- Segments of a dense chain of `n` bytes in buffers of `b` bytes (R130). -/
def denseSegs (b : Nat) : Nat → List Nat → List Seg
  | _, [] => []
  | n, i :: t => { id := i, start := 0, count := Nat.min b n } :: denseSegs b (n - b) t

/-- The lines of memory of `n` bytes of buffer `id` from byte `o` lose their markers. -/
def State.cleanBuf (s : State) (x id o n : Nat) : State :=
  if idFar id then (anyRanges ((s.pool x true).farPlace (idIndex id) + o) n).foldl State.unmark s else s

/-- Bytes written into buffer `id` from byte `o`, which has just been allocated: its other bytes are unspecified (R120),
and the write counts as one of every line of memory that it touches (log 58). -/
def State.setFresh (s : State) (x id o : Nat) (bs : List Byte) : State := (s.setBuf x id o bs).cleanBuf x id o bs.length

/-- Bytes filled into the segments of a dense chain. -/
def State.fill (s : State) (x : Nat) : List Seg → List Byte → State
  | [], _ => s
  | g :: t, bs => (s.setFresh x g.id g.start (bs.take g.count)).fill x t (bs.drop g.count)

/-- NewDenseChain (R130) of bytes, from the pool `far` of complex `x`. -/
def State.newDense (s : State) (x : Nat) (far : Bool) (bs : List Byte) : Except NoBuffer (List Seg × State) :=
  let b := (s.pool x far).size
  match s.allocs x far ((bs.length + b - 1) / b) with
  | .error e => .error e
  | .ok (ids, s') =>
      let g := denseSegs b bs.length ids
      .ok (g, s'.fill x g bs)

/-- A chain register written (R126): its new references have been counted, its old ones drop after. -/
def State.writeChain (s : State) (c : CReg) (l : List Seg) : State :=
  let old := (s.me.chain c).segs
  (s.setMe (s.me.setChain c { segs := l })).dropRefs s.myCx old

/-- The segments that an instruction reads of a chain register: of a stream, its held strip. -/
def Chain.data (c : Chain) : List Seg :=
  match c.stream with
  | some t => match t.held with | some h => h.1 | none => []
  | none => c.segs

/-- Whether a chain register is a stream register (R185). -/
def Strand.streamed (t : Strand) (c : CReg) : Bool := (t.chain c).stream.isSome

end Sys2Proof.Machine
end

