-- ==== Sys2Proof/Machine/Scalar.lean ====
section
/-! DEFINITION. Scalar arithmetic, immediates, bit fields, scalar loads and stores, branches and jumps
(R69-R81). -/

namespace Sys2Proof.Machine

/-- `SignExt` of a field, as a 64-bit pattern (R57). -/
def sx {n : Nat} (f : BitVec n) : Word := f.signExtend 64

/-! ### ALU (R71, R72) -/

/-- The four division results (R72): dividend `a`, divisor `b` as integers, and the quotient at b = 0. -/
def quotient (a b : Int) : Word := if b = 0 then BitVec.allOnes 64 else wrap64 (a.tdiv b)
/-- The remainder of the same division (R72). -/
def remainder (a b : Int) (pat : Word) : Word := if b = 0 then pat else wrap64 (a - b * a.tdiv b)

/-- `add` (R71). -/
def execAdd (d a b : SReg) (s : State) : Out := .next (s.result d (s.reg a + s.reg b))
/-- `sub` (R71). -/
def execSub (d a b : SReg) (s : State) : Out := .next (s.result d (s.reg a - s.reg b))
/-- `mul` (R71). -/
def execMul (d a b : SReg) (s : State) : Out := .next (s.result d (s.reg a * s.reg b))
/-- `mulh` (R71). -/
def execMulh (d a b : SReg) (s : State) : Out :=
  .next (s.result d (wrap64 ((s.reg a).toInt * (s.reg b).toInt / 2 ^ 64)))
/-- `mulhu` (R71). -/
def execMulhu (d a b : SReg) (s : State) : Out :=
  .next (s.result d (BitVec.ofNat 64 ((s.reg a).toNat * (s.reg b).toNat / 2 ^ 64)))
/-- `div` (R72). -/
def execDiv (d a b : SReg) (s : State) : Out :=
  .next (s.result d (quotient (s.reg a).toInt (s.reg b).toInt))
/-- `divu` (R72). -/
def execDivu (d a b : SReg) (s : State) : Out :=
  .next (s.result d (quotient (s.reg a).toNat (s.reg b).toNat))
/-- `rem` (R72). -/
def execRem (d a b : SReg) (s : State) : Out :=
  .next (s.result d (remainder (s.reg a).toInt (s.reg b).toInt (s.reg a)))
/-- `remu` (R72). -/
def execRemu (d a b : SReg) (s : State) : Out :=
  .next (s.result d (remainder (s.reg a).toNat (s.reg b).toNat (s.reg a)))
/-- `and` (R71). -/
def execAnd (d a b : SReg) (s : State) : Out := .next (s.result d (s.reg a &&& s.reg b))
/-- `or` (R71). -/
def execOr (d a b : SReg) (s : State) : Out := .next (s.result d (s.reg a ||| s.reg b))
/-- `xor` (R71). -/
def execXor (d a b : SReg) (s : State) : Out := .next (s.result d (s.reg a ^^^ s.reg b))
/-- The shift count of the register shifts: bits 5:0 of b (R71). -/
def shiftCount (b : Word) : Nat := b.toNat % 64
/-- `shl` (R71). -/
def execShl (d a b : SReg) (s : State) : Out := .next (s.result d (s.reg a <<< shiftCount (s.reg b)))
/-- `shr` (R71). -/
def execShr (d a b : SReg) (s : State) : Out := .next (s.result d (s.reg a >>> shiftCount (s.reg b)))
/-- `sra` (R71). -/
def execSra (d a b : SReg) (s : State) : Out :=
  .next (s.result d ((s.reg a).sshiftRight (shiftCount (s.reg b))))
/-- `rotl` (R71). -/
def execRotl (d a b : SReg) (s : State) : Out :=
  .next (s.result d (s.reg a <<< shiftCount (s.reg b) ||| s.reg a >>> (64 - shiftCount (s.reg b))))
/-- `min` (R71). -/
def execMin (d a b : SReg) (s : State) : Out :=
  .next (s.result d (if (s.reg b).toInt < (s.reg a).toInt then s.reg b else s.reg a))
/-- `max` (R71). -/
def execMax (d a b : SReg) (s : State) : Out :=
  .next (s.result d (if (s.reg a).toInt < (s.reg b).toInt then s.reg b else s.reg a))
/-- `minu` (R71). -/
def execMinu (d a b : SReg) (s : State) : Out :=
  .next (s.result d (if (s.reg b).toNat < (s.reg a).toNat then s.reg b else s.reg a))
/-- `maxu` (R71). -/
def execMaxu (d a b : SReg) (s : State) : Out :=
  .next (s.result d (if (s.reg a).toNat < (s.reg b).toNat then s.reg b else s.reg a))
/-- `slt` (R71). -/
def execSlt (d a b : SReg) (s : State) : Out :=
  .next (s.result d (if (s.reg a).toInt < (s.reg b).toInt then 1 else 0))
/-- `sltu` (R71). -/
def execSltu (d a b : SReg) (s : State) : Out :=
  .next (s.result d (if (s.reg a).toNat < (s.reg b).toNat then 1 else 0))
/-- `clz` (R71). -/
def execClz (d a : SReg) (s : State) : Out := .next (s.result d (BitVec.ofNat 64 (leadZeros 64 (s.reg a).toNat)))
/-- `ctz` (R71). -/
def execCtz (d a : SReg) (s : State) : Out := .next (s.result d (BitVec.ofNat 64 (trailZeros 64 (s.reg a).toNat)))
/-- `popc` (R71). -/
def execPopc (d a : SReg) (s : State) : Out := .next (s.result d (BitVec.ofNat 64 (popCount 64 (s.reg a).toNat)))

/-! ### Immediate forms (R73-R75) -/

/-- `addi` (R73). -/
def execAddi (d a : SReg) (i : BitVec 14) (s : State) : Out := .next (s.result d (s.reg a + sx i))
/-- `andi` (R73). -/
def execAndi (d a : SReg) (i : BitVec 14) (s : State) : Out := .next (s.result d (s.reg a &&& sx i))
/-- `ori` (R73). -/
def execOri (d a : SReg) (i : BitVec 14) (s : State) : Out := .next (s.result d (s.reg a ||| sx i))
/-- `xori` (R73). -/
def execXori (d a : SReg) (i : BitVec 14) (s : State) : Out := .next (s.result d (s.reg a ^^^ sx i))
/-- `shli` (R74). -/
def execShli (d a : SReg) (n : BitVec 6) (s : State) : Out := .next (s.result d (s.reg a <<< n.toNat))
/-- `shri` (R74). -/
def execShri (d a : SReg) (n : BitVec 6) (s : State) : Out := .next (s.result d (s.reg a >>> n.toNat))
/-- `srai` (R74). -/
def execSrai (d a : SReg) (n : BitVec 6) (s : State) : Out :=
  .next (s.result d ((s.reg a).sshiftRight n.toNat))
/-- `slti` (R73). -/
def execSlti (d a : SReg) (i : BitVec 14) (s : State) : Out :=
  .next (s.result d (if (s.reg a).toInt < i.toInt then 1 else 0))
/-- `sltiu` (R73). -/
def execSltiu (d a : SReg) (i : BitVec 14) (s : State) : Out :=
  .next (s.result d (if (s.reg a).toNat < (sx i).toNat then 1 else 0))
/-- `lhi` (R75). -/
def execLhi (d : SReg) (o : BitVec 20) (s : State) : Out := .next (s.result d (sx o <<< 14))
/-- `pcadd` (R75). -/
def execPcadd (d : SReg) (o : BitVec 20) (s : State) : Out :=
  .next (s.result d ((s.me.pc &&& ~~~(0x3FFF : Word)) + (sx o <<< 14)))

/-! ### Bit fields (R76) -/

/-- The mask of a field of `l + 1` bits at `p`, cut at bit 63 (R76). -/
def fieldMask (p l : BitVec 6) : Word := BitVec.ofNat 64 ((2 ^ (l.toNat + 1) - 1) * 2 ^ p.toNat)
/-- `bext` (R76): `l` holds the length less one. -/
def execBext (d a : SReg) (p l : BitVec 6) (s : State) : Out :=
  .next (s.result d (BitVec.ofNat 64 ((s.reg a).toNat / 2 ^ p.toNat % 2 ^ (l.toNat + 1))))
/-- `bins` (R76). -/
def execBins (d a : SReg) (p l : BitVec 6) (s : State) : Out :=
  .next (s.result d ((s.reg d &&& ~~~fieldMask p l) ||| (s.reg a <<< p.toNat &&& fieldMask p l)))
/-- `fsh` (R76). -/
def execFsh (d a : SReg) (n : BitVec 6) (s : State) : Out :=
  .next (s.result d (BitVec.ofNat 64 (((s.reg a).toNat * 2 ^ 64 + (s.reg d).toNat) / 2 ^ n.toNat)))

/-! ### Scalar loads and stores (R77-R79) -/

/-- Bytes of a scalar access (R77). -/
def sizeBytes : Size → Nat
  | .b => 1 | .h => 2 | .w => 4 | .d => 8

/-- A loaded value, extended to 64 bits (R77). -/
def extend (signed : Bool) (n v : Nat) : Word := if signed then wrap64 (signedOf (8 * n) v) else BitVec.ofNat 64 v

/-- A failed check of a scalar access: the trap of R78, with what is logged. -/
def State.refuse (s : State) (c : Cause) (n : Note) (va : Word) : State := (s.noted n).trap c va

/-- A scalar load of `n` bytes at `va` on behalf of `a` (R77, R78). -/
def State.loadScalar (s : State) (a : Access) (d : SReg) (va : Word) (n : Nat) (signed : Bool) : Out :=
  match s.check a va.toNat n true false with
  | .ok g => .next ((s.load a g n).2.result d (extend signed n (leNat (s.load a g n).1)))
  | .bad c note => .next (s.refuse c note va)
  | .cell => .next (s.waits .cell)

/-- A scalar store of the low `n` bytes of `v` at `va` on behalf of `a` (R77, R78). -/
def State.storeScalar (s : State) (a : Access) (va : Word) (n : Nat) (v : Word) : Out :=
  match s.check a va.toNat n false true with
  | .ok g => .next (s.store a g (leBytes n v.toNat)).advance
  | .bad c note => .next (s.refuse c note va)
  | .cell => .next (s.waits .cell)

/-- `lds` (R77). -/
def execLds (d a : SReg) (z : Size) (o : BitVec 12) (s : State) : Out :=
  s.loadScalar s.myAccess d (s.reg a + sx o) (sizeBytes z) true
/-- `ldu` (R77). -/
def execLdu (d a : SReg) (z : Size) (o : BitVec 12) (s : State) : Out :=
  s.loadScalar s.myAccess d (s.reg a + sx o) (sizeBytes z) false
/-- `sts` (R77). -/
def execSts (d a : SReg) (z : Size) (o : BitVec 12) (s : State) : Out :=
  s.storeScalar s.myAccess (s.reg a + sx o) (sizeBytes z) (s.reg d)

/-! ### Branches and jumps (R80, R81) -/

/-- The PC a branch leaves (R80). -/
def State.branch (s : State) (taken : Bool) (o : BitVec 14) : State :=
  s.setMe (s.me.go (if taken then s.me.pc + (sx o <<< 2) else s.me.pc + 4))

/-- `beq` (R80). -/
def execBeq (a b : SReg) (o : BitVec 14) (s : State) : Out := .next (s.branch (s.reg a == s.reg b) o)
/-- `bne` (R80). -/
def execBne (a b : SReg) (o : BitVec 14) (s : State) : Out := .next (s.branch (s.reg a != s.reg b) o)
/-- `blt` (R80). -/
def execBlt (a b : SReg) (o : BitVec 14) (s : State) : Out :=
  .next (s.branch ((s.reg a).toInt < (s.reg b).toInt) o)
/-- `bge` (R80). -/
def execBge (a b : SReg) (o : BitVec 14) (s : State) : Out :=
  .next (s.branch ((s.reg b).toInt ≤ (s.reg a).toInt) o)
/-- `bltu` (R80). -/
def execBltu (a b : SReg) (o : BitVec 14) (s : State) : Out :=
  .next (s.branch ((s.reg a).toNat < (s.reg b).toNat) o)
/-- `bgeu` (R80). -/
def execBgeu (a b : SReg) (o : BitVec 14) (s : State) : Out :=
  .next (s.branch ((s.reg b).toNat ≤ (s.reg a).toNat) o)
/-- `jal` (R81). -/
def execJal (d : SReg) (o : BitVec 20) (s : State) : Out :=
  .next (s.setMe ((s.me.setReg d (s.me.pc + 4)).go (s.me.pc + (sx o <<< 2))))
/-- `jalr` (R81): the target is computed from the old sA. -/
def execJalr (d a : SReg) (i : BitVec 14) (s : State) : Out :=
  .next (s.setMe ((s.me.setReg d (s.me.pc + 4)).go ((s.reg a + sx i) &&& ~~~3)))

end Sys2Proof.Machine
end

