-- ==== Sys2Proof/Machine/Operands.lean ====
section
/-! DEFINITION. What keeps an instruction from completing, and accesses to runs of plain bytes: spill
frames, spine blocks, pattern blocks and the records of the launch unit. -/

namespace Sys2Proof.Machine

/-- Why an instruction stops before its effect. -/
inductive Stop where
  /-- A trap: cause, `eval`, and what is logged. -/
  | trap (c : Cause) (eval : Word) (note : Note)
  /-- It waits for a cell (R257). -/
  | cell
  /-- It found no buffer in a pool (R120, R299). -/
  | buffer (far : Bool) (w : NoBuffer)
  deriving DecidableEq, Repr

/-- The executing strand waits for a buffer of a pool (R299): the allocations before the one that finds no buffer have
been granted theirs, which leave the free list; the count of that one begins now. -/
def State.waitBuffer (s : State) (far : Bool) : State :=
  let p := s.pool s.myCx far
  let l := p.free.take (s.room s.myCx far)
  (s.setPool s.myCx far (p.hold l)).waits (.alloc far s.clock l)

/-- A scalar-class instruction stops (R78, R124, R299): a trap, or a wait with nothing changed. -/
def State.stop (s : State) : Stop → State
  | .trap c eval n => s.refuse c n eval
  | .cell => s.waits .cell
  | .buffer far .disabled => s.trap .pool (noBufferEval far .disabled)
  | .buffer far .empty => s.waitBuffer far

/-- The pool that the strand allocates from (R120). -/
def Strand.far (t : Strand) : Bool := t.farPool

/-- `n` buffers of the executing strand's pool; it waits behind older allocations (R120). -/
def State.myAllocs (s : State) (n : Nat) : Except Stop (List Nat × State) :=
  let far := s.me.far
  if (s.pool s.myCx far).enable && decide (s.room s.myCx far < n) then .error (.buffer far .empty)
  else match s.allocs s.myCx far n with
    | .ok r => .ok r
    | .error w => .error (.buffer far w)

/-- NewDenseChain of bytes from the executing strand's pool. -/
def State.myDense (s : State) (bs : List Byte) : Except Stop (List Seg × State) :=
  let b := (s.pool s.myCx s.me.far).size
  match s.myAllocs ((bs.length + b - 1) / b) with
  | .error e => .error e
  | .ok (ids, s') =>
      let g := denseSegs b bs.length ids
      .ok (g, s'.fill s.myCx g bs)

/-- Whether a copy of the strand that is in flight has chain register `c` as destination (R179). -/
def State.copyInto (s : State) (c : CReg) : Bool :=
  s.copies.any fun k => k.owner == .strand s.me.uid && !k.todo.isEmpty
    && bitsOf (k.block.getD 1 0).toNat 63 62 == 2 && bitsOf (k.block.getD 1 0).toNat 4 0 == c.toNat

/-- An instruction that writes chain registers waits while a copy fills one of them (R179). -/
def State.settled (s : State) (l : List CReg) (k : Out) : Out :=
  match l.find? s.copyInto with
  | some c => .next (s.waits (.chainCopy c))
  | none => k

/-- The pieces in which `n` bytes from an 8-byte boundary are accessed: doublewords, then bytes. -/
def pieces (n : Nat) : List (Nat × Nat) :=
  (List.range (n / 8)).map (fun i => (8 * i, 8)) ++ (List.range (n % 8)).map fun i => (n / 8 * 8 + i, 1)

/-- Reads of plain bytes, piece by piece. -/
def State.readPieces (s : State) (a : Access) (va : Nat) : List (Nat × Nat) → Except Stop (List Byte × State)
  | [] => .ok ([], s)
  | (o, n) :: t =>
      match s.check a (va + o : Nat) n true false with
      | .bad c note => .error (.trap c (BitVec.ofNat 64 (va + o)) note)
      | .cell => .error .cell
      | .ok g =>
          let r := s.load a g n
          match r.2.readPieces a va t with
          | .error e => .error e
          | .ok (bs, s') => .ok (r.1 ++ bs, s')

/-- `n` plain bytes from `va`. -/
def State.readSpan (s : State) (a : Access) (va n : Nat) : Except Stop (List Byte × State) :=
  s.readPieces a va (pieces n)

/-- Writes of plain bytes, piece by piece: why they stopped, if they did, and the state they left. The first `whole`
bytes fill whole lines, each of which loses its marker with its last piece (R305). -/
def State.writePieces (s : State) (a : Access) (va : Nat) (bs : List Byte) (whole : Nat) :
    List (Nat × Nat) → Option Stop × State
  | [] => (none, s)
  | (o, n) :: t =>
      match s.check a (va + o : Nat) n false true (decide (o < whole)) with
      | .bad c note => (some (.trap c (BitVec.ofNat 64 (va + o)) note), s)
      | .cell => (some .cell, s)
      | .ok g =>
          (s.store a g ((bs.drop o).take n) (decide (o < whole) && (o + n) % 64 == 0)).writePieces a va bs whole t

/-- Plain bytes written from `va`. -/
def State.writeSpan (s : State) (a : Access) (va : Nat) (bs : List Byte) : Option Stop × State :=
  s.writePieces a va bs (if va % 64 = 0 then bs.length / 64 * 64 else 0) (pieces bs.length)

/-- Whole 64-byte lines written from `va`: marked lines lose their marker (R305). -/
def State.writeLines (s : State) (a : Access) (va : Nat) (bs : List Byte) : Nat → Option Stop × State
  | 0 => (none, s)
  | n + 1 =>
      match s.check a va 64 false true true with
      | .bad c note => (some (.trap c (BitVec.ofNat 64 va) note), s)
      | .cell => (some .cell, s)
      | .ok g => (s.store a g (bs.take 64) true).writeLines a (va + 64) (bs.drop 64) n

/-- Doubleword `i` of a block. -/
def dword (bs : List Byte) (i : Nat) : Nat := leNat ((bs.drop (8 * i)).take 8)

/-- The doublewords of a block. -/
def dwords (bs : List Byte) : List Word :=
  (List.range (bs.length / 8)).map fun i => BitVec.ofNat 64 (dword bs i)

/-- The bytes of doublewords. -/
def dwordBytes (ws : List Word) : List Byte := ws.flatMap fun w => leBytes 8 w.toNat

end Sys2Proof.Machine
end

