-- ==== Sys2Proof/Machine/Atomic.lean ====
section
/-! DEFINITION. Atomic accesses (R214-R217): the new value, the checks, and the access itself with
what it synchronises (R201). -/

namespace Sys2Proof.Machine

/-- The value an atomic of `b` bits writes, from the old value, the operand and, for `cas`, the new
value (R215): none when a `cas` fails. -/
def amoNew (op : AmoOp) (b old v c : Nat) : Option Nat :=
  match op with
  | .add => some ((old + v) % 2 ^ b)
  | .min => some (if signedOf b old ≤ signedOf b v then old else v)
  | .max => some (if signedOf b v ≤ signedOf b old then old else v)
  | .minu => some (Nat.min old v)
  | .maxu => some (Nat.max old v)
  | .and => some (old &&& v)
  | .or => some (old ||| v)
  | .xor => some (old ^^^ v)
  | .swap => some v
  | .cas => if old = v then some c else none

/-- Who makes an atomic: its agent number and location, and what its order and scope ask. -/
structure Syncing where
  agent : Nat
  loc   : Token
  acq   : Bool
  rel   : Bool
  scope : Scope
  deriving DecidableEq, Repr

/-- The checks of R216 but for order 6, which `State.atomic` reports. -/
def State.checkAtomic (s : State) (a : Access) (va : Int) (z : Nat) : Check :=
  if va % z ≠ 0 then .bad .misaligned {}
  else match s.page a.part a.mode va with
    | none => .bad .notPresent {}
    | some g =>
        if !s.permits a.part a.mode g true true false then .bad .permission {}
        else if !g.plainOk then .bad .format {}
        else if !s.tagOk a g then .bad .tag {}
        else
          let l := s.locate a g
          if s.lost l then .bad .poison {}
          else if s.marked l || s.broken l then .bad .poison { line := some (l / 64) } else .ok g

/-- The synchronisation of the write part of an atomic on `z` bytes (R200, R201). -/
def State.atomicWrote (s : State) (y : Syncing) (keys : List Nat) : State :=
  let fences := s.fenceOf y.agent
  let put (s : State) (new : List Token) : State :=
    if new.isEmpty then s
    else keys.foldl (fun s k => s.setTokens k (new.foldl addToken (s.tokensAt k))) s
  if y.rel then
    let r := s.release y.agent y.loc y.scope
    put r.2 (fences ++ [r.1])
  else put s fences

/-- The synchronisation of the read part: `keys` are those of the bytes that it reads, the template's where no cell
exists (R208). -/
def State.atomicRead (s : State) (y : Syncing) (keys : List Nat) : State :=
  let toks := keys.flatMap s.tokensAt
  let s := if y.acq then s.acquire y.agent y.loc y.scope toks else s
  keys.foldl (fun s k => s.sawTokens y.agent k) s

/-- One atomic of `z` bytes on a checked page (R215): the old value, or the failed check of order 6. -/
def State.atomic (s : State) (a : Access) (y : Syncing) (g : Page) (z : Nat) (op : AmoOp) (v c : Nat) :
    Except Check (Nat × State) :=
  let old := leNat (s.peek a g z)
  let keysOf (t : Nat) : List Nat := (List.range z).map fun i => byteKey t (placeOf g.pa g.home + i)
  let from_ := keysOf (s.readTag a g)
  let u := s.used g
  match amoNew op (8 * z) old v c with
  | none => .ok (old, u.atomicRead y from_)
  | some w =>
      let x := s.part a.part
      if s.needsCell a g && x.takeCell.isNone then
        .error (if x.drainPending then .cell else .bad .cellStore {})
      else .ok (old, ((u.atomicRead y from_).poke a g (leBytes z w) false).atomicWrote y (keysOf (a.tagOn g)))

/-- Acquire and release parts of an order (R200). -/
def orderAcq : AmoOrder → Bool
  | .acq | .ar | .sc => true
  | _ => false
/-- Release part of an order. -/
def orderRel : AmoOrder → Bool
  | .rel | .ar | .sc => true
  | _ => false

/-- `amo` (R214-R217). -/
def execAmo (d a : SReg) (p : AmoOp) (o : AmoOrder) (sc : Scope) (w : Bool) (s : State) : Out :=
  let va := s.reg a
  let z := if w then 4 else 8
  let y : Syncing := { agent := s.me.uid, loc := s.myLoc, acq := orderAcq o, rel := orderRel o, scope := sc }
  match s.checkAtomic s.myAccess va.toNat z with
  | .bad c n => .next (s.refuse c n va)
  | .cell => .next (s.waits .cell)
  | .ok g =>
      match s.atomic s.myAccess y g z p ((s.reg d).toNat % 2 ^ (8 * z)) ((s.reg (d + 1)).toNat % 2 ^ (8 * z)) with
      | .error (.bad c n) => .next (s.refuse c n va)
      | .error _ => .next (s.waits .cell)
      | .ok (old, s') => .next (s'.result d (extend w z old))

end Sys2Proof.Machine
end

