-- ==== Sys2Proof/Machine/Chain.lean ====
section
/-! DEFINITION. The chain-structure instructions of majors 0x29 and 0x2A (R124-R139): each either
completes or changes nothing (R124). -/

namespace Sys2Proof.Machine

/-- A chain instruction that names stream registers traps with cause 0x24 (R125), and one that writes a
register that a copy fills waits (R179); otherwise `k`. `w` are written, `r` only read. -/
def State.noStream (s : State) (w r : List CReg) (k : Out) : Out :=
  if (w ++ r).any s.me.streamed then .next (s.trapHere .stream) else s.settled w k

/-- Complete a chain edit: the references `add` are counted, then `c` is written and drops its own
(R126), then the PC moves on. -/
def State.edit (s : State) (c : CReg) (add l : List Seg) : State :=
  ((s.addRefs s.myCx add).writeChain c l).advance

/-- An edit whose result is `l` and which shares `add` (R119, R124). -/
def State.sharing (s : State) (c : CReg) (add l : List Seg) : Out :=
  if 32 < l.length then .next (s.trapHere .spine)
  else if s.saturates s.myCx add then .next (s.trapHere .refs)
  else .next (s.edit c l l)

/-- Element format of chain instructions: `gm`.fa (R135). -/
def State.fa (s : State) : Fmt := s.me.gm.fmtA

/-- A sub-byte count or index that is no whole number of bytes (R135). -/
def oddCount (f : Fmt) (x : Nat) : Bool := x * f.bits % 8 != 0

/-- The segments of a chain register. -/
def State.segs (s : State) (c : CReg) : List Seg := (s.me.chain c).segs

/-- Whole elements of a chain register in `gm`.fa. -/
def State.lenE (s : State) (c : CReg) : Nat := elems s.fa (segsLen (s.segs c))

/-- `cnew` (R135). -/
def execCnew (d : CReg) (s : State) : Out :=
  s.noStream [d] [] <| match s.myAllocs 1 with
    | .error e => .next (s.stop e)
    | .ok (ids, s') =>
        let n := (s.pool s.myCx s.me.far).size
        let g := denseSegs n n ids
        .next ((s'.fill s.myCx g (List.replicate n 0)).edit d [] g)

/-- `cfree` (R135). -/
def execCfree (d : CReg) (s : State) : Out := s.noStream [d] [] (.next (s.edit d [] []))

/-- `cshare` (R135). -/
def execCshare (d a : CReg) (s : State) : Out := s.noStream [d] [a] (s.sharing d (s.segs a) (s.segs a))

/-- `cprep cD, cA` (R135). -/
def execCprep (d a : CReg) (s : State) : Out :=
  s.noStream [d] [a] (s.sharing d (s.segs a) (s.segs a ++ s.segs d))
/-- `capp cD, cA` (R135). -/
def execCapp (d a : CReg) (s : State) : Out :=
  s.noStream [d] [a] (s.sharing d (s.segs a) (s.segs d ++ s.segs a))

/-- A chain whose spine names the same buffers with other bounds, or one buffer more that has just been
allocated: written with no change of the counts (R136). -/
def State.respine (s : State) (c : CReg) (l : List Seg) : State := (s.setMe (s.me.setChain c { segs := l })).advance

/-- The allocating path of the element forms (R136): one element in a new buffer. -/
def State.newElement (s : State) (d : CReg) (bs : List Byte) (front : Bool) : Out :=
  if 32 ≤ (s.segs d).length then .next (s.trapHere .spine)
  else match s.myAllocs 1 with
    | .error e => .next (s.stop e)
    | .ok (ids, s') =>
        let n := (s.pool s.myCx s.me.far).size
        let o := if front then n - bs.length else 0
        let g : List Seg := ids.map fun i => { id := i, start := o, count := bs.length }
        let s' := g.foldl (fun s g => s.setFresh s.myCx g.id o bs) s'
        .next (s'.respine d (if front then g ++ s.segs d else s.segs d ++ g))

/-- The low bytes of an element (R135). -/
def elementBytes (f : Fmt) (v : Word) : List Byte := leBytes (f.bits / 8) v.toNat

/-- A write in place of `n` bytes of buffer `id` from byte `o`: `k`, or the trap of one that covers only part of a marked
line (R305). -/
def State.inPlace (s : State) (id o n : Nat) (k : State) : Out :=
  .next (if s.bufHeld s.myCx id o n then s.trapHere .poison else k)

/-- `cprep cD, sA` (R136). A first segment that cannot be extended in place keeps its buffer, and the element goes to a
new one, as R136 says; R127 would copy that segment first (log 53). -/
def execCprepElement (d : CReg) (a : SReg) (s : State) : Out :=
  s.noStream [d] [] <|
    if s.fa.bits < 8 then .next (s.trapHere .mode)
    else
      let bs := elementBytes s.fa (s.reg a)
      match s.segs d with
      | g :: t =>
          if s.refs s.myCx g.id = 1 ∧ bs.length ≤ g.start then
            s.inPlace g.id (g.start - bs.length) bs.length ((s.setBuf s.myCx g.id (g.start - bs.length) bs).respine d
              ({ g with start := g.start - bs.length, count := g.count + bs.length } :: t))
          else s.newElement d bs true
      | [] => s.newElement d bs true

/-- `capp cD, sA` (R136), with the choice of `cprep` between R136 and R127 (log 53). -/
def execCappElement (d : CReg) (a : SReg) (s : State) : Out :=
  s.noStream [d] [] <|
    if s.fa.bits < 8 then .next (s.trapHere .mode)
    else
      let bs := elementBytes s.fa (s.reg a)
      match (s.segs d).getLast? with
      | some g =>
          if s.refs s.myCx g.id = 1 ∧ g.start + g.count + bs.length ≤ (s.pool s.myCx (idFar g.id)).size then
            s.inPlace g.id (g.start + g.count) bs.length ((s.setBuf s.myCx g.id (g.start + g.count) bs).respine d
              ((s.segs d).dropLast ++ [{ g with count := g.count + bs.length }]))
          else s.newElement d bs false
      | none => s.newElement d bs false

/-- Bytes of the first `min x LenE` elements of a chain (R135). -/
def State.cutBytes (s : State) (c : CReg) (x : Nat) : Nat := Nat.min x (s.lenE c) * s.fa.bits / 8

/-- Drop `x` elements at the head (R135). -/
def State.trimHead (s : State) (d : CReg) (x : Nat) : Out :=
  s.noStream [d] [] <|
    if oddCount s.fa x then .next (s.trapHere .element)
    else
      let l := segsDrop (s.cutBytes d x) (s.segs d)
      .next (s.edit d l l)

/-- Drop `x` elements at the tail (R135). -/
def State.trimTail (s : State) (d : CReg) (x : Nat) : Out :=
  s.noStream [d] [] <|
    if oddCount s.fa x then .next (s.trapHere .element)
    else if Nat.min x (s.lenE d) = 0 then .next s.advance
    else
      let l := segsTake ((s.lenE d - Nat.min x (s.lenE d)) * s.fa.bits / 8) (s.segs d)
      .next (s.edit d l l)

/-- `ctrim.h cD, sA` (R135). -/
def execCtrimH (d : CReg) (a : SReg) (s : State) : Out := s.trimHead d (s.reg a).toNat
/-- `ctrim.h cD, n` (R135). -/
def execCtrimHImm (d : CReg) (n : BitVec 11) (s : State) : Out := s.trimHead d n.toNat
/-- `ctrim.t cD, sA` (R135). -/
def execCtrimT (d : CReg) (a : SReg) (s : State) : Out := s.trimTail d (s.reg a).toNat
/-- `ctrim.t cD, n` (R135). -/
def execCtrimTImm (d : CReg) (n : BitVec 11) (s : State) : Out := s.trimTail d n.toNat

/-- Split at element `x` (R135): the buffer of a segment that is cut gains one reference. -/
def State.split (s : State) (d a : CReg) (x : Nat) : Out :=
  if d = a then .next (s.trapHere .reserved)
  else s.noStream [d, a] [] <|
    if oddCount s.fa x then .next (s.trapHere .element)
    else
      let n := s.cutBytes a x
      let hi := segsDrop n (s.segs a)
      let lo := segsTake n (s.segs a)
      let cut := if (s.segs a).length < hi.length + lo.length then hi.take 1 else []
      if s.saturates s.myCx cut then .next (s.trapHere .refs)
      else
        let s1 := s.addRefs s.myCx cut
        let s2 := s1.setMe (s1.me.setChain a { segs := lo })
        .next (s2.writeChain d hi).advance

/-- `csplit cD, cA, sB` (R135). -/
def execCsplit (d a : CReg) (b : SReg) (s : State) : Out := s.split d a (s.reg b).toNat
/-- `csplit cD, cA, n` (R135). -/
def execCsplitImm (d a : CReg) (n : BitVec 11) (s : State) : Out := s.split d a n.toNat

/-- `csplice` (R135). -/
def execCsplice (d a b : CReg) (s : State) : Out :=
  s.noStream [d] [a, b] (s.sharing d (s.segs a ++ s.segs b) (s.segs a ++ s.segs b))

/-- `clen` (R135). -/
def execClen (d : SReg) (a : CReg) (s : State) : Out :=
  s.noStream [] [a] (.next (s.result d (BitVec.ofNat 64 (segsLen (s.segs a)))))

/-- A segment as `cseg` and a spine block pack it (R134, R137). -/
def packSeg (g : Seg) : Nat := g.id * 2 ^ 25 + g.start * 2 ^ 13 + g.count

/-- `cseg` (R137). -/
def execCseg (d : SReg) (a : CReg) (b : SReg) (s : State) : Out :=
  s.noStream [] [a] <|
    let l := s.segs a
    let low := match l[(s.reg b).toNat]? with | some g => packSeg g | none => 0
    .next (s.result d (BitVec.ofNat 64 (l.length * 2 ^ 56 + low)))

/-- Whether a list of segments names a marked byte (R316). -/
def State.segsMarked (s : State) (x : Nat) (l : List Seg) : Bool := l.any fun g => s.bufMarked x g.id g.start g.count

/-- The trap of an instruction that reads a marked byte of a list of segments (R305, R316). -/
def State.segsPoison (s : State) (l : List Seg) : State :=
  (l.foldl (fun s g => s.notedBuf s.myCx g.id g.start g.count) s).trapHere .poison

/-- `cflat` (R135). -/
def execCflat (d a : CReg) (s : State) : Out :=
  s.noStream [d] [a] <|
    let b := (s.pool s.myCx s.me.far).size
    if 32 * b < segsLen (s.segs a) then .next (s.trapHere .spine)
    else if s.segsMarked s.myCx (s.segs a) then .next (s.segsPoison (s.segs a))
    else match s.myDense (s.segBytes s.myCx (s.segs a)) with
      | .error e => .next (s.stop e)
      | .ok (l, s') => .next (s'.edit d [] l)

/-- Element `x` of a chain under `gm`.fa (R135, R137). -/
def State.getElem (s : State) (d : SReg) (a : CReg) (x : Nat) : Out :=
  s.noStream [] [a] <|
    let f := s.fa
    if oddCount f x then .next (s.trapHere .element)
    else if s.lenE a ≤ x then .next (s.result d 0)
    else match segAt (x * f.bits / 8) ((f.bits + 7) / 8) (s.segs a) 0 with
      | none => .next (s.trapHere .element)
      | some (k, o) =>
          let id := ((s.segs a)[k]?.map (·.id)).getD 0
          if s.bufMarked s.myCx id o ((f.bits + 7) / 8) then .next (s.segsPoison [{ id := id, start := o, count := (f.bits + 7) / 8 }])
          else
            let v := leNat (s.bufBytes s.myCx id o ((f.bits + 7) / 8)) % 2 ^ f.bits
            .next (s.result d (if f.isSigned then wrap64 (signedOf f.bits v) else BitVec.ofNat 64 v))

/-- `cget sD, cA, sB` (R137). -/
def execCget (d : SReg) (a : CReg) (b : SReg) (s : State) : Out := s.getElem d a (s.reg b).toNat
/-- `cget sD, cA, n` (R137). -/
def execCgetImm (d : SReg) (a : CReg) (n : BitVec 11) (s : State) : Out := s.getElem d a n.toNat

/-- The low `f.bits` bits of `v` at byte `o` of buffer `id`; the other bits of a byte that a sub-byte
element shares are kept. -/
def State.putElem (s : State) (x id o : Nat) (f : Fmt) (v : Nat) : State :=
  if f.bits < 8 then
    let old := leNat (s.bufBytes x id o 1)
    s.setBuf x id o (leBytes 1 (old / 2 ^ f.bits * 2 ^ f.bits + v % 2 ^ f.bits))
  else s.setBuf x id o (leBytes (f.bits / 8) v)

/-- The bytes of a segment with `bs` at byte `o`. -/
def patched (l : List Byte) (o : Nat) (bs : List Byte) : List Byte := l.take o ++ bs ++ l.drop (o + bs.length)

/-- Write element `x` of a chain (R127, R135): in place when its buffer has one reference, otherwise in a copy of its
segment. Where the pool's buffers are smaller than that segment, the copy takes as many of them as it needs, one segment
each, so that R122 holds: the manual does not say what happens there (log 54). -/
def State.putAt (s : State) (d : CReg) (v : Word) (x : Nat) : Out :=
  s.noStream [d] [] <|
    let f := s.fa
    if oddCount f x then .next (s.trapHere .element)
    else if s.lenE d ≤ x then .next s.advance
    else match segAt (x * f.bits / 8) ((f.bits + 7) / 8) (s.segs d) 0 with
      | none => .next (s.trapHere .element)
      | some (k, o) =>
          match (s.segs d)[k]? with
          | none => .next s.advance
          | some g =>
              if s.refs s.myCx g.id = 1 then
                s.inPlace g.id o ((f.bits + 7) / 8) ((s.putElem s.myCx g.id o f v.toNat).respine d (s.segs d))
              else if s.bufMarked s.myCx g.id g.start g.count then .next (s.segsPoison [g])
              else
                let size := (s.pool s.myCx s.me.far).size
                let need := (g.count + size - 1) / size
                if 32 < (s.segs d).length - 1 + need then .next (s.trapHere .spine)
                else match s.myAllocs need with
                  | .error e => .next (s.stop e)
                  | .ok (ids, s') =>
                      let new := denseSegs size g.count ids
                      let bs := s.bufBytes s.myCx g.id g.start g.count
                      let w := s.bufBytes s.myCx g.id o ((f.bits + 7) / 8)
                      let e := if f.bits < 8 then leBytes 1 (leNat w / 2 ^ f.bits * 2 ^ f.bits + v.toNat % 2 ^ f.bits)
                        else leBytes (f.bits / 8) v.toNat
                      let s' := s'.fill s.myCx new (patched bs (o - g.start) e)
                      let l := (s.segs d).take k ++ new ++ (s.segs d).drop (k + 1)
                      .next ((s'.dropRefs s.myCx [g]).respine d l)

/-- `cput cD, sA, sB` (R135). -/
def execCput (d : CReg) (a b : SReg) (s : State) : Out := s.putAt d (s.reg a) (s.reg b).toNat
/-- `cput cD, sA, n` (R135). -/
def execCputImm (d : CReg) (a : SReg) (n : BitVec 11) (s : State) : Out := s.putAt d (s.reg a) n.toNat

/-- D0 of a spill frame (R138). -/
def spillHead (f : BitVec 5) (n : Nat) : Nat := n + f.toNat * 2 ^ 32

/-- `cspill` (R138): a failed access keeps the frame bytes already written; a wait changes nothing. -/
def execCspill (a : CReg) (b : SReg) (s : State) : Out :=
  s.noStream [a] [] <|
    let va := s.reg b
    if va.toNat % 64 ≠ 0 then .next (s.trap .misaligned va)
    else
      let n := elemBytes s.fa (Nat.min s.me.vl.toNat (s.lenE a))
      let data := segsTake n (s.segs a)
      if s.segsMarked s.myCx data then .next (s.segsPoison data)
      else
        let frame := leBytes 8 (spillHead s.me.gm.fa n) ++ List.replicate 56 0 ++ s.segBytes s.myCx data
        match s.writeSpan s.myAccess va.toNat frame with
        | (none, s') => .next (s'.edit a [] [])
        | (some .cell, _) => .next (s.stop .cell)
        | (some e, s') => .next (s'.stop e)

/-- `cfill` (R138). -/
def execCfill (d : CReg) (a : SReg) (s : State) : Out :=
  s.noStream [d] [] <|
    let va := s.reg a
    if va.toNat % 64 ≠ 0 then .next (s.trap .misaligned va)
    else match s.readSpan s.myAccess va.toNat 8 with
      | .error e => .next (s.stop e)
      | .ok (h, s1) =>
          let w := leNat h
          let n := w % 2 ^ 32
          if w / 2 ^ 37 ≠ 0 then .next (s1.trap .element va)
          else if 32 * (s.pool s.myCx s.me.far).size < n then .next (s1.trap .spine va)
          else match s1.readSpan s.myAccess (va.toNat + 64) n with
            | .error e => .next (s.stop e)
            | .ok (bs, s2) => match s2.myDense bs with
              | .error e => .next (s.stop e)
              | .ok (l, s3) => .next (s3.edit d [] l)

/-! ### Chain objects (R134, R139) -/

/-- Block accesses of `chld` and `chst` are synchronising: the race checker does not see them (R139). -/
def State.blockAccess (s : State) : Access := { s.myAccess with quiet := true }

/-- Entries of a spine block. -/
def blockSegs (bs : List Byte) (n : Nat) : List Seg :=
  (List.range n).map fun i =>
    let w := dword bs (4 + i)
    { id := bitsOf w 48 25, start := bitsOf w 24 13, count := bitsOf w 12 0 }

/-- Whether a field that R134 reserves is not zero, the entries past `nseg` included in none. -/
def blockReserved (bs : List Byte) : Bool :=
  bitsOf (dword bs 0) 62 39 != 0 || bitsOf (dword bs 0) 31 6 != 0 || bitsOf (dword bs 2) 63 32 != 0
  || dword bs 3 != 0 || (List.range 32).any (fun i => bitsOf (dword bs (4 + i)) 63 49 != 0)
  || (List.range 28).any fun i => dword bs (36 + i) != 0

/-- An entry outside R122's limits, or one that names a buffer with no reference (R139). -/
def State.badSeg (s : State) (x : Nat) (g : Seg) : Bool :=
  g.count == 0 || decide ((s.pool x (idFar g.id)).size < g.start + g.count) || s.refs x g.id == 0

/-- An object read block by block (R139), with the blocks already read; `fuel` bounds them. -/
def State.readObject (s : State) (va : Nat) (segs : List Seg) (seen : List Nat) :
    Nat → Except Stop (List Seg × State)
  | 0 => .error (.trap .element (BitVec.ofNat 64 va) {})
  | fuel + 1 =>
      match s.readSpan s.blockAccess va 512 with
      | .error e => .error e
      | .ok (bs, s') =>
          if seen.isEmpty && !bitOf (dword bs 0) 63 then .ok ([], s')
          else
            let next := dword bs 1
            let n := bitsOf (dword bs 0) 5 0
            let g := blockSegs bs (Nat.min n 32)
            let bad (c : Cause) : Except Stop (List Seg × State) := .error (.trap c (BitVec.ofNat 64 va) {})
            if next ≠ 0 ∧ (next % 512 ≠ 0 ∨ (va :: seen).contains next ∨ fuel = 0) then bad .element
            else if bitsOf (dword bs 0) 38 32 ≠ s.myCx then bad .permission
            else if 32 < segs.length + n then bad .spine
            else if blockReserved bs || g.any (s.badSeg s.myCx) then bad .element
            else if next = 0 then .ok (segs ++ g, s')
            else s'.readObject next (segs ++ g) (va :: seen) fuel

/-- The object at `va`: at most 32 blocks (R139). -/
def State.object (s : State) (va : Nat) : Except Stop (List Seg × State) := s.readObject va [] [] 32

/-- The keys of the bytes of the block at `va`, as a read or a write of it finds them. -/
def State.blockKeys (s : State) (va : Nat) (write : Bool) : List Nat :=
  match s.page s.me.part s.me.mode va with
  | some g =>
      let t := if write then s.blockAccess.tagOn g else s.readTag s.blockAccess g
      (List.range 512).map fun i => byteKey t (placeOf g.pa g.home + i)
  | none => []

/-- The blocks of the object at `va`, in the order in which a read that passes its checks meets them (R139); an empty
object has its first block alone. -/
def State.objectBlocks (s : State) (first : Bool) : Nat → Nat → List Nat
  | 0, _ => []
  | fuel + 1, va =>
      va :: match s.readSpan s.blockAccess va 512 with
        | .error _ => []
        | .ok (bs, _) =>
            if (first && !bitOf (dword bs 0) 63) || dword bs 1 == 0 then [] else s.objectBlocks false fuel (dword bs 1)

/-- What `chld` of the object at `va` acquires (R139, R201): what a `chst`, an atomic or a fence of another agent has left
at the bytes of each block that it reads. -/
def State.objectTokens (s : State) (va : Nat) : List Token :=
  (s.objectBlocks true 32 va).flatMap fun b => (s.blockKeys b false).flatMap s.tokensAt

/-- `chld` (R139). -/
def execChld (d : CReg) (a : SReg) (s : State) : Out :=
  s.noStream [d] [] <|
    let va := s.reg a
    if va.toNat % 512 ≠ 0 then .next (s.trap .misaligned va)
    else match s.object va.toNat with
      | .error e => .next (s.stop e)
      | .ok (l, s') =>
          if s.saturates s.myCx l then .next (s'.trapHere .refs)
          else .next ((s'.myAcquire .cplx (s.objectTokens va.toNat)).edit d l l)

/-- The one block that `chst` writes (R139). -/
def objectBlock (x : Nat) (l : List Seg) : List Byte :=
  dwordBytes ((List.range 64).map fun i =>
    BitVec.ofNat 64 (if i = 0 then 2 ^ 63 + x * 2 ^ 32 + l.length
      else if i = 2 then segsLen l
      else if 4 ≤ i then (match l[i - 4]? with | some g => packSeg g | none => 0)
      else 0))

/-- `chst` (R139): nothing changes unless the whole block can be written. Its write is a release at `cplx` scope, and
stands for an earlier release fence of the strand (R201 case 2). -/
def execChst (a : CReg) (b : SReg) (s : State) : Out :=
  s.noStream [] [a] <|
    let va := s.reg b
    if va.toNat % 512 ≠ 0 then .next (s.trap .misaligned va)
    else match s.object va.toNat with
      | .error e => .next (s.stop e)
      | .ok (old, s1) =>
          if s.saturates s.myCx (s.segs a) then .next (s1.trapHere .refs)
          else match s1.writeLines s.blockAccess va.toNat (objectBlock s.myCx (s.segs a)) 8 with
            | (some e, _) => .next (s.stop e)
            | (none, s2) =>
                let s3 := (s2.addRefs s.myCx (s.segs a)).dropRefs s.myCx old
                let r := s3.myRelease .cplx
                let l := addToken (s.fenceOf s.me.uid) r.1
                .next ((s.blockKeys va.toNat true).foldl (fun s k => s.setTokens k l) r.2).advance

end Sys2Proof.Machine
end

