-- ==== Sys2Proof/Machine/Element.lean ====
section
/-! DEFINITION. One element of memory, on a plain or a formatted page (R110, R111, R161-R166): its
checks, its read and its write. Vector loads and stores, copies and streams all use it. -/

namespace Sys2Proof.Machine

/-- Why an element is not accessed: a failed check with its address, or a wait for a cell. -/
inductive Miss where
  | bad (c : Cause) (at_ : Int) (note : Note)
  | cell
  deriving DecidableEq, Repr

/-- Where an element lies. -/
inductive Spot where
  | plain (g : Page)
  /-- Packed element `k` of the page, in stored format `f` (R162). -/
  | stored (g : Page) (f : Fmt) (k : Nat)
  /-- Codebook-3 element `k`, whose table entries lie on page `tab` (R110, R111). -/
  | book (g : Page) (k : Nat) (tab : Page)
  deriving DecidableEq, Repr

/-- The stored format of page format codes 0x01-0x1F (R161). -/
def storedFmt (c : Nat) : Option Fmt :=
  if (1 ≤ c ∧ c ≤ 6) ∨ (0x11 ≤ c ∧ c ≤ 0x17) ∨ (0x19 ≤ c ∧ c ≤ 0x1F) then Fmt.ofCode (c - 1) else none

/-- PA of frame byte `o` of the 64 KiB page that `g` lies on. -/
def Page.frameByte (g : Page) (o : Nat) : Page := { g with pa := g.pa / 65536 * 65536 + o }

/-- Table base of a codebook-3 page at VA `p` served by descriptor `x` (R163): none is cause 0x12. -/
def State.tableBase (s : State) (part p x : Nat) : Option Nat :=
  let root := (s.part part).root * 2 ^ 14
  let d0 := s.physNat (root + 8 * (256 + 2 * x)) 8
  let d1 := s.physNat (root + 8 * (257 + 2 * x)) 8
  let dbase := bitsOf d0 56 16 * 2 ^ 16
  if bitOf d0 0 && bitsOf d0 63 57 == 0 && bitsOf d0 15 1 == 0 && bitsOf d1 63 57 == 0
      && bitsOf d1 3 0 == 0 && decide (dbase ≤ p) then
    some (bitsOf d1 56 4 * 2 ^ 4 + 8192 * ((p - dbase) / 65536))
  else none

/-- A check's answer for an element at `va`. -/
def Check.spot (c : Check) (va : Int) (k : Page → Except Miss Spot) : Except Miss Spot :=
  match c with
  | .ok g => k g
  | .bad e n => .error (.bad e va n)
  | .cell => .error .cell

/-- Frame bytes that hold packed element `k` of a width of `b` bits. -/
def packedByte (b k : Nat) : Nat := k * b / 8

/-- A codebook-3 element (R163, R166): orders 2 to 8 for the element and its table. `odd`: its page's format is not
that of the first page of a unit-stride access. When the element's page and its table's both fail order 3, `eval` is the
element's address, and the element reads all 48 bytes of its index block: R166 says neither (log 74). -/
def State.bookSpot (s : State) (a : Access) (g : Page) (va : Nat) (odd : Bool) : Except Miss Spot :=
  let bad (c : Cause) : Except Miss Spot := .error (.bad c va {})
  match s.tableBase a.part (va / 65536 * 65536) (g.format - 0x20) with
    | none => if !s.permits a.part a.mode g true false false then bad .permission else bad .format
    | some tb =>
        let k := va % 65536
        let tva := tb + 16 * (k / 128)
        match s.page a.part a.mode tva with
        | none => .error (.bad .notPresent tva {})
        | some t =>
            if !s.permits a.part a.mode g true false false then bad .permission
            else if !s.permits a.part a.mode t true false false then .error (.bad .permission tva {})
            else if odd || g.level ≠ 3 || g.tagged then bad .format
            else if t.format ≠ 0 || t.tagged then .error (.bad .format tva {})
            else (s.checkLate a t 16 true false false).spot tva fun t =>
              let piece (i : Nat) : Page := g.frameByte (48 * (k / 128) + 16 * i)
              (s.checkLate a (piece 0) 16 true false false).spot va fun _ =>
                (s.checkLate a (piece 1) 16 true false false).spot va fun _ =>
                  (s.checkLate a (piece 2) 16 true false false).spot va fun _ => .ok (.book g k t)

/-- The checks of R166 for one element of `z` bytes at `va`; `unit` is the format of the page that
holds the first address of a unit-stride access. -/
def State.spot (s : State) (a : Access) (z : Nat) (va : Int) (load store covers : Bool) (unit : Option Nat) :
    Except Miss Spot :=
  let bad (c : Cause) : Except Miss Spot := .error (.bad c va {})
  let pg := s.page a.part a.mode va
  if (match pg with | some g => g.format == 0 | none => true) && va % z != 0 then bad .misaligned
  else match pg with
    | none => bad .notPresent
    | some g =>
        let odd := match unit with | some f => f != g.format | none => false
        if 0x20 ≤ g.format && load && !store then s.bookSpot a g va.toNat odd
        else if !s.permits a.part a.mode g load store false then bad .permission
        else if odd then bad .format
        else if g.format = 0 then
          if !g.plainOk then bad .format
          else (s.checkLate a g z load store covers).spot va fun g => .ok (.plain g)
        else if g.level ≠ 3 || g.tagged then bad .format
        else match storedFmt g.format with
          | none => bad .format
          | some f =>
              let k := va.toNat % 65536
              (s.checkLate a (g.frameByte (packedByte f.bits k)) 1 load store covers).spot va fun _ =>
                .ok (.stored g f k)

/-- Convert between a stored form and a register format: the pattern itself when they agree (R162). -/
def recode (src dst : Fmt) (nm : NumMode) (v : Nat) : Nat × Flags :=
  if src = dst then (v % 2 ^ dst.bits, 0) else opCvt src dst nm v

/-- The bits of a packed element within its byte. -/
def packedGet (b k byte : Nat) : Nat := byte / 2 ^ (k * b % 8) % 2 ^ b
/-- A byte with a packed element replaced. -/
def packedPut (b k byte v : Nat) : Nat :=
  byte - packedGet b k byte * 2 ^ (k * b % 8) + v % 2 ^ b * 2 ^ (k * b % 8)

/-- The 48 bytes of the index block at frame byte `o` (R110), in pieces of 16 bytes, which lie in one line and one
interleaving granule each (R158). -/
def State.loadBlock (s : State) (a : Access) (g : Page) (o : Nat) : List Byte × State :=
  let x := s.load a (g.frameByte o) 16
  let y := x.2.load a (g.frameByte (o + 16)) 16
  let z := y.2.load a (g.frameByte (o + 32)) 16
  (x.1 ++ y.1 ++ z.1, z.2)

/-- The bits of memory that an element of format `f` at `va`, from bit `bit` of its byte, takes: the first, numbered
from bit 0 of place 0, and how many (R95, R162). None on a page that does not exist or is read only. -/
def State.bitsAt (s : State) (a : Access) (f : Fmt) (va : Int) (bit : Nat) : Option (Nat × Nat) :=
  match s.page a.part a.mode va with
  | none => none
  | some g =>
      if g.format = 0 then some (8 * s.locate a g + bit, f.bits)
      else match storedFmt g.format with
        | none => none
        | some sf =>
            let k := va.toNat % 65536
            some (8 * s.locate a (g.frameByte (packedByte sf.bits k)) + k * sf.bits % 8, sf.bits)

/-- Whether runs of bits fill line `l` of memory (R305). -/
def fillsLine (l : Nat) (runs : List (Nat × Nat)) : Bool :=
  let mine := runs.filter fun x => x.1 / 512 == l
  (List.range 512).all fun k => mine.any fun x => decide (x.1 ≤ 512 * l + k) && decide (512 * l + k < x.1 + x.2)

/-- Read an element in format `f`; `bit` is its bit position in the byte when `f` is sub-byte (R165). -/
def State.readSpot (s : State) (a : Access) (f : Fmt) (nm : NumMode) (bit : Nat) (sp : Spot) : (Nat × Flags) × State :=
  match sp with
  | .plain g =>
      let r := s.load a g ((f.bits + 7) / 8)
      ((leNat r.1 / 2 ^ bit % 2 ^ f.bits, 0), r.2)
  | .stored g sf k =>
      let r := s.load a (g.frameByte (packedByte sf.bits k)) 1
      (recode sf f nm (packedGet sf.bits k (leNat r.1)), r.2)
  | .book g k t =>
      let b := s.loadBlock a g (48 * (k / 128))
      let i := leNat b.1 / 2 ^ (3 * (k % 128)) % 8
      let e := b.2.load a t 16
      let v := leNat ((e.1.drop (2 * i)).take 2)
      let v := if (Fmt.val .bf16 false v).isNan then Fmt.nan .bf16 else v
      (recode .bf16 f nm v, e.2)

/-- Write an element of format `f` (R162); `covers`: with it the access has written the whole line, which loses its
marker (R305). -/
def State.writeSpot (s : State) (a : Access) (f : Fmt) (nm : NumMode) (bit : Nat) (covers : Bool) (v : Nat)
    (sp : Spot) : Flags × State :=
  match sp with
  | .plain g =>
      if f.bits < 8 then
        let old := leNat (s.peek a g 1)
        let new := old - old / 2 ^ bit % 2 ^ f.bits * 2 ^ bit + v % 2 ^ f.bits * 2 ^ bit
        (0, s.store a g (leBytes 1 new) covers)
      else (0, s.store a g (leBytes (f.bits / 8) v) covers)
  | .stored g sf k =>
      let w := recode f sf nm v
      let g' := g.frameByte (packedByte sf.bits k)
      (w.2, s.store a g' (leBytes 1 (packedPut sf.bits k (leNat (s.peek a g' 1)) w.1)) covers)
  | .book .. => (0, s)

/-- Format of the page that holds `va`: a page that does not exist counts as plain (R165). -/
def State.formatAt (s : State) (a : Access) (va : Int) : Nat :=
  match s.page a.part a.mode va with | some g => g.format | none => 0

/-- Address and bit of element `e` of a unit-stride access from `base` (R165), with the page format of
`base`. -/
def unitAddr (f : Fmt) (base : Int) (pageFmt e : Nat) : Int × Nat :=
  if pageFmt ≠ 0 then (base + e, 0) else (base + e * f.bits / 8, e * f.bits % 8)

end Sys2Proof.Machine
end

