-- ==== Sys2Proof/Machine/Pattern.lean ====
section
/-! DEFINITION. Pattern blocks (R173-R176): their fields, the walk they name and the checks at issue. -/

namespace Sys2Proof.Machine

/-- A pattern block: its doublewords D0-D7 (R173). -/
abbrev Block := List Word

/-- Doubleword `i` of a block. -/
def Block.d (b : Block) (i : Nat) : Nat := ((show List Word from b).getD i 0).toNat
/-- Format code of D0. -/
def Block.fmtCode (b : Block) : Nat := bitsOf (b.d 0) 63 59
/-- Element format; a started copy has an assigned one of at least a byte (R176). -/
def Block.fmt (b : Block) : Fmt := (Fmt.ofCode b.fmtCode).getD (.i 8)
/-- Element size in bytes. -/
def Block.size (b : Block) : Nat := b.fmt.bits / 8
/-- Kind: 0 affine, 1 indirect. -/
def Block.kind (b : Block) : Nat := bitsOf (b.d 0) 58 57
/-- Base VA of the patterned side. -/
def Block.base (b : Block) : Nat := bitsOf (b.d 0) 56 0
/-- Kind of the dense side. -/
def Block.dkind (b : Block) : Nat := bitsOf (b.d 1) 63 62
/-- Completion mask register, 15 for none. -/
def Block.kreg (b : Block) : Nat := bitsOf (b.d 1) 61 58
/-- VA of the dense side, or the slot and offset, or the chain register. -/
def Block.dense (b : Block) : Nat := bitsOf (b.d 1) 56 0
/-- Slot of dkind 1. -/
def Block.slot (b : Block) : Nat := bitsOf (b.d 1) 21 16
/-- Byte offset of dkind 1. -/
def Block.offset (b : Block) : Nat := bitsOf (b.d 1) 14 0
/-- Chain register of dkind 2. -/
def Block.creg (b : Block) : Nat := bitsOf (b.d 1) 4 0
/-- Signed byte stride of dimension `d`. -/
def Block.stride (b : Block) (d : Nat) : Int := signedOf 48 (bitsOf (b.d (2 + d)) 63 16)
/-- Extent of dimension `d`. -/
def Block.ext (b : Block) (d : Nat) : Nat := bitsOf (b.d (2 + d)) 15 4 + 1
/-- Signed start of dimension `d`. -/
def Block.start (b : Block) (d : Nat) : Int := signedOf 4 (bitsOf (b.d (2 + d)) 3 0)
/-- VA of the index list. -/
def Block.index (b : Block) : Nat := b.d 6
/-- Dimensions used. -/
def Block.dims (b : Block) : Nat := bitsOf (b.d 7) 23 21 + 1
/-- Window length. -/
def Block.wlen (b : Block) : Nat := bitsOf (b.d 7) 63 24
/-- Completion bit of chunk 0. -/
def Block.kbase (b : Block) : Nat := bitsOf (b.d 7) 20 12
/-- Publication scope code. -/
def Block.scopeCode (b : Block) : Nat := bitsOf (b.d 7) 11 9
/-- Rounding, saturation and infinities of conversions. -/
def Block.num (b : Block) : NumMode :=
  { rnd := Rnd.ofCode (bitsOf (b.d 7) 8 6), sat := bitOf (b.d 7) 5, inf := bitOf (b.d 7) 4 }

/-- Scope codes (R198). -/
def scopeOfCode : Nat → Scope
  | 0 => .strand | 1 => .core | 2 => .cplx | 3 => .clus | 4 => .quad | 5 => .pkg | _ => .sys

/-- Product of the extents of the dimensions used (R174). -/
def Block.count (b : Block) : Nat := (List.range b.dims).foldl (fun n d => n * b.ext d) 1

/-- Bytes of the dense side. -/
def Block.bytes (b : Block) : Nat := b.count * b.size
/-- Chunks of the copy (R181). -/
def Block.chunks (b : Block) : Nat := (b.bytes + 511) / 512

/-- Coordinate of traversal index `t` in dimension `d` (R174). -/
def Block.coord (b : Block) (t d : Nat) : Nat :=
  t / (List.range d).foldl (fun n e => n * b.ext e) 1 % b.ext d

/-- Address of element `t`, with `idx` the index word's value under kind 1 (R174). -/
def Block.addr (b : Block) (t : Nat) (idx : Int) : Int :=
  (List.range b.dims).foldl (fun (a : Int) d =>
    if b.kind = 1 ∧ d = 1 then a + idx * b.stride 1
    else a + (b.start d + b.coord t d) * b.stride d) b.base

/-- Whether address `a` lies in the window (R175). -/
def Block.inWindow (b : Block) (a : Int) : Bool :=
  let hi : Int := if b.wlen = 0 then (2 ^ 57 : Nat) else b.base + b.wlen
  let lo : Int := if b.wlen = 0 then 0 else b.base
  lo ≤ a && a + b.size ≤ hi && a + b.size ≤ (2 ^ 57 : Nat)

/-- Order 3 of R176: a defect of the block itself. `indirect`: the instruction takes kind 1; `copy`: D1,
kbase and scope are read. -/
def Block.defect (b : Block) (indirect copy : Bool) : Bool :=
  let k1 := b.kind == 1
  let n := b.dims
  (match Fmt.ofCode b.fmtCode with | some f => decide (f.bits < 8) | none => true)
  || decide (2 ≤ b.kind) || k1 != indirect
  || (if k1 then decide (n < 2) || decide (4 < n) else decide (5 < n))
  || (List.range 5).any (fun d => decide (n ≤ d) && !(k1 && d == 4) && b.d (2 + d) != 0)
  || (k1 && (bitsOf (b.d 3) 3 0 != 0 || b.index % 4 != 0))
  || bitsOf (b.d 7) 3 0 != 0 || decide (4 < bitsOf (b.d 7) 8 6)
  || (copy && (bitOf (b.d 1) 57 || (decide (8 ≤ b.kreg) && b.kreg != 15)
      || decide (b.scopeCode < 2) || b.scopeCode == 7
      || (b.dkind == 1 && (bitsOf (b.d 1) 56 22 != 0 || bitOf (b.d 1) 15))
      || (b.dkind == 2 && bitsOf (b.d 1) 56 5 != 0)))

/-- The block of a graph copy, whose completion-mask fields are ignored (R26, R28): as if it named none. -/
def Block.noMask (b : Block) : Block := b.set 1 (BitVec.ofNat 64 (b.d 1 - b.kreg * 2 ^ 58 + 15 * 2 ^ 58))

/-- The block at `va` (R176 orders 1 and 2): cause and note of a failure, with `eval` the block's VA. -/
def State.readBlock (s : State) (a : Access) (va : Word) : Except Stop (Block × State) :=
  if va.toNat % 64 ≠ 0 then .error (.trap .misaligned va {})
  else match s.readSpan a va.toNat 64 with
    | .error (.trap c _ n) => .error (.trap c va n)
    | .error e => .error e
    | .ok (bs, s') => .ok (dwords bs, s')

/-- The index word that element `t` uses, read by `a` (R174, R178): its value, or the failed check. -/
def State.readIndex (s : State) (a : Access) (b : Block) (t : Nat) : Except Miss (Int × State) :=
  if b.kind = 1 then
    let va := b.index + 4 * b.coord t 1
    match s.spot a 4 va true false false none with
    | .error m => .error m
    | .ok sp =>
        let r := s.readSpot a (.i 32) b.num 0 sp
        .ok (signedOf 32 r.1.1, r.2)
  else .ok (0, s)

/-- Element `t` gathered from the patterned side (R175, R177): its value, zero outside the window, and
whether it lay outside. -/
def State.gather (s : State) (a : Access) (b : Block) (t : Nat) : Except Miss ((Nat × Bool) × State) :=
  match s.readIndex a b t with
  | .error m => .error m
  | .ok (i, s) =>
      let va := b.addr t i
      if !b.inWindow va then .ok ((0, true), s)
      else match s.spot a b.size va true false false none with
        | .error m => .error m
        | .ok sp =>
            let r := s.readSpot a b.fmt b.num 0 sp
            .ok ((r.1.1, false), r.2)

end Sys2Proof.Machine
end

