-- ==== Sys2Proof/Machine/Slots.lean ====
section
/-! DEFINITION. Operand slots (R231-R235): geometry, elements, and their poison markers. -/

namespace Sys2Proof.Machine

/-- Operand slot `o` of a complex. -/
def Complex.slot (c : Complex) (o : Nat) : Slot := Sparse.get Slot.free o c.slots
/-- Replace operand slot `o`. -/
def Complex.setSlot (c : Complex) (o : Nat) (v : Slot) : Complex := { c with slots := Sparse.put Slot.free o v c.slots }
/-- Operand slot `o` of complex `x`. -/
def State.slot (s : State) (x o : Nat) : Slot := (s.cx x).slot o
/-- Replace operand slot `o` of complex `x`. -/
def State.setSlot (s : State) (x o : Nat) (v : Slot) : State := s.setCx x ((s.cx x).setSlot o v)

/-- Rows of a geometry (R231). -/
def geomRows (g : Word) : Nat := bitsOf g.toNat 15 0
/-- Columns of a geometry. -/
def geomCols (g : Word) : Nat := bitsOf g.toNat 31 16
/-- Format code of a geometry. -/
def geomCode (g : Word) : Nat := bitsOf g.toNat 36 32
/-- Column-major layout. -/
def geomColMajor (g : Word) : Bool := bitOf g.toNat 40
/-- Format of a geometry: a claimed slot has a valid one. -/
def geomFmt (g : Word) : Fmt := (Fmt.ofCode (geomCode g)).getD (.i 8)

/-- Formats a slot may have: a brick format, i32 or n32 (R231). -/
def slotFmt (f : Fmt) : Bool := f.isBrick || f == .i 32 || f == .n 32

/-- Whether a geometry is valid (R231). Bits 63, 62 and 58:48 are fields of `oinfo` and none of the operand, and R231 does
not call them reserved: a non-zero one makes the geometry invalid here (log 77). The field table gives rows and columns as 1
to 32,768 and the list of what a valid geometry satisfies does not: the list is followed (log 77). -/
def geomValid (g : Word) : Bool :=
  (g &&& 0xFFFFFEE000000000) == 0 && geomRows g != 0 && geomCols g != 0
  && match Fmt.ofCode (geomCode g) with
    | some f => slotFmt f && decide (elemBytes f (geomRows g * geomCols g) ≤ 32768)
    | none => false

/-- Linear element of (i, j) (R231). -/
def geomIndex (g : Word) (i j : Nat) : Nat := if geomColMajor g then j * geomRows g + i else i * geomCols g + j

/-- Element `e` of the bytes of a slot in format `f`. -/
def slotGet (t : Sparse Byte) (f : Fmt) (e : Nat) : Nat :=
  let o := e * f.bits / 8
  leNat ((List.range ((f.bits + 7) / 8)).map fun i => Sparse.get 0 (o + i) t) / 2 ^ (e * f.bits % 8) % 2 ^ f.bits

/-- The bytes of a slot with element `e` replaced. -/
def slotPut (t : Sparse Byte) (f : Fmt) (e v : Nat) : Sparse Byte :=
  let o := e * f.bits / 8
  if f.bits < 8 then
    let old := (Sparse.get 0 o t).toNat
    let sh := e * f.bits % 8
    Sparse.put 0 o (BitVec.ofNat 8 (old - old / 2 ^ sh % 2 ^ f.bits * 2 ^ sh + v % 2 ^ f.bits * 2 ^ sh)) t
  else putBytes t o (leBytes (f.bits / 8) v)

/-- The 64-byte ranges that element `e` of format `f` touches. -/
def slotRanges (f : Fmt) (e : Nat) : List Nat := anyRanges (e * f.bits / 8) ((f.bits + 7) / 8)

/-- Whether element `e` of a slot lies in a marked range (R316). -/
def Slot.marked (o : Slot) (f : Fmt) (e : Nat) : Bool := !o.poison.isEmpty && (slotRanges f e).any o.poison.contains

/-- Whether the executing strand holds slot `o` of its complex. -/
def State.holds (s : State) (o : Nat) : Bool := o < 64 && (s.slot s.myCx o).owner == some s.me.uid

end Sys2Proof.Machine
end

