-- ==== Sys2Proof/Machine/Copy.lean ====
section
/-! DEFINITION. Copies and completion masks (R173-R184, R189-R194): issue, the chunks the engines move,
and the instructions that read completion bits. -/

namespace Sys2Proof.Machine

/-! ### Completion masks -/

/-- Completion masks of agent `uid`, wherever the strand is: resident or parked (R184). -/
def State.kmasksOf (s : State) (uid : Nat) : Sparse KMask :=
  match s.strands.find? fun e => e.2.resident && e.2.uid == uid with
  | some e => e.2.kmasks
  | none =>
      match s.parts.findSome? fun p => (p.2.parked.find? fun k => k.uid == uid).map (·.kmasks) with
      | some k => k
      | none => []

/-- Replace completion mask `k` of agent `uid`. -/
def State.setKmaskOf (s : State) (uid k : Nat) (v : KMask) : State :=
  match s.strands.find? fun e => e.2.resident && e.2.uid == uid with
  | some e => s.setStrand e.1 { s.strand e.1 with kmasks := Sparse.put KMask.clear k v (s.strand e.1).kmasks }
  | none =>
      (s.parts.map (·.1)).foldl (fun s p =>
        let x := s.part p
        if x.parked.any fun q => q.uid == uid then
          s.setPart p { x with parked := x.parked.map fun q =>
            if q.uid == uid then { q with kmasks := Sparse.put KMask.clear k v q.kmasks } else q }
        else s) s

/-- Copies in flight of agent `uid` (R180). -/
def State.inFlight (s : State) (uid : Nat) : List Copy :=
  s.copies.filter fun c => c.owner == .strand uid && !c.todo.isEmpty

/-- Copies in flight that name completion mask `k` (R182). -/
def State.flight (s : State) (uid k : Nat) : Nat :=
  (s.inFlight uid).countP fun c => Block.kreg c.block == k

/-- Bits that a chunk range selects (R189): the first, and one past the last. -/
def chunkRange (w : Word) : Nat × Nat :=
  let f := bitsOf w.toNat 8 0
  (f, Nat.min (f + bitsOf w.toNat 25 16) 512)

/-- The selected bits. -/
def rangeBits (w : Word) : List Nat :=
  let r := chunkRange w
  (List.range (r.2 - r.1)).map (r.1 + ·)

/-- Tokens left by the chunks of the given bits (R206). -/
def KMask.tokens (k : KMask) (l : List Nat) : List Token := (k.toks.filter fun t => l.contains t.1).map (·.2)

/-- Acquire the chunks of set bits (R181): each at its copy's own scope. -/
def State.acquireBits (s : State) (k : KMask) (l : List Nat) : State :=
  let toks := k.tokens l
  if toks.isEmpty then s else toks.foldl (fun s t => s.myAcquire t.scope [t]) s

/-- The executing strand at a `waitk` of the bits that `w` selects (R192). -/
def State.waitBits (s : State) (d : KReg) (w : Word) : State :=
  let k := s.me.kmask d
  let l := rangeBits w
  if l.all k.bits.getLsbD then (s.acquireBits k l).advance
  else if s.flight s.me.uid d.toNat = 0 then s.trap .copy (k.fva.setWidth 64)
  else s.waits (.waitk d w)

/-- `waitk` (R192). -/
def execWaitk (d : KReg) (a : SReg) (s : State) : Out := .next (s.waitBits d (s.reg a))

/-- Status word 0 of a completion mask (R182). -/
def State.kstatus (s : State) (uid k : Nat) (m : KMask) : Word :=
  BitVec.ofNat 64 (m.cause.toNat * 2 ^ 56 + s.flight uid k * 2 ^ 40 + m.poison.toNat * 2 ^ 32 + m.oow.toNat)

/-- `ktest` (R193). -/
def execKtest (d : SReg) (a : KReg) (b : SReg) (s : State) : Out :=
  let k := s.me.kmask a
  let w := s.reg b
  if w.getLsbD 63 then
    let i := bitsOf w.toNat 62 0
    .next (s.result d (if i = 0 then s.kstatus s.me.uid a.toNat k else if i = 1 then k.fva.setWidth 64 else 0))
  else
    let l := rangeBits w
    if l.all k.bits.getLsbD then .next ((s.acquireBits k l).result d 1)
    else .next (s.result d (if s.flight s.me.uid a.toNat = 0 then 2 else 0))

/-- `kclr` (R194). -/
def execKclr (d : KReg) (s : State) : Out :=
  if s.flight s.me.uid d.toNat = 0 then .next (s.setMe (s.me.setKmask d KMask.clear)).advance
  else .next (s.waits (.flight d))

/-! ### Issue (R176, R190, R191) -/

/-- Orders 4 to 6 of R176, and the first half of 7. -/
def copyChecks (b : Block) (again : Bool) : Option Cause :=
  if b.kreg ≤ 7 ∧ 512 < b.kbase + b.chunks then some .copy
  else if again && b.kreg == 15 then some .copy
  else none

/-- Orders 5 to 7 of R176. -/
def State.denseChecks (s : State) (b : Block) : Option Cause :=
  if b.dkind = 1 ∧ ¬ s.holds b.slot then some .slot
  else if b.dkind = 1 ∧ (32768 < b.offset + b.bytes ∨ b.offset % b.size ≠ 0) then some .copy
  else if b.dkind = 2 ∧ s.me.streamed (BitVec.ofNat 5 b.creg) then some .stream
  else none

/-- The epochs of a copy at its issue: what the strand did before happens-before the copy (R183). -/
def State.startCopy (s : State) (va : Word) (b : Block) (segs : List Seg) (todo : List Nat) (counts : Bool) : State :=
  let r := s.myRelease .sys
  let c : Copy :=
    { id := r.2.nextId, owner := .strand s.me.uid, part := s.me.part, cplx := s.myCx, mode := s.me.mode
      tag := s.me.ctx.toNat, blockVa := va.toNat, block := b, segs := segs, todo := todo, failed := []
      done := [], counts := counts, fault := none, clk := r.1.clk }
  { r.2 with nextId := r.2.nextId + 1, copies := r.2.copies ++ [c] }

/-- An instruction that names the pattern block at `va` has read it, as `b`, and keeps it while it waits: it reads it
once, at its issue (R173). -/
def State.keeps (s : State) (va : Word) (b : Block) : State := s.setMe { s.me with again := some (va, b) }

/-- It waits no more: it keeps no block. -/
def State.forgets (s : State) : State := s.setMe { s.me with again := none }

/-- `cpy` and `cpyx` from the reading of their block on (R190): orders 1 to 4 of R176 have passed. -/
def State.copyFrom (s : State) (va : Word) (b : Block) : Out :=
  let all := List.range b.chunks
  match s.denseChecks b with
  | some c => .next (s.trap c va)
  | none =>
      if b.dkind = 2 then
        let d : CReg := BitVec.ofNat 5 b.creg
        let n := (s.pool s.myCx s.me.far).size
        if 32 * n < b.bytes then .next (s.trap .spine va)
        else (s.keeps va b).settled [d] <| match s.myAllocs ((b.bytes + n - 1) / n) with
          | .error e => .next ((s.keeps va b).stop e)
          | .ok (ids, s2) =>
              let g := denseSegs n b.bytes ids
              .next ((s2.forgets.startCopy va b g all true).writeChain d g).advance
      else .next (s.startCopy va b [] all true).advance

/-- `cpy` and `cpyx` (R190). -/
def State.issueCopy (s : State) (a : SReg) (indirect : Bool) : Out :=
  match s.me.again with
  | some (va, b) => s.copyFrom va b
  | none =>
      if 16 ≤ (s.inFlight s.me.uid).length then .next (s.waits .copies)
      else match s.readBlock s.myAccess (s.reg a) with
        | .error e => .next (s.stop e)
        | .ok (b, s1) =>
            let va := s.reg a
            if b.defect indirect true then .next (s1.trap .copy va)
            else match copyChecks b false with
              | some c => .next (s1.trap c va)
              | none => s1.copyFrom va b

/-- `cpy` (R190). -/
def execCpy (a : SReg) (s : State) : Out := s.issueCopy a false
/-- `cpyx` (R190). -/
def execCpyx (a : SReg) (s : State) : Out := s.issueCopy a true

/-- `cpyr` from its wait on (R191): the block `b` at `va` has been read, and orders 1 to 4 of R176 have passed. -/
def State.copyAgain (s : State) (va : Word) (b : Block) : Out :=
  let k : KReg := BitVec.ofNat 3 b.kreg
  if s.flight s.me.uid b.kreg ≠ 0 then .next ((s.keeps va b).waits (.flight k))
  else match s.denseChecks b with
    | some c => .next (s.trap c va)
    | none =>
        let segs := if b.dkind = 2 then (s.me.chain (BitVec.ofNat 5 b.creg)).segs else []
        if b.dkind = 2 ∧ segsLen segs < b.bytes then .next (s.trap .copy va)
        else
          let m := s.me.kmask k
          let todo := (List.range b.chunks).filter fun j => !m.bits.getLsbD (b.kbase + j)
          let s1 := s.forgets.setMe (s.forgets.me.setKmask k { m with cause := 0, fva := 0, fbit := 0, ftrav := 0 })
          .next ((if todo.isEmpty then s1 else s1.startCopy va b segs todo false).advance)

/-- `cpyr` (R191): the kind is the block's own. A `cpyr` that waits on its completion mask has read its block already. -/
def execCpyr (a : SReg) (s : State) : Out :=
  match s.me.again with
  | some (va, b) => s.copyAgain va b
  | none =>
      if 16 ≤ (s.inFlight s.me.uid).length then .next (s.waits .copies)
      else match s.readBlock s.myAccess (s.reg a) with
        | .error e => .next (s.stop e)
        | .ok (b, s1) =>
            let va := s.reg a
            if b.defect (b.kind == 1) true then .next (s1.trap .copy va)
            else match copyChecks b true with
              | some c => .next (s1.trap c va)
              | none => s1.copyAgain va b

/-! ### Moving a chunk (R177, R178, R181) -/

/-- The copy with number `c`. -/
def State.copy? (s : State) (c : Nat) : Option Copy := s.copies.find? fun k => k.id == c

/-- Replace a copy. -/
def State.setCopy (s : State) (k : Copy) : State :=
  { s with copies := s.copies.map fun c => if c.id == k.id then k else c }

/-- Traversal indices of chunk `j` (R181). -/
def Block.chunkElems (b : Block) (j : Nat) : List Nat :=
  let per := 512 / b.size
  (List.range (Nat.min per (b.count - j * per))).map (j * per + ·)

/-- Family of a copy's accesses for the race checker (R306). -/
def Copy.family (c : Copy) : Nat :=
  match c.owner with | .strand u => u | .node _ _ _ => c.id

/-- Access of one chunk of a copy, as an agent of its own (R197, R206). -/
def Copy.access (c : Copy) (agent : Nat) : Access :=
  { part := c.part, mode := c.mode, tag := c.tag, agent := agent, family := c.family, name := .copy c.blockVa }

/-- Location of a copy (R197). -/
def Copy.loc (c : Copy) : Token :=
  match c.owner with | .strand _ => cplxLoc c.cplx | .node _ _ _ => quadLoc (c.cplx / 32)

/-- Address of dense element `t` in memory (R177). -/
def State.denseAddr (s : State) (c : Copy) (a : Access) (t : Nat) : Int :=
  let b : Block := c.block
  (b.dense + t * (if s.formatAt a b.dense = 0 then b.size else 1) : Nat)

/-- What becomes of one element: moved, or dropped outside the window, or failed. -/
inductive Moved where
  | ok (outside : Bool)
  | miss (m : Miss)
  deriving DecidableEq, Repr

/-- Bytes of element `t` mixed from a new and an old pattern, byte by byte (R178). -/
def mixBytes (n : Nat) (keep : Nat → Bool) (old new : Nat) : Nat :=
  leNat ((List.range n).map fun i => BitVec.ofNat 8 ((if keep i then new else old) / 256 ^ i))

/-- Chunks that this copy, or the one that `cpyr` finishes, has completed (R191). -/
def Copy.settled (c : Copy) : List Nat :=
  (List.range (Block.chunks c.block)).filter fun j => !c.todo.contains j && !c.failed.contains j

/-- The chunk that holds element `t`. -/
def Block.chunkOf (b : Block) (t : Nat) : Nat := t / (512 / b.size)

/-- Elements written once element `t` is: those of completed chunks, and of its own chunk up to it. -/
def Copy.written (c : Copy) (t : Nat) : List Nat :=
  let b : Block := c.block
  c.settled.flatMap b.chunkElems ++ (b.chunkElems (b.chunkOf t)).filter (· ≤ t)

/-- The VA in memory that element `t` is written to: none outside the window, or when its index cannot be read. -/
def State.destVa (s : State) (c : Copy) (a : Access) (t : Nat) : Option Int :=
  let b : Block := c.block
  if b.dkind = 3 then
    match s.readIndex a b t with
    | .ok (i, _) => if b.inWindow (b.addr t i) then some (b.addr t i) else none
    | .error _ => none
  else some (s.denseAddr c a t)

/-- The bits of memory that element `t` is written to. -/
def State.destRun (s : State) (c : Copy) (a : Access) (t : Nat) : Option (Nat × Nat) :=
  (s.destVa c a t).bind fun va => s.bitsAt a (Block.fmt c.block) va 0

/-- Whether elements `ts` of a copy write all of line `l` (R305). -/
def State.copyCovers (s : State) (c : Copy) (a : Access) (ts : List Nat) (l : Nat) : Bool :=
  fillsLine l (ts.filterMap (s.destRun c a))

/-- Byte `o` of a chain: its buffer, the offset in it, and the chain's offset of the segment's first byte with the
segment. -/
def chainByte (o : Nat) : List Seg → Nat → Option (Nat × Nat × Nat × Seg)
  | [], _ => none
  | g :: t, base => if o < base + g.count then some (g.id, g.start + (o - base), base, g) else chainByte o t (base + g.count)

/-- The first bit of byte `o` of buffer `id`, as one number for the storage of both pools. -/
def State.bufBit (s : State) (x id o : Nat) : Nat :=
  let p := s.pool x (idFar id)
  8 * (if idFar id then p.farPlace (idIndex id) + o else 2 ^ 64 + idIndex id * p.size + o)

/-- The bits that element `t` of a copy is written to: in memory, or in the storage of the pools. No two elements meet in
a slot. -/
def State.elemRuns (s : State) (c : Copy) (a : Access) (t : Nat) : List (Nat × Nat) :=
  let b : Block := c.block
  if b.dkind = 1 then []
  else if b.dkind = 2 then
    (List.range b.size).filterMap fun i =>
      (chainByte (t * b.size + i) c.segs 0).map fun k => (s.bufBit c.cplx k.1 k.2.1, 8)
  else (s.destRun c a t).toList

/-- The bits that completed chunks of a copy have written with elements above chunk `j`: with their traversal indices
(R177). Two elements can share a byte on either side: by the pattern, by two pages of one frame, by a chain that names a
buffer twice. -/
def State.laterRuns (s : State) (c : Copy) (a : Access) (j : Nat) : List (Nat × Nat × Nat) :=
  ((c.settled.filter (j < ·)).flatMap (Block.chunkElems c.block)).flatMap fun t => (s.elemRuns c a t).map fun r => (t, r)

/-- Whether bit `k` is one that an element above `t` has written. -/
def standsIn (later : List (Nat × Nat × Nat)) (t k : Nat) : Bool :=
  later.any fun x => t < x.1 && x.2.1 ≤ k && k < x.2.1 + x.2.2

/-- Write value `v` of element `t` to the memory at `va`. `mix` is the byte choice of a failed chunk; bits that an
element of a higher index has written stand (R177). A line that the whole copy covers may be written while it is marked,
and is clean once all of it has been written (R305). -/
def State.copyWrite (s : State) (c : Copy) (a : Access) (t : Nat) (va : Int) (v : Nat) (later : List (Nat × Nat × Nat))
    (mix : Option (Nat → Bool)) : Except Miss State :=
  let b : Block := c.block
  let run := (s.bitsAt a b.fmt va 0).getD (0, 0)
  let line := run.1 / 512
  let may := (s.marked (run.1 / 8) || s.broken (run.1 / 8)) && s.copyCovers c a (List.range b.count) line
  let full := may && mix.isNone && s.copyCovers c a (c.written t) line
  let stands (k : Nat) : Bool := standsIn later t (run.1 + k)
  match s.spot a b.size va false true may (if b.dkind = 3 then none else some (s.formatAt a b.dense)) with
  | .error m => .error m
  | .ok (.plain g) =>
      let old := leNat (s.peek a g b.size)
      let new := match mix with | some keep => mixBytes b.size keep old v | none => v
      .ok (s.store a g (leBytes b.size (leNat ((List.range b.size).map fun i =>
        BitVec.ofNat 8 ((if stands (8 * i) then old else new) / 256 ^ i)))) full)
  | .ok sp =>
      if stands 0 || (match mix with | some keep => !keep 0 | none => false) then .ok s
      else .ok (s.writeSpot a b.fmt b.num 0 full v sp).2

/-- Whether all of the dense bytes from `lo` to `hi` has been written once element `t` is. -/
def Copy.fills (c : Copy) (t lo hi : Nat) : Bool :=
  let b : Block := c.block
  decide (hi ≤ b.bytes) && (List.range ((hi + b.size - 1) / b.size - lo / b.size)).all fun i =>
    let u := lo / b.size + i
    c.settled.contains (b.chunkOf u) || (b.chunkOf u == b.chunkOf t && decide (u ≤ t))

/-- Bytes of a slot written by a copy; a range that it has written whole loses its marker (R316). -/
def State.copySlot (s : State) (c : Copy) (t v : Nat) (mix : Option (Nat → Bool)) : State :=
  let b : Block := c.block
  let o := s.slot c.cplx b.slot
  let at_ := b.offset + t * b.size
  let old := leNat ((List.range b.size).map fun i => Sparse.get 0 (at_ + i) o.data)
  let w := match mix with | some keep => mixBytes b.size keep old v | none => v
  let r := at_ / 64
  let clean := mix.isNone && o.poison.contains r && decide (b.offset ≤ 64 * r) && c.fills t (64 * r - b.offset) (64 * r + 64 - b.offset)
  s.setSlot c.cplx b.slot { o with
    data := putBytes o.data at_ (leBytes b.size w)
    poison := if clean then o.poison.filter (· != r) else o.poison }

/-- The 64-byte range of pool storage that byte `o` of buffer `id` lies in: a line of DRAM for a far buffer. -/
def State.bufRange (s : State) (x id o : Nat) : Nat :=
  let p := s.pool x (idFar id)
  if idFar id then (p.farPlace (idIndex id) + o) / 64 else (idIndex id * p.size + o) / 64

/-- The marker of a range of pool storage set or removed (R305, R316). -/
def State.markRange (s : State) (x : Nat) (far : Bool) (r : Nat) (on : Bool) : State :=
  let put (l : List Nat) : List Nat := if on then (if l.contains r then l else r :: l) else l.filter (· != r)
  if far then (if on then { s with poison := put s.poison } else s.unmark r)
  else s.setCx x { s.cx x with sramPoison := put (s.cx x).sramPoison }

/-- Offsets in a chain at which it names byte `o` of buffer `id`. -/
def chainOffsets (id o : Nat) : List Seg → Nat → List Nat
  | [], _ => []
  | g :: t, base =>
      (if g.id == id && decide (g.start ≤ o) && decide (o < g.start + g.count) then [base + (o - g.start)] else [])
        ++ chainOffsets id o t (base + g.count)

/-- Whether elements of a copy into a chain that satisfy `p` write all of the 64-byte range from byte `lo` of buffer
`id` (R305, R316). -/
def Copy.chainWrites (c : Copy) (id lo : Nat) (p : Nat → Bool) : Bool :=
  let b : Block := c.block
  (List.range 64).all fun i => (chainOffsets id (lo + i) c.segs 0).any fun k => decide (k < b.bytes) && p (k / b.size)

/-- Whether element `u` of a copy has been written once element `t` is. -/
def Copy.wrote (c : Copy) (t u : Nat) : Bool :=
  c.settled.contains (Block.chunkOf c.block u) || (Block.chunkOf c.block u == Block.chunkOf c.block t && decide (u ≤ t))

/-- Bytes of a chain written by a copy (R179), but for those that an element of a higher index has written (R177); a range
that it has written whole loses its marker (R316). An element that writes part of a marked line of memory is not written
when the copy's writes do not cover that line (R305): its address is the one it has on the patterned side, `at_`
(R174, log 59). -/
def State.copyChain (s : State) (c : Copy) (t : Nat) (at_ : Int) (v : Nat) (later : List (Nat × Nat × Nat))
    (mix : Option (Nat → Bool)) : Except Miss State :=
  let b : Block := c.block
  let bytes := (List.range b.size).filterMap fun i => (chainByte (t * b.size + i) c.segs 0).map fun k => (i, k.1, k.2.1)
  if bytes.any fun k => s.bufHeld c.cplx k.2.1 k.2.2 1 && !c.chainWrites k.2.1 (k.2.2 / 64 * 64) (fun _ => true) then
    .error (.bad .poison at_ {})
  else
    .ok (bytes.foldl (fun s (i, id, o) =>
      let new := (match mix with | some keep => keep i | none => true) && !standsIn later t (s.bufBit c.cplx id o)
      let s := if new then s.setBuf c.cplx id o [BitVec.ofNat 8 (v / 256 ^ i)] else s
      let lo := o / 64 * 64
      if mix.isNone && s.bufMarked c.cplx id lo 64 && c.chainWrites id lo (c.wrote t) then
        (s.markRange c.cplx (idFar id) (s.bufRange c.cplx id o) false)
      else s) s)

/-- Move element `t` of a copy. -/
def State.moveElem (s : State) (c : Copy) (a : Access) (later : List (Nat × Nat × Nat)) (t : Nat)
    (mix : Option (Nat → Bool)) : Except Miss (Bool × State) :=
  let b : Block := c.block
  if b.dkind = 3 then
    match s.readIndex a b t with
    | .error m => .error m
    | .ok (i, s) =>
        let va := b.addr t i
        if !b.inWindow va then .ok (true, s)
        else
          let from_ := s.denseAddr c a t
          match s.spot a b.size from_ true false false (some (s.formatAt a b.dense)) with
          | .error m => .error m
          | .ok sp =>
              let r := s.readSpot a b.fmt b.num 0 sp
              match r.2.copyWrite c a t va r.1.1 later mix with
              | .error m => .error m
              | .ok s => .ok (false, s)
  else match s.gather a b t with
    | .error m => .error m
    | .ok ((v, out), s) =>
        if b.dkind = 1 then .ok (out, s.copySlot c t v mix)
        else if b.dkind = 2 then
          let at_ := match s.readIndex a b t with | .ok (i, _) => b.addr t i | .error _ => b.base
          match s.copyChain c t at_ v later mix with
          | .error m => .error m
          | .ok s => .ok (out, s)
        else match s.copyWrite c a t (s.denseAddr c a t) v later mix with
          | .error m => .error m
          | .ok s => .ok (out, s)

/-- What a pass over a chunk finds: elements outside the window, the first failed element, whether a read has failed at
a marked or uncorrectable line, the lines found so, a wait for a cell, the races. -/
structure Pass where
  outside : Nat := 0
  fault   : Option (Nat × Cause × Int) := none
  poison  : Bool := false
  lines   : List Nat := []
  cell    : Bool := false
  rivals  : List (Party × Party) := []
  deriving DecidableEq, Repr

/-- One element of the pass: a failed element is recorded and the others go on (R178). -/
def State.passElem (s : State) (c : Copy) (a : Access) (later : List (Nat × Nat × Nat)) (mix : Option (Nat → Bool))
    (p : Pass) (t : Nat) : Pass × State :=
  match s.moveElem c a later t (mix.map fun m i => m (t * 8 + i)) with
  | .ok (out, s') => ({ p with outside := p.outside + (if out then 1 else 0) }, s')
  | .error .cell => ({ p with cell := true }, s)
  | .error (.bad e at_ n) =>
      ({ p with
          fault := match p.fault with | some f => some f | none => some (t, e, at_)
          poison := p.poison || n.line.isSome
          lines := p.lines ++ n.line.toList
          rivals := (p.rivals ++ n.rivals).eraseDups }, s)

/-- The elements of chunk `j` of a copy moved in order. -/
def State.pass (s : State) (c : Copy) (a : Access) (mix : Option (Nat → Bool)) (j : Nat) : Pass × State :=
  let later := s.laterRuns c a j
  (Block.chunkElems c.block j).foldl (fun r t => r.2.passElem c a later mix r.1 t) ({}, s)

/-- A fresh agent for a chunk, after everything before the copy's issue (R183). -/
def State.chunkAgent (s : State) (c : Copy) : Nat × State :=
  let f := s.fresh
  (f.1, f.2.setClk f.1 c.clk)

/-- What the completion of a chunk leaves: the bit, its release, and the count of R182. -/
def State.chunkDone (s : State) (c : Copy) (agent j outside : Nat) : State :=
  let b : Block := c.block
  let c' := { c with todo := c.todo.filter (· != j), done := c.done ++ [j] }
  let s := s.setCopy c'
  match c.owner with
  | .node p _ _ => s.follows (launchAgent p) agent
  | .strand u =>
      let s := s.follows (copiesOf u) agent
      let s := if c'.todo.isEmpty then { s with copies := s.copies.filter fun k => k.id != c.id } else s
      if b.kreg = 15 then s
      else
        let m := Sparse.get KMask.clear b.kreg (s.kmasksOf u)
        let bit := b.kbase + j
        let r := s.release agent c.loc (scopeOfCode b.scopeCode)
        let oow := if c.counts then Nat.min (m.oow.toNat + outside) (2 ^ 32 - 1) else m.oow.toNat
        r.2.setKmaskOf u b.kreg { m with
          bits := m.bits ||| (1 <<< bit), oow := BitVec.ofNat 32 oow
          toks := (bit, r.1) :: m.toks }

/-- `CHUNK_COMPLETE` (R181): chunk `j` of copy `c`, when every element of it passes its checks. -/
def execChunkComplete (c j : Nat) (s : State) : Out :=
  match s.copy? c with
  | none => .next s
  | some k =>
      if !k.todo.contains j then .next s
      else
        let f := s.chunkAgent k
        let r := f.2.pass k (k.access f.1) none j
        if r.1.fault.isSome || r.1.cell then .next s else .next (r.2.chunkDone k f.1 j r.1.outside)

/-- The marker on the line of memory of an access; where that has no cell yet, on the line of the cell that the marker's
write materialises (R208, R305). -/
def State.markLine (s : State) (a : Access) (g : Page) : State :=
  let s := if s.needsCell a g then s.materialise a g else s
  let l := s.locate a g / 64
  if l < dramTop / 64 && !s.poison.contains l then { s with poison := l :: s.poison } else s

/-- The poison marker over the destination of a chunk (R178, R305): lines of memory, ranges of a slot
or of buffers. -/
def State.markDest (s : State) (c : Copy) (a : Access) (j : Nat) : State :=
  let b : Block := c.block
  (b.chunkElems j).foldl (fun s t =>
    if b.dkind = 1 then
      let o := s.slot c.cplx b.slot
      let r := (b.offset + t * b.size) / 64
      s.setSlot c.cplx b.slot { o with poison := if o.poison.contains r then o.poison else r :: o.poison }
    else if b.dkind = 2 then
      (List.range b.size).foldl (fun s i =>
        match chainByte (t * b.size + i) c.segs 0 with
        | none => s
        | some (id, off, _, _) => s.markRange c.cplx (idFar id) (s.bufRange c.cplx id off) true) s
    else match s.destVa c a t with
      | none => s
      | some va => match s.spot a b.size va false true true none with
        | .ok (.plain g) => s.markLine a g
        | .ok (.stored g sf k) => s.markLine a (g.frameByte (packedByte sf.bits k))
        | _ => s) s

/-- Record a fault in a completion mask's status: the lowest bit, then the lowest traversal index (R182). -/
def KMask.record (m : KMask) (bit t : Nat) (c : Cause) (va : Int) : KMask :=
  if m.cause = 0 ∨ bit < m.fbit ∨ (bit = m.fbit ∧ t < m.ftrav) then
    { m with cause := c.code, fva := BitVec.ofInt 57 va, fbit := bit, ftrav := t }
  else m

/-- The better of two recorded faults of a graph copy (R28, R182). -/
def betterFault (a : Option (Nat × Nat × Cause × Nat)) (bit t : Nat) (c : Cause) (va : Int) :
    Option (Nat × Nat × Cause × Nat) :=
  match a with
  | some (b, u, x, y) => if bit < b ∨ (bit = b ∧ t < u) then some (bit, t, c, va.toNat) else some (b, u, x, y)
  | none => some (bit, t, c, va.toNat)

/-- What a failed chunk leaves (R178, R182). -/
def State.chunkFailed (s : State) (c : Copy) (a : Access) (j : Nat) (p : Pass) : State :=
  let b : Block := c.block
  let s := if p.poison then s.markDest c a j else s
  let s := (p.lines.filter s.badLines.contains).foldl (fun s l => s.logs (.uncorrectable l)) s
  let s := s.noted { rivals := p.rivals }
  let f := p.fault.getD (0, .copy, 0)
  let bit := b.kbase + j
  let c' := { c with todo := c.todo.filter (· != j), failed := c.failed ++ [j]
                     fault := betterFault c.fault bit f.1 f.2.1 f.2.2 }
  let s := s.setCopy c'
  match c.owner with
  | .node q _ _ => s.follows (launchAgent q) a.agent
  | .strand u =>
      let s := s.follows (copiesOf u) a.agent
      let s := if c'.todo.isEmpty then { s with copies := s.copies.filter fun k => k.id != c.id } else s
      if b.kreg = 15 then s
      else
        let m := Sparse.get KMask.clear b.kreg (s.kmasksOf u)
        let oow := if c.counts then Nat.min (m.oow.toNat + p.outside) (2 ^ 32 - 1) else m.oow.toNat
        let m := { m with
          oow := BitVec.ofNat 32 oow
          poison := BitVec.ofNat 8 (Nat.min (m.poison.toNat + (if p.poison then 1 else 0)) 255) }
        s.setKmaskOf u b.kreg (m.record bit f.1 f.2.1 f.2.2)

/-- `CHUNK_FAIL` (R178): chunk `j` of copy `c`, when some element of it fails a check. Its bytes are any
mixture of old and new (log 7). -/
def execChunkFail (c j : Nat) (s : State) : Out :=
  match s.copy? c with
  | none => .next s
  | some k =>
      if !k.todo.contains j then .next s
      else
        let f := s.chunkAgent k
        let a := k.access f.1
        let mix := some (Config.chunkByteNew s.freeCount)
        let r := f.2.pass k a mix j
        if r.1.fault.isNone || r.1.cell then .next s
        else .next ({ r.2 with freeCount := r.2.freeCount + 1 }.chunkFailed k a j r.1)

end Sys2Proof.Machine
end

