-- ==== Sys2Proof/Machine/Stream.lean ====
section
/-! DEFINITION. Stream registers (R185-R188, R195, R196): issue, refill, the pop at which a convoy takes
a strip, and what its close gives back. -/

namespace Sys2Proof.Machine

/-- Access of a stream's refill: the issuing strand's partition, mode and `ctx`, an agent of its own
(R187, R197). -/
def Stream.access (t : Stream) (part uid sid : Nat) : Access :=
  { part := part, mode := t.mode, tag := t.tag, agent := t.agent, family := uid, name := .strand sid }

/-- Elements gathered from the traversal, in order, until one fails a check (R186): their bytes, and the
failed element's index, cause, address and note. -/
def State.gatherRun (s : State) (a : Access) (b : Block) :
    List Nat → List Byte × Option (Nat × Cause × Int × Note) × State
  | [] => ([], none, s)
  | t :: ts =>
      match s.gather a b t with
      | .error (.bad c va n) => ([], some (t, c, va, n), s)
      | .error .cell => ([], some (t, .notPresent, 0, {}), s)
      | .ok (v, s') =>
          let r := s'.gatherRun a b ts
          (leBytes b.size v.1 ++ r.1, r.2)

/-- Stream registers of a strand (R186). -/
def Strand.streams (t : Strand) : Nat := t.chains.countP fun c => c.2.stream.isSome

/-- Buffers that `n` elements of a block need (R131). -/
def stripBuffers (b : Block) (size n : Nat) : Nat := (n * b.size + size - 1) / size

/-- A strip's elements placed in buffers `ids`: the segments, and the buffers left over. -/
def State.placeStrip (s : State) (x : Nat) (far : Bool) (ids : List Nat) (bs : List Byte) : List Seg × State :=
  let size := (s.pool x far).size
  let g := denseSegs size bs.length (ids.take ((bs.length + size - 1) / size))
  let spare := (ids.drop ((bs.length + size - 1) / size)).map fun i => ({ id := i, start := 0, count := 1 } : Seg)
  (g, (s.fill x g bs).dropRefs x spare)

/-- A failed element as a stream remembers it. -/
def badElem (f : Nat × Cause × Int × Note) : Nat × Cause × Nat := (f.1, f.2.1, (BitVec.ofInt 64 f.2.2.1).toNat)

/-- `strm` and `strmx` from the reading of their block on (R195, R176): orders 1 to 3 of R176 have passed, and the first
strip is fetched at issue. `eval` of a failed check is the block's VA, as
R176 has it for every check, but for a register that is in stream mode already: R300 names the instruction's address
(log 51). -/
def State.streamFrom (s : State) (d : CReg) (va : Word) (b : Block) : Out :=
  if s.me.streamed d then .next (s.trapHere .stream)
  else if 8 ≤ s.me.streams then .next (s.trap .stream va)
  else
    let far := s.me.far
    let h := Nat.min s.me.vl.toNat b.count
    let need := stripBuffers b (s.pool s.myCx far).size h
    if 32 < need then .next (s.trap .spine va)
    else match s.myAllocs need with
      | .error e => .next ((s.keeps va b).stop e)
      | .ok (ids, s2) =>
          let r := s2.forgets.myRelease .sys
          let f := r.2.fresh
          let s3 := f.2.setClk f.1 r.1.clk
          let acc : Access := { s.myAccess with agent := f.1 }
          let g := s3.gatherRun acc b (List.range h)
          let s4 := match g.2.1 with | some e => g.2.2.noted e.2.2.2 | none => g.2.2
          let p := s4.placeStrip s.myCx far ids g.1
          let t : Stream :=
            { block := b, far := far, tag := s.me.ctx.toNat, mode := s.me.mode, q := 0, held := none
              ahead := p.1, fetched := g.1.length / b.size, bad := g.2.1.map badElem, agent := f.1 }
          let old := s.segs d
          let s5 := p.2.setMe (p.2.me.setChain d { segs := [], stream := some t })
          .next (s5.dropRefs s.myCx old).advance

/-- `strm` and `strmx` (R195, R176). -/
def State.startStream (s : State) (d : CReg) (a : SReg) (indirect : Bool) : Out :=
  s.settled [d] <| match s.me.again with
    | some (va, b) => s.streamFrom d va b
    | none => match s.readBlock s.myAccess (s.reg a) with
      | .error e => .next (s.stop e)
      | .ok (b, s1) =>
          if b.defect indirect false then .next (s1.trap .copy (s.reg a)) else s1.streamFrom d (s.reg a) b

/-- `strm` (R195). -/
def execStrm (d : CReg) (a : SReg) (s : State) : Out := s.startStream d a false
/-- `strmx` (R195). -/
def execStrmx (d : CReg) (a : SReg) (s : State) : Out := s.startStream d a true

/-- The segments that a stream holds: the held strip and what is fetched ahead. -/
def Stream.segs (t : Stream) : List Seg := (match t.held with | some h => h.1 | none => []) ++ t.ahead

/-- `strmoff` (R196): no effect on a register that is no stream. -/
def execStrmoff (d : CReg) (s : State) : Out :=
  match (s.me.chain d).stream with
  | none => .next s.advance
  | some t => .next ((s.setMe (s.me.setChain d Chain.empty)).dropRefs s.myCx t.segs).advance

/-! ### The pop of a convoy (R185, R186) -/

/-- The strip of a stream after its pop: what was fetched ahead is taken first. -/
def Stream.pop (t : Stream) (vl : Nat) : Stream :=
  match t.held with
  | some _ => t
  | none =>
      let b : Block := t.block
      let h := Nat.min vl (b.count - t.q)
      let n := Nat.min h (segsLen t.ahead / b.size)
      { t with q := t.q + h, held := some (segsTake (n * b.size) t.ahead, h)
               ahead := segsDrop (n * b.size) t.ahead, fetched := Nat.max t.fetched (t.q + h) }

/-- What the pops of a convoy meet: an element that cannot be delivered (its index in the strip, cause,
address), or an empty pool. -/
inductive PopStop where
  | bad (e : Nat) (c : Cause) (eval : Word)
  | wait (far : Bool)
  deriving DecidableEq, Repr

/-- Elements of the held strip that have been delivered. -/
def Stream.delivered (t : Stream) : Nat :=
  match t.held with | some h => segsLen h.1 / Block.size t.block | none => 0

/-- Elements of the held strip. -/
def Stream.height (t : Stream) : Nat := match t.held with | some h => h.2 | none => 0

/-- A stream register's new state, with no mark in `cdirty`. -/
def State.putStream (s : State) (d : CReg) (t : Stream) : State :=
  s.setMe (s.me.putChain d { segs := [], stream := some t })

/-- The bytes of segments `old` stand in `new` from its first byte on: so do their markers (R316). -/
def State.moveMarks (s : State) (x : Nat) (far : Bool) (old new : List Seg) : State :=
  (List.range (segsLen old)).foldl (fun t i =>
    match chainByte i old 0, chainByte i new 0 with
    | some a, some b => if s.bufMarked x a.1 a.2.1 1 then t.markRange x far (t.bufRange x b.1 b.2.1) true else t
    | _, _ => t) s

/-- Fetch the undelivered rest of the held strip. It waits behind older allocations of the pool (R120); `fails`: an
allocation that finds the pool empty has waited past its limit (R186, R299). A strip that would not fit 32 segments beside
what it already has moves to new buffers, whole; no more is delivered than fills 32 of them (R131). -/
def State.fetchRest (s : State) (d : CReg) (t : Stream) (fails : Bool) : Option PopStop × State :=
  let x := s.myCx
  let b : Block := t.block
  let h := t.height
  let k := t.delivered
  let size := (s.pool x t.far).size
  let have_ := match t.held with | some g => g.1 | none => []
  let t' := { t with bad := none }
  match t.bad.filter fun f => f.1 == t.q - h + k with
  | some (_, c, va) => (some (.bad k c (BitVec.ofNat 64 va)), s.putStream d t')
  | none =>
      let pack := decide (32 < have_.length + stripBuffers b size (h - k))
      let n := Nat.min (h - k) (32 * size / b.size - (if pack then k else 0))
      let g := s.gatherRun (t'.access s.me.part s.me.uid s.cur) b ((List.range n).map (t.q - h + k + ·))
      let s1 := match g.2.1 with | some e => g.2.2.noted e.2.2.2 | none => g.2.2
      let pack := pack && !g.1.isEmpty
      let kept := if pack then s.segBytes x have_ else []
      let bytes := kept ++ g.1
      let need := (bytes.length + size - 1) / size
      let p := s1.pool x t.far
      let got := Nat.min need (if p.enable then s1.room x t.far else 0)
      let dry := noBufferEval t.far (if p.enable then .empty else .disabled)
      if got < need && p.enable && !fails then (some (.wait t.far), s)
      else if got < need && pack && decide (got * size ≤ kept.length) then (some (.bad k .pool dry), s1.putStream d t')
      else
        match s1.allocs x t.far got with
        | .error _ => (some (.wait t.far), s)
        | .ok (ids, s2) =>
            let bs := bytes.take (got * size)
            let q := s2.placeStrip x t.far ids bs
            let s3 := if pack then (q.2.moveMarks x t.far have_ q.1).dropRefs x have_ else q.2
            let s4 := s3.putStream d { t' with held := some ((if pack then [] else have_) ++ q.1, h) }
            let e := (if pack then 0 else k) + bs.length / b.size
            if got < need then (some (.bad e .pool dry), s4)
            else match g.2.1 with
              | some f => (some (.bad e f.2.1 (BitVec.ofInt 64 f.2.2.1)), s4)
              | none => (if n < h - k then some (.bad (k + n) .spine s.me.pc) else none, s4)

/-- The pop of one stream register by a convoy (R185): the strip may be delivered in part. -/
def State.popStrip (s : State) (d : CReg) (fails : Bool) : Option PopStop × State :=
  match (s.me.chain d).stream with
  | none => (none, s)
  | some t =>
      let u := t.pop s.me.vl.toNat
      -- a buffer that ends one strip and begins what lies ahead is named by both
      let both := u.ahead.take 1 |>.filter fun g => t.held.isNone &&
        (match u.held with | some h => h.1.any fun f => f.id == g.id | none => false)
      let s := (s.putStream d u).addRefs s.myCx both
      if u.delivered = u.height then (none, s) else s.fetchRest d u fails

/-- A convoy that closes without a trap gives the held strip back (R185). -/
def State.closeStrip (s : State) (d : CReg) : State :=
  match (s.me.chain d).stream with
  | none => s
  | some t =>
      match t.held with
      | none => s
      | some h => (s.putStream d { t with held := none }).dropRefs s.myCx h.1

/-! ### Refill (R186) -/

/-- What the engine fetches ahead of a stream on complex `x` now, as a first traversal index and a count: `want` elements
when nothing is ahead and the pool has the buffers; none otherwise. R186 bounds what lies ahead by 32 buffers and does not
say how much is fetched at a time nor when: a strip of `vl` elements, for a parked strand one buffer's worth, once nothing
is ahead (log 75). -/
def State.refillOf (s : State) (x want : Nat) (t : Stream) : Option (Nat × Nat) :=
  let b : Block := t.block
  let p := s.pool x t.far
  let pos := Nat.max t.q t.fetched
  let n := Nat.min want (b.count - pos)
  let need := stripBuffers b p.size n
  let have_ := match t.held with | some g => g.1.length | none => 0
  if !t.ahead.isEmpty || t.bad.isSome || n = 0 || t.delivered != t.height
      || decide (32 < have_ + need) || !p.enable || decide (p.free.length < need)
      || (s.onCx x).any (fun i => (s.waitsFor t.far i).isSome) then none
  else some (pos, n)

/-- The refill of stream `t`: its new state. -/
def State.refilled (s : State) (x part uid sid : Nat) (t : Stream) (k : Nat × Nat) : Option (Stream × State) :=
  let b : Block := t.block
  match s.allocs x t.far (stripBuffers b (s.pool x t.far).size k.2) with
  | .error _ => none
  | .ok (ids, s1) =>
      let g := s1.gatherRun (t.access part uid sid) b ((List.range k.2).map (k.1 + ·))
      let s2 := match g.2.1 with | some e => g.2.2.noted e.2.2.2 | none => g.2.2
      let q := s2.placeStrip x t.far ids g.1
      some ({ t with ahead := q.1, fetched := k.1 + g.1.length / b.size, bad := g.2.1.map badElem }, q.2)

/-- The parked strand that left slot `sid` and whose stream register `r` can be refilled: its partition, the strand, its
stream and what is fetched, one buffer's worth (R184). -/
def State.parkedRefill (s : State) (sid : Nat) (r : CReg) : Option (Nat × Parked × Stream × (Nat × Nat)) :=
  s.parts.findSome? fun e => e.2.parked.findSome? fun k =>
    if k.sid ≠ sid then none
    else match (Sparse.get Chain.empty r.toNat k.chains).stream with
      | none => none
      | some t =>
          (s.refillOf k.cplx ((s.pool k.cplx t.far).size / Block.size t.block) t).map fun n => (e.1, k, t, n)

/-- `STREAM_REFILL`: the next strip's worth of elements is fetched when nothing is ahead and the pool has the buffers,
for the strand in slot `sid`, or for one that has parked and was there (R184). -/
def execStreamRefill (sid : Nat) (r : CReg) (s : State) : Out :=
  let st := s.strand sid
  let live := if st.resident then (st.chain r).stream.bind fun t =>
      (s.refillOf (cxOf sid) st.vl.toNat t).map fun n => (t, n) else none
  match live with
  | some (t, n) => match s.refilled (cxOf sid) st.part st.uid sid t n with
      | none => .next s
      | some (t', s1) => .next (s1.setStrand sid ((s1.strand sid).putChain r { segs := [], stream := some t' }))
  | none => match s.parkedRefill sid r with
      | none => .next s
      | some (p, k, t, n) => match s.refilled k.cplx p k.uid sid t n with
          | none => .next s
          | some (t', s1) =>
              let k' := { k with chains := Sparse.put Chain.empty r.toNat { segs := [], stream := some t' } k.chains }
              .next (s1.setPart p { s1.part p with parked := (s1.part p).parked.map fun q => if q.uid == k.uid then k' else q })

end Sys2Proof.Machine
end

