-- ==== Sys2Proof/Machine/Member.lean ====
section
/-! DEFINITION. What the convoy machine asks of each convoy-class instruction (R63-R65, R130): the
registers it reads and writes, the formats it accepts, the limits it counts under, and what it does to
one element. -/

namespace Sys2Proof.Machine

/-- A chain operand: its register and the format it is read in. -/
structure Src where
  reg : CReg
  fmt : Fmt
  deriving DecidableEq, Repr

/-- Address forms of R165; `index k` takes the k-th bounding operand as byte offsets. -/
inductive Form where
  | unit
  | stride (b : SReg)
  | index (k : Nat)
  deriving DecidableEq, Repr

/-- Kinds of vector load (R168-R170, R268). -/
inductive LoadKind where
  | plain
  | first
  | chunk (k : KReg)
  | tagged (b : SReg)
  deriving DecidableEq, Repr

/-- How a permute picks the element of A (R145). -/
inductive Pick where
  | chain
  | slide (b : SReg)
  | expand (m : MReg)
  deriving DecidableEq, Repr

/-- Mask instructions (R146): results from whole masks below `vlmax`. -/
inductive MaskOp where
  | two (f : Mask → Mask → Mask)
  | inv
  | popc
  | first
  | set (a b : SReg)
  | get (b : SReg)

/-- What a member does. -/
inductive Body where
  /-- Element-wise (R130): element number, the bounding operands' elements, the broadcast scalar, the
  `vsel` bit. -/
  | map (op : Nat → List Nat → Nat → Bool → Nat × Flags) (scal : Option (SReg × Nat)) (sel : Option MReg)
      (mrg : Bool)
  | cmp (op : Nat → Nat → Bool × Flags) (scal : Option (SReg × Nat))
  | red (comb : Nat → Nat → Nat × Flags) (seed : SReg)
  | perm (p : Pick)
  | comp (m : MReg)
  | mask (op : MaskOp)
  | load (at_ : Form) (base : SReg) (kind : LoadKind)
  | store (at_ : Form) (base : SReg) (common : Bool)
  | vamo (op : AmoOp) (o : VamoOrder) (sc : VamoScope) (base : SReg)
  | oput (o : OReg)
  | oget (o : OReg)
  | biasupd (o : OReg) (g : SReg)
  | tkget
  | mma (zero : Bool) (a b : OReg)
  | bswalk (o : OReg) (a b : SReg)
  | citp (a : SReg)
  | vbr (m : MReg) (o : BitVec 14)
  | vjoin (o : BitVec 26)

/-- A convoy-class instruction under a `gm`. -/
structure Member where
  /-- Chain operands that limit the element count, and others that are indexed (R145). -/
  bound  : List Src := []
  other  : List Src := []
  /-- Chain registers written, with the width of their elements in bits. -/
  dests  : List (CReg × Nat) := []
  mreads : List MReg := []
  mwrite : Option MReg := none
  swrite : Option SReg := none
  /-- Memory reads and writes (R64). -/
  loads  : Nat := 0
  stores : Nat := 0
  /-- Whether the mode suits it (R59). -/
  fits   : Bool := true
  /-- Breaks a rule of its own with cause 0x03 (R145). -/
  clash  : Bool := false
  /-- Further element widths that count towards W (R289). -/
  widths : List Nat := []
  /-- Whether its operands and results count towards W. -/
  counted : Bool := true
  body   : Body

/-- Chain registers it reads. -/
def Member.reads (m : Member) : List CReg := (m.bound ++ m.other).map (·.reg)
/-- Chain registers it writes. -/
def Member.writes (m : Member) : List CReg := m.dests.map (·.1)
/-- Whether it closes its convoy (R63). -/
def Member.closes (m : Member) : Bool :=
  match m.body with
  | .mma .. | .bswalk .. | .vbr .. | .vjoin .. => true
  | _ => false
/-- Whether it carries the merge bit. -/
def Member.merges (m : Member) : Bool := match m.body with | .map _ _ _ x => x | _ => false
/-- Whether it reads its old destination (R133). -/
def Member.readsOld (m : Member) : Bool := m.merges || m.writes.any m.reads.contains
/-- Whether it is a mask instruction. -/
def Member.isMask (m : Member) : Bool := match m.body with | .mask _ => true | _ => false
/-- Whether it is a `vcomp`. -/
def Member.isComp (m : Member) : Bool := match m.body with | .comp _ => true | _ => false
/-- Whether it is a `vldk`. -/
def Member.isVldk (m : Member) : Bool := match m.body with | .load _ _ (.chunk _) => true | _ => false
/-- Whether it is a `citp`. -/
def Member.isCitp (m : Member) : Bool := match m.body with | .citp _ => true | _ => false
/-- Whether it acts after every other member has completed (R148, R247, R266). -/
def Member.last (m : Member) : Bool :=
  match m.body with
  | .bswalk .. | .citp _ | .vbr .. | .vjoin _ => true
  | _ => false
/-- Scalar registers it reads. -/
def Member.scalars (m : Member) : List SReg :=
  let form : Form → List SReg | .stride b => [b] | _ => []
  match m.body with
  | .map _ x _ _ | .cmp _ x => (x.map (·.1)).toList
  | .red _ a | .perm (.slide a) | .citp a | .vamo _ _ _ a | .biasupd _ a | .mask (.get a) => [a]
  | .mask (.set a b) | .bswalk _ a b => [a, b]
  | .load at_ a (.tagged b) => a :: b :: form at_
  | .load at_ a _ | .store at_ a _ => a :: form at_
  | _ => []
/-- Whether it reads or writes scalar register `d`. -/
def Member.names (m : Member) (d : SReg) : Bool := m.swrite == some d || m.scalars.contains d
/-- Element widths in bits that count towards W (R289). -/
def Member.counts (m : Member) : List Nat :=
  if m.counted then (m.bound ++ m.other).map (·.fmt.bits) ++ m.dests.map (·.2) ++ m.widths else []

/-! ### Formats (R140, R143) -/

/-- Both integer, or both floating (R140). -/
def sameKind (fa fb : Fmt) : Bool := fa.isInt == fb.isInt
/-- Both integer. -/
def bothInt (fa fb : Fmt) : Bool := fa.isInt && fb.isInt
/-- bf16, fp16 or fp32 (R112). -/
def Fmt.isIeee (f : Fmt) : Bool := match f with | .bf16 | .fp16 | .fp32 => true | _ => false
/-- An integer format of at least one byte (R165, R218, R266). -/
def Fmt.isOffset (f : Fmt) : Bool := f.isInt && decide (8 ≤ f.bits)

/-- Elements `i` of the operand list. -/
def arg (l : List Nat) (i : Nat) : Nat := l.getD i 0

end Sys2Proof.Machine
end

