-- ==== Sys2Proof/Machine/Matrix.lean ====
section
/-! DEFINITION. Matrix and epilogue instructions and `citp` (R229-R251, R266) as members of a convoy,
the sums of one matrix column (R237) and the feeding of the top-k epilogue (R240). -/

namespace Sys2Proof.Machine

/-- Grouping factor that `gm`.g codes (R58). -/
def Gm.rows (g : Gm) : Nat := 2 ^ g.g.toNat

/-- Accumulator format of a pair of brick formats (R229). -/
def accFmt (fa fb : Fmt) : Fmt := if bothInt fa fb then .i 32 else .fp32

/-- Registers of the accumulator set (R236). -/
def accSet (d : CReg) (rows : Nat) : List (CReg × Nat) :=
  ((List.range rows).filter fun i => d.toNat + i < 32).map fun i => (BitVec.ofNat 5 (d.toNat + i), 32)

/-- Whether the mode suits `mma` (R236 order 1). -/
def mmaFits (d : CReg) (g : Gm) : Bool := g.fmtA.isBrick && g.fmtB.isBrick && decide (d.toNat + g.rows ≤ 32)

/-- `mma cG, oA, oB` (R236). -/
def memberMma (d : CReg) (a b : OReg) (g : Gm) : Member :=
  { dests := accSet d g.rows, fits := mmaFits d g, body := .mma false a b }
/-- `mmaz cG, oA, oB` (R236). -/
def memberMmaz (d : CReg) (a b : OReg) (g : Gm) : Member :=
  { dests := accSet d g.rows, fits := mmaFits d g, body := .mma true a b }
/-- `bswalk oD, sA, sB` (R246): it writes c0-c31. -/
def memberBswalk (d : OReg) (a b : SReg) (g : Gm) : Member :=
  { dests := accSet 0 32, counted := false, fits := g.fmtA.isBrick && g.fmtB.isBrick, body := .bswalk d a b }
/-- `oput oD, cA` (R235). -/
def memberOput (d : OReg) (a : CReg) (g : Gm) : Member := { bound := [⟨a, g.fmtA⟩], body := .oput d }
/-- `oget cD, oA` (R235). -/
def memberOget (d : CReg) (a : OReg) (g : Gm) : Member := { dests := [(d, g.fmtA.bits)], body := .oget a }
/-- `biasupd oD, cA, sB` (R243). -/
def memberBiasupd (d : OReg) (a : CReg) (b : SReg) (g : Gm) : Member :=
  { bound := [⟨a, g.fmtA⟩], widths := [32], fits := g.fmtA == .i 32 || g.fmtA == .n 32, body := .biasupd d b }
/-- `tkget cD, cA` (R241). -/
def memberTkget (d a : CReg) : Member := { dests := [(d, 32), (a, 32)], body := .tkget }
/-- `citp sA, cB` (R266). -/
def memberCitp (a : SReg) (b : CReg) (g : Gm) : Member :=
  { bound := [⟨b, g.fmtA⟩], counted := false, fits := g.fmtA.isOffset, body := .citp a }

/-! ### The checks of R236 -/

/-- What a matrix instruction traps on before any column (R236 orders 2 to 6). -/
def State.mmaCheck (s : State) (g : Gm) (vl : Nat) (a b : OReg) : Option Cause :=
  let x := s.myCx
  let oa := s.slot x a.toNat
  let ob := s.slot x b.toNat
  if !s.holds a.toNat || !s.holds b.toNat then some .slot
  else if geomCode oa.geom != g.fa.toNat || geomRows oa.geom != g.rows || geomCode ob.geom != g.fb.toNat
      || geomRows ob.geom != geomCols oa.geom || decide (geomCols ob.geom < vl) then some .geometry
  else match s.me.epilogue with
    | none => none
    | some ep =>
        if ep.rows != g.rows || ep.int != (accFmt g.fmtA g.fmtB == .i 32) then some .mode
        else if !ep.biasen then none
        else if !s.holds ep.bslot.toNat then some .slot
        else
          let sl := s.slot x ep.bslot.toNat
          if geomRows sl.geom != 1 || geomCode sl.geom != (if ep.int then 8 else 14) then some .geometry
          else none

/-! ### One column (R237) -/

/-- Row `r` of A beside column `j` of B: the pairs of patterns of KSum. -/
def slotPairs (oa ob : Slot) (r j k : Nat) : List (Nat × Nat) :=
  (List.range k).map fun i =>
    (slotGet oa.data (geomFmt oa.geom) (geomIndex oa.geom r i), slotGet ob.data (geomFmt ob.geom) (geomIndex ob.geom i j))

/-- Whether column `j` of the product reads a marked range of either slot (R316). -/
def slotsMarked (oa ob : Slot) (rows j k : Nat) : Bool :=
  (!oa.poison.isEmpty || !ob.poison.isEmpty) &&
  ((List.range k).any fun i => ob.marked (geomFmt ob.geom) (geomIndex ob.geom i j)
    || (List.range rows).any fun r => oa.marked (geomFmt oa.geom) (geomIndex oa.geom r i))

/-! ### The epilogue (R240) -/

/-- An fp32 or i32 key as an integer that orders as `Before` does: none for a NaN. -/
def keyRank (int : Bool) (k : BitVec 32) : Option Int :=
  if int then some k.toInt
  else
    let m : Nat := k.toNat % 2 ^ 31
    if 0x7F800000 < m then none else some (if k.getLsbD 31 then -(m : Int) else (m : Int))

/-- Whether candidate `y`, already listed, stays ahead of the new candidate `x` (R240). -/
def staysAhead (int : Bool) (y x : Cand) : Bool :=
  match keyRank int y.key, keyRank int x.key with
  | some a, some b => b < a || (a == b && decide (y.idx.toNat ≤ x.idx.toNat))
  | some _, none => true
  | none, some _ => false
  | none, none => decide (y.idx.toNat ≤ x.idx.toNat)

/-- Put a candidate in its rank. -/
def insertCand (int : Bool) (x : Cand) : List Cand → List Cand
  | [] => [x]
  | y :: t => if staysAhead int y x then y :: insertCand int x t else x :: y :: t

/-- Bias element `idx` of a slot's live vector; 0 at or above its columns (R240). -/
def biasAt (sl : Slot) (idx : Nat) : Nat :=
  if idx < geomCols sl.geom then leNat ((List.range 4).map fun i => Sparse.get 0 (4 * idx + i) sl.data) else 0

/-- The key of value `v` and bias `b` (R240); an overflow follows `gm`.sat (R103). -/
def feedKey (int sat : Bool) (v b : Nat) : BitVec 32 :=
  if int then
    let t := signedOf 32 v + signedOf 32 b
    BitVec.ofInt 32 (if t < -(2 ^ 31 : Nat) then -(2 ^ 31 : Nat) else if ((2 ^ 31 : Nat) - 1 : Int) < t then (2 ^ 31 : Nat) - 1 else t)
  else
    let r := (Fmt.val .fp32 false v).add .rne (Fmt.val .fp32 false b)
    BitVec.ofNat 32 (roundVal .fp32 { rneMode with sat := sat } .rne r.1).1

/-- Feed(r, j, v) of R240 under `gm`.sat. -/
def Epilogue.feed (e : Epilogue) (sat : Bool) (bias : Slot) (r j v : Nat) : Epilogue :=
  let idx := (e.colbase.toNat + j) % 2 ^ 32
  let b := if e.biasen then biasAt bias idx else 0
  let c : Cand := { key := feedKey e.int sat v b, value := BitVec.ofNat 32 v, idx := BitVec.ofNat 32 idx }
  { e with lists := e.lists.set r ((insertCand e.int c (e.lists.getD r [])).take e.k) }

/-- Whether the bias of column `j` lies in a marked range of its slot (R316). -/
def Epilogue.biasMarked (e : Epilogue) (bias : Slot) (j : Nat) : Bool :=
  let idx := (e.colbase.toNat + j) % 2 ^ 32
  e.biasen && decide (idx < geomCols bias.geom) && bias.marked (geomFmt bias.geom) idx

/-- The values and indices that `tkget` writes (R241). -/
def Epilogue.ranks (e : Epilogue) : List (Nat × Nat) :=
  (List.range (e.rows * e.k)).map fun i =>
    match (e.lists.getD (i / e.k) [])[i % e.k]? with
    | some c => (c.value.toNat, c.idx.toNat)
    | none => (if e.int then 0x80000000 else 0x7FC00000, 0xFFFFFFFF)

end Sys2Proof.Machine
end

