-- ==== Sys2Proof/Machine/VecMem.lean ====
section
/-! DEFINITION. Vector loads, stores and atomics (R165-R171, R218, R219, R268) as members of a convoy. -/

namespace Sys2Proof.Machine

/-- `vld cD, [sA]` (R165, R168). -/
def memberVld (d : CReg) (a : SReg) (g : Gm) : Member :=
  { dests := [(d, g.fmtA.bits)], loads := 1, body := .load .unit a .plain }
/-- `vlds cD, [sA], sB` (R165, R168). -/
def memberVlds (d : CReg) (a b : SReg) (g : Gm) : Member :=
  { dests := [(d, g.fmtA.bits)], loads := 1, fits := decide (8 ≤ g.fmtA.bits)
    body := .load (.stride b) a .plain }
/-- `vldx cD, [sA], cB` (R165, R168). -/
def memberVldx (d : CReg) (a : SReg) (b : CReg) (g : Gm) : Member :=
  { bound := [⟨b, g.fmtB⟩], dests := [(d, g.fmtA.bits)], loads := 1
    fits := decide (8 ≤ g.fmtA.bits) && g.fmtB.isOffset, body := .load (.index 0) a .plain }
/-- `vldff cD, [sA]` (R169). -/
def memberVldff (d : CReg) (a : SReg) (g : Gm) : Member :=
  { dests := [(d, g.fmtA.bits)], loads := 1, body := .load .unit a .first }
/-- `vldk cD, [sA], kB` (R170): it also writes `m7`. -/
def memberVldk (d : CReg) (a : SReg) (b : KReg) (g : Gm) : Member :=
  { dests := [(d, g.fmtA.bits)], mwrite := some 7, loads := 1, body := .load .unit a (.chunk b) }
/-- `vldt cD, [sA], sB` (R268). -/
def memberVldt (d : CReg) (a b : SReg) (g : Gm) : Member :=
  { dests := [(d, g.fmtA.bits)], loads := 1, body := .load .unit a (.tagged b) }

/-- `vst cD, [sA]` (R165, R168). -/
def memberVst (d : CReg) (a : SReg) (g : Gm) : Member :=
  { bound := [⟨d, g.fmtA⟩], stores := 1, body := .store .unit a false }
/-- `vsts cD, [sA], sB` (R165, R168). -/
def memberVsts (d : CReg) (a b : SReg) (g : Gm) : Member :=
  { bound := [⟨d, g.fmtA⟩], stores := 1, fits := decide (8 ≤ g.fmtA.bits), body := .store (.stride b) a false }
/-- `vstx cD, [sA], cB` (R165, R168). -/
def memberVstx (d : CReg) (a : SReg) (b : CReg) (g : Gm) : Member :=
  { bound := [⟨d, g.fmtA⟩, ⟨b, g.fmtB⟩], stores := 1
    fits := decide (8 ≤ g.fmtA.bits) && g.fmtB.isOffset, body := .store (.index 1) a false }
/-- `vstcm cD, [sA]` (R268). -/
def memberVstcm (d : CReg) (a : SReg) (g : Gm) : Member :=
  { bound := [⟨d, g.fmtA⟩], stores := 1, body := .store .unit a true }

/-- Formats of a `vamo` (R218): i32, n32, i64, n64. -/
def Fmt.isAtomic (f : Fmt) : Bool := f.isInt && decide (32 ≤ f.bits)

/-- `vamo cD, [sA], cB` (R218, R219). -/
def memberVamo (d : CReg) (a : SReg) (b : CReg) (p : AmoOp) (o : VamoOrder) (sc : VamoScope) (g : Gm) : Member :=
  { bound := [⟨d, g.fmtA⟩, ⟨b, g.fmtB⟩] ++ (if p = .cas then [⟨d + 1, g.fmtA⟩] else [])
    dests := [(d, g.fmtA.bits)], loads := 1, stores := 1
    fits := g.fmtA.isAtomic && g.fmtB.isOffset, body := .vamo p o sc a }

end Sys2Proof.Machine
end

