-- ==== Sys2Proof/WellFormed.lean ====
section
/-! DEFINITION. Which terms of Instr stand for an instruction word or for a step that some agent can
be named in. Fields whose type already bounds them need no check here. -/

namespace Sys2Proof

/-- Queue numbers (R16), partitions (R274), strands (R61), complexes (R7). -/
def queueOk (q : Nat) : Bool := q < 64
/-- Partition numbers 0-15 (R274). -/
def partOk (p : Nat) : Bool := p < 16
/-- Strand identifiers: bits 10:0 of `strandid` (R61). -/
def strandOk (sid : Nat) : Bool := sid < 2048
/-- Complex numbers 0-127 (R7). -/
def complexOk (x : Nat) : Bool := x < 128

/-- An instruction is well formed when its operands fit its encoding (R56, R83, R214, R218) or,
for a step without an encoding, when the agent it names can exist. -/
def Instr.wf : Instr → Bool
  | .strip _ a => a != 0
  | .amo d _ p _ _ _ => p != .cas || d.toNat % 2 == 0
  | .vamo d _ _ p _ _ => p != .cas || d.toNat % 2 == 0
  | .doorbell p q | .descriptorPoll p q | .heldCompletionWrite p q => partOk p && queueOk q
  | .strandPlace p | .gangStart p | .recordComplete p | .tagGrant p => partOk p
  | .copyNodeComplete p n | .graphCopyFault p n => partOk p && n < 65535
  | .streamRefill sid _ | .allocGrant sid | .allocTimeout sid | .barrierDepart sid
  | .waitkWake sid | .wfiWake sid | .convoyDrained sid | .priorityAge sid => strandOk sid
  | .preemptionTaken sid _ => strandOk sid
  | .bufferReclaim x => complexOk x
  | .slotGrant x _ => complexOk x
  | .tagDrainComplete p t => partOk p && 0 < t && t < 65536
  | .quadrantReady q => 0 < q && q < 4
  | .linkCrcError l _ _ => l < 16
  | .pageMigrate _ dev => dev ≤ 64
  | .hostMemoryAccess pa n w => pa + n ≤ 2 ^ 39 && (w.all fun bs => bs.length == n)
  | .peerMemoryAccess dev addr op =>
      dev < 64 && match op with
        | .read n => addr + n ≤ 2 ^ 39
        | .write bs => addr + bs.length ≤ 2 ^ 39
        | .amo _ wide _ _ => addr + (if wide then 8 else 4) ≤ 2 ^ 39 && addr % (if wide then 8 else 4) == 0
  | _ => true

/-- Whether an instruction has an encoding: every row of the table that gives a word (R55-R68). -/
def Instr.encoded : Instr → Bool
  | .doorbell .. | .descriptorPoll .. | .strandPlace .. | .gangStart .. | .recordComplete ..
  | .heldCompletionWrite .. | .copyNodeComplete .. | .graphCopyFault .. | .chunkComplete ..
  | .chunkFail .. | .streamRefill .. | .bufferReclaim .. | .allocGrant .. | .allocTimeout ..
  | .tagGrant .. | .tagDrainComplete .. | .slotGrant .. | .barrierDepart .. | .waitkWake ..
  | .wfiWake .. | .convoyDrained .. | .preemptionTaken .. | .priorityAge .. | .clockStepDown ..
  | .clockStepUp | .pageMigrate .. | .migrationWindowEnd | .linkCrcError .. | .correctedError ..
  | .lastingFaultRetire .. | .fatalError .. | .dawn | .quadrantReady .. | .readEventLog ..
  | .readDuskRecord .. | .readSensors .. | .writeFirmwareImage | .commitFirmwareImage
  | .loadKeySlot | .eraseKeySlot | .mailboxComplete .. | .lanesplitWrite .. | .poolDescriptorWrite ..
  | .ptrootWrite .. | .pselWrite .. | .partitionCreate .. | .pbootWrite .. | .poolReset ..
  | .preqWrite .. | .gnodeWrite .. | .grpentWrite .. | .qpwrWrite .. | .tagcapWrite ..
  | .cellStoreWrite .. | .fragcntWrite .. | .vlWrite .. | .vlmaxWrite .. | .sheadWrite ..
  | .gmWrite .. | .unassignedOpcode .. | .reservedFieldNotZero .. | .fetchFault
  | .hostMemoryAccess .. | .peerMemoryAccess .. => false
  | _ => true

end Sys2Proof
end

