-- ==== Sys2Proof/Decode.lean ====
section
/-! DEFINITION. The decoder, total on any bytes (R55-R67), and after it the encoder. -/

namespace Sys2Proof

/-- Why bytes are no instruction. -/
inductive DecodeErr where
  /-- Major, minor, operation, size, order, scope or condition that R66 does not list: cause 0x01. -/
  | unassigned
  /-- The word names an instruction but a field that must be zero is not: cause 0x02. -/
  | reserved
  /-- Fewer than four bytes. -/
  | short
  deriving DecidableEq, Repr

/-- The word names `i`, and its required-zero fields hold zero exactly when `zero` (R67 item 1). -/
def named (zero : Bool) (i : Instr) : Except DecodeErr Instr := if zero then .ok i else .error .reserved

/-- A code that R66 does not list (R67). -/
def unlisted : Except DecodeErr Instr := .error .unassigned

/-- Scalar register field (R56). -/
def sreg (n : Nat) : SReg := BitVec.ofNat 6 n
/-- Chain register field (R56). -/
def creg (n : Nat) : CReg := BitVec.ofNat 5 n
/-- Element-mask register field (R56). -/
def mreg (n : Nat) : MReg := BitVec.ofNat 3 n
/-- Completion-mask register field (R56). -/
def kreg (n : Nat) : KReg := BitVec.ofNat 3 n
/-- Operand slot field (R56). -/
def oreg (n : Nat) : OReg := BitVec.ofNat 6 n
/-- A chain field's top bit is zero (R56). -/
def isC (n : Nat) : Bool := n < 32
/-- A mask field's upper three bits are zero (R56). -/
def isM (n : Nat) : Bool := n < 8

/-- Operation codes of atomics (R66, major 0x0F). -/
def AmoOp.ofCode : Nat → Option AmoOp
  | 0 => some .add | 1 => some .min | 2 => some .max | 3 => some .minu | 4 => some .maxu
  | 5 => some .and | 6 => some .or | 7 => some .xor | 8 => some .swap | 9 => some .cas
  | _ => none
/-- The code of an atomic operation. -/
def AmoOp.code : AmoOp → Nat
  | .add => 0 | .min => 1 | .max => 2 | .minu => 3 | .maxu => 4
  | .and => 5 | .or => 6 | .xor => 7 | .swap => 8 | .cas => 9
/-- Order codes of `amo` (R66). -/
def AmoOrder.ofCode : Nat → Option AmoOrder
  | 0 => some .rlx | 1 => some .acq | 2 => some .rel | 3 => some .ar | 4 => some .sc | _ => none
/-- The code of an `amo` order. -/
def AmoOrder.code : AmoOrder → Nat
  | .rlx => 0 | .acq => 1 | .rel => 2 | .ar => 3 | .sc => 4
/-- Scope codes (R66, R198). -/
def Scope.ofCode : Nat → Option Scope
  | 0 => some .strand | 1 => some .core | 2 => some .cplx | 3 => some .clus
  | 4 => some .quad | 5 => some .pkg | 6 => some .sys | _ => none
/-- The code of a scope (R198). -/
def Scope.code : Scope → Nat
  | .strand => 0 | .core => 1 | .cplx => 2 | .clus => 3 | .quad => 4 | .pkg => 5 | .sys => 6
/-- Order codes of `fence` (R220). -/
def FenceOrder.ofCode : Nat → FenceOrder
  | 0 => .acq | 1 => .rel | 2 => .ar | _ => .sc
/-- The code of a fence order. -/
def FenceOrder.code : FenceOrder → Nat
  | .acq => 0 | .rel => 1 | .ar => 2 | .sc => 3
/-- Order codes of `vamo` (R218). -/
def VamoOrder.ofCode : Nat → VamoOrder
  | 0 => .rlx | 1 => .acq | 2 => .rel | _ => .ar
/-- The code of a `vamo` order. -/
def VamoOrder.code : VamoOrder → Nat
  | .rlx => 0 | .acq => 1 | .rel => 2 | .ar => 3
/-- Scope codes of `vamo` (R218). -/
def VamoScope.ofCode : Nat → VamoScope
  | 0 => .cplx | 1 => .quad | 2 => .pkg | _ => .sys
/-- The code of a `vamo` scope. -/
def VamoScope.code : VamoScope → Nat
  | .cplx => 0 | .quad => 1 | .pkg => 2 | .sys => 3
/-- Size codes (R77). -/
def Size.ofCode : Nat → Size
  | 0 => .b | 1 => .h | 2 => .w | _ => .d
/-- The code of a size. -/
def Size.code : Size → Nat
  | .b => 0 | .h => 1 | .w => 2 | .d => 3
/-- Condition codes of `vcmp` (R66). -/
def Cond.ofCode : Nat → Option Cond
  | 0 => some .eq | 1 => some .ne | 2 => some .lt | 3 => some .le | 4 => some .ltu | 5 => some .leu
  | _ => none
/-- The code of a condition. -/
def Cond.code : Cond → Nat
  | .eq => 0 | .ne => 1 | .lt => 2 | .le => 3 | .ltu => 4 | .leu => 5

/-- The mode fields of an M-format word, from bits 25:20, 19:14, 13:8 and 7:0 (R58). -/
def GrpMode.ofFields (d a b mn : Nat) : GrpMode :=
  let v := d * 2 ^ 20 + a * 2 ^ 14 + b * 2 ^ 8 + mn
  { inv := bitOf v 25, guard := BitVec.ofNat 3 (bitsOf v 24 22), fa := BitVec.ofNat 5 (bitsOf v 21 17)
    fb := BitVec.ofNat 5 (bitsOf v 16 12), rnd := BitVec.ofNat 3 (bitsOf v 11 9), sat := bitOf v 8
    inf := bitOf v 7, g := BitVec.ofNat 3 (bitsOf v 6 4) }

/-- Bits 25:0 of the M-format word of a mode (R58). -/
def GrpMode.bits (m : GrpMode) : Nat :=
  m.inv.toNat * 2 ^ 25 + m.guard.toNat * 2 ^ 22 + m.fa.toNat * 2 ^ 17 + m.fb.toNat * 2 ^ 12
    + m.rnd.toNat * 2 ^ 9 + m.sat.toNat * 2 ^ 8 + m.inf.toNat * 2 ^ 7 + m.g.toNat * 2 ^ 4

/-- Major 0x01 (R66, R88-R93). -/
def decodeSys (d a b mn : Nat) : Except DecodeErr Instr :=
  match mn with
  | 0 => named (d == 0 && a == 0 && b == 0) .nop
  | 1 => named (d == 0) (.svc (BitVec.ofNat 12 (a * 64 + b)))
  | 2 => named (d == 0 && a == 0 && b == 0) .tret
  | 3 => named true (.sysr (sreg d) (BitVec.ofNat 12 (a * 64 + b)))
  | 4 => named true (.sysw (sreg d) (BitVec.ofNat 12 (a * 64 + b)))
  | 5 => named (d == 0 && a == 0 && b == 0) .endStrand
  | 6 => named (d == 0 && a == 0 && b == 0) .wfi
  | _ => unlisted

/-- Major 0x02 (R66, R71). -/
def decodeAlu (d a b mn : Nat) : Except DecodeErr Instr :=
  match mn with
  | 0x0 => named true (.add (sreg d) (sreg a) (sreg b))
  | 0x1 => named true (.sub (sreg d) (sreg a) (sreg b))
  | 0x2 => named true (.mul (sreg d) (sreg a) (sreg b))
  | 0x3 => named true (.mulh (sreg d) (sreg a) (sreg b))
  | 0x4 => named true (.mulhu (sreg d) (sreg a) (sreg b))
  | 0x5 => named true (.div (sreg d) (sreg a) (sreg b))
  | 0x6 => named true (.divu (sreg d) (sreg a) (sreg b))
  | 0x7 => named true (.rem (sreg d) (sreg a) (sreg b))
  | 0x8 => named true (.remu (sreg d) (sreg a) (sreg b))
  | 0x10 => named true (.and (sreg d) (sreg a) (sreg b))
  | 0x11 => named true (.or (sreg d) (sreg a) (sreg b))
  | 0x12 => named true (.xor (sreg d) (sreg a) (sreg b))
  | 0x13 => named true (.shl (sreg d) (sreg a) (sreg b))
  | 0x14 => named true (.shr (sreg d) (sreg a) (sreg b))
  | 0x15 => named true (.sra (sreg d) (sreg a) (sreg b))
  | 0x16 => named true (.rotl (sreg d) (sreg a) (sreg b))
  | 0x18 => named true (.min (sreg d) (sreg a) (sreg b))
  | 0x19 => named true (.max (sreg d) (sreg a) (sreg b))
  | 0x1a => named true (.minu (sreg d) (sreg a) (sreg b))
  | 0x1b => named true (.maxu (sreg d) (sreg a) (sreg b))
  | 0x1c => named true (.slt (sreg d) (sreg a) (sreg b))
  | 0x1d => named true (.sltu (sreg d) (sreg a) (sreg b))
  | 0x20 => named (b == 0) (.clz (sreg d) (sreg a))
  | 0x21 => named (b == 0) (.ctz (sreg d) (sreg a))
  | 0x22 => named (b == 0) (.popc (sreg d) (sreg a))
  | _ => unlisted

/-- The 14-bit immediate of formats I and B (R55). -/
def imm14 (b mn : Nat) : Nat := b * 256 + mn
/-- The 20-bit offset of format L (R55). -/
def off20 (a b mn : Nat) : Nat := a * 2 ^ 14 + b * 256 + mn
/-- The 26-bit offset of format J (R55). -/
def off26 (d a b mn : Nat) : Nat := d * 2 ^ 20 + a * 2 ^ 14 + b * 256 + mn

/-- Major 0x07 (R66, R74). -/
def decodeShiftImm (d a b mn : Nat) : Except DecodeErr Instr :=
  let imm := imm14 b mn
  match imm / 4096 with
  | 0 => named (imm / 64 % 64 == 0) (.shli (sreg d) (sreg a) (BitVec.ofNat 6 (imm % 64)))
  | 1 => named (imm / 64 % 64 == 0) (.shri (sreg d) (sreg a) (BitVec.ofNat 6 (imm % 64)))
  | 2 => named (imm / 64 % 64 == 0) (.srai (sreg d) (sreg a) (BitVec.ofNat 6 (imm % 64)))
  | _ => unlisted

/-- Major 0x0F (R66, R214). -/
def decodeAmo (d a b mn : Nat) : Except DecodeErr Instr :=
  let imm := imm14 b mn
  match AmoOp.ofCode (imm / 1024), AmoOrder.ofCode (imm / 128 % 8), Scope.ofCode (imm / 16 % 8) with
  | some p, some o, some s =>
      named (imm % 8 == 0 && (p != .cas || d % 2 == 0)) (.amo (sreg d) (sreg a) p o s (imm / 8 % 2 == 1))
  | _, _, _ => unlisted

/-- Major 0x1A (R66, R85). -/
def decodeSetvl (d a b mn : Nat) : Except DecodeErr Instr :=
  let imm := imm14 b mn
  if imm / 8192 == 0 then named (imm % 8192 == 0) (.setvl (sreg d) (sreg a))
  else named true (.setvlx (sreg d) (sreg a) (BitVec.ofNat 13 (imm % 8192)))

/-- Major 0x1D (R66, R76). -/
def decodeBitField (d a b mn : Nat) : Except DecodeErr Instr :=
  let imm := imm14 b mn
  match imm / 4096 with
  | 0 => named true (.bext (sreg d) (sreg a) (BitVec.ofNat 6 (imm / 64 % 64)) (BitVec.ofNat 6 (imm % 64)))
  | 1 => named true (.bins (sreg d) (sreg a) (BitVec.ofNat 6 (imm / 64 % 64)) (BitVec.ofNat 6 (imm % 64)))
  | 2 => named (imm % 64 == 0) (.fsh (sreg d) (sreg a) (BitVec.ofNat 6 (imm / 64 % 64)))
  | _ => unlisted

/-- Major 0x20 (R66, R140). Minor bit 7 is mrg. -/
def decodeValu (d a b mn : Nat) : Except DecodeErr Instr :=
  match mn % 128 with
  | 0x0 => named (isC d && isC a && isC b) (.vadd (creg d) (creg a) (creg b) (mn / 128 == 1))
  | 0x1 => named (isC d && isC a && isC b) (.vsub (creg d) (creg a) (creg b) (mn / 128 == 1))
  | 0x2 => named (isC d && isC a && isC b) (.vmul (creg d) (creg a) (creg b) (mn / 128 == 1))
  | 0x3 => named (isC d && isC a && isC b) (.vfma (creg d) (creg a) (creg b) (mn / 128 == 1))
  | 0x4 => named (isC d && isC a && isC b) (.vfms (creg d) (creg a) (creg b) (mn / 128 == 1))
  | 0x5 => named (isC d && isC a && isC b) (.vdiv (creg d) (creg a) (creg b) (mn / 128 == 1))
  | 0x6 => named (isC d && isC a && isC b) (.vmin (creg d) (creg a) (creg b) (mn / 128 == 1))
  | 0x7 => named (isC d && isC a && isC b) (.vmax (creg d) (creg a) (creg b) (mn / 128 == 1))
  | 0x8 => named (isC d && isC a && isC b) (.vand (creg d) (creg a) (creg b) (mn / 128 == 1))
  | 0x9 => named (isC d && isC a && isC b) (.vor (creg d) (creg a) (creg b) (mn / 128 == 1))
  | 0xa => named (isC d && isC a && isC b) (.vxor (creg d) (creg a) (creg b) (mn / 128 == 1))
  | 0xb => named (isC d && isC a && isC b) (.vshl (creg d) (creg a) (creg b) (mn / 128 == 1))
  | 0xc => named (isC d && isC a && isC b) (.vshr (creg d) (creg a) (creg b) (mn / 128 == 1))
  | 0xd => named (isC d && isC a && isC b) (.vsra (creg d) (creg a) (creg b) (mn / 128 == 1))
  | 0xe => named (isC d && isC a && isC b) (.vfsh (creg d) (creg a) (creg b) (mn / 128 == 1))
  | 0xf => named (isC d && isC a && isC b) (.vbext (creg d) (creg a) (creg b) (mn / 128 == 1))
  | 0x10 => named (isC d && isC a && b == 0) (.vabs (creg d) (creg a) (mn / 128 == 1))
  | 0x11 => named (isC d && isC a && b == 0) (.vneg (creg d) (creg a) (mn / 128 == 1))
  | 0x12 => named (isC d && isC a && b == 0) (.vpopc (creg d) (creg a) (mn / 128 == 1))
  | 0x13 => named (isC d && isC a && b == 0) (.vclz (creg d) (creg a) (mn / 128 == 1))
  | c => if c / 8 == 3 then named (isC d && isC a && isC b) (.vsel (creg d) (creg a) (creg b) (mreg (c % 8)) (mn / 128 == 1))
      else unlisted

/-- Major 0x21 (R66, R140). -/
def decodeValuScalar (d a b mn : Nat) : Except DecodeErr Instr :=
  match mn % 128 with
  | 0x0 => named (isC d && isC a) (.vaddScalar (creg d) (creg a) (sreg b) (mn / 128 == 1))
  | 0x1 => named (isC d && isC a) (.vsubScalar (creg d) (creg a) (sreg b) (mn / 128 == 1))
  | 0x2 => named (isC d && isC a) (.vmulScalar (creg d) (creg a) (sreg b) (mn / 128 == 1))
  | 0x3 => named (isC d && isC a) (.vfmaScalar (creg d) (creg a) (sreg b) (mn / 128 == 1))
  | 0x4 => named (isC d && isC a) (.vfmsScalar (creg d) (creg a) (sreg b) (mn / 128 == 1))
  | 0x5 => named (isC d && isC a) (.vdivScalar (creg d) (creg a) (sreg b) (mn / 128 == 1))
  | 0x6 => named (isC d && isC a) (.vminScalar (creg d) (creg a) (sreg b) (mn / 128 == 1))
  | 0x7 => named (isC d && isC a) (.vmaxScalar (creg d) (creg a) (sreg b) (mn / 128 == 1))
  | 0x8 => named (isC d && isC a) (.vandScalar (creg d) (creg a) (sreg b) (mn / 128 == 1))
  | 0x9 => named (isC d && isC a) (.vorScalar (creg d) (creg a) (sreg b) (mn / 128 == 1))
  | 0xa => named (isC d && isC a) (.vxorScalar (creg d) (creg a) (sreg b) (mn / 128 == 1))
  | 0xb => named (isC d && isC a) (.vshlScalar (creg d) (creg a) (sreg b) (mn / 128 == 1))
  | 0xc => named (isC d && isC a) (.vshrScalar (creg d) (creg a) (sreg b) (mn / 128 == 1))
  | 0xd => named (isC d && isC a) (.vsraScalar (creg d) (creg a) (sreg b) (mn / 128 == 1))
  | 0xe => named (isC d && isC a) (.vfshScalar (creg d) (creg a) (sreg b) (mn / 128 == 1))
  | 0xf => named (isC d && isC a) (.vbextScalar (creg d) (creg a) (sreg b) (mn / 128 == 1))
  | c => if c / 8 == 3 then named (isC d && isC a) (.vselScalar (creg d) (creg a) (sreg b) (mreg (c % 8)) (mn / 128 == 1))
      else unlisted

/-- Major 0x22 (R66, R67, R143): minor bits 7:4 are required zero, not part of the code. -/
def decodeVcmp (d a b mn : Nat) : Except DecodeErr Instr :=
  match Cond.ofCode (mn % 8) with
  | some c =>
      if mn / 8 % 2 == 1 then named (mn / 16 == 0 && isM d && isC a) (.vcmpScalar (mreg d) (creg a) (sreg b) c)
      else named (mn / 16 == 0 && isM d && isC a && isC b) (.vcmp (mreg d) (creg a) (creg b) c)
  | none => unlisted

/-- Major 0x23 (R66, R144). -/
def decodeVred (d a b mn : Nat) : Except DecodeErr Instr :=
  match mn with
  | 0 => named (isC a) (.vredsum (sreg d) (creg a) (sreg b))
  | 1 => named (isC a) (.vredmax (sreg d) (creg a) (sreg b))
  | 2 => named (isC a) (.vredmin (sreg d) (creg a) (sreg b))
  | _ => unlisted

/-- Major 0x24 (R66, R112, R142). -/
def decodeVcvt (d a b mn : Nat) : Except DecodeErr Instr :=
  match mn % 128 with
  | 0 => named (isC d && isC a && b == 0) (.vcvt (creg d) (creg a) (mn / 128 == 1))
  | 1 => named (isC d && isC a && b == 0) (.vcvtSat (creg d) (creg a) (mn / 128 == 1))
  | 2 => named (isC d && isC a && b == 0) (.vexp2 (creg d) (creg a) (mn / 128 == 1))
  | 3 => named (isC d && isC a && b == 0) (.vrcp (creg d) (creg a) (mn / 128 == 1))
  | 4 => named (isC d && isC a && b == 0) (.vsqrt (creg d) (creg a) (mn / 128 == 1))
  | 8 => named (isC d && a == 0 && b == 0) (.vidx (creg d) (mn / 128 == 1))
  | 9 => named (isC d && isC a && b == 0) (.vmv (creg d) (creg a) (mn / 128 == 1))
  | 10 => named (isC d && b == 0) (.vmvScalar (creg d) (sreg a) (mn / 128 == 1))
  | _ => unlisted

/-- Major 0x25 (R66, R67, R145): minor bits 7:2 are required zero. -/
def decodeVperm (d a b mn : Nat) : Except DecodeErr Instr :=
  match mn % 4 with
  | 0 => named (mn / 4 == 0 && isC d && isC a && isC b) (.vperm (creg d) (creg a) (creg b))
  | 1 => named (mn / 4 == 0 && isC d && isC a && isM b) (.vcomp (creg d) (creg a) (mreg b))
  | 2 => named (mn / 4 == 0 && isC d && isC a && isM b) (.vexpd (creg d) (creg a) (mreg b))
  | _ => named (mn / 4 == 0 && isC d && isC a) (.vslide (creg d) (creg a) (sreg b))

/-- Major 0x26 (R66, R146). -/
def decodeMask (d a b mn : Nat) : Except DecodeErr Instr :=
  match mn with
  | 0 => named (isM d && isM a && isM b) (.mand (mreg d) (mreg a) (mreg b))
  | 1 => named (isM d && isM a && isM b) (.mor (mreg d) (mreg a) (mreg b))
  | 2 => named (isM d && isM a && isM b) (.mxor (mreg d) (mreg a) (mreg b))
  | 3 => named (isM d && isM a && b == 0) (.mnot (mreg d) (mreg a))
  | 4 => named (isM a && b == 0) (.mpopc (sreg d) (mreg a))
  | 5 => named (isM a && b == 0) (.mfirst (sreg d) (mreg a))
  | 6 => named (isM d) (.mset (mreg d) (sreg a) (sreg b))
  | 7 => named (isM a) (.mget (sreg d) (mreg a) (sreg b))
  | _ => unlisted

/-- Major 0x29 (R66, R135). -/
def decodeChain (d a b mn : Nat) : Except DecodeErr Instr :=
  match mn with
  | 0x00 => named (isC d && a == 0 && b == 0) (.cnew (creg d))
  | 0x01 => named (isC d && a == 0 && b == 0) (.cfree (creg d))
  | 0x02 => named (isC d && isC a && b == 0) (.cshare (creg d) (creg a))
  | 0x03 => named (isC d && isC a && b == 0) (.cprep (creg d) (creg a))
  | 0x04 => named (isC d && isC a && b == 0) (.capp (creg d) (creg a))
  | 0x05 => named (isC d && b == 0) (.cprepElement (creg d) (sreg a))
  | 0x06 => named (isC d && b == 0) (.cappElement (creg d) (sreg a))
  | 0x07 => named (isC d && b == 0) (.ctrimH (creg d) (sreg a))
  | 0x08 => named (isC d && b == 0) (.ctrimT (creg d) (sreg a))
  | 0x09 => named (isC d && isC a) (.csplit (creg d) (creg a) (sreg b))
  | 0x0A => named (isC d && isC a && isC b) (.csplice (creg d) (creg a) (creg b))
  | 0x0B => named (isC a && b == 0) (.clen (sreg d) (creg a))
  | 0x0C => named (isC a) (.cseg (sreg d) (creg a) (sreg b))
  | 0x0D => named (isC d && isC a && b == 0) (.cflat (creg d) (creg a))
  | 0x0E => named (isC a) (.cget (sreg d) (creg a) (sreg b))
  | 0x0F => named (isC d) (.cput (creg d) (sreg a) (sreg b))
  | 0x10 => named (d == 0 && isC a) (.cspill (creg a) (sreg b))
  | 0x11 => named (isC d && b == 0) (.cfill (creg d) (sreg a))
  | 0x12 => named (isC d && b == 0) (.chld (creg d) (sreg a))
  | 0x13 => named (d == 0 && isC a) (.chst (creg a) (sreg b))
  | _ => unlisted

/-- Major 0x2A (R66, R135). -/
def decodeChainImm (d a b mn : Nat) : Except DecodeErr Instr :=
  let imm := imm14 b mn
  match imm / 2048 with
  | 0 => named (isC d && a == 0) (.ctrimHImm (creg d) (BitVec.ofNat 11 (imm % 2048)))
  | 1 => named (isC d && a == 0) (.ctrimTImm (creg d) (BitVec.ofNat 11 (imm % 2048)))
  | 2 => named (isC d && isC a) (.csplitImm (creg d) (creg a) (BitVec.ofNat 11 (imm % 2048)))
  | 3 => named (isC a) (.cgetImm (sreg d) (creg a) (BitVec.ofNat 11 (imm % 2048)))
  | 4 => named (isC d) (.cputImm (creg d) (sreg a) (BitVec.ofNat 11 (imm % 2048)))
  | _ => unlisted

/-- Major 0x2B (R171). -/
def decodeVld (d a b mn : Nat) : Except DecodeErr Instr :=
  match mn with
  | 0 => named (isC d && b == 0) (.vld (creg d) (sreg a))
  | 1 => named (isC d) (.vlds (creg d) (sreg a) (sreg b))
  | 2 => named (isC d && isC b) (.vldx (creg d) (sreg a) (creg b))
  | 3 => named (isC d && b == 0) (.vldff (creg d) (sreg a))
  | 4 => named (isC d && isM b) (.vldk (creg d) (sreg a) (kreg b))
  | _ => unlisted

/-- Major 0x2C (R171). -/
def decodeVst (d a b mn : Nat) : Except DecodeErr Instr :=
  match mn with
  | 0 => named (isC d && b == 0) (.vst (creg d) (sreg a))
  | 1 => named (isC d) (.vsts (creg d) (sreg a) (sreg b))
  | 2 => named (isC d && isC b) (.vstx (creg d) (sreg a) (creg b))
  | _ => unlisted

/-- Major 0x2D (R189). -/
def decodeStrm (d a b mn : Nat) : Except DecodeErr Instr :=
  match mn with
  | 0 => named (isC d && b == 0) (.strm (creg d) (sreg a))
  | 1 => named (isC d && b == 0) (.strmx (creg d) (sreg a))
  | 2 => named (isC d && a == 0 && b == 0) (.strmoff (creg d))
  | _ => unlisted

/-- Major 0x2E (R189). -/
def decodeCopy (d a b mn : Nat) : Except DecodeErr Instr :=
  match mn with
  | 0 => named (d == 0 && b == 0) (.cpy (sreg a))
  | 1 => named (d == 0 && b == 0) (.cpyx (sreg a))
  | 2 => named (d == 0 && b == 0) (.cpyr (sreg a))
  | _ => unlisted

/-- Major 0x2F (R189). -/
def decodeKmask (d a b mn : Nat) : Except DecodeErr Instr :=
  match mn with
  | 0 => named (isM d && b == 0) (.waitk (kreg d) (sreg a))
  | 1 => named (isM a) (.ktest (sreg d) (kreg a) (sreg b))
  | 2 => named (isM d && a == 0 && b == 0) (.kclr (kreg d))
  | _ => unlisted

/-- Major 0x30, format S (R55, R66). -/
def decodeSync (d a b mn : Nat) : Except DecodeErr Instr :=
  match mn / 32 with
  | 0 => match Scope.ofCode (mn % 8) with
      | some s => named (d == 0 && a == 0 && b == 0) (.fence (FenceOrder.ofCode (mn / 8 % 4)) s)
      | none => unlisted
  | 1 => named (d == 0 && a == 0 && b == 0 && mn % 32 == 0) .ifence
  | 2 => named (d == 0 && a / 4 == 0 && mn % 32 == 0) (.gbar (BitVec.ofNat 8 (a % 4 * 64 + b)))
  | 3 => named (d == 0 && a / 4 == 0 && mn % 32 == 0) (.garr (BitVec.ofNat 8 (a % 4 * 64 + b)))
  | 4 => named (d == 0 && a / 4 == 0 && mn % 32 == 0) (.gwt (BitVec.ofNat 8 (a % 4 * 64 + b)))
  | 5 => named (d == 0 && a == 0 && mn % 32 == 0) (.qpost (sreg b))
  | _ => unlisted

/-- Major 0x31 (R218). -/
def decodeVamo (d a b mn : Nat) : Except DecodeErr Instr :=
  match AmoOp.ofCode (mn / 16) with
  | some p => named (isC d && isC b && (p != .cas || d % 2 == 0))
      (.vamo (creg d) (sreg a) (creg b) p (VamoOrder.ofCode (mn / 4 % 4)) (VamoScope.ofCode (mn % 4)))
  | none => unlisted

/-- Major 0x32 (R251). -/
def decodeMat (d a b mn : Nat) : Except DecodeErr Instr :=
  match mn with
  | 0 => named (b == 0) (.oclaim (oreg d) (sreg a))
  | 1 => named (a == 0 && b == 0) (.orel (oreg d))
  | 2 => named (isC a && b == 0) (.oput (oreg d) (creg a))
  | 3 => named (isC d && b == 0) (.oget (creg d) (oreg a))
  | 4 => named (isC d) (.mma (creg d) (oreg a) (oreg b))
  | 5 => named (isC d) (.mmaz (creg d) (oreg a) (oreg b))
  | 6 => named true (.bswalk (oreg d) (sreg a) (sreg b))
  | 7 => named (isC a) (.biasupd (oreg d) (creg a) (sreg b))
  | _ => unlisted

/-- Major 0x33 (R251). -/
def decodeTopk (d a b mn : Nat) : Except DecodeErr Instr :=
  match mn with
  | 0 => named (d == 0 && b == 0) (.tkon (sreg a))
  | 1 => named (d == 0 && a == 0 && b == 0) .tkoff
  | 2 => named (isC d && isC a && b == 0) (.tkget (creg d) (creg a))
  | 3 => named (d == 0 && b == 0) (.tksave (sreg a))
  | 4 => named (d == 0 && b == 0) (.tkload (sreg a))
  | _ => unlisted

/-- Major 0x34 (R261). -/
def decodeCtx (d a b mn : Nat) : Except DecodeErr Instr :=
  match mn with
  | 0x00 => named (a == 0 && b == 0) (.tnew (sreg d))
  | 0x01 => named (a == 0 && b == 0) (.tnewq (sreg d))
  | 0x02 => named (d == 0 && b == 0) (.tset (sreg a))
  | 0x03 => named (d == 0 && b == 0) (.tsets (sreg a))
  | 0x04 => named (a == 0 && b == 0) (.tget (sreg d))
  | 0x05 => named (d == 0 && b == 0) (.tretTag (sreg a))
  | 0x06 => named (d == 0) (.citw (sreg a) (sreg b))
  | 0x07 => named (b == 0) (.citr (sreg d) (sreg a))
  | 0x08 => named (d == 0 && isC b) (.citp (sreg a) (creg b))
  | 0x14 => named (isC d && b == 0) (.vstcm (creg d) (sreg a))
  | c => if c / 4 == 4 then named (b == 0) (.stcm (sreg d) (sreg a) (Size.ofCode (c % 4))) else unlisted

/-- Major 0x35 (R261). -/
def decodeCtxld (d a b mn : Nat) : Except DecodeErr Instr :=
  match mn with
  | 0x08 => named (isC d) (.vldt (creg d) (sreg a) (sreg b))
  | c => if c / 4 == 0 then named true (.ldt (sreg d) (sreg a) (sreg b) (Size.ofCode (c % 4))) else unlisted

/-- The instruction a word names, from its fields 31:26, 25:20, 19:14, 13:8 and 7:0 (R55, R66, R67). -/
def decodeFields (maj d a b mn : Nat) : Except DecodeErr Instr :=
  match maj with
  | 0x01 => decodeSys d a b mn
  | 0x02 => decodeAlu d a b mn
  | 0x3 => named true (.addi (sreg d) (sreg a) (BitVec.ofNat 14 (imm14 b mn)))
  | 0x4 => named true (.andi (sreg d) (sreg a) (BitVec.ofNat 14 (imm14 b mn)))
  | 0x5 => named true (.ori (sreg d) (sreg a) (BitVec.ofNat 14 (imm14 b mn)))
  | 0x6 => named true (.xori (sreg d) (sreg a) (BitVec.ofNat 14 (imm14 b mn)))
  | 0x07 => decodeShiftImm d a b mn
  | 0x8 => named true (.slti (sreg d) (sreg a) (BitVec.ofNat 14 (imm14 b mn)))
  | 0x9 => named true (.sltiu (sreg d) (sreg a) (BitVec.ofNat 14 (imm14 b mn)))
  | 0xa => named true (.lhi (sreg d) (BitVec.ofNat 20 (off20 a b mn)))
  | 0xb => named true (.pcadd (sreg d) (BitVec.ofNat 20 (off20 a b mn)))
  | 0xc => named true (.lds (sreg d) (sreg a) (Size.ofCode (imm14 b mn / 4096)) (BitVec.ofNat 12 (imm14 b mn % 4096)))
  | 0xd => named true (.ldu (sreg d) (sreg a) (Size.ofCode (imm14 b mn / 4096)) (BitVec.ofNat 12 (imm14 b mn % 4096)))
  | 0xe => named true (.sts (sreg d) (sreg a) (Size.ofCode (imm14 b mn / 4096)) (BitVec.ofNat 12 (imm14 b mn % 4096)))
  | 0xf => decodeAmo d a b mn
  | 0x10 => named true (.beq (sreg d) (sreg a) (BitVec.ofNat 14 (imm14 b mn)))
  | 0x11 => named true (.bne (sreg d) (sreg a) (BitVec.ofNat 14 (imm14 b mn)))
  | 0x12 => named true (.blt (sreg d) (sreg a) (BitVec.ofNat 14 (imm14 b mn)))
  | 0x13 => named true (.bge (sreg d) (sreg a) (BitVec.ofNat 14 (imm14 b mn)))
  | 0x14 => named true (.bltu (sreg d) (sreg a) (BitVec.ofNat 14 (imm14 b mn)))
  | 0x15 => named true (.bgeu (sreg d) (sreg a) (BitVec.ofNat 14 (imm14 b mn)))
  | 0x16 => named true (.jal (sreg d) (BitVec.ofNat 20 (off20 a b mn)))
  | 0x17 => named true (.jalr (sreg d) (sreg a) (BitVec.ofNat 14 (imm14 b mn)))
  | 0x18 => named (b == 0 && mn == 0) (if a == 0 then .stripClose (sreg d) else .strip (sreg d) (sreg a))
  | 0x19 => named (a == 0 && b == 0 && mn == 0) (.snext (sreg d))
  | 0x1a => decodeSetvl d a b mn
  | 0x1b => named (mn % 16 == 0) (.grp (GrpMode.ofFields d a b mn))
  | 0x1c => named (mn % 16 == 0) (.grpk (GrpMode.ofFields d a b mn))
  | 0x1d => decodeBitField d a b mn
  | 0x20 => decodeValu d a b mn
  | 0x21 => decodeValuScalar d a b mn
  | 0x22 => decodeVcmp d a b mn
  | 0x23 => decodeVred d a b mn
  | 0x24 => decodeVcvt d a b mn
  | 0x25 => decodeVperm d a b mn
  | 0x26 => decodeMask d a b mn
  | 0x27 => named (isM d && a == 0) (.vbr (mreg d) (BitVec.ofNat 14 (imm14 b mn)))
  | 0x28 => named true (.vjoin (BitVec.ofNat 26 (off26 d a b mn)))
  | 0x29 => decodeChain d a b mn
  | 0x2a => decodeChainImm d a b mn
  | 0x2b => decodeVld d a b mn
  | 0x2c => decodeVst d a b mn
  | 0x2d => decodeStrm d a b mn
  | 0x2e => decodeCopy d a b mn
  | 0x2f => decodeKmask d a b mn
  | 0x30 => decodeSync d a b mn
  | 0x31 => decodeVamo d a b mn
  | 0x32 => decodeMat d a b mn
  | 0x33 => decodeTopk d a b mn
  | 0x34 => decodeCtx d a b mn
  | 0x35 => decodeCtxld d a b mn
  | _ => unlisted

/-- The instruction a word names (R55). -/
def decodeNat (w : Nat) : Except DecodeErr Instr :=
  decodeFields (w / 2 ^ 26 % 64) (w / 2 ^ 20 % 64) (w / 2 ^ 14 % 64) (w / 2 ^ 8 % 64) (w % 256)

/-- The instruction an instruction word names. -/
def decodeWord (w : IWord) : Except DecodeErr Instr := decodeNat w.toNat

/-- The instruction at the head of `bs`, a little-endian 32-bit word (R55), and the bytes after it. -/
def decode : List Byte → Except DecodeErr (Instr × List Byte)
  | b0 :: b1 :: b2 :: b3 :: rest => (decodeNat (leNat [b0, b1, b2, b3])).map fun i => (i, rest)
  | _ => .error .short

/-- What the decoder reads from an instruction whose bits are `w`: every instruction is one 32-bit
word (R55), stored little-endian. -/
def decodeTableWord (nbits w : Nat) : Option Instr :=
  match decode (leBytes 4 (w % 2 ^ nbits)) with
  | .ok (i, _) => some i
  | .error _ => none

/-- A word of format A (R55). -/
def packA (maj d a b mn : Nat) : Nat := maj * 2 ^ 26 + d * 2 ^ 20 + a * 2 ^ 14 + b * 2 ^ 8 + mn
/-- A word of formats I and B (R55). -/
def packI (maj d a imm : Nat) : Nat := maj * 2 ^ 26 + d * 2 ^ 20 + a * 2 ^ 14 + imm
/-- A word of format L (R55). -/
def packL (maj d off : Nat) : Nat := maj * 2 ^ 26 + d * 2 ^ 20 + off
/-- A word of formats J and M (R55). -/
def packJ (maj off : Nat) : Nat := maj * 2 ^ 26 + off

/-- The word of an instruction, from the encoding tables of R55-R66 and of the instruction chapters;
`none` for a step that has no encoding. -/
def encodeNat : Instr → Option Nat
  | .nop => some (packA 0x01 0 0 0 0)
  | .svc n => some (packL 0x01 0 (n.toNat * 256 + 1))
  | .tret => some (packA 0x01 0 0 0 2)
  | .sysr d r => some (packL 0x01 d.toNat (r.toNat * 256 + 3))
  | .sysw d r => some (packL 0x01 d.toNat (r.toNat * 256 + 4))
  | .endStrand => some (packA 0x01 0 0 0 5)
  | .wfi => some (packA 0x01 0 0 0 6)
  | .add d a b => some (packA 0x02 d.toNat a.toNat b.toNat 0x0)
  | .sub d a b => some (packA 0x02 d.toNat a.toNat b.toNat 0x1)
  | .mul d a b => some (packA 0x02 d.toNat a.toNat b.toNat 0x2)
  | .mulh d a b => some (packA 0x02 d.toNat a.toNat b.toNat 0x3)
  | .mulhu d a b => some (packA 0x02 d.toNat a.toNat b.toNat 0x4)
  | .div d a b => some (packA 0x02 d.toNat a.toNat b.toNat 0x5)
  | .divu d a b => some (packA 0x02 d.toNat a.toNat b.toNat 0x6)
  | .rem d a b => some (packA 0x02 d.toNat a.toNat b.toNat 0x7)
  | .remu d a b => some (packA 0x02 d.toNat a.toNat b.toNat 0x8)
  | .and d a b => some (packA 0x02 d.toNat a.toNat b.toNat 0x10)
  | .or d a b => some (packA 0x02 d.toNat a.toNat b.toNat 0x11)
  | .xor d a b => some (packA 0x02 d.toNat a.toNat b.toNat 0x12)
  | .shl d a b => some (packA 0x02 d.toNat a.toNat b.toNat 0x13)
  | .shr d a b => some (packA 0x02 d.toNat a.toNat b.toNat 0x14)
  | .sra d a b => some (packA 0x02 d.toNat a.toNat b.toNat 0x15)
  | .rotl d a b => some (packA 0x02 d.toNat a.toNat b.toNat 0x16)
  | .min d a b => some (packA 0x02 d.toNat a.toNat b.toNat 0x18)
  | .max d a b => some (packA 0x02 d.toNat a.toNat b.toNat 0x19)
  | .minu d a b => some (packA 0x02 d.toNat a.toNat b.toNat 0x1a)
  | .maxu d a b => some (packA 0x02 d.toNat a.toNat b.toNat 0x1b)
  | .slt d a b => some (packA 0x02 d.toNat a.toNat b.toNat 0x1c)
  | .sltu d a b => some (packA 0x02 d.toNat a.toNat b.toNat 0x1d)
  | .clz d a => some (packA 0x02 d.toNat a.toNat 0 0x20)
  | .ctz d a => some (packA 0x02 d.toNat a.toNat 0 0x21)
  | .popc d a => some (packA 0x02 d.toNat a.toNat 0 0x22)
  | .addi d a i => some (packI 0x3 d.toNat a.toNat i.toNat)
  | .andi d a i => some (packI 0x4 d.toNat a.toNat i.toNat)
  | .ori d a i => some (packI 0x5 d.toNat a.toNat i.toNat)
  | .xori d a i => some (packI 0x6 d.toNat a.toNat i.toNat)
  | .slti d a i => some (packI 0x8 d.toNat a.toNat i.toNat)
  | .sltiu d a i => some (packI 0x9 d.toNat a.toNat i.toNat)
  | .jalr d a i => some (packI 0x17 d.toNat a.toNat i.toNat)
  | .shli d a n => some (packI 0x07 d.toNat a.toNat (0 * 4096 + n.toNat))
  | .shri d a n => some (packI 0x07 d.toNat a.toNat (1 * 4096 + n.toNat))
  | .srai d a n => some (packI 0x07 d.toNat a.toNat (2 * 4096 + n.toNat))
  | .lhi d o => some (packL 0xa d.toNat o.toNat)
  | .pcadd d o => some (packL 0xb d.toNat o.toNat)
  | .jal d o => some (packL 0x16 d.toNat o.toNat)
  | .lds d a z o => some (packI 0xc d.toNat a.toNat (z.code * 4096 + o.toNat))
  | .ldu d a z o => some (packI 0xd d.toNat a.toNat (z.code * 4096 + o.toNat))
  | .sts d a z o => some (packI 0xe d.toNat a.toNat (z.code * 4096 + o.toNat))
  | .amo d a p o s w => some (packI 0x0f d.toNat a.toNat (p.code * 1024 + o.code * 128 + s.code * 16 + w.toNat * 8))
  | .beq a b o => some (packI 0x10 a.toNat b.toNat o.toNat)
  | .bne a b o => some (packI 0x11 a.toNat b.toNat o.toNat)
  | .blt a b o => some (packI 0x12 a.toNat b.toNat o.toNat)
  | .bge a b o => some (packI 0x13 a.toNat b.toNat o.toNat)
  | .bltu a b o => some (packI 0x14 a.toNat b.toNat o.toNat)
  | .bgeu a b o => some (packI 0x15 a.toNat b.toNat o.toNat)
  | .strip d a => some (packI 0x18 d.toNat a.toNat 0)
  | .stripClose d => some (packI 0x18 d.toNat 0 0)
  | .snext d => some (packI 0x19 d.toNat 0 0)
  | .setvl d a => some (packI 0x1a d.toNat a.toNat 0)
  | .setvlx d a o => some (packI 0x1a d.toNat a.toNat (8192 + o.toNat))
  | .grp m => some (packJ 0x1b m.bits)
  | .grpk m => some (packJ 0x1c m.bits)
  | .bext d a p l => some (packI 0x1d d.toNat a.toNat (p.toNat * 64 + l.toNat))
  | .bins d a p l => some (packI 0x1d d.toNat a.toNat (4096 + p.toNat * 64 + l.toNat))
  | .fsh d a n => some (packI 0x1d d.toNat a.toNat (8192 + n.toNat * 64))
  | .vadd d a b x => some (packA 0x20 d.toNat a.toNat b.toNat (0x0 + x.toNat * 128))
  | .vsub d a b x => some (packA 0x20 d.toNat a.toNat b.toNat (0x1 + x.toNat * 128))
  | .vmul d a b x => some (packA 0x20 d.toNat a.toNat b.toNat (0x2 + x.toNat * 128))
  | .vfma d a b x => some (packA 0x20 d.toNat a.toNat b.toNat (0x3 + x.toNat * 128))
  | .vfms d a b x => some (packA 0x20 d.toNat a.toNat b.toNat (0x4 + x.toNat * 128))
  | .vdiv d a b x => some (packA 0x20 d.toNat a.toNat b.toNat (0x5 + x.toNat * 128))
  | .vmin d a b x => some (packA 0x20 d.toNat a.toNat b.toNat (0x6 + x.toNat * 128))
  | .vmax d a b x => some (packA 0x20 d.toNat a.toNat b.toNat (0x7 + x.toNat * 128))
  | .vand d a b x => some (packA 0x20 d.toNat a.toNat b.toNat (0x8 + x.toNat * 128))
  | .vor d a b x => some (packA 0x20 d.toNat a.toNat b.toNat (0x9 + x.toNat * 128))
  | .vxor d a b x => some (packA 0x20 d.toNat a.toNat b.toNat (0xa + x.toNat * 128))
  | .vshl d a b x => some (packA 0x20 d.toNat a.toNat b.toNat (0xb + x.toNat * 128))
  | .vshr d a b x => some (packA 0x20 d.toNat a.toNat b.toNat (0xc + x.toNat * 128))
  | .vsra d a b x => some (packA 0x20 d.toNat a.toNat b.toNat (0xd + x.toNat * 128))
  | .vfsh d a b x => some (packA 0x20 d.toNat a.toNat b.toNat (0xe + x.toNat * 128))
  | .vbext d a b x => some (packA 0x20 d.toNat a.toNat b.toNat (0xf + x.toNat * 128))
  | .vabs d a x => some (packA 0x20 d.toNat a.toNat 0 (0x10 + x.toNat * 128))
  | .vneg d a x => some (packA 0x20 d.toNat a.toNat 0 (0x11 + x.toNat * 128))
  | .vpopc d a x => some (packA 0x20 d.toNat a.toNat 0 (0x12 + x.toNat * 128))
  | .vclz d a x => some (packA 0x20 d.toNat a.toNat 0 (0x13 + x.toNat * 128))
  | .vsel d a b n x => some (packA 0x20 d.toNat a.toNat b.toNat (0x18 + n.toNat + x.toNat * 128))
  | .vaddScalar d a b x => some (packA 0x21 d.toNat a.toNat b.toNat (0x0 + x.toNat * 128))
  | .vsubScalar d a b x => some (packA 0x21 d.toNat a.toNat b.toNat (0x1 + x.toNat * 128))
  | .vmulScalar d a b x => some (packA 0x21 d.toNat a.toNat b.toNat (0x2 + x.toNat * 128))
  | .vfmaScalar d a b x => some (packA 0x21 d.toNat a.toNat b.toNat (0x3 + x.toNat * 128))
  | .vfmsScalar d a b x => some (packA 0x21 d.toNat a.toNat b.toNat (0x4 + x.toNat * 128))
  | .vdivScalar d a b x => some (packA 0x21 d.toNat a.toNat b.toNat (0x5 + x.toNat * 128))
  | .vminScalar d a b x => some (packA 0x21 d.toNat a.toNat b.toNat (0x6 + x.toNat * 128))
  | .vmaxScalar d a b x => some (packA 0x21 d.toNat a.toNat b.toNat (0x7 + x.toNat * 128))
  | .vandScalar d a b x => some (packA 0x21 d.toNat a.toNat b.toNat (0x8 + x.toNat * 128))
  | .vorScalar d a b x => some (packA 0x21 d.toNat a.toNat b.toNat (0x9 + x.toNat * 128))
  | .vxorScalar d a b x => some (packA 0x21 d.toNat a.toNat b.toNat (0xa + x.toNat * 128))
  | .vshlScalar d a b x => some (packA 0x21 d.toNat a.toNat b.toNat (0xb + x.toNat * 128))
  | .vshrScalar d a b x => some (packA 0x21 d.toNat a.toNat b.toNat (0xc + x.toNat * 128))
  | .vsraScalar d a b x => some (packA 0x21 d.toNat a.toNat b.toNat (0xd + x.toNat * 128))
  | .vfshScalar d a b x => some (packA 0x21 d.toNat a.toNat b.toNat (0xe + x.toNat * 128))
  | .vbextScalar d a b x => some (packA 0x21 d.toNat a.toNat b.toNat (0xf + x.toNat * 128))
  | .vselScalar d a b n x => some (packA 0x21 d.toNat a.toNat b.toNat (0x18 + n.toNat + x.toNat * 128))
  | .vcmp d a b c => some (packA 0x22 d.toNat a.toNat b.toNat c.code)
  | .vcmpScalar d a b c => some (packA 0x22 d.toNat a.toNat b.toNat (8 + c.code))
  | .vredsum d a b => some (packA 0x23 d.toNat a.toNat b.toNat 0)
  | .vredmax d a b => some (packA 0x23 d.toNat a.toNat b.toNat 1)
  | .vredmin d a b => some (packA 0x23 d.toNat a.toNat b.toNat 2)
  | .vcvt d a x => some (packA 0x24 d.toNat a.toNat 0 (0 + x.toNat * 128))
  | .vcvtSat d a x => some (packA 0x24 d.toNat a.toNat 0 (1 + x.toNat * 128))
  | .vexp2 d a x => some (packA 0x24 d.toNat a.toNat 0 (2 + x.toNat * 128))
  | .vrcp d a x => some (packA 0x24 d.toNat a.toNat 0 (3 + x.toNat * 128))
  | .vsqrt d a x => some (packA 0x24 d.toNat a.toNat 0 (4 + x.toNat * 128))
  | .vmv d a x => some (packA 0x24 d.toNat a.toNat 0 (9 + x.toNat * 128))
  | .vmvScalar d a x => some (packA 0x24 d.toNat a.toNat 0 (10 + x.toNat * 128))
  | .vidx d x => some (packA 0x24 d.toNat 0 0 (8 + x.toNat * 128))
  | .vperm d a b => some (packA 0x25 d.toNat a.toNat b.toNat 0)
  | .vcomp d a b => some (packA 0x25 d.toNat a.toNat b.toNat 1)
  | .vexpd d a b => some (packA 0x25 d.toNat a.toNat b.toNat 2)
  | .vslide d a b => some (packA 0x25 d.toNat a.toNat b.toNat 3)
  | .mand d a b => some (packA 0x26 d.toNat a.toNat b.toNat 0)
  | .mor d a b => some (packA 0x26 d.toNat a.toNat b.toNat 1)
  | .mxor d a b => some (packA 0x26 d.toNat a.toNat b.toNat 2)
  | .mset d a b => some (packA 0x26 d.toNat a.toNat b.toNat 6)
  | .mget d a b => some (packA 0x26 d.toNat a.toNat b.toNat 7)
  | .mnot d a => some (packA 0x26 d.toNat a.toNat 0 3)
  | .mpopc d a => some (packA 0x26 d.toNat a.toNat 0 4)
  | .mfirst d a => some (packA 0x26 d.toNat a.toNat 0 5)
  | .vbr a o => some (packI 0x27 a.toNat 0 o.toNat)
  | .vjoin o => some (packJ 0x28 o.toNat)
  | .cnew d => some (packA 0x29 d.toNat 0 0 0)
  | .cfree d => some (packA 0x29 d.toNat 0 0 1)
  | .cshare d a => some (packA 0x29 d.toNat a.toNat 0 0x2)
  | .cprep d a => some (packA 0x29 d.toNat a.toNat 0 0x3)
  | .capp d a => some (packA 0x29 d.toNat a.toNat 0 0x4)
  | .cprepElement d a => some (packA 0x29 d.toNat a.toNat 0 0x5)
  | .cappElement d a => some (packA 0x29 d.toNat a.toNat 0 0x6)
  | .ctrimH d a => some (packA 0x29 d.toNat a.toNat 0 0x7)
  | .ctrimT d a => some (packA 0x29 d.toNat a.toNat 0 0x8)
  | .clen d a => some (packA 0x29 d.toNat a.toNat 0 0xb)
  | .cflat d a => some (packA 0x29 d.toNat a.toNat 0 0xd)
  | .cfill d a => some (packA 0x29 d.toNat a.toNat 0 0x11)
  | .chld d a => some (packA 0x29 d.toNat a.toNat 0 0x12)
  | .csplit d a b => some (packA 0x29 d.toNat a.toNat b.toNat 0x9)
  | .csplice d a b => some (packA 0x29 d.toNat a.toNat b.toNat 0xa)
  | .cseg d a b => some (packA 0x29 d.toNat a.toNat b.toNat 0xc)
  | .cget d a b => some (packA 0x29 d.toNat a.toNat b.toNat 0xe)
  | .cput d a b => some (packA 0x29 d.toNat a.toNat b.toNat 0xf)
  | .cspill a b => some (packA 0x29 0 a.toNat b.toNat 0x10)
  | .chst a b => some (packA 0x29 0 a.toNat b.toNat 0x13)
  | .ctrimHImm d n => some (packI 0x2a d.toNat 0 (0 * 2048 + n.toNat))
  | .ctrimTImm d n => some (packI 0x2a d.toNat 0 (1 * 2048 + n.toNat))
  | .csplitImm d a n => some (packI 0x2a d.toNat a.toNat (2 * 2048 + n.toNat))
  | .cgetImm d a n => some (packI 0x2a d.toNat a.toNat (3 * 2048 + n.toNat))
  | .cputImm d a n => some (packI 0x2a d.toNat a.toNat (4 * 2048 + n.toNat))
  | .vld d a => some (packA 0x2b d.toNat a.toNat 0 0)
  | .vlds d a b => some (packA 0x2b d.toNat a.toNat b.toNat 1)
  | .vldx d a b => some (packA 0x2b d.toNat a.toNat b.toNat 2)
  | .vldff d a => some (packA 0x2b d.toNat a.toNat 0 3)
  | .vldk d a b => some (packA 0x2b d.toNat a.toNat b.toNat 4)
  | .vst d a => some (packA 0x2c d.toNat a.toNat 0 0)
  | .vsts d a b => some (packA 0x2c d.toNat a.toNat b.toNat 1)
  | .vstx d a b => some (packA 0x2c d.toNat a.toNat b.toNat 2)
  | .strm d a => some (packA 0x2d d.toNat a.toNat 0 0)
  | .strmx d a => some (packA 0x2d d.toNat a.toNat 0 1)
  | .strmoff d => some (packA 0x2d d.toNat 0 0 2)
  | .cpy a => some (packA 0x2e 0 a.toNat 0 0)
  | .cpyx a => some (packA 0x2e 0 a.toNat 0 1)
  | .cpyr a => some (packA 0x2e 0 a.toNat 0 2)
  | .waitk d a => some (packA 0x2f d.toNat a.toNat 0 0)
  | .ktest d a b => some (packA 0x2f d.toNat a.toNat b.toNat 1)
  | .kclr d => some (packA 0x2f d.toNat 0 0 2)
  | .fence o s => some (packA 0x30 0 0 0 (o.code * 8 + s.code))
  | .ifence => some (packA 0x30 0 0 0 0x20)
  | .gbar g => some (packL 0x30 0 (g.toNat * 256 + 0x40))
  | .garr g => some (packL 0x30 0 (g.toNat * 256 + 0x60))
  | .gwt g => some (packL 0x30 0 (g.toNat * 256 + 0x80))
  | .qpost a => some (packA 0x30 0 0 a.toNat 0xa0)
  | .vamo d a b p o s => some (packA 0x31 d.toNat a.toNat b.toNat (p.code * 16 + o.code * 4 + s.code))
  | .oclaim d a => some (packA 0x32 d.toNat a.toNat 0 0)
  | .orel d => some (packA 0x32 d.toNat 0 0 1)
  | .oput d a => some (packA 0x32 d.toNat a.toNat 0 2)
  | .oget d a => some (packA 0x32 d.toNat a.toNat 0 3)
  | .mma d a b => some (packA 0x32 d.toNat a.toNat b.toNat 4)
  | .mmaz d a b => some (packA 0x32 d.toNat a.toNat b.toNat 5)
  | .bswalk d a b => some (packA 0x32 d.toNat a.toNat b.toNat 6)
  | .biasupd d a b => some (packA 0x32 d.toNat a.toNat b.toNat 7)
  | .tkon a => some (packA 0x33 0 a.toNat 0 0)
  | .tksave a => some (packA 0x33 0 a.toNat 0 3)
  | .tkload a => some (packA 0x33 0 a.toNat 0 4)
  | .tkoff => some (packA 0x33 0 0 0 1)
  | .tkget d a => some (packA 0x33 d.toNat a.toNat 0 2)
  | .tnew d => some (packA 0x34 d.toNat 0 0 0)
  | .tnewq d => some (packA 0x34 d.toNat 0 0 1)
  | .tget d => some (packA 0x34 d.toNat 0 0 4)
  | .tset a => some (packA 0x34 0 a.toNat 0 2)
  | .tsets a => some (packA 0x34 0 a.toNat 0 3)
  | .tretTag a => some (packA 0x34 0 a.toNat 0 5)
  | .citw a b => some (packA 0x34 0 a.toNat b.toNat 6)
  | .citr d a => some (packA 0x34 d.toNat a.toNat 0 7)
  | .citp a b => some (packA 0x34 0 a.toNat b.toNat 8)
  | .stcm d a z => some (packA 0x34 d.toNat a.toNat 0 (0x10 + z.code))
  | .vstcm d a => some (packA 0x34 d.toNat a.toNat 0 0x14)
  | .ldt d a b z => some (packA 0x35 d.toNat a.toNat b.toNat z.code)
  | .vldt d a b => some (packA 0x35 d.toNat a.toNat b.toNat 8)
  | _ => none

/-- The instruction word of an instruction. -/
def encode (i : Instr) : Option IWord := (encodeNat i).map (BitVec.ofNat 32)

end Sys2Proof
end

