-- ==== Sys2Proof/Machine/Vector.lean ====
section
/-! DEFINITION. Streaming arithmetic (R112-R115, R140-R149): each instruction of majors 0x20 to 0x28 as a
member of a convoy. -/

namespace Sys2Proof.Machine

/-! ### Majors 0x20 and 0x21 (R140, R141) -/

/-- `vadd cD, cA, cB` (R140). -/
def memberVadd (d a b : CReg) (x : Bool) (g : Gm) : Member :=
  { bound := [⟨a, g.fmtA⟩, ⟨b, g.fmtB⟩], dests := [(d, g.fmtA.bits)], fits := sameKind g.fmtA g.fmtB
    body := .map (fun _ v _ _ => opAdd g.fmtA g.fmtB g.num (arg v 0) (arg v 1)) none none x }
/-- `vadd cD, cA, sB` (R140). -/
def memberVaddScalar (d a : CReg) (b : SReg) (x : Bool) (g : Gm) : Member :=
  { bound := [⟨a, g.fmtA⟩], dests := [(d, g.fmtA.bits)], fits := sameKind g.fmtA g.fmtB
    body := .map (fun _ v b _ => opAdd g.fmtA g.fmtB g.num (arg v 0) b) (some (b, g.fmtB.bits)) none x }

/-- `vsub cD, cA, cB` (R140). -/
def memberVsub (d a b : CReg) (x : Bool) (g : Gm) : Member :=
  { bound := [⟨a, g.fmtA⟩, ⟨b, g.fmtB⟩], dests := [(d, g.fmtA.bits)], fits := sameKind g.fmtA g.fmtB
    body := .map (fun _ v _ _ => opSub g.fmtA g.fmtB g.num (arg v 0) (arg v 1)) none none x }
/-- `vsub cD, cA, sB` (R140). -/
def memberVsubScalar (d a : CReg) (b : SReg) (x : Bool) (g : Gm) : Member :=
  { bound := [⟨a, g.fmtA⟩], dests := [(d, g.fmtA.bits)], fits := sameKind g.fmtA g.fmtB
    body := .map (fun _ v b _ => opSub g.fmtA g.fmtB g.num (arg v 0) b) (some (b, g.fmtB.bits)) none x }

/-- `vmul cD, cA, cB` (R140). -/
def memberVmul (d a b : CReg) (x : Bool) (g : Gm) : Member :=
  { bound := [⟨a, g.fmtA⟩, ⟨b, g.fmtB⟩], dests := [(d, g.fmtA.bits)], fits := sameKind g.fmtA g.fmtB
    body := .map (fun _ v _ _ => opMul g.fmtA g.fmtB g.num (arg v 0) (arg v 1)) none none x }
/-- `vmul cD, cA, sB` (R140). -/
def memberVmulScalar (d a : CReg) (b : SReg) (x : Bool) (g : Gm) : Member :=
  { bound := [⟨a, g.fmtA⟩], dests := [(d, g.fmtA.bits)], fits := sameKind g.fmtA g.fmtB
    body := .map (fun _ v b _ => opMul g.fmtA g.fmtB g.num (arg v 0) b) (some (b, g.fmtB.bits)) none x }

/-- `vfma cD, cA, cB` (R140). -/
def memberVfma (d a b : CReg) (x : Bool) (g : Gm) : Member :=
  { bound := [⟨a, g.fmtA⟩, ⟨b, g.fmtB⟩, ⟨d, g.fmtA⟩], dests := [(d, g.fmtA.bits)], fits := sameKind g.fmtA g.fmtB
    body := .map (fun _ v _ _ => opFma g.fmtA g.fmtB g.num (arg v 0) (arg v 1) (arg v 2)) none none x }
/-- `vfma cD, cA, sB` (R140). -/
def memberVfmaScalar (d a : CReg) (b : SReg) (x : Bool) (g : Gm) : Member :=
  { bound := [⟨a, g.fmtA⟩, ⟨d, g.fmtA⟩], dests := [(d, g.fmtA.bits)], fits := sameKind g.fmtA g.fmtB
    body := .map (fun _ v b _ => opFma g.fmtA g.fmtB g.num (arg v 0) b (arg v 1)) (some (b, g.fmtB.bits)) none x }

/-- `vfms cD, cA, cB` (R140). -/
def memberVfms (d a b : CReg) (x : Bool) (g : Gm) : Member :=
  { bound := [⟨a, g.fmtA⟩, ⟨b, g.fmtB⟩, ⟨d, g.fmtA⟩], dests := [(d, g.fmtA.bits)], fits := sameKind g.fmtA g.fmtB
    body := .map (fun _ v _ _ => opFms g.fmtA g.fmtB g.num (arg v 0) (arg v 1) (arg v 2)) none none x }
/-- `vfms cD, cA, sB` (R140). -/
def memberVfmsScalar (d a : CReg) (b : SReg) (x : Bool) (g : Gm) : Member :=
  { bound := [⟨a, g.fmtA⟩, ⟨d, g.fmtA⟩], dests := [(d, g.fmtA.bits)], fits := sameKind g.fmtA g.fmtB
    body := .map (fun _ v b _ => opFms g.fmtA g.fmtB g.num (arg v 0) b (arg v 1)) (some (b, g.fmtB.bits)) none x }

/-- `vdiv cD, cA, cB` (R141). -/
def memberVdiv (d a b : CReg) (x : Bool) (g : Gm) : Member :=
  { bound := [⟨a, g.fmtA⟩, ⟨b, g.fmtB⟩], dests := [(d, g.fmtA.bits)], fits := sameKind g.fmtA g.fmtB
    body := .map (fun _ v _ _ => opDiv g.fmtA g.fmtB g.num (arg v 0) (arg v 1)) none none x }
/-- `vdiv cD, cA, sB` (R141). -/
def memberVdivScalar (d a : CReg) (b : SReg) (x : Bool) (g : Gm) : Member :=
  { bound := [⟨a, g.fmtA⟩], dests := [(d, g.fmtA.bits)], fits := sameKind g.fmtA g.fmtB
    body := .map (fun _ v b _ => opDiv g.fmtA g.fmtB g.num (arg v 0) b) (some (b, g.fmtB.bits)) none x }

/-- `vmin cD, cA, cB` (R141). -/
def memberVmin (d a b : CReg) (x : Bool) (g : Gm) : Member :=
  { bound := [⟨a, g.fmtA⟩, ⟨b, g.fmtB⟩], dests := [(d, g.fmtA.bits)], fits := sameKind g.fmtA g.fmtB
    body := .map (fun _ v _ _ => opMinMax true g.fmtA g.fmtB g.num (arg v 0) (arg v 1)) none none x }
/-- `vmin cD, cA, sB` (R141). -/
def memberVminScalar (d a : CReg) (b : SReg) (x : Bool) (g : Gm) : Member :=
  { bound := [⟨a, g.fmtA⟩], dests := [(d, g.fmtA.bits)], fits := sameKind g.fmtA g.fmtB
    body := .map (fun _ v b _ => opMinMax true g.fmtA g.fmtB g.num (arg v 0) b) (some (b, g.fmtB.bits)) none x }

/-- `vmax cD, cA, cB` (R141). -/
def memberVmax (d a b : CReg) (x : Bool) (g : Gm) : Member :=
  { bound := [⟨a, g.fmtA⟩, ⟨b, g.fmtB⟩], dests := [(d, g.fmtA.bits)], fits := sameKind g.fmtA g.fmtB
    body := .map (fun _ v _ _ => opMinMax false g.fmtA g.fmtB g.num (arg v 0) (arg v 1)) none none x }
/-- `vmax cD, cA, sB` (R141). -/
def memberVmaxScalar (d a : CReg) (b : SReg) (x : Bool) (g : Gm) : Member :=
  { bound := [⟨a, g.fmtA⟩], dests := [(d, g.fmtA.bits)], fits := sameKind g.fmtA g.fmtB
    body := .map (fun _ v b _ => opMinMax false g.fmtA g.fmtB g.num (arg v 0) b) (some (b, g.fmtB.bits)) none x }

/-- `vand cD, cA, cB` (R140). -/
def memberVand (d a b : CReg) (x : Bool) (g : Gm) : Member :=
  { bound := [⟨a, g.fmtA⟩, ⟨b, g.fmtB⟩], dests := [(d, g.fmtA.bits)], fits := bothInt g.fmtA g.fmtB && g.fmtA.bits == g.fmtB.bits
    body := .map (fun _ v _ _ => ((arg v 0) &&& (arg v 1), 0)) none none x }
/-- `vand cD, cA, sB` (R140). -/
def memberVandScalar (d a : CReg) (b : SReg) (x : Bool) (g : Gm) : Member :=
  { bound := [⟨a, g.fmtA⟩], dests := [(d, g.fmtA.bits)], fits := bothInt g.fmtA g.fmtB && g.fmtA.bits == g.fmtB.bits
    body := .map (fun _ v b _ => ((arg v 0) &&& b, 0)) (some (b, g.fmtB.bits)) none x }

/-- `vor cD, cA, cB` (R140). -/
def memberVor (d a b : CReg) (x : Bool) (g : Gm) : Member :=
  { bound := [⟨a, g.fmtA⟩, ⟨b, g.fmtB⟩], dests := [(d, g.fmtA.bits)], fits := bothInt g.fmtA g.fmtB && g.fmtA.bits == g.fmtB.bits
    body := .map (fun _ v _ _ => ((arg v 0) ||| (arg v 1), 0)) none none x }
/-- `vor cD, cA, sB` (R140). -/
def memberVorScalar (d a : CReg) (b : SReg) (x : Bool) (g : Gm) : Member :=
  { bound := [⟨a, g.fmtA⟩], dests := [(d, g.fmtA.bits)], fits := bothInt g.fmtA g.fmtB && g.fmtA.bits == g.fmtB.bits
    body := .map (fun _ v b _ => ((arg v 0) ||| b, 0)) (some (b, g.fmtB.bits)) none x }

/-- `vxor cD, cA, cB` (R140). -/
def memberVxor (d a b : CReg) (x : Bool) (g : Gm) : Member :=
  { bound := [⟨a, g.fmtA⟩, ⟨b, g.fmtB⟩], dests := [(d, g.fmtA.bits)], fits := bothInt g.fmtA g.fmtB && g.fmtA.bits == g.fmtB.bits
    body := .map (fun _ v _ _ => ((arg v 0) ^^^ (arg v 1), 0)) none none x }
/-- `vxor cD, cA, sB` (R140). -/
def memberVxorScalar (d a : CReg) (b : SReg) (x : Bool) (g : Gm) : Member :=
  { bound := [⟨a, g.fmtA⟩], dests := [(d, g.fmtA.bits)], fits := bothInt g.fmtA g.fmtB && g.fmtA.bits == g.fmtB.bits
    body := .map (fun _ v b _ => ((arg v 0) ^^^ b, 0)) (some (b, g.fmtB.bits)) none x }

/-- `vshl cD, cA, cB` (R140). -/
def memberVshl (d a b : CReg) (x : Bool) (g : Gm) : Member :=
  { bound := [⟨a, g.fmtA⟩, ⟨b, g.fmtB⟩], dests := [(d, g.fmtA.bits)], fits := bothInt g.fmtA g.fmtB
    body := .map (fun _ v _ _ => opShift 0 g.fmtA g.fmtB (arg v 0) (arg v 1)) none none x }
/-- `vshl cD, cA, sB` (R140). -/
def memberVshlScalar (d a : CReg) (b : SReg) (x : Bool) (g : Gm) : Member :=
  { bound := [⟨a, g.fmtA⟩], dests := [(d, g.fmtA.bits)], fits := bothInt g.fmtA g.fmtB
    body := .map (fun _ v b _ => opShift 0 g.fmtA g.fmtB (arg v 0) b) (some (b, g.fmtB.bits)) none x }

/-- `vshr cD, cA, cB` (R140). -/
def memberVshr (d a b : CReg) (x : Bool) (g : Gm) : Member :=
  { bound := [⟨a, g.fmtA⟩, ⟨b, g.fmtB⟩], dests := [(d, g.fmtA.bits)], fits := bothInt g.fmtA g.fmtB
    body := .map (fun _ v _ _ => opShift 1 g.fmtA g.fmtB (arg v 0) (arg v 1)) none none x }
/-- `vshr cD, cA, sB` (R140). -/
def memberVshrScalar (d a : CReg) (b : SReg) (x : Bool) (g : Gm) : Member :=
  { bound := [⟨a, g.fmtA⟩], dests := [(d, g.fmtA.bits)], fits := bothInt g.fmtA g.fmtB
    body := .map (fun _ v b _ => opShift 1 g.fmtA g.fmtB (arg v 0) b) (some (b, g.fmtB.bits)) none x }

/-- `vsra cD, cA, cB` (R140). -/
def memberVsra (d a b : CReg) (x : Bool) (g : Gm) : Member :=
  { bound := [⟨a, g.fmtA⟩, ⟨b, g.fmtB⟩], dests := [(d, g.fmtA.bits)], fits := bothInt g.fmtA g.fmtB
    body := .map (fun _ v _ _ => opShift 2 g.fmtA g.fmtB (arg v 0) (arg v 1)) none none x }
/-- `vsra cD, cA, sB` (R140). -/
def memberVsraScalar (d a : CReg) (b : SReg) (x : Bool) (g : Gm) : Member :=
  { bound := [⟨a, g.fmtA⟩], dests := [(d, g.fmtA.bits)], fits := bothInt g.fmtA g.fmtB
    body := .map (fun _ v b _ => opShift 2 g.fmtA g.fmtB (arg v 0) b) (some (b, g.fmtB.bits)) none x }

/-- `vfsh cD, cA, cB` (R140). -/
def memberVfsh (d a b : CReg) (x : Bool) (g : Gm) : Member :=
  { bound := [⟨a, g.fmtA⟩, ⟨b, g.fmtB⟩, ⟨d, g.fmtA⟩], dests := [(d, g.fmtA.bits)], fits := bothInt g.fmtA g.fmtB
    body := .map (fun _ v _ _ => opFsh g.fmtA g.fmtB (arg v 0) (arg v 1) (arg v 2)) none none x }
/-- `vfsh cD, cA, sB` (R140). -/
def memberVfshScalar (d a : CReg) (b : SReg) (x : Bool) (g : Gm) : Member :=
  { bound := [⟨a, g.fmtA⟩, ⟨d, g.fmtA⟩], dests := [(d, g.fmtA.bits)], fits := bothInt g.fmtA g.fmtB
    body := .map (fun _ v b _ => opFsh g.fmtA g.fmtB (arg v 0) b (arg v 1)) (some (b, g.fmtB.bits)) none x }

/-- `vbext cD, cA, cB` (R140). -/
def memberVbext (d a b : CReg) (x : Bool) (g : Gm) : Member :=
  { bound := [⟨a, g.fmtA⟩, ⟨b, g.fmtB⟩], dests := [(d, g.fmtA.bits)], fits := bothInt g.fmtA g.fmtB && decide (16 ≤ g.fmtB.bits)
    body := .map (fun _ v _ _ => opBext g.fmtA g.fmtB (arg v 0) (arg v 1)) none none x }
/-- `vbext cD, cA, sB` (R140). -/
def memberVbextScalar (d a : CReg) (b : SReg) (x : Bool) (g : Gm) : Member :=
  { bound := [⟨a, g.fmtA⟩], dests := [(d, g.fmtA.bits)], fits := bothInt g.fmtA g.fmtB && decide (16 ≤ g.fmtB.bits)
    body := .map (fun _ v b _ => opBext g.fmtA g.fmtB (arg v 0) b) (some (b, g.fmtB.bits)) none x }

/-- `vsel cD, cA, cB, mN` (R140): patterns only. -/
def memberVsel (d a b : CReg) (n : MReg) (x : Bool) (g : Gm) : Member :=
  { bound := [⟨a, g.fmtA⟩, ⟨b, g.fmtB⟩], dests := [(d, g.fmtA.bits)], mreads := [n]
    fits := g.fmtA.bits == g.fmtB.bits
    body := .map (fun _ v _ t => (if t then (arg v 0) else (arg v 1), 0)) none (some n) x }
/-- `vsel cD, cA, sB, mN` (R140). -/
def memberVselScalar (d a : CReg) (b : SReg) (n : MReg) (x : Bool) (g : Gm) : Member :=
  { bound := [⟨a, g.fmtA⟩], dests := [(d, g.fmtA.bits)], mreads := [n]
    fits := g.fmtA.bits == g.fmtB.bits
    body := .map (fun _ v b t => (if t then (arg v 0) else b, 0)) (some (b, g.fmtB.bits)) (some n) x }

/-! ### One operand (R112, R140, R142) -/

/-- `vabs cD, cA` (R140). -/
def memberVabs (d a : CReg) (x : Bool) (g : Gm) : Member :=
  { bound := [⟨a, g.fmtA⟩], dests := [(d, g.fmtA.bits)], fits := true
    body := .map (fun _ v _ _ => opAbs g.fmtA g.num (arg v 0)) none none x }

/-- `vneg cD, cA` (R140). -/
def memberVneg (d a : CReg) (x : Bool) (g : Gm) : Member :=
  { bound := [⟨a, g.fmtA⟩], dests := [(d, g.fmtA.bits)], fits := true
    body := .map (fun _ v _ _ => opNeg g.fmtA g.num (arg v 0)) none none x }

/-- `vpopc cD, cA` (R140). -/
def memberVpopc (d a : CReg) (x : Bool) (g : Gm) : Member :=
  { bound := [⟨a, g.fmtA⟩], dests := [(d, g.fmtA.bits)], fits := g.fmtA.isInt
    body := .map (fun _ v _ _ => (popCount g.fmtA.bits (arg v 0), 0)) none none x }

/-- `vclz cD, cA` (R140). -/
def memberVclz (d a : CReg) (x : Bool) (g : Gm) : Member :=
  { bound := [⟨a, g.fmtA⟩], dests := [(d, g.fmtA.bits)], fits := g.fmtA.isInt
    body := .map (fun _ v _ _ => (leadZeros g.fmtA.bits (arg v 0), 0)) none none x }

/-- `vexp2 cD, cA` (R114). -/
def memberVexp2 (d a : CReg) (x : Bool) (g : Gm) : Member :=
  { bound := [⟨a, g.fmtA⟩], dests := [(d, g.fmtA.bits)], fits := g.fmtA.isIeee
    body := .map (fun _ v _ _ => opExp2 g.fmtA g.num (arg v 0)) none none x }

/-- `vrcp cD, cA` (R115). -/
def memberVrcp (d a : CReg) (x : Bool) (g : Gm) : Member :=
  { bound := [⟨a, g.fmtA⟩], dests := [(d, g.fmtA.bits)], fits := g.fmtA.isIeee
    body := .map (fun _ v _ _ => opRcp g.fmtA g.num (arg v 0)) none none x }

/-- `vsqrt cD, cA` (R115). -/
def memberVsqrt (d a : CReg) (x : Bool) (g : Gm) : Member :=
  { bound := [⟨a, g.fmtA⟩], dests := [(d, g.fmtA.bits)], fits := g.fmtA.isIeee
    body := .map (fun _ v _ _ => opSqrt g.fmtA g.num (arg v 0)) none none x }

/-- `vmv cD, cA` (R142). -/
def memberVmv (d a : CReg) (x : Bool) (g : Gm) : Member :=
  { bound := [⟨a, g.fmtA⟩], dests := [(d, g.fmtA.bits)], fits := true
    body := .map (fun _ v _ _ => ((arg v 0), 0)) none none x }

/-- `vcvt cD, cA` (R112, R113): from `gm`.fa to `gm`.fb. -/
def memberVcvt (d a : CReg) (x : Bool) (g : Gm) : Member :=
  { bound := [⟨a, g.fmtA⟩], dests := [(d, g.fmtB.bits)]
    body := .map (fun _ v _ _ => opCvt g.fmtA g.fmtB g.num (arg v 0)) none none x }
/-- `vcvt.sat cD, cA` (R112, R113): saturating whatever `gm`.sat holds. -/
def memberVcvtSat (d a : CReg) (x : Bool) (g : Gm) : Member :=
  { bound := [⟨a, g.fmtA⟩], dests := [(d, g.fmtB.bits)]
    body := .map (fun _ v _ _ => opCvt g.fmtA g.fmtB { g.num with sat := true } (arg v 0)) none none x }
/-- `vidx cD` (R142): the element number. -/
def memberVidx (d : CReg) (x : Bool) (g : Gm) : Member :=
  { dests := [(d, g.fmtA.bits)]
    body := .map (fun e _ _ _ => if g.fmtA.isInt then intTo g.fmtA g.sat e
      else roundVal g.fmtA g.num g.num.rnd (.fin false e 0)) none none x }
/-- `vmv cD, sA` (R142). -/
def memberVmvScalar (d : CReg) (a : SReg) (x : Bool) (g : Gm) : Member :=
  { dests := [(d, g.fmtA.bits)], body := .map (fun _ _ b _ => (b, 0)) (some (a, g.fmtA.bits)) none x }

/-! ### Compare and reduce (R143, R144) -/

/-- Formats a condition accepts (R143). -/
def cmpFits (c : Cond) (fa fb : Fmt) : Bool :=
  match c with
  | .ltu | .leu => bothInt fa fb
  | _ => sameKind fa fb

/-- `vcmp.cond mD, cA, cB` (R143). -/
def memberVcmp (d : MReg) (a b : CReg) (c : Cond) (g : Gm) : Member :=
  { bound := [⟨a, g.fmtA⟩, ⟨b, g.fmtB⟩], mwrite := some d, fits := cmpFits c g.fmtA g.fmtB
    body := .cmp (opCmp c.code g.fmtA g.fmtB g.num) none }
/-- `vcmp.cond mD, cA, sB` (R143). -/
def memberVcmpScalar (d : MReg) (a : CReg) (b : SReg) (c : Cond) (g : Gm) : Member :=
  { bound := [⟨a, g.fmtA⟩], mwrite := some d, fits := cmpFits c g.fmtA g.fmtB
    body := .cmp (opCmp c.code g.fmtA g.fmtB g.num) (some (b, g.fmtB.bits)) }

/-- `vredsum sD, cA, sB` (R144). -/
def memberVredsum (d : SReg) (a : CReg) (b : SReg) (g : Gm) : Member :=
  { bound := [⟨a, g.fmtA⟩], swrite := some d, body := .red (opAdd g.fmtA g.fmtA g.num) b }
/-- `vredmax sD, cA, sB` (R144). -/
def memberVredmax (d : SReg) (a : CReg) (b : SReg) (g : Gm) : Member :=
  { bound := [⟨a, g.fmtA⟩], swrite := some d, body := .red (opMinMax false g.fmtA g.fmtA g.num) b }
/-- `vredmin sD, cA, sB` (R144). -/
def memberVredmin (d : SReg) (a : CReg) (b : SReg) (g : Gm) : Member :=
  { bound := [⟨a, g.fmtA⟩], swrite := some d, body := .red (opMinMax true g.fmtA g.fmtA g.num) b }

/-! ### Permutes (R145): none names its destination among its sources -/

/-- `vperm cD, cA, cB` (R145). -/
def memberVperm (d a b : CReg) (g : Gm) : Member :=
  { bound := [⟨b, g.fmtB⟩], other := [⟨a, g.fmtA⟩], dests := [(d, g.fmtA.bits)], fits := g.fmtB.isInt
    clash := d == a || d == b, body := .perm .chain }
/-- `vcomp cD, cA, mB` (R145). -/
def memberVcomp (d a : CReg) (b : MReg) (g : Gm) : Member :=
  { bound := [⟨a, g.fmtA⟩], dests := [(d, g.fmtA.bits)], mreads := [b], clash := d == a, body := .comp b }
/-- `vexpd cD, cA, mB` (R145). -/
def memberVexpd (d a : CReg) (b : MReg) (g : Gm) : Member :=
  { other := [⟨a, g.fmtA⟩], dests := [(d, g.fmtA.bits)], mreads := [b], clash := d == a
    body := .perm (.expand b) }
/-- `vslide cD, cA, sB` (R145). -/
def memberVslide (d a : CReg) (b : SReg) (g : Gm) : Member :=
  { other := [⟨a, g.fmtA⟩], dests := [(d, g.fmtA.bits)], clash := d == a, body := .perm (.slide b) }

/-! ### Masks (R146) -/

/-- `mand mD, mA, mB` (R146). -/
def memberMand (d a b : MReg) : Member :=
  { mreads := [a, b], mwrite := some d, counted := false, body := .mask (.two fun x y => x &&& y) }
/-- `mor mD, mA, mB` (R146). -/
def memberMor (d a b : MReg) : Member :=
  { mreads := [a, b], mwrite := some d, counted := false, body := .mask (.two fun x y => x ||| y) }
/-- `mxor mD, mA, mB` (R146). -/
def memberMxor (d a b : MReg) : Member :=
  { mreads := [a, b], mwrite := some d, counted := false, body := .mask (.two fun x y => x ^^^ y) }
/-- `mnot mD, mA` (R146). -/
def memberMnot (d a : MReg) : Member :=
  { mreads := [a], mwrite := some d, counted := false, body := .mask .inv }
/-- `mpopc sD, mA` (R146). -/
def memberMpopc (d : SReg) (a : MReg) : Member :=
  { mreads := [a], swrite := some d, counted := false, body := .mask .popc }
/-- `mfirst sD, mA` (R146). -/
def memberMfirst (d : SReg) (a : MReg) : Member :=
  { mreads := [a], swrite := some d, counted := false, body := .mask .first }
/-- `mset mD, sA, sB` (R146). -/
def memberMset (d : MReg) (a b : SReg) : Member :=
  { mwrite := some d, counted := false, body := .mask (.set a b) }
/-- `mget sD, mA, sB` (R146). -/
def memberMget (d : SReg) (a : MReg) (b : SReg) : Member :=
  { mreads := [a], swrite := some d, counted := false, body := .mask (.get b) }

/-! ### Divergence (R148, R149) -/

/-- `vbr mA, label` (R148). -/
def memberVbr (a : MReg) (o : BitVec 14) : Member :=
  { mreads := [a], counted := false, body := .vbr a o }
/-- `vjoin label` (R149). -/
def memberVjoin (o : BitVec 26) : Member := { counted := false, body := .vjoin o }

end Sys2Proof.Machine
end

