-- ==== Sys2Proof/Machine/Run.lean ====
section
/-! DEFINITION. The elements of an open convoy (R130, R143-R146, R165-R170, R219, R235-R243): each
member advances element by element, the lowest element first and the earliest member first (R167,
R291), on a scratch state whose effects are logged by element so that those below the precise point can
be performed alone (R290). -/

namespace Sys2Proof.Machine

/-- What a look-up finds: a value, nothing yet, the end of an operand, or a failed read. -/
inductive Got (α : Type) where
  | val (a : α)
  | wait
  | short
  | bad (c : Cause) (n : Note)
  deriving DecidableEq, Repr

/-- A fault found in a convoy (R291): element, member position, the index from which the precise point
is taken, cause, `eval`, what is logged. -/
structure Hit where
  e     : Nat
  pos   : Nat
  at_   : Nat
  cause : Cause
  eval  : Word
  note  : Note := {}
  deriving DecidableEq, Repr

/-- How far a member has come. -/
structure Prog where
  begun : Bool := false
  fin   : Bool := false
  /-- Its element count, once known. -/
  n     : Option Nat := none
  /-- Elements handled: source elements for `vcomp`. -/
  done  : Nat := 0
  /-- Its results, one array per destination, and its mask bits. -/
  outs  : List (Array Nat) := []
  bits  : Array Bool := #[]
  flags : List (Nat × Flags) := []
  sres  : Option Word := none
  mres  : Option Mask := none
  /-- A reduction's partial value, the elements of its open group (newest first), and its partial value
  after each whole group (R144). -/
  part  : Option Nat := none
  items : List Nat := []
  hist  : List (Nat × Nat) := []
  /-- Elements of A used by `vexpd`; the source count of `vcomp`. -/
  aux   : Nat := 0
  /-- `vldff`: an active element has been read; the element at which it was cut (R169). -/
  seen  : Bool := false
  cut   : Option Nat := none
  deriving DecidableEq, Repr

/-- A store element performed on a marked line, which must lose its marker by this store (R305): the element, its
member, its address, the line; the access, its form and its base. -/
structure Patch where
  e    : Nat
  pos  : Nat
  va   : Int
  line : Nat
  acc  : Access
  form : Form
  base : Word
  deriving DecidableEq, Repr

/-- An open convoy. -/
structure Run where
  /-- The scratch state, and the strand as the convoy opened (R86). -/
  s     : State
  st    : Strand
  ms    : List Member
  addrs : List Word
  progs : List Prog
  best  : Option Hit
  /-- Faults that store and `vamo` elements meet at their home slices (R290), and marked lines stored to. -/
  late  : List Hit
  patches : List Patch
  /-- Effects, newest first, with the element they belong to; with none, one that stands whatever the point. -/
  log   : List (Option Nat × (State → State))
  /-- A store found no cell (R257). -/
  cell  : Bool
  /-- The first of the convoy's free values (log 52). -/
  free  : Nat := 0

/-- A member's progress. -/
def Run.prog (r : Run) (q : Nat) : Prog := r.progs.getD q {}
/-- Replace it. -/
def Run.setProg (r : Run) (q : Nat) (p : Prog) : Run := { r with progs := r.progs.set q p }
/-- `vl` as the convoy opened (R86). -/
def Run.vl (r : Run) : Nat := r.st.vl.toNat
/-- `vstart` as the convoy opened. -/
def Run.vstart (r : Run) : Nat := r.st.vstart.toNat
/-- Width of `gm`.fa in bits. -/
def Run.fab (r : Run) : Nat := r.st.gm.fmtA.bits
/-- Address of a member. -/
def Run.addr (r : Run) (q : Nat) : Word := r.addrs.getD q 0
/-- An effect of element `e`. -/
def Run.eff (r : Run) (e : Nat) (f : State → State) : Run := { r with s := f r.s, log := (some e, f) :: r.log }

/-- Whether fault `h` is reported ahead of `b` (R291). -/
def Hit.before (h b : Hit) : Bool := h.e < b.e || (h.e == b.e && decide (h.pos < b.pos))

/-- A fault found; the one R291 reports is kept. -/
def Run.hitAt (r : Run) (h : Hit) : Run :=
  match r.best with
  | none => { r with best := some h }
  | some b => if h.before b then { r with best := some h } else r

/-- A fault of member `pos` at its element `e`. -/
def Run.hit (r : Run) (pos e : Nat) (c : Cause) (eval : Word) (note : Note := {}) : Run :=
  r.hitAt { e := e, pos := pos, at_ := e, cause := c, eval := eval, note := note }

/-- A fault of element `e` of a store or `vamo` at its home slice (R290). -/
def Run.lateAt (r : Run) (pos e : Nat) (c : Cause) (va : Int) (note : Note) : Run :=
  { r with late := { e := e, pos := pos, at_ := e, cause := c, eval := BitVec.ofInt 64 va, note := note } :: r.late }

/-! ### Chain operands (R123, R130) -/

/-- The earlier member that writes chain register `c`: its position, which of its results, their width. -/
def Run.producer (r : Run) (pos : Nat) (c : CReg) : Option (Nat × Nat × Nat) :=
  (List.range pos).findSome? fun q =>
    match r.ms[q]? with
    | none => none
    | some m => (m.dests.findIdx? fun d => d.1 == c).map fun k => (q, k, (m.dests.getD k (0, 8)).2)

/-- Bits of element `e` of width `b` among results of width `ob`. -/
def bitsFrom (out : Array Nat) (ob b e : Nat) : Nat :=
  let lo := e * b / ob
  let hi := ((e + 1) * b + ob - 1) / ob
  let x := (List.range (hi - lo)).foldl (fun x j => x + out.getD (lo + j) 0 * 2 ^ (j * ob)) 0
  x / 2 ^ (e * b - lo * ob) % 2 ^ b

/-- What is logged of a read of `n` bytes of buffer `id` from byte `o`: the line it finds uncorrectable (R305). -/
def State.bufNote (s : State) (x id o n : Nat) : Note :=
  if idFar id then
    { line := (anyRanges ((s.pool x true).farPlace (idIndex id) + o) n).find? s.badLines.contains }
  else {}

/-- Element `e` of a chain of segments read in format `f` (R123). -/
def State.chainElem (s : State) (x : Nat) (segs : List Seg) (f : Fmt) (e : Nat) : Got Nat :=
  match segAt (e * f.bits / 8) ((f.bits + 7) / 8) segs 0 with
  | none => .bad .element {}
  | some (k, o) =>
      let id := (segs[k]?.map (·.id)).getD 0
      if s.bufMarked x id o ((f.bits + 7) / 8) then .bad .poison (s.bufNote x id o ((f.bits + 7) / 8))
      else .val (leNat (s.bufBytes x id o ((f.bits + 7) / 8)) / 2 ^ (e * f.bits % 8) % 2 ^ f.bits)

/-- LenE of a chain operand as the convoy opened (R123): of a stream, the elements of its strip, delivered or not, in
whatever format a member reads them (R185). -/
def Chain.opened (c : Chain) (f : Fmt) : Nat :=
  match c.stream with
  | some t => t.height
  | none => elems f (segsLen c.segs)

/-- Bytes of the strip of a stream register, delivered or not. -/
def Chain.stripBytes (c : Chain) : Nat :=
  match c.stream with | some t => t.height * Block.size t.block | none => segsLen c.segs

/-- Free values that a convoy may take: one for each member, register and element. -/
def stripFree : Nat := 8 * 32 * 65536
/-- The free value of element `e` of the strip of register `c`, as member `pos` reads it (log 52). -/
def Run.beyond (r : Run) (pos : Nat) (c : CReg) (e : Nat) : Nat :=
  (Config.freeValue (r.free + (pos * 32 + c.toNat) * 65536 + e)).toNat

/-- LenE of an operand (R123); a result's once its count is known. -/
def Run.len (r : Run) (pos : Nat) (c : Src) : Got Nat :=
  match r.producer pos c.reg with
  | some (q, _, ob) =>
      match (r.prog q).n with
      | some n => .val (elems c.fmt ((n * ob + 7) / 8))
      | none => .wait
  | none => .val ((r.st.chain c.reg).opened c.fmt)

/-- Element `e` of an operand (R130). An element of a strip that reaches past the strip's bytes, as one may where a member
reads it in a wider format than the block's, has no value in the manual: it is free (log 52). -/
def Run.src (r : Run) (pos : Nat) (c : Src) (e : Nat) : Got Nat :=
  match r.producer pos c.reg with
  | some (q, k, ob) =>
      let p := r.prog q
      let out := p.outs.getD k #[]
      let hi := ((e + 1) * c.fmt.bits + ob - 1) / ob
      match p.n with
      | some n =>
          if elems c.fmt ((n * ob + 7) / 8) ≤ e then .short
          else if Nat.min hi n ≤ out.size then .val (bitsFrom out ob c.fmt.bits e) else .wait
      | none => if hi ≤ out.size then .val (bitsFrom out ob c.fmt.bits e) else .wait
  | none =>
      let ch := r.st.chain c.reg
      if ch.opened c.fmt ≤ e then .short
      else if (e + 1) * c.fmt.bits ≤ 8 * segsLen ch.data then r.s.chainElem r.s.myCx ch.data c.fmt e
      else if segsLen ch.data < ch.stripBytes then .wait
      else .val (r.beyond pos c.reg e % 2 ^ c.fmt.bits)

/-- The least of `n` and the LenE of the operands. -/
def Run.minLen (r : Run) (pos n : Nat) : List Src → Got Nat
  | [] => .val n
  | c :: t =>
      match r.len pos c with
      | .val k => r.minLen pos (Nat.min n k) t
      | g => g

/-- The elements of the bounding operands: one that has not come, one that has ended, one that failed. -/
def gotAll : List (Got Nat) → Got (List Nat)
  | [] => .val []
  | g :: t =>
      match g, gotAll t with
      | .wait, _ => .wait
      | _, .wait => .wait
      | .short, _ => .short
      | _, .short => .short
      | .bad c n, _ => .bad c n
      | .val _, .bad c n => .bad c n
      | .val a, .val l => .val (a :: l)

/-- The bounding operands' elements at `e`. -/
def Run.srcs (r : Run) (pos e : Nat) (m : Member) : Got (List Nat) := gotAll (m.bound.map fun c => r.src pos c e)

/-- Patterns of `b` bits unpacked from bytes. -/
def unpack (b : Nat) (bs : List Byte) (n : Nat) : List Nat :=
  let v := leNat bs
  (List.range n).map fun e => v / 2 ^ (e * b) % 2 ^ b

/-- Patterns of `b` bits packed into bytes, the last byte filled with zeros (R95). -/
def pack (b : Nat) (l : List Nat) : List Byte :=
  if 8 ≤ b then l.flatMap fun v => leBytes (b / 8) v
  else (chunksOf (8 / b) l.length l).map fun g =>
    BitVec.ofNat 8 (g.foldr (fun v x => v % 2 ^ b + x * 2 ^ b) 0)

/-- The first `n` elements of a destination as the convoy opened: at and above LenE they are zero (R130). -/
def Run.olds (r : Run) (d : CReg × Nat) (n : Nat) : Array Nat :=
  if n = 0 then #[]
  else
    let c := (r.st.chain d.1).segs
    let k := Nat.min n (elems (.n d.2) (segsLen c))
    (unpack d.2 (r.s.segBytes r.s.myCx (segsTake ((k * d.2 + 7) / 8) c)) k ++ List.replicate (n - k) 0).toArray

/-! ### Scalars, masks and the guard -/

/-- Whether a mask instruction was performed before an interruption (R146). The part sets a `memdone` bit for a mask
instruction only; one that software sets for another member has no effect here, though R90 speaks of each member
(log 72). -/
def Run.skips (r : Run) (q : Nat) (m : Member) : Bool := m.isMask && r.st.memdone.getLsbD q

/-- A scalar register: the result of the last earlier member that writes it (R39). -/
def Run.scalar (r : Run) (pos : Nat) (a : SReg) : Got Word :=
  let q := (List.range pos).reverse.find? fun q =>
    match r.ms[q]? with | some m => a != 0 && m.swrite == some a && !r.skips q m | none => false
  match q with
  | none => .val (r.st.reg a)
  | some q => match (r.prog q).sres with | some v => .val v | none => .wait

/-- The member that writes mask `m` before member `pos`. -/
def Run.maskProducer (r : Run) (pos : Nat) (m : MReg) : Option Nat :=
  (List.range pos).reverse.find? fun q =>
    match r.ms[q]? with | some x => m != 0 && x.mwrite == some m && !r.skips q x | none => false

/-- Bits as a number. -/
def bitsNat (l : List Bool) : Nat := l.foldr (fun b x => (if b then 1 else 0) + 2 * x) 0

/-- A mask whose bits below `vlmax` are replaced (R143). -/
def mergeMask (old new : Mask) (vlmax : Nat) : Mask :=
  let w : Mask := BitVec.ofNat 65536 (2 ^ vlmax - 1)
  (old &&& ~~~w) ||| (new &&& w)

/-- `vlmax` as a number. -/
def Run.vlmax (r : Run) : Nat := r.st.vlmax.toNat

/-- A whole mask. -/
def Run.maskAll (r : Run) (pos : Nat) (m : MReg) : Got Mask :=
  match r.maskProducer pos m with
  | none => .val (r.st.mask m)
  | some q =>
      let p := r.prog q
      if !p.fin then .wait
      else match p.mres with
        | some v => .val v
        | none => .val (mergeMask (r.st.mask m) (BitVec.ofNat 65536 (bitsNat p.bits.toList)) r.vlmax)

/-- One bit of a mask. -/
def Run.maskBit (r : Run) (pos : Nat) (m : MReg) (e : Nat) : Got Bool :=
  match r.maskProducer pos m with
  | none => .val ((r.st.mask m).getLsbD e)
  | some q =>
      let p := r.prog q
      match p.mres with
      | some v => .val (v.getLsbD e)
      | none =>
          if e < p.bits.size then .val (p.bits.getD e false)
          else if p.fin then .val (decide (r.vlmax ≤ e) && (r.st.mask m).getLsbD e)
          else .wait

/-- Active(e) of R130 for an instruction whose elements are `w` bits wide (R58). -/
def Run.active (r : Run) (w e : Nat) : Bool :=
  let g := r.st.gm
  r.st.runMask.getLsbD e &&
    if g.gk then
      let j := e * w / 4096
      decide (j < 512) && ((r.s.me.kmask g.guard).bits.getLsbD j != g.inv)
    else (r.st.mask g.guard).getLsbD e != g.inv

/-- Reading a set bit of completion mask `k` for element `e` acquires its chunk (R58, R170). -/
def Run.acquires (r : Run) (k : KReg) (j e : Nat) : Run :=
  let m := r.s.me.kmask k
  if j < 512 && m.bits.getLsbD j && m.toks.any (fun t => t.1 == j) then
    r.eff e fun s => s.acquireBits (s.me.kmask k) [j]
  else r

/-- Reading the guard for element `e`. -/
def Run.guarded (r : Run) (w e : Nat) : Run :=
  if r.st.gm.gk then r.acquires r.st.gm.guard (e * w / 4096) e else r

/-! ### Steps -/

/-- A member has no more elements: its count becomes `e`. -/
def Run.shorten (r : Run) (pos e : Nat) : Run := r.setProg pos { r.prog pos with n := some e }

/-- A failed read of an operand. -/
def Run.badRead (r : Run) (pos e : Nat) (c : Cause) (n : Note := {}) : Run := r.hit pos e c (r.addr pos) n

/-- The result of one element. -/
def Run.push (r : Run) (pos : Nat) (v : Nat × Flags) : Run :=
  let p := r.prog pos
  r.setProg pos { p with
    outs := match p.outs with | o :: t => o.push v.1 :: t | [] => []
    flags := if v.2 = 0 then p.flags else (p.done, v.2) :: p.flags
    done := p.done + 1 }

/-- One element of a member that has no result of its own. -/
def Run.pass (r : Run) (pos : Nat) : Run := r.setProg pos { r.prog pos with done := (r.prog pos).done + 1 }

/-- The old element of a destination for an inactive element under the merge bit (R130). -/
def Run.oldElem (r : Run) (d : CReg × Nat) (e : Nat) : Got Nat :=
  let c := (r.st.chain d.1).segs
  let f : Fmt := .n d.2
  if elems f (segsLen c) ≤ e then .val 0 else r.s.chainElem r.s.myCx c f e

/-- A broadcast scalar, cut to its width (R140). -/
def Run.broadcast (r : Run) (pos : Nat) (x : Option (SReg × Nat)) : Got Nat :=
  match x with
  | none => .val 0
  | some (a, b) => match r.scalar pos a with | .val v => .val (v.toNat % 2 ^ b) | _ => .wait

/-- An optional mask bit. -/
def Run.optBit (r : Run) (pos e : Nat) (x : Option MReg) : Got Bool :=
  match x with | none => .val false | some m => r.maskBit pos m e

/-- One element of an element-wise member (R130). -/
def Run.stepMap (r : Run) (pos e : Nat) (m : Member) (op : Nat → List Nat → Nat → Bool → Nat × Flags)
    (scal : Option (SReg × Nat)) (sel : Option MReg) (mrg : Bool) : Option Run :=
  match r.srcs pos e m with
  | .wait => none
  | .short => some (r.shorten pos e)
  | g =>
      let r := r.guarded r.fab e
      if !r.active r.fab e then
        if !mrg then some (r.push pos (0, 0))
        else match r.oldElem (m.dests.headD (0, 8)) e with
          | .val v => some (r.push pos (v, 0))
          | .bad c n => some (r.badRead pos e c n)
          | _ => none
      else match g, r.broadcast pos scal, r.optBit pos e sel with
        | .val v, .val b, .val t => some (r.push pos (op e v b t))
        | .bad c n, .val _, .val _ => some (r.badRead pos e c n)
        | _, _, _ => none

/-- A mask bit produced by one element. -/
def Run.pushBit (r : Run) (pos : Nat) (b : Bool) (fl : Flags) : Run :=
  let p := r.prog pos
  r.setProg pos { p with
    bits := p.bits.push b, flags := if fl = 0 then p.flags else (p.done, fl) :: p.flags, done := p.done + 1 }

/-- One element of `vcmp` (R143). -/
def Run.stepCmp (r : Run) (pos e : Nat) (m : Member) (op : Nat → Nat → Bool × Flags)
    (scal : Option (SReg × Nat)) : Option Run :=
  match r.srcs pos e m with
  | .wait => none
  | .short => some (r.shorten pos e)
  | g =>
      let r := r.guarded r.fab e
      if !r.active r.fab e then some (r.pushBit pos false 0)
      else match g, r.broadcast pos scal with
        | .val v, .val b =>
            let c := op (arg v 0) (if scal.isSome then b else arg v 1)
            some (r.pushBit pos c.1 c.2)
        | .bad c n, .val _ => some (r.badRead pos e c n)
        | _, _ => none

/-- The open group of a reduction combined (R108): `e` is the last element it holds. -/
def Prog.group (p : Prog) (comb : Nat → Nat → Nat × Flags) (e gs : Nat) : Prog :=
  let g := combineGroup comb (p.part, 0) p.items.reverse
  { p with
    part := g.1, items := []
    flags := if g.2 = 0 then p.flags else (e, g.2) :: p.flags
    hist := match g.1 with | some v => ((e / gs + 1) * gs, v) :: p.hist | none => p.hist }

/-- One element of a reduction (R144). -/
def Run.stepRed (r : Run) (pos e : Nat) (m : Member) (comb : Nat → Nat → Nat × Flags) : Option Run :=
  let gs := 4096 / r.fab
  let closeIf (r : Run) : Run :=
    if (e + 1) % gs = 0 then r.setProg pos ((r.prog pos).group comb e gs) else r
  match r.srcs pos e m with
  | .wait => none
  | .short => some (r.shorten pos e)
  | g =>
      let r := r.guarded r.fab e
      if !r.active r.fab e then some (closeIf (r.pass pos))
      else match g with
        | .val v =>
            let p := r.prog pos
            some (closeIf (r.setProg pos { p with items := arg v 0 :: p.items, done := p.done + 1 }))
        | .bad c n => some (r.badRead pos e c n)
        | _ => none

/-- Element `i` of operand A of a permute, and whether A has it: zero outside it (R145). It waits for no more of A than
that element. -/
def Run.pickElem (r : Run) (pos : Nat) (m : Member) (i : Int) : Got (Nat × Bool) :=
  if i < 0 then .val (0, false)
  else match m.other with
    | c :: _ => match r.src pos c i.toNat with
      | .val v => .val (v, true) | .short => .val (0, false) | .wait => .wait | .bad c n => .bad c n
    | [] => .val (0, false)

/-- Whether element `e` of a permute lies within its operands: a `vslide` has as many elements as A (R145). -/
def Run.permSrcs (r : Run) (pos e : Nat) (m : Member) : Pick → Got (List Nat)
  | .slide _ => match m.other with
    | c :: _ => match r.src pos c e with | .wait => .wait | .short => .short | _ => .val []
    | [] => .val []
  | _ => r.srcs pos e m

/-- One element of a permute (R145). A failed read of the element that it picks of A counts at the result element, and
so does one of `vcomp`'s sources (log 27). -/
def Run.stepPerm (r : Run) (pos e : Nat) (m : Member) (p : Pick) : Option Run :=
  match r.permSrcs pos e m p with
  | .wait => none
  | .short => some (r.shorten pos e)
  | g =>
      let r := r.guarded r.fab e
      if !r.active r.fab e then some (r.push pos (0, 0))
      else
        let found : Got (Nat × Bool) :=
          match p with
          | .chain => match g with
            | .val v => r.pickElem pos m (arg v 0)
            | .bad c n => .bad c n
            | _ => .wait
          | .slide b => match r.scalar pos b with
            | .val w => r.pickElem pos m (e + w.toInt)
            | _ => .wait
          | .expand b => match r.maskBit pos b e with
            | .val true => r.pickElem pos m (r.prog pos).aux
            | .val false => .val (0, false)
            | _ => .wait
        match found with
        | .val (x, used) =>
            let r := if used then r.setProg pos { r.prog pos with aux := (r.prog pos).aux + 1 } else r
            some (r.push pos (x, 0))
        | .bad c n => some (r.badRead pos e c n)
        | _ => none

/-- One source element of `vcomp` (R145): results below `vstart` stand in cD. -/
def Run.stepComp (r : Run) (pos e : Nat) (m : Member) (b : MReg) : Option Run :=
  match r.srcs pos e m with
  | .wait => none
  | .short => some (r.setProg pos { r.prog pos with aux := e })
  | g =>
      let r := r.guarded r.fab e
      if !r.active r.fab e then some (r.pass pos)
      else match r.maskBit pos b e with
        | .val false => some (r.pass pos)
        | .val true =>
            let i := ((r.prog pos).outs.headD #[]).size
            let found : Got Nat := if i < r.vstart then r.oldElem (m.dests.headD (0, 8)) i
              else match g with
                | .val v => .val (arg v 0) | .bad c n => .bad c n | _ => .wait
            match found with
            | .val v => some (r.push pos (v, 0))
            | .bad c n => some (r.hitAt { e := e, pos := pos, at_ := i, cause := c, eval := r.addr pos, note := n })
            | _ => none
        | _ => none

/-! ### Memory members -/

/-- Address and bit of element `e` (R165), with the page format of the base for the unit form. -/
def Run.address (r : Run) (pos e : Nat) (a : Access) (at_ : Form) (base : Word) (v : List Nat) :
    Got (Int × Nat × Option Nat) :=
  let f := r.st.gm.fmtA
  let fb := r.st.gm.fmtB
  match at_ with
  | .unit =>
      let pf := r.s.formatAt a base.toNat
      let u := unitAddr f base.toNat pf e
      .val (u.1, u.2, some pf)
  | .stride b => match r.scalar pos b with
    | .val w => .val (base.toNat + e * w.toInt, 0, none)
    | _ => .wait
  | .index k => .val (base.toNat + fb.int (arg v k), 0, none)

/-- A failed check of an element: a fault, or a wait for a cell. -/
def Run.missed (r : Run) (pos e : Nat) (x : Miss) : Run :=
  match x with
  | .bad c va n => r.hit pos e c (BitVec.ofInt 64 va) n
  | .cell => { r with cell := true }

/-- The access of a load: `vldt` names its tag (R268). -/
def Run.loadAccess (r : Run) (kind : LoadKind) : Access :=
  match kind with
  | .tagged b => { r.s.myAccess with tag := (r.st.reg b).toNat }
  | _ => { r.s.myAccess with tag := r.st.ctx.toNat }

/-- One element of a load (R165, R168-R170). -/
def Run.stepLoad (r : Run) (pos e : Nat) (m : Member) (at_ : Form) (base : SReg) (kind : LoadKind) : Option Run :=
  let a := r.loadAccess kind
  match r.srcs pos e m, r.scalar pos base with
  | .wait, _ => none
  | .short, _ => some (r.shorten pos e)
  | g, .val bw =>
      let r := r.guarded r.fab e
      let j := if r.s.formatAt a bw.toNat = 0 then e * r.fab / 4096 else e / 512
      let act := r.active r.fab e
      let ok := match kind with
        | .chunk k => act && decide (j < 512) && (r.s.me.kmask k).bits.getLsbD j
        | _ => act
      let r := match kind with | .chunk k => if act then r.acquires k j e else r | _ => r
      let mark (r : Run) : Run := match kind with
        | .chunk _ => r.setProg pos { r.prog pos with bits := (r.prog pos).bits.push ok }
        | _ => r
      if !ok then some (mark (r.push pos (0, 0)))
      else
        let v : Got (List Nat) := g
        match v with
        | .bad c n => some (r.badRead pos e c n)
        | .val l =>
            match r.address pos e a at_ bw l with
            | .val (va, bit, unit) =>
                let f := r.st.gm.fmtA
                match r.s.spot a ((f.bits + 7) / 8) va true false false unit with
                | .error (.bad c at_ n) =>
                    if kind = .first ∧ (r.prog pos).seen ∧ (c = .notPresent ∨ c = .permission) then
                      some (r.setProg pos { r.prog pos with n := some e, cut := some e })
                    else some (r.missed pos e (.bad c at_ n))
                | .error .cell => some (r.missed pos e .cell)
                | .ok sp =>
                    let nm := r.st.gm.num
                    let x := r.s.readSpot a f nm bit sp
                    let r := r.eff e fun s => (s.readSpot a f nm bit sp).2
                    let r := mark (r.push pos x.1)
                    some (r.setProg pos { r.prog pos with seen := true })
            | _ => none
        | _ => none
  | _, _ => none

/-- The bits of memory that element `e` of the store of `k` takes, from its address alone. -/
def Run.storeBits (r : Run) (k : Patch) (m : Member) (e : Nat) : Option (Nat × Nat) :=
  let l : List Nat := match k.form with
    | .index i => match m.bound[i]? with
      | some c => match r.src k.pos c e with
        | .val x => List.replicate (i + 1) x
        | _ => []
      | none => []
    | _ => [0]
  if l.isEmpty then none
  else match r.address k.pos e k.acc k.form k.base l with
    | .val (va, bit, _) => r.s.bitsAt k.acc r.st.gm.fmtA va bit
    | _ => none

/-- Active elements below `n` of the store of `k` that lie in its line, with the bits that each takes there. -/
def Run.lineRuns (r : Run) (k : Patch) (m : Member) (n : Nat) : List (Nat × (Nat × Nat)) :=
  ((List.range n).filter (r.active r.fab)).filterMap fun e => match r.storeBits k m e with
    | some b => if b.1 / 512 == k.line then some (e, b) else none
    | none => none

/-- Element `k.e` has been stored to a line that holds an error: with it the store has filled the line, which loses its
marker (R305), or the line waits for the rest of the store. -/
def Run.fillLine (r : Run) (m : Member) (k : Patch) : Run :=
  if fillsLine k.line ((r.lineRuns k m (k.e + 1)).map (·.2)) then
    { r.eff k.e (fun s => s.unmark k.line) with patches := r.patches.filter fun x => !(x.pos == k.pos && x.line == k.line) }
  else if r.s.marked (64 * k.line) then { r with patches := k :: r.patches }
  else r

/-- One element of a store (R165, R168). A race and a marked or uncorrectable line are found once the other checks of
its group have passed (R290). -/
def Run.stepStore (r : Run) (pos e : Nat) (m : Member) (at_ : Form) (base : SReg) (common : Bool) : Option Run :=
  let a : Access := { r.s.myAccess with tag := if common then 0 else r.st.ctx.toNat }
  match r.srcs pos e m, r.scalar pos base with
  | .wait, _ => none
  | .short, _ => some (r.shorten pos e)
  | g, .val bw =>
      let r := r.guarded r.fab e
      if !r.active r.fab e then some (r.pass pos)
      else match g with
        | .bad c n => some (r.badRead pos e c n)
        | .val l =>
            match r.address pos e a at_ bw l with
            | .val (va, bit, unit) =>
                let f := r.st.gm.fmtA
                let z := (f.bits + 7) / 8
                match r.s.spot { a with quiet := true } z va false true true unit with
                | .error (.bad .poison x n) =>
                    let r := match r.s.spot a z va false true true unit with
                      | .error (.bad .race y k) => r.lateAt pos e .race y k
                      | _ => r.lateAt pos e .poison x n
                    some (r.pass pos)
                | .error x => some (r.missed pos e x)
                | .ok sp =>
                    let r := match r.s.spot a z va false true true unit with
                      | .error (.bad c x n) => r.lateAt pos e c x n
                      | _ => r
                    let bits := r.s.bitsAt a f va bit
                    let nm := r.st.gm.num
                    let v := arg l 0
                    let w := r.s.writeSpot a f nm bit false v sp
                    let r := r.eff e fun s => (s.writeSpot a f nm bit false v sp).2
                    let r := match bits with
                      | some b => if r.s.marked (b.1 / 8) || r.s.broken (b.1 / 8) then
                          r.fillLine m { e := e, pos := pos, va := va, line := b.1 / 512, acc := a, form := at_, base := bw }
                        else r
                      | none => r
                    let p := r.prog pos
                    some (r.setProg pos { p with
                      flags := if w.1 = 0 then p.flags else (e, w.1) :: p.flags, done := p.done + 1 })
            | _ => none
        | _ => none
  | _, _ => none

/-- The marked line of `k`, which the store has not filled so far: it loses its marker with the last element of the store
that lies in it, when the active elements of the store fill it; otherwise the element fails there (R305). -/
def Run.patch (r : Run) (k : Patch) : Run :=
  match r.ms[k.pos]? with
  | none => r
  | some m =>
      let runs := r.lineRuns k m ((r.prog k.pos).n.getD 0)
      if fillsLine k.line (runs.map (·.2)) then
        r.eff (runs.foldl (fun x y => Nat.max x y.1) 0) fun s => s.unmark k.line
      else r.lateAt k.pos k.e .poison k.va {}

/-- Every store to a marked line settled. -/
def Run.patched (r : Run) : Run := r.patches.foldl Run.patch r

/-- Acquire and release parts and the scope of a `vamo` (R218). -/
def vamoSync (s : State) (o : VamoOrder) (sc : VamoScope) : Syncing :=
  { agent := s.me.uid, loc := s.myLoc
    acq := match o with | .acq | .ar => true | _ => false
    rel := match o with | .rel | .ar => true | _ => false
    scope := match sc with | .cplx => .cplx | .quad => .quad | .pkg => .pkg | .sys => .sys }

/-- One element of a `vamo` (R219): a marked or uncorrectable line is found as in a store (R290). -/
def Run.stepVamo (r : Run) (pos e : Nat) (m : Member) (op : AmoOp) (o : VamoOrder) (sc : VamoScope) (base : SReg) :
    Option Run :=
  let a : Access := { r.s.myAccess with tag := r.st.ctx.toNat }
  match r.srcs pos e m, r.scalar pos base with
  | .wait, _ => none
  | .short, _ => some (r.shorten pos e)
  | g, .val bw =>
      let r := r.guarded r.fab e
      if !r.active r.fab e then some (r.push pos (0, 0))
      else match g with
        | .bad c n => some (r.badRead pos e c n)
        | .val l =>
            let z := r.fab / 8
            let va : Int := bw.toNat + r.st.gm.fmtB.int (arg l 1)
            let y := vamoSync r.s o sc
            let fail (c : Check) : Run := match c with
              | .bad c n => r.missed pos e (.bad c va n)
              | _ => r.missed pos e .cell
            match r.s.checkAtomic a va z with
            | .bad .poison n => some ((r.lateAt pos e .poison va n).push pos (0, 0))
            | .ok p =>
                match r.s.atomic a y p z op (arg l 0) (arg l 2) with
                | .error c => some (fail c)
                | .ok (old, _) =>
                    let r := r.eff e fun s =>
                      match s.atomic a y p z op (arg l 0) (arg l 2) with
                      | .ok (_, s') => s'
                      | .error _ => s
                    some (r.push pos (old, 0))
            | c => some (fail c)
        | _ => none
  | _, _ => none

/-! ### Slot members -/

/-- Slot markers left by element `e` of an `oput` whose elements from `lo` on are all active: a range
whose last byte it writes loses its marker (R316). -/
def State.putSlot (s : State) (o : Nat) (f : Fmt) (e v lo : Nat) : State :=
  let x := s.myCx
  let sl := s.slot x o
  let hi := (e + 1) * f.bits
  let done := hi % 512 == 0 && decide (lo * f.bits + 512 ≤ hi)
  s.setSlot x o { sl with
    data := slotPut sl.data f e v
    poison := if done then sl.poison.filter (· != hi / 512 - 1) else sl.poison }

/-- The first element of the unbroken run of active elements that ends at `e`: those below `vstart` were written before
the interruption. -/
def Run.runStart (r : Run) (w : Nat) : Nat → Nat
  | 0 => 0
  | e + 1 => if r.active w e then r.runStart w e else e + 1

/-- Whether the earlier members that `f` names have handled element `e`, or with none all of their elements (R39). -/
def Run.past (r : Run) (pos : Nat) (f : Body → Bool) (e : Option Nat) : Bool :=
  (List.range pos).all fun q =>
    match r.ms[q]? with
    | some m => !f m.body || (r.prog q).fin || (match e with | some e => decide (e < (r.prog q).done) | none => false)
    | none => true

/-- An `oput` into slot `o`. -/
def Body.puts (o : OReg) : Body → Bool
  | .oput p => p == o
  | _ => false
/-- An `oput` into slot `o`, or an `oget` from it. -/
def Body.moves (o : OReg) : Body → Bool
  | .oput p => p == o
  | .oget p => p == o
  | _ => false
/-- A `biasupd` of slot `o`. -/
def Body.biases (o : OReg) : Body → Bool
  | .biasupd p _ => p == o
  | _ => false
/-- A `tkget`. -/
def Body.isTkget : Body → Bool
  | .tkget => true
  | _ => false

/-- One element of `oput` (R235). -/
def Run.stepOput (r : Run) (pos e : Nat) (m : Member) (o : OReg) : Option Run :=
  if !r.past pos (Body.moves o) (some e) then none else
  match r.srcs pos e m with
  | .wait => none
  | .short => some (r.shorten pos e)
  | g =>
      let r := r.guarded r.fab e
      if !r.active r.fab e then some (r.pass pos)
      else match g with
        | .val l =>
            let f := r.st.gm.fmtA
            let lo := if (r.s.slot r.s.myCx o.toNat).poison.isEmpty then e else r.runStart r.fab e
            some ((r.eff e fun s => s.putSlot o.toNat f e (arg l 0) lo).pass pos)
        | .bad c n => some (r.badRead pos e c n)
        | _ => none

/-- One element of `oget` (R235). -/
def Run.stepOget (r : Run) (pos e : Nat) (o : OReg) : Option Run :=
  if !r.past pos (Body.puts o) (some e) then none
  else
    let r := r.guarded r.fab e
    if !r.active r.fab e then some (r.push pos (0, 0))
    else
      let sl := r.s.slot r.s.myCx o.toNat
      if sl.marked r.st.gm.fmtA e then some (r.badRead pos e .poison)
      else some (r.push pos (slotGet sl.data r.st.gm.fmtA e, 0))

/-- A shadow element after a step of γ (R243); an overflow follows `gm`.sat (R103). -/
def biasStep (sat : Bool) (c t : Int) (gamma old : Nat) : Nat × Flags :=
  if c < t then opAdd .fp32 .fp32 { rneMode with sat := sat } old gamma
  else if t < c then opSub .fp32 .fp32 { rneMode with sat := sat } old gamma
  else (old, 0)

/-- One element of `biasupd` (R243): one that lies in a marked range of the shadow cannot be read (R316). -/
def Run.stepBias (r : Run) (pos e : Nat) (m : Member) (o : OReg) (gs : SReg) : Option Run :=
  if !r.past pos (Body.biases o) (some e) then none else
  match r.srcs pos e m, r.scalar pos gs with
  | .wait, _ => none
  | .short, _ => some (r.shorten pos e)
  | g, .val w =>
      let r := r.guarded r.fab e
      if !r.active r.fab e then some (r.pass pos)
      else match g with
        | .val l =>
            let c := r.st.gm.fmtA.int (arg l 0)
            let t := signedOf 32 (w.toNat / 2 ^ 32)
            let gamma := w.toNat % 2 ^ 32
            let sh := r.s.slot r.s.myCx o.toNat
            if (slotRanges .fp32 e).any sh.shadowPoison.contains then some (r.badRead pos e .poison)
            else
              let v := biasStep r.st.gm.sat c t gamma (slotGet sh.shadow .fp32 e)
              let r := r.eff e fun s =>
                let sl := s.slot s.myCx o.toNat
                s.setSlot s.myCx o.toNat { sl with shadow := slotPut sl.shadow .fp32 e v.1 }
              let p := r.prog pos
              some (r.setProg pos { p with
                flags := if v.2 = 0 then p.flags else (e, v.2) :: p.flags, done := p.done + 1 })
        | .bad c n => some (r.badRead pos e c n)
        | _ => none
  | _, _ => none

/-- One rank of `tkget` (R241). -/
def Run.stepTkget (r : Run) (pos e : Nat) : Option Run :=
  match r.s.me.epilogue with
  | none => none
  | some ep =>
      let v := ep.ranks.getD e (0, 0)
      let p := r.prog pos
      some (r.setProg pos { p with
        outs := match p.outs with
          | o :: q :: t => o.push v.1 :: q.push v.2 :: t
          | l => l
        done := p.done + 1 })

/-- The old accumulator element of row register `d` at column `j` (R237). -/
def Run.oldAcc (r : Run) (zero : Bool) (d : CReg × Nat) (j : Nat) : Got Nat :=
  if zero then .val 0 else r.oldElem d j

/-- Whether what column `j` uses has been written by the `oput` members before it, of both operands and of the bias that
an armed epilogue adds to it, and whether earlier `tkget` members have read the lists (R39). An `oput` writes at most `vl`
elements: of B by rows, those of its first row. -/
def Run.mmaReady (r : Run) (pos j : Nat) (a b : OReg) : Bool :=
  let g := (r.s.slot r.s.myCx b.toNat).geom
  let need := if geomColMajor g then j * geomRows g + geomRows g - 1 else j
  let bias := match r.s.me.epilogue with
    | some e => !e.biasen || r.past pos (Body.puts e.bslot) (some ((e.colbase.toNat + j) % 2 ^ 32))
    | none => true
  r.past pos (Body.puts a) none && r.past pos (Body.puts b) (some need) && r.past pos Body.isTkget none && bias

/-- One column of `mma` (R237): every row's element, fed to an armed epilogue. -/
def Run.stepMma (r : Run) (pos j : Nat) (m : Member) (zero : Bool) (a b : OReg) : Option Run :=
  if !r.mmaReady pos j a b then none else
  let g := r.st.gm
  let x := r.s.myCx
  let oa := r.s.slot x a.toNat
  let ob := r.s.slot x b.toNat
  let k := geomCols oa.geom
  let r := r.guarded 32 j
  let act := r.active 32 j
  match gotAll (m.dests.map fun d => r.oldAcc zero d j) with
  | .val olds =>
      let biasBad := match r.s.me.epilogue with
        | some ep => ep.biasMarked (r.s.slot x ep.bslot.toNat) j
        | none => false
      if act && (slotsMarked oa ob g.rows j k || biasBad) then some (r.badRead pos j .poison)
      else
        let res := (List.range g.rows).map fun i =>
          if act then kSum g.fmtA g.fmtB g.num (arg olds i) (slotPairs oa ob i j k) else (arg olds i, 0)
        let fl := res.foldl (fun f v => f ||| v.2) (0 : Flags)
        let vals := res.map (·.1)
        let r := if act && r.s.me.epilogue.isSome then
            r.eff j fun s =>
              match s.me.epilogue with
              | none => s
              | some ep =>
                  let bias := s.slot s.myCx ep.bslot.toNat
                  s.setMe { s.me with
                    epilogue := some ((List.range g.rows).foldl (fun ep i => ep.feed g.sat bias i j (arg vals i)) ep) }
          else r
        let p := r.prog pos
        some (r.setProg pos { p with
          outs := (p.outs.zip vals).map fun v => v.1.push v.2
          flags := if fl = 0 then p.flags else (j, fl) :: p.flags, done := p.done + 1 })
  | .bad c n => some (r.badRead pos j c n)
  | _ => none

/-! ### Mask instructions (R146) -/

/-- The result of a mask instruction on whole masks below `vlmax`. -/
def maskResult (op : MaskOp) (vl vlmax : Nat) (x y old : Mask) (sa sb : Word) : Option Mask × Option Word :=
  let win (n : Nat) : Mask := BitVec.ofNat 65536 (2 ^ n - 1)
  match op with
  | .two f => (some (mergeMask old (f x y) vlmax), none)
  | .inv => (some (mergeMask old (~~~x) vlmax), none)
  | .popc => (none, some (BitVec.ofNat 64 (popCount vl (x &&& win vl).toNat)))
  | .first =>
      let v := (x &&& win vl).toNat
      (none, some (if v = 0 then BitVec.allOnes 64 else BitVec.ofNat 64 (trailZeros vl v)))
  | .set _ _ =>
      let sh := 64 * sb.toNat
      if vlmax ≤ sh then (some old, none)
      else
        let fld : Mask := (win 64) <<< sh
        (some (mergeMask old ((old &&& ~~~fld) ||| ((sa.setWidth 65536) <<< sh)) vlmax), none)
  | .get _ =>
      let sh := 64 * sb.toNat
      (none, some (if vlmax ≤ sh then 0 else ((x &&& win vlmax) >>> sh).setWidth 64))

/-- A mask instruction performed whole. -/
def Run.stepMask (r : Run) (pos : Nat) (m : Member) (op : MaskOp) : Option Run :=
  let p := r.prog pos
  if r.skips pos m then some (r.setProg pos { p with begun := true, fin := true, n := some 0 })
  else
    let x := match m.mreads with | a :: _ => r.maskAll pos a | [] => .val 0
    let y := match m.mreads with | [_, b] => r.maskAll pos b | _ => .val 0
    let sa := match op with | .set a _ => r.scalar pos a | _ => .val 0
    let sb := match op with | .set _ b => r.scalar pos b | .get b => r.scalar pos b | _ => .val 0
    match x, y, sa, sb with
    | .val x, .val y, .val sa, .val sb =>
        let old := match m.mwrite with | some d => r.st.mask d | none => 0
        let v := maskResult op r.vl r.vlmax x y old sa sb
        some (r.setProg pos { p with begun := true, fin := true, n := some 0, mres := v.1, sres := v.2 })
    | _, _, _, _ => none

/-! ### Begin, element, finish -/

/-- The first failed read among the elements below `k` that destinations hold (R130, R316). -/
def Run.oldBad (r : Run) (m : Member) (k : Nat) : Option (Nat × Cause × Note) :=
  (List.range k).findSome? fun e => m.dests.findSome? fun d =>
    match r.oldElem d e with | .bad c n => some (e, c, n) | _ => none

/-- A member that has its element count: what stands below `vstart` is taken over (R130). Of `m7`, a bit below `vstart`
that lies at or above the count is 0: R170 would have it both 0 and kept (log 60). -/
def Run.opens (r : Run) (pos : Nat) (m : Member) (n : Nat) : Run :=
  let k := Nat.min r.vstart n
  let old := match m.mwrite with
    | some d => (List.range k).map (r.st.mask d).getLsbD
    | none => []
  let r := match r.oldBad m k with
    | some (e, c, note) => r.badRead pos e c note
    | none => r
  r.setProg pos { r.prog pos with
    begun := true, n := some n, done := k, outs := m.dests.map fun d => r.olds d k, bits := old.toArray }

/-- What an instruction on a slot traps on before its first element (R235, R243). -/
def Run.slotCheck (r : Run) (o : OReg) (code : Nat) (row : Bool) : Option Cause :=
  let sl := r.s.slot r.s.myCx o.toNat
  if !r.s.holds o.toNat then some .slot
  else if geomCode sl.geom != code || (row && geomRows sl.geom != 1) then some .geometry
  else none

/-- Elements of A that `vexpd` used below `vstart` (R145). -/
def Run.expanded (r : Run) (pos : Nat) (b : MReg) : Nat → Got Nat
  | 0 => .val 0
  | e + 1 =>
      match r.expanded pos b e with
      | .val k =>
          match r.maskBit pos b e with
          | .val t => .val (if t && r.active r.fab e then k + 1 else k)
          | _ => .wait
      | g => g

/-- The first step of a member: its count, and its checks before any element. -/
def Run.begins (r : Run) (pos : Nat) (m : Member) : Option Run :=
  let fail (c : Cause) : Option Run := some (r.hit pos 0 c (r.addr pos))
  let lens (n : Nat) (k : Nat → Option Run) : Option Run :=
    match r.minLen pos n m.bound with
    | .val n => k n
    | _ => none
  match m.body with
  | .mask op => r.stepMask pos m op
  | .red _ _ => lens r.vl fun n =>
      let gs := 4096 / r.fab
      let live := r.st.redlive.getLsbD pos
      some (r.setProg pos { r.prog pos with
        begun := true, n := some n, done := Nat.min (r.vstart / gs * gs) n
        part := if live then some ((Sparse.get 0 pos r.st.redpart).toNat % 2 ^ r.fab) else none })
  | .perm (.slide _) =>
      match r.minLen pos r.vl m.other with
      | .val n => some (r.opens pos m n)
      | _ => none
  | .perm (.expand b) =>
      match r.expanded pos b (Nat.min r.vstart r.vl) with
      | .val j =>
          let r := r.opens pos m r.vl
          some (r.setProg pos { r.prog pos with aux := j })
      | _ => none
  | .comp _ => lens r.vl fun n =>
      some (r.setProg pos { r.prog pos with begun := true, aux := n, outs := [#[]] })
  | .oput o =>
      match r.slotCheck o r.st.gm.fa.toNat false with
      | some c => fail c
      | none =>
          let g := (r.s.slot r.s.myCx o.toNat).geom
          lens (Nat.min r.vl (geomRows g * geomCols g)) fun n => some (r.opens pos m n)
  | .oget o =>
      match r.slotCheck o r.st.gm.fa.toNat false with
      | some c => fail c
      | none =>
          let g := (r.s.slot r.s.myCx o.toNat).geom
          some (r.opens pos m (Nat.min r.vl (geomRows g * geomCols g)))
  | .biasupd o _ =>
      match r.slotCheck o 14 true with
      | some c => fail c
      | none =>
          let sl := r.s.slot r.s.myCx o.toNat
          let first := (List.range pos).all fun q =>
            match r.ms[q]? with | some m => !Body.biases o m.body || (r.prog q).begun | none => true
          if !first then none else
          lens (Nat.min r.vl (geomCols sl.geom)) fun n =>
            let r := if r.vstart = 0 ∧ ¬ sl.pending then
                let take (s : State) : State :=
                  let sl := s.slot s.myCx o.toNat
                  s.setSlot s.myCx o.toNat { sl with shadow := sl.data, shadowPoison := sl.poison, pending := true }
                { r with s := take r.s, log := (none, take) :: r.log }
              else r
            some (r.opens pos m n)
  | .tkget =>
      match r.s.me.epilogue with
      | none => fail .mode
      | some ep => some (r.opens pos m (ep.rows * ep.k))
  | .mma _ a b =>
      match r.s.mmaCheck r.st.gm r.vl a b with
      | some c => fail c
      | none => some (r.opens pos m r.vl)
  | _ => lens r.vl fun n => some (r.opens pos m n)

/-- The last step of a member. The flags of a reduction's last combination, with the seed, belong to no element: they are
raised when the reduction completes, with its convoy (R106, R144, log 61). -/
def Run.finishes (r : Run) (pos : Nat) (m : Member) : Option Run :=
  let p := r.prog pos
  match m.body with
  | .red comb seed =>
      match r.scalar pos seed with
      | .val w =>
          let gs := 4096 / r.fab
          let p := if p.items.isEmpty then p else p.group comb (p.done - 1) gs
          let sd := w.toNat % 2 ^ r.fab
          let v : Nat × Flags := match p.part with | none => (sd, 0) | some x => comb x sd
          let f := r.st.gm.fmtA
          some (r.setProg pos { p with
            fin := true
            sres := some (if f.isSigned then wrap64 (signedOf f.bits v.1) else BitVec.ofNat 64 v.1)
            flags := if v.2 = 0 then p.flags else (65536, v.2) :: p.flags })
      | _ => none
  | .comp _ => some (r.setProg pos { p with fin := true, n := some (p.outs.headD #[]).size })
  | _ => some (r.setProg pos { p with fin := true })

/-- One element of a member. -/
def Run.element (r : Run) (pos e : Nat) (m : Member) : Option Run :=
  match m.body with
  | .map op scal sel mrg => r.stepMap pos e m op scal sel mrg
  | .cmp op scal => r.stepCmp pos e m op scal
  | .red comb _ => r.stepRed pos e m comb
  | .perm p => r.stepPerm pos e m p
  | .comp b => r.stepComp pos e m b
  | .load at_ base kind => r.stepLoad pos e m at_ base kind
  | .store at_ base common => r.stepStore pos e m at_ base common
  | .vamo op o sc base => r.stepVamo pos e m op o sc base
  | .oput o => r.stepOput pos e m o
  | .oget o => r.stepOget pos e o
  | .biasupd o g => r.stepBias pos e m o g
  | .tkget => r.stepTkget pos e
  | .mma zero a b => r.stepMma pos e m zero a b
  | .mask _ | .bswalk .. | .citp _ | .vbr .. | .vjoin _ => none

/-- Elements a member has to handle: the source count of `vcomp`. -/
def Run.limit (r : Run) (pos : Nat) (m : Member) : Nat :=
  if m.isComp then (r.prog pos).aux else (r.prog pos).n.getD 0

/-- One step of member `pos`: none when it must wait. -/
def Run.step (r : Run) (pos : Nat) : Option Run :=
  match r.ms[pos]? with
  | none => none
  | some m =>
      let p := r.prog pos
      if !p.begun then r.begins pos m
      else if p.done < r.limit pos m then r.element pos p.done m
      else r.finishes pos m

/-- Insert a member in the order of element, then position. -/
def insKey (x : Nat × Nat) : List (Nat × Nat) → List (Nat × Nat)
  | [] => [x]
  | y :: t => if x.1 < y.1 || (x.1 == y.1 && decide (x.2 < y.2)) then x :: y :: t else y :: insKey x t

/-- Unfinished members that may still advance: those below the fault to report (R291). -/
def Run.cands (r : Run) : List (Nat × Nat) :=
  (List.range r.ms.length).foldl (fun l q =>
    match r.ms[q]? with
    | none => l
    | some m =>
        let k := (r.prog q).done
        if (r.prog q).fin || m.last then l
        else match r.best with
          | some b => if k < b.e || (k == b.e && decide (q < b.pos)) then insKey (k, q) l else l
          | none => insKey (k, q) l) []

/-- Whether member `q` accesses memory. -/
def Run.accesses (r : Run) (q : Nat) : Bool := match r.ms[q]? with | some m => decide (0 < m.loads + m.stores) | none => false

/-- The first of the candidates that can advance: behind a memory member that must wait (`held`), no other one is
performed (R167). -/
def Run.inOrder (r : Run) : Bool → List (Nat × Nat) → Option Run
  | _, [] => none
  | held, (_, q) :: t =>
      if held && r.accesses q then r.inOrder true t
      else match r.step q with
        | some r' => some r'
        | none => r.inOrder (held || r.accesses q) t

/-- The position of the memory member that holds the others up. -/
def Run.holder (r : Run) (l : List (Nat × Nat)) : Nat :=
  match l.find? fun k => r.accesses k.2 && (r.step k.2).isNone with | some k => k.2 | none => r.ms.length

/-- The member that advances: in the order of R167. A memory member may wait for what earlier members make of later
elements, of which other memory accesses are part: these then come first (log 62). -/
def Run.pick (r : Run) (l : List (Nat × Nat)) : Option Run :=
  match r.inOrder false l with
  | some r' => some r'
  | none => match (l.filter fun k => decide (k.2 < r.holder l)).findSome? fun k => r.step k.2 with
    | some r' => some r'
    | none => l.findSome? fun k => r.step k.2

/-- Steps until no member can advance. -/
def Run.loop : Nat → Run → Run
  | 0, r => r
  | fuel + 1, r =>
      if r.cell then r
      else match r.pick r.cands with
        | none => r
        | some r' => Run.loop fuel r'

/-- Steps that a convoy can take: each member begins, handles its elements and finishes. -/
def Run.fuel (r : Run) : Nat := r.ms.length * (Nat.max r.vl 1024 + 3)

end Sys2Proof.Machine
end

