-- ==== Sys2Proof/Machine/Walk.lean ====
section
/-! DEFINITION. The block-sparse walker (R245-R249): its issue checks, its entries, and its walk. -/

namespace Sys2Proof.Machine

/-- What a walk works on: the B slot, the table, the destination pattern block, `gm`, `vl`. -/
structure Walk where
  o     : OReg
  table : Nat
  block : Block
  g     : Gm
  vl    : Nat
  addr  : Word
  deriving DecidableEq, Repr

/-- Accumulator rows: 32 rows of `vl` patterns. -/
abbrev Rows := List (List Nat)

/-- Rows of zeros. -/
def zeroRows (vl : Nat) : Rows := List.replicate 32 (List.replicate vl 0)

/-- How a walk ends. -/
inductive WalkEnd where
  /-- The entry with end set has been applied: the last row block written. -/
  | done (t : Nat) (last : Rows) (s : State) (fl : Flags)
  /-- An interruption at walk step `v` in entry `t`, with the rows of R249. -/
  | stop (v t : Nat) (c : Cause) (eval : Word) (note : Note) (rows : Rows) (s : State) (fl : Flags)
  | cell

/-- Order 6 of R246: a defect of the destination pattern block. -/
def Block.walkDefect (b : Block) (acc : Fmt) : Bool :=
  b.kind != 0 || bitsOf (b.d 7) 23 21 != 1 || b.d 4 != 0 || b.d 5 != 0 || b.d 6 != 0
  || bitsOf (b.d 7) 3 0 != 0 || decide (4 < bitsOf (b.d 7) 8 6)
  || match Fmt.ofCode b.fmtCode with
    | some f => decide (f.bits < 8) || f.isInt != acc.isInt
    | none => true

/-- The first failed read among the elements of c0-c31 that a resumed walk takes over (R123, R316). -/
def State.rowsBad (s : State) (vl : Nat) : Option (Cause × Note) :=
  (List.range 32).findSome? fun i =>
    let c := (s.me.chain (BitVec.ofNat 5 i)).segs
    (List.range (Nat.min vl (segsLen c / 4))).findSome? fun j =>
      match s.chainElem s.myCx c (.n 32) j with | .bad c n => some (c, n) | _ => none

/-- The doublewords of the destination pattern block that the walker reads, D0 and D2-D7 (R246); D1 stands as zero. -/
def State.readWalkBlock (s : State) (va : Word) : Except Stop (Block × State) :=
  if va.toNat % 64 ≠ 0 then .error (.trap .misaligned va {})
  else match s.readPieces s.myAccess va.toNat ((pieces 64).filter fun x => x.1 != 8) with
    | .error (.trap c _ n) => .error (.trap c va n)
    | .error e => .error e
    | .ok (bs, s') => .ok ((dwords bs).take 1 ++ 0 :: (dwords bs).drop 1, s')

/-- The issue checks of R246, made when the convoy opens with `vstart` = 0; a resumed walk reads the
pattern block again, and the chains that it goes on from (R247). -/
def State.walkOpen (s : State) (st : Strand) (o : OReg) (table block addr : Word) : Except Stop (Walk × State) :=
  let g := st.gm
  let first := st.vstart = 0
  let bad (c : Cause) (v : Word) : Except Stop (Walk × State) := .error (.trap c v {})
  let held := (List.range 3).all fun i => s.holds (o.toNat + i)
  let sl := s.slot s.myCx o.toNat
  if first ∧ table.toNat % 16 ≠ 0 then bad .misaligned table
  else match s.readWalkBlock block with
    | .error e => .error e
    | .ok (b, s1) =>
        if first ∧ ¬ held then bad .slot addr
        else if first ∧ (geomCode sl.geom ≠ g.fb.toNat ∨ geomCols sl.geom < st.vl.toNat) then bad .geometry addr
        else if first ∧ b.walkDefect (accFmt g.fmtA g.fmtB) then bad .copy block
        else match if first then none else s1.rowsBad st.vl.toNat with
          | some (c, n) => .error (.trap c addr n)
          | none => .ok ({ o := o, table := table.toNat, block := b, g := g, vl := st.vl.toNat, addr := addr }, s1)

/-- An entry read: its first doubleword and its tile, or the cause and `eval` of R248. -/
def State.walkEntry (s : State) (w : Walk) (t : Nat) : Except Miss ((Nat × Nat) × State) :=
  let va := w.table + 16 * t
  match s.checkAt s.myAccess va 16 true false false with
  | .bad c n => .error (.bad c va n)
  | .cell => .error .cell
  | .ok p =>
      let r := s.load s.myAccess p 16
      .ok ((leNat (r.1.take 8), leNat (r.1.drop 8)), r.2)

/-- Fields of an entry's first doubleword (R245). -/
def entryEnd (d : Nat) : Bool := bitOf d 34
/-- The row block has no tile. -/
def entryEmpty (d : Nat) : Bool := bitOf d 33
/-- Last entry of its row block. -/
def entryLast (d : Nat) : Bool := bitOf d 32
/-- Column block. -/
def entryCblk (d : Nat) : Nat := bitsOf d 31 16
/-- Row block. -/
def entryRblk (d : Nat) : Nat := bitsOf d 15 0

/-- Order 2 of R248: a defect of an entry; `rows` are those of the B slot. -/
def entryDefect (d tile rows : Nat) : Bool :=
  d / 2 ^ 35 != 0 || (entryEmpty d && (!entryLast d || tile != 0)) || (entryEnd d && !entryLast d)
  || (!entryEmpty d && (tile % 64 != 0 || decide (rows < 32 * entryCblk d + 32)))

/-- Elements of a tile (R245), as a unit-stride load reads them. -/
def State.walkTile (s : State) (w : Walk) (tile pf : Nat) : Nat → Except Miss (List Nat × State)
  | 0 => .ok ([], s)
  | n + 1 =>
      match s.walkTile w tile pf n with
      | .error e => .error e
      | .ok (l, s') =>
          let f := w.g.fmtA
          let u := unitAddr f tile pf n
          match s'.spot s'.myAccess ((f.bits + 7) / 8) u.1 true false false (some pf) with
          | .error e => .error e
          | .ok sp =>
              let r := s'.readSpot s'.myAccess f w.g.num u.2 sp
              .ok (l ++ [r.1.1], r.2)

/-- A tile applied to the accumulator: one K-group for each element (R247). -/
def State.walkApply (s : State) (w : Walk) (cblk : Nat) (tile : List Nat) (acc : Rows) : Rows × Flags :=
  let sl := s.slot s.myCx w.o.toNat
  let cols := (List.range w.vl).map fun j =>
    (List.range 32).map fun k => slotGet sl.data (geomFmt sl.geom) (geomIndex sl.geom (32 * cblk + k) j)
  let rows := chunksOf 32 tile.length tile
  (acc.zip rows).foldr (fun ar out =>
    let line := (ar.1.zip cols).map fun xc => kSum w.g.fmtA w.g.fmtB w.g.num xc.1 (ar.2.zip xc.2)
    (line.map (·.1) :: out.1, line.foldl (fun f v => f ||| v.2) out.2)) ([], 0)

/-- Whether a tile's columns read a marked range of the B slot (R316). -/
def State.walkMarked (s : State) (w : Walk) (cblk : Nat) : Bool :=
  let sl := s.slot s.myCx w.o.toNat
  !sl.poison.isEmpty && (List.range w.vl).any fun j =>
    (List.range 32).any fun k => sl.marked (geomFmt sl.geom) (geomIndex sl.geom (32 * cblk + k) j)

/-- WriteBlock's elements (R247), in order, until one fails a check. R162 names no walk among what reaches a stored-format
page: an element on one is encoded under the block's mode as a copy's is (R177), and no flag is raised for that second
conversion (log 79). -/
def State.walkWrite (s : State) (w : Walk) (rblk : Nat) : List ((Nat × Nat) × Nat) → Option Miss × State × Flags
  | [] => (none, s, 0)
  | ((i, j), v) :: t =>
      let b := w.block
      let va : Int := b.base + (b.start 0 + j) * b.stride 0 + (b.start 1 + (32 * rblk + i : Nat)) * b.stride 1
      if !b.inWindow va then s.walkWrite w rblk t
      else match s.spot s.myAccess b.size va false true false none with
        | .error e => (some e, s, 0)
        | .ok sp =>
            let c := opCvt (accFmt w.g.fmtA w.g.fmtB) b.fmt b.num v
            let r := s.writeSpot s.myAccess b.fmt b.num 0 false c.1 sp
            let q := r.2.walkWrite w rblk t
            (q.1, q.2.1, q.2.2 ||| c.2)

/-- The elements of a row block in the order of R247. -/
def rowElems (acc : Rows) : List ((Nat × Nat) × Nat) :=
  (List.range acc.length).flatMap fun i =>
    let line := acc.getD i []
    (List.range line.length).map fun j => ((i, j), line.getD j 0)

/-- A failed access of the walk, in `step` of entry `t`. -/
def walkMiss (v t : Nat) (m : Miss) (rows : Rows) (s : State) (fl : Flags) : WalkEnd :=
  match m with
  | .bad c va n => .stop v t c (BitVec.ofInt 64 va) n rows s fl
  | .cell => .cell

/-- The walk from entry `t` (R247, R248). A block write that fails keeps the flags of the elements written before the
failing one: R106 does not say whether they belong to a completed step (log 63). `pre` is the step at which a pre-emption is taken. A table
without an end runs past the last address before the fuel of the caller is spent. -/
def State.walkFrom (w : Walk) (pre : Option Nat) : Nat → State → Nat → Rows → Rows → Bool → Flags → WalkEnd
  | 0, s, t, _, last, _, fl => .done t last s fl
  | fuel + 1, s, t, acc, last, rowstart, fl =>
      let rows := if rowstart then last else acc
      if (match pre with | some v => decide (v ≤ 2 * t) | none => false) then
        .stop (2 * t) t .preemption 0 {} rows s fl
      else match s.walkEntry w t with
        | .error m => walkMiss (2 * t) t m rows s fl
        | .ok ((d, tile), s1) =>
            let va := BitVec.ofNat 64 (w.table + 16 * t)
            let bRows := geomRows (s.slot s.myCx w.o.toNat).geom
            if entryDefect d tile bRows then .stop (2 * t) t .topology va {} rows s1 fl
            else
              let applied : Except WalkEnd (Rows × State × Flags) :=
                if entryEmpty d then .ok (zeroRows w.vl, s1, 0)
                else match s1.walkTile w tile (s1.formatAt s1.myAccess tile) 1024 with
                  | .error m => .error (walkMiss (2 * t) t m rows s1 fl)
                  | .ok (el, s2) =>
                      if s2.walkMarked w (entryCblk d) then .error (.stop (2 * t) t .poison w.addr {} rows s2 fl)
                      else
                        let a := s2.walkApply w (entryCblk d) el acc
                        .ok (a.1, s2, a.2)
              match applied with
              | .error e => e
              | .ok (acc, s2, f) =>
                  let fl := fl ||| f
                  if !entryLast d then
                    State.walkFrom w pre fuel s2 (t + 1) acc last false fl
                  else if pre = some (2 * t + 1) then .stop (2 * t + 1) t .preemption 0 {} acc s2 fl
                  else
                    let b := s2.walkWrite w (entryRblk d) (rowElems acc)
                    let fl := fl ||| b.2.2
                    match b.1 with
                    | some m => walkMiss (2 * t + 1) t m acc b.2.1 fl
                    | none =>
                        if entryEnd d then .done t acc b.2.1 fl
                        else State.walkFrom w pre fuel b.2.1 (t + 1) (zeroRows w.vl) acc true fl

/-- Entries that fit below the last address (R151). -/
def walkFuel : Nat := 2 ^ 54

/-- Row registers c0-c31 as accumulator rows: what a register lacks is zero (R130). -/
def State.walkRows (s : State) (vl : Nat) : Rows :=
  (List.range 32).map fun i =>
    let c := (s.me.chain (BitVec.ofNat 5 i)).segs
    let k := Nat.min vl (segsLen c / 4)
    unpack 32 (s.segBytes s.myCx (segsTake (4 * k) c)) k ++ List.replicate (vl - k) 0

/-- The entry that a walk resumed at an odd step reads again, with the checks of R248 (R247): its first doubleword, or
the cause, `eval` and note of a failure. -/
def State.walkAgain (s : State) (w : Walk) (t : Nat) : Except Stop (Nat × State) :=
  let stop (m : Miss) : Except Stop (Nat × State) := match m with
    | .bad c va n => .error (.trap c (BitVec.ofInt 64 va) n)
    | .cell => .error .cell
  match s.walkEntry w t with
  | .error m => stop m
  | .ok ((d, tile), s1) =>
      if entryDefect d tile (geomRows (s.slot s.myCx w.o.toNat).geom) then
        .error (.trap .topology (BitVec.ofNat 64 (w.table + 16 * t)) {})
      else if entryEmpty d then .ok (d, s1)
      else match s1.walkTile w tile (s1.formatAt s1.myAccess tile) 1024 with
        | .error m => stop m
        | .ok (_, s2) => .ok (d, s2)

/-- The walk of an opened `bswalk` from its `vstart` (R247). A failure of the entry that is read again at an odd step
leaves `vstart` at 2t, as R248 says, while c0-c31 hold what R249 gives the odd step (log 56). At an even step, the entry
below it is read for its lastrow alone: a failed read of it is one of the step, and no defect of it is looked for
(log 64). -/
def State.walkRun (s : State) (w : Walk) (vstart : Nat) (pre : Option Nat) : WalkEnd :=
  let cur := s.walkRows w.vl
  let t := vstart / 2
  if vstart % 2 = 1 then
    if pre = some vstart then .stop vstart t .preemption 0 {} cur s 0
    else match s.walkAgain w t with
      | .error (.trap c v n) => .stop (2 * t) t c v n cur s 0
      | .error _ => .cell
      | .ok (d, s1) =>
          let b := s1.walkWrite w (entryRblk d) (rowElems cur)
          match b.1 with
          | some m => walkMiss vstart t m cur b.2.1 b.2.2
          | none =>
              if entryEnd d then .done t cur b.2.1 b.2.2
              else State.walkFrom w pre walkFuel b.2.1 (t + 1) (zeroRows w.vl) cur true b.2.2
  else if t = 0 then State.walkFrom w pre walkFuel s 0 (zeroRows w.vl) cur true 0
  else match s.walkEntry w (t - 1) with
    | .error m => walkMiss vstart t m cur s 0
    | .ok ((d, _), s1) =>
        State.walkFrom w pre walkFuel s1 t (if entryLast d then zeroRows w.vl else cur) cur (entryLast d) 0

/-- The bytes of the staging slots after a walk are unspecified (R246, log 2): they have been written, so no marker is
left (R234, R316). -/
def State.walkStaged (s : State) (o : OReg) : State :=
  let junk (s : State) (k : Nat) : State :=
    let data := (List.range 32768).filterMap fun i =>
      let b : Byte := (Config.freeValue (s.freeCount + i)).setWidth 8
      if b = 0 then none else some (i, b)
    let sl := s.slot s.myCx k
    { s.setSlot s.myCx k { sl with data := data, poison := [] } with freeCount := s.freeCount + 32768 }
  junk (junk s (o.toNat + 1)) (o.toNat + 2)

end Sys2Proof.Machine
end

