-- ==== Sys2Proof/Machine/Convoy.lean ====
section
/-! DEFINITION. Convoys (R37, R63-R65, R86, R87, R130-R133, R288-R292): gathering and decode checks, the
pops of stream operands, allocation, the precise point, and what a convoy leaves when it closes or is
interrupted. -/

namespace Sys2Proof.Machine

/-- A convoy-class instruction as a member under `g` (R63): none for a scalar-class one. -/
def memberOf (g : Gm) : Instr → Option Member
  | .vadd d a b x => some (memberVadd d a b x g)
  | .vsub d a b x => some (memberVsub d a b x g)
  | .vmul d a b x => some (memberVmul d a b x g)
  | .vfma d a b x => some (memberVfma d a b x g)
  | .vfms d a b x => some (memberVfms d a b x g)
  | .vdiv d a b x => some (memberVdiv d a b x g)
  | .vmin d a b x => some (memberVmin d a b x g)
  | .vmax d a b x => some (memberVmax d a b x g)
  | .vand d a b x => some (memberVand d a b x g)
  | .vor d a b x => some (memberVor d a b x g)
  | .vxor d a b x => some (memberVxor d a b x g)
  | .vshl d a b x => some (memberVshl d a b x g)
  | .vshr d a b x => some (memberVshr d a b x g)
  | .vsra d a b x => some (memberVsra d a b x g)
  | .vfsh d a b x => some (memberVfsh d a b x g)
  | .vbext d a b x => some (memberVbext d a b x g)
  | .vabs d a x => some (memberVabs d a x g)
  | .vneg d a x => some (memberVneg d a x g)
  | .vpopc d a x => some (memberVpopc d a x g)
  | .vclz d a x => some (memberVclz d a x g)
  | .vsel d a b n x => some (memberVsel d a b n x g)
  | .vaddScalar d a b x => some (memberVaddScalar d a b x g)
  | .vsubScalar d a b x => some (memberVsubScalar d a b x g)
  | .vmulScalar d a b x => some (memberVmulScalar d a b x g)
  | .vfmaScalar d a b x => some (memberVfmaScalar d a b x g)
  | .vfmsScalar d a b x => some (memberVfmsScalar d a b x g)
  | .vdivScalar d a b x => some (memberVdivScalar d a b x g)
  | .vminScalar d a b x => some (memberVminScalar d a b x g)
  | .vmaxScalar d a b x => some (memberVmaxScalar d a b x g)
  | .vandScalar d a b x => some (memberVandScalar d a b x g)
  | .vorScalar d a b x => some (memberVorScalar d a b x g)
  | .vxorScalar d a b x => some (memberVxorScalar d a b x g)
  | .vshlScalar d a b x => some (memberVshlScalar d a b x g)
  | .vshrScalar d a b x => some (memberVshrScalar d a b x g)
  | .vsraScalar d a b x => some (memberVsraScalar d a b x g)
  | .vfshScalar d a b x => some (memberVfshScalar d a b x g)
  | .vbextScalar d a b x => some (memberVbextScalar d a b x g)
  | .vselScalar d a b n x => some (memberVselScalar d a b n x g)
  | .vcmp d a b c => some (memberVcmp d a b c g)
  | .vcmpScalar d a b c => some (memberVcmpScalar d a b c g)
  | .vredsum d a b => some (memberVredsum d a b g)
  | .vredmax d a b => some (memberVredmax d a b g)
  | .vredmin d a b => some (memberVredmin d a b g)
  | .vcvt d a x => some (memberVcvt d a x g)
  | .vcvtSat d a x => some (memberVcvtSat d a x g)
  | .vexp2 d a x => some (memberVexp2 d a x g)
  | .vrcp d a x => some (memberVrcp d a x g)
  | .vsqrt d a x => some (memberVsqrt d a x g)
  | .vidx d x => some (memberVidx d x g)
  | .vmv d a x => some (memberVmv d a x g)
  | .vmvScalar d a x => some (memberVmvScalar d a x g)
  | .vperm d a b => some (memberVperm d a b g)
  | .vcomp d a b => some (memberVcomp d a b g)
  | .vexpd d a b => some (memberVexpd d a b g)
  | .vslide d a b => some (memberVslide d a b g)
  | .mand d a b => some (memberMand d a b)
  | .mor d a b => some (memberMor d a b)
  | .mxor d a b => some (memberMxor d a b)
  | .mnot d a => some (memberMnot d a)
  | .mpopc d a => some (memberMpopc d a)
  | .mfirst d a => some (memberMfirst d a)
  | .mset d a b => some (memberMset d a b)
  | .mget d a b => some (memberMget d a b)
  | .vbr a o => some (memberVbr a o)
  | .vjoin o => some (memberVjoin o)
  | .vld d a => some (memberVld d a g)
  | .vlds d a b => some (memberVlds d a b g)
  | .vldx d a b => some (memberVldx d a b g)
  | .vldff d a => some (memberVldff d a g)
  | .vldk d a b => some (memberVldk d a b g)
  | .vst d a => some (memberVst d a g)
  | .vsts d a b => some (memberVsts d a b g)
  | .vstx d a b => some (memberVstx d a b g)
  | .vamo d a b p o s => some (memberVamo d a b p o s g)
  | .oput d a => some (memberOput d a g)
  | .oget d a => some (memberOget d a g)
  | .mma d a b => some (memberMma d a b g)
  | .mmaz d a b => some (memberMmaz d a b g)
  | .bswalk d a b => some (memberBswalk d a b g)
  | .biasupd d a b => some (memberBiasupd d a b g)
  | .tkget d a => some (memberTkget d a)
  | .citp a b => some (memberCitp a b g)
  | .vstcm d a => some (memberVstcm d a g)
  | .vldt d a b => some (memberVldt d a b g)  | _ => none

/-- Whether a word that decodes to no instruction belongs to the convoy-class codes (R63). -/
def convoyWord (w : Nat) : Bool :=
  let maj := bitsOf w 31 26
  let mn := bitsOf w 7 0
  (decide (0x20 ≤ maj) && decide (maj ≤ 0x28)) || maj == 0x2B || maj == 0x2C || maj == 0x31
  || (maj == 0x32 && decide (2 ≤ mn) && decide (mn ≤ 7)) || (maj == 0x33 && mn == 2)
  || (maj == 0x34 && (mn == 8 || mn == 0x14)) || (maj == 0x35 && mn == 8)

/-- What decoding finds at a member's place. -/
inductive Fetched where
  | ok (m : Member)
  | bad (c : Cause) (n : Note)

/-- The words from `va` up to the convoy's closing point (R63, R65). -/
def State.gatherWords (s : State) (g : Gm) : Nat → Word → List (Word × Fetched)
  | 0, _ => []
  | n + 1, va =>
      match s.fetch s.cur va.toNat with
      | .error e => [(va, .bad e.1 e.2)]
      | .ok w =>
          match decodeWord w with
          | .ok i =>
              match memberOf g i with
              | none => []
              | some m => (va, .ok m) :: if m.closes then [] else s.gatherWords g n (va + 4)
          | .error .unassigned => if convoyWord w.toNat then [(va, .bad .unassigned {})] else []
          | .error _ => if convoyWord w.toNat then [(va, .bad .reserved {})] else []

/-! ### Decode checks (R64, R65) -/

/-- What the members examined so far read and write. -/
structure Scan where
  ms      : List Member := []
  reads   : List CReg := []
  writes  : List CReg := []
  mreads  : List MReg := []
  mwrites : List MReg := []
  loads   : Nat := 0
  stores  : Nat := 0
  /-- Stream registers read, with the position of the first reader. -/
  streams : List (CReg × Nat) := []

/-- No element twice. -/
def twice : List CReg → Bool
  | [] => false
  | c :: t => t.contains c || twice t

/-- Stream registers that member `m` adds. -/
def Scan.fresh (sc : Scan) (st : Strand) (m : Member) : List CReg :=
  (m.reads.filter fun c => st.streamed c && !sc.streams.any fun x => x.1 == c).eraseDups

/-- Whether member `m` breaks a limit of R64 or a rule of its own (R145, R170, R241, R266). -/
def Scan.breaks (sc : Scan) (st : Strand) (m : Member) : Bool :=
  let g := st.gm
  decide (8 ≤ sc.ms.length) || sc.ms.any Member.isCitp
  || decide (2 < sc.loads + m.loads + sc.streams.length + (sc.fresh st m).length)
  || decide (1 < sc.stores + m.stores)
  || twice m.writes || m.writes.any sc.writes.contains || m.writes.any sc.reads.contains
  || (match m.mwrite with
      | some d => sc.mwrites.contains d || sc.mreads.contains d || (!g.gk && g.guard == d)
      | none => false)
  || m.clash

/-- The first defect of member `m` in the order of R65. -/
def Scan.defect (sc : Scan) (st : Strand) (m : Member) : Option Cause :=
  if !m.fits then some .mode
  else if m.writes.any st.streamed then some .stream
  else if sc.breaks st m then some .convoy
  else none

/-- Member `m` examined. -/
def Scan.add (sc : Scan) (st : Strand) (m : Member) : Scan :=
  { ms := sc.ms ++ [m], reads := sc.reads ++ m.reads, writes := sc.writes ++ m.writes
    mreads := sc.mreads ++ m.mreads, mwrites := sc.mwrites ++ m.mwrite.toList
    loads := sc.loads + m.loads, stores := sc.stores + m.stores
    streams := sc.streams ++ (sc.fresh st m).map fun c => (c, sc.ms.length) }

/-- The members examined in order: the first defect, or all of them. -/
def Scan.run (st : Strand) : Scan → List (Word × Fetched) → Except (Word × Cause × Note) Scan
  | sc, [] => .ok sc
  | _, (va, .bad c n) :: _ => .error (va, c, n)
  | sc, (va, .ok m) :: t =>
      match sc.defect st m with
      | some c => .error (va, c, {})
      | none => Scan.run st (sc.add st m) t

/-! ### The pops of stream operands (R185, R186) -/

/-- What the pops leave: the state and the faults of undelivered elements, or a wait for a buffer. -/
inductive Popped where
  | ok (s : State) (hits : List Hit)
  | wait (far : Bool)

/-- Pop every stream operand of the convoy. -/
def State.pops (s : State) (fails : Bool) (addrs : List Word) : List (CReg × Nat) → List Hit → Popped
  | [], h => .ok s h
  | (c, pos) :: t, h =>
      match s.popStrip c fails with
      | (none, s') => s'.pops fails addrs t h
      | (some (.wait far), _) => .wait far
      | (some (.bad e cause eval), s') =>
          let eval := if cause = .spine then addrs.getD pos 0 else eval
          s'.pops fails addrs t (h ++ [{ e := e, pos := pos, at_ := e, cause := cause, eval := eval }])

/-! ### Allocation of the results (R120, R131, R299) -/

/-- A buffer needed: at element `e` of the `k`-th result of member `pos`, its `i`-th. -/
structure Need where
  e   : Nat
  pos : Nat
  k   : Nat
  i   : Nat
  deriving DecidableEq, Repr

/-- `a` is needed before `b`. -/
def Need.before (a b : Need) : Bool :=
  a.e < b.e || (a.e == b.e && (a.pos < b.pos || (a.pos == b.pos && decide (a.k < b.k))))

/-- Insert a need in order. -/
def insNeed (x : Need) : List Need → List Need
  | [] => [x]
  | y :: t => if x.before y then x :: y :: t else y :: insNeed x t

/-- Merge two ordered lists of needs, the first list first among equals. -/
def mergeNeeds (a b : List Need) : List Need := b.foldl (fun l x => insNeed x l) a

/-- Buffers of `b` bytes that `n` elements of `w` bits need. -/
def buffersOf (b w n : Nat) : Nat := ((n * w + 7) / 8 + b - 1) / b

/-- Elements in a group of the convoy: 512 ÷ W (R289). -/
def Run.gran (r : Run) : Nat :=
  let w := (r.ms.flatMap Member.counts).foldl Nat.max 0
  4096 / (if w = 0 then r.fab else w)

/-- Whether the convoy holds `vcomp` together with another member (R292). -/
def Run.whole (r : Run) : Bool := r.ms.any Member.isComp && decide (1 < r.ms.length)

/-- The element after the group that holds element `e`. -/
def Run.groupEnd (r : Run) (e : Nat) : Nat := (e / r.gran + 1) * r.gran

/-- The first fault found at home slices, of those of one element the one found first (R166), unless a fault keeps its group from being completed (R290, R292). -/
def Run.lateHit (r : Run) : Option Hit :=
  let first := r.late.foldr (fun h b => match b with
    | some x => if h.before x then some h else some x
    | none => some h) (none : Option Hit)
  match first, r.best with
  | some h, some b => if r.whole || decide (b.e < r.groupEnd h.e) then none else some h
  | h, _ => h

/-- The fault that is reported (R290, R291). -/
def Run.judged (r : Run) : Option Hit :=
  match r.lateHit with | some h => some h | none => r.best

/-- Whether what member `pos` makes of element `e` is completed before the fault that is reported is found. -/
def Run.within (r : Run) (e pos : Nat) : Bool :=
  match r.lateHit with
  | some h => r.whole || decide (e < r.groupEnd h.e)
  | none => match r.best with
    | some b => decide (e < b.e) || (e == b.e && decide (pos < b.pos))
    | none => true

/-- The buffers that the computed results need, in ascending element order (R299), up to the fault. -/
def Run.needs (r : Run) (size : Nat) : List Need :=
  (List.range r.ms.length).foldl (fun l pos =>
    match r.ms[pos]? with
    | none => l
    | some m =>
        if m.last then l
        else (List.range m.dests.length).foldl (fun l k =>
          let w := (m.dests.getD k (0, 8)).2
          let n := ((r.prog pos).outs.getD k #[]).size
          let mine := (List.range (Nat.min (buffersOf size w n) 33)).map fun i =>
            ({ e := i * size * 8 / w, pos := pos, k := k, i := i } : Need)
          mergeNeeds l (mine.filter fun x => r.within x.e x.pos)) l) []

/-- A buffer granted to a result. -/
structure Grant where
  pos : Nat
  k   : Nat
  id  : Nat
  deriving DecidableEq, Repr

/-- What allocation ends with: all buffers, a fault, or a wait. -/
inductive Alloced where
  | ok (s : State) (l : List Grant) (h : Option Hit)
  | wait

/-- Allocate in order, `room` buffers at most; `fails`: a buffer has been waited for past the limit. -/
def State.grants (s : State) (x : Nat) (far fails : Bool) (addrs : List Word) :
    (room : Nat) → List Need → List Grant → Alloced
  | _, [], l => .ok s l none
  | room, n :: t, l =>
      let hit (c : Cause) (v : Word) : Alloced := .ok s l (some { e := n.e, pos := n.pos, at_ := n.e, cause := c, eval := v })
      if 32 ≤ n.i then hit .spine (addrs.getD n.pos 0)
      else if !(s.pool x far).enable then hit .pool (noBufferEval far .disabled)
      else match room, s.alloc x far with
        | room + 1, .ok (id, s') => s'.grants x far fails addrs room t (l ++ [{ pos := n.pos, k := n.k, id := id }])
        | _, _ => if fails then hit .pool (noBufferEval far .empty) else .wait

/-- Allocate the results of a run. -/
def Run.allocate (r : Run) (s : State) (fails : Bool) : Alloced :=
  let x := s.myCx
  let far := r.st.farPool
  s.grants x far fails r.addrs (s.room x far) (r.needs (s.pool x far).size) []

/-! ### The precise point (R133, R238, R289, R292) -/

/-- Whether an interrupted destination keeps a share of its prior chain (R133, R238). -/
def Member.keepsPrior (m : Member) : Bool := m.readsOld || match m.body with | .mma .. => true | _ => false

/-- Whether the interim chains at `v` fit 32 segments (R133): a member of fewer elements has that many. -/
def Run.fits (r : Run) (size v : Nat) : Bool :=
  (List.range r.ms.length).all fun q => match r.ms[q]? with
    | none => true
    | some m => m.last || m.dests.all fun d =>
        let share := if m.keepsPrior then (segsDrop ((v * d.2 + 7) / 8) (r.st.chain d.1).segs).length else 0
        decide (buffersOf size d.2 (Nat.min v ((r.prog q).n.getD v)) + share ≤ 32)

/-- Lower `v` to the highest boundary at which they fit; `fuel` counts the boundaries. -/
def Run.lower (r : Run) (size g : Nat) : Nat → Nat → Nat
  | 0, _ => 0
  | fuel + 1, v => if v = 0 then 0 else if r.fits size v then v else r.lower size g fuel (v - g)

/-- Whether member `q` has completed all its elements: a reduction may still wait for its seed. -/
def Run.complete (r : Run) (q : Nat) (m : Member) : Bool :=
  (r.prog q).fin || ((r.prog q).begun && decide (r.limit q m ≤ (r.prog q).done))

/-- What an unfinished member has completed. -/
def Run.completed (r : Run) (q : Nat) (m : Member) : Nat :=
  if m.isComp then ((r.prog q).outs.headD #[]).size else Nat.max (r.prog q).done r.vstart

/-- A failed check of a slot or of the epilogue (R235, R236, R241, R243): it changes nothing, and v is 0 (R311). The other
checks with these causes are made when the convoy is decoded. -/
def Hit.idle (h : Hit) : Bool := match h.cause with | .slot | .geometry | .mode => true | _ => false

/-- Whether fault `h` lies below the element at which the convoy resumed: a buffer that a result needs anew, or an element
that a destination holds (R130). Nothing of the convoy has been completed since it opened. -/
def Run.early (r : Run) (h : Hit) : Bool := decide (h.at_ < r.vstart)

/-- The precise point of an interruption `h` (R289, R291, R292): the group boundary at or below it, lower where a member
that waits for what another writes has not come so far (log 27). It is never below the element at which the convoy
resumed: what lies below that has been completed, with its stores, its atomics and its columns fed, and is not completed
twice (R219, R238, R290, R312); R289's words would have a fault there lower it (log 71). -/
def Run.point (r : Run) (size : Nat) (h : Hit) : Nat :=
  if r.whole || h.idle then 0
  else
    let most := (List.range r.ms.length).foldl (fun x q => Nat.max x ((r.prog q).n.getD 0)) 0
    let top := if h.cause = .preemption then Nat.min h.at_ (most - 1) else h.at_
    let low := (List.range r.ms.length).foldl (fun v q =>
      match r.ms[q]? with
      | none => v
      | some m => if r.complete q m || m.isMask || m.last then v else Nat.min v (r.completed q m)) top
    let g := r.gran
    let v := r.lower size g (low / g) (low / g * g)
    if r.early h || decide (v < r.vstart / g * g) || h.cause == .preemption then Nat.max v r.vstart else v

/-- Whether every destination keeps the chain that it held when the convoy opened, and what the members took is returned
(R299): in a convoy of `vcomp` and others (R292), when the fault changes nothing (R311), and when the precise point is
where the convoy resumed because no interim chain can be built beyond it (log 71). -/
def Run.holds (r : Run) (size : Nat) (h : Hit) : Bool :=
  r.whole || h.idle || r.early h || (decide (r.point size h = r.vstart) && !r.fits size r.vstart)

/-! ### What a convoy leaves -/

/-- The effects of the elements below `v`, in the order in which they were found, and those that stand anyway. -/
def Run.replay (r : Run) (s : State) (v : Option Nat) : State :=
  r.log.foldr (fun x s => match x.1, v with
    | some e, some v => if e < v then x.2 s else s
    | _, _ => x.2 s) s

/-- A result placed in its register (R130), or the interim chain at `v` (R133). -/
def Run.placeDest (r : Run) (pos k : Nat) (m : Member) (d : CReg × Nat) (l : List Grant) (v : Option Nat)
    (s : State) : State :=
  let x := s.myCx
  let far := r.st.farPool
  let size := (s.pool x far).size
  let out := ((r.prog pos).outs.getD k #[]).toList
  let vals := match v with | none => out | some v => out.take v
  let bs := pack d.2 vals
  let ids := (l.filter fun g => g.pos == pos && g.k == k).map (·.id)
  let used := (bs.length + size - 1) / size
  let g := denseSegs size bs.length (ids.take used)
  let share := match v with
    | some v => if m.keepsPrior then segsDrop ((v * d.2 + 7) / 8) (r.st.chain d.1).segs else []
    | none => []
  let spare := (ids.drop used).map fun i => ({ id := i, start := 0, count := 1 } : Seg)
  (((s.fill x g bs).addRefs x share).writeChain d.1 (g ++ share)).dropRefs x spare

/-- The chain registers of one member: its result, the interim chain of R133, or its prior chain where every destination
keeps that (`kept`) or the member has not begun; what it took is then returned (R298, log 55). -/
def Run.placeMember (r : Run) (pos : Nat) (m : Member) (l : List Grant) (v : Option Nat) (kept : Bool) (s : State) : State :=
  if m.last then s
  else if kept || (v.isSome && v != some 0 && !(r.prog pos).begun) then
    s.dropRefs s.myCx ((l.filter fun g => g.pos == pos).map fun g => { id := g.id, start := 0, count := 1 })
  else (List.range m.dests.length).foldl (fun s k => r.placeDest pos k m (m.dests.getD k (0, 8)) l v s) s

/-- The low `v` bits of `new` over `old`. -/
def lowBits (old new : Mask) (v : Nat) : Mask :=
  let w : Mask := BitVec.ofNat 65536 (2 ^ v - 1)
  (old &&& ~~~w) ||| (new &&& w)

/-- Whether a member takes scalar register `d` as it stands when the convoy opens, wherever it stands in the convoy: the
tag of a `vldt` (R268). -/
def Member.opensWith (m : Member) (d : SReg) : Bool :=
  match m.body with | .load _ _ (.tagged b) => d != 0 && b == d | _ => false

/-- For each member, whether it is a mask instruction that counts as performed at an interruption at `v` (R146). One that
writes a scalar register does only when the earlier members that read or write that register, and every member that takes
it as the convoy opens, are complete: the convoy resumed then finds there what they need, and ends as an uninterrupted one
would (R90). -/
def Run.standing (r : Run) (v : Nat) : List Bool :=
  let whole (p : Nat) : Bool := match (r.prog p).n with | some n => decide (n ≤ v) | none => false
  (List.range r.ms.length).foldl (fun l q =>
    let past (d : SReg) (p : Nat) : Bool := match r.ms[p]? with
      | none => true
      | some x =>
          if q ≤ p then !x.opensWith d || whole p
          else !x.names d || match x.body with
            | .red .. => false
            | .mask _ => l.getD p false
            | _ => whole p
    l ++ [match r.ms[q]? with
      | none => false
      | some m => m.isMask && (r.skips q m || ((r.prog q).fin && match m.swrite with
        | some d => (List.range r.ms.length).all (past d)
        | none => true))]) []

/-- Whether member `q` leaves its whole result: at the close each does, at `v` a mask instruction that stands. -/
def Run.stands (r : Run) (v : Option Nat) (q : Nat) : Bool :=
  match v with | none => true | some v => (r.standing v).getD q false

/-- The mask, scalar and flags of one member. -/
def Run.placeRest (r : Run) (pos : Nat) (m : Member) (v : Option Nat) (t : Strand) : Strand :=
  let p := r.prog pos
  let fl := p.flags.foldl (fun f x => if (match v with | none => true | some v => decide (x.1 < v)) then f ||| x.2 else f) (0 : Flags)
  let t := t.raise fl
  let t := match m.mwrite with
    | none => t
    | some d =>
        if m.isMask then match p.mres with | some w => if r.stands v pos then t.setMask d w else t | none => t
        else
          let new := mergeMask (r.st.mask d) (BitVec.ofNat 65536 (bitsNat p.bits.toList)) r.vlmax
          match v with
          | none => t.setMask d new
          | some v => if v = 0 || !p.begun then t else t.setMask d (lowBits (r.st.mask d) new v)
  match m.swrite, p.sres with
  | some d, some w => if r.stands v pos then t.setReg d w else t
  | _, _ => t

/-- The partial value of a reduction at `v` (R144, R289): the one with which it resumed stands while groups of its own lie
below `v` and those that it holds do. -/
def Run.partial_ (r : Run) (pos v : Nat) : Option Nat :=
  let gs := 4096 / r.fab
  match (r.prog pos).hist.find? fun h => decide (h.1 ≤ v) with
  | some h => some h.2
  | none =>
      if r.st.redlive.getLsbD pos && decide (gs ≤ v) && decide (r.vstart / gs * gs ≤ v) then
        some (Sparse.get 0 pos r.st.redpart).toNat
      else none

/-- The partial registers and `redlive` at an interruption (R144, R289). -/
def Run.keepRed (r : Run) (v : Nat) (t : Strand) : Strand :=
  (List.range r.ms.length).foldl (fun (t : Strand) q =>
    match r.ms[q]? with
    | some m =>
        match m.body with
        | .red _ _ =>
            match r.partial_ q v with
            | some x => { t with redpart := Sparse.put 0 q (BitVec.ofNat 64 x) t.redpart, redlive := t.redlive ||| (1 <<< q) }
            | none => t
        | _ => t
    | none => t) { t with redlive := 0 }

/-- The mask instructions that have been performed at an interruption at `v` (R146). -/
def Run.performed (r : Run) (v : Nat) : BitVec 8 :=
  (List.range r.ms.length).foldl (fun b q => if r.stands (some v) q then b ||| (1 <<< q) else b) r.st.memdone

/-- What the members leave, at the close (`none`) or at the precise point `v`; `kept`: every destination keeps its prior
chain. -/
def Run.places (r : Run) (s : State) (l : List Grant) (v : Option Nat) (kept : Bool) : State :=
  let s := r.replay s v
  let qs := List.range r.ms.length
  let s := qs.foldl (fun s q => match r.ms[q]? with | some m => r.placeMember q m l v kept s | none => s) s
  s.setMe (qs.foldl (fun t q => match r.ms[q]? with | some m => r.placeRest q m v t | none => t) s.me)

/-- A convoy interrupted at `v` (R285, R288, R289); `kept` as in `Run.places`, `evpos` what a pre-emption writes there
(R249). Of a `vamo` whose element fails, the elements below `v` have been performed: R219 would have those up to the
failing one, and R290 is followed (log 76). -/
def Run.interrupt (r : Run) (s : State) (l : List Grant) (start : Word) (h : Hit) (v : Nat) (kept : Bool) (evpos : Nat := 0) :
    State :=
  let s := (r.places s l (some v) kept).noted h.note
  let s := s.setMe { r.keepRed v s.me with memdone := r.performed v }
  if h.cause = .preemption then s.preempted s.cur start (BitVec.ofNat 64 v) (BitVec.ofNat 64 evpos)
  else s.trapIn s.cur
    { cause := h.cause, epc := start, eval := h.eval, evpos := BitVec.ofNat 64 h.e, vstart := BitVec.ofNat 64 v }

/-- What the close of a convoy does to the strand: `vl` after `vldff` (R169), `colbase` after a feeding
`mma` (R237), and the registers that return to zero (R86, R144, R146). -/
def Run.closeStrand (r : Run) (t : Strand) : Strand :=
  let cuts := r.progs.filterMap (·.cut)
  let fed := r.ms.any fun m => match m.body with | .mma .. => true | _ => false
  { t with
    vl := cuts.foldl (fun v n => BitVec.ofNat 16 (Nat.min v.toNat n)) t.vl
    epilogue := if fed then t.epilogue.map fun e => { e with colbase := e.colbase + BitVec.ofNat 32 r.vl } else t.epilogue
    vstart := 0, redlive := 0, memdone := 0, estatus := if t.redlive = 0 then t.estatus else t.estatus &&& 0xB }

/-- A convoy that closes (R86): the held strips are given back (R185), and the PC is past it. -/
def Run.close (r : Run) (s : State) (l : List Grant) (streams : List CReg) (next : Word) : State :=
  let s := r.places s l none false
  let s := s.setMe ((r.closeStrand s.me).go next)
  streams.foldl (fun s c => s.closeStrip c) s

/-! ### Members that act last -/

/-- `citp` (R266): the permutation of the CIT range, with what its guard acquires (R58), or what it traps on. -/
def Run.permuteCit (r : Run) (s : State) (pos : Nat) (m : Member) (a : SReg) : Except Hit (Run × State) :=
  let base := match r.scalar pos a with | .val w => w.toNat | _ => 0
  if 4096 ≤ base then
    .error { e := 0, pos := pos, at_ := 0, cause := .tag, eval := BitVec.ofNat 64 base }
  else
    let n := match r.minLen pos (Nat.min r.vl (4096 - base)) m.bound with | .val n => n | _ => 0
    let js := (List.range n).map fun i => (i, r.srcs pos i m)
    match js.find? fun x => match x.2 with | .bad .. => true | _ => false with
    | some (i, .bad c note) =>
        .error { e := i, pos := pos, at_ := i, cause := c, eval := r.addr pos, note := note }
    | _ =>
        let p := s.myPart
        let old (i : Nat) : BitVec 16 := Sparse.get 0 (base + i) p.cit
        let new := js.map fun x =>
          let j := match x.2 with | .val l => arg l 0 | _ => n
          (base + x.1, if !r.active r.fab x.1 then old x.1 else if j < n then old j else 0)
        .ok ((List.range n).foldl (fun r i => r.guarded r.fab i) r,
          s.setMyPart { p with cit := new.foldl (fun c x => Sparse.put 0 x.1 x.2 c) p.cit })

/-- `vbr` (R148) after its convoy has closed; `m` is mA as the convoy left it. The rule acts on the bits below `vlmax` and
does not say what RunMask and the mask that is pushed hold from there on: they are 0 here (log 73). -/
def State.branchVector (s : State) (pc : Word) (m : Mask) (o : BitVec 14) : State :=
  let t := s.me
  if 16 ≤ t.frags.length then
    s.trapIn s.cur { cause := .fragment, epc := pc, eval := pc, evpos := 0, vstart := 0 }
  else
    let w : Mask := BitVec.ofNat 65536 (2 ^ t.vlmax.toNat - 1)
    let f := t.runMask &&& w
    let yes := f &&& m
    let no := f &&& ~~~m
    let target := pc + (sx o <<< 2)
    if yes != 0 && no != 0 then
      let t : Strand := { t with frags := t.frags ++ [{ pc := pc + 4, jn := 0, mask := no }], runMask := yes }
      s.setMe (t.go target)
    else
      let u : Strand := { t with frags := t.frags ++ [{ pc := 0, jn := 1, mask := f }], runMask := if yes != 0 then yes else no }
      s.setMe (u.go (if yes != 0 then target else pc + 4))

/-- `vjoin` (R149) after its convoy has closed. -/
def State.joinVector (s : State) (pc : Word) (o : BitVec 26) : State :=
  let t := s.me
  let target := pc + (sx o <<< 2)
  match t.frags.getLast? with
  | none => s.trapIn s.cur { cause := .fragment, epc := pc, eval := pc, evpos := 0, vstart := 0 }
  | some e =>
      if e.jn &&& 3 = 0 then
        let e' : Frag := { e with jn := (target &&& ~~~3) ||| 1, mask := t.runMask ||| e.mask }
        let u : Strand := { t with frags := t.frags.dropLast ++ [e'], runMask := e.mask }
        s.setMe (u.go e.pc)
      else
        let rest := t.frags.dropLast
        let dest := if e.jn &&& ~~~3 = 0 then target else e.jn &&& ~~~3
        let u : Strand := { t with frags := rest, runMask := if rest.isEmpty then BitVec.allOnes 65536 else e.mask }
        s.setMe (u.go dest)

/-- c0-c31 written with rows of a walk (R247, R249). -/
def State.putRows (s : State) (far : Bool) (rows : Rows) : List Nat → State
  | ids =>
      let x := s.myCx
      let size := (s.pool x far).size
      (List.range 32).foldl (fun s i =>
        let bs := pack 32 (rows.getD i [])
        let per := (bs.length + size - 1) / size
        let g := denseSegs size bs.length ((ids.drop (i * per)).take per)
        (s.fill x g bs).writeChain (BitVec.ofNat 5 i) g) s

/-- A `bswalk` (R245-R249): its other members are mask instructions, already performed. -/
def Run.walks (r : Run) (s0 s : State) (pos : Nat) (o : OReg) (a b : SReg) (fails : Bool) (pre : Option Nat)
    (start next : Word) : Out :=
  let here := r.addr pos
  let word (x : SReg) : Word := match r.scalar pos x with | .val w => w | _ => 0
  let far := r.st.farPool
  let x := s.myCx
  let size := (s.pool x far).size
  let per := (4 * r.vl + size - 1) / size
  let stopAt (s : State) (e v : Nat) (c : Cause) (eval : Word) (n : Note) : Out :=
    .next (r.interrupt s [] start { e := e, pos := pos, at_ := v, cause := c, eval := eval, note := n } v true
      (if v = 0 then e else 0))
  match s.walkOpen r.st o (word a) (word b) here with
  | .error (.trap c eval n) => stopAt s (r.vstart / 2) r.vstart c eval n
  | .error _ => .next (s0.waits .cell)
  | .ok (w, s1) =>
      match s1.walkRun w r.vstart pre with
      | .cell => .next (s0.waits .cell)
      | .done t last s2 fl =>
          let s3 := s2.walkStaged o
          if 32 < per then stopAt s3 t 0 .spine here {}
          else if (s3.pool x far).enable && decide (s3.room x far < 32 * per) then
            if fails then stopAt s3 t 0 .pool (noBufferEval far .empty) {} else .next (s0.waitBuffer far)
          else match s3.allocs x far (32 * per) with
            | .error w => stopAt s3 t 0 .pool (noBufferEval far w) {}
            | .ok (ids, s4) => .next (r.close ((s4.setMe (s4.me.raise fl)).putRows far last ids) [] [] next)
      | .stop v t c eval n rows s2 fl =>
          let s3 := s2.walkStaged o
          let can := per ≤ 32 && decide (32 * per ≤ s3.room x far)
          match s3.allocs x far (32 * per) with
          | .ok (ids, s4) =>
              if can then stopAt ((s4.setMe (s4.me.raise fl)).putRows far rows ids) t v c eval n
              else stopAt s3 t 0 c eval n
          | .error _ => stopAt s3 t 0 c eval n

/-! ### The whole convoy -/

/-- The convoy as it opens. -/
def openRun (s : State) (ms : List Member) (addrs : List Word) : Run :=
  { s := s, st := s.me, ms := ms, addrs := addrs, progs := ms.map fun _ => {}, best := none, late := [], patches := []
    log := [], cell := false, free := s.freeCount }

/-- What follows when every member but a last one has been computed with no fault. -/
def Run.ends (r : Run) (s0 s : State) (l : List Grant) (streams : List CReg) (fails : Bool) (pre : Option Nat)
    (start : Word) : Out :=
  let pos := r.ms.length - 1
  let here := r.addr pos
  match r.ms[pos]? with
  | none => .next s0
  | some m =>
      match m.body with
      | .bswalk o a b => r.walks s0 s pos o a b fails pre start (here + 4)
      | .citp a =>
          match r.permuteCit s pos m a with
          | .ok (r', s') => .next (r'.close s' l streams (here + 4))
          | .error h =>
              let size := (s.pool s.myCx r.st.farPool).size
              .next (r.interrupt s l start h (r.point size h) (r.holds size h))
      | .vbr a o =>
          let w := match r.maskAll pos a with | .val w => w | _ => 0
          .next ((r.close s l streams here).branchVector here w o)
      | .vjoin o => .next ((r.close s l streams here).joinVector here o)
      | _ => .next (r.close s l streams (here + 4))

/-- A computed run: its results allocated, then closed or interrupted. -/
def Run.settles (r : Run) (s0 s : State) (streams : List CReg) (fails : Bool) (pre : Option Nat) (start : Word) : Out :=
  let far := r.st.farPool
  let r := r.patched
  if r.cell then .next (s0.waits .cell)
  else match r.allocate s fails with
    | .wait => .next (s0.waitBuffer far)
    | .ok s1 l h =>
        let r := match h with | some h => r.hitAt h | none => r
        match r.judged with
        | none => r.ends s0 s1 l streams fails pre start
        | some b =>
            let size := (s1.pool s1.myCx far).size
            .next (r.interrupt s1 l start b (r.point size b) (r.holds size b))

/-- Whether some member reads a stream's strip in a wider format than the block's: its last elements may reach past the
strip (R185, log 52). -/
def Scan.widens (sc : Scan) (st : Strand) : Bool :=
  sc.ms.any fun m => (m.bound ++ m.other).any fun c => match (st.chain c.reg).stream with
    | some t => decide (8 * Block.size t.block < c.fmt.bits)
    | none => false

/-- A gathered convoy: `s0` is the state before it, `s` the same with `gm` written. `fails` and `pre` as
in `State.convoy`. -/
def State.runConvoy (s0 s : State) (start : Word) (l : List (Word × Fetched)) (fails : Bool) (pre : Option Nat) : Out :=
  match Scan.run s.me {} l with
  | .error (va, c, n) => .next ((s0.noted n).trap c va)
  | .ok sc =>
      match sc.writes.find? s0.copyInto with
      | some c => .next (s0.waits (.chainCopy c))
      | none =>
          let addrs := l.map (·.1)
          match s.pops fails addrs sc.streams [] with
          | .wait far => .next (s0.waitBuffer far)
          | .ok s1 hits =>
              let r := openRun s1 sc.ms addrs
              let s1 := if sc.widens s1.me then { s1 with freeCount := s1.freeCount + stripFree } else s1
              let r := hits.foldl Run.hitAt r
              let walk := sc.ms.any fun m => match m.body with | .bswalk .. => true | _ => false
              let lone := sc.ms.any Member.isComp && sc.ms.length == 1
              let r := match pre with
                | some v =>
                    if walk then r
                    else r.hitAt { e := if lone then 65536 else v, pos := 0, at_ := v, cause := .preemption, eval := 0 }
                | none => r
              (Run.loop r.fuel r).settles s0 s1 (sc.streams.map (·.1)) fails pre start

/-- `gm` as a `grp` or `grpk` writes it (R58, R87). -/
def gmOf (m : GrpMode) (gk : Bool) : Gm :=
  { gk := gk, inv := m.inv, guard := m.guard, fa := m.fa, fb := m.fb, rnd := m.rnd, sat := m.sat, inf := m.inf, g := m.g }

/-- A convoy that a `grp` or `grpk` heads (R87). One without members leaves `vstart`, `redlive` and `memdone` as they are:
R86 has a closing convoy return them to zero, R87 gives an empty one no effect beyond `gm` (log 66). -/
def State.headed (gk : Bool) (m : GrpMode) (fails : Bool) (pre : Option Nat) (s : State) : Out :=
  if badMode m.fa.toNat m.fb.toNat m.rnd.toNat m.g.toNat then .next (s.trapHere .mode)
  else
    let s1 := s.setMe { s.me with gm := gmOf m gk }
    let l := s1.gatherWords s1.me.gm 9 (s.me.pc + 4)
    if l.isEmpty then .next s1.advance
    else s.runConvoy s1 s.me.pc l fails pre

/-- The convoy that convoy-class instruction `i` opens under the current `gm` (R63). `fails`: an
allocation that finds its pool empty has waited past its limit. `pre`: a pre-emption is taken inside the
convoy, at element `pre` or below. -/
def State.convoy (i : Instr) (fails : Bool) (pre : Option Nat) (s : State) : Out :=
  match memberOf s.me.gm i with
  | none => .next s
  | some m =>
      let l : List (Word × Fetched) := (s.me.pc, .ok m) :: if m.closes then [] else s.gatherWords s.me.gm 8 (s.me.pc + 4)
      s.runConvoy s s.me.pc l fails pre

/-- Whether the convoy that instruction `i` opens has a bad mode or fails when it is decoded (R65, R87): its trap comes
before everything else (R293). -/
def State.convoyFails (i : Instr) (s : State) : Bool :=
  let bad (st : Strand) (l : List (Word × Fetched)) : Bool := match Scan.run st {} l with | .error _ => true | .ok _ => false
  let head (gk : Bool) (m : GrpMode) : Bool :=
    let s1 := s.setMe { s.me with gm := gmOf m gk }
    badMode m.fa.toNat m.fb.toNat m.rnd.toNat m.g.toNat || bad s1.me (s1.gatherWords s1.me.gm 9 (s.me.pc + 4))
  match i with
  | .grp m => head false m
  | .grpk m => head true m
  | i => match memberOf s.me.gm i with
    | none => false
    | some m => bad s.me ((s.me.pc, .ok m) :: if m.closes then [] else s.gatherWords s.me.gm 8 (s.me.pc + 4))

/-- An instruction that opens a convoy, run again with a failing allocation or a pre-emption. -/
def State.reopen (i : Instr) (fails : Bool) (pre : Option Nat) (s : State) : Out :=
  match i with
  | .grp m => s.headed false m fails pre
  | .grpk m => s.headed true m fails pre
  | i => s.convoy i fails pre

/-- A convoy-class instruction executes: it opens its convoy. -/
def State.openConvoy (i : Instr) (s : State) : Out := s.convoy i false none

/-- `grp` (R87). -/
def execGrp (m : GrpMode) (s : State) : Out := s.headed false m false none
/-- `grpk` (R87). -/
def execGrpk (m : GrpMode) (s : State) : Out := s.headed true m false none

end Sys2Proof.Machine
end

