-- ==== Sys2Proof/Machine/Convoys.lean ====
section
/-! DEFINITION. The convoy-class instructions as they execute (R63, R86): each opens the convoy of which it is the
first member; what it does as a member stands in Vector, VecMem and Matrix. -/

namespace Sys2Proof.Machine

/-- `vadd` opens its convoy (R140, R141). -/
def execVadd (d a b : CReg) (x : Bool) (s : State) : Out := s.openConvoy (.vadd d a b x)
/-- `vsub` opens its convoy (R140, R141). -/
def execVsub (d a b : CReg) (x : Bool) (s : State) : Out := s.openConvoy (.vsub d a b x)
/-- `vmul` opens its convoy (R140, R141). -/
def execVmul (d a b : CReg) (x : Bool) (s : State) : Out := s.openConvoy (.vmul d a b x)
/-- `vfma` opens its convoy (R140, R141). -/
def execVfma (d a b : CReg) (x : Bool) (s : State) : Out := s.openConvoy (.vfma d a b x)
/-- `vfms` opens its convoy (R140, R141). -/
def execVfms (d a b : CReg) (x : Bool) (s : State) : Out := s.openConvoy (.vfms d a b x)
/-- `vdiv` opens its convoy (R140, R141). -/
def execVdiv (d a b : CReg) (x : Bool) (s : State) : Out := s.openConvoy (.vdiv d a b x)
/-- `vmin` opens its convoy (R140, R141). -/
def execVmin (d a b : CReg) (x : Bool) (s : State) : Out := s.openConvoy (.vmin d a b x)
/-- `vmax` opens its convoy (R140, R141). -/
def execVmax (d a b : CReg) (x : Bool) (s : State) : Out := s.openConvoy (.vmax d a b x)
/-- `vand` opens its convoy (R140, R141). -/
def execVand (d a b : CReg) (x : Bool) (s : State) : Out := s.openConvoy (.vand d a b x)
/-- `vor` opens its convoy (R140, R141). -/
def execVor (d a b : CReg) (x : Bool) (s : State) : Out := s.openConvoy (.vor d a b x)
/-- `vxor` opens its convoy (R140, R141). -/
def execVxor (d a b : CReg) (x : Bool) (s : State) : Out := s.openConvoy (.vxor d a b x)
/-- `vshl` opens its convoy (R140, R141). -/
def execVshl (d a b : CReg) (x : Bool) (s : State) : Out := s.openConvoy (.vshl d a b x)
/-- `vshr` opens its convoy (R140, R141). -/
def execVshr (d a b : CReg) (x : Bool) (s : State) : Out := s.openConvoy (.vshr d a b x)
/-- `vsra` opens its convoy (R140, R141). -/
def execVsra (d a b : CReg) (x : Bool) (s : State) : Out := s.openConvoy (.vsra d a b x)
/-- `vfsh` opens its convoy (R140, R141). -/
def execVfsh (d a b : CReg) (x : Bool) (s : State) : Out := s.openConvoy (.vfsh d a b x)
/-- `vbext` opens its convoy (R140, R141). -/
def execVbext (d a b : CReg) (x : Bool) (s : State) : Out := s.openConvoy (.vbext d a b x)
/-- `vabs` opens its convoy (R140, R141). -/
def execVabs (d a : CReg) (x : Bool) (s : State) : Out := s.openConvoy (.vabs d a x)
/-- `vneg` opens its convoy (R140, R141). -/
def execVneg (d a : CReg) (x : Bool) (s : State) : Out := s.openConvoy (.vneg d a x)
/-- `vpopc` opens its convoy (R140, R141). -/
def execVpopc (d a : CReg) (x : Bool) (s : State) : Out := s.openConvoy (.vpopc d a x)
/-- `vclz` opens its convoy (R140, R141). -/
def execVclz (d a : CReg) (x : Bool) (s : State) : Out := s.openConvoy (.vclz d a x)
/-- `vsel` opens its convoy (R140, R141). -/
def execVsel (d a b : CReg) (n : MReg) (x : Bool) (s : State) : Out := s.openConvoy (.vsel d a b n x)
/-- `vadd (scalar form)` opens its convoy (R140, R141). -/
def execVaddScalar (d a : CReg) (b : SReg) (x : Bool) (s : State) : Out := s.openConvoy (.vaddScalar d a b x)
/-- `vsub (scalar form)` opens its convoy (R140, R141). -/
def execVsubScalar (d a : CReg) (b : SReg) (x : Bool) (s : State) : Out := s.openConvoy (.vsubScalar d a b x)
/-- `vmul (scalar form)` opens its convoy (R140, R141). -/
def execVmulScalar (d a : CReg) (b : SReg) (x : Bool) (s : State) : Out := s.openConvoy (.vmulScalar d a b x)
/-- `vfma (scalar form)` opens its convoy (R140, R141). -/
def execVfmaScalar (d a : CReg) (b : SReg) (x : Bool) (s : State) : Out := s.openConvoy (.vfmaScalar d a b x)
/-- `vfms (scalar form)` opens its convoy (R140, R141). -/
def execVfmsScalar (d a : CReg) (b : SReg) (x : Bool) (s : State) : Out := s.openConvoy (.vfmsScalar d a b x)
/-- `vdiv (scalar form)` opens its convoy (R140, R141). -/
def execVdivScalar (d a : CReg) (b : SReg) (x : Bool) (s : State) : Out := s.openConvoy (.vdivScalar d a b x)
/-- `vmin (scalar form)` opens its convoy (R140, R141). -/
def execVminScalar (d a : CReg) (b : SReg) (x : Bool) (s : State) : Out := s.openConvoy (.vminScalar d a b x)
/-- `vmax (scalar form)` opens its convoy (R140, R141). -/
def execVmaxScalar (d a : CReg) (b : SReg) (x : Bool) (s : State) : Out := s.openConvoy (.vmaxScalar d a b x)
/-- `vand (scalar form)` opens its convoy (R140, R141). -/
def execVandScalar (d a : CReg) (b : SReg) (x : Bool) (s : State) : Out := s.openConvoy (.vandScalar d a b x)
/-- `vor (scalar form)` opens its convoy (R140, R141). -/
def execVorScalar (d a : CReg) (b : SReg) (x : Bool) (s : State) : Out := s.openConvoy (.vorScalar d a b x)
/-- `vxor (scalar form)` opens its convoy (R140, R141). -/
def execVxorScalar (d a : CReg) (b : SReg) (x : Bool) (s : State) : Out := s.openConvoy (.vxorScalar d a b x)
/-- `vshl (scalar form)` opens its convoy (R140, R141). -/
def execVshlScalar (d a : CReg) (b : SReg) (x : Bool) (s : State) : Out := s.openConvoy (.vshlScalar d a b x)
/-- `vshr (scalar form)` opens its convoy (R140, R141). -/
def execVshrScalar (d a : CReg) (b : SReg) (x : Bool) (s : State) : Out := s.openConvoy (.vshrScalar d a b x)
/-- `vsra (scalar form)` opens its convoy (R140, R141). -/
def execVsraScalar (d a : CReg) (b : SReg) (x : Bool) (s : State) : Out := s.openConvoy (.vsraScalar d a b x)
/-- `vfsh (scalar form)` opens its convoy (R140, R141). -/
def execVfshScalar (d a : CReg) (b : SReg) (x : Bool) (s : State) : Out := s.openConvoy (.vfshScalar d a b x)
/-- `vbext (scalar form)` opens its convoy (R140, R141). -/
def execVbextScalar (d a : CReg) (b : SReg) (x : Bool) (s : State) : Out := s.openConvoy (.vbextScalar d a b x)
/-- `vsel (scalar form)` opens its convoy (R140, R141). -/
def execVselScalar (d a : CReg) (b : SReg) (n : MReg) (x : Bool) (s : State) : Out := s.openConvoy (.vselScalar d a b n x)
/-- `vcmp` opens its convoy (R143). -/
def execVcmp (d : MReg) (a b : CReg) (c : Cond) (s : State) : Out := s.openConvoy (.vcmp d a b c)
/-- `vcmp (scalar form)` opens its convoy (R143). -/
def execVcmpScalar (d : MReg) (a : CReg) (b : SReg) (c : Cond) (s : State) : Out := s.openConvoy (.vcmpScalar d a b c)
/-- `vredsum` opens its convoy (R144). -/
def execVredsum (d : SReg) (a : CReg) (b : SReg) (s : State) : Out := s.openConvoy (.vredsum d a b)
/-- `vredmax` opens its convoy (R144). -/
def execVredmax (d : SReg) (a : CReg) (b : SReg) (s : State) : Out := s.openConvoy (.vredmax d a b)
/-- `vredmin` opens its convoy (R144). -/
def execVredmin (d : SReg) (a : CReg) (b : SReg) (s : State) : Out := s.openConvoy (.vredmin d a b)
/-- `vcvt` opens its convoy (R112, R142). -/
def execVcvt (d a : CReg) (x : Bool) (s : State) : Out := s.openConvoy (.vcvt d a x)
/-- `vcvtsat` opens its convoy (R112, R142). -/
def execVcvtSat (d a : CReg) (x : Bool) (s : State) : Out := s.openConvoy (.vcvtSat d a x)
/-- `vexp2` opens its convoy (R112, R142). -/
def execVexp2 (d a : CReg) (x : Bool) (s : State) : Out := s.openConvoy (.vexp2 d a x)
/-- `vrcp` opens its convoy (R112, R142). -/
def execVrcp (d a : CReg) (x : Bool) (s : State) : Out := s.openConvoy (.vrcp d a x)
/-- `vsqrt` opens its convoy (R112, R142). -/
def execVsqrt (d a : CReg) (x : Bool) (s : State) : Out := s.openConvoy (.vsqrt d a x)
/-- `vidx` opens its convoy (R142). -/
def execVidx (d : CReg) (x : Bool) (s : State) : Out := s.openConvoy (.vidx d x)
/-- `vmv` opens its convoy (R142). -/
def execVmv (d a : CReg) (x : Bool) (s : State) : Out := s.openConvoy (.vmv d a x)
/-- `vmv (scalar form)` opens its convoy (R142). -/
def execVmvScalar (d : CReg) (a : SReg) (x : Bool) (s : State) : Out := s.openConvoy (.vmvScalar d a x)
/-- `vperm` opens its convoy (R145). -/
def execVperm (d a b : CReg) (s : State) : Out := s.openConvoy (.vperm d a b)
/-- `vcomp` opens its convoy (R145). -/
def execVcomp (d a : CReg) (b : MReg) (s : State) : Out := s.openConvoy (.vcomp d a b)
/-- `vexpd` opens its convoy (R145). -/
def execVexpd (d a : CReg) (b : MReg) (s : State) : Out := s.openConvoy (.vexpd d a b)
/-- `vslide` opens its convoy (R145). -/
def execVslide (d a : CReg) (b : SReg) (s : State) : Out := s.openConvoy (.vslide d a b)
/-- `mand` opens its convoy (R146). -/
def execMand (d a b : MReg) (s : State) : Out := s.openConvoy (.mand d a b)
/-- `mor` opens its convoy (R146). -/
def execMor (d a b : MReg) (s : State) : Out := s.openConvoy (.mor d a b)
/-- `mxor` opens its convoy (R146). -/
def execMxor (d a b : MReg) (s : State) : Out := s.openConvoy (.mxor d a b)
/-- `mnot` opens its convoy (R146). -/
def execMnot (d a : MReg) (s : State) : Out := s.openConvoy (.mnot d a)
/-- `mpopc` opens its convoy (R146). -/
def execMpopc (d : SReg) (a : MReg) (s : State) : Out := s.openConvoy (.mpopc d a)
/-- `mfirst` opens its convoy (R146). -/
def execMfirst (d : SReg) (a : MReg) (s : State) : Out := s.openConvoy (.mfirst d a)
/-- `mset` opens its convoy (R146). -/
def execMset (d : MReg) (a b : SReg) (s : State) : Out := s.openConvoy (.mset d a b)
/-- `mget` opens its convoy (R146). -/
def execMget (d : SReg) (a : MReg) (b : SReg) (s : State) : Out := s.openConvoy (.mget d a b)
/-- `vbr` opens its convoy (R148). -/
def execVbr (a : MReg) (o : BitVec 14) (s : State) : Out := s.openConvoy (.vbr a o)
/-- `vjoin` opens its convoy (R149). -/
def execVjoin (o : BitVec 26) (s : State) : Out := s.openConvoy (.vjoin o)
/-- `vld` opens its convoy (R165-R168). -/
def execVld (d : CReg) (a : SReg) (s : State) : Out := s.openConvoy (.vld d a)
/-- `vlds` opens its convoy (R165-R168). -/
def execVlds (d : CReg) (a b : SReg) (s : State) : Out := s.openConvoy (.vlds d a b)
/-- `vldx` opens its convoy (R165-R168). -/
def execVldx (d : CReg) (a : SReg) (b : CReg) (s : State) : Out := s.openConvoy (.vldx d a b)
/-- `vldff` opens its convoy (R169). -/
def execVldff (d : CReg) (a : SReg) (s : State) : Out := s.openConvoy (.vldff d a)
/-- `vldk` opens its convoy (R170). -/
def execVldk (d : CReg) (a : SReg) (b : KReg) (s : State) : Out := s.openConvoy (.vldk d a b)
/-- `vst` opens its convoy (R165-R168). -/
def execVst (d : CReg) (a : SReg) (s : State) : Out := s.openConvoy (.vst d a)
/-- `vsts` opens its convoy (R165-R168). -/
def execVsts (d : CReg) (a b : SReg) (s : State) : Out := s.openConvoy (.vsts d a b)
/-- `vstx` opens its convoy (R165-R168). -/
def execVstx (d : CReg) (a : SReg) (b : CReg) (s : State) : Out := s.openConvoy (.vstx d a b)
/-- `vamo` opens its convoy (R218). -/
def execVamo (d : CReg) (a : SReg) (b : CReg) (p : AmoOp) (o : VamoOrder) (s : VamoScope) (t : State) : Out := t.openConvoy (.vamo d a b p o s)
/-- `oput` opens its convoy (R233). -/
def execOput (d : OReg) (a : CReg) (s : State) : Out := s.openConvoy (.oput d a)
/-- `oget` opens its convoy (R233). -/
def execOget (d : CReg) (a : OReg) (s : State) : Out := s.openConvoy (.oget d a)
/-- `mma` opens its convoy (R234-R238). -/
def execMma (d : CReg) (a b : OReg) (s : State) : Out := s.openConvoy (.mma d a b)
/-- `mmaz` opens its convoy (R234-R238). -/
def execMmaz (d : CReg) (a b : OReg) (s : State) : Out := s.openConvoy (.mmaz d a b)
/-- `bswalk` opens its convoy (R245-R249). -/
def execBswalk (d : OReg) (a b : SReg) (s : State) : Out := s.openConvoy (.bswalk d a b)
/-- `biasupd` opens its convoy (R242). -/
def execBiasupd (d : OReg) (a : CReg) (b : SReg) (s : State) : Out := s.openConvoy (.biasupd d a b)
/-- `tkget` opens its convoy (R241). -/
def execTkget (d a : CReg) (s : State) : Out := s.openConvoy (.tkget d a)
/-- `citp` opens its convoy (R266). -/
def execCitp (a : SReg) (b : CReg) (s : State) : Out := s.openConvoy (.citp a b)
/-- `vstcm` opens its convoy (R268). -/
def execVstcm (d : CReg) (a : SReg) (s : State) : Out := s.openConvoy (.vstcm d a)
/-- `vldt` opens its convoy (R268). -/
def execVldt (d : CReg) (a b : SReg) (s : State) : Out := s.openConvoy (.vldt d a b)

end Sys2Proof.Machine
end

