-- ==== Sys2Proof/Machine/Digest.lean ====
section
/-! DEFINITION. The SHA3-256 digest that Dawn computes of an image (R275). The manual names the function and leaves it
to FIPS 202, from which it is written here (PRESUMED, log 8). -/

namespace Sys2Proof.Machine

/-- The next state of the eight-bit shift register that gives the bits of the round constants. -/
def shifted (r : Nat) : Nat := if r < 128 then 2 * r else (2 * r - 256) ^^^ 0x71

/-- The register after `n` shifts, from 1. -/
def shiftedBy : Nat → Nat
  | 0 => 1
  | n + 1 => shifted (shiftedBy n)

/-- The constant of round `n`: bit 2^j - 1 is the low bit of the register after 7n + j shifts. -/
def roundWord (n : Nat) : Word :=
  BitVec.ofNat 64 (((List.range 7).map fun j => shiftedBy (7 * n + j) % 2 * 2 ^ (2 ^ j - 1)).sum)

/-- How far lane (x, y) turns: the walk from lane (1, 0) to (y, 2x + 3y) turns its step `t` by (t + 1)(t + 2) / 2; lane
(0, 0), which the walk never meets, stands still. `n` lanes of the walk are left, the next of them (u, v) at step `t`. -/
def turnOf (x y : Nat) : (n t u v : Nat) → Nat
  | 0, _, _, _ => 0
  | n + 1, t, u, v => if u = x ∧ v = y then (t + 1) * (t + 2) / 2 % 64 else turnOf x y n (t + 1) v ((2 * u + 3 * v) % 5)

/-- The 25 lanes, lane (x, y) at place x + 5y. -/
structure Lanes where
  lane : List Word
  deriving DecidableEq, Repr

/-- Lane (x, y), both counted modulo 5. -/
def Lanes.get (a : Lanes) (x y : Nat) : Word := a.lane.getD (x % 5 + 5 * (y % 5)) 0

/-- Lanes given place by place. -/
def Lanes.build (f : Nat → Nat → Word) : Lanes := { lane := (List.range 25).map fun i => f (i % 5) (i / 5) }

/-- The parity of column `x`. -/
def Lanes.column (a : Lanes) (x : Nat) : Word := a.get x 0 ^^^ a.get x 1 ^^^ a.get x 2 ^^^ a.get x 3 ^^^ a.get x 4

/-- Each lane with the parities of the column before its own and of the one after, the latter turned by one. -/
def Lanes.mixed (a : Lanes) : Lanes := .build fun x y => a.get x y ^^^ a.column (x + 4) ^^^ (a.column (x + 1)).rotateLeft 1

/-- Lane (x, y) turned, and moved to (y, 2x + 3y). -/
def Lanes.moved (a : Lanes) : Lanes :=
  .build fun x y => let u := (x + 3 * y) % 5; (a.get u x).rotateLeft (turnOf u x 24 0 1 0)

/-- The bits of each lane turned over where the next lane of its row is 0 and the one after it is 1. -/
def Lanes.rowed (a : Lanes) : Lanes := .build fun x y => a.get x y ^^^ (~~~a.get (x + 1) y &&& a.get (x + 2) y)

/-- Round `n`. -/
def Lanes.round (a : Lanes) (n : Nat) : Lanes :=
  let b := a.mixed.moved.rowed
  .build fun x y => if x = 0 ∧ y = 0 then b.get x y ^^^ roundWord n else b.get x y

/-- The 24 rounds. -/
def Lanes.permuted (a : Lanes) : Lanes := (List.range 24).foldl Lanes.round a

/-- The lanes with a block of 136 bytes taken in. -/
def Lanes.taking (a : Lanes) (block : List Byte) : Lanes :=
  (Lanes.build fun x y =>
    let k := x + 5 * y
    if k < 17 then a.get x y ^^^ BitVec.ofNat 64 (leNat ((block.drop (8 * k)).take 8)) else a.get x y).permuted

/-- What follows a message of `n` bytes so that whole blocks result: the bits 0, 1 and 1, zeros, and a last 1. -/
def sha3Tail (n : Nat) : List Byte :=
  let k := 136 - n % 136
  leBytes k (0x06 + 2 ^ (8 * k - 1))

/-- The digest's 32 bytes, the first byte least significant. -/
def sha3 (bs : List Byte) : Nat :=
  let msg := bs ++ sha3Tail bs.length
  let last := (List.range (msg.length / 136)).foldl (fun a i => a.taking ((msg.drop (136 * i)).take 136))
    (Lanes.build fun _ _ => 0)
  leNat ((last.lane.take 4).flatMap fun w => leBytes 8 w.toNat)

end Sys2Proof.Machine
end

