-- ==== Sys2Proof/Machine/MatrixOps.lean ====
section
/-! DEFINITION. The scalar-class instructions of majors 0x32 and 0x33: claims of operand slots (R232, R233) and
the top-k epilogue (R239, R242). -/

namespace Sys2Proof.Machine

/-! ### Claims (R231-R233, R244) -/

/-- Slot `o` of complex `x` claimed by the strand in slot `sid`, with geometry `g` (R232): a pending bias vector
swaps in (R244): the slot's bytes are the vector, those past its columns too (log 65), and their markers are those of the
shadow (R316); and the releases of earlier holders are acquired at `cplx` scope. -/
def State.claim (s : State) (sid o : Nat) (g : Word) : State :=
  let x := cxOf sid
  let t := s.strand sid
  let l := s.slot x o
  let s := s.acquire t.uid (strandLoc sid t.uid) .cplx l.toks
  s.setSlot x o { l with
    owner := some t.uid, sid := sid, geom := g
    data := if l.pending then l.shadow else l.data
    poison := if l.pending then l.shadowPoison else l.poison
    pending := false
    waiters := l.waiters.filter (· != sid) }

/-- Strands that still wait for slot `o` of complex `x`, oldest first (R232): one that has been pre-empted does
not. -/
def State.slotQueue (s : State) (x o : Nat) : List Nat :=
  (s.slot x o).waiters.filter fun i => (s.strand i).resident &&
    match (s.strand i).wait with | .slot p _ => p.toNat == o | _ => false

/-- `oclaim` (R232). -/
def execOclaim (d : OReg) (a : SReg) (s : State) : Out :=
  let x := s.myCx
  let l := s.slot x d.toNat
  let q := s.slotQueue x d.toNat
  let first := match q with | [] => true | i :: _ => i == s.cur
  if !geomValid (s.reg a) then .next (s.trapHere .geometry)
  else if l.owner == some s.me.uid || (l.owner.isNone && first) then
    .next (s.claim s.cur d.toNat (s.reg a)).advance
  else
    let q' := if q.contains s.cur then q else q ++ [s.cur]
    .next ((s.setSlot x d.toNat { l with waiters := q' }).waits (.slot d (s.reg a)))

/-- `SLOT_GRANT` (R232): a free slot goes to the oldest strand that waits for it, whose `oclaim` completes. -/
def execSlotGrant (x : Nat) (o : OReg) (s : State) : Out :=
  if (s.slot x o.toNat).owner.isSome then .next s
  else match s.slotQueue x o.toNat with
    | [] => .next s
    | i :: _ =>
        match (s.strand i).wait with
        | .slot _ g =>
            let s' := s.claim i o.toNat g
            .next (s'.setStrand i ((s'.strand i).go ((s'.strand i).pc + 4)))
        | _ => .next s

/-- Whether a copy of complex `x` is in flight into slot `o` (R179). -/
def State.copyIntoSlot (s : State) (x o : Nat) : Bool :=
  s.copies.any fun c => c.cplx == x && !c.todo.isEmpty && Block.dkind c.block == 1 && Block.slot c.block == o

/-- A slot released (R233): a release at `cplx` scope, then no owner; its geometry and bytes remain. -/
def State.unclaim (s : State) (o : Nat) : State :=
  let r := s.myRelease .cplx
  r.2.setSlot s.myCx o { r.2.slot s.myCx o with owner := none, toks := [r.1] }

/-- `orel` (R233). -/
def execOrel (d : OReg) (s : State) : Out :=
  if !s.holds d.toNat then .next (s.trapHere .slot)
  else if s.copyIntoSlot s.myCx d.toNat then .next (s.waits (.slotCopy d))
  else .next (s.unclaim d.toNat).advance

/-! ### The epilogue (R239, R242) -/

/-- List length in a control word. -/
def ctlK (w : Nat) : Nat := bitsOf w 6 0

/-- Whether the control bits 16:0 are valid (R239, R242). -/
def ctlOk (w : Nat) : Bool := !bitOf w 14 && !bitOf w 7 && decide (1 ≤ ctlK w) && decide (ctlK w ≤ 64)

/-- An epilogue from its control bits (R239). -/
def epilogueOf (rows w col : Nat) (lists : List (List Cand)) : Epilogue :=
  { rows := rows, k := ctlK w, int := bitOf w 16, biasen := bitOf w 15, bslot := BitVec.ofNat 6 (bitsOf w 13 8)
    control := BitVec.ofNat 17 w, colbase := BitVec.ofNat 32 col, lists := lists }

/-- `tkon` (R239). -/
def execTkon (a : SReg) (s : State) : Out :=
  let w := (s.reg a).toNat
  let rows := s.me.gm.rows
  if bitsOf w 31 17 != 0 || !ctlOk w then .next (s.trapHere .mode)
  else .next (s.setMe { s.me with
    epilogue := some (epilogueOf rows w (bitsOf w 63 32) (List.replicate rows [])) }).advance

/-- `tkoff` (R239). -/
def execTkoff (s : State) : Out := .next (s.setMe { s.me with epilogue := none }).advance

/-- Entry (r, i) of a save area (R242). An unfilled entry holds free values in the fields that name a candidate
(log 2): `n` numbers them. -/
def Epilogue.entry (e : Epilogue) (n : Nat) (i : Nat) : List Byte :=
  match (e.lists.getD (i / e.k) [])[i % e.k]? with
  | some c => leBytes 8 (c.value.toNat * 2 ^ 32 + c.key.toNat) ++ leBytes 8 (2 ^ 32 + c.idx.toNat)
  | none => leBytes 8 (Config.freeValue (n + 2 * i)).toNat
      ++ leBytes 8 ((Config.freeValue (n + 2 * i + 1)).toNat % 2 ^ 32)

/-- The save area of an epilogue (R242). -/
def epilogueArea (n : Nat) : Option Epilogue → List Byte
  | none => List.replicate 64 0
  | some e =>
      leBytes 8 (2 ^ 63 + e.rows * 2 ^ 32 + e.control.toNat) ++ leBytes 8 e.colbase.toNat ++ List.replicate 48 0
      ++ (List.range (e.rows * e.k)).flatMap (e.entry n)

/-- `tksave` (R242): a failed access leaves memory as it was (R288). -/
def execTksave (a : SReg) (s : State) : Out :=
  let va := s.reg a
  if va.toNat % 64 ≠ 0 then .next (s.trap .misaligned va)
  else match s.writeSpan s.myAccess va.toNat (epilogueArea s.freeCount s.me.epilogue) with
    | (some e, _) => .next (s.stop e)
    | (none, s') =>
        let used := match s.me.epilogue with | some e => 2 * e.rows * e.k | none => 0
        .next ({ s' with freeCount := s'.freeCount + used } : State).advance

/-- The header of a save area (R242): rows, control bits and colbase, when every rule is kept. -/
def areaHead (bs : List Byte) : Option (Nat × Nat × Nat) :=
  let d0 := dword bs 0
  let rows := bitsOf d0 36 32
  if bitsOf d0 62 37 != 0 || bitsOf d0 31 17 != 0 || bitsOf (dword bs 1) 63 32 != 0
    || (List.range 6).any (fun i => dword bs (2 + i) != 0) || !ctlOk (bitsOf d0 16 0)
    || !(rows == 1 || rows == 2 || rows == 4 || rows == 8 || rows == 16) then none
  else some (rows, bitsOf d0 16 0, bitsOf (dword bs 1) 31 0)

/-- A row of a save area from entry `i`, of `k` entries: none when a rule is broken (R242). -/
def areaRow (bs : List Byte) (i : Nat) : Nat → Bool → Option (List Cand)
  | 0, _ => some []
  | k + 1, open_ =>
      let x := dword bs (2 * i)
      let y := dword bs (2 * i + 1)
      if bitsOf y 63 33 != 0 || (bitOf y 32 && !open_) then none
      else match areaRow bs (i + 1) k (bitOf y 32) with
        | none => none
        | some l =>
            if bitOf y 32 then
              some ({ value := BitVec.ofNat 32 (x / 2 ^ 32), key := BitVec.ofNat 32 x, idx := BitVec.ofNat 32 y } :: l)
            else some l

/-- The rows of a save area from row `r`. -/
def areaRows (bs : List Byte) (k r : Nat) : Nat → Option (List (List Cand))
  | 0 => some []
  | n + 1 =>
      match areaRow bs (r * k) k true, areaRows bs k (r + 1) n with
      | some l, some t => some (l :: t)
      | _, _ => none

/-- `tkload` (R242): D0 is read first, and with armed 0 nothing else. The header is read whole before it is checked, and
then the entries are: R242 does not say whether a read of a later entry that fails or a defect of an earlier one comes
first (log 78). -/
def execTkload (a : SReg) (s : State) : Out :=
  let va := s.reg a
  if va.toNat % 64 ≠ 0 then .next (s.trap .misaligned va)
  else match s.readSpan s.myAccess va.toNat 8 with
    | .error e => .next (s.stop e)
    | .ok (d0, s0) =>
        if !bitOf (dword d0 0) 63 then .next (s0.setMe { s0.me with epilogue := none }).advance
        else match s0.readSpan s.myAccess (va.toNat + 8) 56 with
          | .error e => .next (s.stop e)
          | .ok (h, s1) => match areaHead (d0 ++ h) with
            | none => .next (s.trapHere .mode)
            | some (rows, w, col) =>
                match s1.readSpan s.myAccess (va.toNat + 64) (16 * rows * ctlK w) with
                | .error e => .next (s.stop e)
                | .ok (bs, s2) =>
                    match areaRows bs (ctlK w) 0 rows with
                    | none => .next (s.trapHere .mode)
                    | some l => .next (s2.setMe { s2.me with epilogue := some (epilogueOf rows w col l) }).advance

end Sys2Proof.Machine
end

