-- ==== Sys2Proof/Machine/Context.lean ====
section
/-! DEFINITION. Context tags (R252-R265, R267): grants and retirement, `ctx`, the context indirection table, and
the scalar accesses that name a tag. -/

namespace Sys2Proof.Machine

/-! ### Grants (R252, R253) -/

/-- The lowest free tag among `n` from `t` on. -/
def freeTag (tags : Sparse TagState) (t : Nat) : Nat → Option Nat
  | 0 => none
  | n + 1 => if Sparse.get .free t tags = .free then some t else freeTag tags (t + 1) n

/-- The tag that a grant gives (R253): the lowest free one, at most `tagcap`. Only the first
`tags.length + 1` need be looked at. -/
def Partition.nextTag (p : Partition) : Option Nat := freeTag p.tags 1 (Nat.min p.tagcap.toNat (p.tags.length + 1))

/-- Tag `t` set to a state. -/
def Partition.setTag (p : Partition) (t : Nat) (v : TagState) : Partition := { p with tags := Sparse.put .free t v p.tags }

/-- Tag requests that still wait, oldest first (R253): a strand that has been pre-empted waits no more. -/
def State.tagQueue (s : State) (p : Nat) : List TagReq :=
  (s.part p).tagReqs.filter fun r => match r with
    | .strand i => (s.strand i).resident && (s.strand i).part == p &&
        (match (s.strand i).wait with | .tag _ => true | _ => false)
    | .record _ => true

/-- Tag `t` granted to request `r` of partition `p`. -/
def State.grantTag (s : State) (p t : Nat) (r : TagReq) : State :=
  s.setPart p { (s.part p).setTag t .live with tagReqs := (s.tagQueue p).filter (· != r) }

/-- `tnew` (R262). -/
def execTnew (d : SReg) (s : State) : Out :=
  let p := s.me.part
  let r := TagReq.strand s.cur
  let q := s.tagQueue p
  let first := match q with | [] => true | x :: _ => x == r
  match s.myPart.nextTag with
  | some t =>
      if first then .next ((s.grantTag p t r).result d (BitVec.ofNat 64 t))
      else
        let s' := s.setPart p { s.part p with tagReqs := if q.contains r then q else q ++ [r] }
        .next (s'.waits (.tag d))
  | none =>
      let s' := s.setPart p { s.part p with tagReqs := if q.contains r then q else q ++ [r] }
      .next (s'.waits (.tag d))

/-- `tnewq` (R262): it never waits. -/
def execTnewq (d : SReg) (s : State) : Out :=
  match s.myPart.nextTag with
  | some t =>
      if (s.tagQueue s.me.part).isEmpty then
        .next ((s.setMyPart (s.myPart.setTag t .live)).result d (BitVec.ofNat 64 t))
      else .next (s.result d 0)
  | none => .next (s.result d 0)

/-! ### `ctx` (R263) -/

/-- `tset` (R263). -/
def execTset (a : SReg) (s : State) : Out :=
  if 0xFFFF < (s.reg a).toNat then .next (s.trap .tag (s.reg a))
  else .next (s.setMe { s.me with ctx := (s.reg a).setWidth 16 }).advance

/-- Slot `i` of the context indirection table (R259). -/
def Partition.citAt (p : Partition) (i : Nat) : BitVec 16 := Sparse.get 0 i p.cit

/-- `tsets` (R263). -/
def execTsets (a : SReg) (s : State) : Out :=
  if 4096 ≤ (s.reg a).toNat then .next (s.trap .tag (s.reg a))
  else .next (s.setMe { s.me with ctx := s.myPart.citAt (s.reg a).toNat }).advance

/-- `tget` (R263). -/
def execTget (d : SReg) (s : State) : Out := .next (s.result d (s.me.ctx.setWidth 64))

/-! ### Retirement and drain (R258, R264) -/

/-- `tret` of a tag (R264): its retirement point. -/
def execTretTag (a : SReg) (s : State) : Out :=
  let t := (s.reg a).toNat
  if t = 0 ∨ 0xFFFF < t ∨ s.myPart.tag t ≠ .live then .next (s.trap .tag (s.reg a))
  else .next (s.setMyPart (s.myPart.setTag t (.draining s.clock))).advance

/-- The release sequences at the bytes of freed cells end with them. -/
def State.forgetCells (s : State) (l : List CellEntry) : State :=
  let gone (k : Nat) : Bool := l.any fun c => k / 2 ^ 48 == c.tag && k % 2 ^ 48 / 64 == c.line
  { s with order := { s.order with cells := s.order.cells.filter fun e => !gone e.1 } }

/-- `TAG_DRAIN_COMPLETE` (R258): no earlier than 16 clocks after the retirement point, the cells of tag `t` are
freed and the tag is free. -/
def execTagDrainComplete (p t : Nat) (s : State) : Out :=
  match (s.part p).tag t with
  | .draining since =>
      if s.clock < since + 16 then .next s
      else
        let x := s.part p
        let freed := x.cells.filter fun c => c.tag == t
        .next ((s.forgetCells freed).setPart p { x.setTag t .free with cells := x.cells.filter fun c => c.tag != t })
  | _ => .next s

/-! ### The context indirection table (R265) -/

/-- `citw` (R265): the slot is checked first. -/
def execCitw (a b : SReg) (s : State) : Out :=
  if 4096 ≤ (s.reg a).toNat then .next (s.trap .tag (s.reg a))
  else if 0xFFFF < (s.reg b).toNat then .next (s.trap .tag (s.reg b))
  else .next (s.setMyPart { s.myPart with
    cit := Sparse.put 0 (s.reg a).toNat ((s.reg b).setWidth 16) s.myPart.cit }).advance

/-- `citr` (R265). -/
def execCitr (d a : SReg) (s : State) : Out :=
  if 4096 ≤ (s.reg a).toNat then .next (s.trap .tag (s.reg a))
  else .next (s.result d ((s.myPart.citAt (s.reg a).toNat).setWidth 64))

/-! ### Accesses that name a tag (R267) -/

/-- `ldt` (R267): tag sB stands for `ctx`. -/
def execLdt (d a b : SReg) (z : Size) (s : State) : Out :=
  s.loadScalar { s.myAccess with tag := (s.reg b).toNat } d (s.reg a) (sizeBytes z) true

/-- `stcm` (R267): tag 0 stands for `ctx`. -/
def execStcm (d a : SReg) (z : Size) (s : State) : Out :=
  s.storeScalar { s.myAccess with tag := 0 } (s.reg a) (sizeBytes z) (s.reg d)

end Sys2Proof.Machine
end

