-- ==== Sys2Proof/Machine/Lanes.lean ====
section
/-! DEFINITION. Lane units and where a strand may be placed (R29-R33). -/

namespace Sys2Proof.Machine

/-- Side of a strand slot: the core of its complex (R7). -/
def sideOf (sid : Nat) : Nat := sid / 8 % 2

/-- The strand slots of side `d` of complex `x`. -/
def slotsOf (x d : Nat) : List Nat := (List.range 8).map fun i => 16 * x + 8 * d + i

/-- Units a side owns under split (R30). -/
def Complex.owned (c : Complex) (d : Nat) : Nat := if d = 0 then c.split.toNat else 8 - c.split.toNat

/-- A side's reserve (R30). -/
def Complex.reserve (c : Complex) (d : Nat) : Nat := if d = 0 then c.reserve0.toNat else c.reserve1.toNat

/-- A side's free units: those no strand holds (R29). -/
def State.freeUnits (s : State) (x d : Nat) : Nat :=
  (s.cx x).owned d - (((slotsOf x d).filter fun i => (s.strand i).resident).map fun i => (s.strand i).grant).sum

/-- avail(side) of R29. -/
def State.avail (s : State) (x d : Nat) : Nat :=
  let c := s.cx x
  let o := 1 - d
  s.freeUnits x d + if c.lock then 0 else Nat.min (s.freeUnits x o) (c.owned o - c.reserve o)

/-- The lowest free strand slot of a side. -/
def State.freeSlot (s : State) (x d : Nat) : Option Nat := (slotsOf x d).find? fun i => !(s.strand i).resident

/-- Strands resident in cluster `k`. -/
def State.inCluster (s : State) (k : Nat) : List Nat := s.residents.filter fun i => clusOf i == k

/-- Whether the strands of complex `x`'s cluster agree with a fuse flag (R31). -/
def State.fusionOk (s : State) (x : Nat) (fuse : Bool) : Bool :=
  (s.inCluster (x / 4)).all fun i => (s.strand i).fuse == fuse

/-- `u` units for a strand of side `d`: its side's own free units first, the rest moved across (R29). -/
def State.takeUnits (s : State) (x d u : Nat) : State :=
  let more := u - s.freeUnits x d
  let c := s.cx x
  let n := if d = 0 then c.split.toNat + more else c.split.toNat - more
  s.setCx x { c with split := BitVec.ofNat 4 n }

/-- The most units a side could ever hold (R22). -/
def Complex.most (c : Complex) (d : Nat) : Nat := if c.lock then c.owned d else 8 - c.reserve (1 - d)

/-- What the launch unit asks of a place: pin, fuse and the lane minimum. -/
structure Want where
  pin     : Option Nat
  fuse    : Bool
  lanemin : Nat
  lanereq : Nat
  deriving DecidableEq, Repr

/-- Every side of the package in the order of R29. -/
def allSides : List (Nat × Nat) := (List.range 256).map fun i => (i / 2, i % 2)

/-- Whether complex `x` belongs to the partition and satisfies pin. -/
def Partition.suits (p : Partition) (w : Want) (x : Nat) : Bool :=
  p.owns x && match w.pin with | some y => x == y | none => true

/-- Every side on which the lane allocator places a strand, in the order of R29: none of complex 0 (R277). -/
def openSides : List (Nat × Nat) := allSides.drop 2

/-- The side on which R29 places a record. -/
def State.placeFor (s : State) (p : Partition) (w : Want) : Option (Nat × Nat) :=
  openSides.find? fun c => p.suits w c.1 && (s.freeSlot c.1 c.2).isSome && s.fusionOk c.1 w.fuse
    && decide (w.lanemin ≤ s.avail c.1 c.2)

/-- Lane minimums of complex `x`'s resident strands. -/
def State.minimums (s : State) (x : Nat) : Nat := ((s.onCx x).map fun i => (s.strand i).lanemin).sum

/-- The target side of a waiting record (R33). -/
def State.targetFor (s : State) (p : Partition) (w : Want) : Option (Nat × Nat) :=
  openSides.find? fun c => p.suits w c.1 && (s.freeSlot c.1 c.2).isSome && s.fusionOk c.1 w.fuse
    && decide (w.lanemin + s.minimums c.1 + (s.cx c.1).reserve (1 - c.2) ≤ 8)

/-- Whether some side of the partition could ever hold the lane minimum (R22). -/
def State.couldHold (s : State) (p : Partition) (w : Want) : Bool :=
  allSides.any fun c => p.suits w c.1 && decide (w.lanemin ≤ (s.cx c.1).most c.2)

end Sys2Proof.Machine
end

