-- ==== Sys2Proof/Machine/Launch.lean ====
section
/-! DEFINITION. The launch unit (R16-R28, R35, R297, R323): queue descriptors, start records, completion entries,
graph nodes, gathering, and the start of strands. -/

namespace Sys2Proof.Machine

/-! ### Its accesses (R323) -/

/-- Access by the launch unit on behalf of partition `p`: supervisor permissions, tag 0. -/
def launchAccess (p : Nat) : Access :=
  { part := p, mode := .supervisor, tag := 0, agent := launchAgent p, family := launchAgent p, quiet := true }

/-- VA of a queue descriptor (R17). -/
def State.descVa (s : State) (p q : Nat) : Nat := (s.part p).qbase.toNat + 64 * q
/-- VA of a graph node (R25). -/
def State.nodeVa (s : State) (p n : Nat) : Nat := (s.part p).gbase.toNat + 64 * n

/-- Folman's event for a failed access (R323): `queue` tells a queue from a node. -/
def State.launchFault (s : State) (p : Nat) (queue : Bool) (n : Nat) : Stop → State
  | .trap _ va note => (s.noted note).logs (.launchFault p queue n va.toNat)
  | _ => s.logs (.launchFault p queue n 0)

/-- A read by the launch unit that acquires at `sys` scope what it finds (R18, R200). -/
def State.acquireSpan (s : State) (p va n : Nat) : Except Stop (List Byte × State) :=
  let a := launchAgent p
  let s0 : State := { s with order := { s.order with seen := Sparse.put [] a [] s.order.seen } }
  match s0.readSpan (launchAccess p) va n with
  | .error st => .error st
  | .ok (bs, s1) => .ok (bs, s1.acquire a pkgLoc .sys (Sparse.get [] a s1.order.seen))

/-- The launch unit's copy of a queue descriptor. -/
def State.queue (s : State) (p q : Nat) : QState := Sparse.get QState.off q (s.part p).queues
/-- Replace it. -/
def State.setQueue (s : State) (p q : Nat) (v : QState) : State :=
  s.setPart p { s.part p with queues := Sparse.put QState.off q v (s.part p).queues }

/-- A failed descriptor access or write disables the queue (R323). -/
def State.queueOff (s : State) (p q : Nat) : State := s.setQueue p q { s.queue p q with enabled := false }

/-- Index `a` plus `n`, modulo 65,536 (R17). -/
def idxAdd (a n : Nat) : Nat := (a + n) % 65536

/-! ### Completion entries (R20) -/

/-- Write one entry and advance cpltail; none when a write fails. -/
def State.writeEntry (s : State) (p q : Nat) (e : Word × Word) : Except Stop State :=
  let x := s.queue p q
  let a := launchAccess p
  match s.writeSpan a (x.cplbase.toNat + 16 * (x.cpltail % x.cplsize)) (dwordBytes [e.1, e.2]) with
  | (some st, _) => .error st
  | (none, s1) =>
      let tail := idxAdd x.cpltail 1
      match s1.check a (s.descVa p q + 24 : Nat) 2 false true with
      | .bad c n => .error (.trap c (BitVec.ofNat 64 (s.descVa p q + 24)) n)
      | .cell => .error .cell
      | .ok g =>
          let s2 := s1.store a g (leBytes 2 tail)
          let r := s2.release a.agent pkgLoc .sys
          let l := placeOf g.pa g.home
          let s3 := (List.range 2).foldl (fun s i => s.setTokens (byteKey 0 (l + i)) [r.1]) r.2
          .ok ((s3.setQueue p q { s3.queue p q with cpltail := tail }).wakePart p)

/-- Write held entries in order while the completion ring has room; `n` bounds them. -/
def State.flush (p q : Nat) : Nat → State → State
  | 0, s => s
  | n + 1, s =>
      let x := s.queue p q
      match x.held with
      | [] => s
      | e :: t =>
          if !x.enabled || decide (x.cplsize ≤ (x.cpltail + 65536 - x.cplhead) % 65536) then s
          else match s.writeEntry p q e with
            | .error st => (s.launchFault p true q st).queueOff p q
            | .ok s' => State.flush p q n (s'.setQueue p q { s'.queue p q with held := t })

/-- A completion entry: written, or held behind the earlier ones (R20). -/
def State.post (s : State) (p q : Nat) (d0 d1 : Word) : State :=
  let x := s.queue p q
  State.flush p q (x.held.length + 1) (s.setQueue p q { x with held := x.held ++ [(d0, d1)] })

/-- D1 of the entry of a record (R20). -/
def entryWord (ring : Nat) (status : BitVec 8) : Word := BitVec.ofNat 64 (ring * 2 ^ 16 + status.toNat * 2 ^ 8)

/-- A graph fault (R297): the entry names the node. -/
def State.graphFault (s : State) (p q n : Nat) : State :=
  s.post p q (BitVec.ofNat 64 (s.nodeVa p n)) (BitVec.ofNat 64 (n * 2 ^ 48 + 0xFFFF * 2 ^ 16 + 0x3D * 2 ^ 8))

/-! ### Graph nodes (R25) -/

/-- A field of a block of doublewords. -/
def fieldOf (ws : List Word) (i hi lo : Nat) : Nat := bitsOf (ws.getD i 0).toNat hi lo

/-- Kind of a node. -/
def nodeKind (ws : List Word) : Nat := fieldOf ws 0 3 0
/-- Queue of a node. -/
def nodeQueue (ws : List Word) : Nat := fieldOf ws 0 9 4
/-- Predecessor count of a node. -/
def nodePreds (ws : List Word) : Nat := fieldOf ws 0 31 16

/-- A reserved kind or a reserved field that is not zero. -/
def nodeBad (ws : List Word) : Bool :=
  decide (3 ≤ nodeKind ws) || fieldOf ws 0 47 32 != 0 || fieldOf ws 0 15 10 != 0 || fieldOf ws 3 63 32 != 0
  || (List.range 4).any fun i => ws.getD (4 + i) 0 != 0

/-- A graph fault of node `n`, which cannot be read (R323). The entry goes to the node's queue when the launch unit
knows it from an earlier reading; else to a queue that is a free value, since the field that names it cannot be
read (log 31). -/
def State.unreadNode (s : State) (p n : Nat) (st : Stop) : State :=
  let s1 := s.launchFault p false n st
  match Sparse.get none (s.nodeVa p n) (s.part p).nodeQueues with
  | some q => s1.graphFault p q n
  | none => let f := s1.free; f.2.graphFault p (f.1.toNat % 64) n

/-- What reading a node gives: its doublewords, or none when it could not be read (R323) or is bad. A bad node is
reported once, until it is found rewritten (R25). -/
def State.readNode (s : State) (p n : Nat) : Option (List Word) × State :=
  match s.readSpan (launchAccess p) (s.nodeVa p n) 64 with
  | .error st => (none, s.unreadNode p n st)
  | .ok (bs, s1) =>
      let ws := dwords bs
      let x := s1.part p
      let x := { x with nodeQueues := Sparse.put none (s.nodeVa p n) (some (nodeQueue ws)) x.nodeQueues }
      let s1 := s1.setPart p x
      if nodeBad ws then
        if x.badNodes.contains n then (none, s1)
        else (none, (s1.setPart p { x with badNodes := n :: x.badNodes }).graphFault p (nodeQueue ws) n)
      else (some ws, s1.setPart p { x with badNodes := x.badNodes.filter (· != n) })

/-! ### Start records (R21, R22) -/

/-- A record that may be placed: its queue or its node's, its ring index (0xFFFF for a graph-started one), the
node that completes with it, and its doublewords. -/
structure Job where
  queue : Nat
  ring  : Nat
  node  : Nat
  graph : Bool
  words : List Word
  deriving DecidableEq, Repr

/-- Field of a record. -/
def Job.f (j : Job) (i hi lo : Nat) : Nat := fieldOf j.words i hi lo
/-- Flag of a record. -/
def Job.flag (j : Job) (i b : Nat) : Bool := j.f i b b == 1
/-- Barrier flag (R19). -/
def Job.barrier (j : Job) : Bool := j.flag 2 32
/-- newtag. -/
def Job.newtag (j : Job) : Bool := j.flag 2 35
/-- resume. -/
def Job.resume (j : Job) : Bool := j.flag 2 36
/-- prio. -/
def Job.prio (j : Job) : Nat := j.f 2 25 24
/-- parkid. -/
def Job.parkid (j : Job) : Nat := j.f 3 56 41
/-- cplx. -/
def Job.cplx (j : Job) : Nat := j.f 3 38 32
/-- The node field (R21). -/
def Job.named (j : Job) : Nat := j.f 2 63 48
/-- What the record asks of its place. -/
def Job.want (j : Job) : Want :=
  { pin := if j.flag 3 40 then some j.cplx else none, fuse := j.flag 2 33, lanemin := j.f 2 23 20, lanereq := j.f 2 19 16 }

/-- The group ids in a `grpmem` value (R34). -/
def groupIds (w : Nat) : List Nat := ((List.range 4).map fun i => w / 256 ^ i % 256).filter (· != 255)
/-- The groups a record names. -/
def Job.groups (j : Job) : List Nat := groupIds (j.f 3 31 0)

/-- Group table entry `g` (R34). -/
def Partition.group (p : Partition) (g : Nat) : Group := Sparse.get Group.clear g p.groups
/-- Replace it. -/
def Partition.setGroup (p : Partition) (g : Nat) (v : Group) : Partition :=
  { p with groups := Sparse.put Group.clear g v p.groups }

/-- The co-resident groups a record names. -/
def State.coGroups (s : State) (p : Nat) (j : Job) : List Nat := j.groups.filter fun g => ((s.part p).group g).cores

/-- Whether a record breaks R22 without looking at a node. -/
def State.recordBad (s : State) (p : Nat) (j : Job) : Bool :=
  let x := s.part p
  let w := j.want
  j.words.isEmpty
  || j.f 0 63 57 != 0 || j.f 0 1 0 != 0 || j.f 2 47 37 != 0 || j.f 2 31 26 != 0 || j.f 3 63 57 != 0 || j.f 3 39 39 != 0
  || (List.range 3).any (fun i => j.words.getD (5 + i) 0 != 0)
  || j.f 2 15 0 == 0 || w.lanereq == 0 || decide (8 < w.lanereq) || w.lanemin == 0 || decide (w.lanereq < w.lanemin)
  || (w.pin.any fun c => !x.owns c)
  || (j.named != 65535 && decide (x.gcount.toNat ≤ j.named))
  || (j.graph && j.barrier)
  || (j.parkid != 0 && !j.resume)
  || (j.resume && (w.pin.isNone || j.newtag || j.f 2 63 48 != 65535 || j.f 3 31 0 != 2 ^ 32 - 1
      || !x.parked.any fun k => k.parkid.toNat == j.parkid && k.cplx == j.cplx))

/-- The verdict on a record (R22, R35): a record read from a queue that names a node has the node read. -/
def State.judge (s : State) (p : Nat) (j : Job) (capable : Bool) : Verdict × State :=
  if !capable || s.recordBad p j then (.invalid, s)
  else
    let r := if j.named = 65535 then (true, s)
      else match s.readNode p j.named with
        | (none, s1) => (false, s1)
        | (some ws, s1) => (nodeKind ws == 0 && (j.graph || nodePreds ws == 0), s1)
    if !r.1 then (.invalid, r.2)
    else if j.groups.eraseDups.length != j.groups.length || (j.groups.any fun g => !((s.part p).group g).valid)
        || decide (1 < (s.coGroups p j).length) then (.badGroup, r.2)
    else (.ok, r.2)

/-- Status of a refused record (R20). -/
def Verdict.status : Verdict → BitVec 8
  | .badGroup => 0x3C
  | _ => 0x3D

/-- A refusal is reported by a completion entry (R297). -/
def State.refuseJob (s : State) (p : Nat) (j : Job) (v : Verdict) : State :=
  s.post p j.queue (j.words.getD 4 0) (entryWord j.ring v.status)

/-! ### Records in their queues (R18, R19) -/

/-- The job of a record of queue `q`. -/
def QRec.job (r : QRec) (q : Nat) : Job :=
  { queue := q, ring := r.idx, node := if r.words.isEmpty then 65535 else fieldOf r.words 2 63 48, graph := false, words := r.words }

/-- Records that have been neither started nor refused. -/
def QState.open (x : QState) : List QRec := x.recs.filter fun r => !r.started

/-- The record that R19 allows to start, if any: the oldest, and with the barrier flag only when every earlier
record has completed. -/
def QState.headRec (x : QState) (q : Nat) : Option QRec :=
  if !x.enabled then none
  else match x.open with
    | [] => none
    | r :: _ => if (r.job q).barrier && x.live.any (fun l => decide (l.1 < r.seq)) then none else some r

/-- Change the record with index `i`. -/
def QState.onRec (x : QState) (i : Nat) (f : QRec → QRec) : QState :=
  { x with recs := x.recs.map fun r => if r.idx == i then f r else r }

/-- Drop handled records at the front: head passes them (R18). -/
def dropHandled : List QRec → Nat → List QRec × Nat
  | [], h => ([], h)
  | r :: t, h => if r.started then dropHandled t (idxAdd r.idx 1) else (r :: t, h)

/-- A record started or refused: head advances past what is handled, in memory too (R18). -/
def State.handled (s : State) (p q i : Nat) : State :=
  let x := (s.queue p q).onRec i fun r => { r with started := true }
  let d := dropHandled x.recs x.head
  let s1 := s.setQueue p q { x with recs := d.1, head := d.2 }
  if d.2 = x.head then s1
  else match s1.writeSpan (launchAccess p) (s.descVa p q + 8) (leBytes 2 d.2) with
    | (some st, _) => (s1.launchFault p true q st).queueOff p q
    | (none, s2) => s2

/-- A resume record whose parked strand another one has continued since (R22, R46). -/
def State.orphaned (s : State) (p : Nat) (j : Job) : Bool :=
  j.resume && !(s.part p).parked.any fun k => k.parkid.toNat == j.parkid && k.cplx == j.cplx

/-- Judge record `r` of queue `q` when that has not been done, and a resume record again when its strand has gone; a
refused one is reported at once. -/
def State.judgeRec (p q : Nat) (s : State) (r : QRec) : State :=
  if r.started || (r.verdict.isSome && !s.orphaned p (r.job q)) then s
  else
    let v := s.judge p (r.job q) r.capable
    let s1 := v.2.setQueue p q ((v.2.queue p q).onRec r.idx fun r => { r with verdict := some v.1 })
    if v.1 = .ok then s1 else (s1.refuseJob p (r.job q) v.1).handled p q r.idx

/-- Judge the head of a queue until a head stands, none is left, or R19 holds it back; `n` bounds the heads.
The later records that name the head's co-resident group are judged with it (R35). -/
def State.judgeHead (p q : Nat) : Nat → State → State
  | 0, s => s
  | n + 1, s =>
      match (s.queue p q).headRec q with
      | none => s
      | some r =>
          let s1 := State.judgeRec p q s r
          match (s1.queue p q).headRec q with
          | none => s1
          | some h =>
              if h.idx = r.idx then
                match s1.coGroups p (h.job q) with
                | g :: _ => ((s1.queue p q).open.filter fun t => (t.job q).groups.contains g && !(t.job q).barrier).foldl
                    (State.judgeRec p q) s1
                | [] => s1
              else State.judgeHead p q n s1

/-! ### What is ready (R29, R35) -/

/-- A graph node as a job. -/
def NodeRec.job (x : NodeRec) : Job := { queue := x.queue, ring := 65535, node := x.n, graph := true, words := x.words }

/-- Whether a record has been judged sound. -/
def QRec.sound (r : QRec) : Bool := r.verdict == some .ok

/-- The sound head of each queue, ascending. -/
def State.heads (s : State) (p : Nat) : List (Nat × QRec) :=
  ((s.part p).queues.map (·.1)).filterMap fun q =>
    match (s.queue p q).headRec q with
    | some r => if r.sound then some (q, r) else none
    | none => none

/-- The members of co-resident group `g` that the launch unit finds (R35): heads, enqueued nodes, then the later
records of the queues whose head names the group. -/
def State.found (s : State) (p g : Nat) : List Job :=
  let hs := (s.heads p).filter fun h => (h.2.job h.1).groups.contains g
  hs.map (fun h => h.2.job h.1)
  ++ ((s.part p).nodes.map NodeRec.job).filter (fun j => j.groups.contains g)
  ++ hs.flatMap fun h => (((s.queue p h.1).open.drop 1).filter fun r =>
      r.sound && (r.job h.1).groups.contains g && !(r.job h.1).barrier).map fun r => r.job h.1

/-- The gathered members of group `g`: none until as many have been found as the entry names. -/
def State.gathered (s : State) (p g : Nat) : Option (List Job) :=
  let n := ((s.part p).group g).members.toNat
  if n = 0 ∨ (s.found p g).length < n then none else some ((s.found p g).take n)

/-- The jobs of something ready: none when it no longer is. -/
def State.jobs (s : State) (p : Nat) : Ready → Option (List Job)
  | .queue q => match (s.heads p).find? fun h => h.1 == q with
      | some h => if (s.coGroups p (h.2.job q)).isEmpty then some [h.2.job q] else none
      | none => none
  | .node n => match (s.part p).nodes.find? fun x => x.n == n with
      | some x => if (s.coGroups p x.job).isEmpty then some [x.job] else none
      | none => none
  | .group g => if ((s.part p).group g).cores then s.gathered p g else none

/-- Everything ready now: queues ascending, then nodes, then groups. -/
def State.readyNow (s : State) (p : Nat) : List Ready :=
  let gs := ((s.heads p).flatMap fun h => s.coGroups p (h.2.job h.1)) ++ (s.part p).nodes.flatMap fun x => s.coGroups p x.job
  (((s.heads p).map fun h => Ready.queue h.1) ++ ((s.part p).nodes.map fun x => Ready.node x.n)
    ++ gs.eraseDups.map Ready.group).filter fun r => (s.jobs p r).isSome

/-- Enqueued resume records whose strand has gone are refused (R22, R46). -/
def State.dropOrphans (p : Nat) (s : State) : State :=
  ((s.part p).nodes.filter fun x => s.orphaned p x.job).foldl (fun s x =>
    (s.setPart p { s.part p with nodes := (s.part p).nodes.filter (· != x) }).refuseJob p x.job .invalid) s

/-- Judge every head, and bring the order of readiness up to date (R29): what is still ready keeps its place. What
becomes ready in one step is taken in the order of `readyNow`, which the manual leaves open (log 48). -/
def State.settle (s : State) (p : Nat) : State :=
  let s := ((s.part p).queues.map (·.1)).foldl (fun s q => State.judgeHead p q ((s.queue p q).recs.length + 1) s) s
  let s := s.dropOrphans p
  let now := s.readyNow p
  let kept := (s.part p).ready.filter now.contains
  let list := kept ++ now.filter fun r => !kept.contains r
  s.setPart p { s.part p with
    ready := list
    tagReqs := (s.part p).tagReqs.filter fun r => match r with | .record x => list.contains x | _ => true }

/-! ### Reading a descriptor (R17, R18) -/

/-- A ring size that is a power of two, 1 to 32,768. -/
def sizeOk (n : Nat) : Bool := (List.range 16).any fun i => n == 2 ^ i

/-- Whether a descriptor's reserved fields and sizes are sound (R17). -/
def descOk (d : List Word) : Bool :=
  fieldOf d 1 63 48 == 0 && fieldOf d 3 63 48 == 0 && fieldOf d 4 63 1 == 0
  && (List.range 3).all (fun i => d.getD (5 + i) 0 == 0) && sizeOk (fieldOf d 1 47 32) && sizeOk (fieldOf d 3 47 32)

/-- Read `n` records from readTo on (R18). -/
def State.readRecs (p q : Nat) : Nat → State → State
  | 0, s => s
  | n + 1, s =>
      let x := s.queue p q
      let add (s : State) (ws : List Word) : State :=
        let r : QRec := { idx := x.readTo, seq := x.count, words := ws, capable := false, verdict := none, started := false }
        let c := s.couldHold (s.part p) (r.job q).want
        s.setQueue p q { s.queue p q with
          recs := (s.queue p q).recs ++ [{ r with capable := c }], readTo := idxAdd x.readTo 1, count := x.count + 1 }
      match s.acquireSpan p (x.ringbase.toNat + 64 * (x.readTo % x.ringsize)) 64 with
      | .error st => State.readRecs p q n (add (s.launchFault p true q st) [])
      | .ok (bs, s1) => State.readRecs p q n (add s1 (dwords bs))

/-- One reading of queue `q`'s descriptor (R18): the records up to tail, and the held entries. A queue that is loaded
again starts from its head with no record read: what gathering had started ahead of that head (R35) is read and started
anew, since the manual ties it to no later reading (log 67). -/
def State.poll (s : State) (p q : Nat) : State :=
  match s.readSpan (launchAccess p) (s.descVa p q) 64 with
  | .error st => ((s.launchFault p true q st).queueOff p q).settle p
  | .ok (bs, s1) =>
      let d := dwords bs
      if !descOk d then ((s1.logs (.queueOff p q)).queueOff p q).settle p
      else if fieldOf d 4 0 0 = 0 then (s1.queueOff p q).settle p
      else
        let x := s1.queue p q
        let x := if x.enabled then x else
          { x with
            enabled := true, ringbase := d.getD 0 0, ringsize := fieldOf d 1 47 32, head := fieldOf d 1 15 0
            cplbase := d.getD 2 0, cplsize := fieldOf d 3 47 32, cpltail := fieldOf d 3 15 0
            readTo := fieldOf d 1 15 0, recs := [] }
        let s2 := s1.setQueue p q { x with cplhead := fieldOf d 3 31 16 }
        let s3 := State.readRecs p q (idxAdd (fieldOf d 1 31 16) (65536 - x.readTo)) s2
        (State.flush p q x.held.length s3).settle p

/-- `DOORBELL` (R18, R270): the host rings queue `q` of partition `p`; what it wrote before is seen. Any other number
is ignored. -/
def execDoorbell (p q : Nat) (s : State) : Out :=
  if 16 ≤ p ∨ 64 ≤ q then .next s
  else .next (((s.follows (launchAgent p) (outAgent 0)).wakePart p).poll p q)

/-- `DESCRIPTOR_POLL` (R18, R20): the launch unit re-reads the descriptor while it holds entries. -/
def execDescriptorPoll (p q : Nat) (s : State) : Out :=
  if (s.queue p q).held.isEmpty then .next s else .next (s.poll p q)

/-- `HELD_COMPLETION_WRITE` (R20). -/
def execHeldCompletionWrite (p q : Nat) (s : State) : Out :=
  .next (State.flush p q (s.queue p q).held.length s)

/-- `qpost` (R227): a release at `pkg` scope, then a reading of the queue's tail as by a doorbell. -/
def execQpost (a : SReg) (s : State) : Out :=
  if 64 ≤ (s.reg a).toNat then .next (s.trapHere .record)
  else
    let p := s.me.part
    let s1 := s.follows (launchAgent p) s.me.uid
    .next (((s1.wakePart p).poll p (s.reg a).toNat).advance)

/-! ### Starting a strand (R23, R46, R47) -/

/-- `s2` at start (R23). -/
def Job.s2 (j : Job) : Word :=
  BitVec.ofNat 64 (j.queue % 64 + (if j.graph then 64 else 0) + (if j.resume then 128 else 0))

/-- The state of R23, and for a resumed strand of R47. -/
def Job.strand (j : Job) (p uid grant tag : Nat) (k : Option Parked) : Strand :=
  let base : Strand :=
    { resident := true, uid := uid, part := p, mode := if j.resume then .supervisor else .user
      pc := j.words.getD 0 0
      regs := Sparse.put 0 1 (j.words.getD 1 0) (Sparse.put 0 2 j.s2 [])
      vlmax := BitVec.ofNat 16 (j.f 2 15 0), ctx := BitVec.ofNat 16 tag, farPool := j.flag 2 34
      grpmem := BitVec.ofNat 32 (j.f 3 31 0), grant := grant, lanereq := j.want.lanereq, lanemin := j.want.lanemin
      prio := j.prio, fuse := j.want.fuse
      origin := { kind := .record, queue := j.queue, ring := j.ring, token := j.words.getD 4 0, node := j.node, parkedOf := [], parkedNodes := [], grouped := true } }
  match k with
  | none => base
  | some k =>
      let o := k.origin
      { base with
        kmasks := k.kmasks, chains := k.chains, grpmem := k.grpmem
        origin := { base.origin with
          grouped := o.grouped
          parkedOf := o.parkedOf ++ (if o.kind = .record then [(o.queue, o.ring)] else [])
          parkedNodes := o.parkedNodes ++ (if o.node = 65535 then [] else [o.node]) } }

/-- Change each group of a `grpmem` value by `f`. -/
def Partition.onGroups (x : Partition) (w : Nat) (f : Group → Group) : Partition :=
  (groupIds w).foldl (fun x g => x.setGroup g (f (x.group g))) x

/-- A member more (R34). -/
def Group.join (g : Group) : Group := { g with resident := g.resident + 1 }
/-- A member less (R34). -/
def Group.leave (g : Group) : Group := { g with resident := g.resident - 1 }

/-- The record leaves its queue or the list of enqueued nodes; strand `uid` completes it. -/
def State.takeJob (s : State) (p uid : Nat) (j : Job) : State :=
  if j.graph then s.setPart p { s.part p with nodes := (s.part p).nodes.filter fun x => x.n != j.node }
  else
    let x := s.queue p j.queue
    let seq := match x.recs.find? fun r => r.idx == j.ring with | some r => r.seq | none => x.count
    let s := s.setQueue p j.queue { x with live := x.live ++ [(seq, uid)] }
    s.handled p j.queue j.ring

/-- The strand of `j` starts on side `d` of complex `x` with tag `tag` (R29). -/
def State.startOn (s : State) (p : Nat) (j : Job) (x d tag : Nat) : State :=
  match s.freeSlot x d with
  | none => s
  | some sid =>
      let u := Nat.min j.want.lanereq (s.avail x d)
      let s1 := s.takeUnits x d u
      let k := if j.resume then (s1.part p).parked.find? fun k => k.parkid.toNat == j.parkid && k.cplx == j.cplx else none
      let f := s1.fresh
      let uid := match k with | some k => k.uid | none => f.1
      let t := j.strand p uid u tag k
      let s2 := f.2.setStrand sid t
      let y := if t.origin.grouped then (s2.part p).onGroups t.grpmem.toNat Group.join else s2.part p
      let s3 := s2.setPart p { y with parked := y.parked.filter fun q => some q.uid != k.map (·.uid) }
      (s3.follows uid (launchAgent p)).takeJob p uid j

/-- What trying to place something ready gives. -/
inductive Placing where
  | ok (s : State)
  | noRoom
  | noTag

/-- Jobs placed one after the other under R29, the tags granted ascending in their order (R253). -/
def State.placeJobs (p : Nat) : List Job → State → Placing
  | [], s => .ok s
  | j :: t, s =>
      match s.placeFor (s.part p) j.want with
      | none => .noRoom
      | some (x, d) =>
          if j.newtag then
            match (s.part p).nextTag with
            | none => match State.placeJobs p t (s.startOn p j x d 0) with
                | .noRoom => .noRoom
                | _ => .noTag
            | some g => State.placeJobs p t ((s.setPart p ((s.part p).setTag g .live)).startOn p j x d g)
          else State.placeJobs p t (s.startOn p j x d 0)

/-- Try to place something ready. A request for tags takes its turn (R253). -/
def State.place (s : State) (p : Nat) (r : Ready) : Placing :=
  match s.jobs p r with
  | none => .noRoom
  | some js =>
      let needs := js.any Job.newtag
      let q := s.tagQueue p
      let first := match q with | [] => true | x :: _ => x == .record r
      match State.placeJobs p js s with
      | .noRoom => .noRoom
      | .noTag => .noTag
      | .ok s' =>
          if needs && !first then .noTag
          else .ok (s'.setPart p { s'.part p with
            ready := (s'.part p).ready.filter (· != r), tagReqs := (s'.part p).tagReqs.filter (· != .record r) })

/-- Priority of something ready: a group's is its members' highest (R35). -/
def State.readyPrio (s : State) (p : Nat) (r : Ready) : Nat :=
  match s.jobs p r with | some js => js.foldl (fun m j => Nat.max m j.prio) 0 | none => 0

/-- What is ready in the order of R29: descending priority, then the order of readiness. -/
def State.readyOrder (s : State) (p : Nat) : List Ready :=
  [3, 2, 1, 0].flatMap fun k => (s.part p).ready.filter fun r => s.readyPrio p r == k

/-- Go through the ready records: one that lacks only tags joins the request order, and the first that can be
placed is. -/
def State.pick (p : Nat) : List Ready → State → Option Ready × State
  | [], s => (none, s)
  | r :: t, s =>
      match s.place p r with
      | .ok s' => (some r, s'.settle p)
      | .noRoom => State.pick p t s
      | .noTag =>
          let l := (s.part p).tagReqs
          State.pick p t (s.setPart p { s.part p with tagReqs := if l.contains (.record r) then l else l ++ [.record r] })

/-- `STRAND_PLACE` (R29): the first record that can be placed starts its strand. -/
def execStrandPlace (p : Nat) (s : State) : Out :=
  let r := State.pick p (s.readyOrder p) s
  match r.1 with
  | some (.group _) => .next s
  | _ => .next r.2

/-- `GANG_START` (R35): the first that can be placed is a gathered group, all of whose members start in one step. -/
def execGangStart (p : Nat) (s : State) : Out :=
  let r := State.pick p (s.readyOrder p) s
  match r.1 with
  | some (.group _) => .next r.2
  | _ => .next s

/-- `TAG_GRANT` (R253): the oldest request is granted the lowest free tag. -/
def execTagGrant (p : Nat) (s : State) : Out :=
  match s.tagQueue p, (s.part p).nextTag with
  | .strand i :: _, some t =>
      match (s.strand i).wait with
      | .tag d =>
          let s' := s.grantTag p t (.strand i)
          .next (s'.setStrand i (((s'.strand i).setReg d (BitVec.ofNat 64 t)).go ((s'.strand i).pc + 4)))
      | _ => .next s
  | .record r :: _, some _ =>
      match s.place p r with
      | .ok s' => .next (s'.settle p)
      | _ => .next s
  | _, _ => .next s

/-! ### Completion (R19, R26-R28) -/

/-- Start the copy of a copy node (R26, R28): its block is read with user permissions, tag 0. A block that
cannot be read, has a defect, or names a slot or a chain is a graph fault (log 11). -/
def State.startNodeCopy (s : State) (p n q : Nat) (va : Word) : State :=
  let f := s.fresh
  let a : Access := { part := p, mode := .user, tag := 0, agent := launchAgent p, family := launchAgent p, quiet := true }
  match f.2.readBlock a va with
  | .error st => (s.launchFault p false n st).graphFault p q n
  | .ok (b, s1) =>
      if b.noMask.defect (b.kind == 1) true || b.dkind == 1 || b.dkind == 2 then s1.graphFault p q n
      else
        let quad := match s1.page p .user va.toNat with
          | some g => if g.pa < dramTop then placeOf g.pa g.home / 2 ^ 37 else 0
          | none => 0
        let c : Copy :=
          { id := f.1, owner := .node p n q, part := p, cplx := 32 * quad, mode := .user, tag := 0, blockVa := va.toNat
            block := b, segs := [], todo := List.range b.chunks, failed := [], done := [], counts := false
            fault := none, clk := s1.clkOf (launchAgent p) }
        { s1 with copies := s1.copies ++ [c] }

/-- A node whose predecessor count has reached zero is enqueued (R26). -/
def State.enqueue (s : State) (p n : Nat) (ws : List Word) : State :=
  let q := nodeQueue ws
  let va := ws.getD 1 0
  if nodeKind ws = 1 then s.startNodeCopy p n q va
  else match s.readSpan (launchAccess p) va.toNat 64 with
    | .error st => (s.launchFault p false n st).graphFault p q n
    | .ok (bs, s1) =>
        let x : NodeRec := { n := n, queue := q, words := dwords bs }
        let v := s1.judge p x.job (s1.couldHold (s1.part p) x.job.want)
        if v.1 = .ok then v.2.setPart p { v.2.part p with nodes := (v.2.part p).nodes ++ [x] }
        else v.2.refuseJob p x.job v.1

/-- The atomic part of a decrement (R26): both an acquire and a release of the launch unit at `pkg` scope on the two
bytes of preds, which take value `v`. -/
def State.writePreds (s : State) (p n v : Nat) : Except Stop State :=
  let a := launchAccess p
  let va := s.nodeVa p n + 2
  let y : Syncing := { agent := a.agent, loc := pkgLoc, acq := true, rel := true, scope := .pkg }
  match s.checkAtomic a va 2 with
  | .bad c k => .error (.trap c (BitVec.ofNat 64 va) k)
  | .cell => .error .cell
  | .ok g => match s.atomic a y g 2 .swap v 0 with
    | .error (.bad c k) => .error (.trap c (BitVec.ofNat 64 va) k)
    | .error _ => .error .cell
    | .ok (_, s1) => .ok s1

/-- One decrement of a successor's preds (R26). -/
def State.decrement (s : State) (p n : Nat) : State :=
  match s.readNode p n with
  | (none, s1) => s1
  | (some ws, s1) =>
      if nodeKind ws = 2 then s1
      else if nodePreds ws = 0 then s1.graphFault p (nodeQueue ws) n
      else match s1.writePreds p n (nodePreds ws - 1) with
        | .error st => s1.unreadNode p n st
        | .ok s2 => if nodePreds ws = 1 then s2.enqueue p n ws else s2

/-- The successor ids of a node, in ascending position. -/
def successors (ws : List Word) : List Nat :=
  ((List.range 4).map (fun i => fieldOf ws 2 (16 * i + 15) (16 * i))
    ++ (List.range 2).map (fun i => fieldOf ws 3 (16 * i + 15) (16 * i))).filter (· != 65535)

/-- An id at or above `gcount` names no node (R25): a graph fault that names the node holding it. -/
def State.followId (p n q : Nat) (s : State) (i : Nat) : State :=
  if (s.part p).gcount.toNat ≤ i then s.graphFault p q n else s.decrement p i

/-- Decrement the successors of node `n` and of its extension chain (R26). The
manual does not say what an overflow id that names a node of another kind, or a chain that comes back to a node, does:
the node's successors are taken as an extension's, and the chain ends after as many nodes as the graph has. Nor does it say
which queue receives the graph fault of a bad id that an extension node holds: the one in the extension's own D0 queue
bits (log 31). -/
def State.decrementAll (p : Nat) : Nat → Nat → State → State
  | 0, _, s => s
  | fuel + 1, n, s =>
      match s.readNode p n with
      | (none, s1) => s1
      | (some ws, s1) =>
          let s2 := (successors ws).foldl (State.followId p n (nodeQueue ws)) s1
          let o := fieldOf ws 0 63 48
          if o = 65535 then s2
          else if (s2.part p).gcount.toNat ≤ o then s2.graphFault p (nodeQueue ws) n
          else State.decrementAll p fuel o s2

/-- Node `n` completes (R26, R93). -/
def State.nodeDone (s : State) (p n : Nat) : State :=
  (State.decrementAll p ((s.part p).gcount.toNat + 1) n s).wakePart p

/-- The graph nodes that complete with a strand (R26, R46): those of the parked records that it has continued, and its
own. -/
def Origin.nodes (o : Origin) : List Nat := o.parkedNodes ++ (if o.node = 65535 then [] else [o.node])

/-- `RECORD_COMPLETE` (R19, R20, R46): the oldest strand that has ended completes its record. -/
def execRecordComplete (p : Nat) (s : State) : Out :=
  match (s.part p).ended with
  | [] => .next s
  | e :: rest =>
      let o := e.origin
      let s1 := s.setPart p { s.part p with ended := rest }
      let s2 := (o.queue :: o.parkedOf.map (·.1)).foldl (fun s q =>
        s.setQueue p q { s.queue p q with live := (s.queue p q).live.filter fun l => l.2 != e.uid }) s1
      let s3 := s2.post p o.queue o.token (entryWord o.ring e.status)
      .next ((o.nodes.foldl (fun s n => s.nodeDone p n) s3).settle p)

/-- The queue of a graph copy's node. -/
def Copy.nodeQueue (c : Copy) : Nat := match c.owner with | .node _ _ q => q | _ => 0

/-- The copy of graph node `n` that the launch unit tracks. -/
def State.nodeCopy (s : State) (p n : Nat) : Option Copy := s.copies.find? fun c => match c.owner with | .node a b _ => a == p && b == n | _ => false

/-- `COPY_NODE_COMPLETE` (R26). -/
def execCopyNodeComplete (p n : Nat) (s : State) : Out :=
  match s.nodeCopy p n with
  | none => .next s
  | some c =>
      if !c.todo.isEmpty || !c.failed.isEmpty then .next s
      else .next (({ s with copies := s.copies.filter fun k => k.id != c.id }.nodeDone p n).settle p)

/-- `GRAPH_COPY_FAULT` (R28): every chunk has completed or failed, and the fault has not been reported. -/
def execGraphCopyFault (p n : Nat) (s : State) : Out :=
  match s.nodeCopy p n with
  | none => .next s
  | some c =>
      match c.fault with
      | none => .next s
      | some (_, _, cause, va) =>
          if !c.todo.isEmpty || c.failed.isEmpty || (s.part p).faultedNodes.contains n then .next s
          else
            let q := c.nodeQueue
            let s1 := s.setPart p { s.part p with faultedNodes := n :: (s.part p).faultedNodes }
            .next (s1.post p q (BitVec.ofNat 64 va)
              (BitVec.ofNat 64 (n * 2 ^ 48 + 0xFFFF * 2 ^ 16 + 0x38 * 2 ^ 8 + cause.code.toNat)))

/-- A write of `gnode` (R28): the chunks of a faulted copy node that are not complete are copied again, by the pattern
block read when the node first started: the manual does not say that it is read again (log 49). -/
def State.retryNode (s : State) (p n : Nat) : State :=
  if !(s.part p).faultedNodes.contains n then s
  else match s.nodeCopy p n with
    | none => s
    | some c =>
        let s1 := s.setPart p { s.part p with faultedNodes := (s.part p).faultedNodes.filter (· != n) }
        s1.setCopy { c with todo := c.failed, failed := [], fault := none, clk := s1.clkOf (launchAgent p) }

end Sys2Proof.Machine
end

