-- ==== Sys2Proof/Machine/Control.lean ====
section
/-! DEFINITION. System and strip instructions (R33, R45, R82-R93): occupancy points, grants, supervisor calls,
returns, the end and the parking of a strand. -/

namespace Sys2Proof.Machine

/-! ### Occupancy points (R33) -/

/-- The first of the jobs that a trial placement cannot place, and the state of the trial (R33). -/
def State.stuck (p : Nat) : List Job → State → Option (Want × State)
  | [], _ => none
  | j :: t, s =>
      match s.placeFor (s.part p) j.want with
      | none => some (j.want, s)
      | some (x, d) => State.stuck p t (s.startOn p j x d 0)

/-- The first waiting record whose target side is side `d` of complex `x`: its lane minimum and avail (R33). Several may
wait for one side: the shrink uses the first in R29's order, which the manual leaves open (log 68). -/
def State.waiter (s : State) (p x d : Nat) : Option (Nat × Nat) :=
  (s.readyOrder p).findSome? fun r =>
    match State.stuck p ((s.jobs p r).getD []) s with
    | none => none
    | some (w, s') => if s'.targetFor (s'.part p) w = some (x, d) then some (w.lanemin, s'.avail x d) else none

/-- OccupancyPoint() of the executing strand (R33, R82): nothing changes while fragments are pending. The units that
a shrink frees are reserved for nobody: a strand of the other side may widen into them before the waiting record is
placed, which the manual does not rule out (log 50). -/
def State.occupancy (s : State) : State :=
  let t := s.me
  let x := s.myCx
  let d := sideOf s.cur
  if !t.frags.isEmpty then s
  else match s.waiter t.part x d with
    | some (need, av) =>
        if t.lanemin < t.grant then s.setMe { t with grant := Nat.max t.lanemin (t.grant - (need - av)) } else s
    | none =>
        let u := Nat.min t.lanereq (t.grant + s.avail x d)
        if t.grant < u then
          let s1 := s.takeUnits x d (u - t.grant)
          s1.setMe { s1.me with grant := u }
        else s

/-- cap: the elements that the strand's lane units hold in one strip (R32). -/
def Strand.cap (t : Strand) : Nat := t.grant * 32768 / t.gm.fmtA.bits

/-- Grant(D) of R82. -/
def Strand.strip (t : Strand) (d : SReg) : Strand :=
  let g := Nat.min t.srem.toNat (Nat.min t.vlmax.toNat t.cap)
  ({ t with vl := BitVec.ofNat 16 g, si := t.si + BitVec.ofNat 64 g, srem := t.srem - BitVec.ofNat 64 g } : Strand).setReg d
    (BitVec.ofNat 64 g)

/-- `strip sD, sA` (R83). -/
def execStrip (d a : SReg) (s : State) : Out :=
  if s.me.shead ≠ 0 then .next (s.trapHere .strip)
  else
    let s1 := s.occupancy
    let t := s1.me
    let pc := s.me.pc
    .next (s1.setMe ((({ t with srem := s.reg a, si := 0, shead := pc + 4 } : Strand).strip d).go (pc + 4)))

/-- `strip sD, zero` (R83): the strip loop is closed. -/
def execStripClose (d : SReg) (s : State) : Out :=
  let s1 := s.occupancy
  .next (s1.setMe ((({ s1.me with shead := 0 } : Strand).setReg d 0).go (s.me.pc + 4)))

/-- `snext` (R84). -/
def execSnext (d : SReg) (s : State) : Out :=
  if s.me.shead = 0 then .next (s.trapHere .strip)
  else
    let s1 := s.occupancy
    let t := s1.me
    if t.srem ≠ 0 then .next (s1.setMe ((t.strip d).go t.shead))
    else .next (s1.setMe ((({ t with shead := 0 } : Strand).setReg d 0).go (t.pc + 4)))

/-- The vector length that `setvl` and `setvlx` give (R85). -/
def State.setLength (s : State) (d a : SReg) : Nat × State :=
  let s1 := s.occupancy
  let t := s1.me
  let g := Nat.min (s.reg a).toNat (Nat.min t.vlmax.toNat t.cap)
  (g, s1.setMe (({ t with vl := BitVec.ofNat 16 g } : Strand).setReg d (BitVec.ofNat 64 g)))

/-- `setvl` (R85). -/
def execSetvl (d a : SReg) (s : State) : Out := .next (s.setLength d a).2.advance

/-- `setvlx` (R85): a branch when the length is 0. -/
def execSetvlx (d a : SReg) (o : BitVec 13) (s : State) : Out :=
  let r := s.setLength d a
  .next (r.2.setMe (r.2.me.go (if r.1 = 0 then s.me.pc + (sx o <<< 2) else s.me.pc + 4)))

/-! ### System instructions (R88-R93) -/

/-- `nop` (R88). -/
def execNop (s : State) : Out := .next s.advance

/-- `svc` (R89). -/
def execSvc (n : BitVec 12) (s : State) : Out :=
  .next (s.trapIn s.cur { cause := .svc, epc := s.me.pc + 4, eval := n.setWidth 64, evpos := 0, vstart := 0 })

/-- `tret` (R90). A request that finds the strand back in user mode is taken before the next instruction (R294). -/
def execTret (s : State) : Out :=
  if s.me.mode = .user then .next (s.trapHere .privilege)
  else
    let s1 := s.trapReturn
    .next (s1.setMe { s1.me with due := s1.me.preq && s1.me.mode == .user })

/-- `wfi` (R93): the strand is not ready until an event of its partition. -/
def execWfi (s : State) : Out := if s.me.mode = .user then .next (s.trapHere .privilege) else .next (s.waits .wfi)

/-! ### The end of a strand (R45, R92, R301) -/

/-- Slots of complex `x` that the strand with agent number `uid` holds. -/
def State.heldSlots (s : State) (x uid : Nat) : List Nat :=
  ((s.cx x).slots.filter fun o => o.2.owner == some uid).map (·.1)

/-- A slot released on behalf of a strand that ends or is discarded (R233). -/
def State.releaseSlot (uid x : Nat) (s : State) (o : Nat) : State :=
  let r := s.release uid (strandLoc s.cur uid) .cplx
  r.2.setSlot x o { r.2.slot x o with owner := none, toks := [r.1] }

/-- The segments of every chain register of a strand: of a stream, those it holds. -/
def Sparse.allSegs (l : Sparse Chain) : List Seg :=
  l.flatMap fun c => match c.2.stream with | some t => t.segs | none => c.2.segs

/-- The strand in slot `sid` leaves its core (R45, R92): its group memberships and its slot are given up, and the
launch unit follows what it and its copies did. -/
def State.vacate (s : State) (sid : Nat) (res : BitVec 3) : State :=
  let s := s.resolvePreq res sid
  let t := s.strand sid
  let s := if t.origin.grouped then s.setPart t.part ((s.part t.part).onGroups t.grpmem.toNat Group.leave) else s
  ((s.follows (launchAgent t.part) t.uid).follows (launchAgent t.part) (copiesOf t.uid)).setStrand sid Strand.blank

/-- Step 3 of R92: the strand in slot `sid` ends, and its record is due to complete with `status`. -/
def State.ends (s : State) (sid : Nat) (status : BitVec 8) : State :=
  let t := s.strand sid
  let x := cxOf sid
  let s := s.dropRefs x (Sparse.allSegs t.chains)
  let s := (s.heldSlots x t.uid).foldl (State.releaseSlot t.uid x) s
  let s := s.vacate sid 2
  if t.origin.kind = .record then
    s.setPart t.part { s.part t.part with ended := (s.part t.part).ended ++ [{ uid := t.uid, origin := t.origin, status := status }] }
  else s

/-- The strand parks under its park id (R45, R301): its stream registers, completion masks, copies, claimed
slots and arrivals stay on the complex. -/
def State.parks (s : State) (sid : Nat) : State :=
  let t := s.strand sid
  let x := cxOf sid
  let s := s.dropRefs x (Sparse.allSegs (t.chains.filter fun c => c.2.stream.isNone))
  let k : Parked :=
    { parkid := t.parkid, cplx := x, uid := t.uid, sid := sid, kmasks := t.kmasks
      chains := t.chains.filter fun c => c.2.stream.isSome, grpmem := t.grpmem, origin := t.origin }
  let s := s.vacate sid 3
  s.setPart t.part { s.part t.part with parked := (s.part t.part).parked ++ [k] }

/-- `end` (R92). -/
def execEndStrand (s : State) : Out :=
  let t := s.me
  let park := t.mode == .supervisor && t.estatus.getLsbD 1
  if park && (t.parkid == 0 || s.myPart.parked.any fun k => k.parkid == t.parkid) then .next (s.trapHere .mode)
  else if !(s.inFlight t.uid).isEmpty then .next (s.waits .ending)
  else if park then .next (s.parks s.cur)
  else .next (s.ends s.cur (if t.mode = .user then 0x00 else 0xFF))

/-- The end of a strand whose fetch at `evec` fails (R286). -/
def State.doubleFault (s : State) (sid : Nat) (c : Cause) : State :=
  (s.logs (.doubleFault sid c.code)).ends sid 0xFE

end Sys2Proof.Machine
end

