-- ==== Sys2Proof/Machine/Sync.lean ====
section
/-! DEFINITION. Fences, `ifence` and group barriers (R220-R226), and the steps that wake a strand that waits at a
barrier, a `waitk` or a `wfi`. -/

namespace Sys2Proof.Machine

/-! ### Fences (R201, R220, R221) -/

/-- The acquire of a fence: what the strand's earlier reads found (R201 case 2). -/
def State.acquireFence (s : State) (sc : Scope) : State := s.myAcquire sc (Sparse.get [] s.me.uid s.order.seen)

/-- The release of a fence stands for the strand's later writes (R201 case 2). -/
def State.releaseFence (s : State) (sc : Scope) : State :=
  let r := s.myRelease sc
  let a := s.me.uid
  let old := (r.2.fenceOf a).filter fun t => t.scope != sc
  { r.2 with order := { r.2.order with fence := Sparse.put [] a (r.1 :: old) r.2.order.fence } }

/-- `fence` (R220). -/
def execFence (o : FenceOrder) (sc : Scope) (s : State) : Out :=
  let s1 := match o with | .rel => s | _ => s.acquireFence sc
  let s2 := match o with | .acq => s1 | _ => s1.releaseFence sc
  .next s2.advance

/-- `ifence` (R221): a fetch of this model reads memory as it stands. -/
def execIfence (s : State) : Out := .next s.advance

/-! ### Barriers (R223-R226) -/

/-- Byte `i` of `grpmem`. -/
def Strand.groupAt (t : Strand) (i : Nat) : Nat := t.grpmem.toNat / 256 ^ i % 256

/-- The byte of `grpmem` that holds group `g` (R224): the lowest, where several do, as in a boot strand's, which is 0
(log 32). -/
def Strand.groupIdx (t : Strand) (g : Nat) : Option Nat :=
  if g = 255 then none else (List.range 4).find? fun i => t.groupAt i == g

/-- pend i of `barst`. -/
def Strand.pend (t : Strand) (i : Nat) : Bool := t.barst.getLsbD (32 + i)
/-- gen i of `barst`. -/
def Strand.gen (t : Strand) (i : Nat) : BitVec 8 := BitVec.ofNat 8 (t.barst.toNat / 256 ^ i)

/-- `barst` after an arrival at generation `g` (R225). -/
def Strand.arrived (t : Strand) (i : Nat) (g : BitVec 8) : Strand :=
  let keep := t.barst &&& ~~~((0xFF : BitVec 36) <<< (8 * i))
  { t with barst := keep ||| (g.setWidth 36 <<< (8 * i)) ||| (1 <<< (32 + i)) }

/-- `barst` after a departure (R225). -/
def Strand.departed (t : Strand) (i : Nat) : Strand := { t with barst := t.barst &&& ~~~((1 : BitVec 36) <<< (32 + i)) }

/-- Arrive(i) of the executing strand at group `g` (R225). -/
def State.arrive (s : State) (i g : Nat) : State :=
  let r := s.myRelease .pkg
  let e := r.2.myPart.group g
  let s1 := r.2.setMe (r.2.me.arrived i e.gen)
  let toks := e.gathering ++ [r.1]
  let e' : Group :=
    if e.arrived + 1 = e.members then { e with arrived := 0, gen := e.gen + 1, gathering := [], released := toks }
    else { e with arrived := e.arrived + 1, gathering := toks }
  s1.setMyPart (s1.myPart.setGroup g e')

/-- The strand in slot `sid` departs from group `g`, its generation having completed (R225). -/
def State.depart (s : State) (sid i g : Nat) : State :=
  let t := s.strand sid
  let s1 := s.acquire t.uid (strandLoc sid t.uid) .pkg ((s.part t.part).group g).released
  s1.setStrand sid (((s1.strand sid).departed i).go (t.pc + 4))

/-- Depart(i) of the executing strand: it waits until its generation has completed. -/
def State.departs (s : State) (i g : Nat) : State :=
  if (s.myPart.group g).gen != s.me.gen i then s.depart s.cur i g else s.waits (.barrier i)

/-- The byte of `grpmem` for a barrier instruction, or none when it traps whatever its form (R224). -/
def State.barrierAt (s : State) (g : BitVec 8) : Option Nat :=
  match s.me.groupIdx g.toNat with
  | none => none
  | some i => if (s.myPart.group g.toNat).valid then some i else none

/-- `gbar` (R225). -/
def execGbar (g : BitVec 8) (s : State) : Out :=
  match s.barrierAt g with
  | none => .next (s.trapHere .group)
  | some i => .next ((if s.me.pend i then s else s.arrive i g.toNat).departs i g.toNat)

/-- `garr` (R225). -/
def execGarr (g : BitVec 8) (s : State) : Out :=
  match s.barrierAt g with
  | none => .next (s.trapHere .group)
  | some i => if s.me.pend i then .next (s.trapHere .group) else .next (s.arrive i g.toNat).advance

/-- `gwt` (R225). -/
def execGwt (g : BitVec 8) (s : State) : Out :=
  match s.barrierAt g with
  | none => .next (s.trapHere .group)
  | some i => if s.me.pend i then .next (s.departs i g.toNat) else .next (s.trapHere .group)

/-! ### Waking -/

/-- `BARRIER_DEPART` (R225). -/
def execBarrierDepart (sid : Nat) (s : State) : Out :=
  let t := s.strand sid
  match t.wait with
  | .barrier i =>
      if ((s.part t.part).group (t.groupAt i)).gen != t.gen i then .next (s.depart sid i (t.groupAt i)) else .next s
  | _ => .next s

/-- `WAITK_WAKE` (R192): the strand passes on the set bits, or traps when nothing is in flight. -/
def execWaitkWake (sid : Nat) (s : State) : Out :=
  match (s.strand sid).wait with
  | .waitk k w => .next (({ s with cur := sid } : State).waitBits k w)
  | _ => .next s

/-- `WFI_WAKE` (R93): `wfi` may continue after any interval. -/
def execWfiWake (sid : Nat) (s : State) : Out := .next (s.wake sid)

end Sys2Proof.Machine
end

