-- ==== Sys2Proof/Machine/SysRead.lean ====
section
/-! DEFINITION. System registers as `sysr` finds them (R58, R61, R62, R91, R116, R147, R223, R231, R260, R272,
R276, R284, R295). -/

namespace Sys2Proof.Machine

/-- The partition whose registers the executing strand reaches (R276). -/
def State.sysPart (s : State) : Nat := if s.me.mode = .monitor then bitsOf s.psel.toNat 3 0 else s.me.part
/-- The complex whose registers the executing strand reaches (R276). -/
def State.sysCx (s : State) : Nat := if s.me.mode = .monitor then bitsOf s.psel.toNat 22 16 else s.myCx

/-- `gm` as a value (R58). -/
def Gm.word (g : Gm) : Word :=
  BitVec.ofNat 64 ((if g.gk then 2 ^ 26 else 0) + (if g.inv then 2 ^ 25 else 0) + g.guard.toNat * 2 ^ 22
    + g.fa.toNat * 2 ^ 17 + g.fb.toNat * 2 ^ 12 + g.rnd.toNat * 2 ^ 9 + (if g.sat then 2 ^ 8 else 0)
    + (if g.inf then 2 ^ 7 else 0) + g.g.toNat * 2 ^ 4)

/-- `gm` from a value; its reserved bits are ignored (R58, R62). -/
def Gm.ofNat (w : Nat) : Gm :=
  { gk := bitOf w 26, inv := bitOf w 25, guard := BitVec.ofNat 3 (bitsOf w 24 22), fa := BitVec.ofNat 5 (bitsOf w 21 17)
    fb := BitVec.ofNat 5 (bitsOf w 16 12), rnd := BitVec.ofNat 3 (bitsOf w 11 9), sat := bitOf w 8, inf := bitOf w 7
    g := BitVec.ofNat 3 (bitsOf w 6 4) }

/-- Entry that `fragsel` selects (R147). -/
def Strand.fragEntry (t : Strand) : Nat := (t.fragsel &&& 0xF).toNat
/-- Whether `fragsel` selects RunMask (R147). -/
def Strand.fragRun (t : Strand) : Bool := t.fragsel.getLsbD 4
/-- Lowest element of the mask window (R61). -/
def Strand.fragLow (t : Strand) : Nat := 64 * bitsOf t.fragsel.toNat 25 16
/-- 64 elements of a mask from element `e`. -/
def maskWindow (m : Mask) (e : Nat) : Word := (m >>> e).setWidth 64
/-- A mask with 64 elements replaced. -/
def putWindow (m : Mask) (e : Nat) (v : Word) : Mask :=
  (m &&& ~~~((BitVec.allOnes 64).setWidth 65536 <<< e)) ||| (v.setWidth 65536 <<< e)

/-- `estatus` as a value: rp is 1 while `redlive` is not zero (R144). A 1 that software has written to rp while `redlive`
is zero reads back: the manual gives rp as RW and does not say what such a write does (log 43). -/
def Strand.estatusWord (t : Strand) : Word := (t.estatus ||| (if t.redlive = 0 then 0 else 4)).setWidth 64

/-- `cdirty` with the stream flags in bits 63:32 (R188). -/
def Strand.cdirtyWord (t : Strand) : Word :=
  BitVec.ofNat 64 (t.cdirty.toNat
    + ((List.range 32).map fun i => if t.streamed (BitVec.ofNat 5 i) then 2 ^ (32 + i) else 0).sum)

/-- `lanesplit` as a value (R30). -/
def Complex.lanesplit (c : Complex) : Word :=
  BitVec.ofNat 64 ((if c.lock then 2 ^ 16 else 0) + c.reserve1.toNat * 2 ^ 12 + c.reserve0.toNat * 2 ^ 8 + c.split.toNat)

/-- `npool` or `fpool` as a value (R116). -/
def Complex.poolWord (c : Complex) (far : Bool) : Word :=
  let p := c.pool far
  BitVec.ofNat 64 ((if p.enable then 2 ^ 63 else 0)
    + (if far then p.bsize.toNat * 2 ^ 60 + p.base.toNat * 2 ^ 24 else p.bsize.toNat * 2 ^ 56 + p.free.length % 2 ^ 24 * 2 ^ 32)
    + p.count.toNat)

/-- `oinfo` (R231). -/
def Complex.oinfo (c : Complex) : Word :=
  let o := c.slot c.osel.toNat
  (if o.owner.isSome then (1 <<< 63) ||| (BitVec.ofNat 64 o.sid <<< 48) else 0) ||| (if o.pending then 1 <<< 62 else 0)
    ||| (o.geom &&& 0x11FFFFFFFFF)

/-- A group table entry as a value (R34). -/
def Group.word (g : Group) : Word :=
  BitVec.ofNat 64 ((if g.valid then 2 ^ 63 else 0) + (if g.cores then 2 ^ 62 else 0) + g.members.toNat * 2 ^ 32
    + g.arrived.toNat * 2 ^ 20 + g.resident.toNat * 2 ^ 8 + g.gen.toNat)

/-- `grpent` (R34). -/
def Partition.grpent (p : Partition) : Word := if p.grpsel = 255 then 0 else (p.group p.grpsel.toNat).word

/-- `taginfo` (R260). -/
def Partition.taginfo (p : Partition) : Word :=
  let t := p.tagsel.toNat
  let st := match p.tag t with
    | .live => 1
    | .draining _ => 2
    | .free => if p.tagcap.toNat < t then 3 else 0
  BitVec.ofNat 64 (st * 2 ^ 62 + (p.cells.countP fun c => c.tag == t) % 2 ^ 40)

/-- `preq` (R295). -/
def Partition.preqWord (p : Partition) : Word :=
  BitVec.ofNat 64 ((if p.preqBusy then 2 ^ 63 else 0) + p.preqResult.toNat * 2 ^ 56 + p.preqTarget.toNat)

/-- Registers of a strand. -/
def Strand.sysReg (t : Strand) (sid : Nat) (clock : Nat) : Nat → Option Word
  | 0x000 => some (t.vl.setWidth 64)
  | 0x001 => some (t.vlmax.setWidth 64)
  | 0x002 => some t.vstart
  | 0x003 => some t.si
  | 0x004 => some t.srem
  | 0x005 => some t.shead
  | 0x006 => some t.gm.word
  | 0x007 => some (t.ctx.setWidth 64)
  | 0x008 => some (t.fflags.setWidth 64)
  | 0x009 => some (if t.farPool then 1 else 0)
  | 0x00A => some (t.grpmem.setWidth 64)
  | 0x00B => some (BitVec.ofNat 64 clock)
  | 0x00C => some (BitVec.ofNat 64 (sid % 2048))
  | 0x100 => some t.cdirtyWord
  | 0x101 => some (t.mdirty.setWidth 64)
  | 0x102 => some (Sparse.get 0 t.redsel.toNat t.redpart)
  | 0x103 => some (BitVec.ofNat 64 t.frags.length)
  | 0x104 => some (t.fragsel.setWidth 64)
  | 0x105 => some (if t.fragRun then 0 else (t.frags.getD t.fragEntry {}).pc)
  | 0x106 => some (if t.fragRun then 0 else (t.frags.getD t.fragEntry {}).jn)
  | 0x107 => some (maskWindow (if t.fragRun then t.runMask else (t.frags.getD t.fragEntry {}).mask) t.fragLow)
  | 0x108 => some (t.barst.setWidth 64)
  | 0x109 => some (t.parkid.setWidth 64)
  | 0x10A => some (t.redsel.setWidth 64)
  | 0x10B => some (t.redlive.setWidth 64)
  | 0x10C => some (t.memdone.setWidth 64)
  | 0x200 => some t.epc
  | 0x201 => some (t.ecause.setWidth 64)
  | 0x202 => some t.eval
  | 0x204 => some t.estatusWord
  | 0x205 => some t.evpos
  | 0x206 => some t.escratch
  | _ => none

/-- Registers of a complex. -/
def Complex.sysReg (c : Complex) : Nat → Option Word
  | 0x300 => some c.lanesplit
  | 0x301 => some (c.poolWord false)
  | 0x302 => some (c.poolWord true)
  | 0x303 => some (c.osel.setWidth 64)
  | 0x304 => some c.oinfo
  | 0x305 => some 0
  | 0x306 => some (BitVec.ofNat 64 (c.far.free.length % 2 ^ 24))
  | _ => none

/-- Registers of a partition. -/
def Partition.sysReg (p : Partition) : Nat → Option Word
  | 0x203 => some p.evec
  | 0x400 => some p.qbase
  | 0x401 => some p.gbase
  | 0x402 => some (p.grpsel.setWidth 64)
  | 0x403 => some p.grpent
  | 0x404 => some (p.tagcap.setWidth 64)
  | 0x405 => some p.ptroot
  | 0x406 => some p.cellbase
  | 0x407 => some p.cellsize
  | 0x408 => some (p.tagsel.setWidth 64)
  | 0x409 => some p.taginfo
  | 0x40A => some (BitVec.ofNat 64 p.cells.length)
  | 0x40B => some (p.gcount.setWidth 64)
  | 0x410 => some p.preqWord
  | 0x411 => some 0
  | 0x500 => some (p.partid.setWidth 64)
  | 0x501 => some p.cplxlo
  | 0x502 => some p.cplxhi
  | 0x503 => some (Sparse.get 0 0 p.pbound)
  | 0x504 => some (Sparse.get 0 1 p.pbound)
  | 0x505 => some (Sparse.get 0 2 p.pbound)
  | 0x506 => some (Sparse.get 0 3 p.pbound)
  | 0x507 => some (Sparse.get 0 4 p.pbound)
  | 0x508 => some (Sparse.get 0 5 p.pbound)
  | 0x509 => some (Sparse.get 0 6 p.pbound)
  | 0x50A => some (Sparse.get 0 7 p.pbound)
  | 0x50B => some p.keyrange
  | _ => none

/-- Registers of the package. -/
def State.pkgReg (s : State) : Nat → Option Word
  | 0x50C => some s.psel
  | 0x50D => some s.mvec
  | 0x50E => some (BitVec.ofNat 64 (s.qpwrReady.toNat * 256 + s.qpwrOn.toNat))
  | 0x50F => some 0
  | _ => none

/-- The value of register `n` as the executing strand reaches it: none for a number that the map lacks. -/
def State.sysValue (s : State) (n : Nat) : Option Word :=
  (s.me.sysReg s.cur s.clock n).or (((s.cx s.sysCx).sysReg n).or (((s.part s.sysPart).sysReg n).or (s.pkgReg n)))

/-- Registers that user mode reads (R61). -/
def userReads (n : Nat) : Bool := n ≤ 0x00C || n == 0x100 || n == 0x101 || n == 0x304
/-- Registers that only monitor mode reaches (R61). -/
def monitorOnly (n : Nat) : Bool := n == 0x305 || (0x50C ≤ n && n ≤ 0x50F)

/-- Whether a mode may read register `n` (R61, R62). -/
def mayRead (m : Mode) (n : Nat) : Bool :=
  match m with | .monitor => true | .supervisor => !monitorOnly n | .user => userReads n

/-- `sysr` (R62, R91). -/
def execSysr (d : SReg) (r : BitVec 12) (s : State) : Out :=
  match s.sysValue r.toNat with
  | none => .next (s.trapHere .unassigned)
  | some v => if mayRead s.me.mode r.toNat then .next (s.result d v) else .next (s.trapHere .privilege)

end Sys2Proof.Machine
end

