-- ==== Sys2Proof/Machine/SysWrite.lean ====
section
/-! DEFINITION. System registers as `sysw` writes them (R30, R34, R59, R61, R62, R91, R116, R147, R253, R256, R272,
R276, R278, R284, R295, R302). -/

namespace Sys2Proof.Machine

/-- What a write ends with: a state whose PC has not moved, a trap, or a wait. -/
inductive SysOut where
  | done (s : State)
  | trap (c : Cause)
  | wait (w : Wait)

/-! ### Strand registers -/

/-- A change of the entry that `fragsel` selects: an entry that does not exist ignores it (R147). -/
def Strand.onFrag (t : Strand) (f : Frag → Frag) : Strand :=
  match t.frags[t.fragEntry]? with
  | some e => if t.fragRun then t else { t with frags := t.frags.set t.fragEntry (f e) }
  | none => t

/-- A write of `fragcnt` (R147). -/
def Strand.putFragcnt (t : Strand) (v : Word) : Strand :=
  let n := v.toNat
  if 16 < n then t
  else
    { t with
      frags := t.frags.take n ++ List.replicate (n - t.frags.length) {}
      runMask := if n = 0 then BitVec.allOnes 65536 else t.runMask }

/-- A write of `fragmsk` (R147). -/
def Strand.putFragmsk (t : Strand) (v : Word) : Strand :=
  if t.fragRun then (if t.frags.isEmpty then t else { t with runMask := putWindow t.runMask t.fragLow v })
  else t.onFrag fun e => { e with mask := putWindow e.mask t.fragLow v }

/-- A write of `vl`: a value above `vlmax` is written as `vlmax` (R91). -/
def Strand.putVl (t : Strand) (v : Word) : Strand := { t with vl := BitVec.ofNat 16 (Nat.min v.toNat t.vlmax.toNat) }

/-- A write of `vlmax` (R91). -/
def Strand.putVlmax (t : Strand) (v : Word) : Strand :=
  let m : BitVec 16 := v.setWidth 16
  if m = 0 then t else { t with vlmax := m, vl := if t.vl.toNat ≤ m.toNat then t.vl else m }

/-- A write of a strand register (R61): none for a number that names none, or one that is read only. -/
def Strand.putSys (t : Strand) (v : Word) : Nat → Option Strand
  | 0x000 => some (t.putVl v)
  | 0x001 => some (t.putVlmax v)
  | 0x002 => some { t with vstart := v }
  | 0x003 => some { t with si := v }
  | 0x004 => some { t with srem := v }
  | 0x005 => some { t with shead := v }
  | 0x006 => some { t with gm := Gm.ofNat v.toNat }
  | 0x007 => some { t with ctx := v.setWidth 16 }
  | 0x008 => some { t with fflags := v.setWidth 6 }
  | 0x009 => some { t with farPool := v.getLsbD 0 }
  | 0x100 => some { t with cdirty := v.setWidth 32 }
  | 0x101 => some { t with mdirty := v.setWidth 8 }
  | 0x102 => some { t with redpart := Sparse.put 0 t.redsel.toNat v t.redpart }
  | 0x103 => some (t.putFragcnt v)
  | 0x104 => some { t with fragsel := v.setWidth 26 &&& 0x3FF001F }
  | 0x105 => some (t.onFrag fun e => { e with pc := v })
  | 0x106 => some (if v &&& 2 = 0 then t.onFrag fun e => { e with jn := v } else t)
  | 0x107 => some (t.putFragmsk v)
  | 0x108 => some { t with barst := v.setWidth 36 }
  | 0x109 => some { t with parkid := v.setWidth 16 }
  | 0x10A => some { t with redsel := v.setWidth 3 }
  | 0x10B => some { t with
      redlive := v.setWidth 8, estatus := if v.setWidth 8 = (0 : BitVec 8) then t.estatus &&& 0xB else t.estatus ||| 4 }
  | 0x10C => some { t with memdone := v.setWidth 8 }
  | 0x200 => some { t with epc := v }
  | 0x201 => some { t with ecause := v.setWidth 8 }
  | 0x202 => some { t with eval := v }
  | 0x204 => some { t with estatus := (t.estatus &&& 8) ||| (v.setWidth 4 &&& 7) }
  | 0x205 => some { t with evpos := v }
  | 0x206 => some { t with escratch := v }
  | _ => none

/-! ### Complex registers -/

/-- A write of `lanesplit` (R30). -/
def State.putLanesplit (s : State) (x : Nat) (v : Word) : State :=
  let c := s.cx x
  let w := v.toNat
  let r0 := bitsOf w 11 8
  let r1 := bitsOf w 15 12
  let n := bitsOf w 3 0
  let old := c.split.toNat
  if 8 < r0 + r1 then s
  else
    let take := bitOf w 16 && decide (n ≤ 8)
      && (if n ≤ old then decide (old - n ≤ s.freeUnits x 0) else decide (n - old ≤ s.freeUnits x 1))
    s.setCx x { c with
      lock := bitOf w 16, reserve0 := BitVec.ofNat 4 r0, reserve1 := BitVec.ofNat 4 r1
      split := if take then BitVec.ofNat 4 n else c.split }

/-- A pool with every buffer on its free list, in ascending id order (R116). -/
def Pool.rebuilt (p : Pool) : Pool := { p with free := List.range p.count.toNat, refs := [] }

/-- A pool of a complex rebuilt so: none of its buffers awaits the reclaimer. -/
def Complex.rebuilt (c : Complex) (far : Bool) : Complex :=
  let c' := c.setPool far (c.pool far).rebuilt
  { c' with reclaim := c.reclaim.filter fun id => idFar id != far }

/-- Largest pool in bytes, and in buffers (R116). -/
def poolLimit (far : Bool) : Nat × Nat := if far then (2 ^ 30, 8388608) else (2 ^ 22, 2 ^ 24)

/-- A write of `npool` or `fpool` (R116). -/
def Complex.putPool (c : Complex) (far : Bool) (v : Word) : Complex :=
  let p := c.pool far
  let w := v.toNat
  let en := bitOf w 63
  let bs := if far then bitsOf w 62 60 else bitsOf w 58 56
  let base : BitVec 32 := if far then BitVec.ofNat 32 (bitsOf w 55 24) else p.base
  let n := bitsOf w 23 0
  let moves := bs != p.bsize.toNat || base != p.base || n != p.count.toNat
  if bs = 7 ∨ (poolLimit far).1 < n * (64 * 2 ^ bs) ∨ (poolLimit far).2 < n then c
  else if (moves || (p.enable && !en)) && p.enable && p.free.length != p.count.toNat then c
  else
    let c' := c.setPool far { p with enable := en, bsize := BitVec.ofNat 3 bs, base := base, count := BitVec.ofNat 24 n }
    if en && (!p.enable || moves) then c'.rebuilt far else c'

/-- Whether a resident or parked strand, or a copy into a chain, uses the pools of complex `x` (R302). -/
def State.poolsUsed (s : State) (x : Nat) : Bool :=
  !(s.onCx x).isEmpty || s.parts.any (fun p => p.2.parked.any fun k => k.cplx == x)
  || s.copies.any fun c => c.cplx == x && !c.todo.isEmpty && Block.dkind c.block == 2

/-- A write of `poolrst` (R302). -/
def State.resetPools (s : State) (x : Nat) (v : Word) : SysOut :=
  if s.poolsUsed x then .done s
  else if !(s.cx x).reclaim.isEmpty then .wait .poolReset
  else
    let s1 := if v.getLsbD 0 then s.setCx x ((s.cx x).rebuilt false) else s
    .done (if v.getLsbD 1 then s1.setCx x ((s1.cx x).rebuilt true) else s1)

/-- A write of a complex register. -/
def State.putCxSys (s : State) (x : Nat) (v : Word) : Nat → Option SysOut
  | 0x300 => some (.done (s.putLanesplit x v))
  | 0x301 => some (.done (s.setCx x ((s.cx x).putPool false v)))
  | 0x302 => some (.done (s.setCx x ((s.cx x).putPool true v)))
  | 0x303 => some (.done (s.setCx x { s.cx x with osel := v.setWidth 6 }))
  | 0x305 => some (s.resetPools x v)
  | _ => none

/-! ### Partition registers -/

/-- A write of `grpent` (R34). -/
def Partition.putGrpent (p : Partition) (v : Word) : Partition :=
  let i := p.grpsel.toNat
  let g := p.group i
  if i = 255 || g.resident != 0 || g.arrived != 0 then p
  else p.setGroup i { g with valid := v.getLsbD 63, cores := v.getLsbD 62, members := BitVec.ofNat 12 (bitsOf v.toNat 43 32) }

/-- Whether some tag of the partition is live or draining (R256). -/
def Partition.tagged (p : Partition) : Bool := p.tags.any fun t => t.2 != .free

/-- A write of `preq` (R295): a request, ignored while one is outstanding. -/
def State.request (s : State) (p : Nat) (v : Word) : State :=
  let x := s.part p
  let target : BitVec 11 := v.setWidth 11
  let t := s.strand target.toNat
  if x.preqBusy then s
  else if !t.resident || (s.me.mode != .monitor && t.part != p) then
    (s.setPart p { x with preqTarget := target, preqBusy := false, preqResult := 4 }).wakeMonitor
  else
    let s1 := s.setPart p { x with preqTarget := target, preqBusy := true, preqResult := 0 }
    s1.setStrand target.toNat { t with preq := true }

/-- A write of a partition register that only stores (R61, R272); `none` for one with a rule of its own. -/
def Partition.putSys (p : Partition) (v : Word) : Nat → Option Partition
  | 0x203 => some { p with evec := v &&& ~~~3 }
  | 0x400 => some { p with qbase := v }
  | 0x401 => some { p with gbase := v }
  | 0x402 => some { p with grpsel := v.setWidth 8 }
  | 0x403 => some (p.putGrpent v)
  | 0x404 => some { p with tagcap := v.setWidth 16 }
  | 0x405 => some { p with ptroot := v &&& 0xFFFFFFFFC000 }
  | 0x406 => some (if p.tagged then p else { p with cellbase := v })
  | 0x407 => some (if p.tagged then p else { p with cellsize := v })
  | 0x408 => some { p with tagsel := v.setWidth 16 }
  | 0x40B => some { p with gcount := v.setWidth 16 }
  | 0x500 => some { p with partid := v.setWidth 4 }
  | 0x501 => some { p with cplxlo := v }
  | 0x502 => some { p with cplxhi := v }
  | 0x503 => some { p with pbound := Sparse.put 0 0 v p.pbound }
  | 0x504 => some { p with pbound := Sparse.put 0 1 v p.pbound }
  | 0x505 => some { p with pbound := Sparse.put 0 2 v p.pbound }
  | 0x506 => some { p with pbound := Sparse.put 0 3 v p.pbound }
  | 0x507 => some { p with pbound := Sparse.put 0 4 v p.pbound }
  | 0x508 => some { p with pbound := Sparse.put 0 5 v p.pbound }
  | 0x509 => some { p with pbound := Sparse.put 0 6 v p.pbound }
  | 0x50A => some { p with pbound := Sparse.put 0 7 v p.pbound }
  | 0x50B => some { p with keyrange := v &&& 0x3FFF3FFF }
  | _ => none

/-! ### Registers of the package (R276, R278, R284) -/

/-- A parked strand of a partition that is emptied (R276). -/
def State.discard (s : State) (k : Parked) : State :=
  let s := s.dropRefs k.cplx (Sparse.allSegs k.chains)
  (s.heldSlots k.cplx k.uid).foldl (State.releaseSlot k.uid k.cplx) s

/-- Partition `p` emptied (R276). -/
def State.emptyPart (s : State) (p : Nat) : State :=
  let s := (s.part p).parked.foldl State.discard s
  { s.setPart p Partition.reset with
    copies := s.copies.filter fun c => match c.owner with | .node q _ _ => q != p | _ => true }

/-- A write of `psel` (R276). -/
def State.putPsel (s : State) (v : Word) : SysOut :=
  let p := bitsOf v.toNat 3 0
  let keep := v &&& 0x7F000F
  if !v.getLsbD 63 then .done { s with psel := keep }
  else if !(s.ofPart p).isEmpty then .done s
  else if s.copies.any fun c => c.part == p && !c.todo.isEmpty && (match c.owner with | .strand _ => true | _ => false) then
    .wait .create
  else .done { s.emptyPart p with psel := keep }

/-- The lowest complex that a partition owns. -/
def Partition.firstCx (p : Partition) : Option Nat := (List.range 128).find? p.owns

/-- The state of R278 for a boot or monitor strand. -/
def bootStrand (uid part : Nat) (m : Mode) (pc arg : Word) (grant : Nat) (kind : OriginKind) : Strand :=
  { resident := true, uid := uid, part := part, mode := m, pc := pc
    regs := Sparse.put 0 1 arg (Sparse.put 0 2 0x100 []), vlmax := 4096, grant := grant, lanereq := 8, lanemin := 1
    prio := 3, estatus := if m = .monitor then 8 else 0, origin := { kind := kind } }

/-- A write of `pboot` (R278). On complex 0 nothing is placed beside the monitor strands (R277). -/
def State.boot (s : State) (p : Nat) (v : Word) : State :=
  let entry := v &&& ~~~3
  match (s.part p).firstCx with
  | none => s
  | some 0 => s
  | some x =>
      match s.freeSlot x 0 with
      | none => s
      | some sid =>
          let u := s.freeUnits x 0
          if u = 0 then s
          else
            let f := s.fresh
            (f.2.setStrand sid (bootStrand f.1 p .supervisor entry entry u .boot)).follows f.1 s.me.uid

/-- Whether quadrant `q` may be gated: no partition owns one of its complexes or covers its DRAM (R284). -/
def State.mayGate (s : State) (q : Nat) : Bool :=
  s.parts.all fun p =>
    ((List.range 32).all fun i => !p.2.owns (32 * q + i))
    && (List.range 8).all fun i =>
      let b := (Sparse.get 0 i p.2.pbound).toNat
      let lo := bitsOf b 31 0
      let hi := bitsOf b 63 32
      decide (hi < lo) || decide (hi < q * 2 ^ 21) || decide ((q + 1) * 2 ^ 21 ≤ lo)

/-- The DRAM of quadrant `q` without contents, or initialised (R284). -/
def State.blankQuad (s : State) (q : Nat) : State :=
  let inside (a : Nat) : Bool := a / 2 ^ 37 == q
  { s with
    mem := s.mem.filter fun c => !inside c.1
    lineKey := s.lineKey.filter fun c => !inside (64 * c.1)
    poison := s.poison.filter fun l => !inside (64 * l)
    badLines := s.badLines.filter fun l => !inside (64 * l) }

/-- Quadrant `q` gated (R284): its DRAM loses its contents, its links go down. -/
def State.gate (s : State) (q : Nat) : State :=
  { s.blankQuad q with
    qpwrOn := s.qpwrOn &&& ~~~((1 : BitVec 4) <<< q), qpwrReady := s.qpwrReady &&& ~~~((1 : BitVec 4) <<< q)
    linksDown := ((List.range 4).map (4 * q + ·) ++ s.linksDown).eraseDups }

/-- A write of `qpwr` (R284). -/
def State.putQpwr (s : State) (v : Word) : State :=
  [1, 2, 3].foldl (fun s q =>
    if v.getLsbD q then { s with qpwrOn := s.qpwrOn ||| ((1 : BitVec 4) <<< q) }
    else if s.mayGate q then s.gate q else s) s

/-- `QUADRANT_READY` (R284): a quadrant whose power has been requested has its DRAM initialised, whatever was written
there meanwhile, and its links trained. -/
def execQuadrantReady (q : Nat) (s : State) : Out :=
  if s.qpwrOn.getLsbD q && !s.qpwrReady.getLsbD q then
    .next { s.blankQuad q with
      qpwrReady := s.qpwrReady ||| ((1 : BitVec 4) <<< q)
      linksDown := s.linksDown.filter fun n => n / 4 != q }
  else .next s

/-- A write of a register of the package. -/
def State.putPkgSys (s : State) (v : Word) : Nat → Option SysOut
  | 0x50C => some (s.putPsel v)
  | 0x50D => some (.done { s with mvec := v &&& ~~~3 })
  | 0x50E => some (.done (s.putQpwr v))
  | 0x50F => some (.done (s.boot s.sysPart v))
  | _ => none

/-! ### The write -/

/-- Registers that user mode writes (R61). -/
def userWrites (n : Nat) : Bool := n == 0x006 || n == 0x008 || n == 0x009
/-- Registers that nobody writes (R61). -/
def readOnly (n : Nat) : Bool :=
  n == 0x00A || n == 0x00B || n == 0x00C || n == 0x304 || n == 0x306 || n == 0x409 || n == 0x40A
/-- Registers that only the monitor writes (R61). -/
def monitorWrites (n : Nat) : Bool :=
  monitorOnly n || n == 0x404 || n == 0x406 || n == 0x407 || (0x500 ≤ n && n ≤ 0x50B)

/-- Whether a mode may write register `n` (R61, R62). -/
def mayWrite (m : Mode) (n : Nat) : Bool :=
  !readOnly n && match m with | .monitor => true | .supervisor => !monitorWrites n | .user => userWrites n

/-- The write of a shared register follows the strand's earlier accesses as by `fence.sc` at `pkg` scope (R62). -/
def State.fenceSc (s : State) : State := (s.acquireFence .pkg).releaseFence .pkg

/-- The effect of writing `v` to register `n`, when the strand may. The manual orders so the writes of complex and
partition registers; those of the monitor's registers are ordered in the same way (log 69). A write of `grpent` may
complete a gang (R35). -/
def State.putSys (s : State) (n : Nat) (v : Word) : SysOut :=
  match s.me.putSys v n with
  | some t =>
      if n = 0x006 ∧ badMode (bitsOf v.toNat 21 17) (bitsOf v.toNat 16 12) (bitsOf v.toNat 11 9) (bitsOf v.toNat 6 4) then
        .trap .mode
      else .done (s.setMe t)
  | none =>
      let f := s.fenceSc
      match f.putCxSys s.sysCx v n with
      | some o => o
      | none =>
          let p := s.sysPart
          match (f.part p).putSys v n with
          | some x => .done (if n = 0x403 then (f.setPart p x).settle p else f.setPart p x)
          | none =>
              if n = 0x410 then .done (f.request p v)
              else if n = 0x411 then .done (f.retryNode p (v.setWidth 16).toNat)
              else (f.putPkgSys v n).getD (.done s)

/-- `sysw` of register `n` (R62, R91). -/
def State.sysWrite (s : State) (n : Nat) (v : Word) : Out :=
  if (s.sysValue n).isNone then .next (s.trapHere .unassigned)
  else if !mayWrite s.me.mode n then .next (s.trapHere .privilege)
  else match s.putSys n v with
    | .done s' => .next (s'.setMe (s'.me.go (s.me.pc + 4)))
    | .trap c => .next (s.trapHere c)
    | .wait w => .next (s.waits w)

/-- `sysw` (R91). -/
def execSysw (d : SReg) (r : BitVec 12) (s : State) : Out := s.sysWrite r.toNat (s.reg d)

/-! ### The writes that the opcode table lists by themselves -/

/-- `LANESPLIT_WRITE` (R30). -/
def execLanesplitWrite (d : SReg) (s : State) : Out := s.sysWrite 0x300 (s.reg d)
/-- `POOL_DESCRIPTOR_WRITE` (R116). -/
def execPoolDescriptorWrite (far : Bool) (d : SReg) (s : State) : Out := s.sysWrite (if far then 0x302 else 0x301) (s.reg d)
/-- `PTROOT_WRITE` (R157): this model keeps no translations, so none need be invalidated. -/
def execPtrootWrite (d : SReg) (s : State) : Out := s.sysWrite 0x405 (s.reg d)
/-- `PSEL_WRITE` (R276). -/
def execPselWrite (d : SReg) (s : State) : Out := s.sysWrite 0x50C (s.reg d)
/-- `PARTITION_CREATE` (R276): a write of `psel` with create set. -/
def execPartitionCreate (d : SReg) (s : State) : Out := s.sysWrite 0x50C (s.reg d ||| 0x8000000000000000)
/-- `PBOOT_WRITE` (R278). -/
def execPbootWrite (d : SReg) (s : State) : Out := s.sysWrite 0x50F (s.reg d)
/-- `POOL_RESET` (R302). -/
def execPoolReset (d : SReg) (s : State) : Out := s.sysWrite 0x305 (s.reg d)
/-- `PREQ_WRITE` (R295). -/
def execPreqWrite (d : SReg) (s : State) : Out := s.sysWrite 0x410 (s.reg d)
/-- `GNODE_WRITE` (R28). -/
def execGnodeWrite (d : SReg) (s : State) : Out := s.sysWrite 0x411 (s.reg d)
/-- `GRPENT_WRITE` (R34). -/
def execGrpentWrite (d : SReg) (s : State) : Out := s.sysWrite 0x403 (s.reg d)
/-- `QPWR_WRITE` (R284). -/
def execQpwrWrite (d : SReg) (s : State) : Out := s.sysWrite 0x50E (s.reg d)
/-- `TAGCAP_WRITE` (R253). -/
def execTagcapWrite (d : SReg) (s : State) : Out := s.sysWrite 0x404 (s.reg d)
/-- `CELL_STORE_WRITE` (R256): `cellsize`, or `cellbase`. -/
def execCellStoreWrite (size : Bool) (d : SReg) (s : State) : Out := s.sysWrite (if size then 0x407 else 0x406) (s.reg d)
/-- `FRAGCNT_WRITE` (R147). -/
def execFragcntWrite (d : SReg) (s : State) : Out := s.sysWrite 0x103 (s.reg d)
/-- `VL_WRITE` (R91). -/
def execVlWrite (d : SReg) (s : State) : Out := s.sysWrite 0x000 (s.reg d)
/-- `VLMAX_WRITE` (R91). -/
def execVlmaxWrite (d : SReg) (s : State) : Out := s.sysWrite 0x001 (s.reg d)
/-- `SHEAD_WRITE` (R91). -/
def execSheadWrite (d : SReg) (s : State) : Out := s.sysWrite 0x005 (s.reg d)
/-- `GM_WRITE` (R59). -/
def execGmWrite (d : SReg) (s : State) : Out := s.sysWrite 0x006 (s.reg d)

end Sys2Proof.Machine
end

