-- ==== Sys2Proof/Machine/Engine.lean ====
section
/-! DEFINITION. What happens to a strand beside its instructions (R36, R43, R67, R120, R121, R286, R294, R296,
R299): allocation that waits, pre-emption, ageing, and words that are no instruction. -/

namespace Sys2Proof.Machine

/-- Buffer `id` put at the head of its pool's free list (R121). -/
def Complex.giveBack (c : Complex) (id : Nat) : Complex :=
  let p := c.pool (idFar id)
  c.setPool (idFar id) { p with free := idIndex id :: p.free }

/-- `BUFFER_RECLAIM` (R121): up to 8 buffers join the head of their pool's free list, in the order they joined the
queue. -/
def execBufferReclaim (x : Nat) (s : State) : Out :=
  let c := s.cx x
  .next (s.setCx x ((c.reclaim.take 8).foldl Complex.giveBack { c with reclaim := c.reclaim.drop 8 }))

/-- The instruction at the PC of the executing strand, if its word can be fetched and names one. -/
def State.nextInstr (s : State) : Option Instr :=
  match s.fetch s.cur s.me.pc.toNat with
  | .ok w => match decodeWord w with | .ok i => some i | .error _ => none
  | .error _ => none

/-- The executing strand's instruction tried again after it has waited for a buffer. -/
def State.retry (s : State) : Out :=
  match s.nextInstr with
  | some (.cnew d) => execCnew d s
  | some (.cprepElement d a) => execCprepElement d a s
  | some (.cappElement d a) => execCappElement d a s
  | some (.cflat d a) => execCflat d a s
  | some (.cput d a b) => execCput d a b s
  | some (.cputImm d a n) => execCputImm d a n s
  | some (.cfill d a) => execCfill d a s
  | some (.cpy a) => execCpy a s
  | some (.cpyx a) => execCpyx a s
  | some (.strm d a) => execStrm d a s
  | some (.strmx d a) => execStrmx d a s
  | some i => s.reopen i false none
  | none => .next (s.waits .none)

/-- What follows when a waiting strand's instruction has been executed again: those of the buffers granted to it that it
has not used are returned (R298). -/
def giveBack (x : Nat) (far : Bool) (l : List Nat) : Out → Out
  | .next s => .next (s.returned x far l)
  | o => o

/-- The executing strand has been granted buffer `i`, the head of the free list, beside those that it had: all of them
stand at its head for the instruction, whose next allocation begins now (R120, R299). -/
def State.granted (s : State) (far : Bool) (i : Nat) : State :=
  s.unheld.waits (.alloc far s.clock (s.me.wait.held far ++ [i]))

/-- `ALLOC_GRANT` (R120): the strand that has waited longest for a buffer is granted the head of the free list, and tries
again with it. -/
def execAllocGrant (sid : Nat) (s : State) : Out :=
  match (s.strand sid).wait with
  | .alloc far _ l =>
      let x := cxOf sid
      match (s.pool x far).free with
      | [] => .next s
      | i :: _ =>
          if s.oldest x far sid then giveBack x far (l ++ [i]) (({ s with cur := sid } : State).granted far i).retry
          else .next s
  | _ => .next s

/-- The executing strand's instruction when an allocation of it has waited past its limit (R299, R176 order 9). -/
def State.outOfBuffers (s : State) (far : Bool) : Out :=
  match s.nextInstr with
  | some (.cpy a) => .next (s.trap .pool (s.reg a))
  | some (.cpyx a) => .next (s.trap .pool (s.reg a))
  | some (.strm _ a) => .next (s.trap .pool (s.reg a))
  | some (.strmx _ a) => .next (s.trap .pool (s.reg a))
  | some (.grp m) => s.reopen (.grp m) true none
  | some (.grpk m) => s.reopen (.grpk m) true none
  | some i =>
      if (memberOf s.me.gm i).isSome then s.reopen i true none
      else .next (s.trap .pool (noBufferEval far .empty))
  | none => .next (s.waits .none)

/-- `ALLOC_TIMEOUT` (R299, R176 order 9): an allocation that has waited 4,096 clocks traps with cause 0x20. -/
def execAllocTimeout (sid : Nat) (s : State) : Out :=
  match (s.strand sid).wait with
  | .alloc far since l =>
      if s.clock < since + 4096 then .next s
      else giveBack (cxOf sid) far l (({ s with cur := sid } : State).unheld.outOfBuffers far)
  | _ => .next s

/-! ### Pre-emption (R43, R294) -/

/-- Whether a strand may take a pending pre-emption (R43, R294): in user or monitor mode, and in supervisor mode while it
waits in `wfi`; never once it waits at its own `end` (R293). -/
def Strand.mayPreempt (t : Strand) : Bool :=
  t.resident && t.preq && t.wait != .ending && (t.mode != .supervisor || t.wait == .wfi)

/-- Whether an instruction opens a convoy. -/
def opensConvoy (g : Gm) : Instr → Bool
  | .grp _ => true
  | .grpk _ => true
  | i => (memberOf g i).isSome

/-- `PREEMPTION_TAKEN` (R43): at the boundary before the instruction at the PC, with nothing of it done, or, for `v`
above its `vstart`, inside the convoy that it opens: at element `v` or a group boundary below it. -/
def execPreemptionTaken (sid v : Nat) (s : State) : Out :=
  if !(s.strand sid).mayPreempt then .next s
  else
    let s1 : State := { s with cur := sid }
    let t := s1.me
    let here (vstart : Word) : State := s1.letGo.preempted sid t.pc vstart
    match s1.nextInstr with
    | some i =>
        if opensConvoy t.gm i && t.wait != .wfi then
          if v ≤ t.vstart.toNat || t.due then .next (here t.vstart)
          else match s1.unheld.reopen i false (some v) with
            | .next s2 => .next (if s2.me.wait != .none then here t.vstart
                else s2.returned s1.myCx t.farPool (t.wait.held t.farPool))
            | o => o
        else .next (here 0)
    | none => .next (here 0)

/-- `PRIORITY_AGE` (R36): one level for each 65,536 clocks ready without issue, to 3 in all. -/
def execPriorityAge (sid : Nat) (s : State) : Out :=
  let t := s.strand sid
  if t.resident && t.wait == .none && decide (t.prio + t.age < 3) && decide (65536 * (t.age + 1) ≤ t.unissued) then
    .next (s.setStrand sid { t with age := t.age + 1 })
  else .next s

/-- `CONVOY_DRAINED` (R37): a convoy of this model has drained when its step ends. -/
def execConvoyDrained (_sid : Nat) (s : State) : Out := .next s

/-! ### Words that are no instruction (R67, R296) -/

/-- `UNASSIGNED_OPCODE` (R67). -/
def execUnassignedOpcode (w : IWord) (s : State) : Out :=
  match decodeWord w with
  | .error .unassigned => .next (s.trapHere .unassigned)
  | _ => .next s

/-- `RESERVED_FIELD_NOT_ZERO` (R67). -/
def execReservedFieldNotZero (w : IWord) (s : State) : Out :=
  match decodeWord w with
  | .error .reserved => .next (s.trapHere .reserved)
  | _ => .next s

/-- `FETCH_FAULT` (R286, R296): a fetch that fails traps; at the trap vector it is a double fault. -/
def execFetchFault (s : State) : Out :=
  match s.fetch s.cur s.me.pc.toNat with
  | .ok _ => .next s
  | .error (c, n) =>
      let s1 := s.noted n
      if s.me.mode ≠ .user ∧ s.me.pc = s.vector s.cur then .next (s1.doubleFault s.cur c)
      else .next (s1.trapHere c)

end Sys2Proof.Machine
end

