-- ==== Sys2Proof/Machine/Dusk.lean ====
section
/-! DEFINITION. The Dusk record (R322): its header and its sections. The manual names what each section contains and
gives no layout within it: each item is one doubleword here, in the order in which the manual names the items, a mask its
8,192 bytes, a spine its block (log 35). -/

namespace Sys2Proof.Machine

/-- A mode as the record shows it. -/
def Mode.code : Mode → Word
  | .user => 0 | .supervisor => 1 | .monitor => 2

/-- The strand-scope registers of the system register map (R61): `clock` (0x00B) is a core's. -/
def strandRegs : List Nat :=
  (List.range 13).filter (· != 0x00B) ++ (List.range 13).map (0x100 + ·) ++ [0x200, 0x201, 0x202, 0x204, 0x205, 0x206]

/-- What the record holds of a strand on complex `x`. -/
def Strand.duskBytes (t : Strand) (sid x clock : Nat) : List Byte :=
  dwordBytes ([BitVec.ofNat 64 sid, t.pc, t.mode.code] ++ ((List.range 64).map fun i => t.reg (BitVec.ofNat 6 i))
    ++ strandRegs.map fun n => (t.sysReg sid clock n).getD 0)
  ++ ((List.range 32).flatMap fun c => objectBlock x (t.chain (BitVec.ofNat 5 c)).data)
  ++ (List.range 8).flatMap fun m => leBytes 8192 (t.mask (BitVec.ofNat 3 m)).toNat

/-- A parked strand as far as the complex still holds it; what it does not is zero. -/
def Parked.shown (k : Parked) (p : Nat) : Strand :=
  { Strand.blank with part := p, chains := k.chains, kmasks := k.kmasks, grpmem := k.grpmem, parkid := k.parkid }

/-- The strand section. -/
def State.duskStrands (s : State) : List Byte :=
  (s.residents.flatMap fun i => (s.strand i).duskBytes i (cxOf i) s.clock)
  ++ s.parts.flatMap fun e => e.2.parked.flatMap fun k => (k.shown e.1).duskBytes k.sid k.cplx s.clock

/-- The descriptor of queue `q` of partition `p` in memory (R17); one that cannot be read is zero. -/
def State.descriptor (s : State) (p q : Nat) : List Byte :=
  match s.readSpan (launchAccess p) (s.descVa p q) 64 with
  | .ok (bs, _) => bs
  | .error _ => List.replicate 64 0

/-- The queue section: of each partition, its descriptors, its group table entries and `preq`. -/
def State.duskQueues (s : State) : List Byte :=
  (List.range 16).flatMap fun p =>
    (List.range 64).flatMap (s.descriptor p)
      ++ dwordBytes (((List.range 256).map fun g => ((s.part p).group g).word) ++ [(s.part p).preqWord])

/-- The headers of a pool's buffers (R118). -/
def Complex.headers (c : Complex) (far : Bool) : List Word :=
  (List.range (c.pool far).count.toNat).map fun i =>
    BitVec.ofNat 64 ((c.pool far).header far (c.reclaim.contains (mkId far i)) i)

/-- The pool section: of each complex, `npool`, `fpool`, and the headers of both pools. -/
def State.duskPools (s : State) : List Byte :=
  (List.range 128).flatMap fun x =>
    let c := s.cx x
    dwordBytes ([c.poolWord false, c.poolWord true] ++ c.headers false ++ c.headers true)

/-- The sections; the bits of a log entry are free values (log 2). -/
def State.duskSections (s : State) : List (List Byte) :=
  [s.duskStrands, s.duskQueues, s.duskPools
  , (List.range (32 * s.log.length)).map fun i => (Config.freeValue (s.freeCount + i)).setWidth 8]

/-- Where sections that follow each other from byte `o` begin. -/
def sectionOffsets (o : Nat) : List (List Byte) → List Nat
  | [] => []
  | l :: t => o :: sectionOffsets (o + l.length) t

/-- The header's bytes. -/
def Dusk.bytes (d : Dusk) : List Byte :=
  leBytes 8 (0x4455534B * 2 ^ 32 + 2 ^ 16) ++ leBytes 8 (d.more * 2 ^ 40 + d.kind.toNat * 2 ^ 32 + d.place.toNat)
  ++ leBytes 8 d.clock ++ leBytes 8 d.size ++ d.offset.flatMap (leBytes 8)

/-- The header of the record that is written now. -/
def State.duskHead (s : State) (kind : BitVec 8) (loc : BitVec 32) : Dusk :=
  { more := 0, kind := kind, place := loc, clock := s.clock, size := 64 + s.duskSections.flatten.length
    offset := sectionOffsets 64 s.duskSections }

/-- The header written at the start of the region. -/
def State.putDusk (s : State) (d : Dusk) : State := { s.setBytes duskBase d.bytes with dusk := some d }

/-- The sections' bytes: those of the storage that `loc` names are all ones when its error is what has happened. -/
def State.duskBody (s : State) (kind : BitVec 8) (loc : BitVec 32) : List Byte :=
  let bs := s.duskSections.flatten
  if kind = 1 then
    (List.range bs.length).map fun i => if Config.duskStruck loc.toNat (64 + i) then 0xFF else bs.getD i 0
  else bs

/-- The whole record written (R321). -/
def State.writeDusk (s : State) (kind : BitVec 8) (loc : BitVec 32) : State :=
  let t := (s.setBytes (duskBase + 64) (s.duskBody kind loc)).putDusk (s.duskHead kind loc)
  { t with freeCount := t.freeCount + 32 * s.log.length }

end Sys2Proof.Machine
end

