-- ==== Sys2Proof/Machine/Package.lean ====
section
/-! DEFINITION. Folman, the mailbox, the host and the peers (R13, R217, R269-R284, R316-R322). -/

namespace Sys2Proof.Machine

/-! ### Time and the governor (R13, R14) -/

/-- Wall time of one core clock at a clock step, in units of 5/2520 ns. -/
def clockTime (step : Nat) : Nat := 2520 / (10 - Nat.min step 5)
/-- One millisecond in those units. -/
def milli : Nat := 504000000

/-- A clock passes. -/
def State.tick (s : State) : State :=
  { s with clock := s.clock + 1, time := s.time + clockTime s.clockStep, strands := s.strands.map fun e => (e.1, e.2.ages) }

/-- Whether the governor may move: at most once in a millisecond. -/
def State.mayStep (s : State) : Bool := match s.steppedAt with | some t => decide (t + milli ≤ s.time) | none => true

/-- A move of the governor, with its log entry (R14). -/
def State.stepTo (s : State) (k : Nat) (sensor : Option Nat) : State :=
  { s with clockStep := k, steppedAt := some s.time }.logs (.clockStep k sensor)

/-- `CLOCK_STEP_DOWN` (R13): `sensor` is past its limit. -/
def execClockStepDown (sensor : Nat) (s : State) : Out :=
  let s1 : State := { s with coolAt := s.time }
  if s.mayStep && decide (s.clockStep < 5) then .next (s1.stepTo (s.clockStep + 1) (some sensor)) else .next s1

/-- `CLOCK_STEP_UP` (R13): every sensor has stayed below its limit for 10 ms. R14 does not say which of them its log entry
names then: none here (log 57). -/
def execClockStepUp (s : State) : Out :=
  if s.mayStep && decide (0 < s.clockStep) && decide (s.coolAt + 10 * milli ≤ s.time) then
    .next (s.stepTo (s.clockStep - 1) none)
  else .next s

/-! ### Peers and migration (R280, R281, R319) -/

/-- The entries that memory lists of the table node at `node`, with `w` index bits. -/
def State.listed (s : State) (node w : Nat) : List Nat :=
  (s.mem.filterMap fun c =>
    if node ≤ c.1 ∧ c.1 < node + 8 * 2 ^ w then some ((c.1 - node) / 8) else none).eraseDups

/-- Whether a leaf below the table node at `node` maps a part of 64 KiB page `g` as tagged (R154-R156, R254). -/
def State.tagsPage (s : State) (g : Nat) : Nat → List (Nat × Nat × Nat) → Bool
  | _, [] => false
  | node, (lv, sh, w) :: rest =>
      (s.listed node w).any fun i =>
        let e := s.physNat (node + 8 * i) 8
        if !bitOf e 0 || bitsOf e 63 62 != 0 then false
        else if !bitOf e 1 then bitsOf e 27 2 == 0 && s.tagsPage g (bitsOf e 61 28 * 2 ^ 14) rest
        else
          let frame := bitsOf e 61 30
          lv != 0 && bitOf e 6 && decide (frame ≤ g) && decide (g < frame + 2 ^ (sh - 16))

/-- Whether 64 KiB page `g` (PA bits 47:16) never moves (R281): it holds a byte of a pool region or of a cell store, or is
tagged. -/
def State.pinnedPage (s : State) (g : Nat) : Bool :=
  let meets (lo n : Nat) : Bool := n != 0 && decide (lo / 65536 ≤ g) && decide (g ≤ (lo + n - 1) / 65536)
  s.cxs.any (fun c => meets (c.2.far.base.toNat * 65536) (c.2.far.count.toNat * (c.2.far.size + 8)))
  || s.parts.any fun p => meets p.2.cellbase.toNat (72 * p.2.cellsize.toNat)
      || (p.2.cells.any fun c => c.line * 64 / 65536 == g)
      || (p.2.root != 0 && s.tagsPage g (p.2.root * 2 ^ 14) walkLevels)

/-- How often device `dev` has reached page `g` in this window (R281): a peer, or the part itself (`thisPart`). -/
def State.uses (s : State) (g dev : Nat) : Nat := Sparse.get 0 (g * 128 + dev) s.pageUse

/-- Whether `dev` is the device that uses page `g` most (R281). -/
def State.usesMost (s : State) (g dev : Nat) : Bool :=
  decide (0 < s.uses g dev) && (thisPart :: s.peers).all fun d => decide (s.uses g d ≤ s.uses g dev)

/-- What `pageHome` holds of a page that device `dev` backs. -/
def homeOf (dev : Nat) : Nat := if dev = thisPart then 0 else dev + 1

/-- `PAGE_MIGRATE` (R281): page `g` moves to device `dev`, a peer or this part (`thisPart`); its PA and its bytes stay. -/
def execPageMigrate (g dev : Nat) (s : State) : Out :=
  let n := Sparse.get 0 g s.pageMoves
  let there := dev == thisPart || (s.peers.contains dev && !s.removed.contains dev)
  if n < 4 && there && Sparse.get 0 g s.pageHome != homeOf dev && s.usesMost g dev && !s.pinnedPage g then
    .next { s with pageHome := Sparse.put 0 g (homeOf dev) s.pageHome, pageMoves := Sparse.put 0 g (n + 1) s.pageMoves }
  else .next s

/-- `MIGRATION_WINDOW_END` (R281): moves and uses are counted anew. -/
def execMigrationWindowEnd (s : State) : Out :=
  if s.windowAt + 2 ^ 22 ≤ s.clock then .next { s with windowAt := s.clock, pageMoves := [], pageUse := [] } else .next s

/-- Whether link `n` is up and the only one that reaches its device. -/
def State.lastLink (s : State) (n : Nat) : Bool :=
  !s.linksDown.contains n
  && (List.range 16).all fun k => k == n || s.linksDown.contains k || Config.linkDevice k != Config.linkDevice n

/-- The last link to a peer fails for good (R319): until it goes down, an access to the peer is a pending one. -/
def State.failLink (s : State) (n : Nat) : State :=
  let d := Config.linkDevice n
  if s.lastLink n && s.peers.contains d && !s.removed.contains d then { s with losing := some d } else s

/-- The links that go down next (R319). -/
def State.failing (s : State) : List Nat :=
  (List.range 16).filter fun n => s.losing == some (Config.linkDevice n) && !s.linksDown.contains n

/-- `LINK_CRC_ERROR` (R319): a flit is replayed, or the link retrains, or it goes down; when no other link
reaches the peer, the peer is removed. -/
def execLinkCrcError (link : Nat) (replayed retrained : Bool) (s : State) : Out :=
  let dev := Config.linkDevice link
  let lost := s.losing == some dev
  if replayed && !lost then .next s
  else
    let s1 := s.logs (.link link)
    if retrained && !lost then .next s1
    else
      let down := link :: s.linksDown.filter (· != link)
      let other := (List.range 16).any fun n => !down.contains n && Config.linkDevice n == dev
      .next { s1 with
        linksDown := down
        removed := if other || s.removed.contains dev then s.removed else dev :: s.removed
        losing := if other then s.losing else s.losing.filter (· != dev) }

/-! ### Errors (R316-R318) -/

/-- Ten seconds in the units of `time`. -/
def tenSeconds : Nat := 10000 * milli

/-- Corrected errors of unit `u` in the ten seconds up to now (R317). -/
def State.recent (s : State) (u : RasUnit) : Nat := s.errors.countP fun e => e.1 == u && s.time - e.2 ≤ tenSeconds

/-- `CORRECTED_ERROR` (R316, R317): the value is written back, so memory stands; the error is logged and counted, and the
eighth within ten seconds makes a lasting fault. -/
def execCorrectedError (u : RasUnit) (s : State) : Out :=
  let s1 := { s with errors := (u, s.time) :: s.errors.filter fun e => e.1 != u || s.time - e.2 ≤ tenSeconds }.logs
    (.corrected u)
  let n := s1.recent u
  .next (if n < 8 then s1 else { s1 with lasting := (u, n) :: s1.lasting.filter fun e => e.1 != u })

/-- `LASTING_FAULT_RETIRE` (R318): the unit holds a lasting fault (R317). -/
def execLastingFaultRetire (u : RasUnit) (s : State) : Out :=
  match s.lasting.find? fun e => e.1 == u with
  | none => .next s
  | some (_, n) =>
      let s1 : State := { s with
        errors := s.errors.filter fun e => e.1 != u, lasting := s.lasting.filter fun e => e.1 != u }
      match u with
      | .row c _ =>
          let used := Sparse.get 0 c s.spares
          if 256 ≤ used then .next (s1.logs (.lastingFault u))
          else .next ({ s1 with spares := Sparse.put 0 c (used + 1) s.spares, retired := u :: s.retired }.logs (.retired u n))
      | .way _ => .next ({ s1 with retired := u :: s.retired }.logs (.retired u n))
      | .bank x _ =>
          .next (({ s1 with retired := u :: s.retired }.setCx x { s1.cx x with degraded := true }).logs (.retired u n))

/-- An error that cannot be corrected (R305, R316): a DRAM line is found so, and logged, by its next read; a range of a
pool or a slot is marked and logged. -/
def State.strike (s : State) : Upset → State
  | .line l => if l < dramTop / 64 && !s.badLines.contains l then { s with badLines := l :: s.badLines } else s
  | .sram x r =>
      let c := s.cx x
      if c.sramPoison.contains r then s
      else (s.setCx x { c with sramPoison := r :: c.sramPoison }).logs (.struck (.sram x r))
  | .slot x o r =>
      let l := s.slot x o
      if l.poison.contains r then s
      else (s.setSlot x o { l with poison := r :: l.poison }).logs (.struck (.slot x o r))

/-! ### Fatal errors and Dusk (R320-R322) -/

/-- A failure code: a free value that is not zero (log 2). -/
def State.fails (s : State) : State :=
  let f := s.free
  { f.2 with failCode := if f.1.setWidth 8 = 0 then 1 else f.1.setWidth 8 }

/-- `FATAL_ERROR` (R321): the package halts; before Dawn stage 3 the failure code tells it. A further one raises the
record's count. -/
def execFatalError (kind : BitVec 8) (loc : BitVec 32) (s : State) : Out :=
  let stop (s : State) : State := { s with halted := true, msix := s.msix ++ [(0, 0), (1, 0), (2, 0), (3, 0)] }
  if s.halted then
    match s.dusk with
    | some d => .next (s.putDusk { d with more := Nat.min 255 (d.more + 1) })
    | none => .next s
  else
    let s1 := s.logs (.fatal kind loc)
    if s.stage.toNat < 3 then .next (stop s1.fails)
    else .next (stop (s1.writeDusk kind loc))

/-! ### Dawn (R275, R277, R283) -/

/-- A firmware slot. -/
def State.fwSlot (s : State) (b : Bool) : FwSlot := if b then s.fwB else s.fwA
/-- Replace it. -/
def State.setFw (s : State) (b : Bool) (v : FwSlot) : State := if b then { s with fwB := v } else { s with fwA := v }

/-- An image verifies, and its version is not below the counter (R275). -/
def State.imageOk (s : State) (l : List Byte) : Bool := Config.imageVerifies l && decide (s.rollback ≤ Config.imageVersion l)

/-- What survives without power (R284): the fuses and the firmware slots. Host and peer memory is not the package's, and
the vectors that the host has been sent stay with it. -/
def State.unpowered (s : State) : State :=
  { State.reset with
    mem := s.mem.filter (fun c => decide (dramTop ≤ c.1)), fwA := s.fwA, fwB := s.fwB, activeB := s.activeB
    committed := s.committed, rollback := s.rollback, msix := s.msix, agenda := s.agenda, freeCount := s.freeCount
    nextId := s.nextId }

/-- The state in which Dawn begins (R284): a committed image is active. -/
def State.dawnFrom (s : State) : State :=
  { s.unpowered with stage := 1, committed := false, activeB := if s.committed then !s.activeB else s.activeB }

/-- Stage 2 (R275): the active slot, or the other if it failed at the previous Dawn or fails now. -/
def State.dawnFirmware (s : State) : State :=
  let a := if (s.fwSlot s.activeB).failed then !s.activeB else s.activeB
  let try_ (s : State) (b : Bool) : Bool × State :=
    let img := (s.fwSlot b).image
    let s1 := s.logs (.digest (sha3 img))
    if s.imageOk img then (true, { s1.setFw b { s1.fwSlot b with failed := false } with activeB := b })
    else (false, (s1.logs .imageFailed).setFw b { s1.fwSlot b with failed := true })
  let r := try_ s a
  let s2 : State := { s with stage := 2 }
  if r.1 then { r.2 with stage := 2 }
  else
    let q := try_ { r.2 with stage := s2.stage } (!a)
    if q.1 then q.2 else q.2.fails

/-- Stage 3 (R275): DRAM, keys and peer ids are initialised, and the monitor image is verified. -/
def State.dawnFolman (s : State) : State :=
  let s1 : State := { s with
    stage := 3, mem := s.mem.filter (fun c => decide (dramTop ≤ c.1)), lineKey := [], poison := [], badLines := []
    keyLoads := [], keyBytes := [], peers := (Config.peersAtDawn.filter fun d => decide (d < 64)).eraseDups, removed := [] }
  let s2 := s1.logs (.digest (sha3 Config.monitorImage))
  if s.imageOk Config.monitorImage then s2 else (s2.logs .imageFailed).fails

/-- Stage 4 (R277): a monitor strand in slot 0 of each core of complex 0. -/
def State.dawnMonitor (s : State) : State :=
  let start (s : State) (d : Nat) : State :=
    let f := s.fresh
    f.2.setStrand (8 * d) (bootStrand f.1 noPart .monitor Config.monitorEntry (BitVec.ofNat 64 d) 4 .monitor)
  { start (start s 0) 1 with stage := 4 }

/-- The monitor verifies the image of a partition that it creates (R275): its digest is recorded, and so is a failure,
which leaves the partition unstarted. -/
def State.partitionImage (s : State) (img : List Byte) : State :=
  if s.stage.toNat < 4 then s
  else
    let s1 := s.logs (.digest (sha3 img))
    if Config.imageVerifies img then s1 else s1.logs .imageFailed

/-- `DAWN` (R275): its next stage, or a new Dawn of a halted package. A failure stops it. -/
def execDawn (s : State) : Out :=
  if s.halted then .next s.dawnFrom
  else if s.failCode ≠ 0 then .next s
  else if s.stage = 0 then .next s.dawnFrom
  else if s.stage = 1 then .next s.dawnFirmware
  else if s.stage = 2 then .next s.dawnFolman
  else if s.stage = 3 then .next s.dawnMonitor
  else if s.stage = 4 then
    .next { s with stage := 5, rollback := Nat.max s.rollback (Config.imageVersion (s.fwSlot s.activeB).image) }
  else .next s

/-! ### The mailbox (R279, R282, R283) -/

/-- A copy of the mailbox. -/
def State.box (s : State) (host : Bool) : Mailbox := if host then s.hostBox else s.monBox
/-- Replace it. -/
def State.setBox (s : State) (host : Bool) (b : Mailbox) : State := if host then { s with hostBox := b } else { s with monBox := b }

/-- Opcode of the command (R279). -/
def Mailbox.opcode (b : Mailbox) : Nat := bitsOf b.command.toNat 15 0
/-- `n` bytes of the argument area from byte `o`. -/
def Mailbox.bytes (b : Mailbox) (o n : Nat) : List Byte := (List.range n).map fun i => Sparse.get 0 (o + i) b.args
/-- Argument doubleword `i`. -/
def Mailbox.arg (b : Mailbox) (i : Nat) : Nat := leNat (b.bytes (8 * i) 8)
/-- Bytes placed in the argument area. -/
def Mailbox.putArgs (b : Mailbox) (o : Nat) (bs : List Byte) : Mailbox := { b with args := putBytes b.args o bs }

/-- The host writes bytes of the mailbox window through function `fn` (R279). -/
def State.hostMailbox (s : State) (fn o : Nat) (bs : List Byte) : State :=
  let b := s.hostBox.puts o bs
  { s with hostBox := if s.hostBox.run = .idle then { b with fn := fn } else b }

/-- What a command ends with: its copy's mailbox is marked as run with a result code. -/
def State.ran (s : State) (host : Bool) (code : BitVec 8) : State := s.setBox host { s.box host with run := .ran code }

/-- Access by the mailbox on behalf of the monitor: untranslated, as in monitor mode. -/
def boxAccess : Access := { part := noPart, mode := .monitor, tag := 0, agent := 2 ^ 65, family := 2 ^ 65, quiet := true }

/-- Where memory holds byte `h` of host physical memory: what the part reaches (R271) under its PA, the rest beyond every
PA (log 12). -/
def hostPlace (h : Nat) : Nat := if dramTop ≤ h ∧ h < peerBase then h else 2 ^ 64 + h

/-- Whether `n` bytes from a host physical address are addresses (R279). -/
def hostRange (pa n : Nat) : Bool := decide (pa + n ≤ 2 ^ 64)

/-- Bytes written where a command's PA says: none when that is no place. -/
def State.boxWrite (s : State) (host : Bool) (pa : Nat) (bs : List Byte) : Option State :=
  if host then
    (if hostRange pa bs.length then
      some ((List.range bs.length).foldl (fun s i => s.setByte (hostPlace (pa + i)) (bs.getD i 0)) s)
    else none)
  else match s.writePieces boxAccess pa bs 0 ((List.range bs.length).map fun i => (i, 1)) with
    | (none, s') => some s'
    | (some _, _) => none

/-- The command runs when its copy has been started with that opcode. -/
def State.command (s : State) (host : Bool) (op : Nat) (k : Mailbox → State) : Out :=
  let b := s.box host
  if b.run = .started && b.opcode == op then .next (k b) else .next s

/-- `n` bytes that the manual gives no layout or value (log 2). -/
def State.freeBytes (s : State) (n : Nat) : List Byte × State :=
  ((List.range n).map fun i => (Config.freeValue (s.freeCount + i)).setWidth 8, { s with freeCount := s.freeCount + n })

/-- `READ_EVENT_LOG` (R279, R282): entries of 32 bytes, oldest first; their bit layout is not given. -/
def execReadEventLog (host : Bool) (s : State) : Out :=
  s.command host 1 fun b =>
    let n := Nat.min (bitsOf (b.arg 1) 63 32) (s.log.length - bitsOf (b.arg 1) 31 0)
    let f := s.freeBytes (32 * n)
    match f.2.boxWrite host (b.arg 0) f.1 with
    | none => s.ran host 2
    | some s1 => (s1.setBox host ((s1.box host).putArgs 0 (leBytes 8 n))).ran host 0

/-- `READ_DUSK_RECORD` (R279, R322): bytes of the record as plaintext. -/
def execReadDuskRecord (host : Bool) (s : State) : Out :=
  s.command host 2 fun b =>
    match s.dusk with
    | none => s.ran host 5
    | some d =>
        let o := b.arg 1
        let n := Nat.min (b.arg 2) (d.size - o)
        match s.boxWrite host (b.arg 0) (s.bytesAt (duskBase + o) n) with
        | none => s.ran host 2
        | some s1 => (s1.setBox host ((s1.box host).putArgs 0 (leBytes 8 n))).ran host 0

/-- `READ_SENSORS` (R279, R282): what the sensors read is no value of the manual's. -/
def execReadSensors (host : Bool) (s : State) : Out :=
  s.command host 3 fun b =>
    let f := s.freeBytes 272
    (f.2.setBox host (b.putArgs 0 f.1)).ran host 0

/-- `WRITE_FIRMWARE_IMAGE` (R279, R283): bytes of host memory into the inactive slot. -/
def execWriteFirmwareImage (s : State) : Out :=
  s.command true 0x10 fun b =>
    let o := b.arg 1
    let n := b.arg 2
    if !hostRange (b.arg 0) n then s.ran true 2
    else
      let x := s.fwSlot (!s.activeB)
      let old := x.image ++ List.replicate (o - x.image.length) 0
      let img := old.take o ++ ((List.range n).map fun i => s.byteAt (hostPlace (b.arg 0 + i)))
        ++ old.drop (o + n)
      (s.setFw (!s.activeB) { image := img, failed := false }).ran true 0

/-- `COMMIT_FIRMWARE_IMAGE` (R279, R283): verified as at Dawn stage 2, the image is active for the next Dawn. -/
def execCommitFirmwareImage (s : State) : Out :=
  s.command true 0x11 fun b =>
    let x := s.fwSlot (!s.activeB)
    let img := x.image.take (b.arg 0)
    if s.imageOk img then
      let s1 := (s.setFw (!s.activeB) { x with image := img }).setBox true (b.putArgs 0 (leBytes 8 (Config.imageVersion img)))
      ({ s1 with committed := true } : State).ran true 0
    else (({ s with committed := false } : State).setFw (!s.activeB) {}).ran true 3

/-- Key slot `k` takes another key (R273): what was written under the old one can no longer be read. The key is the
material it is loaded with, or a fresh random one. -/
def State.newKey (s : State) (k : Nat) (b : Option Nat) : State :=
  { s with
    keyBytes := Sparse.put none k b s.keyBytes
    keyLoads := Sparse.put 0 k (Sparse.get 0 k s.keyLoads + 1) s.keyLoads }

/-- `LOAD_KEY_SLOT` (R273, R279): the key bytes of the argument area then read as zero. -/
def execLoadKeySlot (s : State) : Out :=
  s.command false 0x20 fun b =>
    ((s.newKey (bitsOf (b.arg 0) 13 0) (some (leNat (b.bytes 8 64)))).setBox false
      (b.putArgs 8 (List.replicate 64 0))).ran false 0

/-- `ERASE_KEY_SLOT` (R279): the slot takes a fresh random key. -/
def execEraseKeySlot (s : State) : Out :=
  s.command false 0x21 fun b => (s.newKey (bitsOf (b.arg 0) 13 0) none).ran false 0

/-- The result of a command that none of the steps above runs: unknown, or not permitted from its copy. -/
def strayCode (host : Bool) (op : Nat) : Option (BitVec 8) :=
  if op = 1 ∨ op = 2 ∨ op = 3 then none
  else if op = 0x10 ∨ op = 0x11 then (if host then none else some 4)
  else if op = 0x20 ∨ op = 0x21 then (if host then some 4 else none)
  else some 1

/-- `MAILBOX_COMPLETE` (R279): go returns to 0 and the result is set; the host copy raises MSI-X vector 1, and
the monitor's copy wakes the monitor strands. -/
def execMailboxComplete (host : Bool) (s : State) : Out :=
  let b := s.box host
  let code := match b.run with
    | .idle => none
    | .started => strayCode host b.opcode
    | .ran c => some c
  match code with
  | none => .next s
  | some c =>
      let s1 := s.setBox host { b with run := .idle, result := c }
      .next (if host then { s1 with msix := s1.msix ++ [(b.fn, 1)] } else s1.wakeMonitor)

/-! ### Accesses from outside (R217, R269, R271) -/

/-- An access from outside names no key slot (log 6): it makes the line of place `l` readable under every key, the bytes
that it does not write as they are when some slot still holds the line's key, and otherwise unreadable for good. -/
def State.unkey (s : State) (l : Nat) : State :=
  let ln := l / 64
  match Sparse.get none ln s.lineKey with
  | none => s
  | some w =>
      let s1 : State := if s.keyHeld w then s
        else s.setBytes (ln * 64) ((List.range 64).map fun i =>
          Config.unreadable w.num noKey (ln * 64 + i) (s.bytesAt (ln * 64) 64))
      { s1 with lineKey := Sparse.put none ln none s.lineKey }

/-- Lines that `n` bytes from place `l` touch. -/
def linesOf (l n : Nat) : List Nat := if n = 0 then [] else (List.range ((l + n - 1) / 64 + 1 - l / 64)).map (l / 64 + ·)

/-- A read from outside of `n` bytes from place `l`: it acquires at `sys` scope, and a line found uncorrectable
is marked (R305). -/
def State.outRead (s : State) (a l n : Nat) : State :=
  let s1 := (linesOf l n).foldl (fun s ln => s.noted { line := some ln }) s
  s1.acquire a outLoc .sys ((List.range n).flatMap fun i => s1.tokensAt (byteKey 0 (l + i)))

/-- A write from outside: it releases at `sys` scope, and the write part of an atomic goes on with the release sequence
that it finds (R201). Lines written whole lose their marker, bytes of a line that stays marked are not written (R305), and
none of the Dusk region is (R320). -/
def State.outWrite (s : State) (a l : Nat) (rmw : Bool) (bs : List Byte) : State :=
  let whole := wholeRanges l bs.length
  let s0 := { s with
    poison := s.poison.filter fun r => !whole.contains r, badLines := s.badLines.filter fun r => !whole.contains r }
  let r := s0.release a outLoc .sys
  (List.range bs.length).foldl (fun s i =>
    if s.marked (l + i) || inDusk (l + i) then s
    else
      let k := byteKey 0 (l + i)
      ((s.unkey (l + i)).setByte (l + i) (bs.getD i 0)).setTokens k (if rmw then addToken (s.tokensAt k) r.1 else [r.1])) r.2

/-- `HOST_MEMORY_ACCESS` (R269): the host reads or writes DRAM as CXL memory. -/
def execHostMemoryAccess (pa bytes : Nat) (write : Option (List Byte)) (s : State) : Out :=
  if dramTop < pa + bytes then .next s
  else match write with
    | none => .next (s.outRead (outAgent 0) pa bytes)
    | some bs => .next (s.outWrite (outAgent 0) pa false (bs.take bytes))

/-- `PEER_MEMORY_ACCESS` (R217, R271): peer device `dev` reaches DRAM address `addr`, which the migration unit counts
(R281); an atomic is performed at the line's home slice. -/
def execPeerMemoryAccess (dev addr : Nat) (op : PeerOp) (s : State) : Out :=
  let a := outAgent (dev + 1)
  if !s.peers.contains dev || s.removed.contains dev then .next s
  else
    let s := s.counts (addr / 65536) dev
    match op with
    | .read n => if dramTop < addr + n then .next s else .next (s.outRead a addr n)
    | .write bs => if dramTop < addr + bs.length then .next s else .next (s.outWrite a addr false bs)
    | .amo o wide v c =>
        let z := if wide then 8 else 4
        if dramTop < addr + z || addr % z != 0 then .next s
        else
          let s1 := s.outRead a addr z
          if s1.marked addr then .next s1
          else match amoNew o (8 * z) (leNat ((List.range z).map fun i => s1.clearByte (addr + i))) (v.toNat % 2 ^ (8 * z)) (c.toNat % 2 ^ (8 * z)) with
            | none => .next s1
            | some w => .next (s1.outWrite a addr true (leBytes z w))

/-- The host (0), or peer device `agent - 1`, reads `n` bytes of its own memory from its address `addr`, or writes some
(R270, R280): other agents see them as the ordering rules say. -/
def State.ownAccess (s : State) (agent addr n : Nat) (write : Option (List Byte)) : State :=
  let at_ (i : Nat) : Nat := if agent = 0 then hostPlace (addr + i) else peerBase + (agent - 1) * 2 ^ 40 + addr + i
  let len := match write with | some bs => bs.length | none => n
  if agent ≠ 0 ∧ (!s.peers.contains (agent - 1) ∨ dramTop < addr + len) then s
  else (List.range len).foldl (fun s i => match write with
    | some bs => s.outWrite (outAgent agent) (at_ i) false [bs.getD i 0]
    | none => s.outRead (outAgent agent) (at_ i) 1) s

end Sys2Proof.Machine
end

