-- ==== Sys2Proof/Machine/Dispatch.lean ====
section
/-! DEFINITION. One arm per instruction: the meaning it calls. -/

namespace Sys2Proof.Machine

/-- What an instruction does. -/
def exec (i : Instr) (s : State) : Host.Outcome State Fault Refusal :=
  match i with
  | .nop => Sys2Proof.Machine.execNop s
  | .svc n => Sys2Proof.Machine.execSvc n s
  | .tret => Sys2Proof.Machine.execTret s
  | .sysr d r => Sys2Proof.Machine.execSysr d r s
  | .sysw d r => Sys2Proof.Machine.execSysw d r s
  | .endStrand => Sys2Proof.Machine.execEndStrand s
  | .wfi => Sys2Proof.Machine.execWfi s
  | .add d a b => Sys2Proof.Machine.execAdd d a b s
  | .sub d a b => Sys2Proof.Machine.execSub d a b s
  | .mul d a b => Sys2Proof.Machine.execMul d a b s
  | .mulh d a b => Sys2Proof.Machine.execMulh d a b s
  | .mulhu d a b => Sys2Proof.Machine.execMulhu d a b s
  | .div d a b => Sys2Proof.Machine.execDiv d a b s
  | .divu d a b => Sys2Proof.Machine.execDivu d a b s
  | .rem d a b => Sys2Proof.Machine.execRem d a b s
  | .remu d a b => Sys2Proof.Machine.execRemu d a b s
  | .and d a b => Sys2Proof.Machine.execAnd d a b s
  | .or d a b => Sys2Proof.Machine.execOr d a b s
  | .xor d a b => Sys2Proof.Machine.execXor d a b s
  | .shl d a b => Sys2Proof.Machine.execShl d a b s
  | .shr d a b => Sys2Proof.Machine.execShr d a b s
  | .sra d a b => Sys2Proof.Machine.execSra d a b s
  | .rotl d a b => Sys2Proof.Machine.execRotl d a b s
  | .min d a b => Sys2Proof.Machine.execMin d a b s
  | .max d a b => Sys2Proof.Machine.execMax d a b s
  | .minu d a b => Sys2Proof.Machine.execMinu d a b s
  | .maxu d a b => Sys2Proof.Machine.execMaxu d a b s
  | .slt d a b => Sys2Proof.Machine.execSlt d a b s
  | .sltu d a b => Sys2Proof.Machine.execSltu d a b s
  | .clz d a => Sys2Proof.Machine.execClz d a s
  | .ctz d a => Sys2Proof.Machine.execCtz d a s
  | .popc d a => Sys2Proof.Machine.execPopc d a s
  | .addi d a im => Sys2Proof.Machine.execAddi d a im s
  | .andi d a im => Sys2Proof.Machine.execAndi d a im s
  | .ori d a im => Sys2Proof.Machine.execOri d a im s
  | .xori d a im => Sys2Proof.Machine.execXori d a im s
  | .shli d a n => Sys2Proof.Machine.execShli d a n s
  | .shri d a n => Sys2Proof.Machine.execShri d a n s
  | .srai d a n => Sys2Proof.Machine.execSrai d a n s
  | .slti d a im => Sys2Proof.Machine.execSlti d a im s
  | .sltiu d a im => Sys2Proof.Machine.execSltiu d a im s
  | .lhi d o => Sys2Proof.Machine.execLhi d o s
  | .pcadd d o => Sys2Proof.Machine.execPcadd d o s
  | .lds d a z o => Sys2Proof.Machine.execLds d a z o s
  | .ldu d a z o => Sys2Proof.Machine.execLdu d a z o s
  | .sts d a z o => Sys2Proof.Machine.execSts d a z o s
  | .amo d a p o sc w => Sys2Proof.Machine.execAmo d a p o sc w s
  | .beq a b o => Sys2Proof.Machine.execBeq a b o s
  | .bne a b o => Sys2Proof.Machine.execBne a b o s
  | .blt a b o => Sys2Proof.Machine.execBlt a b o s
  | .bge a b o => Sys2Proof.Machine.execBge a b o s
  | .bltu a b o => Sys2Proof.Machine.execBltu a b o s
  | .bgeu a b o => Sys2Proof.Machine.execBgeu a b o s
  | .jal d o => Sys2Proof.Machine.execJal d o s
  | .jalr d a im => Sys2Proof.Machine.execJalr d a im s
  | .strip d a => Sys2Proof.Machine.execStrip d a s
  | .stripClose d => Sys2Proof.Machine.execStripClose d s
  | .snext d => Sys2Proof.Machine.execSnext d s
  | .setvl d a => Sys2Proof.Machine.execSetvl d a s
  | .setvlx d a o => Sys2Proof.Machine.execSetvlx d a o s
  | .grp m => Sys2Proof.Machine.execGrp m s
  | .grpk m => Sys2Proof.Machine.execGrpk m s
  | .bext d a p l => Sys2Proof.Machine.execBext d a p l s
  | .bins d a p l => Sys2Proof.Machine.execBins d a p l s
  | .fsh d a n => Sys2Proof.Machine.execFsh d a n s
  | .vadd d a b x => Sys2Proof.Machine.execVadd d a b x s
  | .vsub d a b x => Sys2Proof.Machine.execVsub d a b x s
  | .vmul d a b x => Sys2Proof.Machine.execVmul d a b x s
  | .vfma d a b x => Sys2Proof.Machine.execVfma d a b x s
  | .vfms d a b x => Sys2Proof.Machine.execVfms d a b x s
  | .vdiv d a b x => Sys2Proof.Machine.execVdiv d a b x s
  | .vmin d a b x => Sys2Proof.Machine.execVmin d a b x s
  | .vmax d a b x => Sys2Proof.Machine.execVmax d a b x s
  | .vand d a b x => Sys2Proof.Machine.execVand d a b x s
  | .vor d a b x => Sys2Proof.Machine.execVor d a b x s
  | .vxor d a b x => Sys2Proof.Machine.execVxor d a b x s
  | .vshl d a b x => Sys2Proof.Machine.execVshl d a b x s
  | .vshr d a b x => Sys2Proof.Machine.execVshr d a b x s
  | .vsra d a b x => Sys2Proof.Machine.execVsra d a b x s
  | .vfsh d a b x => Sys2Proof.Machine.execVfsh d a b x s
  | .vbext d a b x => Sys2Proof.Machine.execVbext d a b x s
  | .vabs d a x => Sys2Proof.Machine.execVabs d a x s
  | .vneg d a x => Sys2Proof.Machine.execVneg d a x s
  | .vpopc d a x => Sys2Proof.Machine.execVpopc d a x s
  | .vclz d a x => Sys2Proof.Machine.execVclz d a x s
  | .vsel d a b n x => Sys2Proof.Machine.execVsel d a b n x s
  | .vaddScalar d a b x => Sys2Proof.Machine.execVaddScalar d a b x s
  | .vsubScalar d a b x => Sys2Proof.Machine.execVsubScalar d a b x s
  | .vmulScalar d a b x => Sys2Proof.Machine.execVmulScalar d a b x s
  | .vfmaScalar d a b x => Sys2Proof.Machine.execVfmaScalar d a b x s
  | .vfmsScalar d a b x => Sys2Proof.Machine.execVfmsScalar d a b x s
  | .vdivScalar d a b x => Sys2Proof.Machine.execVdivScalar d a b x s
  | .vminScalar d a b x => Sys2Proof.Machine.execVminScalar d a b x s
  | .vmaxScalar d a b x => Sys2Proof.Machine.execVmaxScalar d a b x s
  | .vandScalar d a b x => Sys2Proof.Machine.execVandScalar d a b x s
  | .vorScalar d a b x => Sys2Proof.Machine.execVorScalar d a b x s
  | .vxorScalar d a b x => Sys2Proof.Machine.execVxorScalar d a b x s
  | .vshlScalar d a b x => Sys2Proof.Machine.execVshlScalar d a b x s
  | .vshrScalar d a b x => Sys2Proof.Machine.execVshrScalar d a b x s
  | .vsraScalar d a b x => Sys2Proof.Machine.execVsraScalar d a b x s
  | .vfshScalar d a b x => Sys2Proof.Machine.execVfshScalar d a b x s
  | .vbextScalar d a b x => Sys2Proof.Machine.execVbextScalar d a b x s
  | .vselScalar d a b n x => Sys2Proof.Machine.execVselScalar d a b n x s
  | .vcmp d a b c => Sys2Proof.Machine.execVcmp d a b c s
  | .vcmpScalar d a b c => Sys2Proof.Machine.execVcmpScalar d a b c s
  | .vredsum d a b => Sys2Proof.Machine.execVredsum d a b s
  | .vredmax d a b => Sys2Proof.Machine.execVredmax d a b s
  | .vredmin d a b => Sys2Proof.Machine.execVredmin d a b s
  | .vcvt d a x => Sys2Proof.Machine.execVcvt d a x s
  | .vcvtSat d a x => Sys2Proof.Machine.execVcvtSat d a x s
  | .vexp2 d a x => Sys2Proof.Machine.execVexp2 d a x s
  | .vrcp d a x => Sys2Proof.Machine.execVrcp d a x s
  | .vsqrt d a x => Sys2Proof.Machine.execVsqrt d a x s
  | .vidx d x => Sys2Proof.Machine.execVidx d x s
  | .vmv d a x => Sys2Proof.Machine.execVmv d a x s
  | .vmvScalar d a x => Sys2Proof.Machine.execVmvScalar d a x s
  | .vperm d a b => Sys2Proof.Machine.execVperm d a b s
  | .vcomp d a b => Sys2Proof.Machine.execVcomp d a b s
  | .vexpd d a b => Sys2Proof.Machine.execVexpd d a b s
  | .vslide d a b => Sys2Proof.Machine.execVslide d a b s
  | .mand d a b => Sys2Proof.Machine.execMand d a b s
  | .mor d a b => Sys2Proof.Machine.execMor d a b s
  | .mxor d a b => Sys2Proof.Machine.execMxor d a b s
  | .mnot d a => Sys2Proof.Machine.execMnot d a s
  | .mpopc d a => Sys2Proof.Machine.execMpopc d a s
  | .mfirst d a => Sys2Proof.Machine.execMfirst d a s
  | .mset d a b => Sys2Proof.Machine.execMset d a b s
  | .mget d a b => Sys2Proof.Machine.execMget d a b s
  | .vbr a o => Sys2Proof.Machine.execVbr a o s
  | .vjoin o => Sys2Proof.Machine.execVjoin o s
  | .cnew d => Sys2Proof.Machine.execCnew d s
  | .cfree d => Sys2Proof.Machine.execCfree d s
  | .cshare d a => Sys2Proof.Machine.execCshare d a s
  | .cprep d a => Sys2Proof.Machine.execCprep d a s
  | .capp d a => Sys2Proof.Machine.execCapp d a s
  | .cprepElement d a => Sys2Proof.Machine.execCprepElement d a s
  | .cappElement d a => Sys2Proof.Machine.execCappElement d a s
  | .ctrimH d a => Sys2Proof.Machine.execCtrimH d a s
  | .ctrimT d a => Sys2Proof.Machine.execCtrimT d a s
  | .csplit d a b => Sys2Proof.Machine.execCsplit d a b s
  | .csplice d a b => Sys2Proof.Machine.execCsplice d a b s
  | .clen d a => Sys2Proof.Machine.execClen d a s
  | .cseg d a b => Sys2Proof.Machine.execCseg d a b s
  | .cflat d a => Sys2Proof.Machine.execCflat d a s
  | .cget d a b => Sys2Proof.Machine.execCget d a b s
  | .cput d a b => Sys2Proof.Machine.execCput d a b s
  | .cspill a b => Sys2Proof.Machine.execCspill a b s
  | .cfill d a => Sys2Proof.Machine.execCfill d a s
  | .chld d a => Sys2Proof.Machine.execChld d a s
  | .chst a b => Sys2Proof.Machine.execChst a b s
  | .ctrimHImm d n => Sys2Proof.Machine.execCtrimHImm d n s
  | .ctrimTImm d n => Sys2Proof.Machine.execCtrimTImm d n s
  | .csplitImm d a n => Sys2Proof.Machine.execCsplitImm d a n s
  | .cgetImm d a n => Sys2Proof.Machine.execCgetImm d a n s
  | .cputImm d a n => Sys2Proof.Machine.execCputImm d a n s
  | .vld d a => Sys2Proof.Machine.execVld d a s
  | .vlds d a b => Sys2Proof.Machine.execVlds d a b s
  | .vldx d a b => Sys2Proof.Machine.execVldx d a b s
  | .vldff d a => Sys2Proof.Machine.execVldff d a s
  | .vldk d a b => Sys2Proof.Machine.execVldk d a b s
  | .vst d a => Sys2Proof.Machine.execVst d a s
  | .vsts d a b => Sys2Proof.Machine.execVsts d a b s
  | .vstx d a b => Sys2Proof.Machine.execVstx d a b s
  | .strm d a => Sys2Proof.Machine.execStrm d a s
  | .strmx d a => Sys2Proof.Machine.execStrmx d a s
  | .strmoff d => Sys2Proof.Machine.execStrmoff d s
  | .cpy a => Sys2Proof.Machine.execCpy a s
  | .cpyx a => Sys2Proof.Machine.execCpyx a s
  | .cpyr a => Sys2Proof.Machine.execCpyr a s
  | .waitk d a => Sys2Proof.Machine.execWaitk d a s
  | .ktest d a b => Sys2Proof.Machine.execKtest d a b s
  | .kclr d => Sys2Proof.Machine.execKclr d s
  | .fence o sc => Sys2Proof.Machine.execFence o sc s
  | .ifence => Sys2Proof.Machine.execIfence s
  | .gbar g => Sys2Proof.Machine.execGbar g s
  | .garr g => Sys2Proof.Machine.execGarr g s
  | .gwt g => Sys2Proof.Machine.execGwt g s
  | .qpost a => Sys2Proof.Machine.execQpost a s
  | .vamo d a b p o sc => Sys2Proof.Machine.execVamo d a b p o sc s
  | .oclaim d a => Sys2Proof.Machine.execOclaim d a s
  | .orel d => Sys2Proof.Machine.execOrel d s
  | .oput d a => Sys2Proof.Machine.execOput d a s
  | .oget d a => Sys2Proof.Machine.execOget d a s
  | .mma d a b => Sys2Proof.Machine.execMma d a b s
  | .mmaz d a b => Sys2Proof.Machine.execMmaz d a b s
  | .bswalk d a b => Sys2Proof.Machine.execBswalk d a b s
  | .biasupd d a b => Sys2Proof.Machine.execBiasupd d a b s
  | .tkon a => Sys2Proof.Machine.execTkon a s
  | .tkoff => Sys2Proof.Machine.execTkoff s
  | .tkget d a => Sys2Proof.Machine.execTkget d a s
  | .tksave a => Sys2Proof.Machine.execTksave a s
  | .tkload a => Sys2Proof.Machine.execTkload a s
  | .tnew d => Sys2Proof.Machine.execTnew d s
  | .tnewq d => Sys2Proof.Machine.execTnewq d s
  | .tset a => Sys2Proof.Machine.execTset a s
  | .tsets a => Sys2Proof.Machine.execTsets a s
  | .tget d => Sys2Proof.Machine.execTget d s
  | .tretTag a => Sys2Proof.Machine.execTretTag a s
  | .citw a b => Sys2Proof.Machine.execCitw a b s
  | .citr d a => Sys2Proof.Machine.execCitr d a s
  | .citp a b => Sys2Proof.Machine.execCitp a b s
  | .stcm d a z => Sys2Proof.Machine.execStcm d a z s
  | .vstcm d a => Sys2Proof.Machine.execVstcm d a s
  | .ldt d a b z => Sys2Proof.Machine.execLdt d a b z s
  | .vldt d a b => Sys2Proof.Machine.execVldt d a b s
  | .doorbell p q => Sys2Proof.Machine.execDoorbell p q s
  | .descriptorPoll p q => Sys2Proof.Machine.execDescriptorPoll p q s
  | .strandPlace p => Sys2Proof.Machine.execStrandPlace p s
  | .gangStart p => Sys2Proof.Machine.execGangStart p s
  | .recordComplete p => Sys2Proof.Machine.execRecordComplete p s
  | .heldCompletionWrite p q => Sys2Proof.Machine.execHeldCompletionWrite p q s
  | .copyNodeComplete p n => Sys2Proof.Machine.execCopyNodeComplete p n s
  | .graphCopyFault p n => Sys2Proof.Machine.execGraphCopyFault p n s
  | .chunkComplete c j => Sys2Proof.Machine.execChunkComplete c j s
  | .chunkFail c j => Sys2Proof.Machine.execChunkFail c j s
  | .streamRefill sid r => Sys2Proof.Machine.execStreamRefill sid r s
  | .bufferReclaim x => Sys2Proof.Machine.execBufferReclaim x s
  | .allocGrant sid => Sys2Proof.Machine.execAllocGrant sid s
  | .allocTimeout sid => Sys2Proof.Machine.execAllocTimeout sid s
  | .tagGrant p => Sys2Proof.Machine.execTagGrant p s
  | .tagDrainComplete p t => Sys2Proof.Machine.execTagDrainComplete p t s
  | .slotGrant x o => Sys2Proof.Machine.execSlotGrant x o s
  | .barrierDepart sid => Sys2Proof.Machine.execBarrierDepart sid s
  | .waitkWake sid => Sys2Proof.Machine.execWaitkWake sid s
  | .wfiWake sid => Sys2Proof.Machine.execWfiWake sid s
  | .convoyDrained sid => Sys2Proof.Machine.execConvoyDrained sid s
  | .preemptionTaken sid v => Sys2Proof.Machine.execPreemptionTaken sid v s
  | .priorityAge sid => Sys2Proof.Machine.execPriorityAge sid s
  | .clockStepDown sensor => Sys2Proof.Machine.execClockStepDown sensor s
  | .pageMigrate page dev => Sys2Proof.Machine.execPageMigrate page dev s
  | .linkCrcError link replayed retrained => Sys2Proof.Machine.execLinkCrcError link replayed retrained s
  | .correctedError u => Sys2Proof.Machine.execCorrectedError u s
  | .lastingFaultRetire u => Sys2Proof.Machine.execLastingFaultRetire u s
  | .fatalError kind loc => Sys2Proof.Machine.execFatalError kind loc s
  | .quadrantReady q => Sys2Proof.Machine.execQuadrantReady q s
  | .readEventLog host => Sys2Proof.Machine.execReadEventLog host s
  | .readDuskRecord host => Sys2Proof.Machine.execReadDuskRecord host s
  | .readSensors host => Sys2Proof.Machine.execReadSensors host s
  | .mailboxComplete host => Sys2Proof.Machine.execMailboxComplete host s
  | .unassignedOpcode w => Sys2Proof.Machine.execUnassignedOpcode w s
  | .reservedFieldNotZero w => Sys2Proof.Machine.execReservedFieldNotZero w s
  | .hostMemoryAccess pa bytes write => Sys2Proof.Machine.execHostMemoryAccess pa bytes write s
  | .peerMemoryAccess dev addr op => Sys2Proof.Machine.execPeerMemoryAccess dev addr op s
  | .clockStepUp => Sys2Proof.Machine.execClockStepUp s
  | .migrationWindowEnd => Sys2Proof.Machine.execMigrationWindowEnd s
  | .dawn => Sys2Proof.Machine.execDawn s
  | .writeFirmwareImage => Sys2Proof.Machine.execWriteFirmwareImage s
  | .commitFirmwareImage => Sys2Proof.Machine.execCommitFirmwareImage s
  | .loadKeySlot => Sys2Proof.Machine.execLoadKeySlot s
  | .eraseKeySlot => Sys2Proof.Machine.execEraseKeySlot s
  | .fetchFault => Sys2Proof.Machine.execFetchFault s
  | .lanesplitWrite d => Sys2Proof.Machine.execLanesplitWrite d s
  | .poolDescriptorWrite far d => Sys2Proof.Machine.execPoolDescriptorWrite far d s
  | .ptrootWrite d => Sys2Proof.Machine.execPtrootWrite d s
  | .pselWrite d => Sys2Proof.Machine.execPselWrite d s
  | .partitionCreate d => Sys2Proof.Machine.execPartitionCreate d s
  | .pbootWrite d => Sys2Proof.Machine.execPbootWrite d s
  | .poolReset d => Sys2Proof.Machine.execPoolReset d s
  | .preqWrite d => Sys2Proof.Machine.execPreqWrite d s
  | .gnodeWrite d => Sys2Proof.Machine.execGnodeWrite d s
  | .grpentWrite d => Sys2Proof.Machine.execGrpentWrite d s
  | .qpwrWrite d => Sys2Proof.Machine.execQpwrWrite d s
  | .tagcapWrite d => Sys2Proof.Machine.execTagcapWrite d s
  | .cellStoreWrite size d => Sys2Proof.Machine.execCellStoreWrite size d s
  | .fragcntWrite d => Sys2Proof.Machine.execFragcntWrite d s
  | .vlWrite d => Sys2Proof.Machine.execVlWrite d s
  | .vlmaxWrite d => Sys2Proof.Machine.execVlmaxWrite d s
  | .sheadWrite d => Sys2Proof.Machine.execSheadWrite d s
  | .gmWrite d => Sys2Proof.Machine.execGmWrite d s

end Sys2Proof.Machine
end

