-- ==== Sys2Proof/Machine/Mover.lean ====
section
/-! DEFINITION. What moves: the issue of a strand (R36, R55, R67, R294), the steps that agents beside the strands
take, and which comes next when the environment has chosen nothing (log 5). -/

namespace Sys2Proof.Machine

/-! ### Issue -/

/-- A wait that ends by a step of its own: the strand does not issue meanwhile (R36). -/
def Wait.blocks : Wait → Bool
  | .slot _ _ => true
  | .tag _ => true
  | .barrier _ => true
  | .waitk _ _ => true
  | .wfi => true
  | .alloc _ _ _ => true
  | _ => false

/-- Strand `sid` is the one that executes, its core has issued from its slot, and its priority is its record's again
(R36). -/
def State.issuing (s : State) (sid : Nat) : State :=
  { s with cur := sid, turns := Sparse.put 0 (coreOf sid) sid s.turns }.setStrand sid
    { s.strand sid with unissued := 0, age := 0 }

/-- What the word at the PC does, or the failure to fetch or decode it (R55, R67, R296). -/
def State.runWord (s : State) : Out :=
  match s.fetch s.cur s.me.pc.toNat with
  | .error _ => exec .fetchFault s
  | .ok w =>
      match decodeWord w with
      | .ok i => exec i s
      | .error .unassigned => exec (.unassignedOpcode w) s
      | .error _ => exec (.reservedFieldNotZero w) s

/-- Whether a pending request is taken before the executing strand's next instruction whatever that does: after a
`tret` (R294), while the strand waits, and at a convoy boundary (R43). A convoy that fails when it is decoded traps
first (R293). -/
def State.preemptsFirst (s : State) : Bool :=
  s.me.due || s.me.wait != .none || match s.nextInstr with
    | some i => opensConvoy s.me.gm i && !s.convoyFails i
    | none => false

/-- Whether the executing strand has trapped in the step from `s` to `s'`: it has left user mode, or a monitor strand is
at `mvec`; one that goes there by itself counts so, which nothing but the order of the request's taking depends on
(log 70). A double fault (R286) has ended it. -/
def State.trapped (s s' : State) : Bool :=
  !s'.me.resident || if s.me.mode = .monitor then s'.me.pc == s.mvec else s'.me.mode != .user

/-- The executing strand has a request that it may take (R293): an instruction that traps, and `end`, go before it. -/
def State.issueAsked (s : State) : Out :=
  if s.preemptsFirst then exec (.preemptionTaken s.cur 0) s
  else if s.nextInstr = some .endStrand then s.runWord
  else match s.runWord with
    | .next s' => if s.trapped s' then .next s' else exec (.preemptionTaken s.cur 0) s
    | o => o

/-- Whether strand `sid` is ready (R36): resident, and waiting for nothing. -/
def State.ready (s : State) (sid : Nat) : Bool := (s.strand sid).resident && (s.strand sid).wait == .none

/-- Effective priority (R36). -/
def Strand.effective (t : Strand) : Nat := Nat.min 3 (t.prio + t.age)

/-- The first of an ascending list above `n`, else its first: whose turn it is. -/
def inTurn (n : Nat) (l : List Nat) : Option Nat :=
  match l.find? fun i => decide (n < i) with
  | some i => some i
  | none => l.head?

/-- The strand that core `k` issues from (R36): of the ready ones of the highest effective priority, the next in turn
after the last. -/
def State.nextOn (s : State) (k : Nat) : Option Nat :=
  let l := (s.residents.filter s.ready).filter fun i => coreOf i == k
  let top := l.foldl (fun m i => Nat.max m (s.strand i).effective) 0
  inTurn (Sparse.get 0 k s.turns) (l.filter fun i => (s.strand i).effective == top)

/-- A strand that waits takes a pending request at once (R43), or finds what it waits for: it is ready then, and its
instruction is issued in its turn. It has what it waits for when its instruction would not wait for the same again. -/
def State.look (s : State) (sid : Nat) : Out :=
  let t := s.strand sid
  if t.mayPreempt then exec (.preemptionTaken sid 0) s
  else if t.wait.blocks then .next s
  else match { s with cur := sid }.runWord with
    | .next s' => if (s'.strand sid).wait = t.wait then .next s else .next (s.setStrand sid { t with wait := .none })
    | _ => .next s

/-- Strand `sid`'s turn (R36, R43, R293, R294): it issues when its core issues from it. -/
def State.issue (s : State) (sid : Nat) : Out :=
  let t := s.strand sid
  if !t.resident then .next s
  else if t.wait ≠ .none then s.look sid
  else if s.nextOn (coreOf sid) ≠ some sid then .next s
  else if t.mayPreempt then (s.issuing sid).issueAsked
  else (s.issuing sid).runWord

/-! ### The other steps -/

/-- The rows of the table that happen only when a strand issues: instructions, the writes of system registers,
and words that are none. -/
def byStrand : Instr → Bool
  | .lanesplitWrite _ => true
  | .poolDescriptorWrite _ _ => true
  | .ptrootWrite _ => true
  | .pselWrite _ => true
  | .partitionCreate _ => true
  | .pbootWrite _ => true
  | .poolReset _ => true
  | .preqWrite _ => true
  | .gnodeWrite _ => true
  | .grpentWrite _ => true
  | .qpwrWrite _ => true
  | .tagcapWrite _ => true
  | .cellStoreWrite _ _ => true
  | .fragcntWrite _ => true
  | .vlWrite _ => true
  | .vlmaxWrite _ => true
  | .sheadWrite _ => true
  | .gmWrite _ => true
  | .unassignedOpcode _ => true
  | .reservedFieldNotZero _ => true
  | .fetchFault => true
  | i => i.encoded

/-- What still happens in a package that a fatal error has halted (R321): Folman and the host act. R321 stops issue, the
copy engines and the links, and does not say whether the power governor goes on: it does here (log 35). -/
def Move.whenHalted : Move → Bool
  | .act .dawn => true
  | .act (.fatalError _ _) => true
  | .act (.clockStepDown _) => true
  | .act .clockStepUp => true
  | .act (.readEventLog _) => true
  | .act (.readDuskRecord _) => true
  | .act (.readSensors _) => true
  | .act (.mailboxComplete _) => true
  | .act .writeFirmwareImage => true
  | .act .commitFirmwareImage => true
  | .act .loadKeySlot => true
  | .act .eraseKeySlot => true
  | .mailbox _ _ _ => true
  | .own _ _ _ _ => true
  | .powerOff => true
  | _ => false

/-- A move. -/
def State.move (s : State) : Move → Out
  | .issue sid => s.issue sid
  | .act i => if byStrand i then .next s else exec i s
  | .mailbox fn o bs => .next (s.hostMailbox fn o bs)
  | .upset u => .next (s.strike u)
  | .own a addr n w => .next (s.ownAccess a addr n w)
  | .partImage img => .next (s.partitionImage img)
  | .failing n => .next (s.failLink n)
  | .powerOff => .next s.unpowered

/-! ### What comes next by itself -/

/-- Whether a step changes the state, the strand that executes apart. -/
def State.changes (s : State) (i : Instr) : Bool :=
  match exec i s with
  | .next s' => decide ({ s' with cur := s.cur } ≠ s)
  | _ => true

/-- Steps of Folman and of the mailbox. -/
def State.folmanSteps (s : State) : List Instr :=
  (s.failing.map fun n => .linkCrcError n false false) ++ (s.lasting.map fun e => .lastingFaultRetire e.1)
  ++ (if s.stage.toNat < 5 then [.dawn] else [])
  ++ [.quadrantReady 1, .quadrantReady 2, .quadrantReady 3, .migrationWindowEnd]
  ++ (if s.hostBox.run = .idle then [] else
        [.readEventLog true, .readDuskRecord true, .readSensors true, .writeFirmwareImage, .commitFirmwareImage,
         .mailboxComplete true])
  ++ (if s.monBox.run = .idle then [] else
        [.readEventLog false, .readDuskRecord false, .readSensors false, .loadKeySlot, .eraseKeySlot,
         .mailboxComplete false])

/-- Steps of the copy engines. -/
def State.copySteps (s : State) : List Instr :=
  s.copies.flatMap fun c =>
    (match c.todo with | [] => [] | j :: _ => [.chunkComplete c.id j, .chunkFail c.id j])
    ++ (match c.owner with | .node p n _ => [.copyNodeComplete p n, .graphCopyFault p n] | _ => [])

/-- Steps of the launch unit of partition `p`. -/
def State.launchSteps (s : State) (p : Nat) : List Instr :=
  [.recordComplete p] ++ ((s.part p).queues.map fun q => .heldCompletionWrite p q.1)
  ++ [.strandPlace p, .gangStart p, .tagGrant p]
  ++ (s.part p).tags.filterMap fun t => match t.2 with | .draining _ => some (.tagDrainComplete p t.1) | _ => none

/-- Steps that end the wait of strand `sid`. -/
def State.wakeSteps (s : State) (sid : Nat) : List Instr :=
  match (s.strand sid).wait with
  | .barrier _ => [.barrierDepart sid]
  | .waitk _ _ => [.waitkWake sid]
  | .alloc _ _ _ => [.allocGrant sid, .allocTimeout sid]
  | _ => []

/-- Steps of complex `x`. -/
def State.cxSteps (s : State) (x : Nat) : List Instr :=
  [.bufferReclaim x] ++ (s.cx x).slots.filterMap fun o =>
    if o.2.waiters.isEmpty then none else some (.slotGrant x (BitVec.ofNat 6 o.1))

/-- The descriptor that is read again at this clock, once in 65,536 (R18). -/
def State.pollStep (s : State) : List Instr :=
  let n := s.clock % 65536
  if n < 1024 then [.descriptorPoll (n / 64) (n % 64)] else []

/-- The steps that happen as soon as they can. -/
def State.engineSteps (s : State) : List Instr :=
  s.pollStep ++ s.folmanSteps ++ s.copySteps ++ (s.parts.map (·.1)).flatMap s.launchSteps ++ (s.cxs.map (·.1)).flatMap s.cxSteps
  ++ s.residents.flatMap s.wakeSteps ++ s.residents.map Instr.priorityAge

/-- Refills of the stream registers among the chains of the strand that is or was in slot `sid` (R184, R186). -/
def refills (sid : Nat) (l : Sparse Chain) : List Instr :=
  l.filterMap fun c => if c.2.stream.isSome then some (.streamRefill sid (BitVec.ofNat 5 c.1)) else none

/-- The steps taken only when nothing else is to be done. -/
def State.idleSteps (s : State) : List Instr :=
  (s.residents.filter fun i => (s.strand i).wait == .wfi).map Instr.wfiWake
  ++ (s.residents.flatMap fun i => refills i (s.strand i).chains)
  ++ s.parts.flatMap fun p => p.2.parked.flatMap fun k => refills k.sid k.chains

/-- The strand that issues next: the cores take turns, one issue a step (log 5). -/
def State.nextStrand (s : State) : Option Nat :=
  (inTurn (coreOf s.cur) ((s.residents.filter s.ready).map coreOf)).bind s.nextOn

/-- A strand that waits, and need not wait on: it takes a request, or has what it waits for. -/
def State.nextWaiting (s : State) : Option Nat :=
  s.residents.find? fun i => !s.ready i && match s.issue i with
    | .next s' => decide ({ s' with cur := s.cur } ≠ s)
    | _ => true

/-- What moves when the environment has chosen nothing: engines, then strands, then what may wait. -/
def State.defaultMove (s : State) : Option Move :=
  match s.engineSteps.find? s.changes with
  | some i => some (.act i)
  | none => match s.nextWaiting with
    | some i => some (.issue i)
    | none => match s.nextStrand with
      | some i => some (.issue i)
      | none => (s.idleSteps.find? s.changes).map Move.act

/-- The move that comes next, and the state without it. -/
def State.nextMove (s : State) : Option Move × State :=
  match s.agenda with
  | m :: rest => (some m, { s with agenda := rest })
  | [] => (if s.halted then none else s.defaultMove, s)

/-- What a step does: a halted package stops unless Folman or the host moves. -/
def State.moveNext (s : State) : Out :=
  let n := s.nextMove
  if s.halted && !(match n.1 with | some m => m.whenHalted | none => false) then .fault .halted
  else match n.1 with
    | some m => n.2.tick.move m
    | none => .next n.2.tick

/-! ### Placing an instruction -/

/-- The strand that `withFetchWord` lets issue when none is resident: a monitor strand in slot 0 of core 0, as
Dawn starts it (R277), at PC 0 (log 5). -/
def State.withStrand (s : State) : State :=
  if s.me.resident then s
  else
    let f := s.fresh
    { f.2 with cur := 0 }.setStrand 0 (bootStrand f.1 noPart .monitor 0 0 4 .monitor)

/-- The executing strand made the one from which its core issues: where it is not, it waits for nothing, has the highest
priority, and it is its turn. -/
def State.withTurn (s : State) : State :=
  if s.nextOn (coreOf s.cur) = some s.cur ∧ ¬ s.me.mayPreempt then s
  else
    let last := if s.cur % 8 = 0 then s.cur + 7 else s.cur - 1
    { s.letGo.setMe { s.me with wait := .none, prio := 3, due := false, preq := false } with
      turns := Sparse.put 0 (coreOf s.cur) last s.turns }

/-- Bytes stored where the executing strand fetches them, under the key of its page. -/
def State.putCode (s : State) (bs : List Byte) : State :=
  match s.page s.me.part s.me.mode s.me.pc.toNat with
  | none => s
  | some g => s.putPlain g.key (placeOf g.pa g.home) bs

end Sys2Proof.Machine
end

