-- ==== Sys2Proof/Machine/Step.lean ====
section
/-! DEFINITION. One step of the package. -/

namespace Sys2Proof.Machine

/-- One step: a clock passes, and what comes next moves. -/
def step (s : State) : Host.Outcome State Fault Refusal := s.moveNext

/-- `s` with the instruction word `w` where the executing strand fetches next, and that strand to issue next: its core
issues from it (R36). -/
def State.withFetchWord (s : State) (nbits w : Nat) : State :=
  let s1 := s.withStrand.withTurn
  { s1.putCode (leBytes 4 (w % 2 ^ nbits)) with agenda := [.issue s1.cur] }

end Sys2Proof.Machine
end

