-- ==== Sys2Proof/Safety.lean ====
section
/-! DEFINITION. What a sound state of the package is, and what a step may leave unchanged: the terms in which
the claims are stated. -/

namespace Sys2Proof.Machine

/-- The memory keeps its canonical form. -/
def State.memOk (s : State) : Prop := Memory.wf s.mem = true

/-! ### Frames -/

/-- Only the executing strand differs: every other strand, every byte of memory and every other part of the
package is as before. -/
structure OnlyMe (s t : State) : Prop where
  others : ∀ i, i ≠ s.cur → t.strand i = s.strand i
  memory : ∀ l, t.byteAt l = s.byteAt l
  rest   : { t with strands := s.strands } = s

/-- Of the executing strand only its scalar registers and its PC differ, and it waits for nothing. -/
structure OnlyScalars (s t : State) : Prop where
  only  : OnlyMe s t
  frame : { t.me with regs := s.me.regs, pc := s.me.pc } = { s.me with wait := .none }

/-- Scalar register `d` holds `v` and no other has changed; a write of `s0` is discarded (R56, R60, R69). -/
def Wrote (s t : State) (d : SReg) (v : Word) : Prop := ∀ r, t.reg r = if r = d ∧ d ≠ 0 then v else s.reg r

/-- Instruction `i` completes in `s` with `v` in scalar register `d`, the PC past it, and nothing else changed
(R69). -/
def Gives (i : Instr) (s : State) (d : SReg) (v : Word) : Prop :=
  ∃ t, exec i s = .next t ∧ Wrote s t d v ∧ t.me.pc = s.me.pc + 4 ∧ OnlyScalars s t

/-- Instruction `i` completes in `s` with the PC at `pc` and nothing else changed. -/
def Goes (i : Instr) (s : State) (pc : Word) : Prop :=
  ∃ t, exec i s = .next t ∧ t.me.pc = pc ∧ t.me.regs = s.me.regs ∧ OnlyScalars s t

/-- Strand `i` has taken a trap in going from `s` to `t` (R285): what is saved, the mode and `estatus` after it,
and the vector as the PC. -/
structure Trapped (s t : State) (i : Nat) (c : Cause) (epc eval evpos vstart : Word) : Prop where
  epc     : (t.strand i).epc = epc
  ecause  : (t.strand i).ecause = c.code
  eval    : (t.strand i).eval = eval
  evpos   : (t.strand i).evpos = evpos
  vstart  : (t.strand i).vstart = vstart
  pc      : (t.strand i).pc = if (s.strand i).mode = .monitor then s.mvec else (s.part (s.strand i).part).evec
  mode    : (t.strand i).mode = if (s.strand i).mode = .monitor then .monitor else .supervisor
  estatus : (t.strand i).estatus =
    (if (s.strand i).mode = .monitor then (s.strand i).estatus &&& 1 ||| 8
      else if (s.strand i).mode = .supervisor then 1 else 0)
    ||| (s.strand i).estatus &&& 2 ||| (if (s.strand i).redlive = 0 then 0 else 4)

/-- Nothing of the executing strand differs but what a trap writes, and it waits for nothing. -/
def OnlyTrap (s t : State) : Prop :=
  OnlyMe s t ∧
  { t.me with
      epc := s.me.epc, ecause := s.me.ecause, eval := s.me.eval, evpos := s.me.evpos, vstart := s.me.vstart
      pc := s.me.pc, mode := s.me.mode, estatus := s.me.estatus } = { s.me with wait := .none, again := none }

/-- Instruction `i` traps in `s` with cause `c` and `eval` (R287), `epc` its own address, and has no other
effect than that `s` has become `u` before. -/
def TrapsFrom (i : Instr) (s u : State) (c : Cause) (eval : Word) : Prop :=
  ∃ t, exec i s = .next t ∧ Trapped s t s.cur c s.me.pc eval 0 0 ∧ OnlyTrap u t

/-- The same with no other effect. -/
def Traps (i : Instr) (s : State) (c : Cause) (eval : Word) : Prop := TrapsFrom i s s c eval

/-- From `s` to `u` Folman has logged `e`, and nothing else has changed (R282). -/
def Logged (s u : State) (e : LogEvent) : Prop := u.log.getLast? = some e ∧ { u with log := s.log } = s

/-- From `s` to `u` a read has found line `l` of memory uncorrectable: it carries the poison marker now, Folman has logged
it, and nothing else has changed (R305). -/
def FoundBad (s u : State) (l : Nat) : Prop :=
  u.log.getLast? = some (.uncorrectable l) ∧ (∀ k, k ∈ u.poison ↔ k = l ∨ k ∈ s.poison)
    ∧ (∀ k, k ∈ u.badLines ↔ k ≠ l ∧ k ∈ s.badLines)
    ∧ { u with log := s.log, poison := s.poison, badLines := s.badLines } = s

/-! ### Memory accesses -/

/-- What an ordinary read or a failed check leaves of the rest: at most the bookkeeping of the ordering model and of
the race checker (R201, R306) has moved, and in a domain the counts of accesses (R281); every byte of memory is as before. -/
structure OnlyMeAndOrder (s t : State) : Prop where
  others : ∀ i, i ≠ s.cur → t.strand i = s.strand i
  memory : ∀ l, t.byteAt l = s.byteAt l
  uses   : s.peers = [] → t.pageUse = s.pageUse
  rest   : { t with strands := s.strands, order := s.order, pageUse := s.pageUse } = s

/-- From `s` to `t` one access of the part itself to page `g` has been counted, if it belongs to a domain and the page is
none of the mailbox window (R281; which accesses count: log 33). -/
def CountedOnce (s t : State) (g : Page) : Prop :=
  ∀ k, Sparse.get 0 k t.pageUse = Sparse.get 0 k s.pageUse +
    if s.peers ≠ [] ∧ g.pa < mboxBase ∧ k = g.pa / 65536 * 128 + 64 then 1 else 0

/-- Of the executing strand only its scalar registers and its PC differ; the PC is past the instruction. -/
structure Past (s t : State) : Prop where
  pc    : t.me.pc = s.me.pc + 4
  frame : { t.me with regs := s.me.regs, pc := s.me.pc } = { s.me with wait := .none }

/-- Where a store on behalf of `a` on page `g` places its bytes: in the cell that it materialises first, if it must
(R208, R255). -/
def State.storePlace (s : State) (a : Access) (g : Page) : Nat :=
  (if s.needsCell a g then s.materialise a g else s).locate a g

/-- A store of `bs` on page `g` and what it leaves of memory, read byte by byte: the stored bytes; every other byte
of their line, as the page's key reads it (a cell just materialised holds its template, R208); and every byte of
every other line, under whatever key it is read (R273). -/
structure Stored (s t : State) (a : Access) (g : Page) (bs : List Byte) : Prop where
  bytes : t.plain g.key (s.storePlace a g) bs.length = bs
  line  : ∀ k, k / 64 = s.storePlace a g / 64 → ¬ (s.storePlace a g ≤ k ∧ k < s.storePlace a g + bs.length) →
    t.plainByte g.key k =
      s.plainByte g.key (if s.needsCell a g then placeOf g.pa g.home / 64 * 64 + k % 64 else k)
  lines : ∀ k key, k / 64 ≠ s.storePlace a g / 64 → t.plainByte key k = s.plainByte key k

/-- What a store leaves of the package beside memory and the executing strand: the ordering model's bookkeeping, the count
of accesses, and, when it has materialised a cell, the partition's cells and the markers of that cell's line. -/
structure OnlyMeAndStore (s t : State) (a : Access) (g : Page) : Prop where
  others : ∀ i, i ≠ s.cur → t.strand i = s.strand i
  rest   : { t with strands := s.strands, order := s.order, mem := s.mem, lineKey := s.lineKey, pageUse := s.pageUse
                    poison := s.poison, badLines := s.badLines, parts := s.parts } = s
  plain  : s.needsCell a g = false → t.poison = s.poison ∧ t.badLines = s.badLines ∧ t.parts = s.parts

/-- A cell store that begins on a line, so that every cell is one line, and a cell outside the Dusk region, which only
Folman writes (R320); asked only of tagged pages. -/
def State.cellSound (s : State) (a : Access) (g : Page) : Prop :=
  g.tagged = true → s.myPart.cellbase.toNat % 64 = 0 ∧ inDusk (s.storePlace a g) = false

/-- A store to a peer that will not acknowledge it (R319): it is discarded and logged with its address. -/
structure Discarded (s t : State) (g : Page) : Prop where
  log    : t.log.getLast? = some (.lostWrite g.pa)
  others : ∀ i, i ≠ s.cur → t.strand i = s.strand i
  rest   : { t with strands := s.strands, order := s.order, pageUse := s.pageUse, log := s.log } = s

/-- Earlier access `r` races with an access of `n` bytes that the executing strand makes at place `l` of page `g`: the
page is covered, they share a granule, one of them writes, their agents and families differ, and `r` does not
happen-before it (R306). -/
def State.rival (s : State) (g : Page) (l n : Nat) (write : Bool) (r : Touch) : Prop :=
  g.tagged = false ∧ g.write = true ∧ g.format = 0 ∧ g.pa < dramTop
    ∧ (∃ k, l / 8 ≤ k ∧ k ≤ (l + n - 1) / 8 ∧ (r ∈ (s.granule k).writes ∨ (write = true ∧ r ∈ (s.granule k).reads)))
    ∧ r.agent ≠ s.me.uid ∧ r.family ≠ s.me.uid ∧ Sparse.get 0 r.agent (s.clkOf s.me.uid) < r.epoch

/-- From `s` to `u` Folman has logged, once for each earlier access that `P` admits (R307, by the name of its agent), a race
with `me`, and nothing else has changed. -/
def LoggedRaces (s u : State) (me : Party) (P : Touch → Prop) : Prop :=
  ∃ l : List Party, l ≠ [] ∧ l.Nodup ∧ (∀ p, p ∈ l ↔ ∃ r, P r ∧ r.name = p)
    ∧ u = l.foldl (fun s p => s.logs (.race p me)) s

/-- R215: the value that an atomic writes, from the old value, the operand and, for `cas`, the new value; none when a
`cas` finds another value. -/
def atomicWrites (p : AmoOp) (z old v c : Nat) : Option Nat :=
  match p with
  | .add => some ((old + v) % 2 ^ (8 * z))
  | .min => some (if signedOf (8 * z) old ≤ signedOf (8 * z) v then old else v)
  | .max => some (if signedOf (8 * z) old ≥ signedOf (8 * z) v then old else v)
  | .minu => some (Min.min old v)
  | .maxu => some (Max.max old v)
  | .and => some (old &&& v)
  | .or => some (old ||| v)
  | .xor => some (old ^^^ v)
  | .swap => some v
  | .cas => if old = v then some c else none

/-! ### Strips -/

/-- Elements of one strip under `u` lane units (R82): `u` × 4096 ÷ ElementBytes(`gm`.fa). -/
def stripCap (s : State) (u : Nat) : Nat := u * 4096 * 8 / s.me.gm.fmtA.bits

/-- Of the executing strand's complex and grant only what an occupancy point may change has changed (R33); `lanesplit`
lies in the complex. -/
structure OnlyMeAndGrant (s t : State) : Prop where
  others : ∀ i, i ≠ s.cur → t.strand i = s.strand i
  grant  : t.me.grant = s.occupancy.me.grant
  cxs    : t.cxs = s.occupancy.cxs
  rest   : { t with strands := s.strands, cxs := s.cxs } = s

/-! ### System registers -/

/-- Of the executing strand only the PC has moved, past the instruction: nothing else of it differs. -/
def Passed (s t : State) : Prop := t.me = { s.me with pc := s.me.pc + 4, wait := .none }

/-- Instruction `i` completes in `s` with strand `m` as the executing strand, and nothing else of the package
changed. -/
def Becomes (i : Instr) (s : State) (m : Strand) : Prop := ∃ t, exec i s = .next t ∧ t.me = m ∧ OnlyMe s t

/-- Instruction `i` completes in `s`: the PC is past it, no other strand and no byte of memory has changed, and `P`
holds. -/
def Finishes (i : Instr) (s : State) (P : State → Prop) : Prop :=
  ∃ t, exec i s = .next t ∧ Passed s t ∧ (∀ k, k ≠ s.cur → t.strand k = s.strand k) ∧ (∀ l, t.byteAt l = s.byteAt l) ∧ P t

/-- Instruction `i` completes in `s` and partition `p` is then `x`; of the rest of the package only the bookkeeping of the
ordering model has changed (R62). -/
def PutsPart (i : Instr) (s : State) (p : Nat) (x : Partition) : Prop :=
  Finishes i s fun t => t.part p = x ∧ (∀ q, q ≠ p → t.part q = s.part q)
    ∧ { t with strands := s.strands, parts := s.parts, order := s.order } = s

/-- The same of a complex of which `P` holds afterwards. -/
def PutsCx (i : Instr) (s : State) (x : Nat) (P : Complex → Prop) : Prop :=
  Finishes i s fun t => P (t.cx x) ∧ (∀ q, q ≠ x → t.cx q = s.cx q)
    ∧ { t with strands := s.strands, cxs := s.cxs, order := s.order } = s

/-! ### Numbers (R95-R109): results over the real numbers -/

/-- The finite value `v` is the real number `x` (R95, R97, R99). -/
def Val.Is (v : Val) (x : ℝ) : Prop :=
  match v with
  | .fin neg m e => x = (if neg then -1 else 1) * m * (2 : ℝ) ^ e
  | _ => False

/-- What pattern `c` of a floating format stands for, by the fields of its layout (R97, R99). -/
def Fmt.Reads (f : Fmt) (inf : Bool) (c : Nat) : Prop :=
  let s := f.spec
  let one := 2 ^ (s.prec - 1)
  let neg := s.signed && c.testBit (f.bits - 1)
  let mag := if s.signed then c % 2 ^ (f.bits - 1) else c
  let ex := mag / one
  let t := mag % one
  let finite : Prop := (f.val inf c).isNeg = neg ∧ (f.val inf c).Is
    ((if neg then -1 else 1) * if ex = 0 then (2 : ℝ) ^ (1 - (s.bias : ℤ)) * (t / one)
      else (2 : ℝ) ^ ((ex : ℤ) - s.bias) * (1 + t / one))
  if s.ieee then
    if ex = 2 ^ s.ebits - 1 then f.val inf c = if t = 0 then .inf neg else .nan (decide (t < one / 2)) else finite
  else if c = f.nan then f.val inf c = .nan false
  else if inf = true ∧ mag = f.maxMag true + 1 then f.val inf c = .inf neg
  else finite

/-- The pattern of a floating format whose sign is `neg` and whose lower bits are `c`. -/
def withSign (f : Fmt) (neg : Bool) (c : Nat) : Nat := if neg then 2 ^ (f.bits - 1) + c else c

/-- The pattern of zero with sign `neg`: P3109 has one zero (R101). -/
def zeroIn (f : Fmt) (neg : Bool) : Nat := withSign f (f.spec.ieee && neg) 0

/-- What an overflow of sign `neg` into `f` gives (R103, R104). -/
def pastMax (f : Fmt) (nm : NumMode) (neg : Bool) : Nat :=
  let held := f.spec.ieee && (nm.rnd == .rtz || (nm.rnd == .rup && neg) || (nm.rnd == .rdn && !neg))
  if nm.sat || held then withSign f neg (f.maxMag nm.inf)
  else if f.spec.ieee || nm.inf then withSign f neg (f.maxMag nm.inf + 1)
  else f.nan

/-- What an infinite source of sign `neg` gives in `f` (R103, R104). -/
def infinityIn (f : Fmt) (nm : NumMode) (neg : Bool) : Nat × Flags :=
  if neg && !f.spec.signed then (if nm.sat then 0 else f.nan, flNv)
  else if f.spec.ieee || nm.inf then (withSign f neg (f.maxMag nm.inf + 1), 0)
  else (if nm.sat then withSign f neg (f.maxMag nm.inf) else f.nan, flNv)

/-- `M × 2^q` is that of the two multiples of `2^q` next to `|x|` which the rounding mode chooses (R101). -/
def RoundedAt (mode : Rnd) (x : ℝ) (q : ℤ) (M : Nat) : Prop :=
  ∃ m : Nat, m * (2 : ℝ) ^ q ≤ |x| ∧ |x| < (m + 1) * (2 : ℝ) ^ q ∧
    let rest := |x| - m * (2 : ℝ) ^ q
    let up : Prop := match mode with
      | .rne => (2 : ℝ) ^ q < 2 * rest ∨ (2 * rest = (2 : ℝ) ^ q ∧ m % 2 = 1)
      | .rna => (2 : ℝ) ^ q ≤ 2 * rest
      | .rtz => False
      | .rup => 0 < x ∧ rest ≠ 0
      | .rdn => x < 0 ∧ rest ≠ 0
    (up → M = m + 1) ∧ (¬ up → M = m)

/-- `r` is RoundTo of the real number `x`, which is not zero, in the floating format `f`, with its flags (R101-R104). The
binade of `x` is `k`; `M` quanta `2^q` are the result, and `U × 2^top` is the result with the exponent unbounded below. -/
def RoundsTo (f : Fmt) (nm : NumMode) (x : ℝ) (r : Nat × Flags) : Prop :=
  let s := f.spec
  ∃ (neg : Bool) (k : ℤ) (M U : Nat) (big : ℝ) (fl : Flags),
    (neg = true ↔ x < 0) ∧ (2 : ℝ) ^ k ≤ |x| ∧ |x| < (2 : ℝ) ^ (k + 1) ∧ (f.val nm.inf (f.maxMag nm.inf)).Is big ∧
    let top := k + 1 - (s.prec : ℤ)
    let q := max top (2 - (s.bias : ℤ) - s.prec)
    let v := M * (2 : ℝ) ^ q
    let tiny : Prop := U * (2 : ℝ) ^ top < (2 : ℝ) ^ (1 - (s.bias : ℤ))
    RoundedAt nm.rnd x q M ∧ RoundedAt nm.rnd x top U
    ∧ (v = |x| → fl = 0) ∧ (v ≠ |x| → tiny → fl = flNx ||| flUf) ∧ (v ≠ |x| → ¬ tiny → fl = flNx)
    ∧ (M = 0 → r = (zeroIn f neg, fl))
    ∧ (M ≠ 0 → neg = true → s.signed = false → r = (if nm.sat then 0 else f.nan, flNv))
    ∧ (M ≠ 0 → (neg = true → s.signed = true) →
      (big < v → r = (pastMax f nm neg, flOf ||| flNx))
      ∧ (v ≤ big → r.2 = fl ∧ r.1 < 2 ^ f.bits ∧ (f.val nm.inf r.1).Is (if neg then -v else v)))

/-- `r` is the exact real result `x` written to `f`; `neg` is the sign of an exact zero (R101). -/
def WritesReal (f : Fmt) (nm : NumMode) (neg : Bool) (x : ℝ) (r : Nat × Flags) : Prop :=
  (x = 0 → r = (zeroIn f neg, 0)) ∧ (x ≠ 0 → RoundsTo f nm x r)

/-- `r` is the value `v` written to `f` (R101-R105). -/
def WritesVal (f : Fmt) (nm : NumMode) (v : Val) (r : Nat × Flags) : Prop :=
  match v with
  | .nan s => r = (f.nan, if s then flNv else 0)
  | .inf neg => r = infinityIn f nm neg
  | .fin neg _ _ => ∃ x, v.Is x ∧ WritesReal f nm neg x r

/-- The canonical NaN for operands `l` of which one is a NaN: `nv` when one signals (R105). -/
def NanFor (f : Fmt) (l : List Val) (r : Nat × Flags) : Prop :=
  (∃ v ∈ l, v.isNan = true) → r = (f.nan, if l.any Val.isSig then flNv else 0)

/-- `r` is `v + w`, or `v − w` with `minus` (R101, R105, R140). -/
def SumOf (f : Fmt) (nm : NumMode) (minus : Bool) (v w : Val) (r : Nat × Flags) : Prop :=
  NanFor f [v, w] r ∧ match v, w with
    | .inf a, .inf b => r = if a = (b != minus) then infinityIn f nm a else (f.nan, flNv)
    | .inf a, .fin .. => r = infinityIn f nm a
    | .fin .., .inf b => r = infinityIn f nm (b != minus)
    | .fin a _ _, .fin b _ _ => ∃ x y, v.Is x ∧ w.Is y ∧
        WritesReal f nm (if a = (b != minus) then a else nm.rnd == .rdn) (if minus then x - y else x + y) r
    | _, _ => True

/-- `r` is `v × w` (R105, R140). -/
def ProductOf (f : Fmt) (nm : NumMode) (v w : Val) (r : Nat × Flags) : Prop :=
  NanFor f [v, w] r ∧ match v, w with
    | .inf a, .inf b => r = infinityIn f nm (a != b)
    | .inf a, .fin b m _ | .fin b m _, .inf a => r = if m = 0 then (f.nan, flNv) else infinityIn f nm (a != b)
    | .fin a _ _, .fin b _ _ => ∃ x y, v.Is x ∧ w.Is y ∧ WritesReal f nm (a != b) (x * y) r
    | _, _ => True

/-- `r` is `z + v × w`, or `z − v × w` with `minus`, rounded once (R105, R140). -/
def FusedOf (f : Fmt) (nm : NumMode) (minus : Bool) (v w z : Val) (r : Nat × Flags) : Prop :=
  let withInf (neg : Bool) : Prop :=
    match z with
    | .inf c => r = if c = neg then infinityIn f nm c else (f.nan, flNv)
    | .fin .. => r = infinityIn f nm neg
    | .nan _ => True
  NanFor f [v, w, z] r ∧ match v, w with
    | .inf a, .inf b => withInf ((a != b) != minus)
    | .inf a, .fin b m _ | .fin b m _, .inf a =>
        if m = 0 then (z.isNan = false → r = (f.nan, flNv)) else withInf ((a != b) != minus)
    | .fin a _ _, .fin b _ _ =>
        match z with
        | .inf c => r = infinityIn f nm c
        | .fin c _ _ => ∃ x y t, v.Is x ∧ w.Is y ∧ z.Is t ∧
            WritesReal f nm (if c = ((a != b) != minus) then c else nm.rnd == .rdn) (if minus then t - x * y else t + x * y) r
        | .nan _ => True
    | _, _ => True

/-- `r` is `v ÷ w` (R105, R115, R141). -/
def QuotientOf (f : Fmt) (nm : NumMode) (v w : Val) (r : Nat × Flags) : Prop :=
  NanFor f [v, w] r ∧ match v, w with
    | .inf _, .inf _ => r = (f.nan, flNv)
    | .inf a, .fin b _ _ => r = infinityIn f nm (a != b)
    | .fin a _ _, .inf b => r = (zeroIn f (a != b), 0)
    | .fin a m _, .fin b n _ =>
        if n = 0 then
          r = if m = 0 then (f.nan, flNv) else ((infinityIn f nm (a != b)).1, (infinityIn f nm (a != b)).2 ||| flDz)
        else ∃ x y, v.Is x ∧ w.Is y ∧ WritesReal f nm (a != b) (x / y) r
    | _, _ => True

/-- `r` is the square root of `v` (R115). -/
def RootOf (f : Fmt) (nm : NumMode) (v : Val) (r : Nat × Flags) : Prop :=
  NanFor f [v] r ∧ match v with
    | .inf neg => r = if neg then (f.nan, flNv) else infinityIn f nm false
    | .fin neg m _ =>
        if m = 0 then r = (zeroIn f neg, 0)
        else if neg then r = (f.nan, flNv)
        else ∃ x y, v.Is x ∧ 0 < y ∧ y * y = x ∧ RoundsTo f nm y r
    | _ => True

/-- `v` is less than `w` (R143). -/
def Val.Less (v w : Val) : Prop :=
  match v, w with
  | .inf true, .inf b => b = false
  | .inf true, .fin .. | .fin .., .inf false => True
  | .fin .., .fin .. => ∃ x y, v.Is x ∧ w.Is y ∧ x < y
  | _, _ => False

/-- `v` and `w` are the same number (R143). -/
def Val.Same (v w : Val) : Prop :=
  match v, w with
  | .inf a, .inf b => a = b
  | .fin .., .fin .. => ∃ x, v.Is x ∧ w.Is x
  | _, _ => False

/-- `v` stands before `w`, or may, in the order in which −0 is less than +0 (R141). -/
def Val.Leads (v w : Val) : Prop := v.Less w ∨ (v.Same w ∧ (v.isNeg = true ∨ w.isNeg = false))

/-- `r` is the lesser of `v` and `w`, or the greater (R141). -/
def PickOf (f : Fmt) (nm : NumMode) (least : Bool) (v w : Val) (r : Nat × Flags) : Prop :=
  let nv : Flags := if v.isSig || w.isSig then flNv else 0
  if v.isNan = true ∧ w.isNan = true then r = (f.nan, nv)
  else ∃ z y, WritesVal f nm z y ∧ r = (y.1, y.2 ||| nv)
    ∧ (v.isNan = true → z = w) ∧ (w.isNan = true → z = v)
    ∧ (v.isNan = false → w.isNan = false →
        (z = v ∧ if least then v.Leads w else w.Leads v) ∨ (z = w ∧ if least then w.Leads v else v.Leads w))

/-- `x` rounded to fp32 under `rne` is `y` (R114). -/
def Near32 (x y : ℝ) : Prop :=
  (x = 0 → y = 0) ∧ (x ≠ 0 → ∃ r, RoundsTo .fp32 rneMode x r ∧ (Fmt.val .fp32 false r.1).Is y)

/-- `y` is the fp32 pattern that the series of `vexp2` gives for the finite `x` below 128 (R114). -/
def SeriesOf (x : ℝ) (y : Nat) : Prop :=
  ∃ t₁ t₂ t₃ t₄ t₅ p : ℝ,
    let n := ⌊x⌋
    let f := x - n
    Near32 (5 / 64 * f) t₁ ∧ Near32 (29 / 128 + t₁) t₂ ∧ Near32 (f * t₂) t₃ ∧ Near32 (89 / 128 + t₃) t₄
      ∧ Near32 (f * t₄) t₅ ∧ Near32 (1 + t₅) p ∧ ∃ fl, RoundsTo .fp32 rneMode (p * (2 : ℝ) ^ n) (y, fl)

/-- `r` is two to the power `v` as `vexp2` computes it (R114). -/
def PowerOf (f : Fmt) (nm : NumMode) (v : Val) (r : Nat × Flags) : Prop :=
  NanFor f [v] r ∧
    let gives (y : Nat) : Prop := if f = .fp32 then r = (y, 0) else WritesVal f nm (Fmt.val .fp32 false y) r
    match v with
    | .inf neg => gives (if neg then 0 else 0x7F800000)
    | .fin .. => ∃ x, v.Is x ∧ if 128 ≤ x then gives 0x7F800000 else ∃ y, SeriesOf x y ∧ gives y
    | _ => True

/-- `r` is an integer result `v` of format `f` (R96). -/
def WritesInt (f : Fmt) (sat : Bool) (v : ℤ) (r : Nat × Flags) : Prop :=
  let lo : ℤ := if f.isSigned then -2 ^ (f.bits - 1) else 0
  let hi : ℤ := if f.isSigned then 2 ^ (f.bits - 1) - 1 else 2 ^ f.bits - 1
  let mod (v : ℤ) : Nat := (v % 2 ^ f.bits).toNat
  (lo ≤ v → v ≤ hi → r = (mod v, 0)) ∧ (v < lo → r = if sat then (mod lo, flSv) else (mod v, 0))
    ∧ (hi < v → r = if sat then (mod hi, flSv) else (mod v, 0))

/-- `r` is what `vcvt` gives in `f` for an operand of value `v`, which is an integer when `int` (R113). -/
def ConvertsTo (f : Fmt) (nm : NumMode) (int : Bool) (v : Val) (r : Nat × Flags) : Prop :=
  if f.isInt = false then WritesVal f nm v r
  else if int then ∃ n : ℤ, v.Is n ∧ WritesInt f nm.sat n r
  else match v with
    | .nan _ => r = (0, flNv)
    | .inf neg => if nm.sat then ∃ y, WritesInt f true (if neg then -2 ^ 64 else 2 ^ 64) (y, flSv) ∧ r = (y, flSv ||| flNv)
        else r = (0, flNv)
    | .fin .. => ∃ (x : ℝ) (M : Nat) (y z : Nat × Flags) (nx nv : Flags), v.Is x ∧ RoundedAt nm.rnd x 0 M ∧
        let n : ℤ := if x < 0 then -M else M
        WritesInt f nm.sat n y ∧ WritesInt f true n z ∧ (M = |x| → nx = 0) ∧ (M ≠ |x| → nx = flNx)
          ∧ nv = (if z.2 = 0 then 0 else flNv) ∧ r = (y.1, y.2 ||| nx ||| nv)

/-- `r` is the fp32 accumulator of value `v` after one K-group of products `g` (R109). A signalling NaN sets `nv`, which is
the model's reading (log 16). -/
def GroupOf (sat : Bool) (v : Val) (g : List (Val × Val)) (r : Nat × Flags) : Prop :=
  let nan (p : Val × Val) : Prop := p.1.isNan = true ∨ p.2.isNan = true
  let infinite (neg : Bool) (p : Val × Val) : Prop :=
    match p.1, p.2 with
    | .inf a, .inf b => neg = (a != b)
    | .inf a, .fin b m _ | .fin b m _, .inf a => m ≠ 0 ∧ neg = (a != b)
    | _, _ => False
  let zeroInf (p : Val × Val) : Prop :=
    match p.1, p.2 with
    | .inf _, .fin _ m _ | .fin _ m _, .inf _ => m = 0
    | _, _ => False
  let both : Prop := (∃ p ∈ g, infinite true p) ∧ ∃ p ∈ g, infinite false p
  let invalid : Prop := both ∨ ∃ p ∈ g, zeroInf p ∨ p.1.isSig = true ∨ p.2.isSig = true
  let none_ : Prop := v.isNan = false ∧ ∀ p ∈ g, ¬ nan p
  let nm : NumMode := { rnd := .rne, sat := sat, inf := false }
  (invalid ∨ v.isSig = true → r = (Fmt.nan .fp32, flNv))
  ∧ (¬ invalid → v.isSig = false → ¬ none_ → r = (Fmt.nan .fp32, 0))
  ∧ (¬ invalid → none_ → ∀ neg, (∃ p ∈ g, infinite neg p) →
      r = if v = .inf !neg then (Fmt.nan .fp32, flNv) else infinityIn .fp32 nm neg)
  ∧ (¬ invalid → none_ → (∀ p ∈ g, ∀ neg, ¬ infinite neg p) →
      match v with
      | .fin neg _ _ => ∃ (x : ℝ) (xs : List ℝ), v.Is x ∧ List.Forall₂ (fun p y => ∃ a b, p.1.Is a ∧ p.2.Is b ∧ y = a * b) g xs
          ∧ WritesReal .fp32 nm (neg && g.all fun p => p.1.isNeg != p.2.isNeg) (x + xs.sum) r
      | .inf neg => r = infinityIn .fp32 nm neg
      | .nan _ => True)

/-! ### Convoys of one member -/

/-- The word after the executing instruction is a scalar-class instruction, so that a convoy of which the instruction
is the first member has no second (R63). -/
def State.scalarNext (s : State) : Prop :=
  ∃ w i, s.fetch s.cur (s.me.pc + 4).toNat = .ok w ∧ decodeWord w = .ok i ∧ memberOf s.me.gm i = none

/-- Convoy-class instruction `i` opens a convoy of its own in `s`, as member `m`, and nothing stops it before its
first element: its formats suit it, it names no stream register and writes no chain register that a copy fills, and
it breaks no rule of R64 by itself. -/
structure Opens (i : Instr) (s : State) (m : Member) : Prop where
  member : memberOf s.me.gm i = some m
  next   : m.closes = true ∨ s.scalarNext
  fits   : m.fits = true
  clash  : m.clash = false
  plain  : ∀ c, c ∈ m.reads ++ m.writes → s.me.streamed c = false
  still  : ∀ c, c ∈ m.writes → s.copyInto c = false
  once   : twice m.writes = false
  guard  : s.me.gm.gk = true ∨ m.mwrite ≠ some s.me.gm.guard

/-- The same for a convoy that starts at element 0 under an element-mask guard, with no reduction and no mask
instruction carried over from an interruption. -/
structure Alone (i : Instr) (s : State) (m : Member) : Prop extends Opens i s m where
  start  : s.me.vstart = 0
  masked : s.me.gm.gk = false
  whole  : s.me.redlive = 0 ∧ s.me.memdone = 0

/-- In `v`, instruction `x` begins the convoy that `i` opens in `s`: it is `i` itself, or a `grp` or `grpk` before it, which
has written `gm` in `u` (R37, R87). -/
inductive Begins (i : Instr) (s : State) : Instr → State → State → Prop where
  | itself : Begins i s i s s
  | headed (gk : Bool) (g : GrpMode) (v : State) (w : IWord) :
      badMode g.fa.toNat g.fb.toNat g.rnd.toNat g.g.toNat = false →
      v.fetch v.cur (v.me.pc + 4).toNat = .ok w → decodeWord w = .ok i →
      s = v.setMe { v.me with
        pc := v.me.pc + 4
        gm := { gk := gk, inv := g.inv, guard := g.guard, fa := g.fa, fb := g.fb, rnd := g.rnd, sat := g.sat
                inf := g.inf, g := g.g } } →
      Begins i s (if gk then .grpk g else .grp g) v (s.setMe { s.me with pc := v.me.pc })

/-- The chunk whose bit of the completion mask guards element `e` under `grpk`, in elements of `gm`.fa (R58). -/
def State.guardChunk (s : State) (e : Nat) : Nat := e * s.me.gm.fmtA.bits / 4096

/-- Active(e) of R130: RunMask, and the guard or its complement (R58): bit `e` of an element mask, or under `grpk` the bit
of the chunk that `e` lies in, past bit 511 none. -/
def State.active (s : State) (e : Nat) : Bool :=
  let g := s.me.gm
  s.me.runMask.getLsbD e &&
    if g.gk then decide (s.guardChunk e < 512) && ((s.me.kmask g.guard).bits.getLsbD (s.guardChunk e) != g.inv)
    else (s.me.mask g.guard).getLsbD e != g.inv

/-- Reading bit `j` of completion mask `k` acquires its chunk when it is set (R58, R170, R206). -/
def State.chunkSeen (s : State) (k : KReg) (j : Nat) : State :=
  let m := s.me.kmask k
  if j < 512 && m.bits.getLsbD j && m.toks.any (fun t => t.1 == j) then s.acquireBits m [j] else s

/-- Reading the guard for element `e` (R58): under `grpk` it acquires the chunk that `e` lies in. -/
def State.guardSeen (s : State) (e : Nat) : State :=
  if s.me.gm.gk then s.chunkSeen s.me.gm.guard (s.guardChunk e) else s

/-- The guard has been read for the elements from `v` to `n - 1`. -/
def State.guardsSeen (s : State) (v n : Nat) : State :=
  (List.range n).foldl (fun u e => if v ≤ e then u.guardSeen e else u) s

/-- Elements that a convoy of one member handles (R130): `vl`, or fewer when a bounding operand is shorter. -/
def State.countFor (s : State) (m : Member) : Nat :=
  m.bound.foldl (fun n c => Min.min n (elems c.fmt (segsLen (s.me.chain c.reg).segs))) s.me.vl.toNat

/-- The strand as its convoy closes, `t` being what its members leave (R86, R144, R146). -/
def Strand.closed (t : Strand) (pc : Word) : Strand :=
  { t with vstart := 0, redlive := 0, memdone := 0, pc := pc, wait := .none
           estatus := if t.redlive = 0 then t.estatus else t.estatus &&& 0xB }

/-- The element-wise instructions (R112, R140-R142): one result element from the elements of the same number. -/
def elementwise : Instr → Bool
  | .vadd .. | .vsub .. | .vmul .. | .vfma .. | .vfms .. | .vdiv .. | .vmin .. | .vmax .. | .vand .. | .vor ..
  | .vxor .. | .vshl .. | .vshr .. | .vsra .. | .vfsh .. | .vbext .. | .vabs .. | .vneg .. | .vpopc ..
  | .vclz .. | .vsel .. | .vaddScalar .. | .vsubScalar .. | .vmulScalar .. | .vfmaScalar .. | .vfmsScalar ..
  | .vdivScalar .. | .vminScalar .. | .vmaxScalar .. | .vandScalar .. | .vorScalar .. | .vxorScalar ..
  | .vshlScalar .. | .vshrScalar .. | .vsraScalar .. | .vfshScalar .. | .vbextScalar .. | .vselScalar ..
  | .vcvt .. | .vcvtSat .. | .vexp2 .. | .vrcp .. | .vsqrt .. | .vidx .. | .vmv .. | .vmvScalar .. => true
  | _ => false

/-- Element `e` of the old chain of a destination: zero where it has none (R130). -/
def State.oldElement (s : State) (d : CReg × Nat) (e : Nat) : Got Nat :=
  if elems (.n d.2) (segsLen (s.me.chain d.1).segs) ≤ e then .val 0
  else s.chainElem s.myCx (s.me.chain d.1).segs (.n d.2) e

/-- Element `e` of a chain operand, from the state as the convoy opens. -/
def State.operand (s : State) (c : Src) (e : Nat) : Got Nat := s.chainElem s.myCx (s.me.chain c.reg).segs c.fmt e

/-- Element `e` of an element-wise member (R130) whose operands `src` gives: computed where active, elsewhere zero, or
the old element under the merge bit; with the flags it raises. -/
def State.mapFrom (s : State) (src : Src → Nat → Got Nat) (m : Member) (op : Nat → List Nat → Nat → Bool → Nat × Flags)
    (scal : Option (SReg × Nat)) (sel : Option MReg) (mrg : Bool) (e : Nat) : Got (Nat × Flags) :=
  if s.active e then
    match gotAll (m.bound.map fun c => src c e) with
    | .val v =>
        .val (op e v (match scal with | some (a, b) => (s.reg a).toNat % 2 ^ b | none => 0)
          (match sel with | some q => (s.me.mask q).getLsbD e | none => false))
    | .bad c n => .bad c n
    | _ => .wait
  else if mrg then
    match s.oldElement (m.dests.headD (0, 8)) e with
    | .val v => .val (v, 0)
    | .bad c n => .bad c n
    | _ => .wait
  else .val (0, 0)

/-- The same with every operand as its register held it when the convoy opened. -/
def State.mapElement (s : State) (m : Member) (op : Nat → List Nat → Nat → Bool → Nat × Flags)
    (scal : Option (SReg × Nat)) (sel : Option MReg) (mrg : Bool) (e : Nat) : Got (Nat × Flags) :=
  s.mapFrom s.operand m op scal sel mrg e

/-- The elements of the bounding operands at `e`, from the state as the convoy opens. -/
def State.operands (s : State) (m : Member) (e : Nat) : Got (List Nat) :=
  gotAll (m.bound.map fun c => s.operand c e)

/-- The second operand of a comparison: the broadcast scalar, or the element of the second chain. -/
def State.second (s : State) (scal : Option (SReg × Nat)) (v : List Nat) : Nat :=
  match scal with
  | some (b, w) => (s.reg b).toNat % 2 ^ w
  | none => arg v 1

/-- Bit `e` of a comparison (R143): the condition where active, elsewhere 0; with the flags it raises. -/
def State.cmpElement (s : State) (m : Member) (op : Nat → Nat → Bool × Flags) (scal : Option (SReg × Nat)) (e : Nat) :
    Got (Bool × Flags) :=
  if s.active e then
    match s.operands m e with
    | .val v => .val (op (arg v 0) (s.second scal v))
    | .bad c n => .bad c n
    | _ => .wait
  else .val (false, 0)

/-- The active elements of element group `j` below `n` (R108), `x` giving their values. -/
def State.groupOf (s : State) (gs n j : Nat) (x : Nat → Nat) : List Nat :=
  (((List.range gs).map fun i => j * gs + i).filter fun e => decide (e < n) && s.active e).map x

/-- The reduction of R108: the element groups below `n` in ascending order, the seed last. One that resumes goes on from the
group that holds `vstart`, with the partial value of member position 0 when `redlive` says that there is one (R144). -/
def State.reduced (s : State) (comb : Nat → Nat → Nat × Flags) (n : Nat) (x : Nat → Nat) (seed : Nat) : Nat × Flags :=
  let gs := 4096 / s.me.gm.fmtA.bits
  let k := s.me.vstart.toNat / gs
  let part := if s.me.redlive.getLsbD 0 then some ((Sparse.get 0 0 s.me.redpart).toNat % 2 ^ s.me.gm.fmtA.bits) else none
  let p := (List.range ((n + gs - 1) / gs - k)).foldl (fun p j => combineGroup comb p (s.groupOf gs n (k + j) x)) (part, 0)
  match p.1 with
  | none => (seed, p.2)
  | some v => ((comb v seed).1, p.2 ||| (comb v seed).2)

/-- LenE of operand `c` as the convoy opens (R123). -/
def State.lenOf (s : State) (c : Src) : Nat := elems c.fmt (segsLen (s.me.chain c.reg).segs)

/-- Which element of A a permute moves to element `e` (R145): none for a zero. -/
def State.picked (s : State) (m : Member) (p : Pick) (e : Nat) : Got (Option Int) :=
  match p with
  | .chain =>
      match s.operands m e with
      | .val v => .val (some (arg v 0))
      | .bad c n => .bad c n
      | _ => .wait
  | .slide b => .val (some (e + (s.reg b).toInt))
  | .expand b =>
      let sel (j : Nat) : Bool := (s.me.mask b).getLsbD j && s.active j
      .val (if sel e then some ((List.range e).countP sel : Nat) else none)

/-- Element `e` of a permute (R145), `c` being its operand A. -/
def State.permElement (s : State) (m : Member) (p : Pick) (c : Src) (e : Nat) : Got Nat :=
  if s.active e then
    match s.picked m p e with
    | .val (some i) =>
        if 0 ≤ i ∧ i < s.lenOf c then s.chainElem s.myCx (s.me.chain c.reg).segs c.fmt i.toNat else .val 0
    | .val none => .val 0
    | .bad x n => .bad x n
    | _ => .wait
  else .val 0

/-- The flags of elements `0` to `n - 1`. -/
def flagsOf (n : Nat) (f : Nat → Flags) : Flags := (List.range n).foldl (fun x e => x ||| f e) 0

/-- The pool that the executing strand allocates from. -/
def State.myPool (s : State) : Pool := s.pool s.myCx s.me.farPool

/-- Segments of `l` that name buffer `i` of the near or far pool. -/
def named (far : Bool) (i : Nat) (l : List Seg) : Nat := l.countP fun g => idFar g.id == far && idIndex g.id == i

/-- No byte of the buffers `l` of a far pool lies in the Dusk region, which only Folman writes (R320). -/
def Pool.offDusk (p : Pool) (l : List Nat) : Prop := ∀ i ∈ l, ∀ o, o < p.size → inDusk (p.farPlace i + o) = false

/-- `rows` times `k` buffers are to be had at once from the executing strand's pool (R120), each of them once; no chain
takes more than 32. -/
structure State.hasBuffers (s : State) (k : Nat) (rows : Nat := 1) : Prop where
  enable : rows * k ≠ 0 → s.myPool.enable = true
  enough : rows * k ≤ s.myPool.free.length
  turn   : s.behind s.myCx s.me.farPool = false
  once   : s.myPool.free.Nodup
  low    : ∀ i ∈ s.myPool.free, i < 2 ^ 23
  dusk   : s.me.farPool = true → s.myPool.offDusk s.myPool.free
  spine  : k ≤ 32

/-- Buffers that a dense chain of `n` bytes takes (R130). -/
def State.buffersFor (s : State) (n : Nat) : Nat := (n + s.myPool.size - 1) / s.myPool.size

/-- The dense chain (R130) of `n` bytes in the first free buffers of the executing strand's pool: the `k`-th of `rows`
chains that grow together in ascending element order (R299). -/
def State.newSegs (s : State) (n : Nat) (rows : Nat := 1) (k : Nat := 0) : List Seg :=
  denseSegs s.myPool.size n
    ((List.range (s.buffersFor n)).map fun i => mkId s.me.farPool (s.myPool.free.getD (i * rows + k) 0))

/-- Chain registers `d 0` to `d (rows - 1)` hold, in `t`, dense chains of the bytes `bs`, `n` each, in the first buffers
that were free in `s`, and no other chain register has changed; the new buffers have one reference each, and what the
registers named before has lost one for each segment (R119, R126). -/
structure NewChains (s t : State) (rows n : Nat) (d : Nat → CReg) (bs : Nat → List Byte) : Prop where
  spine  : ∀ k, k < rows → t.me.chain (d k) = { segs := s.newSegs n rows k }
  bytes  : ∀ k, k < rows → t.segBytes s.myCx (t.segs (d k)) = bs k
  free   : (t.pool s.myCx s.me.farPool).free = s.myPool.free.drop (rows * s.buffersFor n)
  refs   : ∀ far i, (t.pool s.myCx far).ref i =
    (if far = s.me.farPool ∧ i ∈ s.myPool.free.take (rows * s.buffersFor n) then 1 else (s.pool s.myCx far).ref i)
      - named far i ((List.range rows).flatMap fun k => s.segs (d k))
  chains : ∀ c, (∀ k, k < rows → c ≠ d k) → t.me.chain c = s.me.chain c
  dirty  : ∀ c : CReg, t.me.cdirty.getLsbD c.toNat
    = (s.me.cdirty.getLsbD c.toNat || (List.range rows).any fun k => d k == c)

/-- The same for one chain register. -/
def NewChain (s t : State) (d : CReg) (bs : List Byte) : Prop := NewChains s t 1 bs.length (fun _ => d) fun _ => bs

/-- Place `l` of memory lies in a segment of a far buffer of the executing strand's complex. -/
def State.inFar (s : State) (g : Seg) (l : Nat) : Prop :=
  idFar g.id = true ∧ (s.pool s.myCx true).farPlace (idIndex g.id) + g.start ≤ l
    ∧ l < (s.pool s.myCx true).farPlace (idIndex g.id) + g.start + g.count

/-- Offset `l` of the near pool's storage lies in a segment of a near buffer of the executing strand's complex. -/
def State.inNear (s : State) (g : Seg) (l : Nat) : Prop :=
  idFar g.id = false ∧ idIndex g.id * (s.pool s.myCx false).size + g.start ≤ l
    ∧ l < idIndex g.id * (s.pool s.myCx false).size + g.start + g.count

/-- From `u` to `t` no bytes have changed but those of the segments `l` in the pools of the executing strand's complex in
`s`; of that complex, only the pools' counts and bytes have changed, and of the package nothing but the executing
strand. -/
structure BytesOnly (s u t : State) (l : List Seg) : Prop where
  others : ∀ i, i ≠ s.cur → t.strand i = s.strand i
  rest   : { t with strands := s.strands, cxs := s.cxs, mem := s.mem, poison := s.poison, badLines := s.badLines }
    = { u with strands := s.strands, cxs := s.cxs, mem := s.mem, poison := s.poison, badLines := s.badLines }
  memory : ∀ p, (∀ g ∈ l, ¬ s.inFar g p) → t.byteAt p = u.byteAt p
  marks  : (∀ g ∈ l, idFar g.id = false) → t.poison = u.poison ∧ t.badLines = u.badLines
  near   : ∀ p, (∀ g ∈ l, ¬ s.inNear g p) →
    Sparse.get 0 p (t.cx s.myCx).sram = Sparse.get 0 p (u.cx s.myCx).sram
  complexes : ∀ y, y ≠ s.myCx → t.cx y = u.cx y
  complex : { t.cx s.myCx with near := (u.cx s.myCx).near, far := (u.cx s.myCx).far, sram := (u.cx s.myCx).sram
                               sramPoison := (u.cx s.myCx).sramPoison, reclaim := (u.cx s.myCx).reclaim } = u.cx s.myCx
  pools : ∀ far, { t.pool s.myCx far with free := (u.pool s.myCx far).free, refs := (u.pool s.myCx far).refs }
    = u.pool s.myCx far

/-- What a convoy that writes `rows` chain registers with `n` bytes each leaves of the package beside the executing
strand, `u` being what its elements have left: the complex's pools, and the bytes of its new buffers. -/
structure PoolsOnly (s u t : State) (rows n : Nat) : Prop where
  bytes : BytesOnly s u t ((List.range rows).flatMap fun k => s.newSegs n rows k)
  other : (t.pool s.myCx (!s.me.farPool)).free = (s.pool s.myCx (!s.me.farPool)).free

/-! ### Convoys of several members -/

/-- From the PC on, instruction `i` and the ones that follow are convoy-class, with the members `ms` (R63); none but the
last closes the convoy. -/
structure State.gathers (s : State) (i : Instr) (ms : List Member) : Prop where
  any   : ms ≠ []
  first : memberOf s.me.gm i = ms.head?
  next  : ∀ k m, 0 < k → ms[k]? = some m →
    ∃ w j, s.fetch s.cur (s.me.pc + BitVec.ofNat 64 (4 * k)).toNat = .ok w ∧ decodeWord w = .ok j
      ∧ memberOf s.me.gm j = some m
  going : ∀ k m, k + 1 < ms.length → ms[k]? = some m → m.closes = false

/-- The same, with a scalar-class instruction after them: `ms` are the whole convoy. -/
structure State.convoyOf (s : State) (i : Instr) (ms : List Member) : Prop extends s.gathers i ms where
  after : ∃ w j, s.fetch s.cur (s.me.pc + BitVec.ofNat 64 (4 * ms.length)).toNat = .ok w ∧ decodeWord w = .ok j
    ∧ memberOf s.me.gm j = none

/-- Stream registers that the members `ms` read, each once. -/
def State.streamsOf (s : State) (ms : List Member) : List CReg :=
  ((ms.flatMap Member.reads).filter s.me.streamed).eraseDups

/-- Member `p` of a convoy, `m`, is the one that breaks a limit of R64 (R65), or a rule of its own with cause 0x03. -/
def State.breaksLimit (s : State) (ms : List Member) (p : Nat) (m : Member) : Prop :=
  let before := ms.take p
  8 ≤ p ∨ before.any Member.isCitp = true
  ∨ 2 < ((before ++ [m]).map (·.loads)).sum + (s.streamsOf (before ++ [m])).length
  ∨ 1 < ((before ++ [m]).map (·.stores)).sum
  ∨ twice m.writes = true ∨ (∃ c ∈ m.writes, ∃ q ∈ before, c ∈ q.writes ∨ c ∈ q.reads)
  ∨ (∃ d, m.mwrite = some d ∧
      ((∃ q ∈ before, q.mwrite = some d ∨ d ∈ q.mreads) ∨ (s.me.gm.gk = false ∧ s.me.gm.guard = d)))
  ∨ m.clash = true

/-- Member `p` of a convoy, `m`, has no defect of R65. -/
def State.soundAt (s : State) (ms : List Member) (p : Nat) (m : Member) : Prop :=
  m.fits = true ∧ (∀ c ∈ m.writes, s.me.streamed c = false) ∧ ¬ s.breaksLimit ms p m

/-! ### Interrupted convoys -/

/-- `v` is the precise point of an interruption at element `h` of a convoy whose one member, `m`, writes `d` in elements
of `w` bits (R133, R289): the highest multiple of 512 ÷ W not above `h` at which the interim chain fits 32 segments. -/
def State.precise (s : State) (m : Member) (d : CReg) (w h v : Nat) : Prop :=
  let g := 4096 / m.counts.foldl Nat.max 0
  let fits (v : Nat) : Prop :=
    v = 0 ∨ s.buffersFor ((v * w + 7) / 8) + (if m.readsOld then (segsDrop ((v * w + 7) / 8) (s.segs d)).length else 0) ≤ 32
  v % g = 0 ∧ v ≤ h ∧ fits v ∧ ∀ u, u % g = 0 → v < u → u ≤ h → ¬ fits u

/-- A convoy whose one member, `m`, writes `d` with the results `R` is interrupted with `evpos` = `e` at the precise
point `v`: `d` holds the results below `v` and, when `m` reads it, a share of what it held from there on (R133); flags come
from below `v` only (R106), and no other chain register has changed. -/
structure StoppedAt (s t : State) (m : Member) (d : CReg) (w e v : Nat) (c : Cause) (eval : Word) (R : Nat → Nat × Flags) :
    Prop where
  trap   : Trapped s t s.cur c s.me.pc eval (BitVec.ofNat 64 e) (BitVec.ofNat 64 v)
  chain  : ∃ new, t.segs d = new ++ (if m.readsOld then segsDrop ((v * w + 7) / 8) (s.segs d) else [])
    ∧ t.segBytes s.myCx new = pack w ((List.range v).map fun e => (R e).1)
  others : ∀ q, q ≠ d → t.me.chain q = s.me.chain q
  asked  : t.me.preq = (s.me.preq && c != .preemption) ∧ t.me.due = (s.me.due && c != .preemption)
  strand : { t.me with
      epc := s.me.epc, ecause := s.me.ecause, eval := s.me.eval, evpos := s.me.evpos, vstart := s.me.vstart
      pc := s.me.pc, mode := s.me.mode, estatus := s.me.estatus, chains := s.me.chains, cdirty := s.me.cdirty
      preq := s.me.preq, due := s.me.due } =
    { s.me with wait := .none, again := none, fflags := s.me.fflags ||| flagsOf v fun e => (R e).2 }
  memory : s.me.farPool = false → ∀ l, t.byteAt l = s.byteAt l

/-! ### Chain edits -/

/-- A chain instruction that writes `w` and reads `r` is not kept from its effect: none is a stream register (R125), and
no copy fills one of `w` (R179). -/
def State.editable (s : State) (w r : List CReg) : Prop :=
  (∀ c, c ∈ w ++ r → s.me.streamed c = false) ∧ ∀ c, c ∈ w → s.copyInto c = false

/-- From `s` to `t` every segment of `gain` has added a reference to its buffer and then every segment of `loss` has
dropped one; a buffer whose count reached 0 has joined the reclaim queue (R119, R121, R126). Nothing else of the package
but the executing strand has changed. -/
structure Counted (s t : State) (gain loss : List Seg) : Prop where
  refs : ∀ far i, (t.pool s.myCx far).ref i = (s.pool s.myCx far).ref i + named far i gain - named far i loss
  reclaim : ∀ far i, i < 2 ^ 23 → (mkId far i ∈ (t.cx s.myCx).reclaim ↔ mkId far i ∈ (s.cx s.myCx).reclaim
    ∨ (0 < named far i loss ∧ 0 < (s.pool s.myCx far).ref i + named far i gain ∧ (t.pool s.myCx far).ref i = 0))
  pools : ∀ far, { t.pool s.myCx far with refs := (s.pool s.myCx far).refs } = s.pool s.myCx far
  complexes : ∀ y, y ≠ s.myCx → t.cx y = s.cx y
  complex : { t.cx s.myCx with near := (s.cx s.myCx).near, far := (s.cx s.myCx).far, reclaim := (s.cx s.myCx).reclaim }
    = s.cx s.myCx
  others : ∀ i, i ≠ s.cur → t.strand i = s.strand i
  rest : { t with strands := s.strands, cxs := s.cxs } = s

/-- Instruction `i` completes in `s` with the segments `l` in chain register `d`, `l` counted and the old ones of `d`
dropped (R126). -/
def Edits (i : Instr) (s : State) (d : CReg) (l : List Seg) : Prop :=
  ∃ t, exec i s = .next t ∧ Counted s t l (s.segs d)
    ∧ t.me = { s.me.setChain d { segs := l } with pc := s.me.pc + 4, wait := .none }

/-- The bytes `bs` stand from byte `o` of buffer `id` in `t`. -/
def State.holdsAt (t : State) (x id o : Nat) (bs : List Byte) : Prop := t.bufBytes x id o bs.length = bs

/-- Instruction `i` completes in `s` with the segments `l` in chain register `d`, having written `bs` from byte `o` of
buffer `id` unless that lies in the Dusk region (R320), and with no count changed (R127, R136). -/
def EditsInPlace (i : Instr) (s : State) (d : CReg) (l : List Seg) (id o : Nat) (bs : List Byte) : Prop :=
  ∃ t, exec i s = .next t
    ∧ ((idFar id = true → (s.pool s.myCx true).offDusk [idIndex id]) → o + bs.length ≤ (s.pool s.myCx (idFar id)).size →
        t.holdsAt s.myCx id o bs)
    ∧ BytesOnly s s t [{ id := id, start := o, count := bs.length }]
    ∧ (∀ far, t.pool s.myCx far = s.pool s.myCx far)
    ∧ t.me = { s.me.setChain d { segs := l } with pc := s.me.pc + 4, wait := .none }

/-- Instruction `i` completes in `s` with the segments `l` in chain register `d`, having taken the first free buffer of
the strand's pool and written `bs` from its byte `o`; the segments `loss` have dropped a reference each (R127, R136). -/
def EditsInNew (i : Instr) (s : State) (d : CReg) (l loss : List Seg) (o : Nat) (bs : List Byte) : Prop :=
  let new := s.myPool.free.headD 0
  let id := mkId s.me.farPool new
  ∃ t, exec i s = .next t ∧ t.holdsAt s.myCx id o bs
    ∧ BytesOnly s s t [{ id := id, start := o, count := bs.length }]
    ∧ (t.pool s.myCx s.me.farPool).free = s.myPool.free.drop 1
    ∧ (t.pool s.myCx (!s.me.farPool)).free = (s.pool s.myCx (!s.me.farPool)).free
    ∧ (∀ far i, (t.pool s.myCx far).ref i =
        (if far = s.me.farPool ∧ i = new then 1 else (s.pool s.myCx far).ref i) - named far i loss)
    ∧ t.me = { s.me.setChain d { segs := l } with pc := s.me.pc + 4, wait := .none }

/-- The entries of a spine block, the first `nseg` of D4 to D35 (R134). -/
def spineEntries (bs : List Byte) : List Seg :=
  (List.range (dword bs 0 % 64)).map fun i =>
    let w := dword bs (4 + i)
    { id := w / 2 ^ 25 % 2 ^ 24, start := w / 2 ^ 13 % 2 ^ 12, count := w % 2 ^ 13 }

/-- A spine block that `chld` takes after `k` entries (R134, R139): its owner is the executing strand's complex, its
reserved fields are zero, no object has more than 32 entries, and each is a segment of R122 whose buffer is held. -/
structure State.SpineBlock (s : State) (bs : List Byte) (k : Nat) : Prop where
  owner    : dword bs 0 / 2 ^ 32 % 2 ^ 7 = s.myCx
  reserved : dword bs 0 / 2 ^ 39 % 2 ^ 24 = 0 ∧ dword bs 0 / 2 ^ 6 % 2 ^ 26 = 0 ∧ dword bs 2 / 2 ^ 32 = 0 ∧ dword bs 3 = 0
    ∧ (∀ i, i < 32 → dword bs (4 + i) / 2 ^ 49 = 0) ∧ ∀ i, i < 28 → dword bs (36 + i) = 0
  room     : k + dword bs 0 % 64 ≤ 32
  entries  : ∀ g ∈ spineEntries bs, 0 < g.count ∧ g.start + g.count ≤ (s.pool s.myCx (idFar g.id)).size
    ∧ 0 < s.refs s.myCx g.id

/-- The blocks at `va` and after it, read from state `v` on, hold the chain object whose entries, after `l`, make `r`;
`u` is the state after the reads (R134, R139). Of the first block `valid` is looked at; `seen` are the blocks before. -/
inductive State.Object (s : State) : List Nat → List Seg → Nat → State → List Seg → State → Prop where
  | empty (va : Nat) (v u : State) (bs : List Byte) : v.readSpan s.blockAccess va 512 = .ok (bs, u) →
      dword bs 0 / 2 ^ 63 % 2 = 0 → Object s [] [] va v [] u
  | last (seen : List Nat) (l : List Seg) (va : Nat) (v u : State) (bs : List Byte) :
      v.readSpan s.blockAccess va 512 = .ok (bs, u) → (seen = [] → dword bs 0 / 2 ^ 63 % 2 = 1) →
      s.SpineBlock bs l.length → dword bs 1 = 0 → Object s seen l va v (l ++ spineEntries bs) u
  | more (seen : List Nat) (l r : List Seg) (va : Nat) (v u z : State) (bs : List Byte) :
      v.readSpan s.blockAccess va 512 = .ok (bs, u) → (seen = [] → dword bs 0 / 2 ^ 63 % 2 = 1) →
      s.SpineBlock bs l.length → dword bs 1 ≠ 0 → dword bs 1 % 512 = 0 → dword bs 1 ∉ va :: seen → seen.length < 31 →
      Object s (va :: seen) (l ++ spineEntries bs) (dword bs 1) u r z → Object s seen l va v r z

/-- How many of `n` bytes stored from `va` fill whole lines: the first so many may land on marked lines (R166, R305). -/
def wholeBytes (va n : Nat) : Nat := if va % 64 = 0 then n / 64 * 64 else 0

/-- The bytes `bs` are stored from `va` on behalf of `a`, in the pieces `parts`: each passes its checks, and `σ` are the
states between them. The last piece of a line that is written whole takes its marker away. -/
structure State.Stores (s : State) (a : Access) (va : Nat) (bs : List Byte) (parts : List (Nat × Nat)) (σ : Nat → State)
    (g : Nat → Page) : Prop where
  start : σ 0 = s
  check : ∀ j p, parts[j]? = some p →
    (σ j).check a (va + p.1 : Nat) p.2 false true (decide (p.1 < wholeBytes va bs.length)) = .ok (g j)
  step  : ∀ j p, parts[j]? = some p → σ (j + 1) = (σ j).store a (g j) ((bs.drop p.1).take p.2)
    (decide (p.1 < wholeBytes va bs.length) && (p.1 + p.2) % 64 == 0)

/-- Where such stores have landed: each piece as `Stored` says, no line written whole carries the marker, and no other
line of memory has changed. -/
structure Landed (s : State) (a : Access) (va : Nat) (bs : List Byte) (parts : List (Nat × Nat)) (σ : Nat → State)
    (g : Nat → Page) (t : State) : Prop where
  pieces : ∀ j p, parts[j]? = some p → (g j).pa < mboxBase → (σ j).lost (g j).pa = false → (σ j).cellSound a (g j) →
    Stored (σ j) (σ (j + 1)) a (g j) ((bs.drop p.1).take p.2)
  clean  : ∀ j p, parts[j]? = some p → (g j).pa < mboxBase → (σ j).lost (g j).pa = false →
    p.1 < wholeBytes va bs.length → (p.1 + p.2) % 64 = 0 →
    (σ (j + 1)).marked ((σ j).storePlace a (g j)) = false
  lines  : ∀ l key,
    (∀ j, j < parts.length → (σ j).cellSound a (g j) ∧ l / 64 ≠ (σ j).storePlace a (g j) / 64) →
    t.plainByte key l = s.plainByte key l

/-! ### Memory and matrix members -/

/-- On whose behalf a vector load reads (R165, R268). -/
def State.loadAs (s : State) (k : LoadKind) : Access :=
  match k with
  | .tagged b => { s.myAccess with tag := (s.reg b).toNat }
  | _ => s.myAccess

/-- Address and bit of element `e` (R165), and for the unit form the page format of the base. -/
def State.elementAt (s : State) (a : Access) (at_ : Form) (base : Word) (v : List Nat) (e : Nat) : Int × Nat × Option Nat :=
  match at_ with
  | .unit =>
      let u := unitAddr s.me.gm.fmtA base.toNat (s.formatAt a base.toNat) e
      (u.1, u.2, some (s.formatAt a base.toNat))
  | .stride b => (base.toNat + e * (s.reg b).toInt, 0, none)
  | .index k => (base.toNat + s.me.gm.fmtB.int (arg v k), 0, none)

/-- The checks of element `e` of a vector access whose operands are `v` (R166). -/
def State.elementSpot (s : State) (a : Access) (at_ : Form) (base : Word) (v : List Nat) (e : Nat) (store : Bool) :
    Except Miss Spot :=
  let l := s.elementAt a at_ base v e
  s.spot a ((s.me.gm.fmtA.bits + 7) / 8) l.1 (!store) store false l.2.2

/-- Element `e` of a vector load reads `r` in `s` and leaves `t` (R165). -/
def ReadsElement (s t : State) (a : Access) (at_ : Form) (base : Word) (v : List Nat) (e : Nat) (r : Nat × Flags) : Prop :=
  ∃ sp, s.elementSpot a at_ base v e false = .ok sp
    ∧ s.readSpot a s.me.gm.fmtA s.me.gm.num (s.elementAt a at_ base v e).2.1 sp = (r, t)

/-- The bytes that element `v` of a vector store places, and the page of their first byte (R162, R165). -/
def State.spotBytes (s : State) (a : Access) (f : Fmt) (nm : NumMode) (bit v : Nat) : Spot → Option (Page × List Byte)
  | .plain g =>
      if f.bits < 8 then
        let old := leNat (s.peek a g 1)
        some (g, leBytes 1 (old - old / 2 ^ bit % 2 ^ f.bits * 2 ^ bit + v % 2 ^ f.bits * 2 ^ bit))
      else some (g, leBytes (f.bits / 8) v)
  | .stored g sf k =>
      let g' := g.frameByte (packedByte sf.bits k)
      some (g', leBytes 1 (packedPut sf.bits k (leNat (s.peek a g' 1)) (recode f sf nm v).1))
  | .book .. => none

/-- Column `j` of row `r` of a matrix product (R237), `old` being the accumulator's element. -/
def State.product (s : State) (a b : OReg) (r j old : Nat) : Nat × Flags :=
  let g := s.me.gm
  let oa := s.slot s.myCx a.toNat
  let ob := s.slot s.myCx b.toNat
  if s.active j then kSum g.fmtA g.fmtB g.num old (slotPairs oa ob r j (geomCols oa.geom)) else (old, 0)

/-- An armed epilogue fed with the active columns of a product of `rows` rows (R237, R240). -/
def State.fed (s : State) (rows n : Nat) (out : Nat → Nat → Nat) (ep : Epilogue) : Epilogue :=
  let bias := s.slot s.myCx ep.bslot.toNat
  let e := (List.range n).foldl (fun ep j =>
    if s.active j then (List.range rows).foldl (fun ep r => ep.feed s.me.gm.sat bias r j (out r j)) ep else ep) ep
  { e with colbase := ep.colbase + BitVec.ofNat 32 n }

/-! ### The block-sparse walk -/

/-- Entry `t` of a topology table is read in `s`, which becomes `u`: its doublewords are `d` and `tile` (R245). -/
def ReadsEntry (w : Walk) (t : Nat) (s u : State) (d tile : Nat) : Prop :=
  ∃ p, s.checkAt s.myAccess (w.table + 16 * t : Nat) 16 true false false = .ok p
    ∧ leNat ((s.peek s.myAccess p 16).take 8) = d ∧ leNat ((s.peek s.myAccess p 16).drop 8) = tile
    ∧ u = (s.load s.myAccess p 16).2

/-- An entry that order 2 of R248 lets pass, `rows` being those of the B slot. -/
def entrySound (d tile rows : Nat) : Prop :=
  d < 2 ^ 35 ∧ (entryEmpty d = true → entryLast d = true ∧ tile = 0) ∧ (entryEnd d = true → entryLast d = true)
    ∧ (entryEmpty d = false → tile % 64 = 0 ∧ 32 * entryCblk d + 32 ≤ rows)

/-- The check of element `k` of the tile at `tile`, of which `ρ` are the states between its elements. -/
def tileSpot (w : Walk) (tile : Nat) (ρ : Nat → State) (k : Nat) : Except Miss Spot :=
  let pf := (ρ 0).formatAt (ρ 0).myAccess tile
  (ρ k).spot (ρ k).myAccess ((w.g.fmtA.bits + 7) / 8) (unitAddr w.g.fmtA tile pf k).1 true false false (some pf)

/-- The first `n` elements of a tile are read as a unit-stride load reads them (R245): they are `x`. -/
def ReadsTile (w : Walk) (tile n : Nat) (ρ : Nat → State) (x : Nat → Nat) : Prop :=
  ∀ k, k < n → ∃ sp, tileSpot w tile ρ k = .ok sp ∧
    let r := (ρ k).readSpot (ρ k).myAccess w.g.fmtA w.g.num
      (unitAddr w.g.fmtA tile ((ρ 0).formatAt (ρ 0).myAccess tile) k).2 sp
    r.1.1 = x k ∧ ρ (k + 1) = r.2

/-- Where WriteBlock places column `j` of row `i` of row block `rblk` (R247). -/
def Walk.target (w : Walk) (rblk i j : Nat) : Int :=
  w.block.base + (w.block.start 0 + j) * w.block.stride 0 + (w.block.start 1 + (32 * rblk + i : Nat)) * w.block.stride 1

/-- What WriteBlock writes there of an accumulator element (R113, R247), with the flags of the conversion. -/
def Walk.converted (w : Walk) (v : Nat) : Nat × Flags := opCvt (accFmt w.g.fmtA w.g.fmtB) w.block.fmt w.block.num v

/-- The first `n` elements of a row block `out` are written in row-major order, those outside the window left out (R175,
R247); `ω` are the states between them. -/
def WritesBlock (w : Walk) (rblk n : Nat) (out : Nat → Nat → Nat) (ω : Nat → State) : Prop :=
  ∀ p, p < n →
    let i := p / w.vl
    let j := p % w.vl
    if w.block.inWindow (w.target rblk i j) = true then
      ∃ sp, (ω p).spot (ω p).myAccess w.block.size (w.target rblk i j) false true false none = .ok sp
        ∧ ω (p + 1) = ((ω p).writeSpot (ω p).myAccess w.block.fmt w.block.num 0 false (w.converted (out i j)).1 sp).2
    else ω (p + 1) = ω p

/-- What happens at each entry of a walk: its doublewords and the elements of its tile; the accumulator before it; the
states before it, between the elements of its tile, and between those of the block that it writes. -/
structure WalkData where
  d      : Nat → Nat
  tile   : Nat → Nat
  x      : Nat → Nat → Nat
  acc    : Nat → Nat → Nat → Nat
  before : Nat → State
  reads  : Nat → Nat → State
  writes : Nat → Nat → State

/-- Column `j` of row `i` of the accumulator after entry `t` (R247): zero after an empty one, else the K-group of the
tile's row and the column of the B slot added, with the flags it raises. -/
def WalkData.out (z : WalkData) (s : State) (w : Walk) (t i j : Nat) : Nat × Flags :=
  let b := s.slot s.myCx w.o.toNat
  if entryEmpty (z.d t) then (0, 0)
  else kSum w.g.fmtA w.g.fmtB w.g.num (z.acc t i j) ((List.range 32).map fun k =>
    (z.x t (32 * i + k), slotGet b.data (geomFmt b.geom) (geomIndex b.geom (32 * entryCblk (z.d t) + k) j)))

/-- No element of the B slot that entry `t` uses is marked (R316). -/
def WalkData.clean (z : WalkData) (s : State) (w : Walk) (t : Nat) : Prop :=
  let b := s.slot s.myCx w.o.toNat
  ∀ j k, j < w.vl → k < 32 → b.marked (geomFmt b.geom) (geomIndex b.geom (32 * entryCblk (z.d t) + k) j) = false

/-- Entry `t` is read and sound, and its tile, unless it is empty, is read (R248). -/
structure WalkData.entered (z : WalkData) (s : State) (w : Walk) (t : Nat) : Prop where
  entry : ReadsEntry w t (z.before t) (z.reads t 0) (z.d t) (z.tile t)
  sound : entrySound (z.d t) (z.tile t) (geomRows (s.slot s.myCx w.o.toNat).geom)
  tile  : entryEmpty (z.d t) = false → ReadsTile w (z.tile t) 1024 (z.reads t) (z.x t) ∧ z.clean s w t
  open_ : z.writes t 0 = z.reads t (if entryEmpty (z.d t) then 0 else 1024)

/-- Entry `t` is applied, and its row block written when it is the last of it (R247). -/
structure WalkData.applied (z : WalkData) (s : State) (w : Walk) (t : Nat) : Prop extends z.entered s w t where
  block : entryLast (z.d t) = true →
    WritesBlock w (entryRblk (z.d t)) (32 * w.vl) (fun i j => (z.out s w t i j).1) (z.writes t)
  next  : z.before (t + 1) = z.writes t (if entryLast (z.d t) then 32 * w.vl else 0)
  acc   : ∀ i j, z.acc (t + 1) i j = if entryLast (z.d t) then 0 else (z.out s w t i j).1

/-- The flags that a walk of `n` entries raises: of every K-group, and of the conversions that it writes (R247). -/
def WalkData.flags (z : WalkData) (s : State) (w : Walk) (n : Nat) : Flags :=
  flagsOf n fun t => flagsOf 32 fun i => flagsOf w.vl fun j =>
    (z.out s w t i j).2 |||
      (if entryLast (z.d t) && w.block.inWindow (w.target (entryRblk (z.d t)) i j) then
        (w.converted (z.out s w t i j).1).2 else 0)

/-- Entries 0 to `E - 1` of a walk that starts in `s1` are applied, and none of them ends the table. -/
structure WalkData.upTo (z : WalkData) (s s1 : State) (w : Walk) (E : Nat) : Prop where
  start : z.before 0 = s1
  zero  : ∀ i j, z.acc 0 i j = 0
  each  : ∀ t, t < E → z.applied s w t ∧ entryEnd (z.d t) = false

/-- The walk stops in entry `E` at walk step `v` with a cause, `eval` and note (R248). -/
inductive WalkData.stops (z : WalkData) (s : State) (w : Walk) (E : Nat) : Nat → Cause → Word → Note → Prop where
  | entry (c : Cause) (n : Note) :
      (z.before E).checkAt (z.before E).myAccess (w.table + 16 * E : Nat) 16 true false false = .bad c n →
      stops z s w E (2 * E) c (BitVec.ofNat 64 (w.table + 16 * E)) n
  | defect : ReadsEntry w E (z.before E) (z.reads E 0) (z.d E) (z.tile E) →
      ¬ entrySound (z.d E) (z.tile E) (geomRows (s.slot s.myCx w.o.toNat).geom) →
      stops z s w E (2 * E) .topology (BitVec.ofNat 64 (w.table + 16 * E)) {}
  | tile (k : Nat) (c : Cause) (va : Int) (n : Note) :
      ReadsEntry w E (z.before E) (z.reads E 0) (z.d E) (z.tile E) →
      entrySound (z.d E) (z.tile E) (geomRows (s.slot s.myCx w.o.toNat).geom) → entryEmpty (z.d E) = false → k < 1024 →
      ReadsTile w (z.tile E) k (z.reads E) (z.x E) → tileSpot w (z.tile E) (z.reads E) k = .error (.bad c va n) →
      stops z s w E (2 * E) c (BitVec.ofInt 64 va) n
  | marked : ReadsEntry w E (z.before E) (z.reads E 0) (z.d E) (z.tile E) →
      entrySound (z.d E) (z.tile E) (geomRows (s.slot s.myCx w.o.toNat).geom) → entryEmpty (z.d E) = false →
      ReadsTile w (z.tile E) 1024 (z.reads E) (z.x E) → ¬ z.clean s w E →
      stops z s w E (2 * E) .poison w.addr {}
  | write (p : Nat) (c : Cause) (va : Int) (n : Note) : z.entered s w E → entryLast (z.d E) = true → p < 32 * w.vl →
      WritesBlock w (entryRblk (z.d E)) p (fun i j => (z.out s w E i j).1) (z.writes E) →
      w.block.inWindow (w.target (entryRblk (z.d E)) (p / w.vl) (p % w.vl)) = true →
      (z.writes E p).spot (z.writes E p).myAccess w.block.size (w.target (entryRblk (z.d E)) (p / w.vl) (p % w.vl))
        false true false none = .error (.bad c va n) →
      stops z s w E (2 * E + 1) c (BitVec.ofInt 64 va) n

/-! ### Copies and streams -/

/-- Orders 4 to 7 of R176 hold of a copy's block: its completion bits are in range, a slot that it names is held and
holds its bytes, a chain register that it names is no stream register. -/
structure State.copyReady (s : State) (b : Block) : Prop where
  bits  : b.kreg ≤ 7 → b.kbase + b.chunks ≤ 512
  slot  : b.dkind = 1 → s.holds b.slot = true ∧ b.offset + b.bytes ≤ 32768 ∧ b.offset % b.size = 0
  chain : b.dkind = 2 → s.me.streamed (BitVec.ofNat 5 b.creg) = false

/-- Element `e` of a copy's patterned side is read as `v` (R174, R175, R177): outside the window it is 0, and `out` says
so. -/
def State.Gathers (s u : State) (a : Access) (b : Block) (e v : Nat) (out : Bool) : Prop :=
  ∃ i s1, s.readIndex a b e = .ok (i, s1)
    ∧ (b.inWindow (b.addr e i) = false → out = true ∧ v = 0 ∧ u = s1)
    ∧ (b.inWindow (b.addr e i) = true → out = false ∧ ∃ sp fl,
        s1.spot a b.size (b.addr e i) true false false none = .ok sp ∧ s1.readSpot a b.fmt b.num 0 sp = ((v, fl), u))

/-- Value `v` of element `e` of a copy is written to memory at `va` (R177): byte by byte, but for the bits that an element
of a higher index, among `later`, has written already. A marked line may be written when the whole copy covers it
(R305). -/
def State.Places (s u : State) (c : Copy) (a : Access) (e v : Nat) (va : Int) (later : List (Nat × Nat × Nat)) : Prop :=
  let b : Block := c.block
  let run := (s.bitsAt a b.fmt va 0).getD (0, 0)
  let stands (i : Nat) : Prop := ∃ x ∈ later, e < x.1 ∧ x.2.1 ≤ run.1 + 8 * i ∧ run.1 + 8 * i < x.2.1 + x.2.2
  ∃ may full sp, (may = true → s.copyCovers c a (List.range b.count) (run.1 / 512) = true)
    ∧ s.spot a b.size va false true may (if b.dkind = 3 then none else some (s.formatAt a b.dense)) = .ok sp
    ∧ (∀ g, sp = .plain g → ∃ w, u = s.store a g (leBytes b.size w) full
        ∧ ∀ i, i < b.size → (stands i → w / 256 ^ i % 256 = leNat (s.peek a g b.size) / 256 ^ i % 256)
          ∧ (¬ stands i → w / 256 ^ i % 256 = v / 256 ^ i % 256))
    ∧ ((∀ g, sp ≠ .plain g) → (stands 0 → u = s) ∧ (¬ stands 0 → u = (s.writeSpot a b.fmt b.num 0 full v sp).2))

/-- Value `v` of element `e` of a copy is written to the dense bytes of a chain (R179), but for the bytes that an element
of a higher index, among `later`, has written already (R177). No byte lies in a marked line of memory that the whole copy
leaves in part (R305); a range of a buffer that the copy has written whole loses its marker (R316). -/
def State.PlacesInChain (s u : State) (c : Copy) (e v : Nat) (later : List (Nat × Nat × Nat)) : Prop :=
  let b : Block := c.block
  ∃ τ : Nat → State, τ 0 = s ∧ τ b.size = u ∧ ∀ i, i < b.size →
    match chainByte (e * b.size + i) c.segs 0 with
    | none => τ (i + 1) = τ i
    | some (id, o, _, _) =>
        let k := (τ i).bufBit c.cplx id o
        let stands : Prop := ∃ x ∈ later, e < x.1 ∧ x.2.1 ≤ k ∧ k < x.2.1 + x.2.2
        let after (x : State) : Prop :=
          τ (i + 1) = x ∨ τ (i + 1) = x.markRange c.cplx (idFar id) (x.bufRange c.cplx id o) false
        (s.bufHeld c.cplx id o 1 = true → c.chainWrites id (o / 64 * 64) (fun _ => true) = true)
        ∧ (stands → after (τ i)) ∧ (¬ stands → after ((τ i).setBuf c.cplx id o [BitVec.ofNat 8 (v / 256 ^ i)]))

/-- Element `e` of a copy moves (R177): to or from the dense side, which is memory from `dense` on, a slot from `offset`
on, or a chain; `out` says that it lay outside the window and was left out, or read as 0. -/
def State.MovesElem (s u : State) (c : Copy) (a : Access) (e : Nat) (out : Bool) (later : List (Nat × Nat × Nat)) : Prop :=
  let b : Block := c.block
  let dense (s : State) : Int := (b.dense + e * (if s.formatAt a b.dense = 0 then b.size else 1) : Nat)
  (b.dkind = 3 → ∃ i s1, s.readIndex a b e = .ok (i, s1)
    ∧ (b.inWindow (b.addr e i) = false → out = true ∧ u = s1)
    ∧ (b.inWindow (b.addr e i) = true → out = false ∧ ∃ sp v fl s2,
        s1.spot a b.size (dense s1) true false false (some (s1.formatAt a b.dense)) = .ok sp
        ∧ s1.readSpot a b.fmt b.num 0 sp = ((v, fl), s2) ∧ s2.Places u c a e v (b.addr e i) later))
  ∧ (b.dkind ≠ 3 → ∃ v s1, s.Gathers s1 a b e v out
    ∧ (b.dkind = 0 → s1.Places u c a e v (dense s1) later)
    ∧ (b.dkind = 1 → { u with cxs := s1.cxs } = s1
        ∧ (∀ q, Sparse.get 0 q (u.slot c.cplx b.slot).data =
            if b.offset + e * b.size ≤ q ∧ q < b.offset + e * b.size + b.size then
              BitVec.ofNat 8 (v / 256 ^ (q - (b.offset + e * b.size)))
            else Sparse.get 0 q (s1.slot c.cplx b.slot).data))
    ∧ (b.dkind = 2 → s1.PlacesInChain u c e v later))

/-- The copy that the executing strand issues (R180, R183). -/
def State.newCopy (s : State) (va : Word) (b : Block) (segs : List Seg) (todo : List Nat) (counts : Bool) : Copy :=
  { id := s.nextId, owner := .strand s.me.uid, part := s.me.part, cplx := s.myCx, mode := s.me.mode
    tag := s.me.ctx.toNat, blockVa := va.toNat, block := b, segs := segs, todo := todo, failed := [], done := []
    counts := counts, fault := none, clk := (s.myRelease .sys).1.clk }

/-- Instruction `i` completes in `s` with copy `c` in flight and strand `m` as the executing strand, the PC past it;
beside the ordering model's bookkeeping and the counts of accesses nothing else has changed. -/
def Issues (i : Instr) (s : State) (c : Copy) (m : Strand) : Prop :=
  ∃ t, exec i s = .next t ∧ t.copies = s.copies ++ [c] ∧ t.me = { m with pc := s.me.pc + 4, wait := .none }
    ∧ (∀ k, k ≠ s.cur → t.strand k = s.strand k)
    ∧ { t with strands := s.strands, copies := s.copies, order := s.order, nextId := s.nextId, pageUse := s.pageUse } = s
    ∧ t.nextId = s.nextId + 1

/-- Instruction `i` traps after reads that the ordering model has noted. -/
def TrapsLate (i : Instr) (s : State) (c : Cause) (eval : Word) : Prop :=
  ∃ t, exec i s = .next t ∧ Trapped s t s.cur c s.me.pc eval 0 0 ∧ OnlyMeAndOrder s t

/-- A step that moves strand `i` to `m`, changes no other strand, and leaves the package as in `u`. -/
structure Moves (s t : State) (i : Nat) (m : Strand) (u : State) : Prop where
  strand : t.strand i = m
  others : ∀ k, k ≠ i → t.strand k = s.strand k
  rest   : { t with strands := u.strands } = u

/-! ### The launch unit -/

/-- The lowest free tag of a partition is `g` (R253). -/
def Partition.lowestFree (p : Partition) (g : Nat) : Prop :=
  1 ≤ g ∧ g ≤ p.tagcap.toNat ∧ Sparse.get .free g p.tags = .free
    ∧ ∀ h, 1 ≤ h → h < g → Sparse.get .free h p.tags ≠ .free

/-- No tag of a partition is free (R253). -/
def Partition.noneFree (p : Partition) : Prop := ∀ h, 1 ≤ h → h ≤ p.tagcap.toNat → Sparse.get .free h p.tags ≠ .free

/-- A request of partition `p` is the oldest, or there is none. -/
def State.firstIn (s : State) (p : Nat) (r : TagReq) : Prop := s.tagQueue p = [] ∨ (s.tagQueue p).head? = some r

/-- Side `d` of complex `x` is one on which R29 places `w`: a free strand slot; a complex of the partition, and the pinned
one; a cluster whose strands agree with the fuse flag (R31); and enough lane units. Complex 0 takes none (R277). -/
structure State.Takes (s : State) (p : Partition) (w : Want) (x d : Nat) : Prop where
  side  : 1 ≤ x ∧ x < 128 ∧ d < 2
  ours  : p.owns x = true ∧ ∀ y, w.pin = some y → y = x
  slot  : ∃ i, i < 8 ∧ (s.strand (16 * x + 8 * d + i)).resident = false
  fuse  : ∀ i ∈ s.residents, clusOf i = x / 4 → (s.strand i).fuse = w.fuse
  units : w.lanemin ≤ s.avail x d

/-- Record `j` breaks R22 in itself or against its partition's complexes, graph and parked strands: cause 0x3D. -/
def Job.breaks (P : Partition) (j : Job) : Prop :=
  j.words = []
  ∨ j.f 0 63 57 ≠ 0 ∨ j.f 0 1 0 ≠ 0 ∨ j.f 2 47 37 ≠ 0 ∨ j.f 2 31 26 ≠ 0 ∨ j.f 3 63 57 ≠ 0 ∨ j.f 3 39 39 ≠ 0
  ∨ (∃ i, i < 3 ∧ j.words.getD (5 + i) 0 ≠ 0)
  ∨ j.f 2 15 0 = 0 ∨ j.f 2 19 16 = 0 ∨ 8 < j.f 2 19 16 ∨ j.f 2 23 20 = 0 ∨ j.f 2 19 16 < j.f 2 23 20
  ∨ (j.f 3 40 40 = 1 ∧ P.owns (j.f 3 38 32) = false)
  ∨ (j.f 2 63 48 ≠ 0xFFFF ∧ P.gcount.toNat ≤ j.f 2 63 48)
  ∨ (j.graph = true ∧ j.f 2 32 32 = 1)
  ∨ (j.f 3 56 41 ≠ 0 ∧ j.f 2 36 36 = 0)
  ∨ (j.f 2 36 36 = 1 ∧ (j.f 3 40 40 = 0 ∨ j.f 2 35 35 = 1 ∨ j.f 2 63 48 ≠ 0xFFFF ∨ j.f 3 31 0 ≠ 2 ^ 32 - 1
      ∨ ∀ k ∈ P.parked, ¬ (k.parkid.toNat = j.f 3 56 41 ∧ k.cplx = j.f 3 38 32)))

/-- Record `j` names a group twice, one whose entry is not valid, or more than one co-resident group (R22, R35). -/
def Job.badGroups (P : Partition) (j : Job) : Prop :=
  let g (i : Nat) : Nat := j.f 3 31 0 / 256 ^ i % 256
  (∃ a b, a < b ∧ b < 4 ∧ g a = g b ∧ g a ≠ 255)
  ∨ (∃ a, a < 4 ∧ g a ≠ 255 ∧ (P.group (g a)).valid = false)
  ∨ ∃ a b, a < b ∧ b < 4 ∧ g a ≠ 255 ∧ g b ≠ 255 ∧ (P.group (g a)).cores = true ∧ (P.group (g b)).cores = true

/-- A strand just started from record `j` (R23), whatever its grant. -/
structure Starts (m : Strand) (p uid tag : Nat) (j : Job) : Prop where
  regs  : ∀ r, m.reg r = if r = 1 then j.words.getD 1 0
    else if r = 2 then BitVec.ofNat 64 (j.queue % 64 + (if j.graph then 64 else 0)) else 0
  rest  : { m with regs := [], grant := 0 } =
    { resident := true, uid := uid, part := p, mode := .user, pc := j.words.getD 0 0
      vlmax := BitVec.ofNat 16 (j.f 2 15 0), ctx := BitVec.ofNat 16 tag, farPool := j.flag 2 34
      grpmem := BitVec.ofNat 32 (j.f 3 31 0), lanereq := j.f 2 19 16, lanemin := j.f 2 23 20, prio := j.f 2 25 24
      fuse := j.flag 2 33
      origin := { kind := .record, queue := j.queue, ring := j.ring, token := j.words.getD 4 0, node := j.node
                  parkedOf := [], parkedNodes := [], grouped := true } }

/-- A strand just resumed from record `j` (R46, R47), whatever its grant: `k` is what parking has kept of it. The records and
the graph nodes of both complete with it (R26, R46). -/
structure Resumes (m : Strand) (p tag : Nat) (j : Job) (k : Parked) : Prop where
  regs  : ∀ r, m.reg r = if r = 1 then j.words.getD 1 0
    else if r = 2 then BitVec.ofNat 64 (j.queue % 64 + (if j.graph then 64 else 0) + 128) else 0
  rest  : { m with regs := [], grant := 0 } =
    { resident := true, uid := k.uid, part := p, mode := .supervisor, pc := j.words.getD 0 0
      vlmax := BitVec.ofNat 16 (j.f 2 15 0), ctx := BitVec.ofNat 16 tag, farPool := j.flag 2 34
      kmasks := k.kmasks, chains := k.chains, grpmem := k.grpmem
      lanereq := j.f 2 19 16, lanemin := j.f 2 23 20, prio := j.f 2 25 24, fuse := j.flag 2 33
      origin := { kind := .record, queue := j.queue, ring := j.ring, token := j.words.getD 4 0, node := j.node
                  parkedNodes := k.origin.parkedNodes ++ (if k.origin.node = 0xFFFF then [] else [k.origin.node])
                  parkedOf := k.origin.parkedOf ++ (if k.origin.kind = .record then [(k.origin.queue, k.origin.ring)] else [])
                  grouped := k.origin.grouped } }

/-- A completion ring with room for one more entry (R20). -/
def QState.room (x : QState) : Prop := (x.cpltail + 65536 - x.cplhead) % 65536 < x.cplsize

end Sys2Proof.Machine
end

