-- ==== Sys2Proof/Certificates/Slice0/Obligations.lean ====
section
/-! DEFINITION. The claims about the machine, in the order of OBLIGATIONS.json. -/

section
open Sys2Proof Sys2Proof.Machine

/-! ### Scalar instructions (R69-R76) -/

/-- R71-R76: what each scalar computing instruction writes, and that it does nothing else. `clz` and `ctz` give the `n` for
which the `n` bits at that end are zero and the next one, if there is one, is set. -/
def Obligations.ScalarResults : Prop :=
  ∀ (s : State) (d a b : SReg) (i : BitVec 14) (o : BitVec 20) (p l k : BitVec 6),
    let x := s.reg a
    let y := s.reg b
    let old := s.reg d
    let n := y.toNat % 64
    let m : Word := BitVec.ofNat 64 ((2 ^ (l.toNat + 1) - 1) * 2 ^ p.toNat)
    Gives (.add d a b) s d (wrap64 (x.toNat + y.toNat))
    ∧ Gives (.sub d a b) s d (wrap64 (x.toNat - y.toNat))
    ∧ Gives (.mul d a b) s d (wrap64 (x.toInt * y.toInt))
    ∧ Gives (.mulh d a b) s d (wrap64 (x.toInt * y.toInt / 2 ^ 64))
    ∧ Gives (.mulhu d a b) s d (BitVec.ofNat 64 (x.toNat * y.toNat / 2 ^ 64))
    ∧ Gives (.div d a b) s d (if y = 0 then 0xFFFFFFFFFFFFFFFF else wrap64 (x.toInt.tdiv y.toInt))
    ∧ Gives (.divu d a b) s d (if y = 0 then 0xFFFFFFFFFFFFFFFF else BitVec.ofNat 64 (x.toNat / y.toNat))
    ∧ Gives (.rem d a b) s d (if y = 0 then x else wrap64 (x.toInt.tmod y.toInt))
    ∧ Gives (.remu d a b) s d (if y = 0 then x else BitVec.ofNat 64 (x.toNat % y.toNat))
    ∧ Gives (.and d a b) s d (x &&& y)
    ∧ Gives (.or d a b) s d (x ||| y)
    ∧ Gives (.xor d a b) s d (x ^^^ y)
    ∧ Gives (.shl d a b) s d (wrap64 (x.toNat * 2 ^ n))
    ∧ Gives (.shr d a b) s d (BitVec.ofNat 64 (x.toNat / 2 ^ n))
    ∧ Gives (.sra d a b) s d (wrap64 (x.toInt / 2 ^ n))
    ∧ Gives (.rotl d a b) s d (wrap64 (x.toNat * 2 ^ n) ||| BitVec.ofNat 64 (x.toNat / 2 ^ (64 - n)))
    ∧ Gives (.min d a b) s d (wrap64 (Min.min x.toInt y.toInt))
    ∧ Gives (.max d a b) s d (wrap64 (Max.max x.toInt y.toInt))
    ∧ Gives (.minu d a b) s d (BitVec.ofNat 64 (Min.min x.toNat y.toNat))
    ∧ Gives (.maxu d a b) s d (BitVec.ofNat 64 (Max.max x.toNat y.toNat))
    ∧ Gives (.slt d a b) s d (if x.toInt < y.toInt then 1 else 0)
    ∧ Gives (.sltu d a b) s d (if x.toNat < y.toNat then 1 else 0)
    ∧ (∃ n, Gives (.clz d a) s d (BitVec.ofNat 64 n) ∧ n ≤ 64
      ∧ (∀ i, i < n → x.getLsbD (63 - i) = false) ∧ (n < 64 → x.getLsbD (63 - n) = true))
    ∧ (∃ n, Gives (.ctz d a) s d (BitVec.ofNat 64 n) ∧ n ≤ 64
      ∧ (∀ i, i < n → x.getLsbD i = false) ∧ (n < 64 → x.getLsbD n = true))
    ∧ Gives (.popc d a) s d (BitVec.ofNat 64 ((List.range 64).countP fun i => x.getLsbD i))
    ∧ Gives (.addi d a i) s d (wrap64 (x.toNat + i.toInt))
    ∧ Gives (.andi d a i) s d (x &&& wrap64 i.toInt)
    ∧ Gives (.ori d a i) s d (x ||| wrap64 i.toInt)
    ∧ Gives (.xori d a i) s d (x ^^^ wrap64 i.toInt)
    ∧ Gives (.slti d a i) s d (if x.toInt < i.toInt then 1 else 0)
    ∧ Gives (.sltiu d a i) s d (if x.toNat < (wrap64 i.toInt).toNat then 1 else 0)
    ∧ Gives (.shli d a k) s d (wrap64 (x.toNat * 2 ^ k.toNat))
    ∧ Gives (.shri d a k) s d (BitVec.ofNat 64 (x.toNat / 2 ^ k.toNat))
    ∧ Gives (.srai d a k) s d (wrap64 (x.toInt / 2 ^ k.toNat))
    ∧ Gives (.lhi d o) s d (wrap64 (o.toInt * 16384))
    ∧ Gives (.pcadd d o) s d (wrap64 ((s.me.pc.toNat / 16384 * 16384 : Nat) + o.toInt * 16384))
    ∧ Gives (.bext d a p l) s d (BitVec.ofNat 64 (x.toNat / 2 ^ p.toNat % 2 ^ (l.toNat + 1)))
    ∧ Gives (.bins d a p l) s d ((old &&& ~~~m) ||| (wrap64 (x.toNat * 2 ^ p.toNat) &&& m))
    ∧ Gives (.fsh d a k) s d (BitVec.ofNat 64 ((x.toNat * 2 ^ 64 + old.toNat) / 2 ^ k.toNat))

/-- R80 and R81: where each branch goes; jumps link and go; `jalr` computes its target from the old sA. -/
def Obligations.ControlTransfers : Prop :=
  ∀ (s : State) (d a b : SReg) (o : BitVec 14) (l : BitVec 20),
    let x := s.reg a
    let y := s.reg b
    let dest (c : Bool) : Word := if c then s.me.pc + wrap64 (o.toInt * 4) else s.me.pc + 4
    Goes (.beq a b o) s (dest (x == y))
    ∧ Goes (.bne a b o) s (dest (x != y))
    ∧ Goes (.blt a b o) s (dest (x.toInt < y.toInt))
    ∧ Goes (.bge a b o) s (dest (x.toInt ≥ y.toInt))
    ∧ Goes (.bltu a b o) s (dest (x.toNat < y.toNat))
    ∧ Goes (.bgeu a b o) s (dest (x.toNat ≥ y.toNat))
    ∧ (∃ t, exec (.jal d l) s = .next t ∧ Wrote s t d (s.me.pc + 4)
      ∧ t.me.pc = s.me.pc + wrap64 (l.toInt * 4) ∧ OnlyScalars s t)
    ∧ ∃ t, exec (.jalr d a o) s = .next t ∧ Wrote s t d (s.me.pc + 4)
      ∧ t.me.pc = (wrap64 ((s.reg a).toNat + o.toInt) &&& ~~~3) ∧ OnlyScalars s t

/-! ### Scalar loads, stores and atomics (R77-R79, R214-R217, R267) -/

/-- R77 and R267: a load whose checks pass gives the bytes it finds, extended, and changes no memory; `ldt` reads
them under the tag that sB names. In a domain the access counts for its page (which accesses do: log 33). -/
def Obligations.ScalarLoads : Prop :=
  ∀ (s : State) (d a b : SReg) (z : Size) (o : BitVec 12) (g : Page),
    let va := s.reg a + wrap64 o.toInt
    let tagged : Access := { s.myAccess with tag := (s.reg b).toNat }
    (s.check s.myAccess va.toNat (sizeBytes z) true false = .ok g →
      let v := leNat (s.peek s.myAccess g (sizeBytes z))
      (∃ t, exec (.lds d a z o) s = .next t ∧ Wrote s t d (wrap64 (signedOf (8 * sizeBytes z) v))
        ∧ Past s t ∧ OnlyMeAndOrder s t ∧ CountedOnce s t g)
      ∧ ∃ t, exec (.ldu d a z o) s = .next t ∧ Wrote s t d (BitVec.ofNat 64 v) ∧ Past s t ∧ OnlyMeAndOrder s t
        ∧ CountedOnce s t g)
    ∧ (s.check tagged (s.reg a).toNat (sizeBytes z) true false = .ok g →
      let v := leNat (s.peek tagged g (sizeBytes z))
      ∃ t, exec (.ldt d a b z) s = .next t ∧ Wrote s t d (wrap64 (signedOf (8 * sizeBytes z) v))
        ∧ Past s t ∧ OnlyMeAndOrder s t ∧ CountedOnce s t g)

/-- R77 and R267: a store whose checks pass places the low bytes of sD and leaves every other byte of memory and
every register; `stcm` places them in the common context. A store that a failing peer does not acknowledge is discarded
and logged (R319). In a domain the access counts for its page (which accesses do: log 33). -/
def Obligations.ScalarStores : Prop :=
  ∀ (s : State) (d a : SReg) (z : Size) (o : BitVec 12) (g : Page),
    let va := s.reg a + wrap64 o.toInt
    let bs := leBytes (sizeBytes z) (s.reg d).toNat
    let common : Access := { s.myAccess with tag := 0 }
    let places (i : Instr) (c : Access) : Prop := ∃ t, exec i s = .next t ∧ Past s t ∧ t.me.regs = s.me.regs
      ∧ CountedOnce s t g
      ∧ (s.lost g.pa = false → s.cellSound c g → Stored s t c g bs ∧ OnlyMeAndStore s t c g)
      ∧ (s.lost g.pa = true → Discarded s t g)
    g.pa < mboxBase →
    (s.check s.myAccess va.toNat (sizeBytes z) false true = .ok g → places (.sts d a z o) s.myAccess)
    ∧ (s.check common (s.reg a).toNat (sizeBytes z) false true = .ok g → places (.stcm d a z) common)

/-- R78, with R254 in order 4, R305-R307 in orders 7 and 8 and R319 for a failing peer: the first failed check of a
scalar access is the trap it takes, with `eval` the address, no register and no byte written; each clause assumes that
the checks before it have passed. A race is logged with every earlier access that it is one with, an uncorrectable line
once. A store waits for a cell while a tag
drains. An access for which none of it holds passes, with the effect that `ScalarLoads` and `ScalarStores` state. -/
def Obligations.ScalarAccessChecks : Prop :=
  ∀ (s : State) (d a : SReg) (z : Size) (o : BitVec 12) (store sign : Bool),
    let va := s.reg a + wrap64 o.toInt
    let n := sizeBytes z
    let me := s.myAccess
    let i : Instr := if store then .sts d a z o else if sign then .lds d a z o else .ldu d a z o
    (va.toNat % n ≠ 0 → Traps i s .misaligned va)
    ∧ (va.toNat % n = 0 → s.page s.me.part s.me.mode va.toNat = none → Traps i s .notPresent va)
    ∧ (va.toNat % n = 0 → ∀ g, s.page s.me.part s.me.mode va.toNat = some g →
        let l := s.locate me g
        let need := store = true ∧ s.needsCell me g = true
        let odd := g.format ≠ 0 ∨ (g.tagged = true ∧ dramTop ≤ g.pa)
        let live := g.tagged = true → s.me.ctx = 0 ∨ Sparse.get .free s.me.ctx.toNat s.myPart.tags = .live
        let unread := store = false ∧ s.lost l = true
        let reads := store = false ∨ need
        (s.permits s.me.part s.me.mode g (!store) store false = false → Traps i s .permission va)
        ∧ (s.permits s.me.part s.me.mode g (!store) store false = true →
          (odd → Traps i s .format va)
          ∧ (¬ odd → ¬ live → Traps i s .tag va)
          ∧ (¬ odd → live → need → s.myPart.takeCell = none →
              (s.myPart.drainPending = false → Traps i s .cellStore va)
              ∧ (s.myPart.drainPending = true → Becomes i s { s.me with wait := .cell }))
          ∧ (¬ odd → live → (need → s.myPart.takeCell.isSome) →
              ((∃ r, s.rival g l n store r) →
                ∃ u, LoggedRaces s u (.strand s.cur) (s.rival g l n store) ∧ TrapsFrom i s u .race va)
              ∧ ((∀ r, ¬ s.rival g l n store r) →
                (unread → Traps i s .poison va)
                ∧ (¬ unread → reads → s.broken l = true → ∃ u, FoundBad s u (l / 64) ∧ TrapsFrom i s u .poison va)
                ∧ (¬ unread → s.broken l = false ∨ ¬ reads → s.marked l = true → Traps i s .poison va)
                ∧ (¬ unread → s.broken l = false ∨ ¬ reads → s.marked l = false →
                    s.check me va.toNat n (!store) store = .ok g)))))

/-- R215: an atomic whose checks pass (R216) gives the old value, writes the new one, and changes no other byte; a
`cas` that fails writes nothing. In a domain the access counts for its page (which accesses do: log 33). -/
def Obligations.AtomicAccess : Prop :=
  ∀ (s : State) (d a : SReg) (p : AmoOp) (o : AmoOrder) (sc : Scope) (w : Bool) (g : Page),
    let z := if w then 4 else 8
    let va := (s.reg a).toNat
    let old := leNat (s.peek s.myAccess g z)
    let v := (s.reg d).toNat % 2 ^ (8 * z)
    let c := (s.reg (d + 1)).toNat % 2 ^ (8 * z)
    g.pa < mboxBase → s.cellSound s.myAccess g → s.checkAtomic s.myAccess va z = .ok g →
    (atomicWrites p z old v c = none ∨ s.needsCell s.myAccess g = false ∨ s.myPart.takeCell.isSome) →
    ∃ t, exec (.amo d a p o sc w) s = .next t
      ∧ Wrote s t d (if w then wrap64 (signedOf 32 old) else BitVec.ofNat 64 old) ∧ Past s t ∧ CountedOnce s t g
      ∧ match atomicWrites p z old v c with
        | none => OnlyMeAndOrder s t
        | some x => Stored s t s.myAccess g (leBytes z x) ∧ OnlyMeAndStore s t s.myAccess g

/-! ### Traps, system instructions and the end of a strand (R88-R93, R285) -/

/-- R88-R90, R93 and R294: `nop` does nothing; `svc` traps with its number and `epc` past itself; `tret` returns to the
saved mode and address, and back in user mode a pending pre-emption request is due before the next instruction; `wfi`
waits. In user mode the last two trap. -/
def Obligations.SystemInstructions : Prop :=
  ∀ (s : State) (n : BitVec 12),
    let back : Mode :=
      if s.me.estatus.getLsbD 3 then .monitor else if s.me.estatus.getLsbD 0 then .supervisor else .user
    Goes .nop s (s.me.pc + 4)
    ∧ (∃ t, exec (.svc n) s = .next t ∧ Trapped s t s.cur .svc (s.me.pc + 4) (n.setWidth 64) 0 0 ∧ OnlyTrap s t)
    ∧ (s.me.mode ≠ .user →
        Becomes .tret s
          { s.me with mode := back, pc := s.me.epc &&& ~~~3, wait := .none, due := s.me.preq && back == .user }
        ∧ Becomes .wfi s { s.me with wait := .wfi })
    ∧ (s.me.mode = .user → Traps .tret s .privilege s.me.pc ∧ Traps .wfi s .privilege s.me.pc)

/-- R285: what trap entry saves, the mode and status it leaves and where it goes, for any strand and cause; nothing
else of the package changes. That `redlive` and `memdone`, which a convoy sets before it, stand in a trap outside a
convoy is the model's reading (log 10). -/
def Obligations.TrapEntry : Prop :=
  ∀ (s : State) (i : Nat) (r : TrapRec),
    Trapped s (s.trapIn i r) i r.cause r.epc r.eval r.evpos r.vstart
    ∧ (∀ j, j ≠ i → (s.trapIn i r).strand j = s.strand j)
    ∧ { (s.trapIn i r).strand i with
          epc := (s.strand i).epc, ecause := (s.strand i).ecause, eval := (s.strand i).eval
          evpos := (s.strand i).evpos, vstart := (s.strand i).vstart, pc := (s.strand i).pc
          mode := (s.strand i).mode, estatus := (s.strand i).estatus } = { s.strand i with wait := .none, again := none }
    ∧ { s.trapIn i r with strands := s.strands } = s

/-- R34, R45, R92 and R301: `end`. A parking `end` whose park id is 0 or in use traps; while a copy is in flight the
strand waits. Then it frees its slot and leaves its groups. A strand that ends gives up its chain references and its
operand slots, and its record's completion is due with status 0x00 in user mode and 0xFF otherwise (a boot or monitor
strand completes no record: log 32). A strand that parks leaves its stream registers, its completion masks and its slots
on the complex, under its park id, and completes nothing. -/
def Obligations.StrandEnds : Prop :=
  ∀ s : State,
    let me := s.me
    let park := me.mode = .supervisor ∧ me.estatus.getLsbD 1 = true
    let taken := me.parkid = 0 ∨ ∃ k ∈ s.myPart.parked, k.parkid = me.parkid
    let streams := me.chains.filter fun c => c.2.stream.isSome
    let left (t : State) (drop : List Seg) : Prop :=
      t.strand s.cur = Strand.blank
      ∧ (∀ id, t.refs s.myCx id = s.refs s.myCx id
          - drop.countP fun g => idFar g.id == idFar id && idIndex g.id == idIndex id)
      ∧ (me.origin.grouped = true → (groupIds me.grpmem.toNat).Nodup → ∀ g ∈ groupIds me.grpmem.toNat,
          ((t.part me.part).group g).resident = (s.myPart.group g).resident - 1)
      ∧ ∀ l, t.byteAt l = s.byteAt l
    (park → taken → Traps .endStrand s .mode me.pc)
    ∧ (¬ (park ∧ taken) → s.inFlight me.uid ≠ [] → Becomes .endStrand s { me with wait := .ending })
    ∧ (s.inFlight me.uid = [] → ¬ park → ∃ t, exec .endStrand s = .next t
        ∧ left t (Sparse.allSegs me.chains)
        ∧ (∀ o, (s.slot s.myCx o).owner = some me.uid → (t.slot s.myCx o).owner = none)
        ∧ (t.part me.part).parked = s.myPart.parked
        ∧ (t.part me.part).ended = s.myPart.ended
            ++ (if me.origin.kind = .record then
                  [{ uid := me.uid, origin := me.origin, status := if me.mode = .user then 0x00 else 0xFF }] else []))
    ∧ (s.inFlight me.uid = [] → park → ¬ taken → ∃ t, exec .endStrand s = .next t
        ∧ left t (Sparse.allSegs (me.chains.filter fun c => c.2.stream.isNone))
        ∧ (∀ o, t.slot s.myCx o = s.slot s.myCx o)
        ∧ (t.part me.part).parked = s.myPart.parked
            ++ [{ parkid := me.parkid, cplx := s.myCx, uid := me.uid, sid := s.cur, kmasks := me.kmasks, chains := streams
                  grpmem := me.grpmem, origin := me.origin }]
        ∧ (t.part me.part).ended = s.myPart.ended)

/-! ### Strips and vector length (R33, R82-R85) -/

/-- R33 and R83-R85: with the grant that the occupancy point leaves, what each instruction writes; the nesting traps
come before the occupancy point. What an occupancy point makes of the grant. Which record waits, and with what avail, is
read as log 38 says. -/
def Obligations.StripLoops : Prop :=
  ∀ (s : State) (d a : SReg) (o : BitVec 13),
    let u := s.me.grant
    let av := s.avail s.myCx (sideOf s.cur)
    let cap := stripCap s s.occupancy.me.grant
    let g := Min.min (s.reg a).toNat (Min.min s.me.vlmax.toNat cap)
    let h := Min.min s.me.srem.toNat (Min.min s.me.vlmax.toNat cap)
    let keeps (t : State) : Prop :=
      OnlyMeAndGrant s t ∧
      { t.me with regs := s.me.regs, pc := s.me.pc, vl := s.me.vl, si := s.me.si, srem := s.me.srem
                  shead := s.me.shead, grant := s.me.grant } = { s.me with wait := .none }
    (s.me.shead ≠ 0 → Traps (.strip d a) s .strip s.me.pc)
    ∧ (s.me.shead = 0 → ∃ t, exec (.strip d a) s = .next t ∧ keeps t ∧ Wrote s t d (BitVec.ofNat 64 g)
        ∧ t.me.vl.toNat = g ∧ t.me.si.toNat = g ∧ t.me.srem.toNat = (s.reg a).toNat - g
        ∧ t.me.shead = s.me.pc + 4 ∧ t.me.pc = s.me.pc + 4)
    ∧ (∃ t, exec (.stripClose d) s = .next t ∧ keeps t ∧ Wrote s t d 0 ∧ t.me.shead = 0 ∧ t.me.vl = s.me.vl
        ∧ t.me.si = s.me.si ∧ t.me.srem = s.me.srem ∧ t.me.pc = s.me.pc + 4)
    ∧ (s.me.shead = 0 → Traps (.snext d) s .strip s.me.pc)
    ∧ (s.me.shead ≠ 0 → s.me.srem ≠ 0 → ∃ t, exec (.snext d) s = .next t ∧ keeps t ∧ Wrote s t d (BitVec.ofNat 64 h)
        ∧ t.me.vl.toNat = h ∧ t.me.si = s.me.si + BitVec.ofNat 64 h ∧ t.me.srem.toNat = s.me.srem.toNat - h
        ∧ t.me.shead = s.me.shead ∧ t.me.pc = s.me.shead)
    ∧ (s.me.shead ≠ 0 → s.me.srem = 0 → ∃ t, exec (.snext d) s = .next t ∧ keeps t ∧ Wrote s t d 0
        ∧ t.me.shead = 0 ∧ t.me.vl = s.me.vl ∧ t.me.si = s.me.si ∧ t.me.srem = 0 ∧ t.me.pc = s.me.pc + 4)
    ∧ (∃ t, exec (.setvl d a) s = .next t ∧ keeps t ∧ Wrote s t d (BitVec.ofNat 64 g) ∧ t.me.vl.toNat = g
        ∧ t.me.si = s.me.si ∧ t.me.srem = s.me.srem ∧ t.me.shead = s.me.shead ∧ t.me.pc = s.me.pc + 4)
    ∧ (∃ t, exec (.setvlx d a o) s = .next t ∧ keeps t ∧ Wrote s t d (BitVec.ofNat 64 g) ∧ t.me.vl.toNat = g
        ∧ t.me.si = s.me.si ∧ t.me.srem = s.me.srem ∧ t.me.shead = s.me.shead
        ∧ t.me.pc = if g = 0 then s.me.pc + wrap64 (o.toInt * 4) else s.me.pc + 4)
    ∧ (s.me.frags ≠ [] → s.occupancy = s)
    ∧ (s.me.frags = [] → s.waiter s.me.part s.myCx (sideOf s.cur) = none →
        s.occupancy.me.grant = if u < s.me.lanereq then Min.min s.me.lanereq (u + av) else u)
    ∧ (s.me.frags = [] → ∀ need avail, s.waiter s.me.part s.myCx (sideOf s.cur) = some (need, avail) →
        s.occupancy.me.grant = if s.me.lanemin < u then Max.max s.me.lanemin (u - (need - avail)) else u)
    ∧ { s.occupancy.me with grant := u } = s.me

/-! ### System registers (R61, R62, R91) -/

/-- R30, R34, R58, R61, R62, R91, R116, R144, R147, R231, R260, R272, R276 and R295: `sysr` of a register that the mode may
read gives its value; of one that it may not read, it traps with cause 0x05, and of a number that no register has, with
cause 0x01. What the registers of a strand, of its complex and partition (in monitor mode those that `psel` names) and of
the package hold. That rp reads 1 while `redlive` is not zero, or when it has been written 1, is log 43; that a monitor's
read of `pboot`, which the map marks WO and gives no value, answers 0 is log 29: both are the model's choice. -/
def Obligations.SysRegisterReads : Prop :=
  ∀ (s : State) (d : SReg) (r : BitVec 12),
    let n := r.toNat
    let me := s.me
    let c := s.cx s.sysCx
    let P := s.part s.sysPart
    let slot := c.slot c.osel.toNat
    let grp := P.group P.grpsel.toNat
    let tag := P.tag P.tagsel.toNat
    let exists_ := n ≤ 0x00C ∨ (0x100 ≤ n ∧ n ≤ 0x10C) ∨ (0x200 ≤ n ∧ n ≤ 0x206) ∨ (0x300 ≤ n ∧ n ≤ 0x306)
      ∨ (0x400 ≤ n ∧ n ≤ 0x40B) ∨ n = 0x410 ∨ n = 0x411 ∨ (0x500 ≤ n ∧ n ≤ 0x50F)
    let may : Prop := match me.mode with
      | .monitor => True
      | .supervisor => ¬ (n = 0x305 ∨ (0x50C ≤ n ∧ n ≤ 0x50F))
      | .user => n ≤ 0x00C ∨ n = 0x100 ∨ n = 0x101 ∨ n = 0x304
    let run := me.fragsel.getLsbD 4 = true
    let entry := me.frags.getD (me.fragsel.toNat % 16) {}
    let low := 64 * (me.fragsel.toNat / 2 ^ 16)
    let bits (k : Nat) (P : Word → Prop) : Prop := ∃ v, s.sysValue k = some v ∧ P v
    (exists_ → may → ∃ v, s.sysValue n = some v ∧ Gives (.sysr d r) s d v)
    ∧ (exists_ → ¬ may → Traps (.sysr d r) s .privilege me.pc)
    ∧ (¬ exists_ → Traps (.sysr d r) s .unassigned me.pc)
    ∧ s.sysValue 0x000 = some (me.vl.setWidth 64) ∧ s.sysValue 0x001 = some (me.vlmax.setWidth 64)
    ∧ s.sysValue 0x002 = some me.vstart ∧ s.sysValue 0x003 = some me.si ∧ s.sysValue 0x004 = some me.srem
    ∧ s.sysValue 0x005 = some me.shead
    ∧ bits 0x006 (fun v => v.getLsbD 26 = me.gm.gk ∧ v.getLsbD 25 = me.gm.inv ∧ v.extractLsb' 22 3 = me.gm.guard
        ∧ v.extractLsb' 17 5 = me.gm.fa ∧ v.extractLsb' 12 5 = me.gm.fb ∧ v.extractLsb' 9 3 = me.gm.rnd
        ∧ v.getLsbD 8 = me.gm.sat ∧ v.getLsbD 7 = me.gm.inf ∧ v.extractLsb' 4 3 = me.gm.g
        ∧ v.toNat < 2 ^ 27 ∧ v.toNat % 16 = 0)
    ∧ s.sysValue 0x007 = some (me.ctx.setWidth 64)
    ∧ s.sysValue 0x008 = some (me.fflags.setWidth 64) ∧ s.sysValue 0x009 = some (if me.farPool then 1 else 0)
    ∧ s.sysValue 0x00A = some (me.grpmem.setWidth 64) ∧ s.sysValue 0x00B = some (BitVec.ofNat 64 s.clock)
    ∧ s.sysValue 0x00C = some (BitVec.ofNat 64 (s.cur % 2048))
    ∧ bits 0x100 (fun v => ∀ i, i < 32 → v.getLsbD i = me.cdirty.getLsbD i
        ∧ v.getLsbD (32 + i) = me.streamed (BitVec.ofNat 5 i))
    ∧ s.sysValue 0x101 = some (me.mdirty.setWidth 64)
    ∧ s.sysValue 0x102 = some (Sparse.get 0 me.redsel.toNat me.redpart)
    ∧ s.sysValue 0x103 = some (BitVec.ofNat 64 me.frags.length) ∧ s.sysValue 0x104 = some (me.fragsel.setWidth 64)
    ∧ (run → s.sysValue 0x105 = some 0 ∧ s.sysValue 0x106 = some 0
        ∧ bits 0x107 fun v => ∀ i, i < 64 → v.getLsbD i = me.runMask.getLsbD (low + i))
    ∧ (¬ run → s.sysValue 0x105 = some entry.pc ∧ s.sysValue 0x106 = some entry.jn
        ∧ bits 0x107 fun v => ∀ i, i < 64 → v.getLsbD i = entry.mask.getLsbD (low + i))
    ∧ s.sysValue 0x108 = some (me.barst.setWidth 64) ∧ s.sysValue 0x109 = some (me.parkid.setWidth 64)
    ∧ s.sysValue 0x10A = some (me.redsel.setWidth 64) ∧ s.sysValue 0x10B = some (me.redlive.setWidth 64)
    ∧ s.sysValue 0x10C = some (me.memdone.setWidth 64)
    ∧ s.sysValue 0x200 = some me.epc ∧ s.sysValue 0x201 = some (me.ecause.setWidth 64) ∧ s.sysValue 0x202 = some me.eval
    ∧ bits 0x204 (fun v => v.getLsbD 3 = me.estatus.getLsbD 3
        ∧ v.getLsbD 2 = (me.estatus.getLsbD 2 || decide (me.redlive ≠ 0))
        ∧ v.getLsbD 1 = me.estatus.getLsbD 1 ∧ v.getLsbD 0 = me.estatus.getLsbD 0 ∧ v.toNat < 16)
    ∧ s.sysValue 0x205 = some me.evpos ∧ s.sysValue 0x206 = some me.escratch
    ∧ (me.mode ≠ .monitor → s.sysCx = s.myCx ∧ s.sysPart = me.part)
    ∧ (me.mode = .monitor → s.sysCx = s.psel.toNat / 2 ^ 16 % 128 ∧ s.sysPart = s.psel.toNat % 16)
    ∧ bits 0x300 (fun v => v.getLsbD 16 = c.lock ∧ v.extractLsb' 12 4 = c.reserve1 ∧ v.extractLsb' 8 4 = c.reserve0
        ∧ v.extractLsb' 4 4 = 0 ∧ v.extractLsb' 0 4 = c.split ∧ v.toNat < 2 ^ 17)
    ∧ bits 0x301 (fun v => v.getLsbD 63 = c.near.enable ∧ v.extractLsb' 59 4 = 0 ∧ v.extractLsb' 56 3 = c.near.bsize
        ∧ v.extractLsb' 32 24 = BitVec.ofNat 24 c.near.free.length ∧ v.extractLsb' 24 8 = 0
        ∧ v.extractLsb' 0 24 = c.near.count)
    ∧ bits 0x302 (fun v => v.getLsbD 63 = c.far.enable ∧ v.extractLsb' 60 3 = c.far.bsize ∧ v.extractLsb' 56 4 = 0
        ∧ v.extractLsb' 24 32 = c.far.base ∧ v.extractLsb' 0 24 = c.far.count)
    ∧ s.sysValue 0x303 = some (c.osel.setWidth 64)
    ∧ bits 0x304 (fun v => v.getLsbD 63 = slot.owner.isSome ∧ v.getLsbD 62 = slot.pending ∧ v.extractLsb' 59 3 = 0
        ∧ (slot.sid < 2048 → v.extractLsb' 48 11 = if slot.owner.isSome then BitVec.ofNat 11 slot.sid else 0)
        ∧ v.extractLsb' 41 7 = 0 ∧ v.getLsbD 40 = slot.geom.getLsbD 40 ∧ v.extractLsb' 37 3 = 0
        ∧ v.extractLsb' 0 37 = slot.geom.extractLsb' 0 37)
    ∧ s.sysValue 0x305 = some 0 ∧ s.sysValue 0x306 = some (BitVec.ofNat 64 (c.far.free.length % 2 ^ 24))
    ∧ s.sysValue 0x203 = some P.evec ∧ s.sysValue 0x400 = some P.qbase ∧ s.sysValue 0x401 = some P.gbase
    ∧ s.sysValue 0x402 = some (P.grpsel.setWidth 64)
    ∧ (P.grpsel = 255 → s.sysValue 0x403 = some 0)
    ∧ (P.grpsel ≠ 255 → bits 0x403 fun v => v.getLsbD 63 = grp.valid ∧ v.getLsbD 62 = grp.cores ∧ v.extractLsb' 44 18 = 0
        ∧ v.extractLsb' 32 12 = grp.members ∧ v.extractLsb' 20 12 = grp.arrived ∧ v.extractLsb' 8 12 = grp.resident
        ∧ v.extractLsb' 0 8 = grp.gen)
    ∧ s.sysValue 0x404 = some (P.tagcap.setWidth 64) ∧ s.sysValue 0x405 = some P.ptroot
    ∧ s.sysValue 0x406 = some P.cellbase ∧ s.sysValue 0x407 = some P.cellsize
    ∧ s.sysValue 0x408 = some (P.tagsel.setWidth 64)
    ∧ bits 0x409 (fun v => v.extractLsb' 40 22 = 0
        ∧ v.extractLsb' 0 40 = BitVec.ofNat 40 (P.cells.countP fun k => k.tag == P.tagsel.toNat)
        ∧ (P.tagsel = 0 → v.extractLsb' 62 2 = 1) ∧ (tag = .live → v.extractLsb' 62 2 = 1)
        ∧ (∀ k, tag = .draining k → v.extractLsb' 62 2 = 2)
        ∧ (tag = .free → v.extractLsb' 62 2 = if P.tagcap.toNat < P.tagsel.toNat then 3 else 0))
    ∧ s.sysValue 0x40A = some (BitVec.ofNat 64 P.cells.length) ∧ s.sysValue 0x40B = some (P.gcount.setWidth 64)
    ∧ bits 0x410 (fun v => v.getLsbD 63 = P.preqBusy ∧ v.extractLsb' 59 4 = 0 ∧ v.extractLsb' 56 3 = P.preqResult
        ∧ v.extractLsb' 11 45 = 0 ∧ v.extractLsb' 0 11 = P.preqTarget)
    ∧ s.sysValue 0x411 = some 0
    ∧ s.sysValue 0x500 = some (P.partid.setWidth 64) ∧ s.sysValue 0x501 = some P.cplxlo ∧ s.sysValue 0x502 = some P.cplxhi
    ∧ (∀ k, k < 8 → s.sysValue (0x503 + k) = some (Sparse.get 0 k P.pbound)) ∧ s.sysValue 0x50B = some P.keyrange
    ∧ s.sysValue 0x50C = some s.psel ∧ s.sysValue 0x50D = some s.mvec
    ∧ bits 0x50E (fun v => v.extractLsb' 12 52 = 0 ∧ v.extractLsb' 8 4 = s.qpwrReady ∧ v.extractLsb' 4 4 = 0
        ∧ v.extractLsb' 0 4 = s.qpwrOn)
    ∧ s.sysValue 0x50F = some 0

/-- R59, R61, R62, R91, R144, R146, R147 and R188: writes of the registers of a strand, through `sysw` and through the rows
that the opcode table gives them; what is written is the only change. A register that the mode may not write traps with
cause 0x05, a number that no register has with cause 0x01. That a 1 written to rp while `redlive` is 0 is kept is log 43;
that `epc`, `shead` and the fragment PCs keep all 64 bits as written is log 40. -/
def Obligations.SysStrandWrites : Prop :=
  ∀ (s : State) (d : SReg) (r : BitVec 12),
    let v := s.reg d
    let n := r.toNat
    let me := s.me
    let on (m : Strand) : Strand := { m with pc := me.pc + 4, wait := .none }
    let sys (k : BitVec 12) (m : Strand) : Prop := Becomes (.sysw d k) s (on m)
    let both (i : Instr) (k : BitVec 12) (m : Strand) : Prop := Becomes i s (on m) ∧ sys k m
    let may : Prop := ¬ (n = 0x00A ∨ n = 0x00B ∨ n = 0x00C ∨ n = 0x304 ∨ n = 0x306 ∨ n = 0x409 ∨ n = 0x40A)
      ∧ match me.mode with
        | .monitor => True
        | .supervisor => ¬ (n = 0x305 ∨ n = 0x404 ∨ n = 0x406 ∨ n = 0x407 ∨ (0x500 ≤ n ∧ n ≤ 0x50F))
        | .user => n = 0x006 ∨ n = 0x008 ∨ n = 0x009
    let run := me.fragsel.getLsbD 4 = true
    let at_ := me.fragsel.toNat % 16
    let entry := me.frags.getD at_ {}
    let named := ¬ run ∧ at_ < me.frags.length
    let low := 64 * (me.fragsel.toNat / 2 ^ 16)
    let window (old m : Mask) : Prop := ∀ e, e < 65536 →
      m.getLsbD e = if low ≤ e ∧ e < low + 64 then v.getLsbD (e - low) else old.getLsbD e
    let bad := badMode (v.toNat / 2 ^ 17 % 32) (v.toNat / 2 ^ 12 % 32) (v.toNat / 2 ^ 9 % 8) (v.toNat / 16 % 8)
    ((s.sysValue n).isSome → ¬ may → Traps (.sysw d r) s .privilege me.pc)
    ∧ (s.sysValue n = none → Traps (.sysw d r) s .unassigned me.pc)
    ∧ (me.mode ≠ .user →
      both (.vlWrite d) 0x000 { me with vl := BitVec.ofNat 16 (Min.min v.toNat me.vlmax.toNat) }
      ∧ both (.vlmaxWrite d) 0x001 (if v.toNat % 65536 = 0 then me else
          { me with vlmax := v.setWidth 16
                    vl := BitVec.ofNat 16 (Min.min me.vl.toNat (v.toNat % 65536)) })
      ∧ both (.sheadWrite d) 0x005 { me with shead := v }
      ∧ both (.fragcntWrite d) 0x103 (if 16 < v.toNat then me else
          { me with
            frags := me.frags.take v.toNat ++ List.replicate (v.toNat - me.frags.length) {}
            runMask := if v.toNat = 0 then BitVec.allOnes 65536 else me.runMask })
      ∧ sys 0x002 { me with vstart := v } ∧ sys 0x003 { me with si := v } ∧ sys 0x004 { me with srem := v }
      ∧ sys 0x007 { me with ctx := v.setWidth 16 }
      ∧ sys 0x100 { me with cdirty := v.setWidth 32 } ∧ sys 0x101 { me with mdirty := v.setWidth 8 }
      ∧ (∃ p, sys 0x102 { me with redpart := p }
          ∧ ∀ j, Sparse.get 0 j p = if j = me.redsel.toNat then v else Sparse.get 0 j me.redpart)
      ∧ sys 0x104 { me with fragsel := v.setWidth 26 &&& 0x3FF001F }
      ∧ (named → sys 0x105 { me with frags := me.frags.set at_ { entry with pc := v } }
          ∧ (v.getLsbD 1 = false → sys 0x106 { me with frags := me.frags.set at_ { entry with jn := v } })
          ∧ (v.getLsbD 1 = true → sys 0x106 me)
          ∧ ∃ m, window entry.mask m ∧ sys 0x107 { me with frags := me.frags.set at_ { entry with mask := m } })
      ∧ (¬ named → sys 0x105 me ∧ sys 0x106 me ∧ (¬ (run ∧ me.frags ≠ []) → sys 0x107 me))
      ∧ (run → me.frags ≠ [] → ∃ m, window me.runMask m ∧ sys 0x107 { me with runMask := m })
      ∧ sys 0x108 { me with barst := v.setWidth 36 } ∧ sys 0x109 { me with parkid := v.setWidth 16 }
      ∧ sys 0x10A { me with redsel := v.setWidth 3 }
      ∧ sys 0x10B { me with redlive := v.setWidth 8
                            estatus := if v.toNat % 256 = 0 then me.estatus &&& 0xB else me.estatus ||| 4 }
      ∧ sys 0x10C { me with memdone := v.setWidth 8 }
      ∧ sys 0x200 { me with epc := v } ∧ sys 0x201 { me with ecause := v.setWidth 8 } ∧ sys 0x202 { me with eval := v }
      ∧ sys 0x204 { me with estatus := (me.estatus &&& 8) ||| (v.setWidth 4 &&& 7) }
      ∧ sys 0x205 { me with evpos := v } ∧ sys 0x206 { me with escratch := v })
    ∧ sys 0x008 { me with fflags := v.setWidth 6 }
    ∧ sys 0x009 { me with farPool := v.getLsbD 0 }
    ∧ (bad = true → Traps (.gmWrite d) s .mode me.pc ∧ Traps (.sysw d 0x006) s .mode me.pc)
    ∧ (bad = false →
        both (.gmWrite d) 0x006 { me with gm :=
          { gk := v.getLsbD 26, inv := v.getLsbD 25, guard := v.extractLsb' 22 3, fa := v.extractLsb' 17 5
            fb := v.extractLsb' 12 5, rnd := v.extractLsb' 9 3, sat := v.getLsbD 8, inf := v.getLsbD 7
            g := v.extractLsb' 4 3 } })

/-- R28, R30, R34, R61, R62, R116, R253, R256, R272, R276, R284 and R295, with R35, R157, R278 and R302: writes of the
registers of a complex, of a partition and of the package, in a mode that may write them, through the rows that the opcode
table gives them and through `sysw`; a write changes that register and what follows from it, and nothing else. After a
write of `grpent` whatever can be placed is ready, a group that the write has completed among it. What the manual does not
say of a `pboot` that finds no place is log 29; that an entry address drops its bits 1:0 and `cellbase` keeps all its bits is
log 40. -/
def Obligations.SysSharedWrites : Prop :=
  ∀ (s : State) (d : SReg) (far : Bool),
    let v := s.reg d
    let w := v.toNat
    let x := s.sysCx
    let c := s.cx x
    let p := s.sysPart
    let P := s.part p
    let target := s.strand (w % 2048)
    let same (k : BitVec 12) (i : Instr) : Prop := exec (.sysw d k) s = exec i s
    same 0x300 (.lanesplitWrite d) ∧ same 0x301 (.poolDescriptorWrite false d) ∧ same 0x302 (.poolDescriptorWrite true d)
    ∧ same 0x305 (.poolReset d) ∧ same 0x403 (.grpentWrite d) ∧ same 0x404 (.tagcapWrite d) ∧ same 0x405 (.ptrootWrite d)
    ∧ same 0x406 (.cellStoreWrite false d) ∧ same 0x407 (.cellStoreWrite true d) ∧ same 0x410 (.preqWrite d)
    ∧ same 0x411 (.gnodeWrite d) ∧ same 0x50C (.pselWrite d) ∧ same 0x50E (.qpwrWrite d) ∧ same 0x50F (.pbootWrite d)
    ∧ (v.getLsbD 63 = true → same 0x50C (.partitionCreate d))
    ∧ (s.me.mode ≠ .user →
      PutsPart (.sysw d 0x203) s p { P with evec := v &&& ~~~3 }
      ∧ PutsPart (.sysw d 0x400) s p { P with qbase := v } ∧ PutsPart (.sysw d 0x401) s p { P with gbase := v }
      ∧ PutsPart (.sysw d 0x402) s p { P with grpsel := v.setWidth 8 }
      ∧ PutsPart (.sysw d 0x408) s p { P with tagsel := v.setWidth 16 }
      ∧ PutsPart (.sysw d 0x40B) s p { P with gcount := v.setWidth 16 }
      ∧ PutsCx (.sysw d 0x303) s x (· = { c with osel := v.setWidth 6 }))
    ∧ (s.me.mode = .monitor →
      PutsPart (.sysw d 0x500) s p { P with partid := v.setWidth 4 }
      ∧ PutsPart (.sysw d 0x501) s p { P with cplxlo := v } ∧ PutsPart (.sysw d 0x502) s p { P with cplxhi := v }
      ∧ (∀ k, k < 8 → ∃ b, PutsPart (.sysw d (0x503 + BitVec.ofNat 12 k)) s p { P with pbound := b }
          ∧ ∀ j, Sparse.get 0 j b = if j = k then v else Sparse.get 0 j P.pbound)
      ∧ PutsPart (.sysw d 0x50B) s p { P with keyrange := v &&& 0x3FFF3FFF }
      ∧ Finishes (.sysw d 0x50D) s fun t => { t with strands := s.strands, order := s.order } = { s with mvec := v &&& ~~~3 })
    ∧ (s.me.mode ≠ .user →
      PutsCx (.lanesplitWrite d) s x (fun c' =>
        if 8 < bitsOf w 11 8 + bitsOf w 15 12 then c' = c
        else
          let n := bitsOf w 3 0
          let m := c.split.toNat
          let free := bitOf w 16 = true ∧ n ≤ 8 ∧ (if n ≤ m then m - n ≤ s.freeUnits x 0 else n - m ≤ s.freeUnits x 1)
          c' = { c with
            lock := bitOf w 16, reserve0 := BitVec.ofNat 4 (bitsOf w 11 8), reserve1 := BitVec.ofNat 4 (bitsOf w 15 12)
            split := if free then BitVec.ofNat 4 n else c.split })
      ∧ (let bs := if far then bitsOf w 62 60 else bitsOf w 58 56
         let n := bitsOf w 23 0
         let tooBig := bs = 7 ∨ (if far then 2 ^ 30 else 2 ^ 22) < n * (64 * 2 ^ bs) ∨ (far = true ∧ 8388608 < n)
         let old := c.pool far
         let base : BitVec 32 := if far then BitVec.ofNat 32 (bitsOf w 55 24) else old.base
         let moves := bs ≠ old.bsize.toNat ∨ base ≠ old.base ∨ n ≠ old.count.toNat
         let held := old.enable = true ∧ old.free.length ≠ old.count.toNat
         let off := v.getLsbD 63 = false
         let put : Pool :=
           { old with enable := v.getLsbD 63, bsize := BitVec.ofNat 3 bs, base := base, count := BitVec.ofNat 24 n }
         (tooBig → PutsCx (.poolDescriptorWrite far d) s x (· = c))
         ∧ (held → moves ∨ off → PutsCx (.poolDescriptorWrite far d) s x (· = c))
         ∧ (¬ tooBig → ¬ (held ∧ (moves ∨ off)) → off ∨ (old.enable = true ∧ ¬ moves) →
            PutsCx (.poolDescriptorWrite far d) s x (· = c.setPool far put))
         ∧ (¬ tooBig → ¬ (held ∧ (moves ∨ off)) → ¬ off → old.enable = false ∨ moves →
            PutsCx (.poolDescriptorWrite far d) s x (· =
              { c.setPool far { put with free := List.range n, refs := [] } with
                reclaim := c.reclaim.filter fun id => idFar id != far })))
      ∧ PutsPart (.ptrootWrite d) s p { P with ptroot := v &&& 0xFFFFFFFFC000 }
      ∧ (P.grpsel = 255 ∨ (P.group P.grpsel.toNat).resident ≠ 0 ∨ (P.group P.grpsel.toNat).arrived ≠ 0 →
          ∃ t, exec (.grpentWrite d) s = .next t ∧ Passed s t
            ∧ (t.part p).group P.grpsel.toNat = P.group P.grpsel.toNat)
      ∧ (P.grpsel ≠ 255 → (P.group P.grpsel.toNat).resident = 0 → (P.group P.grpsel.toNat).arrived = 0 →
          ∃ t, exec (.grpentWrite d) s = .next t ∧ Passed s t
            ∧ (∀ k, k ≠ s.cur → (s.strand k).wait ≠ .wfi → t.strand k = s.strand k)
            ∧ (t.part p).group P.grpsel.toNat =
              { P.group P.grpsel.toNat with
                valid := v.getLsbD 63, cores := v.getLsbD 62, members := BitVec.ofNat 12 (bitsOf w 43 32) }
            ∧ (∀ r, r ∈ t.readyNow p → r ∈ (t.part p).ready)
            ∧ (P.queues = [] → P.nodes = [] → ∀ l, t.byteAt l = s.byteAt l))
      ∧ (P.preqBusy = true → PutsPart (.preqWrite d) s p P)
      ∧ (P.preqBusy = false → target.resident = true → target.part = p ∨ s.me.mode = .monitor →
          ∃ t, exec (.preqWrite d) s = .next t
            ∧ t.part p = { P with preqBusy := true, preqResult := 0, preqTarget := v.setWidth 11 }
            ∧ (∀ q, q ≠ p → t.part q = s.part q)
            ∧ (∀ k, k ≠ s.cur → t.strand k = if k = w % 2048 then { target with preq := true } else s.strand k)
            ∧ t.me = { s.me with preq := s.me.preq || decide (s.cur = w % 2048), pc := s.me.pc + 4, wait := .none }
            ∧ { t with strands := s.strands, parts := s.parts, order := s.order } = s)
      ∧ (P.preqBusy = false → target.resident = false ∨ (target.part ≠ p ∧ s.me.mode ≠ .monitor) →
          ∃ t, exec (.preqWrite d) s = .next t ∧ Passed s t
            ∧ t.part p = { P with preqBusy := false, preqResult := 4, preqTarget := v.setWidth 11 }
            ∧ (∀ q, q ≠ p → t.part q = s.part q)
            ∧ (∀ k, k ≠ s.cur → (s.strand k).wait ≠ .wfi → t.strand k = s.strand k)
            ∧ { t with strands := s.strands, parts := s.parts, order := s.order } = s))
    ∧ (s.me.mode = .monitor →
      PutsPart (.tagcapWrite d) s p { P with tagcap := v.setWidth 16 }
      ∧ PutsPart (.cellStoreWrite false d) s p (if P.tagged then P else { P with cellbase := v })
      ∧ PutsPart (.cellStoreWrite true d) s p (if P.tagged then P else { P with cellsize := v })
      ∧ (s.poolsUsed x = true → PutsCx (.poolReset d) s x (· = c))
      ∧ (s.poolsUsed x = false → c.reclaim ≠ [] → Becomes (.poolReset d) s { s.me with wait := .poolReset })
      ∧ (s.poolsUsed x = false → c.reclaim = [] → PutsCx (.poolReset d) s x (· =
          { c with
            near := if v.getLsbD 0 then { c.near with free := List.range c.near.count.toNat, refs := [] } else c.near
            far := if v.getLsbD 1 then { c.far with free := List.range c.far.count.toNat, refs := [] } else c.far })))
    ∧ (∀ k, s.me.mode ≠ .user → s.nodeCopy s.sysPart (w % 65536) = some k →
      (s.part s.sysPart).faultedNodes.contains (w % 65536) = true →
      Finishes (.gnodeWrite d) s fun t =>
        (t.part s.sysPart).faultedNodes.contains (w % 65536) = false
        ∧ ∃ k' ∈ t.copies, k'.id = k.id ∧ k'.todo = k.failed ∧ k'.failed = [] ∧ k'.fault = none)
    ∧ (s.me.mode = .monitor →
      (v.getLsbD 63 = false → Finishes (.pselWrite d) s fun t =>
        { t with strands := s.strands, order := s.order } = { s with psel := v &&& 0x7F000F })
      ∧ (s.ofPart (w % 16) ≠ [] →
          Finishes (.partitionCreate d) s fun t => { t with strands := s.strands, order := s.order } = s)
      ∧ (s.ofPart (w % 16) = [] → (∃ k ∈ s.copies, k.part = w % 16 ∧ k.todo ≠ [] ∧ ∃ u, k.owner = .strand u) →
          Becomes (.partitionCreate d) s { s.me with wait := .create })
      ∧ (s.ofPart (w % 16) = [] →
          (∀ k ∈ s.copies, k.part = w % 16 → k.todo ≠ [] → ∀ u, k.owner ≠ .strand u) →
          (∃ t, exec (.partitionCreate d) s = .next t ∧ t.me.pc = s.me.pc + 4
            ∧ t.part (w % 16) = Partition.reset ∧ t.psel = v &&& 0x7F000F)
          ∧ ((s.part (w % 16)).parked = [] → Finishes (.partitionCreate d) s fun t =>
            t.part (w % 16) = Partition.reset ∧ (∀ q, q ≠ w % 16 → t.part q = s.part q)
            ∧ (∀ k, k ∈ t.copies ↔ k ∈ s.copies ∧ ∀ a b, k.owner ≠ .node (w % 16) a b)
            ∧ { t with strands := s.strands, parts := s.parts, copies := s.copies, order := s.order } =
                { s with psel := v &&& 0x7F000F }))
      ∧ (∃ t, exec (.qpwrWrite d) s = .next t ∧ Passed s t ∧ (∀ k, k ≠ s.cur → t.strand k = s.strand k)
          ∧ (∀ q, q = 1 ∨ q = 2 ∨ q = 3 →
            (v.getLsbD q = true → t.qpwrOn.getLsbD q = true)
            ∧ (v.getLsbD q = false → s.mayGate q = true → t.qpwrOn.getLsbD q = false ∧ t.qpwrReady.getLsbD q = false)
            ∧ (v.getLsbD q = false → s.mayGate q = false → t.qpwrOn.getLsbD q = s.qpwrOn.getLsbD q))
          ∧ ∀ l, (∀ q, q = 1 ∨ q = 2 ∨ q = 3 → v.getLsbD q = false → s.mayGate q = true → l / 2 ^ 37 ≠ q) →
            t.byteAt l = s.byteAt l)
      ∧ ∀ x sid, s.me.resident = true → x ≠ 0 → (s.part s.sysPart).firstCx = some x → s.freeSlot x 0 = some sid → s.freeUnits x 0 ≠ 0 →
          ∃ t, exec (.pbootWrite d) s = .next t ∧ t.me.pc = s.me.pc + 4
            ∧ (t.strand sid).resident = true ∧ (t.strand sid).mode = .supervisor ∧ (t.strand sid).part = s.sysPart
            ∧ (t.strand sid).pc = v &&& ~~~3 ∧ (∀ r, (t.strand sid).reg r =
                if r = 1 then v &&& ~~~3 else if r = 2 then 0x100 else 0)
            ∧ (t.strand sid).vlmax = 4096 ∧ (t.strand sid).grant = s.freeUnits x 0 ∧ (t.strand sid).lanereq = 8
            ∧ (t.strand sid).lanemin = 1 ∧ (t.strand sid).prio = 3)

/-! ### Convoys (R58, R63, R86, R87, R130, R140-R149) -/

/-- R64, R65 and R87: `grp` and `grpk` write `gm`, and trap with cause 0x04 when a mode field is reserved; alone before a
scalar-class instruction they do nothing else. A convoy with a defective member traps before any of it executes, with
`eval` the address of the first such member and the cause of its first defect: its word cannot be fetched, or is no
instruction, or it suits no format, writes a stream register or breaks a limit; `epc` is the address at which the convoy
begins, that of a `grp` or `grpk` before its members. `m0` counts as a mask register among the limits, which is the model's
reading (log 24). -/
def Obligations.GroupModes : Prop :=
  (∀ (s : State) (m : GrpMode),
    let bad := badMode m.fa.toNat m.fb.toNat m.rnd.toNat m.g.toNat
    let gm (gk : Bool) : Gm :=
      { gk := gk, inv := m.inv, guard := m.guard, fa := m.fa, fb := m.fb, rnd := m.rnd, sat := m.sat, inf := m.inf, g := m.g }
    (bad = true → Traps (.grp m) s .mode s.me.pc ∧ Traps (.grpk m) s .mode s.me.pc)
    ∧ (bad = false → ∀ i, i = Instr.grp m ∨ i = Instr.grpk m →
        let at_ := s.me.pc + 4
        (∀ c note, s.fetch s.cur at_.toNat = .error (c, note) → TrapsFrom i s (s.noted note) c at_)
        ∧ ∀ w, s.fetch s.cur at_.toNat = .ok w → convoyWord w.toNat = true →
          (decodeWord w = .error .unassigned → Traps i s .unassigned at_)
          ∧ (decodeWord w = .error .reserved → Traps i s .reserved at_))
    ∧ (bad = false → s.scalarNext →
        Becomes (.grp m) s { s.me with gm := gm false, pc := s.me.pc + 4, wait := .none }
        ∧ Becomes (.grpk m) s { s.me with gm := gm true, pc := s.me.pc + 4, wait := .none }))
  ∧ ∀ (i x : Instr) (s v u : State) (ms : List Member) (p : Nat),
    let at_ := s.me.pc + BitVec.ofNat 64 (4 * p)
    s.gathers i ms → Begins i s x v u → (∀ q m, q < p → ms[q]? = some m → s.soundAt ms q m) →
    (p = ms.length → (∀ m ∈ ms, m.closes = false) →
      (∀ c note, s.fetch s.cur at_.toNat = .error (c, note) → TrapsFrom x v (v.noted note) c at_)
      ∧ ∀ w, s.fetch s.cur at_.toNat = .ok w → convoyWord w.toNat = true →
        (decodeWord w = .error .unassigned → Traps x v .unassigned at_)
        ∧ (decodeWord w = .error .reserved → Traps x v .reserved at_))
    ∧ ∀ m, ms[p]? = some m →
      (m.fits = false → Traps x v .mode at_)
      ∧ (m.fits = true → (∃ c ∈ m.writes, s.me.streamed c = true) → Traps x v .stream at_)
      ∧ (m.fits = true → (∀ c ∈ m.writes, s.me.streamed c = false) → s.breaksLimit ms p m → Traps x v .convoy at_)

/-- R95-R105, R109, R112-R115 and R140-R144: what the element-wise and number instructions, the comparisons, the reductions
and a K-group of a matrix product compute of elements with the patterns `p`, `q` and `o` (an old element of the
destination), and the formats that each accepts; the scalar forms take the low bits of sB for `q`. An integer result wraps,
or saturates and raises sv, by R96; a floating one is the exact real result rounded once, by R101-R105. What a format's
patterns stand for, its greatest magnitude and its NaN are those of R97, R99, R100 and R105. A tie at which neither neighbour
has an even significand, as p1s and p1u have, goes to the greater (log 81); a signalling NaN in a K-group sets nv (log 16);
the dz of a zero divisor joins the nv of an infinity that the format lacks (log 5): these are the model's readings. -/
def Obligations.IntegerElements : Prop :=
  ∀ (g : Gm) (d a b : CReg) (r s : SReg) (n : MReg) (x : Bool) (p q o e : Nat),
    let fa := g.fmtA
    let fb := g.fmtB
    let W := fa.bits
    let A := fa.int p
    let B := fb.int q
    let D := fa.int o
    let X := fa.val g.inf p
    let Y := fb.val g.inf q
    let Z := fa.val g.inf o
    let mod (v : Int) : Nat := (v % 2 ^ W).toNat
    let runs (i : Instr) (bound : List Src) (w : Nat) (sc : Option (SReg × Nat)) (se : Option MReg) (ok : Bool)
        (P : (Nat → List Nat → Nat → Bool → Nat × Flags) → Prop) : Prop :=
      ∃ m op, memberOf g i = some m ∧ m.body = .map op sc se x ∧ m.bound = bound ∧ m.dests = [(d, w)] ∧ m.fits = ok ∧ P op
    let one (i : Instr) (ok : Bool) (P : Nat × Flags → Prop) : Prop :=
      runs i [⟨a, fa⟩] W none none ok fun op => P (op e [p] 0 false)
    let two (i j : Instr) (ok : Bool) (P : Nat × Flags → Prop) : Prop :=
      runs i [⟨a, fa⟩, ⟨b, fb⟩] W none none ok (fun op => P (op e [p, q] 0 false))
      ∧ runs j [⟨a, fa⟩] W (some (r, fb.bits)) none ok fun op => P (op e [p] q false)
    let three (i j : Instr) (ok : Bool) (P : Nat × Flags → Prop) : Prop :=
      runs i [⟨a, fa⟩, ⟨b, fb⟩, ⟨d, fa⟩] W none none ok (fun op => P (op e [p, q, o] 0 false))
      ∧ runs j [⟨a, fa⟩, ⟨d, fa⟩] W (some (r, fb.bits)) none ok fun op => P (op e [p, o] q false)
    let inside : Prop := 0 ≤ B ∧ B < W
    let compares (c : Cond) (P : Bool × Flags → Prop) : Prop :=
      (∃ m op, memberOf g (.vcmp n a b c) = some m ∧ m.body = .cmp op none ∧ m.bound = [⟨a, fa⟩, ⟨b, fb⟩] ∧ m.fits = true
        ∧ P (op p q))
      ∧ ∃ m op, memberOf g (.vcmpScalar n a r c) = some m ∧ m.body = .cmp op (some (r, fb.bits)) ∧ m.bound = [⟨a, fa⟩]
        ∧ m.fits = true ∧ P (op p q)
    let reduces (i : Instr) (P : Nat × Flags → Prop) : Prop :=
      ∃ m comb, memberOf g i = some m ∧ m.body = .red comb s ∧ m.bound = [⟨a, fa⟩] ∧ m.swrite = some r ∧ m.fits = true
        ∧ P (comb p o)
    let anyNan : Prop := X.isNan = true ∨ Y.isNan = true
    let signals := X.isSig || Y.isSig
    let asks (c : Cond) (unordered : Bool) (flags : Flags) (P : Prop) : Prop :=
      compares c fun y => (anyNan → y = (unordered, flags)) ∧ (¬ anyNan → (y.1 = true ↔ P) ∧ y.2 = 0)
    p < 2 ^ W → q < 2 ^ fb.bits → o < 2 ^ W →
    (fa.isInt = true → fb.isInt = true →
      two (.vadd d a b x) (.vaddScalar d a r x) true (WritesInt fa g.sat (A + B))
      ∧ two (.vsub d a b x) (.vsubScalar d a r x) true (WritesInt fa g.sat (A - B))
      ∧ two (.vmul d a b x) (.vmulScalar d a r x) true (WritesInt fa g.sat (A * B))
      ∧ three (.vfma d a b x) (.vfmaScalar d a r x) true (WritesInt fa g.sat (D + A * B))
      ∧ three (.vfms d a b x) (.vfmsScalar d a r x) true (WritesInt fa g.sat (D - A * B))
      ∧ two (.vdiv d a b x) (.vdivScalar d a r x) true
          (fun y => if B = 0 then y = (2 ^ W - 1, 0) else WritesInt fa g.sat (A.tdiv B) y)
      ∧ two (.vmin d a b x) (.vminScalar d a r x) true (WritesInt fa g.sat (Min.min A B))
      ∧ two (.vmax d a b x) (.vmaxScalar d a r x) true (WritesInt fa g.sat (Max.max A B))
      ∧ two (.vand d a b x) (.vandScalar d a r x) (W == fb.bits) (· = (p &&& q, 0))
      ∧ two (.vor d a b x) (.vorScalar d a r x) (W == fb.bits) (· = (p ||| q, 0))
      ∧ two (.vxor d a b x) (.vxorScalar d a r x) (W == fb.bits) (· = (p ^^^ q, 0))
      ∧ two (.vshl d a b x) (.vshlScalar d a r x) true (· = (if inside then p * 2 ^ B.toNat % 2 ^ W else 0, 0))
      ∧ two (.vshr d a b x) (.vshrScalar d a r x) true (· = (if inside then p / 2 ^ B.toNat else 0, 0))
      ∧ two (.vsra d a b x) (.vsraScalar d a r x) true
          (· = (if inside then mod (signedOf W p / 2 ^ B.toNat) else if p.testBit (W - 1) then 2 ^ W - 1 else 0, 0))
      ∧ three (.vfsh d a b x) (.vfshScalar d a r x) true (· = ((p * 2 ^ W + o) / 2 ^ (B % W).toNat % 2 ^ W, 0))
      ∧ two (.vbext d a b x) (.vbextScalar d a r x) (decide (16 ≤ fb.bits))
          (· = (p / 2 ^ (B % 64).toNat % 2 ^ ((B / 64 % 64).toNat + 1), 0))
      ∧ one (.vabs d a x) true (WritesInt fa g.sat |A|) ∧ one (.vneg d a x) true (WritesInt fa g.sat (-A))
      ∧ one (.vpopc d a x) true (· = ((List.range W).countP fun k => p.testBit k, 0))
      ∧ one (.vclz d a x) true (fun y => y.1 ≤ W ∧ p < 2 ^ (W - y.1) ∧ (y.1 < W → 2 ^ (W - y.1 - 1) ≤ p) ∧ y.2 = 0)
      ∧ runs (.vidx d x) [] W none none true (fun op => WritesInt fa g.sat e (op e [] 0 false))
      ∧ compares .eq (· = (A == B, 0)) ∧ compares .ne (· = (A != B, 0)) ∧ compares .lt (· = (decide (A < B), 0))
      ∧ compares .le (· = (decide (A ≤ B), 0)) ∧ compares .ltu (· = (decide (p < q), 0))
      ∧ compares .leu (· = (decide (p ≤ q), 0))
      ∧ reduces (.vredsum r a s) (WritesInt fa g.sat (A + D)) ∧ reduces (.vredmax r a s) (WritesInt fa g.sat (Max.max A D))
      ∧ reduces (.vredmin r a s) (WritesInt fa g.sat (Min.min A D)))
    ∧ (fa.isInt = false → (∃ k, Fmt.ofCode k = some fa) →
      (fb.isInt = false → (∃ k, Fmt.ofCode k = some fb) →
        two (.vadd d a b x) (.vaddScalar d a r x) true (SumOf fa g.num false X Y)
        ∧ two (.vsub d a b x) (.vsubScalar d a r x) true (SumOf fa g.num true X Y)
        ∧ two (.vmul d a b x) (.vmulScalar d a r x) true (ProductOf fa g.num X Y)
        ∧ three (.vfma d a b x) (.vfmaScalar d a r x) true (FusedOf fa g.num false X Y Z)
        ∧ three (.vfms d a b x) (.vfmsScalar d a r x) true (FusedOf fa g.num true X Y Z)
        ∧ two (.vdiv d a b x) (.vdivScalar d a r x) true (QuotientOf fa g.num X Y)
        ∧ two (.vmin d a b x) (.vminScalar d a r x) true (PickOf fa g.num true X Y)
        ∧ two (.vmax d a b x) (.vmaxScalar d a r x) true (PickOf fa g.num false X Y)
        ∧ asks .eq false (if signals then flNv else 0) (X.Same Y) ∧ asks .ne true (if signals then flNv else 0) (¬ X.Same Y)
        ∧ asks .lt false flNv (X.Less Y) ∧ asks .le false flNv (X.Less Y ∨ X.Same Y))
      ∧ one (.vabs d a x) true (WritesVal fa g.num X.abs) ∧ one (.vneg d a x) true (WritesVal fa g.num X.neg)
      ∧ runs (.vidx d x) [] W none none true (fun op => WritesReal fa g.num false e (op e [] 0 false))
      ∧ reduces (.vredsum r a s) (SumOf fa g.num false X Z) ∧ reduces (.vredmax r a s) (PickOf fa g.num false X Z)
      ∧ reduces (.vredmin r a s) (PickOf fa g.num true X Z)
      ∧ one (.vexp2 d a x) fa.spec.ieee (fun y => fa.spec.ieee = true → PowerOf fa g.num X y)
      ∧ one (.vrcp d a x) fa.spec.ieee (fun y => fa.spec.ieee = true → QuotientOf fa g.num (.fin false 1 0) X y)
      ∧ one (.vsqrt d a x) fa.spec.ieee (fun y => fa.spec.ieee = true → RootOf fa g.num X y))
    ∧ ((∃ k, Fmt.ofCode k = some fa) → (∃ k, Fmt.ofCode k = some fb) →
      one (.vmv d a x) true (· = (p, 0))
      ∧ runs (.vmvScalar d r x) [] W (some (r, W)) none true (fun op => op e [] p false = (p, 0))
      ∧ (∀ t, runs (.vsel d a b n x) [⟨a, fa⟩, ⟨b, fb⟩] W none (some n) (W == fb.bits)
            (fun op => op e [p, q] 0 t = (if t then p else q, 0))
          ∧ runs (.vselScalar d a r n x) [⟨a, fa⟩] W (some (r, fb.bits)) (some n) (W == fb.bits)
            fun op => op e [p] q t = (if t then p else q, 0))
      ∧ runs (.vcvt d a x) [⟨a, fa⟩] fb.bits none none true (fun op => ConvertsTo fb g.num fa.isInt X (op e [p] 0 false))
      ∧ runs (.vcvtSat d a x) [⟨a, fa⟩] fb.bits none none true
          (fun op => ConvertsTo fb { g.num with sat := true } fa.isInt X (op e [p] 0 false)))
    ∧ (fa.isInt != fb.isInt → (∃ k, Fmt.ofCode k = some fa) → (∃ k, Fmt.ofCode k = some fb) →
      ∀ i, i ∈ [.vadd d a b x, .vsub d a b x, .vmul d a b x, .vfma d a b x, .vfms d a b x, .vdiv d a b x, .vmin d a b x
              , .vmax d a b x, .vcmp n a b .eq, .vcmp n a b .lt] →
        ∃ m, memberOf g i = some m ∧ m.fits = false)
    ∧ ((∃ k, Fmt.ofCode k = some fa) → (∃ k, Fmt.ofCode k = some fb) →
      ∀ (acc : Nat) (l t : List (Nat × Nat)), acc < 2 ^ 32 →
        kSum fa fb g.num acc [] = (acc, 0)
        ∧ (l.length = 32 → kSum fa fb g.num acc (l ++ t) =
            ((kSum fa fb g.num (kSum fa fb g.num acc l).1 t).1
              , (kSum fa fb g.num acc l).2 ||| (kSum fa fb g.num (kSum fa fb g.num acc l).1 t).2))
        ∧ (l ≠ [] → l.length ≤ 32 →
          if fa.isInt = true ∧ fb.isInt = true then
            WritesInt (.i 32) g.sat (signedOf 32 acc + (l.map fun y => fa.int y.1 * fb.int y.2).sum) (kSum fa fb g.num acc l)
          else GroupOf g.sat (Fmt.val .fp32 false acc) (l.map fun y => (fa.val g.inf y.1, fb.val g.inf y.2))
            (kSum fa fb g.num acc l)))
    ∧ (∀ f inf c k, Fmt.ofCode k = some f → f.isInt = false → c < 2 ^ f.bits → f.Reads inf c)
    ∧ Fmt.spec .fp32 = ⟨24, 8, 127, true, true⟩ ∧ Fmt.spec .fp16 = ⟨11, 5, 15, true, true⟩
    ∧ Fmt.spec .bf16 = ⟨8, 8, 127, true, true⟩
    ∧ Fmt.nan .fp32 = 0x7FC00000 ∧ Fmt.nan .fp16 = 0x7E00 ∧ Fmt.nan .bf16 = 0x7FC0
    ∧ ∀ (k : Nat) (inf : Bool), Fmt.maxMag .fp32 inf = 0x7F7FFFFF ∧ Fmt.maxMag .fp16 inf = 0x7BFF
      ∧ Fmt.maxMag .bf16 inf = 0x7F7F
      ∧ Fmt.spec (.ps k) = ⟨k, 8 - k, 2 ^ (7 - k), true, false⟩ ∧ Fmt.spec (.pu k) = ⟨k, 9 - k, 2 ^ (8 - k), false, false⟩
      ∧ Fmt.nan (.ps k) = 0x80 ∧ Fmt.nan (.pu k) = 0xFF
      ∧ Fmt.maxMag (.ps k) inf = (if inf then 0x7E else 0x7F) ∧ Fmt.maxMag (.pu k) inf = (if inf then 0xFD else 0xFE)

/-- R58, R87, R130-R133, R140-R142, R206 and R289: an element-wise instruction alone in its convoy, with a `grp` or `grpk`
before it or none, writes a new dense chain of its result elements, raises their flags, closes its convoy (R86) and changes
nothing else. It resumes at `vstart`: the elements below it are those that its register holds (R90, R130). Under `grpk` an
element is active when its chunk is there, which the instruction then acquires. A result of more than 32 segments traps
with cause 0x21 at the element that needs one more, the results below the precise point kept. In a convoy of several
such instructions each does the same in its turn, its operands being the results of the members before it where they
write them. -/
def Obligations.ElementwiseConvoy : Prop :=
  (∀ (i x : Instr) (s v u : State) (m : Member) (op : Nat → List Nat → Nat → Bool → Nat × Flags)
    (scal : Option (SReg × Nat)) (sel : Option MReg) (mrg : Bool) (d : CReg) (w : Nat) (R : Nat → Nat × Flags),
    elementwise i = true → Opens i s m → Begins i s x v u → m.body = .map op scal sel mrg → m.dests = [(d, w)] →
    let n := s.countFor m
    let from_ := s.me.vstart.toNat
    let bs := pack w ((List.range n).map fun e => (R e).1)
    (∀ e, e < n →
      if e < from_ then s.oldElement (d, w) e = .val (R e).1 ∧ (R e).2 = 0
      else s.mapElement m op scal sel mrg e = .val (R e)) →
    (s.hasBuffers (s.buffersFor bs.length) →
      ∃ t, exec x v = .next t ∧ NewChain s t d bs ∧ PoolsOnly s (s.guardsSeen from_ n) t 1 bs.length
        ∧ { t.me with chains := s.me.chains, cdirty := s.me.cdirty } =
            Strand.closed { s.me with fflags := s.me.fflags ||| flagsOf n fun e => (R e).2 } (s.me.pc + 4))
    ∧ (32 < s.buffersFor bs.length → s.hasBuffers 32 → from_ = 0 → s.me.redlive = 0 → s.me.memdone = 0 →
      let h := 32 * s.myPool.size * 8 / w
      ∃ t p, exec x v = .next t ∧ s.precise m d w h p ∧ StoppedAt u t m d w h p .spine s.me.pc R
        ∧ ∀ k, k ≠ s.cur → t.strand k = s.strand k))
  ∧ ∀ (i : Instr) (s : State) (ms : List Member) (op : Nat → Nat → List Nat → Nat → Bool → Nat × Flags)
    (scal : Nat → Option (SReg × Nat)) (sel : Nat → Option MReg) (mrg : Nat → Bool) (d : Nat → CReg) (w n : Nat → Nat)
    (R : Nat → Nat → Nat × Flags),
    let N := ms.length
    let out (p : Nat) : List Byte := pack (w p) ((List.range (n p)).map fun e => (R p e).1)
    let earlier (p : Nat) (c : CReg) : Option (List Byte) :=
      (List.range p).findSome? fun q => if d q = c then some (out q) else none
    let src (p : Nat) (c : Src) (e : Nat) : Got Nat := match earlier p c.reg with
      | some bs => .val (leNat bs / 2 ^ (e * c.fmt.bits) % 2 ^ c.fmt.bits)
      | none => s.operand c e
    let len (p : Nat) (c : Src) : Nat := match earlier p c.reg with
      | some bs => elems c.fmt bs.length
      | none => s.lenOf c
    let total := ((List.range N).map fun p => s.buffersFor (out p).length).sum
    let new := s.myPool.free.take total
    N ≤ 8 → s.convoyOf i ms → s.me.vstart = 0 → s.me.gm.gk = false → s.me.redlive = 0 ∧ s.me.memdone = 0 →
    (∀ p m, ms[p]? = some m → s.soundAt ms p m ∧ m.body = .map (op p) (scal p) (sel p) (mrg p) ∧ m.dests = [(d p, w p)]
      ∧ s.copyInto (d p) = false ∧ (∀ c ∈ m.reads, s.me.streamed c = false)
      ∧ n p = m.bound.foldl (fun k c => Min.min k (len p c)) s.me.vl.toNat
      ∧ s.buffersFor (out p).length ≤ 32
      ∧ ∀ e, e < n p → s.mapFrom (src p) m (op p) (scal p) (sel p) (mrg p) e = .val (R p e)) →
    s.hasBuffers 1 total →
    ∃ t, exec i s = .next t
      ∧ (∀ p, p < N → t.segBytes s.myCx (t.segs (d p)) = out p ∧ (t.me.chain (d p)).stream = none)
      ∧ (∀ c, (∀ p, p < N → c ≠ d p) → t.me.chain c = s.me.chain c)
      ∧ (∀ c : CReg, t.me.cdirty.getLsbD c.toNat
          = (s.me.cdirty.getLsbD c.toNat || (List.range N).any fun p => d p == c))
      ∧ (t.pool s.myCx s.me.farPool).free = s.myPool.free.drop total
      ∧ (∀ far k, (t.pool s.myCx far).ref k = (if far = s.me.farPool ∧ k ∈ new then 1 else (s.pool s.myCx far).ref k)
          - named far k ((List.range N).flatMap fun p => s.segs (d p)))
      ∧ BytesOnly s s t ((List.range N).flatMap fun p => t.segs (d p))
      ∧ { t.me with chains := s.me.chains, cdirty := s.me.cdirty } =
          Strand.closed { s.me with fflags := s.me.fflags ||| flagsOf N fun p => flagsOf (n p) fun e => (R p e).2 }
            (s.me.pc + BitVec.ofNat 64 (4 * N))

/-- R143: `vcmp` and its scalar form alone in a convoy write every bit of mD below `vlmax` and no other, and raise
the flags of their active elements. -/
def Obligations.VectorCompares : Prop :=
  ∀ (i : Instr) (s : State) (m : Member) (op : Nat → Nat → Bool × Flags) (scal : Option (SReg × Nat)) (d : MReg)
    (R : Nat → Bool × Flags),
    Alone i s m → m.body = .cmp op scal → m.mwrite = some d →
    let n := s.countFor m
    (∀ e, e < n → s.cmpElement m op scal e = .val (R e)) →
    ∃ w : Mask,
      (∀ j, w.getLsbD j =
        if s.me.vlmax.toNat ≤ j then (s.me.mask d).getLsbD j else decide (j < n) && (R j).1)
      ∧ Becomes i s (Strand.closed
          ({ s.me with fflags := s.me.fflags ||| flagsOf n fun e => (R e).2 }.setMask d w) (s.me.pc + 4))

/-- R144 and R108: `vredsum`, `vredmax` and `vredmin` alone in a convoy write sD with the reduction of their active
elements, sign-extended for a signed integer format, and raise its flags. One that resumes goes on from the group that
holds `vstart`, with the partial value that `redpart` holds when `redlive` says so. -/
def Obligations.VectorReductions : Prop :=
  ∀ (i : Instr) (s : State) (m : Member) (comb : Nat → Nat → Nat × Flags) (b d : SReg) (x : Nat → Nat),
    Opens i s m → s.me.gm.gk = false → m.body = .red comb b → m.swrite = some d →
    let n := s.countFor m
    let f := s.me.gm.fmtA
    let r := s.reduced comb n x ((s.reg b).toNat % 2 ^ f.bits)
    let from_ := s.me.vstart.toNat / (4096 / f.bits) * (4096 / f.bits)
    (∀ e, from_ ≤ e → e < n → s.active e = true → s.operands m e = .val [x e]) →
    Becomes i s (Strand.closed
      ({ s.me with fflags := s.me.fflags ||| r.2 }.setReg d
        (if f.isSigned then wrap64 (signedOf f.bits r.1) else BitVec.ofNat 64 r.1)) (s.me.pc + 4))

/-- R145: `vperm`, `vslide` and `vexpd` alone in a convoy write a new dense chain of the patterns they move, an index outside
A giving zero; `vcomp` appends every active element that mB selects, its result having as many elements. -/
def Obligations.Permutes : Prop :=
  (∀ (i : Instr) (s : State) (m : Member) (p : Pick) (c : Src) (d : CReg) (w : Nat) (R : Nat → Nat),
    Alone i s m → m.body = .perm p → m.other = [c] → m.dests = [(d, w)] →
    let n := match p with | .slide _ => Min.min (s.countFor m) (s.lenOf c) | _ => s.countFor m
    let bs := pack w ((List.range n).map R)
    (∀ e, e < n → s.permElement m p c e = .val (R e)) →
    s.hasBuffers (s.buffersFor bs.length) →
    ∃ t, exec i s = .next t ∧ NewChain s t d bs ∧ PoolsOnly s s t 1 bs.length
      ∧ { t.me with chains := s.me.chains, cdirty := s.me.cdirty } = Strand.closed s.me (s.me.pc + 4))
  ∧ ∀ (s : State) (d a : CReg) (b : MReg) (x : Nat → Nat),
    let m := memberVcomp d a b s.me.gm
    let w := s.me.gm.fmtA.bits
    let sel := (List.range (s.countFor m)).filter fun e => s.active e && (s.me.mask b).getLsbD e
    let bs := pack w (sel.map x)
    Alone (.vcomp d a b) s m →
    (∀ e, e ∈ sel → s.operands m e = .val [x e]) →
    s.hasBuffers (s.buffersFor bs.length) →
    ∃ t, exec (.vcomp d a b) s = .next t ∧ NewChain s t d bs ∧ PoolsOnly s s t 1 bs.length
      ∧ { t.me with chains := s.me.chains, cdirty := s.me.cdirty } = Strand.closed s.me (s.me.pc + 4)

/-- R146: what the mask instructions write, whatever the guard, the running fragment mask and `vstart` hold: bits at
or above `vlmax` stay. One that was performed before an interruption is not performed again. -/
def Obligations.MaskInstructions : Prop :=
  ∀ (s : State) (d a b : MReg) (p q r : SReg),
    let mx := s.me.vlmax.toNat
    let A := s.me.mask a
    let B := s.me.mask b
    let old := s.me.mask d
    let at_ := 64 * (s.reg q).toNat
    let again := s.me.memdone.getLsbD 0
    let masks (i : Instr) (m : Member) (bit : Nat → Bool) : Prop :=
      Opens i s m →
      (again = true → Becomes i s (Strand.closed s.me (s.me.pc + 4)))
      ∧ (again = false → ∃ w : Mask,
          (∀ j, w.getLsbD j = if mx ≤ j then old.getLsbD j else bit j)
          ∧ Becomes i s (Strand.closed (s.me.setMask d w) (s.me.pc + 4)))
    let scalar (i : Instr) (m : Member) (P : Word → Prop) : Prop :=
      Opens i s m →
      (again = true → Becomes i s (Strand.closed s.me (s.me.pc + 4)))
      ∧ (again = false → ∃ v, P v ∧ Becomes i s (Strand.closed (s.me.setReg r v) (s.me.pc + 4)))
    masks (.mand d a b) (memberMand d a b) (fun j => A.getLsbD j && B.getLsbD j)
    ∧ masks (.mor d a b) (memberMor d a b) (fun j => A.getLsbD j || B.getLsbD j)
    ∧ masks (.mxor d a b) (memberMxor d a b) (fun j => A.getLsbD j != B.getLsbD j)
    ∧ masks (.mnot d a) (memberMnot d a) (fun j => !A.getLsbD j)
    ∧ masks (.mset d p q) (memberMset d p q) (fun j =>
        if at_ ≤ j ∧ j < at_ + 64 then (s.reg p).getLsbD (j - at_) else old.getLsbD j)
    ∧ scalar (.mpopc r a) (memberMpopc r a) (fun v => v.toNat = (List.range s.me.vl.toNat).countP fun e => A.getLsbD e)
    ∧ scalar (.mfirst r a) (memberMfirst r a) (fun v =>
        ((∀ e, e < s.me.vl.toNat → A.getLsbD e = false) ∧ v = 0xFFFFFFFFFFFFFFFF)
        ∨ (v.toNat < s.me.vl.toNat ∧ A.getLsbD v.toNat = true ∧ ∀ e, e < v.toNat → A.getLsbD e = false))
    ∧ scalar (.mget r a q) (memberMget r a q) (fun v =>
        ∀ j, j < 64 → v.getLsbD j = (decide (at_ + j < mx) && A.getLsbD (at_ + j)))

/-- R148 and R149: where `vbr` and `vjoin` go, the entry that they push, change or pop, and the running mask; on a
full or an empty buffer they trap with cause 0x28, their convoy closed. -/
def Obligations.Divergence : Prop :=
  ∀ (s : State) (a : MReg) (o : BitVec 14) (j : BitVec 26),
    let pc := s.me.pc
    let next := pc + 4
    let far := pc + wrap64 (o.toInt * 4)
    let meet := pc + wrap64 (j.toInt * 4)
    let shut := s.setMe (Strand.closed s.me pc)
    let below : Mask := BitVec.ofNat 65536 (2 ^ s.me.vlmax.toNat - 1)
    let F := s.me.runMask &&& below
    let T := F &&& s.me.mask a
    let N := F &&& ~~~s.me.mask a
    (Opens (.vbr a o) s (memberVbr a o) →
      (s.me.frags.length = 16 → ∃ t, exec (.vbr a o) s = .next t ∧ Trapped shut t s.cur .fragment pc pc 0 0 ∧ OnlyTrap shut t)
      ∧ (s.me.frags.length < 16 →
          Becomes (.vbr a o) s (
            if T ≠ 0 ∧ N ≠ 0 then
              Strand.closed { s.me with frags := s.me.frags ++ [{ pc := next, jn := 0, mask := N }], runMask := T } far
            else if T ≠ 0 then
              Strand.closed { s.me with frags := s.me.frags ++ [{ pc := 0, jn := 1, mask := F }], runMask := T } far
            else
              Strand.closed { s.me with frags := s.me.frags ++ [{ pc := 0, jn := 1, mask := F }], runMask := N } next)))
    ∧ (Opens (.vjoin j) s (memberVjoin j) →
      (s.me.frags = [] → ∃ t, exec (.vjoin j) s = .next t ∧ Trapped shut t s.cur .fragment pc pc 0 0 ∧ OnlyTrap shut t)
      ∧ ∀ l e, s.me.frags = l ++ [e] →
          (e.jn &&& 3 = 0 → Becomes (.vjoin j) s (Strand.closed
            { s.me with frags := l ++ [{ e with jn := (meet &&& ~~~3) ||| 1, mask := s.me.runMask ||| e.mask }]
                        runMask := e.mask } e.pc))
          ∧ (e.jn &&& 3 = 1 → Becomes (.vjoin j) s (Strand.closed
            { s.me with frags := l, runMask := if l = [] then BitVec.allOnes 65536 else e.mask }
            (if e.jn &&& ~~~3 = 0 then meet else e.jn &&& ~~~3))))

/-! ### Vector memory (R165-R170, R218, R219, R268) -/

/-- R58, R87, R165, R168, R169, R206, R268 and R289: `vld`, `vlds`, `vldx`, `vldt` and `vldff` alone in a convoy, with a `grp`
or `grpk` before them or none, write a new dense chain of the elements they read in ascending order, zero where inactive.
Under `grpk` the chunk that an element lies in is acquired before it is read. `vldff` ends at an element `g` that fails
with cause 0x10 or 0x11 after an earlier active one, and `vl` becomes no more than `g`. Any other element that fails is the trap that
they take, with `evpos` its number, and the results below the precise point are kept. That a load from a formatted page
raises the flags of its conversion is the model's reading (log 23). -/
def Obligations.VectorLoads : Prop :=
  ∀ (i x : Instr) (s v u : State) (m : Member) (at_ : Form) (base : SReg) (kind : LoadKind) (d : CReg) (w g : Nat)
    (σ : Nat → State) (R : Nat → Nat × Flags),
    Opens i s m → Begins i s x v u → s.me.vstart = 0 → s.me.redlive = 0 → s.me.memdone = 0 →
    m.body = .load at_ base kind → (∀ k, kind ≠ .chunk k) → m.dests = [(d, w)] →
    let ρ (e : Nat) : State := (σ e).guardSeen e
    let after := if g < s.countFor m then ρ g else σ g
    let a := s.loadAs kind
    let n := s.countFor m
    let bs := pack w ((List.range g).map fun e => (R e).1)
    let cut (c : Cause) : Prop := kind = .first ∧ (∃ e, e < g ∧ s.active e = true) ∧ (c = .notPresent ∨ c = .permission)
    σ 0 = s → g ≤ n →
    (∀ e, e < g →
      if s.active e = true then
        ∃ l, (ρ e).operands m e = .val l ∧ ReadsElement (ρ e) (σ (e + 1)) a at_ (s.reg base) l e (R e)
      else R e = (0, 0) ∧ σ (e + 1) = ρ e) →
    s.hasBuffers (s.buffersFor bs.length) →
    (g = n ∨ (s.active g = true ∧ ∃ c va note, cut c ∧ (ρ g).elementSpot a at_ (s.reg base) [] g false = .error (.bad c va note)) →
      ∃ t, exec x v = .next t ∧ NewChain s t d bs ∧ PoolsOnly s after t 1 bs.length
        ∧ after.mem = s.mem
        ∧ { t.me with chains := s.me.chains, cdirty := s.me.cdirty } =
            Strand.closed { s.me with
              fflags := s.me.fflags ||| flagsOf g fun e => (R e).2
              vl := if g < n then BitVec.ofNat 16 (Min.min s.me.vl.toNat g) else s.me.vl } (s.me.pc + 4))
    ∧ ∀ l c va note, g < n → s.active g = true → (ρ g).operands m g = .val l →
        (ρ g).elementSpot a at_ (s.reg base) l g false = .error (.bad c va note) → ¬ cut c →
        ∃ t p, exec x v = .next t ∧ s.precise m d w g p ∧ StoppedAt u t m d w g p c (BitVec.ofInt 64 va) R
          ∧ ∀ k, k ≠ s.cur → t.strand k = s.strand k

/-- R170: `vldk` alone in a convoy reads the active elements whose chunk's bit of kB is set, having acquired the chunk,
gives zero for the others, and writes `m7` with which were read; kB is unchanged. That a load from a
formatted page raises the flags of its conversion is the model's reading (log 23). -/
def Obligations.ChunkLoads : Prop :=
  ∀ (s : State) (d : CReg) (b : SReg) (k : KReg) (σ : Nat → State) (R : Nat → Nat × Flags),
    let m := memberVldk d b k s.me.gm
    let w := s.me.gm.fmtA.bits
    let n := s.countFor m
    let bs := pack w ((List.range n).map fun e => (R e).1)
    let chunk (e : Nat) : Nat := if s.formatAt s.myAccess (s.reg b).toNat = 0 then e * w / 4096 else e / 512
    let there (e : Nat) : Bool := s.active e && decide (chunk e < 512) && (s.me.kmask k).bits.getLsbD (chunk e)
    Alone (.vldk d b k) s m → σ 0 = s →
    (∀ e, e < n →
      let u := if s.active e = true then (σ e).chunkSeen k (chunk e) else σ e
      if there e = true then ReadsElement u (σ (e + 1)) s.myAccess .unit (s.reg b) [] e (R e)
      else R e = (0, 0) ∧ σ (e + 1) = u) →
    s.hasBuffers (s.buffersFor bs.length) →
    ∃ t, ∃ q : Mask, exec (.vldk d b k) s = .next t ∧ NewChain s t d bs ∧ PoolsOnly s (σ n) t 1 bs.length
      ∧ (σ n).mem = s.mem
      ∧ (∀ j, q.getLsbD j = if s.me.vlmax.toNat ≤ j then (s.me.mask 7).getLsbD j else decide (j < n) && there j)
      ∧ { t.me with chains := s.me.chains, cdirty := s.me.cdirty } =
          Strand.closed ({ s.me with fflags := s.me.fflags ||| flagsOf n fun e => (R e).2 }.setMask 7 q) (s.me.pc + 4)

/-- R58, R87, R165, R168, R206 and R305: `vst`, `vsts`, `vstx` and `vstcm` alone in a convoy, with a `grp` or `grpk` before
them or none, store their active elements in ascending order, each as `Stored` says, `vstcm` in the common context; every
line that no element is stored to keeps its bytes, and no register changes. Under `grpk` the chunk that an element lies in
is acquired first. Of the lines that hold an error no read has found, none but those stored to can lose it. -/
def Obligations.VectorStores : Prop :=
  ∀ (i x : Instr) (s v u : State) (m : Member) (at_ : Form) (base : SReg) (common : Bool) (σ : Nat → State)
    (l : Nat → List Nat) (sp : Nat → Spot),
    Opens i s m → Begins i s x v u → s.me.vstart = 0 → m.body = .store at_ base common →
    let ρ (e : Nat) : State := (σ e).guardSeen e
    let a : Access := if common then { s.myAccess with tag := 0 } else s.myAccess
    let n := s.countFor m
    let f := s.me.gm.fmtA
    let bit (e : Nat) : Nat := ((ρ e).elementAt a at_ (s.reg base) (l e) e).2.1
    let w (e : Nat) : Flags × State := (ρ e).writeSpot a f s.me.gm.num (bit e) false (arg (l e) 0) (sp e)
    let put (e : Nat) : Option (Page × List Byte) := (ρ e).spotBytes a f s.me.gm.num (bit e) (arg (l e) 0) (sp e)
    -- no element is stored to the line of place `p`
    let spared (p : Nat) : Prop := ∀ e, e < n → s.active e = true → ∀ g bs, put e = some (g, bs) →
      (ρ e).cellSound a g ∧ p / 64 ≠ (ρ e).storePlace a g / 64
    σ 0 = s →
    (∀ e, e < n →
      if s.active e = true then
        (ρ e).operands m e = .val (l e)
        ∧ (ρ e).elementSpot a at_ (s.reg base) (l e) e true = .ok (sp e)
        ∧ σ (e + 1) = (w e).2
      else σ (e + 1) = ρ e) →
    ∃ t bad, exec x v = .next t
      ∧ t = ({ σ n with badLines := bad } : State).setMe (Strand.closed
          { s.me with fflags := s.me.fflags ||| flagsOf n fun e => if s.active e then (w e).1 else 0 } (s.me.pc + 4))
      ∧ (∀ b ∈ bad, b ∈ (σ n).badLines) ∧ (∀ b ∈ (σ n).badLines, spared (64 * b) → b ∈ bad)
      ∧ (∀ k, k ≠ s.cur → t.strand k = s.strand k) ∧ t.cxs = s.cxs
      ∧ (∀ e, e < n → s.active e = true → ∀ g bs, put e = some (g, bs) → g.pa < mboxBase → (ρ e).lost g.pa = false →
          (ρ e).cellSound a g → Stored (ρ e) (σ (e + 1)) a g bs)
      ∧ ∀ p key, spared p → t.plainByte key p = s.plainByte key p

/-- R219: `vamo` alone in a convoy performs one atomic for each active element, in ascending order, and writes a new
dense chain of the old values, zero where inactive. -/
def Obligations.VectorAtomics : Prop :=
  ∀ (s : State) (d : CReg) (b : SReg) (c : CReg) (p : AmoOp) (o : VamoOrder) (sc : VamoScope) (σ : Nat → State)
    (R : Nat → Nat),
    let i : Instr := .vamo d b c p o sc
    let m := memberVamo d b c p o sc s.me.gm
    let w := s.me.gm.fmtA.bits
    let n := s.countFor m
    let bs := pack w ((List.range n).map R)
    let y := vamoSync s o sc
    Alone i s m → σ 0 = s →
    (∀ e, e < n →
      if s.active e = true then
        ∃ v g, (σ e).operands m e = .val v
          ∧ (σ e).checkAtomic s.myAccess ((s.reg b).toNat + s.me.gm.fmtB.int (arg v 1)) (w / 8) = .ok g
          ∧ (σ e).atomic s.myAccess y g (w / 8) p (arg v 0) (arg v 2) = .ok (R e, σ (e + 1))
      else R e = 0 ∧ σ (e + 1) = σ e) →
    s.hasBuffers (s.buffersFor bs.length) →
    ∃ t, exec i s = .next t ∧ NewChain s t d bs ∧ PoolsOnly s (σ n) t 1 bs.length
      ∧ { t.me with chains := s.me.chains, cdirty := s.me.cdirty } = Strand.closed s.me (s.me.pc + 4)

/-! ### Operand slots and matrix products (R235-R251, R266) -/

/-- R235: `oput` alone in a convoy writes the active elements into its slot and `oget` reads the slot's into a new dense
chain; neither changes anything else of a slot but the markers of the ranges that `oput` has written whole. -/
def Obligations.SlotElements : Prop :=
  ∀ (s : State) (o : OReg) (c : CReg) (x : Nat → Nat),
    let f := s.me.gm.fmtA
    let x0 := s.myCx
    let sl := s.slot x0 o.toNat
    let size := geomRows sl.geom * geomCols sl.geom
    s.holds o.toNat = true → geomCode sl.geom = s.me.gm.fa.toNat →
    (Alone (.oput o c) s (memberOput o c s.me.gm) →
      let n := Min.min (s.countFor (memberOput o c s.me.gm)) size
      (∀ e, e < n → s.active e = true → s.operands (memberOput o c s.me.gm) e = .val [x e]) →
      ∃ t, exec (.oput o c) s = .next t ∧ t.me = Strand.closed s.me (s.me.pc + 4)
        ∧ (∀ k, k ≠ s.cur → t.strand k = s.strand k) ∧ { t with strands := s.strands, cxs := s.cxs } = s
        ∧ (∀ y q, ¬ (y = x0 ∧ q = o.toNat) → t.slot y q = s.slot y q)
        ∧ (∀ y, { t.cx y with slots := (s.cx y).slots } = s.cx y)
        ∧ { t.slot x0 o.toNat with data := sl.data, poison := sl.poison } = sl
        ∧ (∀ e, slotGet (t.slot x0 o.toNat).data f e = if e < n ∧ s.active e = true then x e else slotGet sl.data f e)
        ∧ ∀ q, q ∈ (t.slot x0 o.toNat).poison ↔ q ∈ sl.poison
            ∧ ∃ e, q * 512 ≤ e * f.bits ∧ e * f.bits < (q + 1) * 512 ∧ ¬ (e < n ∧ s.active e = true))
    ∧ (Alone (.oget c o) s (memberOget c o s.me.gm) →
      let n := Min.min s.me.vl.toNat size
      let bs := pack f.bits ((List.range n).map fun e => if s.active e then slotGet sl.data f e else 0)
      (∀ e, e < n → s.active e = true → sl.marked f e = false) →
      s.hasBuffers (s.buffersFor bs.length) →
      ∃ t, exec (.oget c o) s = .next t ∧ NewChain s t c bs ∧ PoolsOnly s s t 1 bs.length
        ∧ { t.me with chains := s.me.chains, cdirty := s.me.cdirty } = Strand.closed s.me (s.me.pc + 4))

/-- R236, R237 and R240: `mma` and `mmaz` whose checks pass, alone in a convoy, write the accumulator set with the
columns of the product, feed an armed epilogue with the active ones, and move its colbase on. The model's
reading of a signalling NaN in a K-group is log 16, of the order in which the rows take their buffers log 14; that with
`vl` = 0 the rows are written as empty chains is log 43. -/
def Obligations.MatrixProducts : Prop :=
  ∀ (s : State) (zero : Bool) (d : CReg) (a b : OReg) (old : Nat → Nat → Nat),
    let i : Instr := if zero then .mmaz d a b else .mma d a b
    let m := if zero then memberMmaz d a b s.me.gm else memberMma d a b s.me.gm
    let rows := s.me.gm.rows
    let n := s.me.vl.toNat
    let row (r : Nat) : CReg := BitVec.ofNat 5 (d.toNat + r)
    let out (r j : Nat) : Nat × Flags := s.product a b r j (old r j)
    Alone i s m → s.mmaCheck s.me.gm n a b = none →
    (∀ r j, r < rows → j < n → if zero then old r j = 0 else s.oldElement (row r, 32) j = .val (old r j)) →
    (∀ j, j < n → s.active j = true →
      slotsMarked (s.slot s.myCx a.toNat) (s.slot s.myCx b.toNat) rows j (geomCols (s.slot s.myCx a.toNat).geom) = false
      ∧ ∀ ep, s.me.epilogue = some ep → ep.biasMarked (s.slot s.myCx ep.bslot.toNat) j = false) →
    s.hasBuffers (s.buffersFor (4 * n)) rows →
    ∃ t, exec i s = .next t
      ∧ NewChains s t rows (4 * n) row (fun r => pack 32 ((List.range n).map fun j => (out r j).1))
      ∧ PoolsOnly s s t rows (4 * n)
      ∧ { t.me with chains := s.me.chains, cdirty := s.me.cdirty } =
          Strand.closed { s.me with
            fflags := s.me.fflags ||| flagsOf n fun j => flagsOf rows fun r => (out r j).2
            epilogue := s.me.epilogue.map (s.fed rows n fun r j => (out r j).1) } (s.me.pc + 4)

/-- R241 and R243: `tkget` alone in a convoy writes the ranks of an armed epilogue into two chains, and leaves the lists;
`biasupd` steps the shadow of its slot, taken from the live vector and its markers when none is pending, an overflow
following `gm`.sat (R103); what the vector comprises is log 65. That the two chains of `tkget` take their buffers in
ascending element order, cD first, is log 14. -/
def Obligations.EpilogueConvoys : Prop :=
  (∀ (s : State) (d a : CReg) (ep : Epilogue),
    let n := 4 * (ep.rows * ep.k)
    let i : Instr := .tkget d a
    Alone i s (memberTkget d a) → s.me.epilogue = some ep → ep.rows ≤ 16 → ep.k ≤ 64 →
    s.hasBuffers (s.buffersFor n) 2 →
    ∃ t, exec i s = .next t
      ∧ NewChains s t 2 n (fun k => if k = 0 then d else a)
          (fun k => pack 32 (ep.ranks.map fun x => if k = 0 then x.1 else x.2))
      ∧ PoolsOnly s s t 2 n
      ∧ { t.me with chains := s.me.chains, cdirty := s.me.cdirty } = Strand.closed s.me (s.me.pc + 4))
  ∧ ∀ (s : State) (o : OReg) (c : CReg) (b : SReg) (x : Nat → Nat),
    let m := memberBiasupd o c b s.me.gm
    let x0 := s.myCx
    let sl := s.slot x0 o.toNat
    let n := Min.min (s.countFor m) (geomCols sl.geom)
    let target := signedOf 32 ((s.reg b).toNat / 2 ^ 32)
    let gamma := (s.reg b).toNat % 2 ^ 32
    let from_ := if sl.pending then sl.shadow else sl.data
    let mode : NumMode := { rneMode with sat := s.me.gm.sat }
    let new (e : Nat) : Nat × Flags :=
      let old := slotGet from_ .fp32 e
      let v := s.me.gm.fmtA.int (x e)
      if e < n ∧ s.active e = true then
        (if v < target then opAdd .fp32 .fp32 mode old gamma
          else if target < v then opSub .fp32 .fp32 mode old gamma else (old, 0))
      else (old, 0)
    Alone (.biasupd o c b) s m → s.holds o.toNat = true → geomRows sl.geom = 1 → geomCode sl.geom = 14 →
    -- no active element lies in a marked range of the vector that is stepped (R316)
    (∀ e, e < n → s.active e = true → ∀ q ∈ (if sl.pending then sl.shadowPoison else sl.poison),
      ¬ (q * 512 ≤ 32 * e ∧ 32 * e < (q + 1) * 512)) →
    (∀ e, e < n → s.active e = true → s.operands m e = .val [x e]) →
    ∃ t, exec (.biasupd o c b) s = .next t
      ∧ t.me = Strand.closed { s.me with fflags := s.me.fflags ||| flagsOf n fun e => (new e).2 } (s.me.pc + 4)
      ∧ (∀ k, k ≠ s.cur → t.strand k = s.strand k) ∧ { t with strands := s.strands, cxs := s.cxs } = s
      ∧ (∀ y q, ¬ (y = x0 ∧ q = o.toNat) → t.slot y q = s.slot y q)
      ∧ (∀ y, { t.cx y with slots := (s.cx y).slots } = s.cx y)
      ∧ { t.slot x0 o.toNat with shadow := sl.shadow, shadowPoison := sl.shadowPoison } = { sl with pending := true }
      ∧ (t.slot x0 o.toNat).shadowPoison = (if sl.pending then sl.shadowPoison else sl.poison)
      ∧ ∀ e, slotGet (t.slot x0 o.toNat).shadow .fp32 e = (new e).1 % 2 ^ 32

/-- R246-R249: `bswalk`, in its convoy alone. It makes the checks of R246. Then it applies the entries of its table in
order, each tile as one K-group for every element, and writes every row block as it ends (R247). At the entry that ends
the table it completes, c0-c31 holding the last row block written; an entry, an element of a tile or of a block that
fails a check is the trap that it takes, with the rows of R249 in c0-c31. The bytes of its staging slots are free values
(log 2), and their markers are gone; when the rows take their buffers is log 26; that `eval` is the instruction's address
for causes 0x30 and 0x31, and sB for 0x38, where R246 names none, is log 15. -/
def Obligations.BlockSparseWalk : Prop :=
  ∀ (s : State) (o : OReg) (a b : SReg),
    let i : Instr := .bswalk o a b
    let pc := s.me.pc
    let vl := s.me.vl.toNat
    let sl := s.slot s.myCx o.toNat
    let aligned := (s.reg a).toNat % 16 = 0
    Opens i s (memberBswalk o a b s.me.gm) → s.me.vstart = 0 → s.me.redlive = 0 ∧ s.me.memdone = 0 →
    (¬ aligned → Traps i s .misaligned (s.reg a))
    ∧ (aligned → (s.reg b).toNat % 64 ≠ 0 → Traps i s .misaligned (s.reg b))
    ∧ (aligned → ∀ B s1, s.readWalkBlock (s.reg b) = .ok (B, s1) →
      let w : Walk := { o := o, table := (s.reg a).toNat, block := B, g := s.me.gm, vl := vl, addr := pc }
      let held := ∀ k, k < 3 → s.holds (o.toNat + k) = true
      let suits := geomCode sl.geom = s.me.gm.fb.toNat ∧ vl ≤ geomCols sl.geom
      let bad := B.walkDefect (accFmt s.me.gm.fmtA s.me.gm.fmtB) = true
      (¬ held → Traps i s .slot pc)
      ∧ (held → ¬ suits → Traps i s .geometry pc)
      ∧ (held → suits → bad → Traps i s .copy (s.reg b))
      ∧ (held → suits → ¬ bad → s.hasBuffers (s.buffersFor (4 * vl)) 32 → ∀ (z : WalkData) (E : Nat), z.upTo s s1 w E →
        let line (f : Nat → Nat) : List Byte := pack 32 ((List.range vl).map f)
        (z.applied s w E → entryEnd (z.d E) = true →
          ∃ t, exec i s = .next t
            ∧ (∀ r, r < 32 → t.segBytes s.myCx (t.segs (BitVec.ofNat 5 r)) = line fun j => (z.out s w E r j).1)
            ∧ { t.me with chains := s.me.chains } =
                Strand.closed { s.me with
                  cdirty := BitVec.allOnes 32, fflags := s.me.fflags ||| z.flags s w (E + 1) } (pc + 4)
            ∧ (∀ k, k ≠ s.cur → t.strand k = s.strand k)
            ∧ (s.me.farPool = false → t.mem = (z.before (E + 1)).mem)
            ∧ (∀ x q, ¬ (x = s.myCx ∧ (q = o.toNat + 1 ∨ q = o.toNat + 2)) → t.slot x q = s.slot x q)
            ∧ ∀ q, q = o.toNat + 1 ∨ q = o.toNat + 2 →
                { t.slot s.myCx q with data := (s.slot s.myCx q).data, poison := (s.slot s.myCx q).poison } = s.slot s.myCx q
                ∧ (t.slot s.myCx q).poison = [])
        ∧ ∀ v c eval note, z.stops s w E v c eval note →
          ∃ t, exec i s = .next t ∧ Trapped s t s.cur c pc eval (BitVec.ofNat 64 E) (BitVec.ofNat 64 v)
            ∧ ∀ r, r < 32 → t.segBytes s.myCx (t.segs (BitVec.ofNat 5 r)) =
                if v % 2 = 1 then line fun j => (z.out s w E r j).1
                else if E = 0 then pack 32 ((s.walkRows vl).getD r [])
                else if entryLast (z.d (E - 1)) = true then line fun j => (z.out s w (E - 1) r j).1
                else line (z.acc E r)))

/-- R266: `citp` alone in its convoy permutes the CIT range at its base under the guard, whatever `vstart` holds. -/
def Obligations.IndirectionPermute : Prop :=
  ∀ (s : State) (a : SReg) (c : CReg) (x : Nat → Nat),
    let i : Instr := .citp a c
    let m := memberCitp a c s.me.gm
    let base := (s.reg a).toNat
    let n := Min.min (s.countFor m) (4096 - base)
    let p := s.me.part
    let old (k : Nat) : BitVec 16 := Sparse.get 0 k (s.part p).cit
    Opens i s m → s.me.gm.gk = false → base < 4096 → (∀ e, e < n → s.operands m e = .val [x e]) →
    ∃ t, exec i s = .next t ∧ t.me = Strand.closed s.me (s.me.pc + 4)
      ∧ (∀ k, k ≠ s.cur → t.strand k = s.strand k) ∧ { t with strands := s.strands, parts := s.parts } = s
      ∧ (∀ q, q ≠ p → t.part q = s.part q) ∧ { t.part p with cit := (s.part p).cit } = s.part p
      ∧ ∀ k, Sparse.get 0 k (t.part p).cit =
          if base ≤ k ∧ k < base + n then
            (if s.active (k - base) = false then old k else if x (k - base) < n then old (base + x (k - base)) else 0)
          else old k

/-! ### Chains (R119-R139) -/

/-- R125, R126 and R135: what `cfree`, `cshare`, `cprep`, `capp` and `csplice` make of their destination, and the counts;
a result of more than 32 segments traps with cause 0x21, a count above 0xFFFF with 0x22 and a stream register with
0x24. That 0x24 comes before the others, and 0x21 before 0x22, is log 20. -/
def Obligations.ChainEdits : Prop :=
  ∀ (s : State) (d a b : CReg),
    let A := s.segs a
    let B := s.segs b
    let D := s.segs d
    let shares (i : Instr) (r : List CReg) (add l : List Seg) : Prop :=
      (s.editable [d] r →
        (l.length ≤ 32 → s.saturates s.myCx add = false → Edits i s d l)
        ∧ (32 < l.length → Traps i s .spine s.me.pc)
        ∧ (l.length ≤ 32 → s.saturates s.myCx add = true → Traps i s .refs s.me.pc))
      ∧ ((∃ c, c ∈ d :: r ∧ s.me.streamed c = true) → Traps i s .stream s.me.pc)
    (s.editable [d] [] → Edits (.cfree d) s d [])
    ∧ (s.me.streamed d = true → Traps (.cfree d) s .stream s.me.pc)
    ∧ shares (.cshare d a) [a] A A
    ∧ shares (.cprep d a) [a] A (A ++ D)
    ∧ shares (.capp d a) [a] A (D ++ A)
    ∧ shares (.csplice d a b) [a, b] (A ++ B) (A ++ B)

/-- R135: `ctrim.h` drops the first elements and `ctrim.t` the last, with the bytes beyond the last whole one; nothing
changes when `ctrim.t` drops none. A count that is no whole number of bytes traps with cause 0x23. -/
def Obligations.ChainTrims : Prop :=
  ∀ (s : State) (d : CReg) (a : SReg) (n : BitVec 11),
    let w := s.me.gm.fmtA.bits
    let len := segsLen (s.segs d) * 8 / w
    let head (i : Instr) (x : Nat) : Prop :=
      (x * w % 8 = 0 → ∃ l, Edits i s d l
        ∧ s.segBytes s.myCx l = (s.segBytes s.myCx (s.segs d)).drop (Min.min x len * w / 8)
        ∧ segsLen l = segsLen (s.segs d) - Min.min x len * w / 8)
      ∧ (x * w % 8 ≠ 0 → Traps i s .element s.me.pc)
    let tail (i : Instr) (x : Nat) : Prop :=
      (x * w % 8 = 0 → Min.min x len = 0 → Goes i s (s.me.pc + 4))
      ∧ (x * w % 8 = 0 → Min.min x len ≠ 0 → ∃ l, Edits i s d l
        ∧ s.segBytes s.myCx l = (s.segBytes s.myCx (s.segs d)).take ((len - Min.min x len) * w / 8)
        ∧ segsLen l = (len - Min.min x len) * w / 8)
      ∧ (x * w % 8 ≠ 0 → Traps i s .element s.me.pc)
    s.editable [d] [] → head (.ctrimH d a) (s.reg a).toNat ∧ head (.ctrimHImm d n) n.toNat
      ∧ tail (.ctrimT d a) (s.reg a).toNat ∧ tail (.ctrimTImm d n) n.toNat

/-- R135: `csplit` leaves the bytes below element `i` in cA and the others in cD; a buffer that both name gains one
reference, and a count above 0xFFFF traps with cause 0x22. With cD = cA it traps with cause 0x02, whatever the register
is (log 20). -/
def Obligations.ChainSplits : Prop :=
  ∀ (s : State) (d a : CReg) (b : SReg) (n : BitVec 11),
    let w := s.me.gm.fmtA.bits
    let all := s.segBytes s.myCx (s.segs a)
    let splits (i : Instr) (x : Nat) : Prop :=
      let k := Min.min x (segsLen (s.segs a) * 8 / w) * w / 8
      let lo := segsTake k (s.segs a)
      let hi := segsDrop k (s.segs a)
      let cut := if (s.segs a).length < lo.length + hi.length then hi.head? else none
      (d = a → Traps i s .reserved s.me.pc)
      ∧ (d ≠ a → s.editable [d, a] [] →
        (x * w % 8 ≠ 0 → Traps i s .element s.me.pc)
        ∧ (x * w % 8 = 0 → (∃ g, cut = some g ∧ 65535 ≤ s.refs s.myCx g.id) → Traps i s .refs s.me.pc)
        ∧ (x * w % 8 = 0 → (∀ g, cut = some g → s.refs s.myCx g.id < 65535) →
            ∃ t gain, exec i s = .next t
              ∧ t.me = { (s.me.setChain a { segs := lo }).setChain d { segs := hi } with
                  pc := s.me.pc + 4, wait := .none }
              ∧ s.segBytes s.myCx lo = all.take k ∧ s.segBytes s.myCx hi = all.drop k
              ∧ (∀ far i, named far i gain + named far i (s.segs a) = named far i lo + named far i hi)
              ∧ Counted s t gain (s.segs d)))
    splits (.csplit d a b) (s.reg b).toNat ∧ splits (.csplitImm d a n) n.toNat

/-- R130 and R135: `cnew` makes a chain of one zeroed buffer, and `cflat` a dense chain of the bytes of cA. `eval` of
cause 0x19 is log 15. -/
def Obligations.ChainBuilds : Prop :=
  ∀ (s : State) (d a : CReg),
    let same (t : State) : Prop :=
      { t.me with chains := s.me.chains, cdirty := s.me.cdirty } = { s.me with pc := s.me.pc + 4, wait := .none }
    let size := s.myPool.size
    let bs := s.segBytes s.myCx (s.segs a)
    (s.editable [d] [] → s.hasBuffers 1 →
      ∃ t, exec (.cnew d) s = .next t ∧ NewChain s t d (List.replicate size 0) ∧ PoolsOnly s s t 1 size ∧ same t)
    ∧ (s.editable [d] [a] →
      (32 * size < bs.length → Traps (.cflat d a) s .spine s.me.pc)
      ∧ (s.segsMarked s.myCx (s.segs a) = false → s.hasBuffers (s.buffersFor bs.length) →
          ∃ t, exec (.cflat d a) s = .next t ∧ NewChain s t d bs ∧ PoolsOnly s s t 1 bs.length ∧ same t))

/-- R136 and R305: the element forms of `capp` and `cprep` write into the last and first buffer of the chain when it has one
reference and room, and otherwise into a new buffer, for which a chain of 32 segments has no place: cause 0x21. A write
into a line that carries the poison marker, of which it covers only a part, is not made: cause 0x19. A sub-byte format
traps with cause 0x04. `eval` of 0x04 and 0x19 is the instruction's address: log 15; that a shared segment stays and a new
one of one element is made, where R127 would copy it, is log 53; that the `cdirty` bit is set is log 21. -/
def Obligations.ChainElementAdds : Prop :=
  ∀ (s : State) (d : CReg) (a : SReg) (g : Seg) (l : List Seg),
    let w := s.me.gm.fmtA.bits
    let n := w / 8
    let bs := leBytes n (s.reg a).toNat
    let size := s.myPool.size
    let new (o : Nat) : Seg := { id := mkId s.me.farPool (s.myPool.free.headD 0), start := o, count := n }
    s.editable [d] [] →
    (w < 8 → Traps (.cprepElement d a) s .mode s.me.pc ∧ Traps (.cappElement d a) s .mode s.me.pc)
    ∧ (8 ≤ w → s.segs d = l ++ [g] →
        let room := g.start + g.count + n ≤ (s.pool s.myCx (idFar g.id)).size
        let held := s.bufHeld s.myCx g.id (g.start + g.count) n = true
        (s.refs s.myCx g.id = 1 → room → ¬ held →
          EditsInPlace (.cappElement d a) s d (l ++ [{ g with count := g.count + n }]) g.id (g.start + g.count) bs)
        ∧ (s.refs s.myCx g.id = 1 → room → held → Traps (.cappElement d a) s .poison s.me.pc)
        ∧ (¬ (s.refs s.myCx g.id = 1 ∧ room) → 32 ≤ l.length + 1 → Traps (.cappElement d a) s .spine s.me.pc)
        ∧ (¬ (s.refs s.myCx g.id = 1 ∧ room) → l.length + 1 < 32 → s.hasBuffers 1 →
            EditsInNew (.cappElement d a) s d (l ++ [g] ++ [new 0]) [] 0 bs))
    ∧ (8 ≤ w → s.segs d = g :: l →
        let room := n ≤ g.start
        let held := s.bufHeld s.myCx g.id (g.start - n) n = true
        (s.refs s.myCx g.id = 1 → room → held → Traps (.cprepElement d a) s .poison s.me.pc)
        ∧ (¬ (s.refs s.myCx g.id = 1 ∧ room) → 32 ≤ l.length + 1 → Traps (.cprepElement d a) s .spine s.me.pc)
        ∧ (s.refs s.myCx g.id = 1 → room → ¬ held → g.start ≤ (s.pool s.myCx (idFar g.id)).size →
          EditsInPlace (.cprepElement d a) s d ({ g with start := g.start - n, count := g.count + n } :: l) g.id
            (g.start - n) bs)
        ∧ (¬ (s.refs s.myCx g.id = 1 ∧ room) → l.length + 1 < 32 → s.hasBuffers 1 →
            EditsInNew (.cprepElement d a) s d (new (size - n) :: g :: l) [] (size - n) bs))
    ∧ (8 ≤ w → s.segs d = [] → s.hasBuffers 1 →
        EditsInNew (.cappElement d a) s d [new 0] [] 0 bs
        ∧ EditsInNew (.cprepElement d a) s d [new (size - n)] [] (size - n) bs)

/-- R127, R135 and R305: `cput` writes element `x` in place when its buffer has one reference, otherwise in a copy of its
segment; past the end it changes nothing, and in a line that carries the poison marker, of which it covers only a part, it
traps with cause 0x19 (`eval`: log 15). The `cdirty` bit is set in both cases (log 21). Where the pool's buffers are
smaller than the segment, the copy takes several (log 54). -/
def Obligations.ChainElementWrites : Prop :=
  ∀ (s : State) (d : CReg) (a b : SReg) (n : BitVec 11),
    let w := s.me.gm.fmtA.bits
    let v := (s.reg a).toNat
    let D := s.segs d
    let puts (i : Instr) (x : Nat) : Prop :=
      (x * w % 8 ≠ 0 → Traps i s .element s.me.pc)
      ∧ (x * w % 8 = 0 → segsLen D * 8 / w ≤ x → Goes i s (s.me.pc + 4))
      ∧ (x * w % 8 = 0 → x < segsLen D * 8 / w → segAt (x * w / 8) ((w + 7) / 8) D 0 = none → Traps i s .element s.me.pc)
      ∧ (x * w % 8 = 0 → x < segsLen D * 8 / w → ∀ k o g, segAt (x * w / 8) ((w + 7) / 8) D 0 = some (k, o) → D[k]? = some g →
          g.start + g.count ≤ (s.pool s.myCx (idFar g.id)).size →
          let old := s.bufBytes s.myCx g.id o ((w + 7) / 8)
          let bs := if w < 8 then leBytes 1 (leNat old / 2 ^ w * 2 ^ w + v % 2 ^ w) else leBytes (w / 8) v
          let copy := s.bufBytes s.myCx g.id g.start g.count
          let written := copy.take (o - g.start) ++ bs ++ copy.drop (o - g.start + bs.length)
          (s.refs s.myCx g.id = 1 → s.bufHeld s.myCx g.id o ((w + 7) / 8) = false → EditsInPlace i s d D g.id o bs)
          ∧ (s.refs s.myCx g.id = 1 → s.bufHeld s.myCx g.id o ((w + 7) / 8) = true → Traps i s .poison s.me.pc)
          ∧ (s.refs s.myCx g.id ≠ 1 → s.bufMarked s.myCx g.id g.start g.count = false → s.hasBuffers 1 →
              g.count ≤ s.myPool.size → D.length ≤ 32 →
              EditsInNew i s d (D.set k { id := mkId s.me.farPool (s.myPool.free.headD 0), start := 0, count := g.count })
                [g] 0 written)
          ∧ (s.refs s.myCx g.id ≠ 1 → s.bufMarked s.myCx g.id g.start g.count = false → s.myPool.size < g.count →
              let new := s.newSegs g.count
              (32 < D.length - 1 + new.length → Traps i s .spine s.me.pc)
              ∧ (D.length - 1 + new.length ≤ 32 → s.hasBuffers new.length →
                ∃ t, exec i s = .next t ∧ t.segBytes s.myCx new = written ∧ BytesOnly s s t new
                  ∧ (t.pool s.myCx s.me.farPool).free = s.myPool.free.drop new.length
                  ∧ (∀ far j, (t.pool s.myCx far).ref j =
                      (if far = s.me.farPool ∧ j ∈ s.myPool.free.take new.length then 1 else (s.pool s.myCx far).ref j)
                        - named far j [g])
                  ∧ t.me = { s.me.setChain d { segs := D.take k ++ new ++ D.drop (k + 1) } with
                      pc := s.me.pc + 4, wait := .none })))
    s.editable [d] [] → puts (.cput d a b) (s.reg b).toNat ∧ puts (.cputImm d a n) n.toNat

/-- R135 and R137: what `clen`, `cseg` and `cget` read of a chain. An element that spans two segments traps, and so does
one with a marked byte, which is noted (log 21); `eval` of both is the instruction's address (log 15). -/
def Obligations.ChainReads : Prop :=
  ∀ (s : State) (d b : SReg) (a : CReg) (n : BitVec 11),
    let f := s.me.gm.fmtA
    let A := s.segs a
    let gets (i : Instr) (x : Nat) : Prop :=
      (x * f.bits % 8 ≠ 0 → Traps i s .element s.me.pc)
      ∧ (x * f.bits % 8 = 0 → segsLen A * 8 / f.bits ≤ x → Gives i s d 0)
      ∧ (x * f.bits % 8 = 0 → x < segsLen A * 8 / f.bits →
          (∀ v, s.chainElem s.myCx A f x = .val v →
            Gives i s d (if f.isSigned then wrap64 (signedOf f.bits v) else BitVec.ofNat 64 v))
          ∧ ∀ c n, s.chainElem s.myCx A f x = .bad c n →
            (c = .element ∨ c = .poison) ∧ (c = .element → Traps i s c s.me.pc)
            ∧ ∃ u, { u with log := s.log, poison := s.poison, badLines := s.badLines } = s ∧ TrapsFrom i s u c s.me.pc)
    s.editable [] [a] →
      Gives (.clen d a) s d (BitVec.ofNat 64 (segsLen A))
      ∧ (A.length ≤ (s.reg b).toNat → Gives (.cseg d a b) s d (BitVec.ofNat 64 (A.length * 2 ^ 56)))
      ∧ (∀ g, A[(s.reg b).toNat]? = some g → Gives (.cseg d a b) s d
          (BitVec.ofNat 64 (A.length * 2 ^ 56 + g.id * 2 ^ 25 + g.start * 2 ^ 13 + g.count)))
      ∧ gets (.cget d a b) (s.reg b).toNat ∧ gets (.cgetImm d a n) n.toNat

/-- R138: `cspill` stores the frame of the first elements of cA and empties cA; `cfill` makes a dense chain of a frame's
bytes; an address off a 64-byte boundary traps with cause 0x08. -/
def Obligations.ChainSpills : Prop :=
  ∀ (s : State) (a d : CReg) (b : SReg),
    let va := (s.reg b).toNat
    let w := s.me.gm.fmtA.bits
    let k := Min.min s.me.vl.toNat (segsLen (s.segs a) * 8 / w)
    let L := (k * w + 7) / 8
    let frame := leBytes 8 (L + s.me.gm.fa.toNat * 2 ^ 32) ++ List.replicate 56 0
      ++ (s.segBytes s.myCx (s.segs a)).take L
    (s.editable [a] [] →
      (va % 64 ≠ 0 → Traps (.cspill a b) s .misaligned (s.reg b))
      ∧ (va % 64 = 0 → s.segsMarked s.myCx (segsTake L (s.segs a)) = false → ∀ σ g,
          s.Stores s.myAccess va frame (pieces frame.length) σ g →
          let u := σ (pieces frame.length).length
          ∃ t, exec (.cspill a b) s = .next t ∧ Counted u t [] (s.segs a)
            ∧ t.me = { s.me.setChain a {} with pc := s.me.pc + 4, wait := .none }
            ∧ Landed s s.myAccess va frame (pieces frame.length) σ g t))
    ∧ (s.editable [d] [] →
      (va % 64 ≠ 0 → Traps (.cfill d b) s .misaligned (s.reg b))
      ∧ (va % 64 = 0 → ∀ h bs u u', s.readSpan s.myAccess va 8 = .ok (h, u) → leNat h / 2 ^ 37 = 0 →
          u.readSpan s.myAccess (va + 64) (leNat h % 2 ^ 32) = .ok (bs, u') →
          s.hasBuffers (s.buffersFor bs.length) →
          ∃ t, exec (.cfill d b) s = .next t ∧ NewChain s t d bs ∧ PoolsOnly s u' t 1 bs.length
            ∧ { t.me with chains := s.me.chains, cdirty := s.me.cdirty } = { s.me with pc := s.me.pc + 4, wait := .none }))

/-- R134 and R139: `chld` loads the entries of the object at its address, block by block, and counts them; `chst` stores
cA's in one block and drops the references of the object that stood there; beside what an earlier release fence has given
them, its bytes then carry a release of scope `cplx` (R201). The order of checks that the manual leaves open is log 20;
at which blocks they synchronise is log 21. -/
def Obligations.ChainObjects : Prop :=
  ∀ (s : State) (a d : CReg) (b : SReg),
    let va := (s.reg b).toNat
    let A := s.segs a
    let word (i : Nat) : Nat :=
      if i = 0 then 2 ^ 63 + s.myCx * 2 ^ 32 + A.length
      else if i = 2 then segsLen A
      else if 4 ≤ i then (match A[i - 4]? with | some g => g.id * 2 ^ 25 + g.start * 2 ^ 13 + g.count | none => 0) else 0
    let block := (List.range 64).flatMap fun i => leBytes 8 (word i % 2 ^ 64)
    (va % 512 ≠ 0 →
      (s.editable [d] [] → Traps (.chld d b) s .misaligned (s.reg b))
      ∧ (s.editable [] [a] → Traps (.chst a b) s .misaligned (s.reg b)))
    ∧ (va % 512 = 0 → ∀ l u, s.Object [] [] va s l u →
      (s.editable [d] [] →
        (s.saturates s.myCx l = true → TrapsFrom (.chld d b) s u .refs s.me.pc)
        ∧ (s.saturates s.myCx l = false →
          ∃ t, exec (.chld d b) s = .next t ∧ Counted s { t with order := s.order, pageUse := s.pageUse } l (s.segs d)
            ∧ t.me = { s.me.setChain d { segs := l } with pc := s.me.pc + 4, wait := .none }))
      ∧ (s.editable [] [a] →
        (s.saturates s.myCx A = true → TrapsFrom (.chst a b) s u .refs s.me.pc)
        ∧ (s.saturates s.myCx A = false → ∀ v, u.writeLines s.blockAccess va block 8 = (none, v) →
          ∃ t, exec (.chst a b) s = .next t ∧ Counted v { t with order := v.order } A l
            ∧ t.me = { s.me with pc := s.me.pc + 4, wait := .none }
            ∧ (∃ tok : Token, tok.scope = .cplx ∧ ∀ k ∈ s.blockKeys va true, t.tokensAt k = addToken (s.fenceOf s.me.uid) tok)
            ∧ ∀ p, t.byteAt p = v.byteAt p)))

/-! ### Completion masks, copies and streams (R173-R196) -/

/-- R192-R194: what `waitk`, `ktest` and `kclr` do with completion mask kA, sB selecting its bits or a status word; and
how a strand that waits at `waitk` goes on. -/
def Obligations.CompletionMasks : Prop :=
  ∀ (s : State) (d b : SReg) (a : KReg),
    let w := s.reg b
    let lo (w : Word) := w.toNat % 512
    let all (k : KMask) (w : Word) : Prop :=
      ∀ j, lo w ≤ j → j < lo w + w.toNat / 2 ^ 16 % 1024 → j < 512 → k.bits.getLsbD j = true
    let k := s.me.kmask a
    let F := s.flight s.me.uid a.toNat
    let i := w.toNat % 2 ^ 63
    (all k w → ∃ t, exec (.waitk a b) s = .next t ∧ Passed s t ∧ OnlyMeAndOrder s t
        ∧ t.order = (s.acquireBits k (rangeBits w)).order)
    ∧ (¬ all k w → F = 0 → Traps (.waitk a b) s .copy (k.fva.setWidth 64))
    ∧ (¬ all k w → F ≠ 0 → Becomes (.waitk a b) s { s.me with wait := .waitk a w })
    ∧ (w.getLsbD 63 = true → Gives (.ktest d a b) s d
        (if i = 0 then BitVec.ofNat 64 (k.cause.toNat * 2 ^ 56 + F * 2 ^ 40 + k.poison.toNat * 2 ^ 32 + k.oow.toNat)
          else if i = 1 then k.fva.setWidth 64 else 0))
    ∧ (w.getLsbD 63 = false → all k w → ∃ t, exec (.ktest d a b) s = .next t ∧ Wrote s t d 1 ∧ Past s t
        ∧ OnlyMeAndOrder s t ∧ t.order = (s.acquireBits k (rangeBits w)).order)
    ∧ (w.getLsbD 63 = false → ¬ all k w → Gives (.ktest d a b) s d (if F = 0 then 2 else 0))
    ∧ (F = 0 → Becomes (.kclr a) s { s.me.setKmask a {} with pc := s.me.pc + 4, wait := .none })
    ∧ (F ≠ 0 → Becomes (.kclr a) s { s.me with wait := .flight a })
    ∧ ∀ sid, ((∀ c x, (s.strand sid).wait ≠ .waitk c x) → exec (.waitkWake sid) s = .next s)
      ∧ ∀ c x, (s.strand sid).wait = .waitk c x →
        let m := s.strand sid
        let q := m.kmask c
        (all q x → ∃ t, exec (.waitkWake sid) s = .next t
          ∧ Moves s t sid { m with pc := m.pc + 4, wait := .none } { s with cur := sid, order := t.order })
        ∧ (¬ all q x → s.flight m.uid c.toNat = 0 → ∃ t, exec (.waitkWake sid) s = .next t
          ∧ Trapped s t sid .copy m.pc (q.fva.setWidth 64) 0 0
          ∧ Moves s t sid (t.strand sid) { s with cur := sid })

/-- R173, R176, R179, R180, R190 and R191: a copy instruction waits behind sixteen copies in flight; a block off its boundary
or with a defect traps; otherwise the copy is in flight, every chunk of it still to be moved. One that waits for its chain
register or for buffers keeps the block that it has read, and goes on with it. `cpyr` waits on its completion mask first,
with the block that it has read once, and issues only the chunks whose completion bits are clear (waits: log 13). -/
def Obligations.CopyIssue : Prop :=
  ∀ (s : State) (a : SReg) (b : Block) (u : State),
    let va := s.reg a
    let all := List.range b.chunks
    let full : Prop := 16 ≤ (s.inFlight s.me.uid).length
    let starts (i : Instr) : Prop :=
      (full → Becomes i s { s.me with wait := .copies }) ∧ (¬ full → va.toNat % 64 ≠ 0 → Traps i s .misaligned va)
    -- a copy into a chain register, of the block `b` at `va`, once it has been read
    let fills (i : Instr) (va : Word) (b : Block) : Prop :=
      let d : CReg := BitVec.ofNat 5 b.creg
      let waits (w : Wait) (free : List Nat) : Prop :=
        ∃ t, exec i s = .next t ∧ t.me = { s.me with wait := w, again := some (va, b) }
          ∧ OnlyMeAndOrder s { t with cxs := s.cxs } ∧ (∀ y, y ≠ s.myCx → t.cx y = s.cx y)
          ∧ (t.pool s.myCx s.me.farPool).free = free
      b.dkind = 2 → s.copyReady b → b.bytes ≤ 32 * s.myPool.size →
      (s.copyInto d = true → waits (.chainCopy d) s.myPool.free)
      ∧ (s.copyInto d = false → s.myPool.enable = true → s.behind s.myCx s.me.farPool = false →
          s.myPool.free.length < s.buffersFor b.bytes → waits (.alloc s.me.farPool s.clock s.myPool.free) [])
      ∧ (s.copyInto d = false → s.hasBuffers (s.buffersFor b.bytes) →
          ∃ t, exec i s = .next t
            ∧ t.copies = s.copies ++ [s.newCopy va b (s.newSegs b.bytes) (List.range b.chunks) true]
            ∧ NewChains s t 1 b.bytes (fun _ => d) (fun _ => t.segBytes s.myCx (t.segs d))
            ∧ BytesOnly s { s with copies := t.copies, order := t.order, pageUse := t.pageUse, nextId := s.nextId + 1 } t []
            ∧ { t.me with chains := s.me.chains, cdirty := s.me.cdirty }
                = { s.me with pc := s.me.pc + 4, wait := .none, again := none })
    let issues (i : Instr) (ind : Bool) : Prop :=
      (s.me.again = none → starts i
        ∧ (¬ full → s.readBlock s.myAccess va = .ok (b, u) →
          (b.defect ind true = true → TrapsLate i s .copy va)
          ∧ (b.defect ind true = false →
            (b.dkind ≠ 2 → s.copyReady b → Issues i s (s.newCopy va b [] all true) s.me) ∧ fills i va b)))
      ∧ ∀ at_ c, s.me.again = some (at_, c) → fills i at_ c
    -- `cpyr` of the block `b` at `va`, once it has been read
    let resumes (va : Word) (b : Block) : Prop :=
      let d : CReg := BitVec.ofNat 5 b.creg
      let k : KReg := BitVec.ofNat 3 b.kreg
      (s.flight s.me.uid b.kreg ≠ 0 →
        ∃ t, exec (.cpyr a) s = .next t ∧ t.me = { s.me with wait := .flight k, again := some (va, b) } ∧ OnlyMeAndOrder s t)
      ∧ (s.flight s.me.uid b.kreg = 0 → s.copyReady b → (b.dkind = 2 → b.bytes ≤ segsLen (s.segs d)) →
        let q := s.me.kmask k
        let m := { s.me with again := none }.setKmask k { q with cause := 0, fva := 0, fbit := 0, ftrav := 0 }
        let todo := (List.range b.chunks).filter fun j => !q.bits.getLsbD (b.kbase + j)
        (todo ≠ [] → Issues (.cpyr a) s (s.newCopy va b (if b.dkind = 2 then s.segs d else []) todo false) m)
        ∧ (todo = [] → ∃ t, exec (.cpyr a) s = .next t ∧ t.me = { m with pc := s.me.pc + 4, wait := .none }
            ∧ OnlyMeAndOrder s t))
    issues (.cpy a) false ∧ issues (.cpyx a) true
    ∧ (s.me.again = none → starts (.cpyr a)
      ∧ (¬ full → s.readBlock s.myAccess va = .ok (b, u) →
        (b.defect (b.kind == 1) true = true → TrapsLate (.cpyr a) s .copy va)
        ∧ (b.defect (b.kind == 1) true = false → b.kreg = 15 → TrapsLate (.cpyr a) s .copy va)
        ∧ (b.defect (b.kind == 1) true = false → b.kreg ≠ 15 → b.kbase + b.chunks ≤ 512 → resumes va b)))
    ∧ (∀ at_ c, s.me.again = some (at_, c) → resumes at_ c)

/-- R174, R177, R178, R181 and R182: chunk `j` of copy `c` completes when every element of it passes its checks: its
elements have moved in ascending order, each between its address in the pattern and its place on the dense side, and its
completion bit is set. Otherwise it fails, and the lowest failed element is recorded in the completion mask's status; a
destination in a slot is marked after a marked read. Which bytes of a failed chunk hold their new value is open, and a
chunk is one step (log 7). -/
def Obligations.CopyChunks : Prop :=
  ∀ (s : State) (c j : Nat) (k : Copy),
    let b : Block := k.block
    let f := s.chunkAgent k
    let a := k.access f.1
    let els := b.chunkElems j
    let good := f.2.pass k a none j
    let bad := f.2.pass k a (some (Config.chunkByteNew s.freeCount)) j
    let reg := Block.kreg k.block
    let K : KReg := BitVec.ofNat 3 reg
    let bit := Block.kbase k.block + j
    let left := k.todo.filter (· != j)
    let mine (u : Nat) (i : Nat) : Prop :=
      s.strands.find? (fun e => e.2.resident && e.2.uid == u) = some (i, s.strand i)
    let count (q : KMask) (out : Nat) : BitVec 32 :=
      BitVec.ofNat 32 (if k.counts then Min.min (q.oow.toNat + out) (2 ^ 32 - 1) else q.oow.toNat)
    let after (t : State) (k' : Copy) : Prop :=
      (∀ x, x ≠ c → t.copy? x = s.copy? x)
      ∧ (∀ u, k.owner = .strand u → t.copy? c = if k'.todo = [] then none else some k')
      ∧ ((∀ u, k.owner ≠ .strand u) → t.copy? c = some k')
    (∀ e i, b.addr e i = b.base + ((List.range b.dims).map fun d =>
        (if b.kind = 1 ∧ d = 1 then i else b.start d + b.coord e d) * b.stride d).sum)
    ∧ (∀ e d, b.coord e d = e / ((List.range d).map b.ext).prod % b.ext d)
    ∧ (∀ e, e ∈ els ↔ e < b.count ∧ j * (512 / b.size) ≤ e ∧ e < (j + 1) * (512 / b.size))
    ∧ (s.copy? c = some k → j ∈ k.todo →
      (good.1.fault = none → good.1.cell = false →
        ∃ t, exec (.chunkComplete c j) s = .next t ∧ t.mem = good.2.mem ∧ t.cxs = good.2.cxs ∧ t.poison = good.2.poison
          ∧ (∃ (σ : Nat → State) (out : Nat → Bool), σ 0 = f.2 ∧ σ els.length = good.2
              ∧ (∀ p e, els[p]? = some e → (σ p).MovesElem (σ (p + 1)) k a e (out p) (f.2.laterRuns k a j))
              ∧ good.1.outside = (List.range els.length).countP out)
          ∧ after t { k with todo := left, done := k.done ++ [j] }
          ∧ (reg = 15 → ∀ i, t.strand i = s.strand i)
          ∧ ∀ u i, k.owner = .strand u → mine u i → reg ≤ 7 →
              let q := (s.strand i).kmask K
              ∃ tok, t.strand i = (s.strand i).setKmask K
                { q with bits := q.bits ||| (1 <<< bit), oow := count q good.1.outside
                         toks := (bit, tok) :: q.toks })
      ∧ (∀ e cause va, bad.1.fault = some (e, cause, va) → bad.1.cell = false →
        ∃ t, exec (.chunkFail c j) s = .next t ∧ (bad.1.poison = false → t.mem = bad.2.mem)
          ∧ (bad.1.poison = true → b.dkind = 1 → ∀ e ∈ els, (b.offset + e * b.size) / 64 ∈ (t.slot k.cplx b.slot).poison)
          ∧ after t { k with todo := left, failed := k.failed ++ [j]
                             fault := betterFault k.fault bit e cause va }
          ∧ (reg = 15 → ∀ i, t.strand i = s.strand i)
          ∧ ∀ u i, k.owner = .strand u → mine u i → reg ≤ 7 →
              let q := (s.strand i).kmask K
              let n := BitVec.ofNat 8 (Min.min (q.poison.toNat + (if bad.1.poison then 1 else 0)) 255)
              t.strand i = (s.strand i).setKmask K
                (if q.cause = 0 ∨ bit < q.fbit ∨ (bit = q.fbit ∧ e < q.ftrav) then
                  { q with oow := count q bad.1.outside, poison := n
                           cause := cause.code, fva := BitVec.ofInt 57 va, fbit := bit, ftrav := e }
                else { q with oow := count q bad.1.outside, poison := n }))
      ∧ (good.1.fault.isSome → exec (.chunkComplete c j) s = .next s)
      ∧ (bad.1.fault = none → exec (.chunkFail c j) s = .next s))

/-- R173, R176, R185, R186, R195, R196 and R300: `strm` and `strmx` make cD a stream register whose first strip is fetched at
issue, `strmoff` ends the stream and gives its buffers back, and a refill fetches the next strip in traversal order (how
much at a time, and when, is log 75). One that waits for buffers goes on with the block that it has read (log 13). A
convoy takes a strip, reads its elements as those of a chain, and gives its buffers back at its close. Cause 0x24 has the
instruction's address in `eval` when cD is a stream register already (R300), and the block's VA for a ninth stream: log 51.
What an element of a format wider than the block's finds past the strip is open (log 52) and asked of no operand here. -/
def Obligations.StreamRegisters : Prop :=
  ∀ (s : State) (d : CReg) (a : SReg) (b : Block) (u w v : State) (bs : List Byte) (ids : List Nat),
    let va := s.reg a
    let h := Min.min s.me.vl.toNat b.count
    let rel := w.forgets.myRelease .sys
    let acc : Access := { s.myAccess with agent := s.nextId }
    -- from the reading of the block `b` at `va` on, which has left `u`
    let goes (i : Instr) (va : Word) (u : State) : Prop :=
      (s.me.streamed d = true → TrapsLate i s .stream s.me.pc)
      ∧ (s.me.streamed d = false → 8 ≤ s.me.streams → TrapsLate i s .stream va)
      ∧ (s.me.streamed d = false → s.me.streams < 8 →
          s.hasBuffers (s.buffersFor (h * b.size)) →
          u.allocs s.myCx s.me.farPool (s.buffersFor (h * b.size)) = .ok (ids, w) →
          (({ rel.2 with nextId := s.nextId + 1 } : State).setClk s.nextId rel.1.clk).gatherRun acc b (List.range h)
            = (bs, none, v) →
          ∃ t st, exec i s = .next t
            ∧ t.me = { s.me.setChain d { segs := [], stream := some st } with
                pc := s.me.pc + 4, wait := .none, again := none }
            ∧ st = { block := b, far := s.me.farPool, tag := s.me.ctx.toNat, mode := s.me.mode, q := 0, held := none
                     ahead := s.newSegs (h * b.size), fetched := h, bad := none, agent := s.nextId }
            ∧ t.segBytes s.myCx st.ahead = bs
            ∧ (t.pool s.myCx s.me.farPool).free = s.myPool.free.drop (s.buffersFor (h * b.size))
            ∧ BytesOnly s { s with order := t.order, pageUse := t.pageUse, nextId := s.nextId + 1 } t
                (s.newSegs (h * b.size)))
    let issues (i : Instr) (ind : Bool) : Prop :=
      s.copyInto d = false →
      (s.me.again = none → (va.toNat % 64 ≠ 0 → Traps i s .misaligned va)
        ∧ (s.readBlock s.myAccess va = .ok (b, u) →
          (b.defect ind false = true → TrapsLate i s .copy va) ∧ (b.defect ind false = false → goes i va u)))
      ∧ ∀ at_, s.me.again = some (at_, b) → goes i at_ s
    let r := (s.strand s.cur).chain d
    issues (.strm d a) false ∧ issues (.strmx d a) true
    ∧ (r.stream = none → Goes (.strmoff d) s (s.me.pc + 4))
    ∧ (∀ st, r.stream = some st → ∃ t, exec (.strmoff d) s = .next t ∧ Counted s t [] st.segs
        ∧ t.me = { s.me.setChain d {} with pc := s.me.pc + 4, wait := .none })
    -- the convoy of one element-wise member that reads stream register `d`
    ∧ (∀ (i : Instr) (m : Member) (op : Nat → List Nat → Nat → Bool → Nat × Flags) (scal : Option (SReg × Nat))
        (sel : Option MReg) (mrg : Bool) (c : CReg) (z : Nat) (R : Nat → Nat × Flags) (st : Stream),
        elementwise i = true → memberOf s.me.gm i = some m → s.scalarNext → m.fits = true → m.clash = false →
        m.body = .map op scal sel mrg → m.dests = [(c, z)] → s.me.streamed c = false → s.copyInto c = false →
        r.stream = some st → d ∈ m.reads → (∀ q ∈ m.reads, q ≠ d → s.me.streamed q = false) →
        s.me.vstart = 0 → s.me.gm.gk = false →
        let P := st.pop s.me.vl.toNat
        let B : Block := st.block
        let strip := match P.held with | some g => g.1 | none => []
        -- a buffer that ends the strip and begins what lies ahead of it is named by both
        let both := (P.ahead.take 1).filter fun g => st.held.isNone && strip.any fun f => f.id == g.id
        let src (q : Src) (e : Nat) : Got Nat :=
          if q.reg = d then s.chainElem s.myCx strip q.fmt e else s.operand q e
        let n := m.bound.foldl (fun n q => Min.min n (if q.reg = d then P.height else s.lenOf q)) s.me.vl.toNat
        let bs := pack z ((List.range n).map fun e => (R e).1)
        P.delivered = P.height → (∀ q ∈ m.bound ++ m.other, q.reg = d → q.fmt.bits ≤ 8 * B.size) →
        (∀ e, e < n → s.mapFrom src m op scal sel mrg e = .val (R e)) →
        s.hasBuffers (s.buffersFor bs.length) →
        (st.held = none → P.height = Min.min s.me.vl.toNat (B.count - st.q) ∧ P.q = st.q + P.height)
        ∧ ∃ t, exec i s = .next t
          ∧ t.me.chain c = { segs := s.newSegs bs.length } ∧ t.segBytes s.myCx (t.segs c) = bs
          ∧ t.me.chain d = { segs := [], stream := some { P with held := none } }
          ∧ (∀ q, q ≠ c → q ≠ d → t.me.chain q = s.me.chain q)
          ∧ (∀ q : CReg, t.me.cdirty.getLsbD q.toNat = (s.me.cdirty.getLsbD q.toNat || c == q))
          ∧ (t.pool s.myCx s.me.farPool).free = s.myPool.free.drop (s.buffersFor bs.length)
          ∧ (∀ far k, (t.pool s.myCx far).ref k =
              (if far = s.me.farPool ∧ k ∈ s.myPool.free.take (s.buffersFor bs.length) then 1
                else (s.pool s.myCx far).ref k + named far k both) - named far k (s.segs c ++ strip))
          ∧ BytesOnly s s t (s.newSegs bs.length)
          ∧ { t.me with chains := s.me.chains, cdirty := s.me.cdirty } =
              Strand.closed { s.me with fflags := s.me.fflags ||| flagsOf n fun e => (R e).2 } (s.me.pc + 4))
    ∧ ∀ sid st, ((s.strand sid).chain d).stream = some st →
        let m := s.strand sid
        let x := cxOf sid
        let P := s.pool x st.far
        let B : Block := st.block
        let at_ := Max.max st.q st.fetched
        let n := Min.min m.vl.toNat (B.count - at_)
        let need := (n * B.size + P.size - 1) / P.size
        let held := match st.held with | some g => g.1.length | none => 0
        (st.ahead ≠ [] → exec (.streamRefill sid d) s = .next s)
        ∧ (m.resident = true → st.ahead = [] → st.bad = none → n ≠ 0 → 0 < B.size → st.delivered = st.height →
            held + need ≤ 32 → P.enable = true → need ≤ P.free.length → P.free.Nodup → (∀ i ∈ P.free, i < 2 ^ 23) →
            (st.far = true → P.offDusk P.free) →
            (∀ i ∈ s.onCx x, s.waitsFor st.far i = none) → s.allocs x st.far need = .ok (ids, w) →
            w.gatherRun (st.access m.part m.uid sid) B ((List.range n).map (at_ + ·)) = (bs, none, v) →
            ∃ t, exec (.streamRefill sid d) s = .next t
              ∧ t.strand sid = m.putChain d { segs := [], stream := some { st with
                  ahead := denseSegs P.size bs.length ids, fetched := at_ + n, bad := none } }
              ∧ (∀ i, i ≠ sid → t.strand i = s.strand i)
              ∧ t.segBytes x (denseSegs P.size bs.length ids) = bs
              ∧ (t.pool x st.far).free = P.free.drop need)

/-! ### Fences, barriers and waits (R93, R220-R227) -/

/-- R201, R220-R226 and R93: a fence and `ifence` pass; a barrier instruction of a group that the strand is not in, or
that is not valid, traps; an arrival adds a member and the last one begins the next generation; a departure passes once
the generation has (`eval` of cause 0x3C: log 15; `ifence`: log 19). That the lowest byte of `grpmem` that holds the id is
taken, where several hold it, is the model's choice (log 32): R224 says only the byte that holds it. -/
def Obligations.FencesAndBarriers : Prop :=
  ∀ (s : State) (o : FenceOrder) (sc : Scope) (g : BitVec 8) (sid : Nat),
    let q (o : FenceOrder) : State := match o with | .rel => s | _ => s.acquireFence sc
    let at_ (m : Strand) (i : Nat) : Nat := m.grpmem.toNat / 256 ^ i % 256
    let P := s.myPart
    let e := P.group g.toNat
    let last : Prop := e.arrived + 1 = e.members
    let m := s.me
    let next (m : Strand) (pc : Word) : Strand := { m with pc := pc + 4, wait := .none }
    let arrives (t : State) : Prop :=
      ({ t with strands := s.strands, parts := s.parts, order := s.order } = s)
      ∧ (∀ k, k ≠ s.cur → t.strand k = s.strand k) ∧ (∀ p, p ≠ m.part → t.part p = s.part p)
      ∧ { t.part m.part with groups := P.groups } = P ∧ (∀ x, x ≠ g.toNat → (t.part m.part).group x = P.group x)
      ∧ { (t.part m.part).group g.toNat with gathering := e.gathering, released := e.released } =
          { e with arrived := if last then 0 else e.arrived + 1, gen := if last then e.gen + 1 else e.gen }
    (∃ t, exec (.fence o sc) s = .next t ∧ Passed s t ∧ OnlyMeAndOrder s t
        ∧ (o = .acq → t.order = (q o).order)
        ∧ (o ≠ .acq → t.fenceOf m.uid =
            ((q o).myRelease sc).1 :: (s.fenceOf m.uid).filter fun k => k.scope != sc))
    ∧ Goes .ifence s (m.pc + 4)
    ∧ (g = 255 ∨ (∀ i, i < 4 → at_ m i ≠ g.toNat) ∨ e.valid = false →
        Traps (.gbar g) s .group m.pc ∧ Traps (.garr g) s .group m.pc ∧ Traps (.gwt g) s .group m.pc)
    ∧ (∀ i, i < 4 → at_ m i = g.toNat → (∀ j, j < i → at_ m j ≠ g.toNat) → g ≠ 255 → e.valid = true →
        (m.pend i = true → Traps (.garr g) s .group m.pc
          ∧ (e.gen ≠ m.gen i → ∀ x, x = Instr.gbar g ∨ x = Instr.gwt g →
              ∃ t, exec x s = .next t ∧ t.me = next (m.departed i) m.pc ∧ OnlyMeAndOrder s t)
          ∧ (e.gen = m.gen i → Becomes (.gbar g) s { m with wait := .barrier i }
              ∧ Becomes (.gwt g) s { m with wait := .barrier i }))
        ∧ (m.pend i = false → Traps (.gwt g) s .group m.pc
          ∧ (∃ t, exec (.garr g) s = .next t ∧ t.me = next (m.arrived i e.gen) m.pc ∧ arrives t)
          ∧ (∃ t, exec (.gbar g) s = .next t ∧ arrives t
              ∧ t.me = if last then next ((m.arrived i e.gen).departed i) m.pc
                  else { m.arrived i e.gen with wait := .barrier i })))
    ∧ (let k := s.strand sid
       (∀ i, k.wait = .barrier i →
          (((s.part k.part).group (at_ k i)).gen ≠ k.gen i →
            ∃ t, exec (.barrierDepart sid) s = .next t
              ∧ Moves s t sid (next (k.departed i) k.pc) { s with order := t.order })
          ∧ (((s.part k.part).group (at_ k i)).gen = k.gen i → exec (.barrierDepart sid) s = .next s))
       ∧ (k.wait = .wfi → ∃ t, exec (.wfiWake sid) s = .next t ∧ Moves s t sid (next k k.pc) s)
       ∧ (k.wait ≠ .wfi → exec (.wfiWake sid) s = .next s))

/-! ### Operand slots and the epilogue (R231-R233, R239, R242, R244) -/

/-- R231-R233: `oclaim` of a slot that is the strand's own, or free with nobody before it, claims it with its geometry,
a pending bias vector swapping in with all bytes of the slot (R244, log 65);
otherwise the strand waits in turn. `orel` gives the slot up (`eval` of causes
0x30 and 0x31: log 15). -/
def Obligations.SlotClaims : Prop :=
  ∀ (s : State) (d : OReg) (a : SReg),
    let g := s.reg a
    let x := s.myCx
    let o := d.toNat
    let l := s.slot x o
    let ours : Prop := l.owner = some s.me.uid ∨ (l.owner = none ∧ (s.slotQueue x o = [] ∨ (s.slotQueue x o).head? = some s.cur))
    let slotsOnly (t : State) (x o : Nat) : Prop :=
      ({ t with strands := s.strands, cxs := s.cxs, order := s.order } = s)
      ∧ (∀ y, { t.cx y with slots := (s.cx y).slots } = s.cx y) ∧ ∀ y q, ¬ (y = x ∧ q = o) → t.slot y q = s.slot y q
    let claimed (l : Slot) (i : Nat) (g : Word) : Slot :=
      { l with owner := some (s.strand i).uid, sid := i, geom := g, data := if l.pending then l.shadow else l.data
               poison := if l.pending then l.shadowPoison else l.poison, pending := false, waiters := l.waiters.filter (· != i) }
    (geomValid g = true ↔ g &&& 0xFFFFFEE000000000 = 0 ∧ g.toNat % 65536 ≠ 0 ∧ g.toNat / 65536 % 65536 ≠ 0
        ∧ ∃ f, Fmt.ofCode (g.toNat / 2 ^ 32 % 32) = some f ∧ slotFmt f = true
          ∧ (g.toNat % 65536 * (g.toNat / 65536 % 65536) * f.bits + 7) / 8 ≤ 32768)
    ∧ (geomValid g = false → Traps (.oclaim d a) s .geometry s.me.pc)
    ∧ (geomValid g = true → ours → ∃ t, exec (.oclaim d a) s = .next t ∧ Passed s t
        ∧ (∀ k, k ≠ s.cur → t.strand k = s.strand k) ∧ slotsOnly t x o ∧ t.slot x o = claimed l s.cur g)
    ∧ (geomValid g = true → ¬ ours → ∃ t, exec (.oclaim d a) s = .next t
        ∧ t.me = { s.me with wait := .slot d g } ∧ (∀ k, k ≠ s.cur → t.strand k = s.strand k) ∧ slotsOnly t x o
        ∧ s.cur ∈ (t.slot x o).waiters ∧ { t.slot x o with waiters := l.waiters } = l)
    ∧ (s.holds o = false → Traps (.orel d) s .slot s.me.pc)
    ∧ (s.holds o = true → s.copyIntoSlot x o = true → Becomes (.orel d) s { s.me with wait := .slotCopy d })
    ∧ (s.holds o = true → s.copyIntoSlot x o = false → ∃ t, exec (.orel d) s = .next t ∧ Passed s t
        ∧ (∀ k, k ≠ s.cur → t.strand k = s.strand k) ∧ slotsOnly t x o
        ∧ { t.slot x o with toks := l.toks } = { l with owner := none })
    ∧ (∀ y p i g, (s.slot y p).owner = none → (s.slotQueue y p).head? = some i → (s.strand i).wait = .slot (BitVec.ofNat 6 p) g →
        p < 64 → cxOf i = y → ∃ t, exec (.slotGrant y (BitVec.ofNat 6 p)) s = .next t
          ∧ t.strand i = { s.strand i with pc := (s.strand i).pc + 4, wait := .none }
          ∧ (∀ k, k ≠ i → t.strand k = s.strand k) ∧ slotsOnly t y p ∧ t.slot y p = claimed (s.slot y p) i g)
    ∧ ∀ y (p : OReg), (s.slot y p.toNat).owner ≠ none → exec (.slotGrant y p) s = .next s

/-- R239 and R242: `tkon` arms the epilogue and `tkoff` disarms it; `tksave` stores its area and `tkload` takes one, of
which it reads D0 alone when it is not armed; what `tksave` writes of an epilogue is what `tkload` reads back (unfilled entries: log 2; `eval` of cause 0x04: log 15).
-/
def Obligations.EpilogueRegisters : Prop :=
  ∀ (s : State) (a : SReg) (ep : Epilogue),
    let v := s.reg a
    let w := v.toNat
    let k := w % 128
    let valid : Prop := w / 2 ^ 17 % 2 ^ 15 = 0 ∧ v.getLsbD 14 = false ∧ v.getLsbD 7 = false ∧ 1 ≤ k ∧ k ≤ 64
    let next (e : Option Epilogue) : Strand := { s.me with epilogue := e, pc := s.me.pc + 4, wait := .none }
    let area := epilogueArea s.freeCount s.me.epilogue
    (valid → Becomes (.tkon a) s (next (some
        { rows := s.me.gm.rows, k := k, int := v.getLsbD 16, biasen := v.getLsbD 15, bslot := v.extractLsb' 8 6
          control := v.setWidth 17, colbase := v.extractLsb' 32 32, lists := List.replicate s.me.gm.rows [] })))
    ∧ (¬ valid → Traps (.tkon a) s .mode s.me.pc)
    ∧ Becomes .tkoff s (next none)
    ∧ (w % 64 ≠ 0 → Traps (.tksave a) s .misaligned v ∧ Traps (.tkload a) s .misaligned v)
    ∧ (w % 64 = 0 →
      (∀ σ g, s.Stores s.myAccess w area (pieces area.length) σ g →
        ∃ t, exec (.tksave a) s = .next t ∧ Passed s t ∧ (∀ k, k ≠ s.cur → t.strand k = s.strand k)
          ∧ Landed s s.myAccess w area (pieces area.length) σ g t)
      ∧ (∀ d0 u0, s.readSpan s.myAccess w 8 = .ok (d0, u0) →
        (bitOf (dword d0 0) 63 = false → ∃ t, exec (.tkload a) s = .next t ∧ t.me = next none ∧ OnlyMeAndOrder s t)
        ∧ (∀ h u, bitOf (dword d0 0) 63 = true → u0.readSpan s.myAccess (w + 8) 56 = .ok (h, u) → areaHead (d0 ++ h) = none →
            Traps (.tkload a) s .mode s.me.pc)
        ∧ ∀ h u rows c col bs u' l, bitOf (dword d0 0) 63 = true → u0.readSpan s.myAccess (w + 8) 56 = .ok (h, u) →
            areaHead (d0 ++ h) = some (rows, c, col) → u.readSpan s.myAccess (w + 64) (16 * rows * ctlK c) = .ok (bs, u') → areaRows bs (ctlK c) 0 rows = some l →
            ∃ t, exec (.tkload a) s = .next t ∧ t.me = next (some (epilogueOf rows c col l)) ∧ OnlyMeAndOrder s t))
    ∧ (∀ n, ep.rows = 1 ∨ ep.rows = 2 ∨ ep.rows = 4 ∨ ep.rows = 8 ∨ ep.rows = 16 → ctlOk ep.control.toNat = true →
        ep = epilogueOf ep.rows ep.control.toNat ep.colbase.toNat ep.lists →
        ep.lists.length = ep.rows → (∀ l ∈ ep.lists, l.length ≤ ep.k) →
        let bs := epilogueArea n (some ep)
        areaHead (bs.take 64) = some (ep.rows, ep.control.toNat, ep.colbase.toNat)
        ∧ areaRows (bs.drop 64) ep.k 0 ep.rows = some ep.lists ∧ bs.length = 64 + 16 * ep.rows * ep.k)

/-! ### Context tags (R252-R267) -/

/-- R252, R253, R258 and R262-R265: the lowest free tag goes to the oldest request and is live; `tnewq` never waits; a
retired tag drains, and after 16 clocks its cells and the tag are free. What the instructions of `ctx` and of the context
indirection table do; a tag above 0xFFFF or a slot above 4,095 traps with cause 0x13. -/
def Obligations.ContextTags : Prop :=
  (∀ (s : State) (d a : SReg) (g p : Nat),
    let me := TagReq.strand s.cur
    let P := s.myPart
    let live (p : Nat) (g : Nat) (t : State) : Prop :=
      (∀ h, Sparse.get .free h (t.part p).tags = if h = g then .live else Sparse.get .free h (s.part p).tags)
      ∧ { t.part p with tags := (s.part p).tags, tagReqs := (s.part p).tagReqs } = s.part p
      ∧ (∀ q, q ≠ p → t.part q = s.part q) ∧ { t with strands := s.strands, parts := s.parts } = s
    let v := s.reg a
    (P.lowestFree g → s.firstIn s.me.part me →
      ∃ t, exec (.tnew d) s = .next t ∧ Wrote s t d (BitVec.ofNat 64 g) ∧ Past s t
        ∧ (∀ k, k ≠ s.cur → t.strand k = s.strand k) ∧ live s.me.part g t ∧ me ∉ (t.part s.me.part).tagReqs)
    ∧ (P.noneFree ∨ ¬ s.firstIn s.me.part me →
      ∃ t, exec (.tnew d) s = .next t ∧ t.me = { s.me with wait := .tag d } ∧ me ∈ (t.part s.me.part).tagReqs
        ∧ (∀ k, k ≠ s.cur → t.strand k = s.strand k) ∧ (t.part s.me.part).tags = P.tags)
    ∧ (P.lowestFree g → s.tagQueue s.me.part = [] →
      ∃ t, exec (.tnewq d) s = .next t ∧ Wrote s t d (BitVec.ofNat 64 g) ∧ Past s t
        ∧ (∀ k, k ≠ s.cur → t.strand k = s.strand k) ∧ live s.me.part g t)
    ∧ (P.noneFree ∨ s.tagQueue s.me.part ≠ [] → Gives (.tnewq d) s d 0)
    ∧ (v = 0 ∨ 0xFFFF < v.toNat ∨ Sparse.get .free v.toNat P.tags ≠ .live → Traps (.tretTag a) s .tag v)
    ∧ (v ≠ 0 → v.toNat ≤ 0xFFFF → Sparse.get .free v.toNat P.tags = .live →
      Finishes (.tretTag a) s fun t => t.part s.me.part = P.setTag v.toNat (.draining s.clock)
        ∧ (∀ q, q ≠ s.me.part → t.part q = s.part q) ∧ { t with strands := s.strands, parts := s.parts } = s)
    ∧ (∀ i r rest, s.tagQueue p = .strand i :: rest → (s.part p).lowestFree g → (s.strand i).wait = .tag r →
      ∃ t, exec (.tagGrant p) s = .next t
        ∧ t.strand i = { (s.strand i).setReg r (BitVec.ofNat 64 g) with pc := (s.strand i).pc + 4, wait := .none }
        ∧ (∀ k, k ≠ i → t.strand k = s.strand k) ∧ live p g t)
    ∧ ∀ since, 0 < g → Sparse.get .free g (s.part p).tags = .draining since →
      (s.clock < since + 16 → exec (.tagDrainComplete p g) s = .next s)
      ∧ (since + 16 ≤ s.clock → ∃ t, exec (.tagDrainComplete p g) s = .next t
        ∧ t.part p = { (s.part p).setTag g .free with cells := (s.part p).cells.filter fun c => c.tag != g }
        ∧ (∀ q, q ≠ p → t.part q = s.part q) ∧ { t with parts := s.parts, order := t.order } = { s with order := t.order }
        ∧ { t.order with cells := s.order.cells } = s.order))
  ∧ ∀ (s : State) (d a b : SReg),
    let v := s.reg a
    let w := s.reg b
    let cit (k : Nat) : BitVec 16 := Sparse.get 0 k s.myPart.cit
    let next (c : BitVec 16) : Strand := { s.me with ctx := c, pc := s.me.pc + 4, wait := .none }
    (0xFFFF < v.toNat → Traps (.tset a) s .tag v) ∧ (v.toNat ≤ 0xFFFF → Becomes (.tset a) s (next (v.setWidth 16)))
    ∧ (4096 ≤ v.toNat → Traps (.tsets a) s .tag v ∧ Traps (.citr d a) s .tag v ∧ Traps (.citw a b) s .tag v)
    ∧ (v.toNat < 4096 → Becomes (.tsets a) s (next (cit v.toNat)) ∧ Gives (.citr d a) s d ((cit v.toNat).setWidth 64))
    ∧ Gives (.tget d) s d (s.me.ctx.setWidth 64)
    ∧ (v.toNat < 4096 → 0xFFFF < w.toNat → Traps (.citw a b) s .tag w)
    ∧ (v.toNat < 4096 → w.toNat ≤ 0xFFFF → Finishes (.citw a b) s fun t =>
        (∀ k, Sparse.get 0 k (t.part s.me.part).cit = if k = v.toNat then w.setWidth 16 else cit k)
        ∧ { t.part s.me.part with cit := s.myPart.cit } = s.myPart
        ∧ (∀ q, q ≠ s.me.part → t.part q = s.part q) ∧ { t with strands := s.strands, parts := s.parts } = s)

/-! ### The launch unit (R17-R29, R35, R227, R297, R323) -/

/-- R17, R18, R227, R270 and R323: at a doorbell, a `qpost` and a re-reading for held entries the launch unit takes the
descriptor; one that cannot be read or is unsound disables the queue; a queue found enabled has its records read up to
the tail; a doorbell of a queue or partition that does not exist is ignored (what the launch unit follows: log 17; when a
record is judged: log 30; `eval` of cause 0x3D of `qpost`: log 15). -/
def Obligations.QueuePolls : Prop :=
  ∀ (s : State) (p q : Nat) (a : SReg),
    let polls (i : Instr) (p q : Nat) : Prop :=
      let x := s.queue p q
      let read := s.readSpan (launchAccess p) (s.descVa p q) 64
      (∀ e, read = .error e → ∃ t, exec i s = .next t ∧ (t.queue p q).enabled = false)
      ∧ ∀ bs u, read = .ok (bs, u) →
          let d := dwords bs
          (descOk d = false ∨ fieldOf d 4 0 0 = 0 → ∃ t, exec i s = .next t ∧ (t.queue p q).enabled = false)
          ∧ (descOk d = true → fieldOf d 4 0 0 = 1 → x.readTo < 65536 →
              ∃ t y, exec i s = .next t ∧ y = t.queue p q
                ∧ y.ringbase = (if x.enabled then x.ringbase else d.getD 0 0)
                ∧ y.ringsize = (if x.enabled then x.ringsize else fieldOf d 1 47 32)
                ∧ y.cplbase = (if x.enabled then x.cplbase else d.getD 2 0)
                ∧ y.cplsize = (if x.enabled then x.cplsize else fieldOf d 3 47 32)
                ∧ y.cplhead = fieldOf d 3 31 16 ∧ y.readTo = fieldOf d 1 31 16)
    (p < 16 → q < 64 → polls (.doorbell p q) p q)
    ∧ (16 ≤ p ∨ 64 ≤ q → exec (.doorbell p q) s = .next s)
    ∧ ((s.queue p q).held = [] → exec (.descriptorPoll p q) s = .next s)
    ∧ ((s.queue p q).held ≠ [] → polls (.descriptorPoll p q) p q)
    ∧ (64 ≤ (s.reg a).toNat → Traps (.qpost a) s .record s.me.pc)
    ∧ ((s.reg a).toNat < 64 → polls (.qpost a) s.me.part (s.reg a).toNat
        ∧ (s.me.wait ≠ .wfi → ∃ t, exec (.qpost a) s = .next t ∧ Passed s t))

/-- R19, R20, R26, R28 and R46: the oldest strand that has ended completes its record, with the entry of R20 at the
ring's tail; entries wait in order while the ring is full; a held entry is written with the ring's tail behind it; the
strand's graph node completes with it, and so do the nodes of the parked records that it has continued; a copy node completes when every chunk has, and a fault of one is reported once
with the entry of R28 (graph nodes that cannot be read: log 31). -/
def Obligations.CompletionEntries : Prop :=
  ∀ (s : State) (p q n : Nat),
    let x := s.queue p q
    let stuck (q : Nat) : Prop := (s.queue p q).enabled = false ∨ ¬ (s.queue p q).room
    let a := launchAccess p
    let slot (x : QState) : Nat := x.cplbase.toNat + 16 * (x.cpltail % x.cplsize)
    let tail (x : QState) : Nat := (x.cpltail + 1) % 65536
    ((s.part p).ended = [] → exec (.recordComplete p) s = .next s)
    ∧ (∀ e rest, (s.part p).ended = e :: rest →
      ∃ t, exec (.recordComplete p) s = .next t ∧ (t.part p).ended = rest
        ∧ (∀ y, y ∈ e.origin.queue :: e.origin.parkedOf.map (·.1) → ∀ l ∈ (t.queue p y).live, l.2 ≠ e.uid)
        ∧ (stuck e.origin.queue → ∃ more, (t.queue p e.origin.queue).held = (s.queue p e.origin.queue).held
            ++ [(e.origin.token, BitVec.ofNat 64 (e.origin.ring * 2 ^ 16 + e.status.toNat * 2 ^ 8))] ++ more)
        ∧ (let o := e.origin
           let s1 := (o.queue :: o.parkedOf.map (·.1)).foldl (fun s q =>
             s.setQueue p q { s.queue p q with live := (s.queue p q).live.filter fun l => l.2 != e.uid })
             (s.setPart p { s.part p with ended := rest })
           let y := s1.queue p o.queue
           let w : Word × Word := (o.token, BitVec.ofNat 64 (o.ring * 2 ^ 16 + e.status.toNat * 2 ^ 8))
           ∀ σ g h, y.enabled = true → y.held = [] → y.room →
             (s1.setQueue p o.queue { y with held := [w] }).Stores a (slot y) (dwordBytes [w.1, w.2]) (pieces 16) σ g →
             (σ 2).check a (s.descVa p o.queue + 24 : Nat) 2 false true = .ok h →
             ∃ u : State, t = ((o.parkedNodes ++ if o.node = 0xFFFF then [] else [o.node]).foldl
                 (fun s n => s.nodeDone p n) u).settle p
               ∧ u.queue p o.queue = { y with cpltail := tail y, held := [] }
               ∧ ∀ key l, u.plainByte key l = ((σ 2).store a h (leBytes 2 (tail y))).plainByte key l))
    ∧ (x.held = [] ∨ stuck q → exec (.heldCompletionWrite p q) s = .next s)
    ∧ (∀ e σ g h, x.held = [e] → x.enabled = true → x.room →
        s.Stores a (slot x) (dwordBytes [e.1, e.2]) (pieces 16) σ g →
        (σ 2).check a (s.descVa p q + 24 : Nat) 2 false true = .ok h →
        ∃ t, exec (.heldCompletionWrite p q) s = .next t
          ∧ t.queue p q = { x with cpltail := tail x, held := [] }
          ∧ ∀ key l, t.plainByte key l = ((σ 2).store a h (leBytes 2 (tail x))).plainByte key l)
    ∧ ∀ c, s.nodeCopy p n = some c →
      (c.todo ≠ [] ∨ c.failed ≠ [] → exec (.copyNodeComplete p n) s = .next s)
      ∧ (c.todo = [] → c.failed = [] → c.id < s.nextId →
          ∃ t, exec (.copyNodeComplete p n) s = .next t ∧ t.copy? c.id = none)
      ∧ ∀ bit e cause va y, c.fault = some (bit, e, cause, va) → c.owner = .node p n y →
        (c.todo ≠ [] ∨ c.failed = [] ∨ n ∈ (s.part p).faultedNodes → exec (.graphCopyFault p n) s = .next s)
        ∧ (c.todo = [] → c.failed ≠ [] → n ∉ (s.part p).faultedNodes →
          ∃ t, exec (.graphCopyFault p n) s = .next t ∧ n ∈ (t.part p).faultedNodes ∧ t.copies = s.copies
            ∧ (stuck y → (t.queue p y).held = (s.queue p y).held
                ++ [(BitVec.ofNat 64 va, BitVec.ofNat 64 (n * 2 ^ 48 + 0xFFFF * 2 ^ 16 + 0x38 * 2 ^ 8 + cause.code.toNat))]))

/-- R19, R22, R23, R29, R34, R35, R46, R47, R253 and R277: a record that breaks R22 is refused with the entry of R20 and
starts nothing; the lane allocator searches the sides in ascending order; the first ready record that can be placed starts
a strand in the state of R23 on that side, with the tag that it asks for, and a resume record one in the state of R47; the
members of a gathered group start in one step (what a started strand follows: log 17; when a record is judged: log 30).
-/
def Obligations.StrandStarts : Prop :=
  ∀ (s : State) (p q : Nat) (r : Ready) (pre rest : List Ready),
    let P := s.part p
    let owned (x d : Nat) : Nat := if d = 0 then (s.cx x).split.toNat else 8 - (s.cx x).split.toNat
    let free (x d : Nat) : Nat := owned x d - ((((List.range 8).map fun i => 16 * x + 8 * d + i).filter fun i =>
      (s.strand i).resident).map fun i => (s.strand i).grant).sum
    let reserve (x d : Nat) : Nat := if d = 0 then (s.cx x).reserve0.toNat else (s.cx x).reserve1.toNat
    (∀ x d, d < 2 → s.avail x d = free x d +
      if (s.cx x).lock then 0 else Min.min (free x (1 - d)) (owned x (1 - d) - reserve x (1 - d)))
    ∧ (∀ w x d, s.placeFor P w = some (x, d) ↔
        s.Takes P w x d ∧ ∀ y e, 2 * y + e < 2 * x + d → ¬ s.Takes P w y e)
    ∧ (∀ w, s.couldHold P w = true ↔ ∃ x d, x < 128 ∧ d < 2 ∧ P.owns x = true ∧ (∀ y, w.pin = some y → y = x)
        ∧ w.lanemin ≤ if (s.cx x).lock then owned x d else 8 - reserve x (1 - d))
    ∧ (s.readyOrder p).Pairwise (fun a b => s.readyPrio p b ≤ s.readyPrio p a)
    ∧ (∀ (j : Job) (ok : Bool) (ws : List Word) (u : State),
        let v := (s.judge p j ok).1
        let kind : Prop := j.f 2 63 48 = 0xFFFF
          ∨ (s.readNode p (j.f 2 63 48) = (some ws, u) ∧ fieldOf ws 0 3 0 = 0 ∧ (j.graph = true ∨ fieldOf ws 0 31 16 = 0))
        (ok = false ∨ j.breaks P → v = .invalid)
        ∧ (ok = true → ¬ j.breaks P → s.readNode p (j.f 2 63 48) = (none, u) → j.f 2 63 48 ≠ 0xFFFF → v = .invalid)
        ∧ (ok = true → ¬ j.breaks P → s.readNode p (j.f 2 63 48) = (some ws, u) → ¬ kind → v = .invalid)
        ∧ (ok = true → ¬ j.breaks P → kind → (j.badGroups P → v = .badGroup) ∧ (¬ j.badGroups P → v = .ok)))
    ∧ (∀ (d rs : List Byte) (u1 u2 : State),
        let x := s.queue p q
        let u := (s.follows (launchAgent p) (outAgent 0)).wakePart p
        let word (i hi lo : Nat) : Nat := fieldOf (dwords d) i hi lo
        let w := u1.setQueue p q { x with cplhead := word 3 31 16 }
        let j : Job := { queue := q, ring := x.readTo, node := fieldOf (dwords rs) 2 63 48, graph := false, words := dwords rs }
        let bad : Prop := s.couldHold P j.want = false ∨ j.breaks P
        p < 16 → q < 64 → u.readSpan (launchAccess p) (s.descVa p q) 64 = .ok (d, u1) → descOk (dwords d) = true →
        word 4 0 0 = 1 → x.enabled = true → x.recs = [] → x.readTo < 65536 → word 1 31 16 = (x.readTo + 1) % 65536 →
        x.cplsize ≤ (x.cpltail + 65536 - word 3 31 16) % 65536 →
        w.acquireSpan p (x.ringbase.toNat + 64 * (x.readTo % x.ringsize)) 64 = .ok (rs, u2) →
        (∀ k, k ≠ q → (s.queue p k).recs = []) → P.nodes = [] →
        bad ∨ (j.f 2 63 48 = 0xFFFF ∧ j.badGroups P) →
        ∃ t c, exec (.doorbell p q) s = .next t ∧ ((bad → c = 0x3D) ∧ (¬ bad → c = 0x3C))
          ∧ (t.queue p q).held = x.held ++ [(j.words.getD 4 0, BitVec.ofNat 64 (x.readTo * 2 ^ 16 + c * 2 ^ 8))]
          ∧ (t.queue p q).recs = [] ∧ (t.queue p q).live = x.live ∧ (t.queue p q).head = (x.readTo + 1) % 65536
          ∧ ∀ k, (s.strand k).wait ≠ .wfi → t.strand k = s.strand k)
    ∧ (∀ (j : Job) (x d sid tag : Nat),
      s.readyOrder p = pre ++ r :: rest →
      (∀ b ∈ pre, (∀ g, b ≠ .group g) ∧ ∃ k, s.jobs p b = some [k] ∧ s.placeFor P k.want = none) →
      (∀ g, r ≠ .group g) → s.jobs p r = some [j] →
      s.placeFor P j.want = some (x, d) → s.freeSlot x d = some sid →
      (j.newtag = false ∧ tag = 0) ∨ (j.newtag = true ∧ P.lowestFree tag ∧ s.firstIn p (.record r)) →
      ∃ t, exec (.strandPlace p) s = .next t
        ∧ (t.strand sid).grant = Min.min (j.f 2 19 16) (s.avail x d)
        ∧ (t.part p).tag tag = .live
        ∧ (∀ k, k ≠ sid → (s.strand k).wait ≠ .wfi → t.strand k = s.strand k)
        ∧ (j.resume = false → Starts (t.strand sid) p s.nextId tag j
          ∧ (j.groups.Nodup → ∀ g, ((t.part p).group g).resident
              = (P.group g).resident + if g ∈ j.groups then 1 else 0))
        ∧ ∀ k, j.resume = true →
          P.parked.find? (fun k => k.parkid.toNat == j.f 3 56 41 && k.cplx == j.f 3 38 32) = some k →
          Resumes (t.strand sid) p tag j k ∧ (t.part p).parked = P.parked.filter (fun c => c.uid != k.uid)
            ∧ (k.origin.grouped = true → (groupIds k.grpmem.toNat).Nodup → ∀ g, ((t.part p).group g).resident
                = (P.group g).resident + if g ∈ groupIds k.grpmem.toNat then 1 else 0))
    ∧ (∀ g js u, s.readyOrder p = r :: rest → r = .group g → s.jobs p r = some js →
      (∀ j ∈ js, j.resume = false ∧ j.newtag = false) → State.placeJobs p js s = .ok u →
      exec (.strandPlace p) s = .next s
      ∧ ∃ (t : State) (sids : List Nat), exec (.gangStart p) s = .next t ∧ sids.length = js.length
        ∧ ∀ k j sid, js[k]? = some j → sids[k]? = some sid →
            (s.strand sid).resident = false ∧ Starts (t.strand sid) p (s.nextId + k) 0 j)

/-! ### Beside the instructions (R36, R37, R43, R67, R120, R121, R286, R294-R299) -/

/-- R36, R37, R43, R67, R120, R121, R286, R289, R294-R296, R298 and R299: what the hardware does beside a strand's
instructions: reclaimed buffers, an allocation that waits and is granted or times out, a pre-emption at a boundary and inside
a convoy, ageing, and words that are no instruction. A strand that waits for a buffer holds those that the earlier
allocations of its instruction have been granted, until it completes or gives them back; the one that has waited longest is
granted the head of the free list (whole retries: log 13; ageing: log 33; the double fault: log 39; `eval` of a
pre-emption: log 2; that a convoy is one step, so that it has drained when its step ends: log 1; the precise point: log 27).
-/
def Obligations.StrandHousekeeping : Prop :=
  ∀ (s : State) (sid v x w0 : Nat) (far : Bool) (w : IWord) (i : Instr) (e : Member) (op : Nat → List Nat → Nat → Bool → Nat × Flags)
    (scal : Option (SReg × Nat)) (sel : Option MReg) (mrg : Bool) (d : CReg) (z : Nat) (R : Nat → Nat × Flags),
    let m := s.strand sid
    let u : State := { s with cur := sid }
    let P (far : Bool) := s.pool x far
    let waits (i : Instr) : Prop :=
      (∃ d, i = .cnew d) ∨ (∃ d a, i = .cprepElement d a) ∨ (∃ d a, i = .cappElement d a) ∨ (∃ d a, i = .cflat d a)
      ∨ (∃ d a b, i = .cput d a b) ∨ (∃ d a k, i = .cputImm d a k) ∨ ∃ d a, i = .cfill d a
    let copies (i : Instr) (a : SReg) : Prop :=
      i = .cpy a ∨ i = .cpyx a ∨ (∃ d, i = .strm d a) ∨ ∃ d, i = .strmx d a
    let f := s.fetch s.cur s.me.pc.toNat
    let n := u.countFor e
    -- the instruction at the PC is element-wise and alone in its convoy
    let alone : Prop := u.nextInstr = some i ∧ elementwise i = true ∧ Alone i u e ∧ e.body = .map op scal sel mrg
      ∧ e.dests = [(d, z)] ∧ ∀ k, k < n → u.mapElement e op scal sel mrg k = .val (R k)
    let opens : Prop := m.wait ≠ .wfi ∧ ∃ i, u.nextInstr = some i ∧ opensConvoy m.gm i = true
    let double : Prop := s.me.mode ≠ .user ∧ s.me.pc = s.vector s.cur
    (∃ t, exec (.bufferReclaim x) s = .next t
        ∧ (∀ far, t.pool x far = { P far with
            free := ((((s.cx x).reclaim.take 8).filter fun id => idFar id == far).map idIndex).reverse ++ (P far).free })
        ∧ (t.cx x).reclaim = (s.cx x).reclaim.drop 8
        ∧ { t with cxs := s.cxs } = s ∧ (∀ y, y ≠ x → t.cx y = s.cx y)
        ∧ { t.cx x with near := P false, far := P true, reclaim := (s.cx x).reclaim } = s.cx x)
    -- the executing strand waits for a buffer, or has been granted one
    ∧ (∀ d, far = s.me.farPool → s.editable [d] [] → s.myPool.enable = true → s.myPool.free = [] ∨ s.behind s.myCx far = true →
        s.me.wait = .none → ∃ t, exec (.cnew d) s = .next t
          ∧ t.me = { s.me with wait := .alloc far s.clock [] } ∧ (t.pool s.myCx far).free = s.myPool.free
          ∧ (∀ k, k ≠ s.cur → t.strand k = s.strand k) ∧ { t with strands := s.strands, cxs := s.cxs } = s)
    ∧ (∀ since held, s.me.wait = .alloc far since held →
        let p := s.pool s.myCx far
        ((s.granted far w0).me = { s.me with wait := .alloc far s.clock (held ++ [w0]) })
        ∧ ((s.unheld).pool s.myCx far).free = held ++ p.free ∧ ((s.granted far w0).pool s.myCx far).free = held ++ p.free
        ∧ (s.unheld.room s.myCx far = if s.behind s.myCx far then held.length else held.length + p.free.length)
        ∧ ((∀ i ∈ held, i ∉ p.free) → (s.letGo.pool s.myCx far).free = p.free
            ∧ (s.letGo.cx s.myCx).reclaim = (s.cx s.myCx).reclaim ++ held.map (mkId far))
        ∧ { s.letGo with cxs := s.cxs } = s ∧ { s.unheld with cxs := s.cxs } = s
        ∧ { s.granted far w0 with cxs := s.cxs, strands := s.strands } = s)
    ∧ ((∀ far since held, s.me.wait ≠ .alloc far since held) → s.letGo = s ∧ s.unheld = s)
    -- strand `sid` does
    ∧ ((∀ far since held, m.wait ≠ .alloc far since held) →
        exec (.allocGrant sid) s = .next s ∧ exec (.allocTimeout sid) s = .next s)
    ∧ (∀ since held, m.wait = .alloc far since held →
      let y := cxOf sid
      let free := (s.pool y far).free
      let first : Prop := ∀ k ∈ s.onCx y, ∀ at_, s.waitsFor far k = some at_ → since < at_ ∨ (since = at_ ∧ sid ≤ k)
      let back (l : List Nat) : Out → Out
        | .next t => .next (t.returned y far l)
        | o => o
      (free = [] ∨ ¬ first → exec (.allocGrant sid) s = .next s)
      ∧ (∀ b rest i, free = b :: rest → first → u.nextInstr = some i →
          waits i ∨ (∃ a, copies i a) ∨ opensConvoy m.gm i = true →
          exec (.allocGrant sid) s = back (held ++ [b]) (exec i (u.granted far b)))
      ∧ (∀ c b rest, free = b :: rest → first → held = [] → u.nextInstr = some (.cnew c) → far = m.farPool →
          u.editable [c] [] → u.myPool.enable = true → free.Nodup → (∀ k ∈ free, k < 2 ^ 23) →
          (far = true → u.myPool.offDusk free) →
          ∃ t, exec (.allocGrant sid) s = .next t ∧ NewChain u t c (List.replicate u.myPool.size 0)
            ∧ PoolsOnly u u t 1 u.myPool.size
            ∧ { t.me with chains := m.chains, cdirty := m.cdirty } = { m with pc := m.pc + 4, wait := .none })
      ∧ (s.clock < since + 4096 → exec (.allocTimeout sid) s = .next s)
      ∧ (since + 4096 ≤ s.clock → ∀ i, u.nextInstr = some i →
          (waits i → ∃ t, exec (.allocTimeout sid) s = .next t ∧ Trapped s t sid .pool m.pc (if far then 1 else 0) 0 0
            ∧ Moves s t sid (t.strand sid) u.letGo)
          ∧ ∀ a, copies i a → ∃ t, exec (.allocTimeout sid) s = .next t ∧ Trapped s t sid .pool m.pc (m.reg a) 0 0
            ∧ Moves s t sid (t.strand sid) u.letGo)
      ∧ (since + 4096 ≤ s.clock → alone → far = m.farPool → u.myPool.enable = true → (held ++ free).Nodup →
          let r := u.unheld.room y far
          r < 32 → r < u.buffersFor ((n * z + 7) / 8) → (∀ k ∈ held ++ free, k < 2 ^ 23) →
          (far = true → u.myPool.offDusk (held ++ free)) →
          let h := r * u.myPool.size * 8 / z
          ∃ t p, exec (.allocTimeout sid) s = .next t ∧ u.precise e d z h p
            ∧ StoppedAt u t e d z h p .pool (if m.farPool then 1 else 0) R))
    ∧ (m.mayPreempt = false → exec (.preemptionTaken sid v) s = .next s)
    ∧ (m.mayPreempt = true → (opens → v ≤ m.vstart.toNat ∨ m.due = true) →
      ∃ t eval vs, exec (.preemptionTaken sid v) s = .next t ∧ ((opens → vs = m.vstart) ∧ (¬ opens → vs = 0))
        ∧ Trapped s t sid .preemption m.pc eval 0 vs
        ∧ { t.strand sid with
            epc := m.epc, ecause := m.ecause, eval := m.eval, evpos := m.evpos, vstart := m.vstart, pc := m.pc
            mode := m.mode, estatus := m.estatus } = { m with wait := .none, again := none, preq := false, due := false }
        ∧ (∀ k, k ≠ sid → (s.strand k).wait ≠ .wfi → t.strand k = s.strand k)
        ∧ { t with cur := s.cur, strands := s.strands, parts := s.parts, freeCount := s.freeCount, cxs := s.cxs } = s
        ∧ t.cxs = u.letGo.cxs
        ∧ ∀ p, p < 16 → (s.part p).preqBusy = true → (s.part p).preqTarget.toNat = sid →
            (t.part p).preqBusy = false ∧ (t.part p).preqResult = 1)
    ∧ (m.mayPreempt = true → m.wait ≠ .wfi → m.due = false → 0 < v → alone →
        u.unheld.hasBuffers (u.buffersFor ((Min.min v n * z + 7) / 8)) →
        ∃ t p eval, exec (.preemptionTaken sid v) s = .next t ∧ u.precise e d z (Min.min v (n - 1)) p
          ∧ StoppedAt u t e d z 0 p .preemption eval R)
    ∧ exec (.convoyDrained sid) s = .next s
    ∧ (let ages : Prop := m.resident = true ∧ m.wait = .none ∧ m.prio + m.age < 3 ∧ 65536 * (m.age + 1) ≤ m.unissued
       (ages → ∃ t, exec (.priorityAge sid) s = .next t ∧ Moves s t sid { m with age := m.age + 1 } s)
       ∧ (¬ ages → exec (.priorityAge sid) s = .next s))
    ∧ (decodeWord w = .error .unassigned → Traps (.unassignedOpcode w) s .unassigned s.me.pc)
    ∧ (decodeWord w = .error .reserved → Traps (.reservedFieldNotZero w) s .reserved s.me.pc)
    ∧ (∀ k, f = .ok k → exec .fetchFault s = .next s)
    ∧ ∀ c note, f = .error (c, note) →
      (¬ double → ∃ t, exec .fetchFault s = .next t ∧ Trapped s t s.cur c s.me.pc s.me.pc 0 0
        ∧ Moves s t s.cur (t.strand s.cur) (s.noted note))
      ∧ (double → ∃ t, exec .fetchFault s = .next t ∧ t.strand s.cur = {}
        ∧ (s.me.origin.kind = .record → (t.part s.me.part).ended
            = (s.part s.me.part).ended ++ [{ uid := s.me.uid, origin := s.me.origin, status := 0xFE }]))

/-! ### Folman, the mailbox and the outside (R13, R217, R269-R284, R316-R322) -/

/-- R13, R14, R281, R284 and R316-R319: the governor's moves, pages that migrate to the device that uses them most and back,
links, corrected errors and retired units, and a quadrant that becomes ready with its DRAM initialised (clocks, and
the tenth second inclusive: log 36; ends of links: log 37; how the uses of a page are counted: log 33; the entry of a step
up names no sensor: log 57). That the bytes of the DRAM so initialised read 0 is the model's choice (log 3, log 34): R284
gives no value. -/
def Obligations.FolmanActions : Prop :=
  ∀ (s : State) (k g dev q : Nat) (b : Bool) (u : RasUnit),
    let may : Prop := ∀ t, s.steppedAt = some t → t + 504000000 ≤ s.time
    let moves := Sparse.get 0 g s.pageMoves
    -- how often device `d` has used the page, the part itself being 64 (log 33)
    let uses (d : Nat) : Nat := Sparse.get 0 (g * 128 + d) s.pageUse
    let home := if dev = 64 then 0 else dev + 1
    let movable : Prop := moves < 4 ∧ (dev = 64 ∨ (dev ∈ s.peers ∧ dev ∉ s.removed)) ∧ Sparse.get 0 g s.pageHome ≠ home
      ∧ s.pinnedPage g = false ∧ 0 < uses dev ∧ ∀ d, d = 64 ∨ d ∈ s.peers → uses d ≤ uses dev
    let recent := s.errors.countP fun e => e.1 == u && s.time - e.2 ≤ 5040000000000
    let peer := Config.linkDevice k
    let alone (t : State) : Prop := ∀ n, n < 16 → n ∉ t.linksDown → Config.linkDevice n ≠ peer
    (may → s.clockStep < 5 → ∃ t, exec (.clockStepDown k) s = .next t ∧ t.clockStep = s.clockStep + 1
        ∧ t.steppedAt = some s.time ∧ t.coolAt = s.time ∧ t.log.getLast? = some (.clockStep (s.clockStep + 1) (some k))
        ∧ { t with clockStep := s.clockStep, steppedAt := s.steppedAt, coolAt := s.coolAt, log := s.log } = s)
    ∧ (¬ (may ∧ s.clockStep < 5) → exec (.clockStepDown k) s = .next { s with coolAt := s.time })
    ∧ (may → 0 < s.clockStep → s.coolAt + 5040000000 ≤ s.time →
        ∃ t, exec .clockStepUp s = .next t ∧ t.clockStep = s.clockStep - 1 ∧ t.steppedAt = some s.time
          ∧ t.log.getLast? = some (.clockStep (s.clockStep - 1) none)
          ∧ { t with clockStep := s.clockStep, steppedAt := s.steppedAt, log := s.log } = s)
    ∧ (¬ (may ∧ 0 < s.clockStep ∧ s.coolAt + 5040000000 ≤ s.time) → exec .clockStepUp s = .next s)
    ∧ (movable → ∃ t, exec (.pageMigrate g dev) s = .next t ∧ Sparse.get 0 g t.pageHome = home
        ∧ Sparse.get 0 g t.pageMoves = moves + 1 ∧ (∀ h, h ≠ g → Sparse.get 0 h t.pageHome = Sparse.get 0 h s.pageHome)
        ∧ { t with pageHome := s.pageHome, pageMoves := s.pageMoves } = s)
    ∧ (¬ movable → exec (.pageMigrate g dev) s = .next s)
    ∧ exec .migrationWindowEnd s =
        .next (if s.windowAt + 4194304 ≤ s.clock then { s with windowAt := s.clock, pageMoves := [], pageUse := [] } else s)
    ∧ (s.losing ≠ some peer → exec (.linkCrcError k true b) s = .next s
        ∧ ∃ t, exec (.linkCrcError k false true) s = .next t ∧ { t with log := s.log } = s)
    ∧ (∀ r c, s.losing = some peer ∨ (r = false ∧ c = false) →
        ∃ t, exec (.linkCrcError k r c) s = .next t ∧ k ∈ t.linksDown
        ∧ (peer ∈ t.removed ↔ peer ∈ s.removed ∨ alone t)
        ∧ (∀ d, d ≠ peer → (d ∈ t.removed ↔ d ∈ s.removed))
        ∧ (∀ d, t.losing = some d ↔ s.losing = some d ∧ (d ≠ peer ∨ ¬ alone t))
        ∧ { t with linksDown := s.linksDown, removed := s.removed, losing := s.losing, log := s.log } = s)
    ∧ (∃ t, exec (.correctedError u) s = .next t ∧ (u, s.time) ∈ t.errors ∧ t.log.getLast? = some (.corrected u)
        ∧ (recent + 1 < 8 → t.lasting = s.lasting)
        ∧ (8 ≤ recent + 1 → t.lasting.find? (fun e => e.1 == u) = some (u, recent + 1))
        ∧ { t with errors := s.errors, lasting := s.lasting, log := s.log } = s)
    ∧ ((∀ e ∈ s.lasting, e.1 ≠ u) → exec (.lastingFaultRetire u) s = .next s)
    ∧ (∀ n, s.lasting.find? (fun e => e.1 == u) = some (u, n) →
        ∃ t, exec (.lastingFaultRetire u) s = .next t ∧ t.mem = s.mem ∧ (∀ e ∈ t.errors ++ t.lasting, e.1 ≠ u)
        ∧ (∀ c r, u = .row c r → 256 ≤ Sparse.get 0 c s.spares →
            t.log.getLast? = some (.lastingFault u) ∧ t.retired = s.retired)
        ∧ (∀ c r, u = .row c r → Sparse.get 0 c s.spares < 256 →
            u ∈ t.retired ∧ Sparse.get 0 c t.spares = Sparse.get 0 c s.spares + 1 ∧ t.log.getLast? = some (.retired u n))
        ∧ (∀ w, u = .way w → u ∈ t.retired)
        ∧ (∀ x w, u = .bank x w → u ∈ t.retired ∧ (t.cx x).degraded = true))
    ∧ (q < 4 → s.qpwrOn.getLsbD q = true → s.qpwrReady.getLsbD q = false →
        ∃ t, exec (.quadrantReady q) s = .next t
          ∧ (∀ r, r < 4 → t.qpwrReady.getLsbD r = (s.qpwrReady.getLsbD r || r == q))
          ∧ (∀ l, t.byteAt l = if l / 2 ^ 37 = q then 0 else s.byteAt l)
          ∧ (∀ l, (l ∈ t.poison ↔ l ∈ s.poison ∧ 64 * l / 2 ^ 37 ≠ q) ∧ (l ∈ t.badLines ↔ l ∈ s.badLines ∧ 64 * l / 2 ^ 37 ≠ q))
          ∧ { t with qpwrReady := s.qpwrReady, linksDown := s.linksDown, mem := s.mem, lineKey := s.lineKey
                     poison := s.poison, badLines := s.badLines } = s)
    ∧ (s.qpwrOn.getLsbD q = false ∨ s.qpwrReady.getLsbD q = true → exec (.quadrantReady q) s = .next s)

/-- R275, R277, R283, R284 and R320-R322: the stages of Dawn, and what a fatal error leaves: before stage 3 a failure code,
later the record, its header and its sections (images: log 8; free values and log entries: log 2; what DRAM holds after
stage 3: log 3; that a Dawn resets the error counters, lasting faults, spares, retired units, event log and mailboxes too:
log 4; the layout of the record and where a failed Dawn stops: log 35). -/
def Obligations.DawnAndDusk : Prop :=
  ∀ (s : State) (kind : BitVec 8) (loc : BitVec 32),
    let good (l : List Byte) : Prop := Config.imageVerifies l = true ∧ s.rollback ≤ Config.imageVersion l
    let act := s.fwSlot s.activeB
    let other := s.fwSlot (!s.activeB)
    let begins : Prop := exec .dawn s = .next { State.reset with
      mem := s.mem.filter fun c => decide (2 ^ 39 ≤ c.1)
      fwA := s.fwA, fwB := s.fwB, rollback := s.rollback, stage := 1, msix := s.msix, agenda := s.agenda
      freeCount := s.freeCount, nextId := s.nextId, activeB := if s.committed then !s.activeB else s.activeB }
    let base := 0x7FF0000000
    let f : State := s.logs (.fatal kind loc)
    let body := f.duskStrands ++ f.duskQueues ++ f.duskPools
    let boots (t : State) (core : Nat) : Prop :=
      let m := t.strand (8 * core)
      m.resident = true ∧ m.mode = .monitor ∧ m.pc = Config.monitorEntry
      ∧ ∀ r, m.reg r = if r = 1 then BitVec.ofNat 64 core else if r = 2 then 0x100 else 0
    (s.halted = true → begins)
    ∧ (s.halted = false → s.failCode ≠ 0 → exec .dawn s = .next s)
    ∧ (s.halted = false → s.failCode = 0 →
      (s.stage = 0 → begins)
      ∧ (s.stage = 1 → act.failed = false → ∃ t, exec .dawn s = .next t
          ∧ (good act.image → t.stage = 2 ∧ t.failCode = 0 ∧ t.activeB = s.activeB)
          ∧ (¬ good act.image → good other.image → t.stage = 2 ∧ t.failCode = 0 ∧ t.activeB = !s.activeB
              ∧ (t.fwSlot s.activeB).failed = true)
          ∧ (¬ good act.image → ¬ good other.image → t.failCode ≠ 0))
      ∧ (s.stage = 2 → ∃ t, exec .dawn s = .next t ∧ t.stage = 3 ∧ t.keyLoads = [] ∧ t.keyBytes = [] ∧ t.poison = []
          ∧ t.removed = [] ∧ (∀ d ∈ t.peers, d < 64) ∧ .digest (sha3 Config.monitorImage) ∈ t.log
          ∧ (∀ l, t.byteAt l = if l < 2 ^ 39 then 0 else s.byteAt l)
          ∧ (t.failCode = 0 ↔ good Config.monitorImage))
      ∧ (s.stage = 3 → ∃ t, exec .dawn s = .next t ∧ t.stage = 4 ∧ boots t 0 ∧ boots t 1
          ∧ ∀ k, k ≠ 0 → k ≠ 8 → t.strand k = s.strand k)
      ∧ (s.stage = 4 → exec .dawn s = .next { s with
          stage := 5, rollback := Max.max s.rollback (Config.imageVersion act.image) }))
    ∧ (s.halted = false → ∃ t, exec (.fatalError kind loc) s = .next t ∧ t.halted = true
        ∧ t.msix = s.msix ++ [(0, 0), (1, 0), (2, 0), (3, 0)] ∧ t.log.getLast? = some (.fatal kind loc)
        ∧ (3 ≤ s.stage.toNat → ∃ d, t.dusk = some d ∧ d.more = 0 ∧ d.kind = kind ∧ d.place = loc ∧ d.clock = s.clock
            ∧ d.bytes.take 24 = leBytes 8 0x4455534B00010000 ++ leBytes 8 (kind.toNat * 2 ^ 32 + loc.toNat) ++ leBytes 8 s.clock
            ∧ d.size = 64 + body.length + 32 * f.log.length
            ∧ d.offset = [64, 64 + f.duskStrands.length, 64 + f.duskStrands.length + f.duskQueues.length, 64 + body.length]
            ∧ t.bytesAt base 64 = d.bytes
            ∧ ∀ i, i < body.length → some (t.byteAt (base + 64 + i)) =
                if kind = 1 ∧ Config.duskStruck loc.toNat (64 + i) = true then some 0xFF else body[i]?)
        ∧ (s.stage.toNat < 3 → t.dusk = s.dusk ∧ t.failCode ≠ 0))
    ∧ (s.halted = true → ∀ d, s.dusk = some d → ∃ t d', exec (.fatalError kind loc) s = .next t
        ∧ t.dusk = some d' ∧ d' = { d with more := Min.min 255 (d.more + 1) }
        ∧ t.bytesAt base d'.bytes.length = d'.bytes)

/-- R273, R279, R282 and R283: each command of the mailbox runs once when its copy has been started with its opcode, and
its completion clears go, sets the result and tells the side that asked; a line that was written
under one loaded key reads under another as AES-XTS-256 makes it, and under an equal one as it is (free bytes: log 2; keys
and the cipher: log 6; images: log 8; host addresses: log 12; one host copy: log 42). -/
def Obligations.MailboxCommands : Prop :=
  ∀ (s : State) (host : Bool),
    let b := s.box host
    let runs (i : Instr) (host : Bool) (op : Nat) (code : BitVec 8) (P : State → Prop) : Prop :=
      (s.box host).run = .started → (s.box host).opcode = op →
      ∃ t, exec i s = .next t ∧ (t.box host).run = .ran code ∧ (∀ k, t.strand k = s.strand k) ∧ P t
    let idle (i : Instr) (host : Bool) (op : Nat) : Prop :=
      (s.box host).run ≠ .started ∨ (s.box host).opcode ≠ op → exec i s = .next s
    let free (n : Nat) : List Byte := (List.range n).map fun i => (Config.freeValue (s.freeCount + i)).setWidth 8
    let count := Min.min (b.arg 1 / 2 ^ 32 % 2 ^ 32) (s.log.length - b.arg 1 % 2 ^ 32)
    let h := s.hostBox
    let x := s.fwSlot (!s.activeB)
    let img := x.image.take (h.arg 0)
    let good : Prop := Config.imageVerifies img = true ∧ s.rollback ≤ Config.imageVersion img
    let old := x.image ++ List.replicate (h.arg 1 - x.image.length) 0
    let key := s.monBox.arg 0 % 2 ^ 14
    let loads (j : Nat) : Nat := Sparse.get 0 j s.keyLoads
    let material (j : Nat) : Option Nat := Sparse.get none j s.keyBytes
    -- where memory holds a byte of host physical memory
    let place (p : Nat) : Nat := if 2 ^ 39 ≤ p ∧ p < 2 ^ 46 then p else 2 ^ 64 + p
    (∀ pa (bs : List Byte), 2 ^ 64 < pa + bs.length → s.boxWrite true pa bs = none)
    ∧ (∀ pa (bs : List Byte), pa + bs.length ≤ 2 ^ 64 → ∃ u, s.boxWrite true pa bs = some u
        ∧ (∀ i, i < bs.length → some (u.byteAt (place (pa + i))) = bs[i]?)
        ∧ (∀ l, (∀ i, i < bs.length → l ≠ place (pa + i)) → u.byteAt l = s.byteAt l) ∧ { u with mem := s.mem } = s)
    ∧ idle (.readEventLog host) host 1 ∧ idle (.readDuskRecord host) host 2 ∧ idle (.readSensors host) host 3
    ∧ idle .writeFirmwareImage true 0x10 ∧ idle .commitFirmwareImage true 0x11
    ∧ idle .loadKeySlot false 0x20 ∧ idle .eraseKeySlot false 0x21
    ∧ (∀ u, ({ s with freeCount := s.freeCount + 32 * count } : State).boxWrite host (b.arg 0) (free (32 * count)) = some u →
        runs (.readEventLog host) host 1 0 fun t => (t.box host).arg 0 = count % 2 ^ 64 ∧ t.mem = u.mem)
    ∧ (s.dusk = none → runs (.readDuskRecord host) host 2 5 fun t => t.mem = s.mem)
    ∧ (∀ d u, s.dusk = some d →
        let n := Min.min (b.arg 2) (d.size - b.arg 1)
        s.boxWrite host (b.arg 0) (s.bytesAt (0x7FF0000000 + b.arg 1) n) = some u →
        runs (.readDuskRecord host) host 2 0 fun t => (t.box host).arg 0 = n % 2 ^ 64 ∧ t.mem = u.mem)
    ∧ runs (.readSensors host) host 3 0 (fun t => (t.box host).bytes 0 272 = free 272 ∧ t.mem = s.mem)
    ∧ (h.arg 0 + h.arg 2 ≤ 2 ^ 64 → runs .writeFirmwareImage true 0x10 0 fun t =>
        (t.fwSlot (!s.activeB)).image = old.take (h.arg 1) ++ (List.range (h.arg 2)).map (fun i => s.byteAt (place (h.arg 0 + i)))
          ++ old.drop (h.arg 1 + h.arg 2)
        ∧ t.fwSlot s.activeB = s.fwSlot s.activeB)
    ∧ (2 ^ 64 < h.arg 0 + h.arg 2 → runs .writeFirmwareImage true 0x10 2 fun t =>
        t.fwSlot (!s.activeB) = x ∧ t.fwSlot s.activeB = s.fwSlot s.activeB)
    ∧ (good → runs .commitFirmwareImage true 0x11 0 fun t =>
        t.committed = true ∧ (t.fwSlot (!s.activeB)).image = img ∧ t.hostBox.arg 0 = Config.imageVersion img % 2 ^ 64)
    ∧ (¬ good → runs .commitFirmwareImage true 0x11 3 fun t => t.committed = false ∧ (t.fwSlot (!s.activeB)).image = [])
    ∧ runs .loadKeySlot false 0x20 0 (fun t =>
        (∀ j, Sparse.get none j t.keyBytes = if j = key then some (leNat (s.monBox.bytes 8 64)) else material j)
        ∧ (∀ j, Sparse.get 0 j t.keyLoads = loads j + if j = key then 1 else 0) ∧ t.monBox.bytes 8 64 = List.replicate 64 0 ∧ t.mem = s.mem)
    ∧ runs .eraseKeySlot false 0x21 0 (fun t =>
        (∀ j, Sparse.get none j t.keyBytes = if j = key then none else material j)
        ∧ (∀ j, Sparse.get 0 j t.keyLoads = loads j + if j = key then 1 else 0) ∧ t.mem = s.mem)
    -- what a read under slot `k` finds at place `l` of a line that was written under slot `j` as that holds `x` now
    ∧ (∀ j k x y l, material j = some x → material k = some y → l < 0x7FF0000000 →
        Sparse.get none (l / 64) s.lineKey = some (.loaded j (loads j) x) →
        s.plainByte k l = if x = y then s.byteAt l else
          (openBlock y (l / 64 * 64) (l % 64 / 16)
            (sealBlock x (l / 64 * 64) (l % 64 / 16) (s.bytesAt (l / 16 * 16) 16))).getD (l % 16) 0)
    ∧ (b.run = .idle → exec (.mailboxComplete host) s = .next s)
    ∧ ∀ c, (b.run = .ran c ∨ (b.run = .started ∧ strayCode host b.opcode = some c)) →
        ∃ t, exec (.mailboxComplete host) s = .next t ∧ t.box host = { b with run := .idle, result := c }
          ∧ t.msix = s.msix ++ (if host then [(b.fn, 1)] else [])
          ∧ (∀ k, (s.strand k).wait ≠ .wfi → t.strand k = s.strand k)
          ∧ (host = false → ∀ k, (s.strand k).mode = .monitor → k ∈ s.residents → (t.strand k).wait ≠ .wfi)

/-- R217, R269, R271, R281, R305 and R320: what the host and the peer devices read of this part's memory changes no byte,
what they write stands in it, but for the Dusk region and for bytes of a line that carries the poison marker and that the
write does not cover whole, and a peer's atomic changes the bytes that it names alone; a peer's access counts for its page
(no key: log 6, so that the rest of a line whose key no slot holds any more is not preserved; what such an access acquires
and releases: log 17; the Dusk region: log 35; the count: log 33). -/
def Obligations.OutsideAccesses : Prop :=
  ∀ (s : State) (dev at_ n : Nat) (bs : List Byte) (o : AmoOp) (wide : Bool) (v c : Word),
    let lost (l k len : Nat) : Prop :=
      (k / 64 ∈ s.poison ∧ k < 2 ^ 39 ∧ ¬ (l ≤ k / 64 * 64 ∧ k / 64 * 64 + 64 ≤ l + len))
      ∨ (0x7FF0000000 ≤ k ∧ k < 2 ^ 39)
    let held (k : Nat) : Prop := ∀ w, Sparse.get none (k / 64) s.lineKey = some w → s.keyHeld w = true
    let reads (i : Instr) : Prop := ∃ t, exec i s = .next t ∧ t.mem = s.mem ∧ t.strands = s.strands
    let writes (i : Instr) (l : Nat) (bs : List Byte) : Prop :=
      ∃ t, exec i s = .next t ∧ t.strands = s.strands
        ∧ ∀ k, ((l ≤ k ∧ k < l + bs.length ∧ ¬ lost l k bs.length) → some (t.byteAt k) = bs[k - l]?)
          ∧ (¬ (l ≤ k ∧ k < l + bs.length ∧ ¬ lost l k bs.length) →
              held k ∨ k / 64 < l / 64 ∨ l + bs.length ≤ k / 64 * 64 → t.byteAt k = s.byteAt k)
    let member : Prop := dev ∈ s.peers ∧ dev ∉ s.removed
    let z := if wide then 8 else 4
    let old := leNat ((List.range z).map fun i => s.clearByte (at_ + i))
    (at_ + n ≤ 2 ^ 39 → reads (.hostMemoryAccess at_ n none))
    ∧ (at_ + bs.length ≤ 2 ^ 39 → writes (.hostMemoryAccess at_ bs.length (some bs)) at_ bs)
    ∧ (2 ^ 39 < at_ + n → exec (.hostMemoryAccess at_ n none) s = .next s)
    ∧ (¬ member → ∀ op, exec (.peerMemoryAccess dev at_ op) s = .next s)
    ∧ (member →
      (∀ op, ∃ t, exec (.peerMemoryAccess dev at_ op) s = .next t ∧ Sparse.get 0 (at_ / 65536 * 128 + dev) t.pageUse
        = Sparse.get 0 (at_ / 65536 * 128 + dev) s.pageUse + 1)
      ∧ (at_ + n ≤ 2 ^ 39 → reads (.peerMemoryAccess dev at_ (.read n)))
      ∧ (at_ + bs.length ≤ 2 ^ 39 → writes (.peerMemoryAccess dev at_ (.write bs)) at_ bs)
      ∧ (at_ + z ≤ 2 ^ 39 → at_ % z = 0 → at_ / 64 ∉ s.poison → at_ / 64 ∉ s.badLines →
        match atomicWrites o z old (v.toNat % 2 ^ (8 * z)) (c.toNat % 2 ^ (8 * z)) with
        | none => reads (.peerMemoryAccess dev at_ (.amo o wide v c))
        | some w => writes (.peerMemoryAccess dev at_ (.amo o wide v c)) at_ (leBytes z w)))

/-! ### The package as a whole -/

/-- R68 and the encoding examples of the rules: words that the manual writes out, and what they stand for; two words that
are no instruction. -/
def Obligations.DecodesWrittenWords : Prop :=
  let is (w : IWord) (i : Instr) : Prop := decodeWord w = .ok i
  is 0x04000000 .nop ∧ is 0x08720904 (.mulhu 7 8 9) ∧ is 0x0CA24000 (.addi 10 9 0) ∧ is 0x1C312011 (.srai 3 4 17)
  ∧ is 0x28548D16 (.lhi 5 0x48D16) ∧ is 0x3051AFF8 (.lds 5 6 .w 0xFF8) ∧ is 0x3C5180D0 (.amo 5 6 .add .acq .pkg false)
  ∧ is 0x44A03FF9 (.bne 10 0 0x3FF9) ∧ is 0x6841A002 (.setvlx 4 6 2) ∧ is 0x74C36A00 (.fsh 12 13 40)
  ∧ is 0x80404682 (.vmul 4 1 6 true) ∧ is 0x84818703 (.vfmaScalar 8 6 7 false) ∧ is 0x88124302 (.vcmp 1 9 3 .lt)
  ∧ is 0x8CD10D00 (.vredsum 13 4 13) ∧ is 0x90718082 (.vexp2 7 6 true) ∧ is 0x9410C101 (.vcomp 1 3 1)
  ∧ is 0x9C200004 (.vbr 2 4) ∧ is 0xA460850A (.csplice 6 2 5) ∧ is 0xA8626002 (.cputImm 6 9 2)
  ∧ is 0xAC220104 (.vldk 2 8 1) ∧ is 0xB0914402 (.vstx 9 5 4) ∧ is 0xB4830001 (.strmx 8 12) ∧ is 0xB8030002 (.cpyr 12)
  ∧ is 0xBC508601 (.ktest 5 2 6) ∧ is 0xC000001D (.fence .sc .pkg) ∧ is 0xC421C997 (.vamo 2 7 9 .cas .acq .sys)
  ∧ is 0xC9010504 (.mma 16 4 5) ∧ is 0xCCA2C002 (.tkget 10 11) ∧ is 0xD1D78007 (.citr 29 30)
  ∧ is 0xD5A6D801 (.ldt 26 27 24 .h)
  ∧ decodeWord 0x803042FF = .error .unassigned ∧ decodeWord 0x82304200 = .error .reserved

/-- R55-R68: the encoder and the decoder agree: a word of a well-formed instruction decodes to it, and a word that decodes
is the word of the well-formed instruction that it decodes to. -/
def Obligations.DecodeEncode : Prop :=
  (∀ i : Instr, i.wf = true → i.encoded = true → ∃ w, encode i = some w ∧ decodeWord w = .ok i)
  ∧ ∀ (w : IWord) (i : Instr), decodeWord w = .ok i → i.wf = true ∧ i.encoded = true ∧ encode i = some w

/-- R275 and R284: right after reset Dawn has not begun, no strand is resident, nothing is halted, every complex and partition
is as a reset leaves it, and memory, in its canonical form, lists nothing (an unlisted byte reads 0: the model's choice,
log 3; empty tables of the launch unit, log and near SRAM: log 4). -/
def Obligations.ResetState : Prop :=
  State.reset.memOk ∧ State.reset.stage = 0 ∧ State.reset.failCode = 0 ∧ State.reset.halted = false
  ∧ (∀ i, (State.reset.strand i).resident = false) ∧ (∀ x, State.reset.cx x = {}) ∧ (∀ p, State.reset.part p = {})
  ∧ (∀ l, State.reset.byteAt l = 0) ∧ State.reset.copies = [] ∧ State.reset.log = []

/-- Every step keeps the canonical form of memory, so that equal memories are equal data. -/
def Obligations.StepKeepsMemoryCanonical : Prop :=
  ∀ s t : State, s.memOk → Sys2Proof.Machine.step s = .next t → t.memOk

/-- R36, R43, R55, R67, R293 and R294: when the environment has chosen that strand `sid` issues next, a step passes one
clock, and when it is ready and its core issues from it runs what the word at its PC decodes to; a word that is no
instruction traps. A pre-emption that it may take goes before a convoy that does not fail when it is decoded, after a
`tret` and where it waits, but after an instruction that traps and after `end`. A strand that waits becomes ready when it
has what it waits for (the agenda and how a wait ends: log 5; one clock a step: log 36; when a monitor strand has trapped:
log 70). -/
def Obligations.StepRunsDecodedInstruction : Prop :=
  ∀ (s : State) (sid : Nat) (rest : List Move),
    let v : State := ({ s with agenda := rest } : State).tick
    let m := v.strand sid
    let u : State := v.issuing sid
    let word := u.fetch sid m.pc.toNat
    let step := Sys2Proof.Machine.step s
    let turn : Prop := m.wait = .none ∧ v.nextOn (coreOf sid) = some sid
    -- a word that is no instruction, or cannot be fetched
    let stops : Prop :=
      (∀ w, word = .ok w → decodeWord w = .error .unassigned → step = exec (.unassignedOpcode w) u)
      ∧ (∀ w, word = .ok w → decodeWord w = .error .reserved → step = exec (.reservedFieldNotZero w) u)
      ∧ (∀ e, word = .error e → step = exec .fetchFault u)
    -- strand `sid` has trapped, or a double fault has ended it
    let trapped (t : State) : Prop :=
      (t.strand sid).resident = false
      ∨ (if m.mode = .monitor then (t.strand sid).pc = v.mvec else (t.strand sid).mode ≠ .user)
    s.halted = false → s.agenda = .issue sid :: rest → m.resident = true →
    v.clock = s.clock + 1 ∧ u.cur = sid
    ∧ (∀ k, (v.strand k).resident = (s.strand k).resident ∧ (v.strand k).pc = (s.strand k).pc
        ∧ (v.strand k).wait = (s.strand k).wait)
    ∧ (m.mayPreempt = false →
      (turn → (∀ w i, word = .ok w → decodeWord w = .ok i → step = exec i u) ∧ stops)
      ∧ (m.wait = .none → v.nextOn (coreOf sid) ≠ some sid → step = .next v)
      ∧ (m.wait.blocks = true → step = .next v)
      ∧ (m.wait ≠ .none → m.wait.blocks = false → (∀ w, word = .ok w → ∀ i, decodeWord w ≠ .ok i) →
          step = .next (v.setStrand sid { m with wait := .none }))
      ∧ ∀ w i t, m.wait ≠ .none → m.wait.blocks = false → word = .ok w → decodeWord w = .ok i →
          exec i { v with cur := sid } = .next t →
          step = .next (if (t.strand sid).wait = m.wait then v else v.setStrand sid { m with wait := .none }))
    ∧ (m.mayPreempt = true →
      (m.wait ≠ .none → step = exec (.preemptionTaken sid 0) v)
      ∧ (m.wait = .none → v.nextOn (coreOf sid) ≠ some sid → step = .next v)
      ∧ (turn → m.due = true → step = exec (.preemptionTaken sid 0) u)
      ∧ (turn → m.due = false → stops)
      ∧ ∀ w i, turn → m.due = false → word = .ok w → decodeWord w = .ok i →
        (opensConvoy m.gm i = true → u.convoyFails i = false → step = exec (.preemptionTaken sid 0) u)
        ∧ (i = .endStrand → step = exec i u)
        ∧ ∀ t, opensConvoy m.gm i = false ∨ u.convoyFails i = true → i ≠ .endStrand → exec i u = .next t →
            (trapped t → step = .next t) ∧ (¬ trapped t → step = exec (.preemptionTaken sid 0) u))

end
end

