-- ==== Sys2Proof/Laws/Sparse.lean ====
section
/-! SUPPORT. Sparse tables: reading after a write, and the canonical form that every write keeps. -/

namespace Sys2Proof.Machine

variable {α : Type}

theorem Sparse.get_erase_same (d : α) (k : Nat) (t : Sparse α) : Sparse.get d k (Sparse.erase k t) = d := by
  induction t with
  | nil => rfl
  | cons e t ih =>
      simp only [Sparse.erase, List.filter_cons] at ih ⊢
      split
      · next h => rw [Sparse.get, if_neg (by simpa using h)]; exact ih
      · exact ih

theorem Sparse.get_erase_ne (d : α) {j k : Nat} (h : j ≠ k) (t : Sparse α) :
    Sparse.get d j (Sparse.erase k t) = Sparse.get d j t := by
  induction t with
  | nil => rfl
  | cons e t ih =>
      simp only [Sparse.erase, List.filter_cons] at ih ⊢
      split
      · simp only [Sparse.get, ih]
      · next hk =>
          have : e.1 = k := by simpa using hk
          rw [ih, Sparse.get, if_neg (by omega)]

theorem Sparse.get_place_ne (d : α) {j k : Nat} (h : j ≠ k) (v : α) (t : Sparse α) :
    Sparse.get d j (Sparse.place k v t) = Sparse.get d j t := by
  induction t with
  | nil => simp [Sparse.place, Sparse.get, Ne.symm h]
  | cons e t ih =>
      simp only [Sparse.place]
      split <;> simp [Sparse.get, ih, Ne.symm h]

theorem Sparse.get_place_same (d : α) (k : Nat) (v : α) (t : Sparse α) (h : ∀ e ∈ t, e.1 ≠ k) :
    Sparse.get d k (Sparse.place k v t) = v := by
  induction t with
  | nil => simp [Sparse.place, Sparse.get]
  | cons e t ih =>
      simp only [Sparse.place]
      split
      · simp [Sparse.get]
      · rw [Sparse.get, if_neg (h e (by simp))]
        exact ih fun x hx => h x (by simp [hx])

theorem Sparse.mem_erase {k : Nat} {t : Sparse α} {e : Nat × α} : e ∈ Sparse.erase k t ↔ e ∈ t ∧ e.1 ≠ k := by
  simp [Sparse.erase, List.mem_filter]

theorem Sparse.mem_place {k : Nat} {v : α} {t : Sparse α} {e : Nat × α} :
    e ∈ Sparse.place k v t ↔ e = (k, v) ∨ e ∈ t := by
  induction t with
  | nil => simp [Sparse.place]
  | cons x t ih =>
      simp only [Sparse.place]
      split
      · simp
      · simp only [List.mem_cons, ih]; tauto

variable [DecidableEq α]

/-- A read after a write of the same key finds what was written. -/
@[simp] theorem Sparse.get_put_same (d : α) (k : Nat) (v : α) (t : Sparse α) :
    Sparse.get d k (Sparse.put d k v t) = v := by
  unfold Sparse.put
  split
  · next h => rw [h, Sparse.get_erase_same]
  · exact Sparse.get_place_same d k v _ fun e he => (Sparse.mem_erase.1 he).2

/-- A write leaves every other key alone. -/
theorem Sparse.get_put_ne (d : α) {j k : Nat} (h : j ≠ k) (v : α) (t : Sparse α) :
    Sparse.get d j (Sparse.put d k v t) = Sparse.get d j t := by
  unfold Sparse.put
  split
  · exact Sparse.get_erase_ne d h t
  · rw [Sparse.get_place_ne d h, Sparse.get_erase_ne d h]

/-- Both in one: what any key reads as after a write. -/
theorem Sparse.get_put (d : α) (j k : Nat) (v : α) (t : Sparse α) :
    Sparse.get d j (Sparse.put d k v t) = if j = k then v else Sparse.get d j t := by
  split
  · next h => rw [h, Sparse.get_put_same]
  · next h => exact Sparse.get_put_ne d h v t

omit [DecidableEq α] in
@[simp] theorem Sparse.get_nil (d : α) (k : Nat) : Sparse.get d k [] = d := rfl

/-! ### The canonical form -/

omit [DecidableEq α] in
theorem Sparse.rising_cons {e : Nat × α} {t : Sparse α} :
    Sparse.rising (e :: t) = true ↔ (∀ x ∈ t, e.1 < x.1) ∧ Sparse.rising t = true := by
  induction t generalizing e with
  | nil => simp [Sparse.rising]
  | cons y t below =>
      rw [Sparse.rising, Bool.and_eq_true, decide_eq_true_eq, below]
      exact ⟨fun ⟨first, rest, r⟩ =>
          ⟨List.forall_mem_cons.2 ⟨first, fun x m => first.trans (rest x m)⟩, rest, r⟩,
        fun ⟨all, r⟩ => ⟨(List.forall_mem_cons.1 all).1, r⟩⟩

omit [DecidableEq α] in
theorem Sparse.rising_erase (k : Nat) {t : Sparse α} (h : Sparse.rising t = true) :
    Sparse.rising (Sparse.erase k t) = true := by
  induction t with
  | nil => rfl
  | cons e t ih =>
      rw [Sparse.rising_cons] at h
      simp only [Sparse.erase, List.filter_cons]
      split
      · exact Sparse.rising_cons.2 ⟨fun x hx => h.1 x (Sparse.mem_erase.1 hx).1, ih h.2⟩
      · exact ih h.2

omit [DecidableEq α] in
theorem Sparse.rising_place {k : Nat} {v : α} {t : Sparse α} (h : Sparse.rising t = true)
    (hk : ∀ e ∈ t, e.1 ≠ k) : Sparse.rising (Sparse.place k v t) = true := by
  induction t with
  | nil => rfl
  | cons e t ih =>
      have h' := Sparse.rising_cons.1 h
      simp only [Sparse.place]
      split
      · next hlt =>
          refine Sparse.rising_cons.2 ⟨fun x hx => ?_, h⟩
          rcases List.mem_cons.1 hx with rfl | hx
          · exact hlt
          · exact Nat.lt_trans hlt (h'.1 x hx)
      · next hlt =>
          refine Sparse.rising_cons.2 ⟨fun x hx => ?_, ih h'.2 fun x hx => hk x (by simp [hx])⟩
          rcases Sparse.mem_place.1 hx with rfl | hx
          · have := hk e (by simp); simp only at hlt ⊢; omega
          · exact h'.1 x hx

/-- Every write keeps the canonical form. -/
theorem Sparse.wf_put (d : α) (k : Nat) (v : α) {t : Sparse α} (h : Sparse.wf d t = true) :
    Sparse.wf d (Sparse.put d k v t) = true := by
  simp only [Sparse.wf, Bool.and_eq_true, List.all_eq_true, bne_iff_ne, ne_eq] at h ⊢
  unfold Sparse.put
  split
  · exact ⟨Sparse.rising_erase k h.1, fun e he => h.2 e (Sparse.mem_erase.1 he).1⟩
  · next hv =>
      refine ⟨Sparse.rising_place (Sparse.rising_erase k h.1) fun e he => (Sparse.mem_erase.1 he).2, fun e he => ?_⟩
      rcases Sparse.mem_place.1 he with rfl | he
      · exact hv
      · exact h.2 e (Sparse.mem_erase.1 he).1

end Sys2Proof.Machine
end

