-- ==== Sys2Proof/Laws/State.lean ====
section
/-! SUPPORT. The small lemmas of `State` and `Strand`: what each update leaves in each field, and reads after writes. -/

namespace Sys2Proof.Machine

/-! ### What the updates of the package leave -/

@[simp] theorem State.setStrand_cxs (s : State) (i : Nat) (t : Strand) : (s.setStrand i t).cxs = s.cxs := rfl
@[simp] theorem State.setStrand_parts (s : State) (i : Nat) (t : Strand) : (s.setStrand i t).parts = s.parts := rfl
@[simp] theorem State.setStrand_mem (s : State) (i : Nat) (t : Strand) : (s.setStrand i t).mem = s.mem := rfl
@[simp] theorem State.setStrand_lineKey (s : State) (i : Nat) (t : Strand) : (s.setStrand i t).lineKey = s.lineKey := rfl
@[simp] theorem State.setStrand_keyLoads (s : State) (i : Nat) (t : Strand) : (s.setStrand i t).keyLoads = s.keyLoads := rfl
@[simp] theorem State.setStrand_keyBytes (s : State) (i : Nat) (t : Strand) : (s.setStrand i t).keyBytes = s.keyBytes := rfl
@[simp] theorem State.setStrand_poison (s : State) (i : Nat) (t : Strand) : (s.setStrand i t).poison = s.poison := rfl
@[simp] theorem State.setStrand_badLines (s : State) (i : Nat) (t : Strand) : (s.setStrand i t).badLines = s.badLines := rfl
@[simp] theorem State.setStrand_copies (s : State) (i : Nat) (t : Strand) : (s.setStrand i t).copies = s.copies := rfl
@[simp] theorem State.setStrand_order (s : State) (i : Nat) (t : Strand) : (s.setStrand i t).order = s.order := rfl
@[simp] theorem State.setStrand_clock (s : State) (i : Nat) (t : Strand) : (s.setStrand i t).clock = s.clock := rfl
@[simp] theorem State.setStrand_psel (s : State) (i : Nat) (t : Strand) : (s.setStrand i t).psel = s.psel := rfl
@[simp] theorem State.setStrand_mvec (s : State) (i : Nat) (t : Strand) : (s.setStrand i t).mvec = s.mvec := rfl
@[simp] theorem State.setStrand_qpwrOn (s : State) (i : Nat) (t : Strand) : (s.setStrand i t).qpwrOn = s.qpwrOn := rfl
@[simp] theorem State.setStrand_qpwrReady (s : State) (i : Nat) (t : Strand) : (s.setStrand i t).qpwrReady = s.qpwrReady := rfl
@[simp] theorem State.setStrand_clockStep (s : State) (i : Nat) (t : Strand) : (s.setStrand i t).clockStep = s.clockStep := rfl
@[simp] theorem State.setStrand_time (s : State) (i : Nat) (t : Strand) : (s.setStrand i t).time = s.time := rfl
@[simp] theorem State.setStrand_steppedAt (s : State) (i : Nat) (t : Strand) : (s.setStrand i t).steppedAt = s.steppedAt := rfl
@[simp] theorem State.setStrand_coolAt (s : State) (i : Nat) (t : Strand) : (s.setStrand i t).coolAt = s.coolAt := rfl
@[simp] theorem State.setStrand_stage (s : State) (i : Nat) (t : Strand) : (s.setStrand i t).stage = s.stage := rfl
@[simp] theorem State.setStrand_failCode (s : State) (i : Nat) (t : Strand) : (s.setStrand i t).failCode = s.failCode := rfl
@[simp] theorem State.setStrand_halted (s : State) (i : Nat) (t : Strand) : (s.setStrand i t).halted = s.halted := rfl
@[simp] theorem State.setStrand_hostBox (s : State) (i : Nat) (t : Strand) : (s.setStrand i t).hostBox = s.hostBox := rfl
@[simp] theorem State.setStrand_monBox (s : State) (i : Nat) (t : Strand) : (s.setStrand i t).monBox = s.monBox := rfl
@[simp] theorem State.setStrand_fwA (s : State) (i : Nat) (t : Strand) : (s.setStrand i t).fwA = s.fwA := rfl
@[simp] theorem State.setStrand_fwB (s : State) (i : Nat) (t : Strand) : (s.setStrand i t).fwB = s.fwB := rfl
@[simp] theorem State.setStrand_activeB (s : State) (i : Nat) (t : Strand) : (s.setStrand i t).activeB = s.activeB := rfl
@[simp] theorem State.setStrand_committed (s : State) (i : Nat) (t : Strand) : (s.setStrand i t).committed = s.committed := rfl
@[simp] theorem State.setStrand_rollback (s : State) (i : Nat) (t : Strand) : (s.setStrand i t).rollback = s.rollback := rfl
@[simp] theorem State.setStrand_log (s : State) (i : Nat) (t : Strand) : (s.setStrand i t).log = s.log := rfl
@[simp] theorem State.setStrand_dusk (s : State) (i : Nat) (t : Strand) : (s.setStrand i t).dusk = s.dusk := rfl
@[simp] theorem State.setStrand_msix (s : State) (i : Nat) (t : Strand) : (s.setStrand i t).msix = s.msix := rfl
@[simp] theorem State.setStrand_peers (s : State) (i : Nat) (t : Strand) : (s.setStrand i t).peers = s.peers := rfl
@[simp] theorem State.setStrand_removed (s : State) (i : Nat) (t : Strand) : (s.setStrand i t).removed = s.removed := rfl
@[simp] theorem State.setStrand_linksDown (s : State) (i : Nat) (t : Strand) : (s.setStrand i t).linksDown = s.linksDown := rfl
@[simp] theorem State.setStrand_losing (s : State) (i : Nat) (t : Strand) : (s.setStrand i t).losing = s.losing := rfl
@[simp] theorem State.setStrand_pageHome (s : State) (i : Nat) (t : Strand) : (s.setStrand i t).pageHome = s.pageHome := rfl
@[simp] theorem State.setStrand_pageMoves (s : State) (i : Nat) (t : Strand) : (s.setStrand i t).pageMoves = s.pageMoves := rfl
@[simp] theorem State.setStrand_windowAt (s : State) (i : Nat) (t : Strand) : (s.setStrand i t).windowAt = s.windowAt := rfl
@[simp] theorem State.setStrand_pageUse (s : State) (i : Nat) (t : Strand) : (s.setStrand i t).pageUse = s.pageUse := rfl
@[simp] theorem State.setStrand_errors (s : State) (i : Nat) (t : Strand) : (s.setStrand i t).errors = s.errors := rfl
@[simp] theorem State.setStrand_lasting (s : State) (i : Nat) (t : Strand) : (s.setStrand i t).lasting = s.lasting := rfl
@[simp] theorem State.setStrand_spares (s : State) (i : Nat) (t : Strand) : (s.setStrand i t).spares = s.spares := rfl
@[simp] theorem State.setStrand_retired (s : State) (i : Nat) (t : Strand) : (s.setStrand i t).retired = s.retired := rfl
@[simp] theorem State.setStrand_cur (s : State) (i : Nat) (t : Strand) : (s.setStrand i t).cur = s.cur := rfl
@[simp] theorem State.setStrand_turns (s : State) (i : Nat) (t : Strand) : (s.setStrand i t).turns = s.turns := rfl
@[simp] theorem State.setStrand_agenda (s : State) (i : Nat) (t : Strand) : (s.setStrand i t).agenda = s.agenda := rfl
@[simp] theorem State.setStrand_freeCount (s : State) (i : Nat) (t : Strand) : (s.setStrand i t).freeCount = s.freeCount := rfl
@[simp] theorem State.setStrand_nextId (s : State) (i : Nat) (t : Strand) : (s.setStrand i t).nextId = s.nextId := rfl

@[simp] theorem State.setMe_cxs (s : State) (t : Strand) : (s.setMe t).cxs = s.cxs := rfl
@[simp] theorem State.setMe_parts (s : State) (t : Strand) : (s.setMe t).parts = s.parts := rfl
@[simp] theorem State.setMe_mem (s : State) (t : Strand) : (s.setMe t).mem = s.mem := rfl
@[simp] theorem State.setMe_lineKey (s : State) (t : Strand) : (s.setMe t).lineKey = s.lineKey := rfl
@[simp] theorem State.setMe_keyLoads (s : State) (t : Strand) : (s.setMe t).keyLoads = s.keyLoads := rfl
@[simp] theorem State.setMe_keyBytes (s : State) (t : Strand) : (s.setMe t).keyBytes = s.keyBytes := rfl
@[simp] theorem State.setMe_poison (s : State) (t : Strand) : (s.setMe t).poison = s.poison := rfl
@[simp] theorem State.setMe_badLines (s : State) (t : Strand) : (s.setMe t).badLines = s.badLines := rfl
@[simp] theorem State.setMe_copies (s : State) (t : Strand) : (s.setMe t).copies = s.copies := rfl
@[simp] theorem State.setMe_order (s : State) (t : Strand) : (s.setMe t).order = s.order := rfl
@[simp] theorem State.setMe_clock (s : State) (t : Strand) : (s.setMe t).clock = s.clock := rfl
@[simp] theorem State.setMe_psel (s : State) (t : Strand) : (s.setMe t).psel = s.psel := rfl
@[simp] theorem State.setMe_mvec (s : State) (t : Strand) : (s.setMe t).mvec = s.mvec := rfl
@[simp] theorem State.setMe_qpwrOn (s : State) (t : Strand) : (s.setMe t).qpwrOn = s.qpwrOn := rfl
@[simp] theorem State.setMe_qpwrReady (s : State) (t : Strand) : (s.setMe t).qpwrReady = s.qpwrReady := rfl
@[simp] theorem State.setMe_clockStep (s : State) (t : Strand) : (s.setMe t).clockStep = s.clockStep := rfl
@[simp] theorem State.setMe_time (s : State) (t : Strand) : (s.setMe t).time = s.time := rfl
@[simp] theorem State.setMe_steppedAt (s : State) (t : Strand) : (s.setMe t).steppedAt = s.steppedAt := rfl
@[simp] theorem State.setMe_coolAt (s : State) (t : Strand) : (s.setMe t).coolAt = s.coolAt := rfl
@[simp] theorem State.setMe_stage (s : State) (t : Strand) : (s.setMe t).stage = s.stage := rfl
@[simp] theorem State.setMe_failCode (s : State) (t : Strand) : (s.setMe t).failCode = s.failCode := rfl
@[simp] theorem State.setMe_halted (s : State) (t : Strand) : (s.setMe t).halted = s.halted := rfl
@[simp] theorem State.setMe_hostBox (s : State) (t : Strand) : (s.setMe t).hostBox = s.hostBox := rfl
@[simp] theorem State.setMe_monBox (s : State) (t : Strand) : (s.setMe t).monBox = s.monBox := rfl
@[simp] theorem State.setMe_fwA (s : State) (t : Strand) : (s.setMe t).fwA = s.fwA := rfl
@[simp] theorem State.setMe_fwB (s : State) (t : Strand) : (s.setMe t).fwB = s.fwB := rfl
@[simp] theorem State.setMe_activeB (s : State) (t : Strand) : (s.setMe t).activeB = s.activeB := rfl
@[simp] theorem State.setMe_committed (s : State) (t : Strand) : (s.setMe t).committed = s.committed := rfl
@[simp] theorem State.setMe_rollback (s : State) (t : Strand) : (s.setMe t).rollback = s.rollback := rfl
@[simp] theorem State.setMe_log (s : State) (t : Strand) : (s.setMe t).log = s.log := rfl
@[simp] theorem State.setMe_dusk (s : State) (t : Strand) : (s.setMe t).dusk = s.dusk := rfl
@[simp] theorem State.setMe_msix (s : State) (t : Strand) : (s.setMe t).msix = s.msix := rfl
@[simp] theorem State.setMe_peers (s : State) (t : Strand) : (s.setMe t).peers = s.peers := rfl
@[simp] theorem State.setMe_removed (s : State) (t : Strand) : (s.setMe t).removed = s.removed := rfl
@[simp] theorem State.setMe_linksDown (s : State) (t : Strand) : (s.setMe t).linksDown = s.linksDown := rfl
@[simp] theorem State.setMe_losing (s : State) (t : Strand) : (s.setMe t).losing = s.losing := rfl
@[simp] theorem State.setMe_pageHome (s : State) (t : Strand) : (s.setMe t).pageHome = s.pageHome := rfl
@[simp] theorem State.setMe_pageMoves (s : State) (t : Strand) : (s.setMe t).pageMoves = s.pageMoves := rfl
@[simp] theorem State.setMe_windowAt (s : State) (t : Strand) : (s.setMe t).windowAt = s.windowAt := rfl
@[simp] theorem State.setMe_pageUse (s : State) (t : Strand) : (s.setMe t).pageUse = s.pageUse := rfl
@[simp] theorem State.setMe_errors (s : State) (t : Strand) : (s.setMe t).errors = s.errors := rfl
@[simp] theorem State.setMe_lasting (s : State) (t : Strand) : (s.setMe t).lasting = s.lasting := rfl
@[simp] theorem State.setMe_spares (s : State) (t : Strand) : (s.setMe t).spares = s.spares := rfl
@[simp] theorem State.setMe_retired (s : State) (t : Strand) : (s.setMe t).retired = s.retired := rfl
@[simp] theorem State.setMe_cur (s : State) (t : Strand) : (s.setMe t).cur = s.cur := rfl
@[simp] theorem State.setMe_turns (s : State) (t : Strand) : (s.setMe t).turns = s.turns := rfl
@[simp] theorem State.setMe_agenda (s : State) (t : Strand) : (s.setMe t).agenda = s.agenda := rfl
@[simp] theorem State.setMe_freeCount (s : State) (t : Strand) : (s.setMe t).freeCount = s.freeCount := rfl
@[simp] theorem State.setMe_nextId (s : State) (t : Strand) : (s.setMe t).nextId = s.nextId := rfl

@[simp] theorem State.setPart_strands (s : State) (p : Nat) (x : Partition) : (s.setPart p x).strands = s.strands := rfl
@[simp] theorem State.setPart_cxs (s : State) (p : Nat) (x : Partition) : (s.setPart p x).cxs = s.cxs := rfl
@[simp] theorem State.setPart_mem (s : State) (p : Nat) (x : Partition) : (s.setPart p x).mem = s.mem := rfl
@[simp] theorem State.setPart_lineKey (s : State) (p : Nat) (x : Partition) : (s.setPart p x).lineKey = s.lineKey := rfl
@[simp] theorem State.setPart_keyLoads (s : State) (p : Nat) (x : Partition) : (s.setPart p x).keyLoads = s.keyLoads := rfl
@[simp] theorem State.setPart_keyBytes (s : State) (p : Nat) (x : Partition) : (s.setPart p x).keyBytes = s.keyBytes := rfl
@[simp] theorem State.setPart_poison (s : State) (p : Nat) (x : Partition) : (s.setPart p x).poison = s.poison := rfl
@[simp] theorem State.setPart_badLines (s : State) (p : Nat) (x : Partition) : (s.setPart p x).badLines = s.badLines := rfl
@[simp] theorem State.setPart_copies (s : State) (p : Nat) (x : Partition) : (s.setPart p x).copies = s.copies := rfl
@[simp] theorem State.setPart_order (s : State) (p : Nat) (x : Partition) : (s.setPart p x).order = s.order := rfl
@[simp] theorem State.setPart_clock (s : State) (p : Nat) (x : Partition) : (s.setPart p x).clock = s.clock := rfl
@[simp] theorem State.setPart_psel (s : State) (p : Nat) (x : Partition) : (s.setPart p x).psel = s.psel := rfl
@[simp] theorem State.setPart_mvec (s : State) (p : Nat) (x : Partition) : (s.setPart p x).mvec = s.mvec := rfl
@[simp] theorem State.setPart_qpwrOn (s : State) (p : Nat) (x : Partition) : (s.setPart p x).qpwrOn = s.qpwrOn := rfl
@[simp] theorem State.setPart_qpwrReady (s : State) (p : Nat) (x : Partition) : (s.setPart p x).qpwrReady = s.qpwrReady := rfl
@[simp] theorem State.setPart_clockStep (s : State) (p : Nat) (x : Partition) : (s.setPart p x).clockStep = s.clockStep := rfl
@[simp] theorem State.setPart_time (s : State) (p : Nat) (x : Partition) : (s.setPart p x).time = s.time := rfl
@[simp] theorem State.setPart_steppedAt (s : State) (p : Nat) (x : Partition) : (s.setPart p x).steppedAt = s.steppedAt := rfl
@[simp] theorem State.setPart_coolAt (s : State) (p : Nat) (x : Partition) : (s.setPart p x).coolAt = s.coolAt := rfl
@[simp] theorem State.setPart_stage (s : State) (p : Nat) (x : Partition) : (s.setPart p x).stage = s.stage := rfl
@[simp] theorem State.setPart_failCode (s : State) (p : Nat) (x : Partition) : (s.setPart p x).failCode = s.failCode := rfl
@[simp] theorem State.setPart_halted (s : State) (p : Nat) (x : Partition) : (s.setPart p x).halted = s.halted := rfl
@[simp] theorem State.setPart_hostBox (s : State) (p : Nat) (x : Partition) : (s.setPart p x).hostBox = s.hostBox := rfl
@[simp] theorem State.setPart_monBox (s : State) (p : Nat) (x : Partition) : (s.setPart p x).monBox = s.monBox := rfl
@[simp] theorem State.setPart_fwA (s : State) (p : Nat) (x : Partition) : (s.setPart p x).fwA = s.fwA := rfl
@[simp] theorem State.setPart_fwB (s : State) (p : Nat) (x : Partition) : (s.setPart p x).fwB = s.fwB := rfl
@[simp] theorem State.setPart_activeB (s : State) (p : Nat) (x : Partition) : (s.setPart p x).activeB = s.activeB := rfl
@[simp] theorem State.setPart_committed (s : State) (p : Nat) (x : Partition) : (s.setPart p x).committed = s.committed := rfl
@[simp] theorem State.setPart_rollback (s : State) (p : Nat) (x : Partition) : (s.setPart p x).rollback = s.rollback := rfl
@[simp] theorem State.setPart_log (s : State) (p : Nat) (x : Partition) : (s.setPart p x).log = s.log := rfl
@[simp] theorem State.setPart_dusk (s : State) (p : Nat) (x : Partition) : (s.setPart p x).dusk = s.dusk := rfl
@[simp] theorem State.setPart_msix (s : State) (p : Nat) (x : Partition) : (s.setPart p x).msix = s.msix := rfl
@[simp] theorem State.setPart_peers (s : State) (p : Nat) (x : Partition) : (s.setPart p x).peers = s.peers := rfl
@[simp] theorem State.setPart_removed (s : State) (p : Nat) (x : Partition) : (s.setPart p x).removed = s.removed := rfl
@[simp] theorem State.setPart_linksDown (s : State) (p : Nat) (x : Partition) : (s.setPart p x).linksDown = s.linksDown := rfl
@[simp] theorem State.setPart_losing (s : State) (p : Nat) (x : Partition) : (s.setPart p x).losing = s.losing := rfl
@[simp] theorem State.setPart_pageHome (s : State) (p : Nat) (x : Partition) : (s.setPart p x).pageHome = s.pageHome := rfl
@[simp] theorem State.setPart_pageMoves (s : State) (p : Nat) (x : Partition) : (s.setPart p x).pageMoves = s.pageMoves := rfl
@[simp] theorem State.setPart_windowAt (s : State) (p : Nat) (x : Partition) : (s.setPart p x).windowAt = s.windowAt := rfl
@[simp] theorem State.setPart_pageUse (s : State) (p : Nat) (x : Partition) : (s.setPart p x).pageUse = s.pageUse := rfl
@[simp] theorem State.setPart_errors (s : State) (p : Nat) (x : Partition) : (s.setPart p x).errors = s.errors := rfl
@[simp] theorem State.setPart_lasting (s : State) (p : Nat) (x : Partition) : (s.setPart p x).lasting = s.lasting := rfl
@[simp] theorem State.setPart_spares (s : State) (p : Nat) (x : Partition) : (s.setPart p x).spares = s.spares := rfl
@[simp] theorem State.setPart_retired (s : State) (p : Nat) (x : Partition) : (s.setPart p x).retired = s.retired := rfl
@[simp] theorem State.setPart_cur (s : State) (p : Nat) (x : Partition) : (s.setPart p x).cur = s.cur := rfl
@[simp] theorem State.setPart_turns (s : State) (p : Nat) (x : Partition) : (s.setPart p x).turns = s.turns := rfl
@[simp] theorem State.setPart_agenda (s : State) (p : Nat) (x : Partition) : (s.setPart p x).agenda = s.agenda := rfl
@[simp] theorem State.setPart_freeCount (s : State) (p : Nat) (x : Partition) : (s.setPart p x).freeCount = s.freeCount := rfl
@[simp] theorem State.setPart_nextId (s : State) (p : Nat) (x : Partition) : (s.setPart p x).nextId = s.nextId := rfl

@[simp] theorem State.setCx_strands (s : State) (x : Nat) (c : Complex) : (s.setCx x c).strands = s.strands := rfl
@[simp] theorem State.setCx_parts (s : State) (x : Nat) (c : Complex) : (s.setCx x c).parts = s.parts := rfl
@[simp] theorem State.setCx_mem (s : State) (x : Nat) (c : Complex) : (s.setCx x c).mem = s.mem := rfl
@[simp] theorem State.setCx_lineKey (s : State) (x : Nat) (c : Complex) : (s.setCx x c).lineKey = s.lineKey := rfl
@[simp] theorem State.setCx_keyLoads (s : State) (x : Nat) (c : Complex) : (s.setCx x c).keyLoads = s.keyLoads := rfl
@[simp] theorem State.setCx_keyBytes (s : State) (x : Nat) (c : Complex) : (s.setCx x c).keyBytes = s.keyBytes := rfl
@[simp] theorem State.setCx_poison (s : State) (x : Nat) (c : Complex) : (s.setCx x c).poison = s.poison := rfl
@[simp] theorem State.setCx_badLines (s : State) (x : Nat) (c : Complex) : (s.setCx x c).badLines = s.badLines := rfl
@[simp] theorem State.setCx_copies (s : State) (x : Nat) (c : Complex) : (s.setCx x c).copies = s.copies := rfl
@[simp] theorem State.setCx_order (s : State) (x : Nat) (c : Complex) : (s.setCx x c).order = s.order := rfl
@[simp] theorem State.setCx_clock (s : State) (x : Nat) (c : Complex) : (s.setCx x c).clock = s.clock := rfl
@[simp] theorem State.setCx_psel (s : State) (x : Nat) (c : Complex) : (s.setCx x c).psel = s.psel := rfl
@[simp] theorem State.setCx_mvec (s : State) (x : Nat) (c : Complex) : (s.setCx x c).mvec = s.mvec := rfl
@[simp] theorem State.setCx_qpwrOn (s : State) (x : Nat) (c : Complex) : (s.setCx x c).qpwrOn = s.qpwrOn := rfl
@[simp] theorem State.setCx_qpwrReady (s : State) (x : Nat) (c : Complex) : (s.setCx x c).qpwrReady = s.qpwrReady := rfl
@[simp] theorem State.setCx_clockStep (s : State) (x : Nat) (c : Complex) : (s.setCx x c).clockStep = s.clockStep := rfl
@[simp] theorem State.setCx_time (s : State) (x : Nat) (c : Complex) : (s.setCx x c).time = s.time := rfl
@[simp] theorem State.setCx_steppedAt (s : State) (x : Nat) (c : Complex) : (s.setCx x c).steppedAt = s.steppedAt := rfl
@[simp] theorem State.setCx_coolAt (s : State) (x : Nat) (c : Complex) : (s.setCx x c).coolAt = s.coolAt := rfl
@[simp] theorem State.setCx_stage (s : State) (x : Nat) (c : Complex) : (s.setCx x c).stage = s.stage := rfl
@[simp] theorem State.setCx_failCode (s : State) (x : Nat) (c : Complex) : (s.setCx x c).failCode = s.failCode := rfl
@[simp] theorem State.setCx_halted (s : State) (x : Nat) (c : Complex) : (s.setCx x c).halted = s.halted := rfl
@[simp] theorem State.setCx_hostBox (s : State) (x : Nat) (c : Complex) : (s.setCx x c).hostBox = s.hostBox := rfl
@[simp] theorem State.setCx_monBox (s : State) (x : Nat) (c : Complex) : (s.setCx x c).monBox = s.monBox := rfl
@[simp] theorem State.setCx_fwA (s : State) (x : Nat) (c : Complex) : (s.setCx x c).fwA = s.fwA := rfl
@[simp] theorem State.setCx_fwB (s : State) (x : Nat) (c : Complex) : (s.setCx x c).fwB = s.fwB := rfl
@[simp] theorem State.setCx_activeB (s : State) (x : Nat) (c : Complex) : (s.setCx x c).activeB = s.activeB := rfl
@[simp] theorem State.setCx_committed (s : State) (x : Nat) (c : Complex) : (s.setCx x c).committed = s.committed := rfl
@[simp] theorem State.setCx_rollback (s : State) (x : Nat) (c : Complex) : (s.setCx x c).rollback = s.rollback := rfl
@[simp] theorem State.setCx_log (s : State) (x : Nat) (c : Complex) : (s.setCx x c).log = s.log := rfl
@[simp] theorem State.setCx_dusk (s : State) (x : Nat) (c : Complex) : (s.setCx x c).dusk = s.dusk := rfl
@[simp] theorem State.setCx_msix (s : State) (x : Nat) (c : Complex) : (s.setCx x c).msix = s.msix := rfl
@[simp] theorem State.setCx_peers (s : State) (x : Nat) (c : Complex) : (s.setCx x c).peers = s.peers := rfl
@[simp] theorem State.setCx_removed (s : State) (x : Nat) (c : Complex) : (s.setCx x c).removed = s.removed := rfl
@[simp] theorem State.setCx_linksDown (s : State) (x : Nat) (c : Complex) : (s.setCx x c).linksDown = s.linksDown := rfl
@[simp] theorem State.setCx_losing (s : State) (x : Nat) (c : Complex) : (s.setCx x c).losing = s.losing := rfl
@[simp] theorem State.setCx_pageHome (s : State) (x : Nat) (c : Complex) : (s.setCx x c).pageHome = s.pageHome := rfl
@[simp] theorem State.setCx_pageMoves (s : State) (x : Nat) (c : Complex) : (s.setCx x c).pageMoves = s.pageMoves := rfl
@[simp] theorem State.setCx_windowAt (s : State) (x : Nat) (c : Complex) : (s.setCx x c).windowAt = s.windowAt := rfl
@[simp] theorem State.setCx_pageUse (s : State) (x : Nat) (c : Complex) : (s.setCx x c).pageUse = s.pageUse := rfl
@[simp] theorem State.setCx_errors (s : State) (x : Nat) (c : Complex) : (s.setCx x c).errors = s.errors := rfl
@[simp] theorem State.setCx_lasting (s : State) (x : Nat) (c : Complex) : (s.setCx x c).lasting = s.lasting := rfl
@[simp] theorem State.setCx_spares (s : State) (x : Nat) (c : Complex) : (s.setCx x c).spares = s.spares := rfl
@[simp] theorem State.setCx_retired (s : State) (x : Nat) (c : Complex) : (s.setCx x c).retired = s.retired := rfl
@[simp] theorem State.setCx_cur (s : State) (x : Nat) (c : Complex) : (s.setCx x c).cur = s.cur := rfl
@[simp] theorem State.setCx_turns (s : State) (x : Nat) (c : Complex) : (s.setCx x c).turns = s.turns := rfl
@[simp] theorem State.setCx_agenda (s : State) (x : Nat) (c : Complex) : (s.setCx x c).agenda = s.agenda := rfl
@[simp] theorem State.setCx_freeCount (s : State) (x : Nat) (c : Complex) : (s.setCx x c).freeCount = s.freeCount := rfl
@[simp] theorem State.setCx_nextId (s : State) (x : Nat) (c : Complex) : (s.setCx x c).nextId = s.nextId := rfl

@[simp] theorem State.setByte_strands (s : State) (l : Nat) (b : Byte) : (s.setByte l b).strands = s.strands := rfl
@[simp] theorem State.setByte_cxs (s : State) (l : Nat) (b : Byte) : (s.setByte l b).cxs = s.cxs := rfl
@[simp] theorem State.setByte_parts (s : State) (l : Nat) (b : Byte) : (s.setByte l b).parts = s.parts := rfl
@[simp] theorem State.setByte_lineKey (s : State) (l : Nat) (b : Byte) : (s.setByte l b).lineKey = s.lineKey := rfl
@[simp] theorem State.setByte_keyLoads (s : State) (l : Nat) (b : Byte) : (s.setByte l b).keyLoads = s.keyLoads := rfl
@[simp] theorem State.setByte_keyBytes (s : State) (l : Nat) (b : Byte) : (s.setByte l b).keyBytes = s.keyBytes := rfl
@[simp] theorem State.setByte_poison (s : State) (l : Nat) (b : Byte) : (s.setByte l b).poison = s.poison := rfl
@[simp] theorem State.setByte_badLines (s : State) (l : Nat) (b : Byte) : (s.setByte l b).badLines = s.badLines := rfl
@[simp] theorem State.setByte_copies (s : State) (l : Nat) (b : Byte) : (s.setByte l b).copies = s.copies := rfl
@[simp] theorem State.setByte_order (s : State) (l : Nat) (b : Byte) : (s.setByte l b).order = s.order := rfl
@[simp] theorem State.setByte_clock (s : State) (l : Nat) (b : Byte) : (s.setByte l b).clock = s.clock := rfl
@[simp] theorem State.setByte_psel (s : State) (l : Nat) (b : Byte) : (s.setByte l b).psel = s.psel := rfl
@[simp] theorem State.setByte_mvec (s : State) (l : Nat) (b : Byte) : (s.setByte l b).mvec = s.mvec := rfl
@[simp] theorem State.setByte_qpwrOn (s : State) (l : Nat) (b : Byte) : (s.setByte l b).qpwrOn = s.qpwrOn := rfl
@[simp] theorem State.setByte_qpwrReady (s : State) (l : Nat) (b : Byte) : (s.setByte l b).qpwrReady = s.qpwrReady := rfl
@[simp] theorem State.setByte_clockStep (s : State) (l : Nat) (b : Byte) : (s.setByte l b).clockStep = s.clockStep := rfl
@[simp] theorem State.setByte_time (s : State) (l : Nat) (b : Byte) : (s.setByte l b).time = s.time := rfl
@[simp] theorem State.setByte_steppedAt (s : State) (l : Nat) (b : Byte) : (s.setByte l b).steppedAt = s.steppedAt := rfl
@[simp] theorem State.setByte_coolAt (s : State) (l : Nat) (b : Byte) : (s.setByte l b).coolAt = s.coolAt := rfl
@[simp] theorem State.setByte_stage (s : State) (l : Nat) (b : Byte) : (s.setByte l b).stage = s.stage := rfl
@[simp] theorem State.setByte_failCode (s : State) (l : Nat) (b : Byte) : (s.setByte l b).failCode = s.failCode := rfl
@[simp] theorem State.setByte_halted (s : State) (l : Nat) (b : Byte) : (s.setByte l b).halted = s.halted := rfl
@[simp] theorem State.setByte_hostBox (s : State) (l : Nat) (b : Byte) : (s.setByte l b).hostBox = s.hostBox := rfl
@[simp] theorem State.setByte_monBox (s : State) (l : Nat) (b : Byte) : (s.setByte l b).monBox = s.monBox := rfl
@[simp] theorem State.setByte_fwA (s : State) (l : Nat) (b : Byte) : (s.setByte l b).fwA = s.fwA := rfl
@[simp] theorem State.setByte_fwB (s : State) (l : Nat) (b : Byte) : (s.setByte l b).fwB = s.fwB := rfl
@[simp] theorem State.setByte_activeB (s : State) (l : Nat) (b : Byte) : (s.setByte l b).activeB = s.activeB := rfl
@[simp] theorem State.setByte_committed (s : State) (l : Nat) (b : Byte) : (s.setByte l b).committed = s.committed := rfl
@[simp] theorem State.setByte_rollback (s : State) (l : Nat) (b : Byte) : (s.setByte l b).rollback = s.rollback := rfl
@[simp] theorem State.setByte_log (s : State) (l : Nat) (b : Byte) : (s.setByte l b).log = s.log := rfl
@[simp] theorem State.setByte_dusk (s : State) (l : Nat) (b : Byte) : (s.setByte l b).dusk = s.dusk := rfl
@[simp] theorem State.setByte_msix (s : State) (l : Nat) (b : Byte) : (s.setByte l b).msix = s.msix := rfl
@[simp] theorem State.setByte_peers (s : State) (l : Nat) (b : Byte) : (s.setByte l b).peers = s.peers := rfl
@[simp] theorem State.setByte_removed (s : State) (l : Nat) (b : Byte) : (s.setByte l b).removed = s.removed := rfl
@[simp] theorem State.setByte_linksDown (s : State) (l : Nat) (b : Byte) : (s.setByte l b).linksDown = s.linksDown := rfl
@[simp] theorem State.setByte_losing (s : State) (l : Nat) (b : Byte) : (s.setByte l b).losing = s.losing := rfl
@[simp] theorem State.setByte_pageHome (s : State) (l : Nat) (b : Byte) : (s.setByte l b).pageHome = s.pageHome := rfl
@[simp] theorem State.setByte_pageMoves (s : State) (l : Nat) (b : Byte) : (s.setByte l b).pageMoves = s.pageMoves := rfl
@[simp] theorem State.setByte_windowAt (s : State) (l : Nat) (b : Byte) : (s.setByte l b).windowAt = s.windowAt := rfl
@[simp] theorem State.setByte_pageUse (s : State) (l : Nat) (b : Byte) : (s.setByte l b).pageUse = s.pageUse := rfl
@[simp] theorem State.setByte_errors (s : State) (l : Nat) (b : Byte) : (s.setByte l b).errors = s.errors := rfl
@[simp] theorem State.setByte_lasting (s : State) (l : Nat) (b : Byte) : (s.setByte l b).lasting = s.lasting := rfl
@[simp] theorem State.setByte_spares (s : State) (l : Nat) (b : Byte) : (s.setByte l b).spares = s.spares := rfl
@[simp] theorem State.setByte_retired (s : State) (l : Nat) (b : Byte) : (s.setByte l b).retired = s.retired := rfl
@[simp] theorem State.setByte_cur (s : State) (l : Nat) (b : Byte) : (s.setByte l b).cur = s.cur := rfl
@[simp] theorem State.setByte_turns (s : State) (l : Nat) (b : Byte) : (s.setByte l b).turns = s.turns := rfl
@[simp] theorem State.setByte_agenda (s : State) (l : Nat) (b : Byte) : (s.setByte l b).agenda = s.agenda := rfl
@[simp] theorem State.setByte_freeCount (s : State) (l : Nat) (b : Byte) : (s.setByte l b).freeCount = s.freeCount := rfl
@[simp] theorem State.setByte_nextId (s : State) (l : Nat) (b : Byte) : (s.setByte l b).nextId = s.nextId := rfl

/-! ### What the updates of a strand leave -/

@[simp] theorem Strand.go_resident (t : Strand) (pc : Word) : (t.go pc).resident = t.resident := rfl
@[simp] theorem Strand.go_uid (t : Strand) (pc : Word) : (t.go pc).uid = t.uid := rfl
@[simp] theorem Strand.go_part (t : Strand) (pc : Word) : (t.go pc).part = t.part := rfl
@[simp] theorem Strand.go_mode (t : Strand) (pc : Word) : (t.go pc).mode = t.mode := rfl
@[simp] theorem Strand.go_regs (t : Strand) (pc : Word) : (t.go pc).regs = t.regs := rfl
@[simp] theorem Strand.go_chains (t : Strand) (pc : Word) : (t.go pc).chains = t.chains := rfl
@[simp] theorem Strand.go_masks (t : Strand) (pc : Word) : (t.go pc).masks = t.masks := rfl
@[simp] theorem Strand.go_kmasks (t : Strand) (pc : Word) : (t.go pc).kmasks = t.kmasks := rfl
@[simp] theorem Strand.go_vl (t : Strand) (pc : Word) : (t.go pc).vl = t.vl := rfl
@[simp] theorem Strand.go_vlmax (t : Strand) (pc : Word) : (t.go pc).vlmax = t.vlmax := rfl
@[simp] theorem Strand.go_vstart (t : Strand) (pc : Word) : (t.go pc).vstart = t.vstart := rfl
@[simp] theorem Strand.go_si (t : Strand) (pc : Word) : (t.go pc).si = t.si := rfl
@[simp] theorem Strand.go_srem (t : Strand) (pc : Word) : (t.go pc).srem = t.srem := rfl
@[simp] theorem Strand.go_shead (t : Strand) (pc : Word) : (t.go pc).shead = t.shead := rfl
@[simp] theorem Strand.go_gm (t : Strand) (pc : Word) : (t.go pc).gm = t.gm := rfl
@[simp] theorem Strand.go_ctx (t : Strand) (pc : Word) : (t.go pc).ctx = t.ctx := rfl
@[simp] theorem Strand.go_fflags (t : Strand) (pc : Word) : (t.go pc).fflags = t.fflags := rfl
@[simp] theorem Strand.go_farPool (t : Strand) (pc : Word) : (t.go pc).farPool = t.farPool := rfl
@[simp] theorem Strand.go_grpmem (t : Strand) (pc : Word) : (t.go pc).grpmem = t.grpmem := rfl
@[simp] theorem Strand.go_cdirty (t : Strand) (pc : Word) : (t.go pc).cdirty = t.cdirty := rfl
@[simp] theorem Strand.go_mdirty (t : Strand) (pc : Word) : (t.go pc).mdirty = t.mdirty := rfl
@[simp] theorem Strand.go_redpart (t : Strand) (pc : Word) : (t.go pc).redpart = t.redpart := rfl
@[simp] theorem Strand.go_redsel (t : Strand) (pc : Word) : (t.go pc).redsel = t.redsel := rfl
@[simp] theorem Strand.go_redlive (t : Strand) (pc : Word) : (t.go pc).redlive = t.redlive := rfl
@[simp] theorem Strand.go_memdone (t : Strand) (pc : Word) : (t.go pc).memdone = t.memdone := rfl
@[simp] theorem Strand.go_frags (t : Strand) (pc : Word) : (t.go pc).frags = t.frags := rfl
@[simp] theorem Strand.go_runMask (t : Strand) (pc : Word) : (t.go pc).runMask = t.runMask := rfl
@[simp] theorem Strand.go_fragsel (t : Strand) (pc : Word) : (t.go pc).fragsel = t.fragsel := rfl
@[simp] theorem Strand.go_barst (t : Strand) (pc : Word) : (t.go pc).barst = t.barst := rfl
@[simp] theorem Strand.go_parkid (t : Strand) (pc : Word) : (t.go pc).parkid = t.parkid := rfl
@[simp] theorem Strand.go_epc (t : Strand) (pc : Word) : (t.go pc).epc = t.epc := rfl
@[simp] theorem Strand.go_ecause (t : Strand) (pc : Word) : (t.go pc).ecause = t.ecause := rfl
@[simp] theorem Strand.go_eval (t : Strand) (pc : Word) : (t.go pc).eval = t.eval := rfl
@[simp] theorem Strand.go_evpos (t : Strand) (pc : Word) : (t.go pc).evpos = t.evpos := rfl
@[simp] theorem Strand.go_escratch (t : Strand) (pc : Word) : (t.go pc).escratch = t.escratch := rfl
@[simp] theorem Strand.go_estatus (t : Strand) (pc : Word) : (t.go pc).estatus = t.estatus := rfl
@[simp] theorem Strand.go_epilogue (t : Strand) (pc : Word) : (t.go pc).epilogue = t.epilogue := rfl
@[simp] theorem Strand.go_grant (t : Strand) (pc : Word) : (t.go pc).grant = t.grant := rfl
@[simp] theorem Strand.go_lanereq (t : Strand) (pc : Word) : (t.go pc).lanereq = t.lanereq := rfl
@[simp] theorem Strand.go_lanemin (t : Strand) (pc : Word) : (t.go pc).lanemin = t.lanemin := rfl
@[simp] theorem Strand.go_prio (t : Strand) (pc : Word) : (t.go pc).prio = t.prio := rfl
@[simp] theorem Strand.go_age (t : Strand) (pc : Word) : (t.go pc).age = t.age := rfl
@[simp] theorem Strand.go_unissued (t : Strand) (pc : Word) : (t.go pc).unissued = t.unissued := rfl
@[simp] theorem Strand.go_fuse (t : Strand) (pc : Word) : (t.go pc).fuse = t.fuse := rfl
@[simp] theorem Strand.go_preq (t : Strand) (pc : Word) : (t.go pc).preq = t.preq := rfl
@[simp] theorem Strand.go_due (t : Strand) (pc : Word) : (t.go pc).due = t.due := rfl
@[simp] theorem Strand.go_origin (t : Strand) (pc : Word) : (t.go pc).origin = t.origin := rfl
@[simp] theorem Strand.go_pc (t : Strand) (pc : Word) : (t.go pc).pc = pc := rfl
@[simp] theorem Strand.go_wait (t : Strand) (pc : Word) : (t.go pc).wait = .none := rfl
@[simp] theorem Strand.go_again (t : Strand) (pc : Word) : (t.go pc).again = t.again := rfl

@[simp] theorem Strand.setReg_resident (t : Strand) (r : SReg) (v : Word) : (t.setReg r v).resident = t.resident := by
  unfold Strand.setReg; split <;> rfl
@[simp] theorem Strand.setReg_uid (t : Strand) (r : SReg) (v : Word) : (t.setReg r v).uid = t.uid := by
  unfold Strand.setReg; split <;> rfl
@[simp] theorem Strand.setReg_part (t : Strand) (r : SReg) (v : Word) : (t.setReg r v).part = t.part := by
  unfold Strand.setReg; split <;> rfl
@[simp] theorem Strand.setReg_mode (t : Strand) (r : SReg) (v : Word) : (t.setReg r v).mode = t.mode := by
  unfold Strand.setReg; split <;> rfl
@[simp] theorem Strand.setReg_pc (t : Strand) (r : SReg) (v : Word) : (t.setReg r v).pc = t.pc := by
  unfold Strand.setReg; split <;> rfl
@[simp] theorem Strand.setReg_chains (t : Strand) (r : SReg) (v : Word) : (t.setReg r v).chains = t.chains := by
  unfold Strand.setReg; split <;> rfl
@[simp] theorem Strand.setReg_masks (t : Strand) (r : SReg) (v : Word) : (t.setReg r v).masks = t.masks := by
  unfold Strand.setReg; split <;> rfl
@[simp] theorem Strand.setReg_kmasks (t : Strand) (r : SReg) (v : Word) : (t.setReg r v).kmasks = t.kmasks := by
  unfold Strand.setReg; split <;> rfl
@[simp] theorem Strand.setReg_vl (t : Strand) (r : SReg) (v : Word) : (t.setReg r v).vl = t.vl := by
  unfold Strand.setReg; split <;> rfl
@[simp] theorem Strand.setReg_vlmax (t : Strand) (r : SReg) (v : Word) : (t.setReg r v).vlmax = t.vlmax := by
  unfold Strand.setReg; split <;> rfl
@[simp] theorem Strand.setReg_vstart (t : Strand) (r : SReg) (v : Word) : (t.setReg r v).vstart = t.vstart := by
  unfold Strand.setReg; split <;> rfl
@[simp] theorem Strand.setReg_si (t : Strand) (r : SReg) (v : Word) : (t.setReg r v).si = t.si := by
  unfold Strand.setReg; split <;> rfl
@[simp] theorem Strand.setReg_srem (t : Strand) (r : SReg) (v : Word) : (t.setReg r v).srem = t.srem := by
  unfold Strand.setReg; split <;> rfl
@[simp] theorem Strand.setReg_shead (t : Strand) (r : SReg) (v : Word) : (t.setReg r v).shead = t.shead := by
  unfold Strand.setReg; split <;> rfl
@[simp] theorem Strand.setReg_gm (t : Strand) (r : SReg) (v : Word) : (t.setReg r v).gm = t.gm := by
  unfold Strand.setReg; split <;> rfl
@[simp] theorem Strand.setReg_ctx (t : Strand) (r : SReg) (v : Word) : (t.setReg r v).ctx = t.ctx := by
  unfold Strand.setReg; split <;> rfl
@[simp] theorem Strand.setReg_fflags (t : Strand) (r : SReg) (v : Word) : (t.setReg r v).fflags = t.fflags := by
  unfold Strand.setReg; split <;> rfl
@[simp] theorem Strand.setReg_farPool (t : Strand) (r : SReg) (v : Word) : (t.setReg r v).farPool = t.farPool := by
  unfold Strand.setReg; split <;> rfl
@[simp] theorem Strand.setReg_grpmem (t : Strand) (r : SReg) (v : Word) : (t.setReg r v).grpmem = t.grpmem := by
  unfold Strand.setReg; split <;> rfl
@[simp] theorem Strand.setReg_cdirty (t : Strand) (r : SReg) (v : Word) : (t.setReg r v).cdirty = t.cdirty := by
  unfold Strand.setReg; split <;> rfl
@[simp] theorem Strand.setReg_mdirty (t : Strand) (r : SReg) (v : Word) : (t.setReg r v).mdirty = t.mdirty := by
  unfold Strand.setReg; split <;> rfl
@[simp] theorem Strand.setReg_redpart (t : Strand) (r : SReg) (v : Word) : (t.setReg r v).redpart = t.redpart := by
  unfold Strand.setReg; split <;> rfl
@[simp] theorem Strand.setReg_redsel (t : Strand) (r : SReg) (v : Word) : (t.setReg r v).redsel = t.redsel := by
  unfold Strand.setReg; split <;> rfl
@[simp] theorem Strand.setReg_redlive (t : Strand) (r : SReg) (v : Word) : (t.setReg r v).redlive = t.redlive := by
  unfold Strand.setReg; split <;> rfl
@[simp] theorem Strand.setReg_memdone (t : Strand) (r : SReg) (v : Word) : (t.setReg r v).memdone = t.memdone := by
  unfold Strand.setReg; split <;> rfl
@[simp] theorem Strand.setReg_frags (t : Strand) (r : SReg) (v : Word) : (t.setReg r v).frags = t.frags := by
  unfold Strand.setReg; split <;> rfl
@[simp] theorem Strand.setReg_runMask (t : Strand) (r : SReg) (v : Word) : (t.setReg r v).runMask = t.runMask := by
  unfold Strand.setReg; split <;> rfl
@[simp] theorem Strand.setReg_fragsel (t : Strand) (r : SReg) (v : Word) : (t.setReg r v).fragsel = t.fragsel := by
  unfold Strand.setReg; split <;> rfl
@[simp] theorem Strand.setReg_barst (t : Strand) (r : SReg) (v : Word) : (t.setReg r v).barst = t.barst := by
  unfold Strand.setReg; split <;> rfl
@[simp] theorem Strand.setReg_parkid (t : Strand) (r : SReg) (v : Word) : (t.setReg r v).parkid = t.parkid := by
  unfold Strand.setReg; split <;> rfl
@[simp] theorem Strand.setReg_epc (t : Strand) (r : SReg) (v : Word) : (t.setReg r v).epc = t.epc := by
  unfold Strand.setReg; split <;> rfl
@[simp] theorem Strand.setReg_ecause (t : Strand) (r : SReg) (v : Word) : (t.setReg r v).ecause = t.ecause := by
  unfold Strand.setReg; split <;> rfl
@[simp] theorem Strand.setReg_eval (t : Strand) (r : SReg) (v : Word) : (t.setReg r v).eval = t.eval := by
  unfold Strand.setReg; split <;> rfl
@[simp] theorem Strand.setReg_evpos (t : Strand) (r : SReg) (v : Word) : (t.setReg r v).evpos = t.evpos := by
  unfold Strand.setReg; split <;> rfl
@[simp] theorem Strand.setReg_escratch (t : Strand) (r : SReg) (v : Word) : (t.setReg r v).escratch = t.escratch := by
  unfold Strand.setReg; split <;> rfl
@[simp] theorem Strand.setReg_estatus (t : Strand) (r : SReg) (v : Word) : (t.setReg r v).estatus = t.estatus := by
  unfold Strand.setReg; split <;> rfl
@[simp] theorem Strand.setReg_epilogue (t : Strand) (r : SReg) (v : Word) : (t.setReg r v).epilogue = t.epilogue := by
  unfold Strand.setReg; split <;> rfl
@[simp] theorem Strand.setReg_wait (t : Strand) (r : SReg) (v : Word) : (t.setReg r v).wait = t.wait := by
  unfold Strand.setReg; split <;> rfl
@[simp] theorem Strand.setReg_again (t : Strand) (r : SReg) (v : Word) : (t.setReg r v).again = t.again := by
  unfold Strand.setReg; split <;> rfl
@[simp] theorem Strand.setReg_grant (t : Strand) (r : SReg) (v : Word) : (t.setReg r v).grant = t.grant := by
  unfold Strand.setReg; split <;> rfl
@[simp] theorem Strand.setReg_lanereq (t : Strand) (r : SReg) (v : Word) : (t.setReg r v).lanereq = t.lanereq := by
  unfold Strand.setReg; split <;> rfl
@[simp] theorem Strand.setReg_lanemin (t : Strand) (r : SReg) (v : Word) : (t.setReg r v).lanemin = t.lanemin := by
  unfold Strand.setReg; split <;> rfl
@[simp] theorem Strand.setReg_prio (t : Strand) (r : SReg) (v : Word) : (t.setReg r v).prio = t.prio := by
  unfold Strand.setReg; split <;> rfl
@[simp] theorem Strand.setReg_age (t : Strand) (r : SReg) (v : Word) : (t.setReg r v).age = t.age := by
  unfold Strand.setReg; split <;> rfl
@[simp] theorem Strand.setReg_unissued (t : Strand) (r : SReg) (v : Word) : (t.setReg r v).unissued = t.unissued := by
  unfold Strand.setReg; split <;> rfl
@[simp] theorem Strand.setReg_fuse (t : Strand) (r : SReg) (v : Word) : (t.setReg r v).fuse = t.fuse := by
  unfold Strand.setReg; split <;> rfl
@[simp] theorem Strand.setReg_preq (t : Strand) (r : SReg) (v : Word) : (t.setReg r v).preq = t.preq := by
  unfold Strand.setReg; split <;> rfl
@[simp] theorem Strand.setReg_due (t : Strand) (r : SReg) (v : Word) : (t.setReg r v).due = t.due := by
  unfold Strand.setReg; split <;> rfl
@[simp] theorem Strand.setReg_origin (t : Strand) (r : SReg) (v : Word) : (t.setReg r v).origin = t.origin := by
  unfold Strand.setReg; split <;> rfl

@[simp] theorem Strand.setMask_resident (t : Strand) (m : MReg) (v : Mask) : (t.setMask m v).resident = t.resident := by
  unfold Strand.setMask; split <;> rfl
@[simp] theorem Strand.setMask_uid (t : Strand) (m : MReg) (v : Mask) : (t.setMask m v).uid = t.uid := by
  unfold Strand.setMask; split <;> rfl
@[simp] theorem Strand.setMask_part (t : Strand) (m : MReg) (v : Mask) : (t.setMask m v).part = t.part := by
  unfold Strand.setMask; split <;> rfl
@[simp] theorem Strand.setMask_mode (t : Strand) (m : MReg) (v : Mask) : (t.setMask m v).mode = t.mode := by
  unfold Strand.setMask; split <;> rfl
@[simp] theorem Strand.setMask_pc (t : Strand) (m : MReg) (v : Mask) : (t.setMask m v).pc = t.pc := by
  unfold Strand.setMask; split <;> rfl
@[simp] theorem Strand.setMask_regs (t : Strand) (m : MReg) (v : Mask) : (t.setMask m v).regs = t.regs := by
  unfold Strand.setMask; split <;> rfl
@[simp] theorem Strand.setMask_chains (t : Strand) (m : MReg) (v : Mask) : (t.setMask m v).chains = t.chains := by
  unfold Strand.setMask; split <;> rfl
@[simp] theorem Strand.setMask_kmasks (t : Strand) (m : MReg) (v : Mask) : (t.setMask m v).kmasks = t.kmasks := by
  unfold Strand.setMask; split <;> rfl
@[simp] theorem Strand.setMask_vl (t : Strand) (m : MReg) (v : Mask) : (t.setMask m v).vl = t.vl := by
  unfold Strand.setMask; split <;> rfl
@[simp] theorem Strand.setMask_vlmax (t : Strand) (m : MReg) (v : Mask) : (t.setMask m v).vlmax = t.vlmax := by
  unfold Strand.setMask; split <;> rfl
@[simp] theorem Strand.setMask_vstart (t : Strand) (m : MReg) (v : Mask) : (t.setMask m v).vstart = t.vstart := by
  unfold Strand.setMask; split <;> rfl
@[simp] theorem Strand.setMask_si (t : Strand) (m : MReg) (v : Mask) : (t.setMask m v).si = t.si := by
  unfold Strand.setMask; split <;> rfl
@[simp] theorem Strand.setMask_srem (t : Strand) (m : MReg) (v : Mask) : (t.setMask m v).srem = t.srem := by
  unfold Strand.setMask; split <;> rfl
@[simp] theorem Strand.setMask_shead (t : Strand) (m : MReg) (v : Mask) : (t.setMask m v).shead = t.shead := by
  unfold Strand.setMask; split <;> rfl
@[simp] theorem Strand.setMask_gm (t : Strand) (m : MReg) (v : Mask) : (t.setMask m v).gm = t.gm := by
  unfold Strand.setMask; split <;> rfl
@[simp] theorem Strand.setMask_ctx (t : Strand) (m : MReg) (v : Mask) : (t.setMask m v).ctx = t.ctx := by
  unfold Strand.setMask; split <;> rfl
@[simp] theorem Strand.setMask_fflags (t : Strand) (m : MReg) (v : Mask) : (t.setMask m v).fflags = t.fflags := by
  unfold Strand.setMask; split <;> rfl
@[simp] theorem Strand.setMask_farPool (t : Strand) (m : MReg) (v : Mask) : (t.setMask m v).farPool = t.farPool := by
  unfold Strand.setMask; split <;> rfl
@[simp] theorem Strand.setMask_grpmem (t : Strand) (m : MReg) (v : Mask) : (t.setMask m v).grpmem = t.grpmem := by
  unfold Strand.setMask; split <;> rfl
@[simp] theorem Strand.setMask_cdirty (t : Strand) (m : MReg) (v : Mask) : (t.setMask m v).cdirty = t.cdirty := by
  unfold Strand.setMask; split <;> rfl
@[simp] theorem Strand.setMask_redpart (t : Strand) (m : MReg) (v : Mask) : (t.setMask m v).redpart = t.redpart := by
  unfold Strand.setMask; split <;> rfl
@[simp] theorem Strand.setMask_redsel (t : Strand) (m : MReg) (v : Mask) : (t.setMask m v).redsel = t.redsel := by
  unfold Strand.setMask; split <;> rfl
@[simp] theorem Strand.setMask_redlive (t : Strand) (m : MReg) (v : Mask) : (t.setMask m v).redlive = t.redlive := by
  unfold Strand.setMask; split <;> rfl
@[simp] theorem Strand.setMask_memdone (t : Strand) (m : MReg) (v : Mask) : (t.setMask m v).memdone = t.memdone := by
  unfold Strand.setMask; split <;> rfl
@[simp] theorem Strand.setMask_frags (t : Strand) (m : MReg) (v : Mask) : (t.setMask m v).frags = t.frags := by
  unfold Strand.setMask; split <;> rfl
@[simp] theorem Strand.setMask_runMask (t : Strand) (m : MReg) (v : Mask) : (t.setMask m v).runMask = t.runMask := by
  unfold Strand.setMask; split <;> rfl
@[simp] theorem Strand.setMask_fragsel (t : Strand) (m : MReg) (v : Mask) : (t.setMask m v).fragsel = t.fragsel := by
  unfold Strand.setMask; split <;> rfl
@[simp] theorem Strand.setMask_barst (t : Strand) (m : MReg) (v : Mask) : (t.setMask m v).barst = t.barst := by
  unfold Strand.setMask; split <;> rfl
@[simp] theorem Strand.setMask_parkid (t : Strand) (m : MReg) (v : Mask) : (t.setMask m v).parkid = t.parkid := by
  unfold Strand.setMask; split <;> rfl
@[simp] theorem Strand.setMask_epc (t : Strand) (m : MReg) (v : Mask) : (t.setMask m v).epc = t.epc := by
  unfold Strand.setMask; split <;> rfl
@[simp] theorem Strand.setMask_ecause (t : Strand) (m : MReg) (v : Mask) : (t.setMask m v).ecause = t.ecause := by
  unfold Strand.setMask; split <;> rfl
@[simp] theorem Strand.setMask_eval (t : Strand) (m : MReg) (v : Mask) : (t.setMask m v).eval = t.eval := by
  unfold Strand.setMask; split <;> rfl
@[simp] theorem Strand.setMask_evpos (t : Strand) (m : MReg) (v : Mask) : (t.setMask m v).evpos = t.evpos := by
  unfold Strand.setMask; split <;> rfl
@[simp] theorem Strand.setMask_escratch (t : Strand) (m : MReg) (v : Mask) : (t.setMask m v).escratch = t.escratch := by
  unfold Strand.setMask; split <;> rfl
@[simp] theorem Strand.setMask_estatus (t : Strand) (m : MReg) (v : Mask) : (t.setMask m v).estatus = t.estatus := by
  unfold Strand.setMask; split <;> rfl
@[simp] theorem Strand.setMask_epilogue (t : Strand) (m : MReg) (v : Mask) : (t.setMask m v).epilogue = t.epilogue := by
  unfold Strand.setMask; split <;> rfl
@[simp] theorem Strand.setMask_wait (t : Strand) (m : MReg) (v : Mask) : (t.setMask m v).wait = t.wait := by
  unfold Strand.setMask; split <;> rfl
@[simp] theorem Strand.setMask_again (t : Strand) (m : MReg) (v : Mask) : (t.setMask m v).again = t.again := by
  unfold Strand.setMask; split <;> rfl
@[simp] theorem Strand.setMask_grant (t : Strand) (m : MReg) (v : Mask) : (t.setMask m v).grant = t.grant := by
  unfold Strand.setMask; split <;> rfl
@[simp] theorem Strand.setMask_lanereq (t : Strand) (m : MReg) (v : Mask) : (t.setMask m v).lanereq = t.lanereq := by
  unfold Strand.setMask; split <;> rfl
@[simp] theorem Strand.setMask_lanemin (t : Strand) (m : MReg) (v : Mask) : (t.setMask m v).lanemin = t.lanemin := by
  unfold Strand.setMask; split <;> rfl
@[simp] theorem Strand.setMask_prio (t : Strand) (m : MReg) (v : Mask) : (t.setMask m v).prio = t.prio := by
  unfold Strand.setMask; split <;> rfl
@[simp] theorem Strand.setMask_age (t : Strand) (m : MReg) (v : Mask) : (t.setMask m v).age = t.age := by
  unfold Strand.setMask; split <;> rfl
@[simp] theorem Strand.setMask_unissued (t : Strand) (m : MReg) (v : Mask) : (t.setMask m v).unissued = t.unissued := by
  unfold Strand.setMask; split <;> rfl
@[simp] theorem Strand.setMask_fuse (t : Strand) (m : MReg) (v : Mask) : (t.setMask m v).fuse = t.fuse := by
  unfold Strand.setMask; split <;> rfl
@[simp] theorem Strand.setMask_preq (t : Strand) (m : MReg) (v : Mask) : (t.setMask m v).preq = t.preq := by
  unfold Strand.setMask; split <;> rfl
@[simp] theorem Strand.setMask_due (t : Strand) (m : MReg) (v : Mask) : (t.setMask m v).due = t.due := by
  unfold Strand.setMask; split <;> rfl
@[simp] theorem Strand.setMask_origin (t : Strand) (m : MReg) (v : Mask) : (t.setMask m v).origin = t.origin := by
  unfold Strand.setMask; split <;> rfl

@[simp] theorem Strand.setChain_resident (t : Strand) (c : CReg) (v : Chain) : (t.setChain c v).resident = t.resident := rfl
@[simp] theorem Strand.setChain_uid (t : Strand) (c : CReg) (v : Chain) : (t.setChain c v).uid = t.uid := rfl
@[simp] theorem Strand.setChain_part (t : Strand) (c : CReg) (v : Chain) : (t.setChain c v).part = t.part := rfl
@[simp] theorem Strand.setChain_mode (t : Strand) (c : CReg) (v : Chain) : (t.setChain c v).mode = t.mode := rfl
@[simp] theorem Strand.setChain_pc (t : Strand) (c : CReg) (v : Chain) : (t.setChain c v).pc = t.pc := rfl
@[simp] theorem Strand.setChain_regs (t : Strand) (c : CReg) (v : Chain) : (t.setChain c v).regs = t.regs := rfl
@[simp] theorem Strand.setChain_masks (t : Strand) (c : CReg) (v : Chain) : (t.setChain c v).masks = t.masks := rfl
@[simp] theorem Strand.setChain_kmasks (t : Strand) (c : CReg) (v : Chain) : (t.setChain c v).kmasks = t.kmasks := rfl
@[simp] theorem Strand.setChain_vl (t : Strand) (c : CReg) (v : Chain) : (t.setChain c v).vl = t.vl := rfl
@[simp] theorem Strand.setChain_vlmax (t : Strand) (c : CReg) (v : Chain) : (t.setChain c v).vlmax = t.vlmax := rfl
@[simp] theorem Strand.setChain_vstart (t : Strand) (c : CReg) (v : Chain) : (t.setChain c v).vstart = t.vstart := rfl
@[simp] theorem Strand.setChain_si (t : Strand) (c : CReg) (v : Chain) : (t.setChain c v).si = t.si := rfl
@[simp] theorem Strand.setChain_srem (t : Strand) (c : CReg) (v : Chain) : (t.setChain c v).srem = t.srem := rfl
@[simp] theorem Strand.setChain_shead (t : Strand) (c : CReg) (v : Chain) : (t.setChain c v).shead = t.shead := rfl
@[simp] theorem Strand.setChain_gm (t : Strand) (c : CReg) (v : Chain) : (t.setChain c v).gm = t.gm := rfl
@[simp] theorem Strand.setChain_ctx (t : Strand) (c : CReg) (v : Chain) : (t.setChain c v).ctx = t.ctx := rfl
@[simp] theorem Strand.setChain_fflags (t : Strand) (c : CReg) (v : Chain) : (t.setChain c v).fflags = t.fflags := rfl
@[simp] theorem Strand.setChain_farPool (t : Strand) (c : CReg) (v : Chain) : (t.setChain c v).farPool = t.farPool := rfl
@[simp] theorem Strand.setChain_grpmem (t : Strand) (c : CReg) (v : Chain) : (t.setChain c v).grpmem = t.grpmem := rfl
@[simp] theorem Strand.setChain_mdirty (t : Strand) (c : CReg) (v : Chain) : (t.setChain c v).mdirty = t.mdirty := rfl
@[simp] theorem Strand.setChain_redpart (t : Strand) (c : CReg) (v : Chain) : (t.setChain c v).redpart = t.redpart := rfl
@[simp] theorem Strand.setChain_redsel (t : Strand) (c : CReg) (v : Chain) : (t.setChain c v).redsel = t.redsel := rfl
@[simp] theorem Strand.setChain_redlive (t : Strand) (c : CReg) (v : Chain) : (t.setChain c v).redlive = t.redlive := rfl
@[simp] theorem Strand.setChain_memdone (t : Strand) (c : CReg) (v : Chain) : (t.setChain c v).memdone = t.memdone := rfl
@[simp] theorem Strand.setChain_frags (t : Strand) (c : CReg) (v : Chain) : (t.setChain c v).frags = t.frags := rfl
@[simp] theorem Strand.setChain_runMask (t : Strand) (c : CReg) (v : Chain) : (t.setChain c v).runMask = t.runMask := rfl
@[simp] theorem Strand.setChain_fragsel (t : Strand) (c : CReg) (v : Chain) : (t.setChain c v).fragsel = t.fragsel := rfl
@[simp] theorem Strand.setChain_barst (t : Strand) (c : CReg) (v : Chain) : (t.setChain c v).barst = t.barst := rfl
@[simp] theorem Strand.setChain_parkid (t : Strand) (c : CReg) (v : Chain) : (t.setChain c v).parkid = t.parkid := rfl
@[simp] theorem Strand.setChain_epc (t : Strand) (c : CReg) (v : Chain) : (t.setChain c v).epc = t.epc := rfl
@[simp] theorem Strand.setChain_ecause (t : Strand) (c : CReg) (v : Chain) : (t.setChain c v).ecause = t.ecause := rfl
@[simp] theorem Strand.setChain_eval (t : Strand) (c : CReg) (v : Chain) : (t.setChain c v).eval = t.eval := rfl
@[simp] theorem Strand.setChain_evpos (t : Strand) (c : CReg) (v : Chain) : (t.setChain c v).evpos = t.evpos := rfl
@[simp] theorem Strand.setChain_escratch (t : Strand) (c : CReg) (v : Chain) : (t.setChain c v).escratch = t.escratch := rfl
@[simp] theorem Strand.setChain_estatus (t : Strand) (c : CReg) (v : Chain) : (t.setChain c v).estatus = t.estatus := rfl
@[simp] theorem Strand.setChain_epilogue (t : Strand) (c : CReg) (v : Chain) : (t.setChain c v).epilogue = t.epilogue := rfl
@[simp] theorem Strand.setChain_wait (t : Strand) (c : CReg) (v : Chain) : (t.setChain c v).wait = t.wait := rfl
@[simp] theorem Strand.setChain_again (t : Strand) (c : CReg) (v : Chain) : (t.setChain c v).again = t.again := rfl
@[simp] theorem Strand.setChain_grant (t : Strand) (c : CReg) (v : Chain) : (t.setChain c v).grant = t.grant := rfl
@[simp] theorem Strand.setChain_lanereq (t : Strand) (c : CReg) (v : Chain) : (t.setChain c v).lanereq = t.lanereq := rfl
@[simp] theorem Strand.setChain_lanemin (t : Strand) (c : CReg) (v : Chain) : (t.setChain c v).lanemin = t.lanemin := rfl
@[simp] theorem Strand.setChain_prio (t : Strand) (c : CReg) (v : Chain) : (t.setChain c v).prio = t.prio := rfl
@[simp] theorem Strand.setChain_age (t : Strand) (c : CReg) (v : Chain) : (t.setChain c v).age = t.age := rfl
@[simp] theorem Strand.setChain_unissued (t : Strand) (c : CReg) (v : Chain) : (t.setChain c v).unissued = t.unissued := rfl
@[simp] theorem Strand.setChain_fuse (t : Strand) (c : CReg) (v : Chain) : (t.setChain c v).fuse = t.fuse := rfl
@[simp] theorem Strand.setChain_preq (t : Strand) (c : CReg) (v : Chain) : (t.setChain c v).preq = t.preq := rfl
@[simp] theorem Strand.setChain_due (t : Strand) (c : CReg) (v : Chain) : (t.setChain c v).due = t.due := rfl
@[simp] theorem Strand.setChain_origin (t : Strand) (c : CReg) (v : Chain) : (t.setChain c v).origin = t.origin := rfl

@[simp] theorem Strand.setKmask_resident (t : Strand) (k : KReg) (v : KMask) : (t.setKmask k v).resident = t.resident := rfl
@[simp] theorem Strand.setKmask_uid (t : Strand) (k : KReg) (v : KMask) : (t.setKmask k v).uid = t.uid := rfl
@[simp] theorem Strand.setKmask_part (t : Strand) (k : KReg) (v : KMask) : (t.setKmask k v).part = t.part := rfl
@[simp] theorem Strand.setKmask_mode (t : Strand) (k : KReg) (v : KMask) : (t.setKmask k v).mode = t.mode := rfl
@[simp] theorem Strand.setKmask_pc (t : Strand) (k : KReg) (v : KMask) : (t.setKmask k v).pc = t.pc := rfl
@[simp] theorem Strand.setKmask_regs (t : Strand) (k : KReg) (v : KMask) : (t.setKmask k v).regs = t.regs := rfl
@[simp] theorem Strand.setKmask_chains (t : Strand) (k : KReg) (v : KMask) : (t.setKmask k v).chains = t.chains := rfl
@[simp] theorem Strand.setKmask_masks (t : Strand) (k : KReg) (v : KMask) : (t.setKmask k v).masks = t.masks := rfl
@[simp] theorem Strand.setKmask_vl (t : Strand) (k : KReg) (v : KMask) : (t.setKmask k v).vl = t.vl := rfl
@[simp] theorem Strand.setKmask_vlmax (t : Strand) (k : KReg) (v : KMask) : (t.setKmask k v).vlmax = t.vlmax := rfl
@[simp] theorem Strand.setKmask_vstart (t : Strand) (k : KReg) (v : KMask) : (t.setKmask k v).vstart = t.vstart := rfl
@[simp] theorem Strand.setKmask_si (t : Strand) (k : KReg) (v : KMask) : (t.setKmask k v).si = t.si := rfl
@[simp] theorem Strand.setKmask_srem (t : Strand) (k : KReg) (v : KMask) : (t.setKmask k v).srem = t.srem := rfl
@[simp] theorem Strand.setKmask_shead (t : Strand) (k : KReg) (v : KMask) : (t.setKmask k v).shead = t.shead := rfl
@[simp] theorem Strand.setKmask_gm (t : Strand) (k : KReg) (v : KMask) : (t.setKmask k v).gm = t.gm := rfl
@[simp] theorem Strand.setKmask_ctx (t : Strand) (k : KReg) (v : KMask) : (t.setKmask k v).ctx = t.ctx := rfl
@[simp] theorem Strand.setKmask_fflags (t : Strand) (k : KReg) (v : KMask) : (t.setKmask k v).fflags = t.fflags := rfl
@[simp] theorem Strand.setKmask_farPool (t : Strand) (k : KReg) (v : KMask) : (t.setKmask k v).farPool = t.farPool := rfl
@[simp] theorem Strand.setKmask_grpmem (t : Strand) (k : KReg) (v : KMask) : (t.setKmask k v).grpmem = t.grpmem := rfl
@[simp] theorem Strand.setKmask_cdirty (t : Strand) (k : KReg) (v : KMask) : (t.setKmask k v).cdirty = t.cdirty := rfl
@[simp] theorem Strand.setKmask_mdirty (t : Strand) (k : KReg) (v : KMask) : (t.setKmask k v).mdirty = t.mdirty := rfl
@[simp] theorem Strand.setKmask_redpart (t : Strand) (k : KReg) (v : KMask) : (t.setKmask k v).redpart = t.redpart := rfl
@[simp] theorem Strand.setKmask_redsel (t : Strand) (k : KReg) (v : KMask) : (t.setKmask k v).redsel = t.redsel := rfl
@[simp] theorem Strand.setKmask_redlive (t : Strand) (k : KReg) (v : KMask) : (t.setKmask k v).redlive = t.redlive := rfl
@[simp] theorem Strand.setKmask_memdone (t : Strand) (k : KReg) (v : KMask) : (t.setKmask k v).memdone = t.memdone := rfl
@[simp] theorem Strand.setKmask_frags (t : Strand) (k : KReg) (v : KMask) : (t.setKmask k v).frags = t.frags := rfl
@[simp] theorem Strand.setKmask_runMask (t : Strand) (k : KReg) (v : KMask) : (t.setKmask k v).runMask = t.runMask := rfl
@[simp] theorem Strand.setKmask_fragsel (t : Strand) (k : KReg) (v : KMask) : (t.setKmask k v).fragsel = t.fragsel := rfl
@[simp] theorem Strand.setKmask_barst (t : Strand) (k : KReg) (v : KMask) : (t.setKmask k v).barst = t.barst := rfl
@[simp] theorem Strand.setKmask_parkid (t : Strand) (k : KReg) (v : KMask) : (t.setKmask k v).parkid = t.parkid := rfl
@[simp] theorem Strand.setKmask_epc (t : Strand) (k : KReg) (v : KMask) : (t.setKmask k v).epc = t.epc := rfl
@[simp] theorem Strand.setKmask_ecause (t : Strand) (k : KReg) (v : KMask) : (t.setKmask k v).ecause = t.ecause := rfl
@[simp] theorem Strand.setKmask_eval (t : Strand) (k : KReg) (v : KMask) : (t.setKmask k v).eval = t.eval := rfl
@[simp] theorem Strand.setKmask_evpos (t : Strand) (k : KReg) (v : KMask) : (t.setKmask k v).evpos = t.evpos := rfl
@[simp] theorem Strand.setKmask_escratch (t : Strand) (k : KReg) (v : KMask) : (t.setKmask k v).escratch = t.escratch := rfl
@[simp] theorem Strand.setKmask_estatus (t : Strand) (k : KReg) (v : KMask) : (t.setKmask k v).estatus = t.estatus := rfl
@[simp] theorem Strand.setKmask_epilogue (t : Strand) (k : KReg) (v : KMask) : (t.setKmask k v).epilogue = t.epilogue := rfl
@[simp] theorem Strand.setKmask_wait (t : Strand) (k : KReg) (v : KMask) : (t.setKmask k v).wait = t.wait := rfl
@[simp] theorem Strand.setKmask_again (t : Strand) (k : KReg) (v : KMask) : (t.setKmask k v).again = t.again := rfl
@[simp] theorem Strand.setKmask_grant (t : Strand) (k : KReg) (v : KMask) : (t.setKmask k v).grant = t.grant := rfl
@[simp] theorem Strand.setKmask_lanereq (t : Strand) (k : KReg) (v : KMask) : (t.setKmask k v).lanereq = t.lanereq := rfl
@[simp] theorem Strand.setKmask_lanemin (t : Strand) (k : KReg) (v : KMask) : (t.setKmask k v).lanemin = t.lanemin := rfl
@[simp] theorem Strand.setKmask_prio (t : Strand) (k : KReg) (v : KMask) : (t.setKmask k v).prio = t.prio := rfl
@[simp] theorem Strand.setKmask_age (t : Strand) (k : KReg) (v : KMask) : (t.setKmask k v).age = t.age := rfl
@[simp] theorem Strand.setKmask_unissued (t : Strand) (k : KReg) (v : KMask) : (t.setKmask k v).unissued = t.unissued := rfl
@[simp] theorem Strand.setKmask_fuse (t : Strand) (k : KReg) (v : KMask) : (t.setKmask k v).fuse = t.fuse := rfl
@[simp] theorem Strand.setKmask_preq (t : Strand) (k : KReg) (v : KMask) : (t.setKmask k v).preq = t.preq := rfl
@[simp] theorem Strand.setKmask_due (t : Strand) (k : KReg) (v : KMask) : (t.setKmask k v).due = t.due := rfl
@[simp] theorem Strand.setKmask_origin (t : Strand) (k : KReg) (v : KMask) : (t.setKmask k v).origin = t.origin := rfl

@[simp] theorem Strand.raise_resident (t : Strand) (f : Flags) : (t.raise f).resident = t.resident := rfl
@[simp] theorem Strand.raise_uid (t : Strand) (f : Flags) : (t.raise f).uid = t.uid := rfl
@[simp] theorem Strand.raise_part (t : Strand) (f : Flags) : (t.raise f).part = t.part := rfl
@[simp] theorem Strand.raise_mode (t : Strand) (f : Flags) : (t.raise f).mode = t.mode := rfl
@[simp] theorem Strand.raise_pc (t : Strand) (f : Flags) : (t.raise f).pc = t.pc := rfl
@[simp] theorem Strand.raise_regs (t : Strand) (f : Flags) : (t.raise f).regs = t.regs := rfl
@[simp] theorem Strand.raise_chains (t : Strand) (f : Flags) : (t.raise f).chains = t.chains := rfl
@[simp] theorem Strand.raise_masks (t : Strand) (f : Flags) : (t.raise f).masks = t.masks := rfl
@[simp] theorem Strand.raise_kmasks (t : Strand) (f : Flags) : (t.raise f).kmasks = t.kmasks := rfl
@[simp] theorem Strand.raise_vl (t : Strand) (f : Flags) : (t.raise f).vl = t.vl := rfl
@[simp] theorem Strand.raise_vlmax (t : Strand) (f : Flags) : (t.raise f).vlmax = t.vlmax := rfl
@[simp] theorem Strand.raise_vstart (t : Strand) (f : Flags) : (t.raise f).vstart = t.vstart := rfl
@[simp] theorem Strand.raise_si (t : Strand) (f : Flags) : (t.raise f).si = t.si := rfl
@[simp] theorem Strand.raise_srem (t : Strand) (f : Flags) : (t.raise f).srem = t.srem := rfl
@[simp] theorem Strand.raise_shead (t : Strand) (f : Flags) : (t.raise f).shead = t.shead := rfl
@[simp] theorem Strand.raise_gm (t : Strand) (f : Flags) : (t.raise f).gm = t.gm := rfl
@[simp] theorem Strand.raise_ctx (t : Strand) (f : Flags) : (t.raise f).ctx = t.ctx := rfl
@[simp] theorem Strand.raise_farPool (t : Strand) (f : Flags) : (t.raise f).farPool = t.farPool := rfl
@[simp] theorem Strand.raise_grpmem (t : Strand) (f : Flags) : (t.raise f).grpmem = t.grpmem := rfl
@[simp] theorem Strand.raise_cdirty (t : Strand) (f : Flags) : (t.raise f).cdirty = t.cdirty := rfl
@[simp] theorem Strand.raise_mdirty (t : Strand) (f : Flags) : (t.raise f).mdirty = t.mdirty := rfl
@[simp] theorem Strand.raise_redpart (t : Strand) (f : Flags) : (t.raise f).redpart = t.redpart := rfl
@[simp] theorem Strand.raise_redsel (t : Strand) (f : Flags) : (t.raise f).redsel = t.redsel := rfl
@[simp] theorem Strand.raise_redlive (t : Strand) (f : Flags) : (t.raise f).redlive = t.redlive := rfl
@[simp] theorem Strand.raise_memdone (t : Strand) (f : Flags) : (t.raise f).memdone = t.memdone := rfl
@[simp] theorem Strand.raise_frags (t : Strand) (f : Flags) : (t.raise f).frags = t.frags := rfl
@[simp] theorem Strand.raise_runMask (t : Strand) (f : Flags) : (t.raise f).runMask = t.runMask := rfl
@[simp] theorem Strand.raise_fragsel (t : Strand) (f : Flags) : (t.raise f).fragsel = t.fragsel := rfl
@[simp] theorem Strand.raise_barst (t : Strand) (f : Flags) : (t.raise f).barst = t.barst := rfl
@[simp] theorem Strand.raise_parkid (t : Strand) (f : Flags) : (t.raise f).parkid = t.parkid := rfl
@[simp] theorem Strand.raise_epc (t : Strand) (f : Flags) : (t.raise f).epc = t.epc := rfl
@[simp] theorem Strand.raise_ecause (t : Strand) (f : Flags) : (t.raise f).ecause = t.ecause := rfl
@[simp] theorem Strand.raise_eval (t : Strand) (f : Flags) : (t.raise f).eval = t.eval := rfl
@[simp] theorem Strand.raise_evpos (t : Strand) (f : Flags) : (t.raise f).evpos = t.evpos := rfl
@[simp] theorem Strand.raise_escratch (t : Strand) (f : Flags) : (t.raise f).escratch = t.escratch := rfl
@[simp] theorem Strand.raise_estatus (t : Strand) (f : Flags) : (t.raise f).estatus = t.estatus := rfl
@[simp] theorem Strand.raise_epilogue (t : Strand) (f : Flags) : (t.raise f).epilogue = t.epilogue := rfl
@[simp] theorem Strand.raise_wait (t : Strand) (f : Flags) : (t.raise f).wait = t.wait := rfl
@[simp] theorem Strand.raise_again (t : Strand) (f : Flags) : (t.raise f).again = t.again := rfl
@[simp] theorem Strand.raise_grant (t : Strand) (f : Flags) : (t.raise f).grant = t.grant := rfl
@[simp] theorem Strand.raise_lanereq (t : Strand) (f : Flags) : (t.raise f).lanereq = t.lanereq := rfl
@[simp] theorem Strand.raise_lanemin (t : Strand) (f : Flags) : (t.raise f).lanemin = t.lanemin := rfl
@[simp] theorem Strand.raise_prio (t : Strand) (f : Flags) : (t.raise f).prio = t.prio := rfl
@[simp] theorem Strand.raise_age (t : Strand) (f : Flags) : (t.raise f).age = t.age := rfl
@[simp] theorem Strand.raise_unissued (t : Strand) (f : Flags) : (t.raise f).unissued = t.unissued := rfl
@[simp] theorem Strand.raise_fuse (t : Strand) (f : Flags) : (t.raise f).fuse = t.fuse := rfl
@[simp] theorem Strand.raise_preq (t : Strand) (f : Flags) : (t.raise f).preq = t.preq := rfl
@[simp] theorem Strand.raise_due (t : Strand) (f : Flags) : (t.raise f).due = t.due := rfl
@[simp] theorem Strand.raise_origin (t : Strand) (f : Flags) : (t.raise f).origin = t.origin := rfl

/-! ### Reads after writes -/

@[simp] theorem State.strand_setStrand_same (s : State) (i : Nat) (t : Strand) : (s.setStrand i t).strand i = t :=
  Sparse.get_put_same ..

theorem State.strand_setStrand (s : State) (i j : Nat) (t : Strand) :
    (s.setStrand i t).strand j = if j = i then t else s.strand j := Sparse.get_put ..

theorem State.strand_setStrand_ne (s : State) {i j : Nat} (h : j ≠ i) (t : Strand) :
    (s.setStrand i t).strand j = s.strand j := Sparse.get_put_ne _ h ..

@[simp] theorem State.me_setMe (s : State) (t : Strand) : (s.setMe t).me = t := s.strand_setStrand_same s.cur t

theorem State.strand_setMe_ne (s : State) {j : Nat} (h : j ≠ s.cur) (t : Strand) :
    (s.setMe t).strand j = s.strand j := s.strand_setStrand_ne h t

@[simp] theorem State.strand_setPart (s : State) (p : Nat) (x : Partition) (i : Nat) :
    (s.setPart p x).strand i = s.strand i := rfl
@[simp] theorem State.me_setPart (s : State) (p : Nat) (x : Partition) : (s.setPart p x).me = s.me := rfl
@[simp] theorem State.strand_setCx (s : State) (x : Nat) (c : Complex) (i : Nat) :
    (s.setCx x c).strand i = s.strand i := rfl
@[simp] theorem State.me_setCx (s : State) (x : Nat) (c : Complex) : (s.setCx x c).me = s.me := rfl
@[simp] theorem State.part_setStrand (s : State) (i : Nat) (t : Strand) (p : Nat) :
    (s.setStrand i t).part p = s.part p := rfl
@[simp] theorem State.part_setMe (s : State) (t : Strand) (p : Nat) : (s.setMe t).part p = s.part p := rfl
@[simp] theorem State.cx_setStrand (s : State) (i : Nat) (t : Strand) (x : Nat) : (s.setStrand i t).cx x = s.cx x := rfl
@[simp] theorem State.cx_setMe (s : State) (t : Strand) (x : Nat) : (s.setMe t).cx x = s.cx x := rfl
@[simp] theorem State.cx_setPart (s : State) (p : Nat) (y : Partition) (x : Nat) : (s.setPart p y).cx x = s.cx x := rfl

@[simp] theorem State.part_setPart_same (s : State) (p : Nat) (x : Partition) : (s.setPart p x).part p = x :=
  Sparse.get_put_same ..
theorem State.part_setPart (s : State) (p q : Nat) (x : Partition) :
    (s.setPart p x).part q = if q = p then x else s.part q := Sparse.get_put ..
@[simp] theorem State.cx_setCx_same (s : State) (x : Nat) (c : Complex) : (s.setCx x c).cx x = c :=
  Sparse.get_put_same ..
theorem State.cx_setCx (s : State) (x y : Nat) (c : Complex) :
    (s.setCx x c).cx y = if y = x then c else s.cx y := Sparse.get_put ..

@[simp] theorem State.myPart_setMyPart (s : State) (x : Partition) : (s.setMyPart x).myPart = x :=
  s.part_setPart_same s.me.part x

/-- `s0` reads zero whatever has been written (R60). -/
@[simp] theorem Strand.reg_zero (t : Strand) : t.reg 0 = 0 := rfl

/-- Every register after a write of one (R56, R60): `s0` discards it. -/
theorem Strand.reg_setReg (t : Strand) (r d : SReg) (v : Word) :
    (t.setReg d v).reg r = if r = d ∧ d ≠ 0 then v else t.reg r := by
  unfold Strand.setReg Strand.reg
  by_cases hd : d = 0
  · simp [hd]
  · rw [if_neg hd]
    by_cases hr : r = 0
    · have h0 : ¬(r = d ∧ d ≠ 0) := fun h => hd (h.1 ▸ hr)
      rw [if_pos hr, if_neg h0, if_pos hr]
    · simp only [if_neg hr, Sparse.get_put]
      by_cases h : r = d
      · subst h; rw [if_pos rfl, if_pos ⟨rfl, hd⟩]
      · have : r.toNat ≠ d.toNat := fun e => h (BitVec.eq_of_toNat_eq e)
        simp [h, this]

@[simp] theorem Strand.reg_go (t : Strand) (pc : Word) (r : SReg) : (t.go pc).reg r = t.reg r := rfl
@[simp] theorem Strand.mask_go (t : Strand) (pc : Word) (m : MReg) : (t.go pc).mask m = t.mask m := rfl
@[simp] theorem Strand.chain_go (t : Strand) (pc : Word) (c : CReg) : (t.go pc).chain c = t.chain c := rfl
@[simp] theorem Strand.kmask_go (t : Strand) (pc : Word) (k : KReg) : (t.go pc).kmask k = t.kmask k := rfl

/-- Every chain register after a write of one (R126). -/
theorem Strand.chain_setChain (t : Strand) (c d : CReg) (v : Chain) :
    (t.setChain d v).chain c = if c = d then v else t.chain c := by
  unfold Strand.setChain Strand.chain
  simp only [Sparse.get_put]
  by_cases h : c = d
  · simp [h]
  · have : c.toNat ≠ d.toNat := fun e => h (BitVec.eq_of_toNat_eq e)
    simp [h, this]

/-- Every element mask after a write of one: `m0` discards it (R56, R60). -/
theorem Strand.mask_setMask (t : Strand) (m d : MReg) (v : Mask) :
    (t.setMask d v).mask m = if m = d ∧ d ≠ 0 then v else t.mask m := by
  unfold Strand.setMask Strand.mask
  by_cases hd : d = 0
  · simp [hd]
  · rw [if_neg hd]
    by_cases hm : m = 0
    · have h0 : ¬(m = d ∧ d ≠ 0) := fun h => hd (h.1 ▸ hm)
      rw [if_pos hm, if_neg h0, if_pos hm]
    · simp only [if_neg hm, Sparse.get_put]
      by_cases h : m = d
      · subst h; rw [if_pos rfl, if_pos ⟨rfl, hd⟩]
      · have : m.toNat ≠ d.toNat := fun e => h (BitVec.eq_of_toNat_eq e)
        simp [h, this]

/-- Every completion mask after a write of one. -/
theorem Strand.kmask_setKmask (t : Strand) (k d : KReg) (v : KMask) :
    (t.setKmask d v).kmask k = if k = d then v else t.kmask k := by
  unfold Strand.setKmask Strand.kmask
  simp only [Sparse.get_put]
  by_cases h : k = d
  · simp [h]
  · have : k.toNat ≠ d.toNat := fun e => h (BitVec.eq_of_toNat_eq e)
    simp [h, this]

/-- Memory after a write of one byte. -/
theorem State.byteAt_setByte (s : State) (l k : Nat) (b : Byte) :
    (s.setByte l b).byteAt k = if k = l then b else s.byteAt k := Sparse.get_put ..

end Sys2Proof.Machine
end

