-- ==== Sys2Proof/Laws/Memory.lean ====
section
/-! SUPPORT. Memory: every operation keeps its canonical form, and what a read finds after a write. -/

namespace Sys2Proof.Machine

theorem reset_memOk : State.reset.memOk := rfl

/-! ### The canonical form -/

theorem memOk_of_eq {s t : State} (h : s.memOk) (e : t.mem = s.mem) : t.memOk := by
  unfold State.memOk at *; rw [e]; exact h

theorem setByte_memOk {s : State} (h : s.memOk) (l : Nat) (b : Byte) : (s.setByte l b).memOk :=
  Sparse.wf_put unwritten l b h

theorem setBytes_memOk {s : State} (h : s.memOk) (l : Nat) (bs : List Byte) : (s.setBytes l bs).memOk := by
  induction bs generalizing s l with
  | nil => exact h
  | cons b bs ih => exact ih (setByte_memOk h l b) (l + 1)

/-- Memory from which some places have been dropped keeps its form. -/
theorem wf_filter {m : List Host.Cell} (h : Memory.wf m = true) (p : Host.Cell → Bool) :
    Memory.wf (m.filter p) = true := by
  simp only [Memory.wf, Sparse.wf, Bool.and_eq_true, List.all_eq_true] at h ⊢
  refine ⟨?_, fun e he => h.2 e (List.mem_filter.1 he).1⟩
  have h1 := h.1
  clear h
  induction m with
  | nil => rfl
  | cons e m ih =>
      have hm := Sparse.rising_cons.1 h1
      rw [List.filter_cons]
      split
      · exact Sparse.rising_cons.2 ⟨fun x hx => hm.1 x (List.mem_filter.1 hx).1, ih hm.2⟩
      · exact ih hm.2

theorem rekey_memOk {s : State} (h : s.memOk) (k l : Nat) : (s.rekey k l).memOk := by
  unfold State.rekey
  dsimp only
  split
  · exact h
  split
  · exact h
  · exact memOk_of_eq (setBytes_memOk h _ _) rfl

theorem putPlain_memOk {s : State} (h : s.memOk) (k l : Nat) (bs : List Byte) : (s.putPlain k l bs).memOk := by
  unfold State.putPlain
  split
  · exact h
  · exact setBytes_memOk (rekey_memOk h k l) l bs

theorem setFar_memOk {s : State} (h : s.memOk) (l : Nat) (bs : List Byte) : (s.setFar l bs).memOk := by
  induction bs generalizing s l with
  | nil => exact h
  | cons b bs ih =>
      refine ih ?_ (l + 1)
      split
      · exact h
      · exact setByte_memOk h l b

/-- A fold of steps that each keep the memory keeps it. -/
theorem foldl_mem {α : Type} (f : State → α → State) (hf : ∀ s a, (f s a).mem = s.mem) (l : List α) (s : State) :
    (l.foldl f s).mem = s.mem := by
  induction l generalizing s with
  | nil => rfl
  | cons a l ih => rw [List.foldl_cons, ih, hf]

@[simp] theorem touch_mem (s : State) (a f : Nat) (p : Party) (g : Nat) (w : Bool) : (s.touch a f p g w).mem = s.mem := rfl
@[simp] theorem setTokens_mem (s : State) (k : Nat) (l : List Token) : (s.setTokens k l).mem = s.mem := rfl
@[simp] theorem sawTokens_mem (s : State) (a k : Nat) : (s.sawTokens a k).mem = s.mem := by
  unfold State.sawTokens; dsimp only; split <;> rfl
@[simp] theorem wroteTokens_mem (s : State) (a k : Nat) : (s.wroteTokens a k).mem = s.mem := by
  unfold State.wroteTokens; dsimp only; split <;> rfl

theorem materialise_memOk {s : State} (h : s.memOk) (a : Access) (g : Page) : (s.materialise a g).memOk := by
  unfold State.materialise
  dsimp only
  split
  · exact h
  · next i _ =>
      have hp := putPlain_memOk h g.key ((s.part a.part).cellPlace i) (s.plain g.key (placeOf g.pa g.home / 64 * 64) 64)
      refine memOk_of_eq hp ?_
      rw [foldl_mem _ (fun _ _ => wroteTokens_mem ..), foldl_mem _ (fun _ _ => sawTokens_mem ..)]
      rfl

theorem poke_memOk {s : State} (h : s.memOk) (a : Access) (g : Page) (bs : List Byte) (c : Bool) :
    (s.poke a g bs c).memOk := by
  have hm : (if s.needsCell a g then s.materialise a g else s).memOk := by
    split
    · exact materialise_memOk h a g
    · exact h
  unfold State.poke
  generalize (if s.needsCell a g then s.materialise a g else s) = u at hm
  have hp := putPlain_memOk hm g.key (u.locate a g) bs
  dsimp only
  generalize u.putPlain g.key (u.locate a g) bs = v at hp
  split
  · exact memOk_of_eq h rfl
  split
  · exact memOk_of_eq h (by unfold State.logs; rfl)
  split
  · exact memOk_of_eq hp rfl
  · exact hp

@[simp] theorem touchAll_mem (s : State) (a : Access) (g : Page) (l n : Nat) (w : Bool) :
    (s.touchAll a g l n w).mem = s.mem := by
  unfold State.touchAll
  split
  · exact foldl_mem _ (fun _ _ => touch_mem ..) _ _
  · rfl

/-- Counting an access changes the counts alone (R281). -/
theorem used_rest (s : State) (g : Page) : { s.used g with pageUse := s.pageUse } = s := by
  unfold State.used State.counts
  split <;> rfl

@[simp] theorem used_mem (s : State) (g : Page) : (s.used g).mem = s.mem := by
  unfold State.used State.counts
  split <;> rfl

/-- What it counts. -/
theorem used_counted (s : State) (g : Page) : CountedOnce s (s.used g) g := by
  intro k
  unfold State.used
  split
  · next h =>
      refine (if_neg (c := s.peers ≠ [] ∧ g.pa < mboxBase ∧ k = g.pa / 65536 * 128 + 64) ?_).symm ▸ rfl
      rintro ⟨a, b, -⟩
      rcases Bool.or_eq_true_iff.1 h with h | h
      · exact a (List.isEmpty_iff.1 h)
      · have := of_decide_eq_true h; omega
  · next h =>
      simp only [Bool.or_eq_true, List.isEmpty_iff, decide_eq_true_eq, not_or, Nat.not_le] at h
      unfold State.counts
      dsimp only
      rw [Sparse.get_put]
      by_cases e : k = g.pa / 65536 * 128 + thisPart
      · subst e; rw [if_pos rfl, if_pos ⟨h.1, h.2, rfl⟩]
      · rw [if_neg e, if_neg fun c => e c.2.2, Nat.add_zero]

/-- Outside a domain nothing is counted. -/
theorem used_alone {s : State} (h : s.peers = []) (g : Page) : s.used g = s := by simp [State.used, h]

/-- A read leaves memory as it was. -/
@[simp] theorem load_mem (s : State) (a : Access) (g : Page) (n : Nat) : (s.load a g n).2.mem = s.mem := by
  unfold State.load
  dsimp only
  split
  · simp
  · rw [foldl_mem _ (fun _ _ => sawTokens_mem ..), touchAll_mem, used_mem]

/-- A store's memory is that of its bytes placed. -/
theorem store_mem (s : State) (a : Access) (g : Page) (bs : List Byte) (c : Bool) :
    (s.store a g bs c).mem = ((s.used g).poke a g bs c).mem := by
  unfold State.store
  dsimp only
  split
  · exact touchAll_mem ..
  · rw [foldl_mem _ (fun _ _ => wroteTokens_mem ..), touchAll_mem]

theorem store_memOk {s : State} (h : s.memOk) (a : Access) (g : Page) (bs : List Byte) (c : Bool) :
    (s.store a g bs c).memOk :=
  memOk_of_eq (poke_memOk (memOk_of_eq h (used_mem s g)) a g bs c) (store_mem ..)

theorem setBuf_memOk {s : State} (h : s.memOk) (x id o : Nat) (bs : List Byte) : (s.setBuf x id o bs).memOk := by
  unfold State.setBuf
  dsimp only
  split
  · split
    · exact setFar_memOk h _ _
    · exact memOk_of_eq (setFar_memOk h _ _) rfl
  · exact memOk_of_eq h rfl

@[simp] theorem cleanBuf_mem (s : State) (x id o n : Nat) : (s.cleanBuf x id o n).mem = s.mem := by
  unfold State.cleanBuf
  split
  · exact foldl_mem State.unmark (fun _ _ => rfl) _ _
  · rfl

theorem setFresh_memOk {s : State} (h : s.memOk) (x id o : Nat) (bs : List Byte) : (s.setFresh x id o bs).memOk :=
  memOk_of_eq (setBuf_memOk h x id o bs) (cleanBuf_mem ..)

theorem fill_memOk {s : State} (h : s.memOk) (x : Nat) (l : List Seg) (bs : List Byte) : (s.fill x l bs).memOk := by
  induction l generalizing s bs with
  | nil => exact h
  | cons g l ih => exact ih (setFresh_memOk h _ _ _ _) _

theorem writePieces_memOk {s : State} (h : s.memOk) (a : Access) (va : Nat) (bs : List Byte) (w : Nat)
    (l : List (Nat × Nat)) : (s.writePieces a va bs w l).2.memOk := by
  induction l generalizing s with
  | nil => exact h
  | cons p l ih =>
      rw [State.writePieces]
      split
      · exact h
      · exact h
      · exact ih (store_memOk h _ _ _ _)

theorem writeLines_memOk {s : State} (h : s.memOk) (a : Access) (va : Nat) (bs : List Byte) (n : Nat) :
    (s.writeLines a va bs n).2.memOk := by
  induction n generalizing s va bs with
  | zero => exact h
  | succ n ih =>
      rw [State.writeLines]
      split
      · exact h
      · exact h
      · exact ih (store_memOk h _ _ _ _) _ _

theorem putCode_memOk {s : State} (h : s.memOk) (bs : List Byte) : (s.putCode bs).memOk := by
  unfold State.putCode
  split
  · exact h
  · exact putPlain_memOk h _ _ _

/-! ### What a read finds after a write -/

/-- Bytes put into a table one after another: inside them their value, elsewhere what stood there. -/
theorem get_putBytes (t : Sparse Byte) (k : Nat) (bs : List Byte) (j : Nat) :
    Sparse.get 0 j (putBytes t k bs) = if k ≤ j ∧ j < k + bs.length then bs.getD (j - k) 0 else Sparse.get 0 j t := by
  induction bs generalizing t k with
  | nil => exact (if_neg fun h => Nat.lt_irrefl _ (Nat.lt_of_le_of_lt h.1 h.2)).symm
  | cons b bs later =>
      rw [putBytes, later, Sparse.get_put]
      by_cases at_ : j = k
      · simp [at_]
      · have same : (k + 1 ≤ j ∧ j < k + 1 + bs.length) ↔ (k ≤ j ∧ j < k + (b :: bs).length) := by
          rw [List.length_cons]; omega
        simp only [same, at_, if_false]
        refine ite_congr rfl (fun inside => ?_) fun _ => rfl
        rw [show j - k = j - (k + 1) + 1 by omega, List.getD_cons_succ]

theorem mem_setBytes (s : State) (l : Nat) : (bs : List Byte) → (s.setBytes l bs).mem = putBytes s.mem l bs
  | [] => rfl
  | b :: bs => mem_setBytes (s.setByte l b) (l + 1) bs

/-- The same of bytes of memory. -/
theorem byteAt_setBytes (s : State) (l : Nat) (bs : List Byte) (k : Nat) :
    (s.setBytes l bs).byteAt k = if l ≤ k ∧ k < l + bs.length then bs.getD (k - l) 0 else s.byteAt k :=
  (congrArg (Sparse.get 0 k) (mem_setBytes s l bs)).trans (get_putBytes s.mem l bs k)

/-- Bytes of a far buffer written leave the rest of the package. -/
theorem setFar_rest (s : State) (l : Nat) (bs : List Byte) : { s.setFar l bs with mem := s.mem } = s := by
  induction bs generalizing s l with
  | nil => rfl
  | cons b bs ih =>
      have e := ih (if inDusk l then s else s.setByte l b) (l + 1)
      rw [State.setFar]
      split at e <;> rename_i h
      · rw [if_pos h]; exact e
      · rw [if_neg h]; exact congrArg (fun u : State => { u with mem := s.mem }) e

@[simp] theorem setFar_cxs (s : State) (l : Nat) (bs : List Byte) : (s.setFar l bs).cxs = s.cxs := by
  have e := congrArg State.cxs (setFar_rest s l bs); exact e

@[simp] theorem setFar_lineKey (s : State) (l : Nat) (bs : List Byte) : (s.setFar l bs).lineKey = s.lineKey := by
  have e := congrArg State.lineKey (setFar_rest s l bs); exact e

/-- They stand where they were placed, but for those in the Dusk region (R320). -/
theorem byteAt_setFar (s : State) (l : Nat) (bs : List Byte) (k : Nat) :
    (s.setFar l bs).byteAt k =
      if inDusk k = false ∧ l ≤ k ∧ k < l + bs.length then bs.getD (k - l) 0 else s.byteAt k := by
  induction bs generalizing s l with
  | nil => exact (if_neg fun h => Nat.lt_irrefl _ (Nat.lt_of_le_of_lt h.2.1 h.2.2)).symm
  | cons b bs later =>
      rw [State.setFar, later]
      have at_ : (if inDusk l = true then s else s.setByte l b).byteAt k
          = if inDusk k = false ∧ k = l then b else s.byteAt k := by
        split
        · next h => rw [if_neg]; rintro ⟨a, rfl⟩; rw [h] at a; cases a
        · next h =>
            have e : (s.setByte l b).byteAt k = if k = l then b else s.byteAt k := Sparse.get_put ..
            rw [e]
            by_cases hk : k = l
            · subst hk; simp [h]
            · simp [hk]
      rw [at_]
      by_cases hd : inDusk k = false
      · by_cases hk : k = l
        · subst hk; simp [hd]
        · have same : (l + 1 ≤ k ∧ k < l + 1 + bs.length) ↔ (l ≤ k ∧ k < l + (b :: bs).length) := by
            rw [List.length_cons]; omega
          simp only [hd, same, hk, true_and, and_false, if_false]
          refine ite_congr rfl (fun inside => ?_) fun _ => rfl
          rw [show k - l = k - (l + 1) + 1 by omega, List.getD_cons_succ]
      · simp [hd]

/-- A byte of a far buffer in the Dusk region stays as it reads. -/
theorem clearByte_setFar (s : State) (l : Nat) (bs : List Byte) {k : Nat} (h : inDusk k = true) :
    (s.setFar l bs).clearByte k = s.clearByte k := by
  have line : ∀ i, i < 64 → inDusk (k / 64 * 64 + i) = true := by
    intro i hi
    unfold inDusk duskBase dramTop at h ⊢
    simp only [Bool.and_eq_true, decide_eq_true_eq] at h ⊢
    omega
  have same : ∀ j, inDusk j = true → (s.setFar l bs).byteAt j = s.byteAt j := by
    intro j hj
    rw [byteAt_setFar, if_neg]
    rintro ⟨a, -⟩
    rw [hj] at a; cases a
  have bytes : (s.setFar l bs).bytesAt (k / 64 * 64) 64 = s.bytesAt (k / 64 * 64) 64 := by
    unfold State.bytesAt
    exact List.map_congr_left fun i hi => same _ (line i (List.mem_range.1 hi))
  have key : ∀ u : State, u.keyOf (k / 64) = some .folman := by
    intro u
    unfold State.keyOf
    have := line 0 (by decide)
    rw [Nat.add_zero] at this
    rw [if_pos this]
  unfold State.clearByte
  rw [same k h, bytes, key, key]
  rfl

@[simp] theorem setBytes_lineKey (s : State) (l : Nat) (bs : List Byte) : (s.setBytes l bs).lineKey = s.lineKey := by
  induction bs generalizing s l with
  | nil => rfl
  | cons b bs ih => rw [State.setBytes, ih, State.setByte_lineKey]

@[simp] theorem setBytes_keyLoads (s : State) (l : Nat) (bs : List Byte) : (s.setBytes l bs).keyLoads = s.keyLoads := by
  induction bs generalizing s l with
  | nil => rfl
  | cons b bs ih => rw [State.setBytes, ih, State.setByte_keyLoads]

@[simp] theorem length_bytesAt (s : State) (l n : Nat) : (s.bytesAt l n).length = n := by simp [State.bytesAt]
@[simp] theorem length_plain (s : State) (k l n : Nat) : (s.plain k l n).length = n := by simp [State.plain]
@[simp] theorem length_leBytes (n v : Nat) : (leBytes n v).length = n := by
  induction n generalizing v with
  | zero => rfl
  | succ n ih => simp [leBytes, ih]

/-- The bytes of a number give it back (R2). -/
theorem leNat_leBytes (n v : Nat) : leNat (leBytes n v) = v % 256 ^ n := by
  induction n generalizing v with
  | zero => simp [leBytes, leNat, Nat.mod_one]
  | succ n ih =>
      have e : (BitVec.ofNat 8 v).toNat = v % 256 := by simp
      rw [leBytes, leNat, ih, e, Nat.pow_succ, Nat.mul_comm (256 ^ n), Nat.mod_mul]

end Sys2Proof.Machine
end

