-- ==== Sys2Proof/Laws/Pools.lean ====
section
/-! SUPPORT. Buffer pools: what allocation and reference counts change, and that a dense chain reads back as the bytes
that fill it. -/

namespace Sys2Proof.Machine

/-! ### Pools and references -/

@[simp] theorem pool_setPool_same (s : State) (x : Nat) (far : Bool) (p : Pool) :
    (s.setPool x far p).pool x far = p := by
  unfold State.setPool State.pool Complex.setPool Complex.pool
  rw [State.cx_setCx_same]
  cases far <;> rfl

theorem pool_setPool (s : State) (x y : Nat) (far g : Bool) (p : Pool) :
    (s.setPool x far p).pool y g = if y = x ∧ g = far then p else s.pool y g := by
  unfold State.setPool State.pool Complex.setPool Complex.pool
  rw [State.cx_setCx]
  by_cases h : y = x
  · subst h; cases far <;> cases g <;> simp
  · simp [h]

/-- An update of a pool leaves every strand, the memory and everything else but the complex. -/
theorem setPool_rest (s : State) (x : Nat) (far : Bool) (p : Pool) :
    { s.setPool x far p with cxs := s.cxs } = s := rfl

@[simp] theorem setPool_strands (s : State) (x : Nat) (far : Bool) (p : Pool) : (s.setPool x far p).strands = s.strands := rfl
@[simp] theorem setPool_mem (s : State) (x : Nat) (far : Bool) (p : Pool) : (s.setPool x far p).mem = s.mem := rfl
@[simp] theorem setPool_cur (s : State) (x : Nat) (far : Bool) (p : Pool) : (s.setPool x far p).cur = s.cur := rfl
@[simp] theorem setPool_me (s : State) (x : Nat) (far : Bool) (p : Pool) : (s.setPool x far p).me = s.me := rfl

theorem sram_setPool (s : State) (x y : Nat) (far : Bool) (p : Pool) :
    ((s.setPool x far p).cx y).sram = (s.cx y).sram := by
  unfold State.setPool Complex.setPool
  rw [State.cx_setCx]
  split
  · next h => subst h; cases far <;> rfl
  · rfl

@[simp] theorem drop_size (p : Pool) (i : Nat) : (p.drop i).size = p.size := rfl
@[simp] theorem drop_free (p : Pool) (i : Nat) : (p.drop i).free = p.free := rfl
@[simp] theorem drop_base (p : Pool) (i : Nat) : (p.drop i).base = p.base := rfl
@[simp] theorem drop_bsize (p : Pool) (i : Nat) : (p.drop i).bsize = p.bsize := rfl

/-- One reference fewer at buffer `i`, none below zero (R121). -/
theorem ref_drop (p : Pool) (i j : Nat) : (p.drop i).ref j = if j = i then p.ref i - 1 else p.ref j :=
  Sparse.get_put 0 j i (p.ref i - 1) p.refs

theorem ref_take (p : Pool) (i j : Nat) : (p.take i).ref j = if j = i then p.ref i + 1 else p.ref j :=
  Sparse.get_put 0 j i (p.ref i + 1) p.refs

/-- One reference fewer leaves of every pool what the pool's own drop leaves; the reclaim queue is the complex's. -/
theorem pool_dropRef (s : State) (x id y : Nat) (far : Bool) :
    (s.dropRef x id).pool y far =
      if y = x ∧ far = idFar id then (s.pool x (idFar id)).drop (idIndex id) else s.pool y far := by
  rw [← pool_setPool]
  unfold State.dropRef
  dsimp only
  split
  · unfold State.pool
    rw [State.cx_setCx]
    split
    · next h => subst h; cases far <;> rfl
    · rfl
  · rfl

theorem sram_dropRef (s : State) (x id y : Nat) : ((s.dropRef x id).cx y).sram = (s.cx y).sram := by
  rw [← sram_setPool s x y (idFar id) ((s.pool x (idFar id)).drop (idIndex id))]
  unfold State.dropRef
  dsimp only
  split
  · rw [State.cx_setCx]
    split
    · next h => subst h; rfl
    · rfl
  · rfl

theorem dropRef_rest (s : State) (x id : Nat) : { s.dropRef x id with cxs := s.cxs } = s := by
  unfold State.dropRef
  dsimp only
  split <;> rfl

theorem dropRefs_cons (s : State) (x : Nat) (g : Seg) (l : List Seg) :
    s.dropRefs x (g :: l) = (s.dropRef x g.id).dropRefs x l := rfl
theorem addRefs_cons (s : State) (x : Nat) (g : Seg) (l : List Seg) :
    s.addRefs x (g :: l) = (s.setPool x (idFar g.id) ((s.pool x (idFar g.id)).take (idIndex g.id))).addRefs x l := rfl
@[simp] theorem dropRefs_nil (s : State) (x : Nat) : s.dropRefs x [] = s := rfl
@[simp] theorem addRefs_nil (s : State) (x : Nat) : s.addRefs x [] = s := rfl

/-- Dropping references changes nothing but the pools of the complex. -/
theorem dropRefs_rest (s : State) (x : Nat) (l : List Seg) : { s.dropRefs x l with cxs := s.cxs } = s := by
  induction l generalizing s with
  | nil => rfl
  | cons g l ih =>
      rw [dropRefs_cons]
      exact (congrArg (fun v : State => { v with cxs := s.cxs }) (ih (s.dropRef x g.id))).trans (dropRef_rest s x g.id)

/-- Counting references changes nothing but the pools of the complex. -/
theorem addRefs_rest (s : State) (x : Nat) (l : List Seg) : { s.addRefs x l with cxs := s.cxs } = s := by
  induction l generalizing s with
  | nil => rfl
  | cons g l ih =>
      rw [addRefs_cons]
      exact congrArg (fun v : State => { v with cxs := s.cxs })
        (ih (s.setPool x (idFar g.id) ((s.pool x (idFar g.id)).take (idIndex g.id))))

@[simp] theorem dropRefs_strands (s : State) (x : Nat) (l : List Seg) : (s.dropRefs x l).strands = s.strands := by
  have h := congrArg State.strands (dropRefs_rest s x l); exact h
@[simp] theorem dropRefs_mem (s : State) (x : Nat) (l : List Seg) : (s.dropRefs x l).mem = s.mem := by
  have h := congrArg State.mem (dropRefs_rest s x l); exact h
@[simp] theorem dropRefs_cur (s : State) (x : Nat) (l : List Seg) : (s.dropRefs x l).cur = s.cur := by
  have h := congrArg State.cur (dropRefs_rest s x l); exact h
@[simp] theorem dropRefs_me (s : State) (x : Nat) (l : List Seg) : (s.dropRefs x l).me = s.me := by
  unfold State.me State.strand; simp
@[simp] theorem addRefs_strands (s : State) (x : Nat) (l : List Seg) : (s.addRefs x l).strands = s.strands := by
  have h := congrArg State.strands (addRefs_rest s x l); exact h
@[simp] theorem addRefs_mem (s : State) (x : Nat) (l : List Seg) : (s.addRefs x l).mem = s.mem := by
  have h := congrArg State.mem (addRefs_rest s x l); exact h
@[simp] theorem addRefs_cur (s : State) (x : Nat) (l : List Seg) : (s.addRefs x l).cur = s.cur := by
  have h := congrArg State.cur (addRefs_rest s x l); exact h
@[simp] theorem addRefs_me (s : State) (x : Nat) (l : List Seg) : (s.addRefs x l).me = s.me := by
  unfold State.me State.strand; simp

/-- What dropping references leaves of a pool's layout and free list. -/
theorem dropRefs_pool (s : State) (x : Nat) (l : List Seg) (y : Nat) (far : Bool) :
    ((s.dropRefs x l).pool y far).free = (s.pool y far).free
      ∧ ((s.dropRefs x l).pool y far).bsize = (s.pool y far).bsize
      ∧ ((s.dropRefs x l).pool y far).base = (s.pool y far).base := by
  induction l generalizing s with
  | nil => exact ⟨rfl, rfl, rfl⟩
  | cons g l ih =>
      rw [dropRefs_cons]
      obtain ⟨a, b, c⟩ := ih (s.dropRef x g.id)
      rw [a, b, c, pool_dropRef]
      split
      · next h => rw [h.1, h.2]; simp
      · exact ⟨rfl, rfl, rfl⟩

theorem dropRefs_sram (s : State) (x y : Nat) (l : List Seg) :
    ((s.dropRefs x l).cx y).sram = (s.cx y).sram := by
  induction l generalizing s with
  | nil => rfl
  | cons g l ih => rw [dropRefs_cons, ih, sram_dropRef]

/-! ### Waiting for a buffer (R120, R298, R299) -/

/-- With no other allocation waiting, every free buffer may be taken. -/
theorem room_alone {s : State} {x : Nat} {far : Bool} (h : s.behind x far = false) :
    s.room x far = (s.pool x far).free.length := by
  unfold State.room; rw [h]; rfl

/-- Giving granted buffers back changes the complex alone. -/
theorem returned_rest (s : State) (x : Nat) (far : Bool) (l : List Nat) : { s.returned x far l with cxs := s.cxs } = s := by
  unfold State.returned
  dsimp only
  split <;> rfl

/-- Buffers that are not free any more, the instruction having used them, are not given back. -/
theorem returned_used {s : State} {x : Nat} {far : Bool} {l : List Nat} (h : ∀ i ∈ l, i ∉ (s.pool x far).free) :
    s.returned x far l = s := by
  unfold State.returned
  have e : l.filter (s.pool x far).free.contains = [] := List.filter_eq_nil_iff.2 fun i hi => by simpa using h i hi
  dsimp only
  rw [e]; rfl

theorem unheld_rest (s : State) : { s.unheld with cxs := s.cxs } = s := by
  unfold State.unheld
  split <;> rfl

theorem letGo_rest (s : State) : { s.letGo with cxs := s.cxs } = s := by
  unfold State.letGo
  split
  · exact (congrArg (fun v : State => { v with cxs := s.cxs }) (returned_rest s.unheld ..)).trans (unheld_rest s)
  · rfl

/-- A strand that waits for no buffer holds none. -/
theorem unheld_none {s : State} (h : ∀ far since l, s.me.wait ≠ .alloc far since l) : s.unheld = s := by
  unfold State.unheld
  split
  · next e => exact (h _ _ _ e).elim
  · rfl

theorem letGo_none {s : State} (h : ∀ far since l, s.me.wait ≠ .alloc far since l) : s.letGo = s := by
  unfold State.letGo
  split
  · next e => exact (h _ _ _ e).elim
  · rfl

@[simp] theorem returned_mem (s : State) (x : Nat) (far : Bool) (l : List Nat) : (s.returned x far l).mem = s.mem := by
  have h := congrArg State.mem (returned_rest s x far l); exact h
@[simp] theorem returned_strands (s : State) (x : Nat) (far : Bool) (l : List Nat) :
    (s.returned x far l).strands = s.strands := by
  have h := congrArg State.strands (returned_rest s x far l); exact h
@[simp] theorem unheld_mem (s : State) : s.unheld.mem = s.mem := by
  have h := congrArg State.mem (unheld_rest s); exact h
@[simp] theorem unheld_strands (s : State) : s.unheld.strands = s.strands := by
  have h := congrArg State.strands (unheld_rest s); exact h
@[simp] theorem unheld_cur (s : State) : s.unheld.cur = s.cur := by
  have h := congrArg State.cur (unheld_rest s); exact h
@[simp] theorem unheld_me (s : State) : s.unheld.me = s.me := by
  unfold State.me State.strand; simp
@[simp] theorem letGo_mem (s : State) : s.letGo.mem = s.mem := by
  have h := congrArg State.mem (letGo_rest s); exact h
@[simp] theorem letGo_strands (s : State) : s.letGo.strands = s.strands := by
  have h := congrArg State.strands (letGo_rest s); exact h

/-- References left at buffer `id` (R121). -/
theorem refs_dropRefs (s : State) (x id : Nat) (l : List Seg) :
    (s.dropRefs x l).refs x id
      = s.refs x id - l.countP fun g => idFar g.id == idFar id && idIndex g.id == idIndex id := by
  induction l generalizing s with
  | nil => rfl
  | cons g l ih =>
      rw [dropRefs_cons, ih, List.countP_cons]
      have e : (s.dropRef x g.id).refs x id
          = s.refs x id - if (idFar g.id == idFar id && idIndex g.id == idIndex id) = true then 1 else 0 := by
        unfold State.refs
        rw [pool_dropRef]
        by_cases h : idFar id = idFar g.id
        · rw [if_pos ⟨rfl, h⟩, ref_drop, h]
          by_cases h2 : idIndex id = idIndex g.id
          · rw [if_pos h2, if_pos (by simp [h2]), h2]
          · rw [if_neg h2, if_neg (by simp [Ne.symm h2])]; rfl
        · rw [if_neg (fun e => h e.2), if_neg (by simp [Ne.symm h])]; rfl
      rw [e]; omega

/-- References at buffer `id` after counting (R119). -/
theorem refs_addRefs (s : State) (x id : Nat) (l : List Seg) :
    (s.addRefs x l).refs x id
      = s.refs x id + l.countP fun g => idFar g.id == idFar id && idIndex g.id == idIndex id := by
  induction l generalizing s with
  | nil => rfl
  | cons g l ih =>
      rw [addRefs_cons, ih, List.countP_cons]
      have e : (s.setPool x (idFar g.id) ((s.pool x (idFar g.id)).take (idIndex g.id))).refs x id
          = s.refs x id + if (idFar g.id == idFar id && idIndex g.id == idIndex id) = true then 1 else 0 := by
        unfold State.refs
        rw [pool_setPool]
        by_cases h : idFar id = idFar g.id
        · rw [if_pos ⟨rfl, h⟩, ref_take, h]
          by_cases h2 : idIndex id = idIndex g.id
          · rw [if_pos h2, if_pos (by simp [h2]), h2]
          · rw [if_neg h2, if_neg (by simp [Ne.symm h2])]; rfl
        · rw [if_neg (fun e => h e.2), if_neg (by simp [Ne.symm h])]; rfl
      rw [e]; omega

end Sys2Proof.Machine
end

