-- ==== Sys2Proof/Laws/Chains.lean ====
section
/-! SUPPORT. Allocation, the bytes of buffers, and dense chains: a chain filled with bytes reads back as them. -/

namespace Sys2Proof.Machine

/-! ### Allocation (R120) -/

/-- The state after the first `n` free buffers of a pool have been taken. -/
def State.taken (s : State) (x : Nat) (far : Bool) (n : Nat) : State :=
  s.setPool x far { s.pool x far with
    free := (s.pool x far).free.drop n
    refs := ((s.pool x far).free.take n).foldl (fun r i => Sparse.put 0 i 1 r) (s.pool x far).refs }

theorem setPool_self (s : State) (x : Nat) (far : Bool) (p q : Pool) :
    (s.setPool x far p).setPool x far q = (s.setPool x far p).setPool x far q := rfl

theorem alloc_cons {s : State} {x i : Nat} {far : Bool} {t : List Nat} (he : (s.pool x far).enable = true)
    (hf : (s.pool x far).free = i :: t) :
    s.alloc x far = .ok (mkId far i, s.setPool x far { s.pool x far with free := t, refs := Sparse.put 0 i 1 (s.pool x far).refs }) := by
  unfold State.alloc
  simp [he, hf]

/-- An allocation succeeds in an enabled pool only (R299). -/
theorem enable_of_alloc {s u : State} {x i : Nat} {far : Bool} (h : s.alloc x far = .ok (i, u)) :
    (s.pool x far).enable = true := by
  cases e : (s.pool x far).enable
  · simp [State.alloc, e] at h
  · rfl

/-- As many buffers are free as are taken at once. -/
theorem free_of_allocs {x : Nat} {far : Bool} {n : Nat} {s : State} {r : List Nat × State}
    (h : s.allocs x far n = .ok r) : n ≤ (s.pool x far).free.length := by
  induction n generalizing s r with
  | zero => omega
  | succ n ih =>
      rw [State.allocs] at h
      cases ha : s.alloc x far with
      | error e => rw [ha] at h; simp at h
      | ok v =>
          obtain ⟨i, w⟩ := v
          rw [ha] at h
          dsimp only at h
          cases hb : w.allocs x far n with
          | error e => rw [hb] at h; simp at h
          | ok v =>
              have rest := ih hb
              have he := enable_of_alloc ha
              cases hf : (s.pool x far).free with
              | nil => simp [State.alloc, he, hf] at ha
              | cons j t =>
                  rw [alloc_cons he hf, Except.ok.injEq, Prod.mk.injEq] at ha
                  rw [← ha.2, pool_setPool_same] at rest
                  simpa using rest

/-- Allocations from a pool that has enough buffers: the heads of its free list, in order (R120). -/
theorem allocs_ok (x : Nat) (far : Bool) (n : Nat) (s : State) (he : n ≠ 0 → (s.pool x far).enable = true)
    (hn : n ≤ (s.pool x far).free.length) :
    ∃ s', s.allocs x far n = .ok (((s.pool x far).free.take n).map (mkId far), s')
      ∧ { s' with cxs := s.cxs } = s
      ∧ (s'.pool x far).free = (s.pool x far).free.drop n
      ∧ (∀ y g, ¬ (y = x ∧ g = far) → s'.pool y g = s.pool y g)
      ∧ (s'.pool x far).bsize = (s.pool x far).bsize ∧ (s'.pool x far).base = (s.pool x far).base
      ∧ (s'.pool x far).enable = (s.pool x far).enable
      ∧ (∀ y, (s'.cx y).sram = (s.cx y).sram)
      ∧ (∀ i, (s'.pool x far).ref i = if i ∈ (s.pool x far).free.take n then 1 else (s.pool x far).ref i) := by
  induction n generalizing s with
  | zero => exact ⟨s, rfl, rfl, rfl, fun _ _ _ => rfl, rfl, rfl, rfl, fun _ => rfl, fun i => by simp⟩
  | succ n ih =>
      have hen := he (by omega)
      match hf : (s.pool x far).free with
      | [] => rw [hf] at hn; simp at hn
      | i :: t =>
          rw [hf] at hn
          have ha := alloc_cons hen hf
          generalize hu : s.setPool x far { s.pool x far with free := t, refs := Sparse.put 0 i 1 (s.pool x far).refs } = u at ha
          have hp : u.pool x far = { s.pool x far with free := t, refs := Sparse.put 0 i 1 (s.pool x far).refs } := by
            rw [← hu]; exact pool_setPool_same ..
          obtain ⟨s', h1, h2, h3, h4, h5, h6, h7, h8, h9⟩ := ih u (fun _ => by rw [hp]; exact hen) (by rw [hp]; simpa using hn)
          refine ⟨s', ?_, ?_, ?_, ?_, ?_, ?_, ?_, ?_, ?_⟩
          · unfold State.allocs
            rw [ha]
            simp only [h1, hp, List.take_succ_cons, List.map_cons]
          · have e := congrArg (fun v : State => { v with cxs := s.cxs }) h2
            rw [← hu] at e; exact e
          · rw [h3, hp]; rfl
          · intro y g hyg
            rw [h4 y g hyg, ← hu, pool_setPool, if_neg hyg]
          · rw [h5, hp]
          · rw [h6, hp]
          · rw [h7, hp]
          · intro y; rw [h8, ← hu, sram_setPool]
          · intro j
            rw [h9, hp]
            simp only [List.take_succ_cons, List.mem_cons]
            by_cases hj : j ∈ t.take n
            · rw [if_pos hj, if_pos (Or.inr hj)]
            · rw [if_neg hj]
              by_cases hi : j = i
              · rw [if_pos (Or.inl hi)]
                show Sparse.get 0 j (Sparse.put 0 i 1 _) = 1
                rw [hi]; exact Sparse.get_put_same ..
              · rw [if_neg (by tauto)]
                show Sparse.get 0 j (Sparse.put 0 i 1 (s.pool x far).refs) = Sparse.get 0 j (s.pool x far).refs
                exact Sparse.get_put_ne 0 hi ..

/-! ### Bytes of buffers -/

/-- A PA under home policy 0 is its own place (R158). -/
theorem placeOf_zero (p : Nat) : placeOf p 0 = p := by
  unfold placeOf
  split
  · next h =>
      unfold dramTop at h
      simp only [dramAddr, bitsOf]
      norm_num
      omega
  · rfl

/-- Where byte `o` of buffer `id` of complex `x` lies: its place in memory, or its offset in the near pools'
storage. -/
def State.bufAt (s : State) (x id o : Nat) : Nat :=
  (if idFar id then (s.pool x true).base.toNat * 65536 else 0) + idIndex id * (s.pool x (idFar id)).size + o

theorem bufBytes_far {s : State} {x id o n : Nat} (h : idFar id = true) :
    s.bufBytes x id o n = (List.range n).map fun k => s.farByte (s.bufAt x id o + k) := by
  unfold State.bufBytes State.bufAt Pool.farPlace
  simp [h, placeOf_zero]

theorem bufBytes_near {s : State} {x id o n : Nat} (h : idFar id = false) :
    s.bufBytes x id o n = (List.range n).map fun k => Sparse.get 0 (s.bufAt x id o + k) (s.cx x).sram := by
  unfold State.bufBytes State.bufAt
  simp [h]

/-- A write of a buffer leaves every pool's layout. -/
theorem setBuf_pool (s : State) (x id o : Nat) (bs : List Byte) (y : Nat) (far : Bool) :
    (s.setBuf x id o bs).pool y far = s.pool y far := by
  unfold State.setBuf
  dsimp only
  split
  · split
    · unfold State.pool State.cx; rw [setFar_cxs]
    · unfold State.pool State.cx; dsimp only; rw [setFar_cxs]
  · unfold State.pool
    rw [State.cx_setCx]
    split
    · next h => subst h; cases far <;> rfl
    · rfl

theorem setBuf_bufAt (s : State) (x id o : Nat) (bs : List Byte) (y j p : Nat) :
    (s.setBuf x id o bs).bufAt y j p = s.bufAt y j p := by
  unfold State.bufAt; rw [setBuf_pool, setBuf_pool]

/-- Clearing the markers of a buffer's lines leaves every complex and every byte. -/
theorem cleanBuf_cxs (s : State) (x id o n : Nat) : (s.cleanBuf x id o n).cxs = s.cxs := by
  unfold State.cleanBuf
  split
  · generalize anyRanges _ _ = l
    induction l generalizing s with
    | nil => rfl
    | cons r l ih => rw [List.foldl_cons, ih]; rfl
  · rfl

theorem farByte_cleanBuf (s : State) (x id o n l : Nat) : (s.cleanBuf x id o n).farByte l = s.farByte l := by
  unfold State.cleanBuf
  split
  · generalize anyRanges _ _ = r
    induction r generalizing s with
    | nil => rfl
    | cons r t ih => rw [List.foldl_cons, ih]; rfl
  · rfl

theorem setFresh_pool (s : State) (x id o : Nat) (bs : List Byte) (y : Nat) (far : Bool) :
    (s.setFresh x id o bs).pool y far = s.pool y far := by
  rw [← setBuf_pool s x id o bs]
  unfold State.pool State.cx State.setFresh
  rw [cleanBuf_cxs]

/-- A write of a fresh buffer leaves in all buffers the bytes that a write of any leaves. -/
theorem bufBytes_setFresh (s : State) (x id o : Nat) (bs : List Byte) (y j p n : Nat) :
    (s.setFresh x id o bs).bufBytes y j p n = (s.setBuf x id o bs).bufBytes y j p n := by
  unfold State.setFresh
  generalize s.setBuf x id o bs = u
  have hc := cleanBuf_cxs u x id o bs.length
  have hb := farByte_cleanBuf u x id o bs.length
  unfold State.bufBytes State.pool State.cx
  simp only [hc, hb]

/-- The byte of a far buffer at place `l` after a write: it stays in the Dusk region (R320). -/
theorem farByte_setFar (s : State) (k : Nat) (bs : List Byte) (l : Nat) :
    (s.setFar k bs).farByte l =
      if inDusk l = false ∧ k ≤ l ∧ l < k + bs.length then bs.getD (l - k) 0 else s.farByte l := by
  unfold State.farByte
  split
  · next h => rw [clearByte_setFar s k bs h, if_neg (fun c => by rw [h] at c; cases c.1)]
  · exact byteAt_setFar s k bs l

/-- Bytes of a buffer after a write of another place, or of the same one; in the Dusk region none is written (R320). -/
theorem bufBytes_setBuf (s : State) (x id o : Nat) (bs : List Byte) (j p n : Nat) :
    (s.setBuf x id o bs).bufBytes x j p n =
      (List.range n).map fun k =>
        if (idFar j = idFar id ∧ s.bufAt x id o ≤ s.bufAt x j p + k ∧ s.bufAt x j p + k < s.bufAt x id o + bs.length)
            ∧ (idFar id = true → inDusk (s.bufAt x j p + k) = false) then
          bs.getD (s.bufAt x j p + k - s.bufAt x id o) 0
        else (s.bufBytes x j p n).getD k 0 := by
  cases hi : idFar id <;> cases hj : idFar j
  · rw [bufBytes_near hj, bufBytes_near hj, setBuf_bufAt]
    apply List.map_congr_left
    intro k hk
    have hk := List.mem_range.1 hk
    have e : ((s.setBuf x id o bs).cx x).sram = putBytes (s.cx x).sram (s.bufAt x id o) bs := by
      unfold State.setBuf State.bufAt
      simp [hi]
    rw [e, get_putBytes]
    simp [List.getD, hk]
  · rw [bufBytes_far hj, bufBytes_far hj, setBuf_bufAt]
    have e : ∀ l, (s.setBuf x id o bs).farByte l = s.farByte l := by
      intro l
      unfold State.setBuf
      simp only [hi, Bool.false_eq_true, if_false]
      rfl
    apply List.map_congr_left
    intro k hk
    have hk := List.mem_range.1 hk
    simp [List.getD, hk, e]
  · rw [bufBytes_near hj, bufBytes_near hj, setBuf_bufAt]
    have e : ((s.setBuf x id o bs).cx x) = s.cx x := by
      unfold State.setBuf State.cx
      simp only [hi, if_true]
      split <;> simp only [setFar_cxs]
    rw [e]
    apply List.map_congr_left
    intro k hk
    have hk := List.mem_range.1 hk
    simp [List.getD, hk]
  · rw [bufBytes_far hj, bufBytes_far hj, setBuf_bufAt]
    apply List.map_congr_left
    intro k hk
    have hk := List.mem_range.1 hk
    have e : ∀ l, (s.setBuf x id o bs).farByte l = (s.setFar (s.bufAt x id o) bs).farByte l := by
      intro l
      have ha : (s.pool x true).farPlace (idIndex id) + o = s.bufAt x id o := by
        unfold State.bufAt Pool.farPlace; simp [hi, placeOf_zero]
      unfold State.setBuf
      simp only [hi, if_true, ha]
      split <;> rfl
    rw [e, farByte_setFar]
    simp only [true_and, forall_const, and_comm]
    simp [List.getD, hk]

/-! ### Dense chains (R130) -/

@[simp] theorem length_bufBytes (s : State) (x id o n : Nat) : (s.bufBytes x id o n).length = n := by
  cases h : idFar id
  · simp [bufBytes_near h]
  · simp [bufBytes_far h]

/-- Two segments that lie in different buffers. -/
def Seg.apart (a b : Seg) : Prop := ¬ (idFar a.id = idFar b.id ∧ idIndex a.id = idIndex b.id)

/-- A segment within its buffer. -/
def State.inside (s : State) (x : Nat) (g : Seg) : Prop := g.start + g.count ≤ (s.pool x (idFar g.id)).size

/-- A write inside one buffer leaves the segments of the others. -/
theorem bufBytes_setBuf_apart {s : State} {x : Nat} {a b : Seg} (h : a.apart b) (ha : s.inside x a) (hb : s.inside x b)
    (bs : List Byte) (hl : bs.length ≤ a.count) :
    (s.setBuf x a.id a.start bs).bufBytes x b.id b.start b.count = s.bufBytes x b.id b.start b.count := by
  rw [bufBytes_setBuf]
  apply List.ext_getElem
  · simp
  intro k h1 h2
  have hk : k < b.count := by simpa using h1
  simp only [List.getElem_map, List.getElem_range]
  rw [if_neg]
  · simp [List.getD, hk]
  rintro ⟨⟨hf, hlo, hhi⟩, -⟩
  apply h
  refine ⟨hf.symm, ?_⟩
  unfold State.inside at ha hb
  unfold State.bufAt at hlo hhi
  rw [hf] at hlo hhi hb
  generalize (s.pool x (idFar a.id)).size = S at *
  generalize (if idFar a.id = true then (s.pool x true).base.toNat * 65536 else 0) = B at *
  rcases Nat.lt_trichotomy (idIndex a.id) (idIndex b.id) with hlt | heq | hgt
  · have := Nat.mul_le_mul_right S (Nat.succ_le_of_lt hlt)
    rw [Nat.succ_mul] at this; omega
  · exact heq
  · have := Nat.mul_le_mul_right S (Nat.succ_le_of_lt hgt)
    rw [Nat.succ_mul] at this; omega

/-- A segment no byte of which lies in the Dusk region (R320). -/
def State.offDusk (s : State) (x : Nat) (g : Seg) : Prop :=
  idFar g.id = true → ∀ k, k < g.count → inDusk (s.bufAt x g.id g.start + k) = false

theorem bufBytes_setBuf_self {s : State} {x : Nat} {a : Seg} (ha : s.offDusk x a) (bs : List Byte)
    (hl : bs.length = a.count) :
    (s.setBuf x a.id a.start bs).bufBytes x a.id a.start a.count = bs := by
  rw [bufBytes_setBuf]
  apply List.ext_getElem
  · simp [hl]
  intro k h1 h2
  simp only [List.getElem_map, List.getElem_range]
  rw [if_pos ⟨by simp; omega, fun f => ha f k (by omega)⟩, Nat.add_sub_cancel_left]
  simp [List.getD, h2]

theorem offDusk_setFresh (s : State) (x id o : Nat) (bs : List Byte) (g : Seg) :
    (s.setFresh x id o bs).offDusk x g ↔ s.offDusk x g := by
  unfold State.offDusk State.bufAt
  rw [setFresh_pool, setFresh_pool]

theorem fill_pool (s : State) (x : Nat) (l : List Seg) (bs : List Byte) (y : Nat) (far : Bool) :
    (s.fill x l bs).pool y far = s.pool y far := by
  induction l generalizing s bs with
  | nil => rfl
  | cons g l ih => rw [State.fill, ih, setFresh_pool]

theorem bufBytes_fill_apart {s : State} {x : Nat} {b : Seg} (l : List Seg) (h : ∀ a ∈ l, a.apart b)
    (hl : ∀ a ∈ l, s.inside x a) (hb : s.inside x b) (bs : List Byte) :
    (s.fill x l bs).bufBytes x b.id b.start b.count = s.bufBytes x b.id b.start b.count := by
  induction l generalizing s bs with
  | nil => rfl
  | cons a l ih =>
      rw [State.fill, ih]
      · rw [bufBytes_setFresh]; exact bufBytes_setBuf_apart (h a (by simp)) (hl a (by simp)) hb _ (by simp)
      · exact fun c hc => h c (by simp [hc])
      · intro c hc; unfold State.inside; rw [setFresh_pool]; exact hl c (by simp [hc])
      · unfold State.inside; rw [setFresh_pool]; exact hb

/-- A chain of different buffers outside the Dusk region, filled with bytes, reads back as those bytes. -/
theorem segBytes_fill {s : State} {x : Nat} (l : List Seg) (hp : l.Pairwise Seg.apart)
    (hl : ∀ a ∈ l, s.inside x a) (hd : ∀ a ∈ l, s.offDusk x a) (bs : List Byte) (hb : segsLen l = bs.length) :
    (s.fill x l bs).segBytes x l = bs := by
  induction l generalizing s bs with
  | nil =>
      have : bs = [] := by simpa [segsLen] using hb.symm
      rw [this]; rfl
  | cons a l ih =>
      have hb' : a.count + segsLen l = bs.length := by simpa [segsLen] using hb
      rw [List.pairwise_cons] at hp
      have h1 : (s.fill x (a :: l) bs).bufBytes x a.id a.start a.count = bs.take a.count := by
        rw [State.fill, bufBytes_fill_apart l (fun c hc e => hp.1 c hc ⟨e.1.symm, e.2.symm⟩)]
        · rw [bufBytes_setFresh]; exact bufBytes_setBuf_self (hd a (by simp)) _ (by simp; omega)
        · intro c hc; unfold State.inside; rw [setFresh_pool]; exact hl c (by simp [hc])
        · unfold State.inside; rw [setFresh_pool]; exact hl a (by simp)
      have h2 : (s.fill x (a :: l) bs).segBytes x l = bs.drop a.count := by
        rw [State.fill]
        apply ih hp.2
        · intro c hc; unfold State.inside; rw [setFresh_pool]; exact hl c (by simp [hc])
        · exact fun c hc => (offDusk_setFresh ..).2 (hd c (by simp [hc]))
        · simp; omega
      have : (s.fill x (a :: l) bs).segBytes x (a :: l)
          = (s.fill x (a :: l) bs).bufBytes x a.id a.start a.count ++ (s.fill x (a :: l) bs).segBytes x l := rfl
      rw [this, h1, h2, List.take_append_drop]

/-- A dense chain holds as many bytes as were asked for, if its buffers do (R130). -/
theorem segsLen_dense (b n : Nat) : (ids : List Nat) → n ≤ ids.length * b → segsLen (denseSegs b n ids) = n
  | [], h => (Nat.le_zero.1 (Nat.zero_mul b ▸ h)).symm
  | i :: t, h => by
      have rest := segsLen_dense b (n - b) t (Nat.sub_le_iff_le_add.2 (Nat.succ_mul t.length b ▸ h))
      show Nat.min b n + segsLen (denseSegs b (n - b) t) = n
      rw [rest, Nat.add_comm]
      exact (congrArg (n - b + ·) (Nat.min_comm b n)).trans (Nat.sub_add_min_cancel n b)

/-- Each of its segments starts a buffer that it was given and ends within it. -/
theorem mem_dense {b n : Nat} {ids : List Nat} {g : Seg} (h : g ∈ denseSegs b n ids) :
    g.id ∈ ids ∧ g.start = 0 ∧ g.count ≤ b := by
  induction ids generalizing n with
  | nil => cases h
  | cons i t later =>
      refine (List.mem_cons.1 h).elim (fun e => ?_) fun h => (later h).imp_left (.tail i)
      subst e
      exact ⟨.head t, rfl, Nat.min_le_left b n⟩

theorem apart_dense {b n : Nat} {ids : List Nat}
    (h : ids.Pairwise fun i j => ¬ (idFar i = idFar j ∧ idIndex i = idIndex j)) :
    (denseSegs b n ids).Pairwise Seg.apart := by
  induction ids generalizing n with
  | nil => exact .nil
  | cons i t ih =>
      rw [List.pairwise_cons] at h
      rw [denseSegs, List.pairwise_cons]
      exact ⟨fun g hg => h.1 _ (mem_dense hg).1, ih h.2⟩

theorem idIndex_mkId (far : Bool) {i : Nat} (h : i < 2 ^ 23) : idFar (mkId far i) = far ∧ idIndex (mkId far i) = i := by
  unfold idFar idIndex mkId bitOf bitsOf
  cases far
  · simp only [Bool.false_eq_true, if_false]
    norm_num at h ⊢
    omega
  · simp only [if_true]
    norm_num at h ⊢
    omega

end Sys2Proof.Machine
end

