-- ==== Sys2Proof/Laws/Convoy.lean ====
section
/-! SUPPORT. Convoys of one member: how its loop runs from the first element to the last. -/

namespace Sys2Proof.Machine

/-- An open convoy whose only member is `m`, with no fault found, no marked line stored to and no wait. -/
structure Run.One (r : Run) (m : Member) : Prop where
  ms   : r.ms = [m]
  len  : r.progs.length = 1
  best : r.best = none
  late : r.late = []
  clean : r.patches = []
  cell : r.cell = false

theorem Run.One.get {r : Run} {m : Member} (h : r.One m) : r.ms[0]? = some m := by rw [h.ms]; rfl

/-- Without a fault nothing is reported, and every element stands. -/
theorem judged_one {r : Run} {m : Member} (h : r.One m) : r.judged = none := by
  simp [Run.judged, Run.lateHit, h.late, h.best]

theorem within_one {r : Run} {m : Member} (h : r.One m) (e pos : Nat) : r.within e pos = true := by
  simp [Run.within, Run.lateHit, h.late, h.best]

theorem patched_one {r : Run} {m : Member} (h : r.One m) : r.patched = r := by simp [Run.patched, h.clean]

theorem cands_one {r : Run} {m : Member} (h : r.One m) (hl : m.last = false) (hf : (r.prog 0).fin = false) :
    r.cands = [((r.prog 0).done, 0)] := by
  unfold Run.cands
  rw [h.ms]
  simp [hl, hf, h.best, insKey]

theorem cands_fin {r : Run} {m : Member} (h : r.One m) (hf : (r.prog 0).fin = true) : r.cands = [] := by
  unfold Run.cands
  rw [h.ms]
  simp [hf]

theorem loop_fin {r : Run} {m : Member} (h : r.One m) (hf : (r.prog 0).fin = true) (fuel : Nat) :
    Run.loop fuel r = r := by
  cases fuel with
  | zero => rfl
  | succ n => simp [Run.loop, h.cell, cands_fin h hf, Run.pick, Run.inOrder]

theorem cands_last {r : Run} {m : Member} (h : r.ms = [m]) (hl : m.last = true) : r.cands = [] := by
  unfold Run.cands
  rw [h]
  simp [hl]

/-- A member that acts last takes no step of the loop. -/
theorem loop_last {r : Run} {m : Member} (h : r.ms = [m]) (hl : m.last = true) (fuel : Nat) : Run.loop fuel r = r := by
  cases fuel with
  | zero => rfl
  | succ n =>
      rw [Run.loop, cands_last h hl]
      split <;> simp [Run.pick, Run.inOrder]

theorem loop_step {r r' : Run} {m : Member} (h : r.One m) (hl : m.last = false) (hf : (r.prog 0).fin = false)
    (hs : r.step 0 = some r') (fuel : Nat) : Run.loop (fuel + 1) r = Run.loop fuel r' := by
  simp [Run.loop, h.cell, cands_one h hl hf, Run.pick, Run.inOrder, hs]

/-- The state of a member between its first element `k` and its last `n`, with `e` elements handled. -/
structure Run.At (r : Run) (m : Member) (e n : Nat) : Prop extends r.One m where
  begun : (r.prog 0).begun = true
  going : (r.prog 0).fin = false
  done  : (r.prog 0).done = e
  limit : r.limit 0 m = n

/-- The loop of a lone member: it begins, takes its elements one by one and finishes. -/
theorem loop_one {m : Member} (hl : m.last = false) {r0 rf : Run} {k n : Nat} (F : Nat → Run)
    (h0 : r0.One m) (hb : (r0.prog 0).begun = false) (hg : (r0.prog 0).fin = false)
    (hbeg : r0.begins 0 m = some (F k)) (hk : k ≤ n)
    (hF : ∀ e, k ≤ e → e ≤ n → (F e).At m e n)
    (hs : ∀ e, k ≤ e → e < n → (F e).element 0 e m = some (F (e + 1)))
    (hfin : (F n).finishes 0 m = some rf) (hrf : rf.One m) (hff : (rf.prog 0).fin = true)
    (fuel : Nat) (hfuel : n - k + 2 ≤ fuel) : Run.loop fuel r0 = rf := by
  obtain ⟨f, rfl⟩ : ∃ f, fuel = f + 1 := ⟨fuel - 1, by omega⟩
  rw [loop_step (r' := F k) h0 hl hg (by simp [Run.step, h0.get, hb, hbeg])]
  have key : ∀ j f, j ≤ n - k → j + 1 ≤ f → Run.loop f (F (n - j)) = rf := by
    intro j
    induction j with
    | zero =>
        intro f _ hf
        obtain ⟨f, rfl⟩ : ∃ g, f = g + 1 := ⟨f - 1, by omega⟩
        have a := hF n hk (Nat.le_refl _)
        rw [Nat.sub_zero, loop_step (r' := rf) a.toOne hl a.going (by simp [Run.step, a.get, a.begun, a.done, a.limit, hfin])]
        exact loop_fin hrf hff f
    | succ j ih =>
        intro f hj hf
        obtain ⟨f, rfl⟩ : ∃ g, f = g + 1 := ⟨f - 1, by omega⟩
        have a := hF (n - (j + 1)) (by omega) (by omega)
        have e := hs (n - (j + 1)) (by omega) (by omega)
        have hlt : n - (j + 1) < n := by omega
        rw [loop_step (r' := F (n - (j + 1) + 1)) a.toOne hl a.going (by simp [Run.step, a.get, a.begun, a.done, a.limit, hlt, e])]
        have : n - (j + 1) + 1 = n - j := by omega
        rw [this]
        exact ih f (by omega) (by omega)
  have := key (n - k) f (Nat.le_refl _) (by omega)
  rwa [show n - (n - k) = k by omega] at this

/-! ### From the instruction to its loop -/

theorem gatherWords_scalar {s : State} (h : s.scalarNext) (n : Nat) :
    s.gatherWords s.me.gm n (s.me.pc + 4) = [] := by
  cases n with
  | zero => rfl
  | succ n =>
      obtain ⟨w, i, hf, hd, hm⟩ := h
      rw [State.gatherWords, hf]
      simp only [hd, hm]

/-- What a lone member's decode checks leave. -/
theorem scan_alone {i : Instr} {s : State} {m : Member} (h : Opens i s m) (hl : m.loads ≤ 2) (hs : m.stores ≤ 1)
    (va : Word) :
    Scan.run s.me {} [(va, .ok m)] =
      .ok { ms := [m], reads := m.reads, writes := m.writes, mreads := m.mreads, mwrites := m.mwrite.toList
            loads := m.loads, stores := m.stores, streams := [] } := by
  have hw : m.writes.any s.me.streamed = false := by
    rw [List.any_eq_false]; intro c hc; simp [h.plain c (by simp [hc])]
  have hfr : Scan.fresh {} s.me m = [] := by
    unfold Scan.fresh
    rw [List.filter_eq_nil_iff.2]
    · rfl
    · intro c hc; simp [h.plain c (by simp [hc])]
  have hb : Scan.breaks {} s.me m = false := by
    unfold Scan.breaks
    rw [hfr]
    cases hm : m.mwrite with
    | none => simp [h.once, h.clash]; omega
    | some d =>
        have : (!s.me.gm.gk && s.me.gm.guard == d) = false := by
          rcases h.guard with hk | hg
          · simp [hk]
          · rw [hm] at hg
            have : (s.me.gm.guard == d) = false := by
              simp only [beq_eq_false_iff_ne]; intro e; exact hg (by rw [e])
            simp [this]
        dsimp only
        rw [this]
        simp [h.once, h.clash]; omega
  have hd : Scan.defect {} s.me m = none := by
    unfold Scan.defect; simp [h.fits, hw, hb]
  unfold Scan.run
  rw [hd]
  simp [Scan.add, hfr, Scan.run]

/-- A lone member's convoy is its loop, and what settles it. -/
theorem openConvoy_alone {i : Instr} {s : State} {m : Member} (h : Opens i s m) (hl : m.loads ≤ 2) (hs : m.stores ≤ 1) :
    s.openConvoy i =
      (Run.loop (openRun s [m] [s.me.pc]).fuel (openRun s [m] [s.me.pc])).settles s s [] false none s.me.pc := by
  have hg : (if m.closes then [] else s.gatherWords s.me.gm 8 (s.me.pc + 4)) = [] := by
    rcases h.next with hc | hn
    · rw [if_pos hc]
    · rw [gatherWords_scalar hn]; split <;> rfl
  have hw : m.writes.find? s.copyInto = none := by
    rw [List.find?_eq_none]; intro c hc; simp [h.still c hc]
  have hb : ∀ sc : Scan, sc.ms = [m] → sc.widens s.me = false := by
    intro sc e
    unfold Scan.widens
    rw [e]
    simp only [List.any_cons, List.any_nil, Bool.or_false, List.any_eq_false]
    intro c hc
    have p := h.plain c.reg (List.mem_append_left _ (List.mem_map.2 ⟨c, hc, rfl⟩))
    unfold Strand.streamed at p
    cases hs : (s.me.chain c.reg).stream <;> simp [hs] at p ⊢
  unfold State.openConvoy State.convoy
  rw [h.member]
  simp only [hg, State.runConvoy]
  rw [scan_alone h hl hs]
  simp only [hw, State.pops, List.map_nil, List.map_cons, List.foldl_nil]
  rw [hb _ rfl, if_neg Bool.false_ne_true]

/-! ### Allocation of the results (R299) -/

theorem insNeed_last (x : Need) (l : List Need) (h : ∀ y ∈ l, x.before y = false) : insNeed x l = l ++ [x] := by
  induction l with
  | nil => rfl
  | cons y l ih =>
      simp only [insNeed]
      rw [if_neg (by simp [h y (by simp)]), ih fun z hz => h z (by simp [hz])]
      rfl

theorem foldl_insNeed (l acc : List Need) (h : ∀ y ∈ acc, ∀ x ∈ l, x.before y = false)
    (hl : l.Pairwise fun a b => b.before a = false) : l.foldl (fun l x => insNeed x l) acc = acc ++ l := by
  induction l generalizing acc with
  | nil => simp
  | cons x l ih =>
      rw [List.pairwise_cons] at hl
      rw [List.foldl_cons, insNeed_last x acc fun y hy => h y hy x (by simp), ih _ _ hl.2]
      · simp
      · intro y hy z hz
        rcases List.mem_append.1 hy with hy | hy
        · exact h y hy z (by simp [hz])
        · rw [List.mem_singleton] at hy; subst hy; exact hl.1 z hz

/-- Needs of the only result of a lone member: one per buffer, in order. -/
theorem needs_one {r : Run} {m : Member} (h : r.One m) (hl : m.last = false) {d : CReg} {w : Nat}
    (hd : m.dests = [(d, w)]) (size : Nat) :
    r.needs size = (List.range (Nat.min (buffersOf size w ((r.prog 0).outs.getD 0 #[]).size) 33)).map fun i =>
      ({ e := i * size * 8 / w, pos := 0, k := 0, i := i } : Need) := by
  unfold Run.needs
  rw [h.ms]
  simp only [List.length_cons, List.length_nil, Nat.zero_add, List.range_one, List.foldl_cons, List.foldl_nil,
    List.getElem?_cons_zero, hl, hd, Bool.false_eq_true, if_false, within_one h, List.getD_cons_zero, List.filter_true]
  unfold mergeNeeds
  rw [foldl_insNeed _ _ (by simp)]
  · simp
  · rw [List.pairwise_map]
    refine List.Pairwise.imp ?_ List.pairwise_lt_range
    intro a b hab
    have : a * size * 8 / w ≤ b * size * 8 / w :=
      Nat.div_le_div_right (Nat.mul_le_mul_right 8 (Nat.mul_le_mul_right size hab.le))
    simp [Need.before]; omega

theorem needs_none {r : Run} {m : Member} (h : r.One m) (hd : m.dests = []) (size : Nat) : r.needs size = [] := by
  unfold Run.needs
  rw [h.ms]
  simp [hd]

theorem grants_eq (x : Nat) (far fails : Bool) (addrs : List Word) (room : Nat) (l : List Need) (s s' : State)
    (acc : List Grant) (ids : List Nat) (hi : ∀ n ∈ l, n.i < 32 ∧ n.pos = 0 ∧ n.k = 0) (hr : l.length ≤ room)
    (h : s.allocs x far l.length = .ok (ids, s')) :
    s.grants x far fails addrs room l acc
      = .ok s' (acc ++ ids.map fun i => ({ pos := 0, k := 0, id := i } : Grant)) none := by
  induction l generalizing s acc ids room with
  | nil =>
      simp only [List.length_nil, State.allocs, Except.ok.injEq, Prod.mk.injEq] at h
      obtain ⟨rfl, rfl⟩ := h
      simp [State.grants]
  | cons n l ih =>
      have hn := hi n (by simp)
      rw [List.length_cons, State.allocs] at h
      obtain ⟨room, rfl⟩ : ∃ k, room = k + 1 := ⟨room - 1, by rw [List.length_cons] at hr; omega⟩
      unfold State.grants
      dsimp only
      rw [if_neg (by omega)]
      cases ha : s.alloc x far with
      | error e => rw [ha] at h; simp at h
      | ok v =>
          obtain ⟨i, u⟩ := v
          rw [ha] at h
          rw [enable_of_alloc ha, Bool.not_true, if_neg Bool.false_ne_true]
          dsimp only at h ⊢
          cases hb : u.allocs x far l.length with
          | error e => rw [hb] at h; simp at h
          | ok v =>
              obtain ⟨is, u'⟩ := v
              rw [hb] at h
              simp only [Except.ok.injEq, Prod.mk.injEq] at h
              obtain ⟨rfl, rfl⟩ := h
              rw [ih room u _ _ (fun z hz => hi z (by simp [hz])) (by rw [List.length_cons] at hr; omega) hb, hn.2.1, hn.2.2]
              simp

/-- Buffers for the only result of a lone member, from a pool that has them. -/
theorem allocate_one {r : Run} {m : Member} (h : r.One m) (hl : m.last = false) {d : CReg} {w k : Nat}
    (hd : m.dests = [(d, w)]) {s : State} {s' : State} {ids : List Nat}
    (hk : buffersOf (s.pool s.myCx r.st.farPool).size w ((r.prog 0).outs.getD 0 #[]).size = k) (h32 : k ≤ 32)
    (hb : s.behind s.myCx r.st.farPool = false) (ha : s.allocs s.myCx r.st.farPool k = .ok (ids, s')) :
    r.allocate s false = .ok s' (ids.map fun i => ({ pos := 0, k := 0, id := i } : Grant)) none := by
  unfold Run.allocate
  dsimp only
  rw [room_alone hb, needs_one h hl hd, hk, show Nat.min k 33 = k from Nat.min_eq_left (by omega)]
  rw [grants_eq _ _ _ _ _ _ s s' [] ids]
  · simp
  · intro n hn
    obtain ⟨i, hi, rfl⟩ := List.mem_map.1 hn
    have := List.mem_range.1 hi
    exact ⟨by show i < 32; omega, rfl, rfl⟩
  · simpa using free_of_allocs ha
  · simpa using ha

theorem allocate_none {r : Run} {m : Member} (h : r.One m) (hd : m.dests = []) (s : State) (fails : Bool) :
    r.allocate s fails = .ok s [] none := by
  unfold Run.allocate
  simp [needs_none h hd, State.grants]

/-- A computed convoy of a lone member that closes as the common members do. -/
theorem settles_one {r : Run} {m : Member} (h : r.One m) (hl : m.last = false) {s0 s s1 : State} {l : List Grant}
    {streams : List CReg} {fails : Bool} {pre : Option Nat} {start : Word}
    (ha : r.allocate s fails = .ok s1 l none) :
    r.settles s0 s streams fails pre start = .next (r.close s1 l streams (r.addr 0 + 4)) := by
  unfold Run.settles
  dsimp only
  rw [patched_one h, h.cell, if_neg (by simp), ha]
  simp only [judged_one h]
  unfold Run.ends
  simp only [h.ms, List.length_cons, List.length_nil, Nat.zero_add, Nat.sub_self, List.getElem?_cons_zero]
  cases hb : m.body <;> simp [Member.last, hb] at hl ⊢

/-! ### The close of a lone member's convoy -/

/-- Without a result in a chain register, only the effects of the elements and the strand are left. -/
theorem close_none {r : Run} {m : Member} (h : r.One m) (hd : m.dests = []) (s : State) (l : List Grant) (next : Word) :
    r.close s l [] next =
      (let s1 := r.replay s none
       let s2 := s1.setMe (r.placeRest 0 m none s1.me)
       s2.setMe ((r.closeStrand s2.me).go next)) := by
  unfold Run.close Run.places
  simp [h.ms, Run.placeMember, hd, List.range_one]

theorem placeMember_none (r : Run) (pos : Nat) {m : Member} (hl : m.last = false) (l : List Grant) (s : State) :
    r.placeMember pos m l none false s =
      (List.range m.dests.length).foldl (fun s k => r.placeDest pos k m (m.dests.getD k (0, 8)) l none s) s := by
  unfold Run.placeMember
  rw [hl]
  cases m.body <;> simp

/-- With one result: its buffers are filled and its register written before that. -/
theorem close_dest {r : Run} {m : Member} (h : r.One m) (hl : m.last = false) {d : CReg} {w : Nat}
    (hd : m.dests = [(d, w)]) (s : State) (ids : List Nat) (next : Word)
    (hi : ids.length = ((pack w ((r.prog 0).outs.getD 0 #[]).toList).length
      + ((r.replay s none).pool (r.replay s none).myCx r.st.farPool).size - 1)
        / ((r.replay s none).pool (r.replay s none).myCx r.st.farPool).size) :
    r.close s (ids.map fun i => ({ pos := 0, k := 0, id := i } : Grant)) [] next =
      (let s1 := r.replay s none
       let bs := pack w ((r.prog 0).outs.getD 0 #[]).toList
       let g := denseSegs (s1.pool s1.myCx r.st.farPool).size bs.length ids
       let s2 := (s1.fill s1.myCx g bs).writeChain d g
       let s3 := s2.setMe (r.placeRest 0 m none s2.me)
       s3.setMe ((r.closeStrand s3.me).go next)) := by
  unfold Run.close Run.places
  have hids : ((ids.map fun i => ({ pos := 0, k := 0, id := i } : Grant)).filter
      fun g => g.pos == 0 && g.k == 0).map (·.id) = ids := by
    rw [List.filter_map, List.map_map]
    simp [Function.comp_def]
  simp only [h.ms, List.length_cons, List.length_nil, Nat.zero_add, List.range_one, List.foldl_cons, List.foldl_nil,
    List.getElem?_cons_zero, placeMember_none r 0 hl, hd, List.getD_cons_zero, Run.placeDest, hids, ← hi, List.take_length, List.drop_length, List.map_nil, addRefs_nil,
    dropRefs_nil, List.append_nil]

end Sys2Proof.Machine
end

