-- ==== Sys2Proof/Laws/Numbers.lean ====
section
/-! SUPPORT. Rounding over the real numbers: what `floorLog`, `roundAt` and `roundRat` compute (R101-R104). -/

namespace Sys2Proof.Machine

/-! ### Binades -/

theorem log2_bounds {n : Nat} (h : 0 < n) : (2 : ℝ) ^ (n.log2 : ℤ) ≤ n ∧ (n : ℝ) < (2 : ℝ) ^ ((n.log2 : ℤ) + 1) := by
  have h1 := Nat.log2_self_le h.ne'
  have h2 := Nat.lt_log2_self (n := n)
  constructor
  · rw [zpow_natCast]; exact_mod_cast h1
  · rw [← Nat.cast_succ, zpow_natCast]; exact_mod_cast h2

/-- `floorLog` names the binade of a quotient. -/
theorem floorLog_spec {num den : Nat} (hn : 0 < num) (hd : 0 < den) :
    (2 : ℝ) ^ floorLog num den ≤ num / den ∧ (num / den : ℝ) < (2 : ℝ) ^ (floorLog num den + 1) := by
  obtain ⟨a1, a2⟩ := log2_bounds hn
  obtain ⟨b1, b2⟩ := log2_bounds hd
  have hd' : (0 : ℝ) < den := by exact_mod_cast hd
  set k : ℤ := (num.log2 : ℤ) - den.log2 with hk
  have top : (num / den : ℝ) < (2 : ℝ) ^ (k + 1) := by
    rw [div_lt_iff₀ hd']
    calc (num : ℝ) < (2 : ℝ) ^ ((num.log2 : ℤ) + 1) := a2
      _ = (2 : ℝ) ^ (k + 1) * (2 : ℝ) ^ (den.log2 : ℤ) := by rw [← zpow_add₀ two_ne_zero]; congr 1; omega
      _ ≤ _ := by gcongr
  have low : (2 : ℝ) ^ (k - 1) ≤ num / den := by
    rw [le_div_iff₀ hd']
    calc (2 : ℝ) ^ (k - 1) * den ≤ (2 : ℝ) ^ (k - 1) * (2 : ℝ) ^ ((den.log2 : ℤ) + 1) := by gcongr
      _ = (2 : ℝ) ^ (num.log2 : ℤ) := by rw [← zpow_add₀ two_ne_zero]; congr 1; omega
      _ ≤ _ := a1
  have ge : (if 0 ≤ k then den * 2 ^ k.toNat ≤ num else den ≤ num * 2 ^ (-k).toNat) ↔ (2 : ℝ) ^ k ≤ num / den := by
    rw [le_div_iff₀ hd']
    split
    · next h =>
      have e : (2 : ℝ) ^ k = ((2 ^ k.toNat : Nat) : ℝ) := by
        conv_lhs => rw [← Int.toNat_of_nonneg h]
        rw [zpow_natCast]; norm_cast
      rw [e, mul_comm]; norm_cast
    · next h =>
      have e : (2 : ℝ) ^ k * ((2 ^ (-k).toNat : Nat) : ℝ) = 1 := by
        have : ((2 ^ (-k).toNat : Nat) : ℝ) = (2 : ℝ) ^ (-k) := by
          conv_rhs => rw [← Int.toNat_of_nonneg (a := -k) (by omega)]
          rw [zpow_natCast]; norm_cast
        rw [this, ← zpow_add₀ two_ne_zero]; simp
      have p : (0 : ℝ) < ((2 ^ (-k).toNat : Nat) : ℝ) := by positivity
      rw [← mul_le_mul_iff_left₀ p, mul_right_comm, e, one_mul]; norm_cast
  unfold floorLog
  simp only [← hk]
  by_cases g : (if 0 ≤ k then den * 2 ^ k.toNat ≤ num else den ≤ num * 2 ^ (-k).toNat)
  · simp only [g, if_true]; exact ⟨ge.mp g, top⟩
  · simp only [g, if_false]
    refine ⟨low, ?_⟩
    rw [sub_add_cancel]
    exact lt_of_not_ge fun h => g (ge.mpr h)

/-! ### Rounding to a quantum -/

/-- A power of two with a natural exponent, as a real number. -/
theorem zpow_toNat {k : ℤ} (h : 0 ≤ k) : ((2 ^ k.toNat : Nat) : ℝ) = (2 : ℝ) ^ k := by
  conv_rhs => rw [← Int.toNat_of_nonneg h]
  rw [zpow_natCast]; norm_cast

/-- The quotient that `roundAt` divides, in quanta. -/
theorem quanta_eq (num : Nat) {den : Nat} (hd : 0 < den) (e q : ℤ) :
    ((if q ≤ e then num * 2 ^ (e - q).toNat else num : Nat) / (if q ≤ e then den else den * 2 ^ (q - e).toNat : Nat) : ℝ)
      * (2 : ℝ) ^ q = num / den * (2 : ℝ) ^ e := by
  have hd' : (den : ℝ) ≠ 0 := by exact_mod_cast hd.ne'
  split
  · rw [Nat.cast_mul, zpow_toNat (by omega), mul_div_right_comm, mul_assoc, ← zpow_add₀ two_ne_zero]; congr 2; omega
  · rw [Nat.cast_mul, zpow_toNat (by omega), ← div_div, div_mul_eq_mul_div, div_eq_iff (by positivity), mul_assoc,
      ← zpow_add₀ two_ne_zero]
    congr 2; omega

/-- `roundAt` chooses as R101 says, and its flag says whether that is inexact. -/
theorem roundAt_spec (mode : Rnd) {neg : Bool} {num den : Nat} {e q : ℤ} {x : ℝ} (hd : 0 < den)
    (hx : |x| = num / den * (2 : ℝ) ^ e) (h0 : x ≠ 0) (hneg : neg = true ↔ x < 0) :
    RoundedAt mode x q (roundAt mode neg num den e q).1
    ∧ ((roundAt mode neg num den e q).2 = false ↔ ((roundAt mode neg num den e q).1 : ℝ) * (2 : ℝ) ^ q = |x|) := by
  rw [← quanta_eq num hd e q] at hx
  unfold roundAt
  have hd2 : 0 < (if q ≤ e then den else den * 2 ^ (q - e).toNat : Nat) := by split <;> positivity
  generalize (if q ≤ e then num * 2 ^ (e - q).toNat else num : Nat) = n at hx ⊢
  generalize (if q ≤ e then den else den * 2 ^ (q - e).toNat : Nat) = d at hx hd2 ⊢
  have Q : (0 : ℝ) < (2 : ℝ) ^ q := by positivity
  have D : (0 : ℝ) < d := by exact_mod_cast hd2
  have split_ : (n : ℝ) = d * (n / d : Nat) + (n % d : Nat) := by exact_mod_cast (Nat.div_add_mod n d).symm
  have lt : ((n % d : Nat) : ℝ) < d := by exact_mod_cast Nat.mod_lt n hd2
  have pos : x < 0 ∨ 0 < x := lt_or_gt_of_ne h0
  simp only
  generalize n / d = m at split_ ⊢
  generalize n % d = r at split_ lt ⊢
  have R : (0 : ℝ) ≤ r := by positivity
  have val : |x| = m * (2 : ℝ) ^ q + r / d * (2 : ℝ) ^ q := by
    rw [hx, split_, add_div, mul_div_cancel_left₀ _ D.ne', add_mul]
  have frac : (r / d : ℝ) < 1 := (div_lt_one D).mpr lt
  have rest : |x| - m * (2 : ℝ) ^ q = r / d * (2 : ℝ) ^ q := by rw [val]; ring
  have zero : (r / d * (2 : ℝ) ^ q = 0) ↔ r = 0 := by
    rw [mul_eq_zero, div_eq_zero_iff]
    simp [Q.ne', D.ne']
  have up : roundsUp mode neg m r d = true ↔ (match mode with
      | .rne => (2 : ℝ) ^ q < 2 * (|x| - m * (2 : ℝ) ^ q) ∨ (2 * (|x| - m * (2 : ℝ) ^ q) = (2 : ℝ) ^ q ∧ m % 2 = 1)
      | .rna => (2 : ℝ) ^ q ≤ 2 * (|x| - m * (2 : ℝ) ^ q)
      | .rtz => False
      | .rup => 0 < x ∧ |x| - m * (2 : ℝ) ^ q ≠ 0
      | .rdn => x < 0 ∧ |x| - m * (2 : ℝ) ^ q ≠ 0) := by
    rw [rest]
    have half : 2 * (r / d * (2 : ℝ) ^ q) = (2 * r) / d * (2 : ℝ) ^ q := by ring
    have one : (2 : ℝ) ^ q = 1 * (2 : ℝ) ^ q := (one_mul _).symm
    have lt' : ((2 : ℝ) ^ q < 2 * (r / d * (2 : ℝ) ^ q)) ↔ d < 2 * r := by
      rw [half]; nth_rw 1 [one]
      rw [mul_lt_mul_iff_left₀ Q, one_lt_div D]; norm_cast
    have le' : ((2 : ℝ) ^ q ≤ 2 * (r / d * (2 : ℝ) ^ q)) ↔ d ≤ 2 * r := by
      rw [half]; nth_rw 1 [one]
      rw [mul_le_mul_iff_left₀ Q, one_le_div D]; norm_cast
    have eq' : (2 * (r / d * (2 : ℝ) ^ q) = (2 : ℝ) ^ q) ↔ 2 * r = d := by
      rw [half]; nth_rw 2 [one]
      rw [mul_left_inj' Q.ne', div_eq_one_iff_eq D.ne']; norm_cast
    cases mode <;> simp only [roundsUp]
    · rw [lt', eq']; simp
    · simp
    · have : (!neg) = true ↔ 0 < x := by
        rw [Bool.not_eq_true', ← Bool.not_eq_true, hneg]
        exact ⟨pos.resolve_left, not_lt_of_gt⟩
      rw [Bool.and_eq_true, this, Ne, zero, bne_iff_ne]
    · rw [Bool.and_eq_true, hneg, Ne, zero, bne_iff_ne]
    · rw [le']; simp
  refine ⟨⟨m, ?_, ?_, ?_⟩, ?_⟩
  · rw [val]; nlinarith [mul_nonneg (div_nonneg R D.le) Q.le]
  · rw [val]; nlinarith
  · refine ⟨fun h => ?_, fun h => ?_⟩
    · rw [if_pos (up.mpr h)]
    · rw [if_neg fun g => h (up.mp g)]
  · by_cases hr : r = 0
    · have no : roundsUp mode neg m r d = false := by
        subst hr; cases mode <;> simp [roundsUp] <;> omega
      subst hr
      simp only [no]
      simp [val]
    · have r1 : (0 : ℝ) < r / d * (2 : ℝ) ^ q := by
        have : (0 : ℝ) < r := by exact_mod_cast Nat.pos_of_ne_zero hr
        positivity
      have flag : (r != 0) = true := bne_iff_ne.mpr hr
      simp only [flag, Bool.true_eq_false, false_iff]
      split
      · rw [val]; push_cast; nlinarith
      · rw [val]; linarith

/-! ### Magnitude codes -/

/-- The magnitude of code `c` in a layout (R97, R99). -/
noncomputable def FSpec.mag (s : FSpec) (c : Nat) : ℝ :=
  if c / 2 ^ (s.prec - 1) = 0 then (c % 2 ^ (s.prec - 1) : Nat) * (2 : ℝ) ^ s.low
  else ((c % 2 ^ (s.prec - 1) : Nat) + 2 ^ (s.prec - 1)) * (2 : ℝ) ^ (s.low + (c / 2 ^ (s.prec - 1) : Nat) - 1)

/-- `magVal` stands for that magnitude. -/
theorem magVal_is (s : FSpec) (neg : Bool) (c : Nat) : (s.magVal neg c).Is ((if neg then -1 else 1) * s.mag c) := by
  unfold FSpec.magVal FSpec.mag FSpec.low Val.Is
  by_cases h : c / 2 ^ (s.prec - 1) = 0
  · simp only [h, if_true]; ring
  · simp only [h, if_false]; push_cast; ring

/-- A greater code is a greater magnitude. -/
theorem mag_strictMono (s : FSpec) : StrictMono s.mag := by
  refine strictMono_nat_of_lt_succ fun c => ?_
  unfold FSpec.mag
  have hF : 0 < 2 ^ (s.prec - 1) := by positivity
  have hR : ((2 ^ (s.prec - 1) : Nat) : ℝ) = 2 ^ (s.prec - 1) := by norm_cast
  rw [← hR]
  generalize 2 ^ (s.prec - 1) = F at hF ⊢
  have hc := Nat.div_add_mod c F
  have ht := Nat.mod_lt c hF
  generalize hx : c / F = x at hc ⊢
  generalize c % F = t at hc ht ⊢
  have P (k : ℤ) : (0 : ℝ) < (2 : ℝ) ^ k := by positivity
  by_cases h : t + 1 < F
  · have d : (c + 1) / F = x := by
      rw [← hc, add_assoc, Nat.mul_add_div hF, Nat.div_eq_of_lt h, add_zero]
    have m : (c + 1) % F = t + 1 := by
      rw [← hc, add_assoc, Nat.mul_add_mod, Nat.mod_eq_of_lt h]
    rw [d, m]
    split
    · push_cast; nlinarith [P s.low]
    · push_cast; nlinarith [P (s.low + (x : ℤ) - 1)]
  · have ht1 : t + 1 = F := by omega
    have e : c + 1 = F * (x + 1) := by rw [← hc, add_assoc, ht1]; ring
    have d : (c + 1) / F = x + 1 := by rw [e, Nat.mul_div_cancel_left _ hF]
    have m : (c + 1) % F = 0 := by rw [e, Nat.mul_mod_right]
    have tF : (t : ℝ) < F := by exact_mod_cast ht
    rw [d, m, if_neg (Nat.succ_ne_zero x)]
    have step : s.low + ((x + 1 : Nat) : ℤ) - 1 = (s.low + (x : ℤ) - 1) + 1 := by push_cast; ring
    split
    · next h0 =>
      subst h0
      have : s.low + ((0 + 1 : Nat) : ℤ) - 1 = s.low := by simp
      rw [this]; push_cast; nlinarith [P s.low]
    · rw [step, zpow_add_one₀ two_ne_zero]; push_cast; nlinarith [P (s.low + (x : ℤ) - 1)]

/-- The code of `m` quanta `2^q`: a subnormal, or at least half of the significand's range at a quantum of the format. -/
theorem mag_magCode (s : FSpec) {m : Nat} {q : ℤ} (h : m < 2 ^ (s.prec - 1) → q = s.low)
    (hq : s.low ≤ q) (hm : m ≤ 2 * 2 ^ (s.prec - 1)) : s.mag (s.magCode m q) = m * (2 : ℝ) ^ q := by
  have hF : 0 < 2 ^ (s.prec - 1) := by positivity
  have hR : ((2 ^ (s.prec - 1) : Nat) : ℝ) = 2 ^ (s.prec - 1) := by norm_cast
  unfold FSpec.mag FSpec.magCode
  rw [← hR]
  simp only
  generalize 2 ^ (s.prec - 1) = F at h hm hF ⊢
  by_cases hlt : m < F
  · rw [if_pos hlt, Nat.div_eq_of_lt hlt, if_pos rfl, Nat.mod_eq_of_lt hlt, h hlt]
  · rw [if_neg hlt]
    have hk : ((q - s.low + 1).toNat : ℤ) = q - s.low + 1 := Int.toNat_of_nonneg (by omega)
    generalize (q - s.low + 1).toNat = k at hk
    have k1 : 1 ≤ k := by omega
    by_cases hb : m - F < F
    · have d : (k * F + (m - F)) / F = k := by
        rw [mul_comm, Nat.mul_add_div hF, Nat.div_eq_of_lt hb, add_zero]
      have r : (k * F + (m - F)) % F = m - F := by rw [mul_comm, Nat.mul_add_mod, Nat.mod_eq_of_lt hb]
      rw [d, r, if_neg (by omega), Nat.cast_sub (by omega)]
      have : s.low + (k : ℤ) - 1 = q := by omega
      rw [this]; ring
    · have e : k * F + (m - F) = F * (k + 1) := by
        have : m - F = F := by omega
        rw [this]; ring
      rw [e, Nat.mul_div_cancel_left _ hF, Nat.mul_mod_right, if_neg (by omega)]
      have : s.low + ((k + 1 : Nat) : ℤ) - 1 = q + 1 := by push_cast; omega
      have m2 : (m : ℝ) = 2 * F := by
        have : m = 2 * F := by omega
        exact_mod_cast this
      rw [this, zpow_add_one₀ two_ne_zero, m2]; push_cast; ring

/-! ### Patterns of the floating formats -/

/-- The floating formats (R58). -/
theorem float_cases {f : Fmt} (hf : ∃ k, Fmt.ofCode k = some f) (hi : f.isInt = false) :
    f = .bf16 ∨ f = .fp16 ∨ f = .fp32 ∨ ∃ p, 1 ≤ p ∧ p ≤ 7 ∧ (f = .ps p ∨ f = .pu p) := by
  obtain ⟨k, h⟩ := hf
  unfold Fmt.ofCode at h
  split at h
  all_goals first | (injection h with h; subst h; cases hi; done) | (injection h with h; subst h; simp) | skip
  split at h
  · injection h with h; subst h; exact .inr (.inr (.inr ⟨_, by omega, by omega, .inl rfl⟩))
  · split at h
    · injection h with h; subst h; exact .inr (.inr (.inr ⟨_, by omega, by omega, .inr rfl⟩))
    · cases h

/-- The same of the pattern of an IEEE layout, cut into sign and magnitude. -/
theorem cut_sign {b mag : Nat} (neg : Bool) (hb : 0 < b) (h : mag < 2 ^ (b - 1)) :
    let c := (if neg then 2 ^ (b - 1) + mag else mag)
    c < 2 ^ b ∧ c / 2 ^ (b - 1) = (if neg then 1 else 0) ∧ c % 2 ^ (b - 1) = mag := by
  have e : 2 ^ b = 2 * 2 ^ (b - 1) := by
    conv_lhs => rw [← Nat.sub_add_cancel hb]
    rw [pow_succ, mul_comm]
  have p : 0 < 2 ^ (b - 1) := by positivity
  rw [e]
  generalize 2 ^ (b - 1) = B at h p ⊢
  cases neg
  · simp only [Bool.false_eq_true, if_false]
    exact ⟨by omega, Nat.div_eq_of_lt h, Nat.mod_eq_of_lt h⟩
  · simp only [if_true]
    refine ⟨by omega, ?_, ?_⟩
    · rw [Nat.add_div_left _ p, Nat.div_eq_of_lt h]
    · rw [Nat.add_mod_left, Nat.mod_eq_of_lt h]

/-- A pattern with a magnitude code of the format stands for that magnitude. -/
theorem val_withSign {f : Fmt} (hf : ∃ k, Fmt.ofCode k = some f) (hi : f.isInt = false) {inf neg : Bool} {mag : Nat}
    (h0 : 0 < mag) (h : mag ≤ f.maxMag inf) (hs : neg = true → f.spec.signed = true) :
    f.val inf (withSign f neg mag) = f.spec.magVal neg mag ∧ withSign f neg mag < 2 ^ f.bits := by
  obtain rfl | rfl | rfl | ⟨p, h1, h7, rfl | rfl⟩ := float_cases hf hi
  · have hm : mag < 32640 := by simp only [Fmt.maxMag, Fmt.spec] at h; omega
    obtain ⟨a, b, c⟩ := cut_sign (b := 16) neg (by omega) (show mag < 2 ^ 15 by omega)
    have x : mag / 128 ≠ 255 := by omega
    simp only [Fmt.val, withSign, Fmt.bits, Fmt.spec] at a b c ⊢
    refine ⟨?_, a⟩
    simp only [Nat.mod_eq_of_lt a, b, c]
    cases neg <;> simp [x]
  · have hm : mag < 31744 := by simp only [Fmt.maxMag, Fmt.spec] at h; omega
    obtain ⟨a, b, c⟩ := cut_sign (b := 16) neg (by omega) (show mag < 2 ^ 15 by omega)
    have x : mag / 1024 ≠ 31 := by omega
    simp only [Fmt.val, withSign, Fmt.bits, Fmt.spec] at a b c ⊢
    refine ⟨?_, a⟩
    simp only [Nat.mod_eq_of_lt a, b, c]
    cases neg <;> simp [x]
  · have hm : mag < 2139095040 := by simp only [Fmt.maxMag, Fmt.spec] at h; omega
    obtain ⟨a, b, c⟩ := cut_sign (b := 32) neg (by omega) (show mag < 2 ^ 31 by omega)
    have x : mag / 8388608 ≠ 255 := by omega
    simp only [Fmt.val, withSign, Fmt.bits, Fmt.spec] at a b c ⊢
    refine ⟨?_, a⟩
    simp only [Nat.mod_eq_of_lt a, b, c]
    cases neg <;> simp [x]
  · have hm : mag < 128 ∧ (inf = true → mag < 127) := by
      cases inf <;> simp [Fmt.maxMag] at h ⊢ <;> omega
    have one (c : Nat) (l : c < 256) (n1 : c ≠ 0x80) (n2 : c ≠ 0) (n3 : inf = true → c ≠ 0x7F ∧ c ≠ 0xFF) :
        Fmt.val (.ps p) inf c = (Fmt.spec (.ps p)).magVal (c / 128 == 1) (c % 128) := by
      simp only [Fmt.val, Nat.mod_eq_of_lt l]
      rw [if_neg n1, if_neg fun h => (n3 h.1).1 h.2, if_neg fun h => (n3 h.1).2 h.2, if_neg n2]
    cases neg
    · refine ⟨?_, by simp [withSign, Fmt.bits]; omega⟩
      have e : withSign (.ps p) false mag = mag := rfl
      rw [e, one mag (by omega) (by omega) (by omega) fun h => ⟨by have := hm.2 h; omega, by omega⟩,
        Nat.div_eq_of_lt hm.1, Nat.mod_eq_of_lt hm.1]
      rfl
    · refine ⟨?_, by simp [withSign, Fmt.bits]; omega⟩
      have e : withSign (.ps p) true mag = 128 + mag := rfl
      rw [e, one _ (by omega) (by omega) (by omega) fun h => by have := hm.2 h; omega]
      have d : (128 + mag) / 128 = 1 := by omega
      have r : (128 + mag) % 128 = mag := by omega
      rw [d, r]; rfl
  · have hm : mag < 255 ∧ (inf = true → mag < 254) := by
      cases inf <;> simp [Fmt.maxMag] at h ⊢ <;> omega
    cases neg
    · refine ⟨?_, by simp [withSign, Fmt.bits]; omega⟩
      have e : withSign (.pu p) false mag = mag := rfl
      rw [e]
      simp only [Fmt.val, Nat.mod_eq_of_lt (show mag < 256 by omega)]
      rw [if_neg (by omega), if_neg fun h => by have := hm.2 h.1; omega, if_neg (by omega)]
    · cases hs rfl

/-- The greatest finite magnitude of a format (R97, R100). -/
theorem maxMag_is {f : Fmt} (hf : ∃ k, Fmt.ofCode k = some f) (hi : f.isInt = false) (inf : Bool) :
    0 < f.maxMag inf ∧ (f.val inf (f.maxMag inf)).Is (f.spec.mag (f.maxMag inf)) := by
  have pos : 0 < f.maxMag inf := by
    obtain rfl | rfl | rfl | ⟨p, -, -, rfl | rfl⟩ := float_cases hf hi <;> cases inf <;> simp [Fmt.maxMag, Fmt.spec]
  refine ⟨pos, ?_⟩
  have h := val_withSign hf hi (inf := inf) (neg := false) pos le_rfl (by simp)
  have e : withSign f false (f.maxMag inf) = f.maxMag inf := rfl
  rw [e] at h
  rw [h.1]
  simpa using magVal_is f.spec false (f.maxMag inf)

/-! ### RoundTo -/

theorem spec_prec {f : Fmt} (hf : ∃ k, Fmt.ofCode k = some f) (hi : f.isInt = false) : 1 ≤ f.spec.prec := by
  obtain rfl | rfl | rfl | ⟨p, h, -, rfl | rfl⟩ := float_cases hf hi <;> simp [Fmt.spec, *]

theorem zeroOf_eq (f : Fmt) (neg : Bool) : zeroOf f neg = zeroIn f neg := by
  unfold zeroOf zeroIn withSign Fmt.signed
  cases f.spec.ieee <;> cases neg <;> simp

theorem overflow_eq (f : Fmt) (nm : NumMode) (neg : Bool) :
    overflow f nm nm.rnd neg = (pastMax f nm neg, flOf ||| flNx) := by
  unfold overflow pastMax Fmt.signed withSign
  cases nm.sat <;> cases f.spec.ieee <;> cases nm.inf <;> cases nm.rnd <;> cases neg <;> simp

theorem infTo_eq (f : Fmt) (nm : NumMode) (neg : Bool) (h : f.spec.ieee = true → f.spec.signed = true) :
    infTo f nm neg = infinityIn f nm neg := by
  unfold infTo infinityIn negIntoUnsigned Fmt.signed withSign
  cases hi : f.spec.ieee <;> cases hs : f.spec.signed <;> cases nm.sat <;> cases nm.inf <;> cases neg <;> simp_all

/-- What RoundedAt says of the multiple that it chooses, for an `x` of binade `k` and a quantum of its precision or above. -/
theorem RoundedAt.bounds {mode : Rnd} {x : ℝ} {q k : ℤ} {M p : Nat} (h : RoundedAt mode x q M) (hp : 1 ≤ p)
    (lo : (2 : ℝ) ^ k ≤ |x|) (hi : |x| < (2 : ℝ) ^ (k + 1)) (hq : k + 1 - (p : ℤ) ≤ q) :
    M ≤ 2 * 2 ^ (p - 1) ∧ (q = k + 1 - (p : ℤ) → 2 ^ (p - 1) ≤ M) := by
  obtain ⟨m, h1, h2, h3⟩ := h
  have hM : m ≤ M ∧ M ≤ m + 1 := by
    by_cases up : (match mode with
      | .rne => (2 : ℝ) ^ q < 2 * (|x| - m * (2 : ℝ) ^ q) ∨ (2 * (|x| - m * (2 : ℝ) ^ q) = (2 : ℝ) ^ q ∧ m % 2 = 1)
      | .rna => (2 : ℝ) ^ q ≤ 2 * (|x| - m * (2 : ℝ) ^ q)
      | .rtz => False
      | .rup => 0 < x ∧ |x| - m * (2 : ℝ) ^ q ≠ 0
      | .rdn => x < 0 ∧ |x| - m * (2 : ℝ) ^ q ≠ 0)
    · have := h3.1 up; omega
    · have := h3.2 up; omega
  have Q : (0 : ℝ) < (2 : ℝ) ^ q := by positivity
  have e : 2 * 2 ^ (p - 1) = 2 ^ p := by
    conv_rhs => rw [← Nat.sub_add_cancel hp]
    rw [pow_succ, mul_comm]
  constructor
  · have : (m : ℝ) < ((2 ^ p : Nat) : ℝ) := by
      rw [← mul_lt_mul_iff_left₀ Q]
      calc (m : ℝ) * (2 : ℝ) ^ q ≤ |x| := h1
        _ < (2 : ℝ) ^ (k + 1) := hi
        _ ≤ (2 : ℝ) ^ ((p : ℤ) + q) := zpow_le_zpow_right₀ (by norm_num) (by omega)
        _ = _ := by rw [zpow_add₀ two_ne_zero, zpow_natCast]; push_cast; ring
    have : m < 2 ^ p := by exact_mod_cast this
    omega
  · intro hq'
    have : ((2 ^ (p - 1) : Nat) : ℝ) < ((m + 1 : Nat) : ℝ) := by
      rw [← mul_lt_mul_iff_left₀ Q]
      calc ((2 ^ (p - 1) : Nat) : ℝ) * (2 : ℝ) ^ q = (2 : ℝ) ^ k := by
            push_cast; rw [← zpow_natCast, ← zpow_add₀ two_ne_zero]; congr 1; omega
        _ ≤ |x| := lo
        _ < _ := by push_cast; exact h2
    have : 2 ^ (p - 1) < m + 1 := by exact_mod_cast this
    omega

/-- `roundRat` is RoundTo (R101-R104). -/
theorem roundRat_spec {f : Fmt} (hf : ∃ k, Fmt.ofCode k = some f) (hi : f.isInt = false) (nm : NumMode) {neg : Bool}
    {num den : Nat} {e : ℤ} {x : ℝ} (hn : 0 < num) (hd : 0 < den) (hx : |x| = num / den * (2 : ℝ) ^ e)
    (hneg : neg = true ↔ x < 0) : RoundsTo f nm x (roundRat f nm nm.rnd neg num den e) := by
  have N : (0 : ℝ) < num := by exact_mod_cast hn
  have D : (0 : ℝ) < den := by exact_mod_cast hd
  have hp := spec_prec hf hi
  have h0 : x ≠ 0 := by rw [← abs_pos, hx]; positivity
  obtain ⟨k1, k2⟩ := floorLog_spec hn hd
  obtain ⟨bpos, hbig⟩ := maxMag_is hf hi nm.inf
  set k : ℤ := floorLog num den + e with hk
  have lo : (2 : ℝ) ^ k ≤ |x| := by rw [hx, hk, zpow_add₀ two_ne_zero]; gcongr
  have hi' : |x| < (2 : ℝ) ^ (k + 1) := by
    rw [hx, hk, show floorLog num den + e + 1 = floorLog num den + 1 + e by ring, zpow_add₀ two_ne_zero]; gcongr
  have htop : topQuantum f.spec.prec num den e = k + 1 - (f.spec.prec : ℤ) := by
    unfold topQuantum; omega
  have hlow : f.spec.low = 2 - (f.spec.bias : ℤ) - f.spec.prec := by
    unfold FSpec.low; omega
  have hq : (if k + 1 - (f.spec.prec : ℤ) < f.spec.low then f.spec.low else k + 1 - (f.spec.prec : ℤ))
      = max (k + 1 - (f.spec.prec : ℤ)) (2 - (f.spec.bias : ℤ) - f.spec.prec) := by
    rw [← hlow]; split <;> omega
  unfold RoundsTo roundRat
  simp only [htop, hq]
  generalize hqq : max (k + 1 - (f.spec.prec : ℤ)) (2 - (f.spec.bias : ℤ) - f.spec.prec) = q
  generalize htt : k + 1 - (f.spec.prec : ℤ) = top at hqq
  obtain ⟨M1, M2⟩ := roundAt_spec (q := q) nm.rnd hd hx h0 hneg
  obtain ⟨U1, -⟩ := roundAt_spec (q := top) nm.rnd hd hx h0 hneg
  generalize roundAt nm.rnd neg num den e q = rm at M1 M2
  generalize roundAt nm.rnd neg num den e top = ru at U1
  obtain ⟨M, inexact⟩ := rm
  obtain ⟨U, j⟩ := ru
  simp only at M1 M2 U1 ⊢
  obtain ⟨Mle, Mge⟩ := M1.bounds hp lo hi' (by omega)
  obtain ⟨-, Uge⟩ := U1.bounds hp lo hi' (by omega)
  have hv := mag_magCode f.spec (m := M) (q := q) (fun h => by
    by_contra hne
    have := Mge (by omega)
    omega) (by omega) Mle
  have P2 : ((2 ^ (f.spec.prec - 1) : Nat) : ℝ) * (2 : ℝ) ^ f.spec.low = (2 : ℝ) ^ (1 - (f.spec.bias : ℤ)) := by
    push_cast; rw [← zpow_natCast, ← zpow_add₀ two_ne_zero]; congr 1; omega
  have T : (0 : ℝ) < (2 : ℝ) ^ top := by positivity
  have tiny : (if top < f.spec.low then U < 2 ^ (f.spec.prec - 1) * 2 ^ (f.spec.low - top).toNat else false = true)
      ↔ U * (2 : ℝ) ^ top < (2 : ℝ) ^ (1 - (f.spec.bias : ℤ)) := by
    split
    · next h =>
      rw [← P2]
      have : ((2 ^ (f.spec.prec - 1) * 2 ^ (f.spec.low - top).toNat : Nat) : ℝ) * (2 : ℝ) ^ top
          = ((2 ^ (f.spec.prec - 1) : Nat) : ℝ) * (2 : ℝ) ^ f.spec.low := by
        rw [Nat.cast_mul, zpow_toNat (by omega), mul_assoc, ← zpow_add₀ two_ne_zero]; congr 2; omega
      rw [← this, mul_lt_mul_iff_left₀ T, Nat.cast_lt]
    · next h =>
      simp only [Bool.false_eq_true, false_iff, not_lt]
      rw [← P2]
      have u : ((2 ^ (f.spec.prec - 1) : Nat) : ℝ) ≤ U := by exact_mod_cast Uge (by omega)
      have l : (2 : ℝ) ^ f.spec.low ≤ (2 : ℝ) ^ top := zpow_le_zpow_right₀ (by norm_num) (by omega)
      gcongr
  generalize hf1 : (if inexact = true then
      if (if top < f.spec.low then U < 2 ^ (f.spec.prec - 1) * 2 ^ (f.spec.low - top).toNat else false = true)
        then flNx ||| flUf else flNx else (0 : Flags)) = fl
  refine ⟨neg, k, M, U, _, fl, hneg, lo, hi', hbig, ?_⟩
  have same : ((M : ℝ) * (2 : ℝ) ^ q = |x|) ↔ inexact = false := M2.symm
  have less : f.spec.mag (f.maxMag nm.inf) < (M : ℝ) * (2 : ℝ) ^ q ↔ f.maxMag nm.inf < f.spec.magCode M q := by
    rw [← hv]; exact (mag_strictMono f.spec).lt_iff_lt
  have code0 : M ≠ 0 → 0 < f.spec.magCode M q := fun hM => by
    have h : f.spec.mag 0 < f.spec.mag (f.spec.magCode M q) := by
      rw [hv]
      have : (0 : ℝ) < M := by exact_mod_cast Nat.pos_of_ne_zero hM
      have z : f.spec.mag 0 = 0 := by simp [FSpec.mag]
      rw [z]; positivity
    exact (mag_strictMono f.spec).lt_iff_lt.mp h
  simp only [htt, hqq]
  refine ⟨M1, U1, fun h => ?_, fun h t => ?_, fun h t => ?_, fun h => ?_, fun h n u => ?_, fun h n => ⟨fun b => ?_, fun b => ?_⟩⟩
  · rw [← hf1, if_neg (by rw [same.mp h]; simp)]
  · rw [← hf1, if_pos (by by_contra g; exact h (same.mpr (by simpa using g))), if_pos (tiny.mpr t)]
  · rw [← hf1, if_pos (by by_contra g; exact h (same.mpr (by simpa using g))), if_neg fun g => t (tiny.mp g)]
  · rw [if_pos h, zeroOf_eq]
  · rw [if_neg h, if_pos ⟨n, by simp [u]⟩]; rfl
  all_goals
    have c : ¬ (neg = true ∧ ¬ f.spec.signed = true) := fun g => g.2 (n g.1)
    rw [if_neg h, if_neg c]
  · rw [if_pos (less.mp b), overflow_eq]
  · have le : f.spec.magCode M q ≤ f.maxMag nm.inf := not_lt.mp fun g => not_lt.mpr b (less.mpr g)
    rw [if_neg (not_lt.mpr le)]
    obtain ⟨v1, v2⟩ := val_withSign hf hi (code0 h) le n
    refine ⟨rfl, v2, ?_⟩
    have is := magVal_is f.spec neg (f.spec.magCode M q)
    rw [← v1, hv] at is
    have e1 : (if neg = true then -((M : ℝ) * (2 : ℝ) ^ q) else M * (2 : ℝ) ^ q)
        = (if neg = true then -1 else 1) * ((M : ℝ) * (2 : ℝ) ^ q) := by cases neg <;> simp
    rw [e1]; exact is

/-- `roundVal` writes a value (R101-R105). -/
theorem roundVal_spec {f : Fmt} (hf : ∃ k, Fmt.ofCode k = some f) (hi : f.isInt = false) (nm : NumMode) (v : Val) :
    WritesVal f nm v (roundVal f nm nm.rnd v) := by
  have ieee : f.spec.ieee = true → f.spec.signed = true := by
    obtain rfl | rfl | rfl | ⟨p, -, -, rfl | rfl⟩ := float_cases hf hi <;> simp [Fmt.spec]
  cases v with
  | nan s => rfl
  | inf neg => exact infTo_eq f nm neg ieee
  | fin neg m e =>
    refine ⟨_, rfl, fun h => ?_, fun h => ?_⟩
    · have hm : m = 0 := by
        have T : (2 : ℝ) ^ e ≠ 0 := by positivity
        cases neg <;> simpa [T] using h
      simp [roundVal, hm, zeroOf_eq]
    · have hm : m ≠ 0 := fun hm => h (by simp [hm])
      simp only [roundVal, if_neg hm]
      have M : (0 : ℝ) < m := by exact_mod_cast Nat.pos_of_ne_zero hm
      have T : (0 : ℝ) < (2 : ℝ) ^ e := by positivity
      refine roundRat_spec hf hi nm (Nat.pos_of_ne_zero hm) Nat.one_pos ?_ ?_
      · cases neg <;> simp [abs_mul, abs_of_pos T]
      · cases neg
        · simp; positivity
        · simp; positivity

/-- `intTo` writes an integer (R96). -/
theorem intTo_spec (f : Fmt) (sat : Bool) (v : ℤ) : WritesInt f sat v (intTo f sat v) := by
  unfold WritesInt intTo
  simp only [Nat.cast_pow, Nat.cast_ofNat]
  have order : (if f.isSigned = true then -(2 : ℤ) ^ (f.bits - 1) else 0)
      ≤ (if f.isSigned = true then (2 : ℤ) ^ (f.bits - 1) - 1 else 2 ^ f.bits - 1) := by
    have : (0 : ℤ) < 2 ^ (f.bits - 1) := by positivity
    have : (0 : ℤ) < 2 ^ f.bits := by positivity
    split <;> omega
  generalize (if f.isSigned = true then -(2 : ℤ) ^ (f.bits - 1) else 0) = lo at order ⊢
  generalize (if f.isSigned = true then (2 : ℤ) ^ (f.bits - 1) - 1 else 2 ^ f.bits - 1) = hi at order ⊢
  refine ⟨fun h1 h2 => ?_, fun h => ?_, fun h => ?_⟩
  · rw [if_neg]; rintro ⟨-, h | h⟩ <;> omega
  · cases sat <;> simp [h]
  · have n : ¬ v < lo := by omega
    cases sat <;> simp [h, n]

end Sys2Proof.Machine
end

