-- ==== Sys2Proof/Laws/Ops.lean ====
section
/-! SUPPORT. What the named operations on the executing strand do, once for all the meanings that call them:
a scalar result, the PC past the instruction, a branch, a wait, a trap. -/

namespace Sys2Proof.Machine

/-- Replacing the executing strand changes nothing else. -/
theorem setMe_onlyMe (s : State) (t : Strand) : OnlyMe s (s.setMe t) :=
  ⟨fun _ h => s.strand_setMe_ne h t, fun _ => rfl, rfl⟩

/-- A strand that has gone on with other scalar registers. -/
theorem setMe_go_onlyScalars (s : State) (r : Sparse Word) (pc : Word) :
    OnlyScalars s (s.setMe (({ s.me with regs := r } : Strand).go pc)) :=
  ⟨setMe_onlyMe s _, by rw [State.me_setMe]; rfl⟩

theorem setReg_eq (t : Strand) (d : SReg) (v : Word) : t.setReg d v = { t with regs := (t.setReg d v).regs } := by
  unfold Strand.setReg; split <;> rfl

/-- A scalar result (R69). -/
theorem result_spec (s : State) (d : SReg) (v : Word) :
    Wrote s (s.result d v) d v ∧ (s.result d v).me.pc = s.me.pc + 4 ∧ OnlyScalars s (s.result d v) := by
  refine ⟨fun r => ?_, ?_, ?_⟩
  · rw [State.reg, State.result, State.me_setMe, Strand.reg_go, Strand.reg_setReg]; rfl
  · rw [State.result, State.me_setMe]; rfl
  · rw [State.result, setReg_eq]; exact setMe_go_onlyScalars s _ _

theorem gives_of_result {i : Instr} {s : State} {d : SReg} {v : Word} (h : exec i s = .next (s.result d v)) :
    Gives i s d v := ⟨_, h, result_spec s d v⟩

/-- A strand that goes on at `pc` (R80). -/
theorem go_spec (s : State) (pc : Word) :
    (s.setMe (s.me.go pc)).me.pc = pc ∧ (s.setMe (s.me.go pc)).me.regs = s.me.regs
      ∧ OnlyScalars s (s.setMe (s.me.go pc)) := by
  refine ⟨by rw [State.me_setMe]; rfl, by rw [State.me_setMe]; rfl, ?_⟩
  exact ⟨setMe_onlyMe s _, by rw [State.me_setMe]; rfl⟩

theorem goes_of_setMe {i : Instr} {s : State} {pc : Word} (h : exec i s = .next (s.setMe (s.me.go pc))) :
    Goes i s pc := ⟨_, h, go_spec s pc⟩

theorem goes_of_advance {i : Instr} {s : State} (h : exec i s = .next s.advance) : Goes i s (s.me.pc + 4) :=
  goes_of_setMe h

/-- Trap entry (R285): what is saved, the mode, `estatus` and the vector. -/
theorem trapIn_trapped (s : State) (i : Nat) (r : TrapRec) :
    Trapped s (s.trapIn i r) i r.cause r.epc r.eval r.evpos r.vstart := by
  have e : (s.trapIn i r).strand i = { (s.strand i).enter with
      epc := r.epc, ecause := r.cause.code, eval := r.eval, evpos := r.evpos, vstart := r.vstart
      pc := s.vector i, wait := .none, again := none } := State.strand_setStrand_same ..
  constructor <;> rw [e]
  · rfl
  · cases h : (s.strand i).mode <;> simp [Strand.enter, h]
  · cases h : (s.strand i).mode <;> simp only [Strand.enter, h] <;> split <;>
      generalize (s.strand i).estatus = e <;> revert e <;> decide

/-- Trap entry touches no other strand, no memory and nothing else of the package. -/
theorem trapIn_onlyMe (s : State) (r : TrapRec) : OnlyMe s (s.trapIn s.cur r) := setMe_onlyMe s _

theorem trap_spec (s : State) (c : Cause) (eval : Word) :
    Trapped s (s.trap c eval) s.cur c s.me.pc eval 0 0 ∧ OnlyTrap s (s.trap c eval) := by
  refine ⟨trapIn_trapped s s.cur _, trapIn_onlyMe s _, ?_⟩
  have e : (s.trap c eval).me = { s.me.enter with
      epc := s.me.pc, ecause := c.code, eval := eval, evpos := 0, vstart := 0
      pc := s.vector s.cur, wait := .none, again := none } := State.strand_setStrand_same ..
  rw [e]
  cases h : s.me.mode <;> simp [Strand.enter, h]

theorem traps_of_trap {i : Instr} {s : State} {c : Cause} {eval : Word} (h : exec i s = .next (s.trap c eval)) :
    Traps i s c eval := ⟨_, h, trap_spec s c eval⟩

end Sys2Proof.Machine
end

