-- ==== Sys2Proof/Laws/PerInstr.lean ====
section
/-! SUPPORT. Facts of one instruction at a time, one lemma for each constructor. -/

namespace Sys2Proof.Laws.F

/-- The encoder gives a word to the instruction exactly when the opcode table gives it one (R55-R68). -/
def Statement (i : Instr) : Prop := (encode i).isSome = i.encoded

theorem nop : Statement .nop := rfl
theorem svc (n : BitVec 12) : Statement (.svc n) := rfl
theorem tret : Statement .tret := rfl
theorem sysr (d : SReg) (r : BitVec 12) : Statement (.sysr d r) := rfl
theorem sysw (d : SReg) (r : BitVec 12) : Statement (.sysw d r) := rfl
theorem endStrand : Statement .endStrand := rfl
theorem wfi : Statement .wfi := rfl
theorem add (d a b : SReg) : Statement (.add d a b) := rfl
theorem sub (d a b : SReg) : Statement (.sub d a b) := rfl
theorem mul (d a b : SReg) : Statement (.mul d a b) := rfl
theorem mulh (d a b : SReg) : Statement (.mulh d a b) := rfl
theorem mulhu (d a b : SReg) : Statement (.mulhu d a b) := rfl
theorem div (d a b : SReg) : Statement (.div d a b) := rfl
theorem divu (d a b : SReg) : Statement (.divu d a b) := rfl
theorem rem (d a b : SReg) : Statement (.rem d a b) := rfl
theorem remu (d a b : SReg) : Statement (.remu d a b) := rfl
theorem and (d a b : SReg) : Statement (.and d a b) := rfl
theorem or (d a b : SReg) : Statement (.or d a b) := rfl
theorem xor (d a b : SReg) : Statement (.xor d a b) := rfl
theorem shl (d a b : SReg) : Statement (.shl d a b) := rfl
theorem shr (d a b : SReg) : Statement (.shr d a b) := rfl
theorem sra (d a b : SReg) : Statement (.sra d a b) := rfl
theorem rotl (d a b : SReg) : Statement (.rotl d a b) := rfl
theorem min (d a b : SReg) : Statement (.min d a b) := rfl
theorem max (d a b : SReg) : Statement (.max d a b) := rfl
theorem minu (d a b : SReg) : Statement (.minu d a b) := rfl
theorem maxu (d a b : SReg) : Statement (.maxu d a b) := rfl
theorem slt (d a b : SReg) : Statement (.slt d a b) := rfl
theorem sltu (d a b : SReg) : Statement (.sltu d a b) := rfl
theorem clz (d a : SReg) : Statement (.clz d a) := rfl
theorem ctz (d a : SReg) : Statement (.ctz d a) := rfl
theorem popc (d a : SReg) : Statement (.popc d a) := rfl
theorem addi (d a : SReg) (i : BitVec 14) : Statement (.addi d a i) := rfl
theorem andi (d a : SReg) (i : BitVec 14) : Statement (.andi d a i) := rfl
theorem ori (d a : SReg) (i : BitVec 14) : Statement (.ori d a i) := rfl
theorem xori (d a : SReg) (i : BitVec 14) : Statement (.xori d a i) := rfl
theorem shli (d a : SReg) (n : BitVec 6) : Statement (.shli d a n) := rfl
theorem shri (d a : SReg) (n : BitVec 6) : Statement (.shri d a n) := rfl
theorem srai (d a : SReg) (n : BitVec 6) : Statement (.srai d a n) := rfl
theorem slti (d a : SReg) (i : BitVec 14) : Statement (.slti d a i) := rfl
theorem sltiu (d a : SReg) (i : BitVec 14) : Statement (.sltiu d a i) := rfl
theorem lhi (d : SReg) (o : BitVec 20) : Statement (.lhi d o) := rfl
theorem pcadd (d : SReg) (o : BitVec 20) : Statement (.pcadd d o) := rfl
theorem lds (d a : SReg) (z : Size) (o : BitVec 12) : Statement (.lds d a z o) := rfl
theorem ldu (d a : SReg) (z : Size) (o : BitVec 12) : Statement (.ldu d a z o) := rfl
theorem sts (d a : SReg) (z : Size) (o : BitVec 12) : Statement (.sts d a z o) := rfl
theorem amo (d a : SReg) (p : AmoOp) (o : AmoOrder) (sc : Scope) (w : Bool) : Statement (.amo d a p o sc w) := rfl
theorem beq (a b : SReg) (o : BitVec 14) : Statement (.beq a b o) := rfl
theorem bne (a b : SReg) (o : BitVec 14) : Statement (.bne a b o) := rfl
theorem blt (a b : SReg) (o : BitVec 14) : Statement (.blt a b o) := rfl
theorem bge (a b : SReg) (o : BitVec 14) : Statement (.bge a b o) := rfl
theorem bltu (a b : SReg) (o : BitVec 14) : Statement (.bltu a b o) := rfl
theorem bgeu (a b : SReg) (o : BitVec 14) : Statement (.bgeu a b o) := rfl
theorem jal (d : SReg) (o : BitVec 20) : Statement (.jal d o) := rfl
theorem jalr (d a : SReg) (i : BitVec 14) : Statement (.jalr d a i) := rfl
theorem strip (d a : SReg) : Statement (.strip d a) := rfl
theorem stripClose (d : SReg) : Statement (.stripClose d) := rfl
theorem snext (d : SReg) : Statement (.snext d) := rfl
theorem setvl (d a : SReg) : Statement (.setvl d a) := rfl
theorem setvlx (d a : SReg) (o : BitVec 13) : Statement (.setvlx d a o) := rfl
theorem grp (m : GrpMode) : Statement (.grp m) := rfl
theorem grpk (m : GrpMode) : Statement (.grpk m) := rfl
theorem bext (d a : SReg) (p l : BitVec 6) : Statement (.bext d a p l) := rfl
theorem bins (d a : SReg) (p l : BitVec 6) : Statement (.bins d a p l) := rfl
theorem fsh (d a : SReg) (n : BitVec 6) : Statement (.fsh d a n) := rfl
theorem vadd (d a b : CReg) (x : Bool) : Statement (.vadd d a b x) := rfl
theorem vsub (d a b : CReg) (x : Bool) : Statement (.vsub d a b x) := rfl
theorem vmul (d a b : CReg) (x : Bool) : Statement (.vmul d a b x) := rfl
theorem vfma (d a b : CReg) (x : Bool) : Statement (.vfma d a b x) := rfl
theorem vfms (d a b : CReg) (x : Bool) : Statement (.vfms d a b x) := rfl
theorem vdiv (d a b : CReg) (x : Bool) : Statement (.vdiv d a b x) := rfl
theorem vmin (d a b : CReg) (x : Bool) : Statement (.vmin d a b x) := rfl
theorem vmax (d a b : CReg) (x : Bool) : Statement (.vmax d a b x) := rfl
theorem vand (d a b : CReg) (x : Bool) : Statement (.vand d a b x) := rfl
theorem vor (d a b : CReg) (x : Bool) : Statement (.vor d a b x) := rfl
theorem vxor (d a b : CReg) (x : Bool) : Statement (.vxor d a b x) := rfl
theorem vshl (d a b : CReg) (x : Bool) : Statement (.vshl d a b x) := rfl
theorem vshr (d a b : CReg) (x : Bool) : Statement (.vshr d a b x) := rfl
theorem vsra (d a b : CReg) (x : Bool) : Statement (.vsra d a b x) := rfl
theorem vfsh (d a b : CReg) (x : Bool) : Statement (.vfsh d a b x) := rfl
theorem vbext (d a b : CReg) (x : Bool) : Statement (.vbext d a b x) := rfl
theorem vabs (d a : CReg) (x : Bool) : Statement (.vabs d a x) := rfl
theorem vneg (d a : CReg) (x : Bool) : Statement (.vneg d a x) := rfl
theorem vpopc (d a : CReg) (x : Bool) : Statement (.vpopc d a x) := rfl
theorem vclz (d a : CReg) (x : Bool) : Statement (.vclz d a x) := rfl
theorem vsel (d a b : CReg) (n : MReg) (x : Bool) : Statement (.vsel d a b n x) := rfl
theorem vaddScalar (d a : CReg) (b : SReg) (x : Bool) : Statement (.vaddScalar d a b x) := rfl
theorem vsubScalar (d a : CReg) (b : SReg) (x : Bool) : Statement (.vsubScalar d a b x) := rfl
theorem vmulScalar (d a : CReg) (b : SReg) (x : Bool) : Statement (.vmulScalar d a b x) := rfl
theorem vfmaScalar (d a : CReg) (b : SReg) (x : Bool) : Statement (.vfmaScalar d a b x) := rfl
theorem vfmsScalar (d a : CReg) (b : SReg) (x : Bool) : Statement (.vfmsScalar d a b x) := rfl
theorem vdivScalar (d a : CReg) (b : SReg) (x : Bool) : Statement (.vdivScalar d a b x) := rfl
theorem vminScalar (d a : CReg) (b : SReg) (x : Bool) : Statement (.vminScalar d a b x) := rfl
theorem vmaxScalar (d a : CReg) (b : SReg) (x : Bool) : Statement (.vmaxScalar d a b x) := rfl
theorem vandScalar (d a : CReg) (b : SReg) (x : Bool) : Statement (.vandScalar d a b x) := rfl
theorem vorScalar (d a : CReg) (b : SReg) (x : Bool) : Statement (.vorScalar d a b x) := rfl
theorem vxorScalar (d a : CReg) (b : SReg) (x : Bool) : Statement (.vxorScalar d a b x) := rfl
theorem vshlScalar (d a : CReg) (b : SReg) (x : Bool) : Statement (.vshlScalar d a b x) := rfl
theorem vshrScalar (d a : CReg) (b : SReg) (x : Bool) : Statement (.vshrScalar d a b x) := rfl
theorem vsraScalar (d a : CReg) (b : SReg) (x : Bool) : Statement (.vsraScalar d a b x) := rfl
theorem vfshScalar (d a : CReg) (b : SReg) (x : Bool) : Statement (.vfshScalar d a b x) := rfl
theorem vbextScalar (d a : CReg) (b : SReg) (x : Bool) : Statement (.vbextScalar d a b x) := rfl
theorem vselScalar (d a : CReg) (b : SReg) (n : MReg) (x : Bool) : Statement (.vselScalar d a b n x) := rfl
theorem vcmp (d : MReg) (a b : CReg) (c : Cond) : Statement (.vcmp d a b c) := rfl
theorem vcmpScalar (d : MReg) (a : CReg) (b : SReg) (c : Cond) : Statement (.vcmpScalar d a b c) := rfl
theorem vredsum (d : SReg) (a : CReg) (b : SReg) : Statement (.vredsum d a b) := rfl
theorem vredmax (d : SReg) (a : CReg) (b : SReg) : Statement (.vredmax d a b) := rfl
theorem vredmin (d : SReg) (a : CReg) (b : SReg) : Statement (.vredmin d a b) := rfl
theorem vcvt (d a : CReg) (x : Bool) : Statement (.vcvt d a x) := rfl
theorem vcvtSat (d a : CReg) (x : Bool) : Statement (.vcvtSat d a x) := rfl
theorem vexp2 (d a : CReg) (x : Bool) : Statement (.vexp2 d a x) := rfl
theorem vrcp (d a : CReg) (x : Bool) : Statement (.vrcp d a x) := rfl
theorem vsqrt (d a : CReg) (x : Bool) : Statement (.vsqrt d a x) := rfl
theorem vidx (d : CReg) (x : Bool) : Statement (.vidx d x) := rfl
theorem vmv (d a : CReg) (x : Bool) : Statement (.vmv d a x) := rfl
theorem vmvScalar (d : CReg) (a : SReg) (x : Bool) : Statement (.vmvScalar d a x) := rfl
theorem vperm (d a b : CReg) : Statement (.vperm d a b) := rfl
theorem vcomp (d a : CReg) (b : MReg) : Statement (.vcomp d a b) := rfl
theorem vexpd (d a : CReg) (b : MReg) : Statement (.vexpd d a b) := rfl
theorem vslide (d a : CReg) (b : SReg) : Statement (.vslide d a b) := rfl
theorem mand (d a b : MReg) : Statement (.mand d a b) := rfl
theorem mor (d a b : MReg) : Statement (.mor d a b) := rfl
theorem mxor (d a b : MReg) : Statement (.mxor d a b) := rfl
theorem mnot (d a : MReg) : Statement (.mnot d a) := rfl
theorem mpopc (d : SReg) (a : MReg) : Statement (.mpopc d a) := rfl
theorem mfirst (d : SReg) (a : MReg) : Statement (.mfirst d a) := rfl
theorem mset (d : MReg) (a b : SReg) : Statement (.mset d a b) := rfl
theorem mget (d : SReg) (a : MReg) (b : SReg) : Statement (.mget d a b) := rfl
theorem vbr (a : MReg) (o : BitVec 14) : Statement (.vbr a o) := rfl
theorem vjoin (o : BitVec 26) : Statement (.vjoin o) := rfl
theorem cnew (d : CReg) : Statement (.cnew d) := rfl
theorem cfree (d : CReg) : Statement (.cfree d) := rfl
theorem cshare (d a : CReg) : Statement (.cshare d a) := rfl
theorem cprep (d a : CReg) : Statement (.cprep d a) := rfl
theorem capp (d a : CReg) : Statement (.capp d a) := rfl
theorem cprepElement (d : CReg) (a : SReg) : Statement (.cprepElement d a) := rfl
theorem cappElement (d : CReg) (a : SReg) : Statement (.cappElement d a) := rfl
theorem ctrimH (d : CReg) (a : SReg) : Statement (.ctrimH d a) := rfl
theorem ctrimT (d : CReg) (a : SReg) : Statement (.ctrimT d a) := rfl
theorem csplit (d a : CReg) (b : SReg) : Statement (.csplit d a b) := rfl
theorem csplice (d a b : CReg) : Statement (.csplice d a b) := rfl
theorem clen (d : SReg) (a : CReg) : Statement (.clen d a) := rfl
theorem cseg (d : SReg) (a : CReg) (b : SReg) : Statement (.cseg d a b) := rfl
theorem cflat (d a : CReg) : Statement (.cflat d a) := rfl
theorem cget (d : SReg) (a : CReg) (b : SReg) : Statement (.cget d a b) := rfl
theorem cput (d : CReg) (a b : SReg) : Statement (.cput d a b) := rfl
theorem cspill (a : CReg) (b : SReg) : Statement (.cspill a b) := rfl
theorem cfill (d : CReg) (a : SReg) : Statement (.cfill d a) := rfl
theorem chld (d : CReg) (a : SReg) : Statement (.chld d a) := rfl
theorem chst (a : CReg) (b : SReg) : Statement (.chst a b) := rfl
theorem ctrimHImm (d : CReg) (n : BitVec 11) : Statement (.ctrimHImm d n) := rfl
theorem ctrimTImm (d : CReg) (n : BitVec 11) : Statement (.ctrimTImm d n) := rfl
theorem csplitImm (d a : CReg) (n : BitVec 11) : Statement (.csplitImm d a n) := rfl
theorem cgetImm (d : SReg) (a : CReg) (n : BitVec 11) : Statement (.cgetImm d a n) := rfl
theorem cputImm (d : CReg) (a : SReg) (n : BitVec 11) : Statement (.cputImm d a n) := rfl
theorem vld (d : CReg) (a : SReg) : Statement (.vld d a) := rfl
theorem vlds (d : CReg) (a b : SReg) : Statement (.vlds d a b) := rfl
theorem vldx (d : CReg) (a : SReg) (b : CReg) : Statement (.vldx d a b) := rfl
theorem vldff (d : CReg) (a : SReg) : Statement (.vldff d a) := rfl
theorem vldk (d : CReg) (a : SReg) (b : KReg) : Statement (.vldk d a b) := rfl
theorem vst (d : CReg) (a : SReg) : Statement (.vst d a) := rfl
theorem vsts (d : CReg) (a b : SReg) : Statement (.vsts d a b) := rfl
theorem vstx (d : CReg) (a : SReg) (b : CReg) : Statement (.vstx d a b) := rfl
theorem strm (d : CReg) (a : SReg) : Statement (.strm d a) := rfl
theorem strmx (d : CReg) (a : SReg) : Statement (.strmx d a) := rfl
theorem strmoff (d : CReg) : Statement (.strmoff d) := rfl
theorem cpy (a : SReg) : Statement (.cpy a) := rfl
theorem cpyx (a : SReg) : Statement (.cpyx a) := rfl
theorem cpyr (a : SReg) : Statement (.cpyr a) := rfl
theorem waitk (d : KReg) (a : SReg) : Statement (.waitk d a) := rfl
theorem ktest (d : SReg) (a : KReg) (b : SReg) : Statement (.ktest d a b) := rfl
theorem kclr (d : KReg) : Statement (.kclr d) := rfl
theorem fence (o : FenceOrder) (sc : Scope) : Statement (.fence o sc) := rfl
theorem ifence : Statement .ifence := rfl
theorem gbar (g : BitVec 8) : Statement (.gbar g) := rfl
theorem garr (g : BitVec 8) : Statement (.garr g) := rfl
theorem gwt (g : BitVec 8) : Statement (.gwt g) := rfl
theorem qpost (a : SReg) : Statement (.qpost a) := rfl
theorem vamo (d : CReg) (a : SReg) (b : CReg) (p : AmoOp) (o : VamoOrder) (sc : VamoScope) : Statement (.vamo d a b p o sc) := rfl
theorem oclaim (d : OReg) (a : SReg) : Statement (.oclaim d a) := rfl
theorem orel (d : OReg) : Statement (.orel d) := rfl
theorem oput (d : OReg) (a : CReg) : Statement (.oput d a) := rfl
theorem oget (d : CReg) (a : OReg) : Statement (.oget d a) := rfl
theorem mma (d : CReg) (a b : OReg) : Statement (.mma d a b) := rfl
theorem mmaz (d : CReg) (a b : OReg) : Statement (.mmaz d a b) := rfl
theorem bswalk (d : OReg) (a b : SReg) : Statement (.bswalk d a b) := rfl
theorem biasupd (d : OReg) (a : CReg) (b : SReg) : Statement (.biasupd d a b) := rfl
theorem tkon (a : SReg) : Statement (.tkon a) := rfl
theorem tkoff : Statement .tkoff := rfl
theorem tkget (d a : CReg) : Statement (.tkget d a) := rfl
theorem tksave (a : SReg) : Statement (.tksave a) := rfl
theorem tkload (a : SReg) : Statement (.tkload a) := rfl
theorem tnew (d : SReg) : Statement (.tnew d) := rfl
theorem tnewq (d : SReg) : Statement (.tnewq d) := rfl
theorem tset (a : SReg) : Statement (.tset a) := rfl
theorem tsets (a : SReg) : Statement (.tsets a) := rfl
theorem tget (d : SReg) : Statement (.tget d) := rfl
theorem tretTag (a : SReg) : Statement (.tretTag a) := rfl
theorem citw (a b : SReg) : Statement (.citw a b) := rfl
theorem citr (d a : SReg) : Statement (.citr d a) := rfl
theorem citp (a : SReg) (b : CReg) : Statement (.citp a b) := rfl
theorem stcm (d a : SReg) (z : Size) : Statement (.stcm d a z) := rfl
theorem vstcm (d : CReg) (a : SReg) : Statement (.vstcm d a) := rfl
theorem ldt (d a b : SReg) (z : Size) : Statement (.ldt d a b z) := rfl
theorem vldt (d : CReg) (a b : SReg) : Statement (.vldt d a b) := rfl
theorem doorbell (p q : Nat) : Statement (.doorbell p q) := rfl
theorem descriptorPoll (p q : Nat) : Statement (.descriptorPoll p q) := rfl
theorem strandPlace (p : Nat) : Statement (.strandPlace p) := rfl
theorem gangStart (p : Nat) : Statement (.gangStart p) := rfl
theorem recordComplete (p : Nat) : Statement (.recordComplete p) := rfl
theorem heldCompletionWrite (p q : Nat) : Statement (.heldCompletionWrite p q) := rfl
theorem copyNodeComplete (p n : Nat) : Statement (.copyNodeComplete p n) := rfl
theorem graphCopyFault (p n : Nat) : Statement (.graphCopyFault p n) := rfl
theorem chunkComplete (c j : Nat) : Statement (.chunkComplete c j) := rfl
theorem chunkFail (c j : Nat) : Statement (.chunkFail c j) := rfl
theorem streamRefill (sid : Nat) (r : CReg) : Statement (.streamRefill sid r) := rfl
theorem bufferReclaim (x : Nat) : Statement (.bufferReclaim x) := rfl
theorem allocGrant (sid : Nat) : Statement (.allocGrant sid) := rfl
theorem allocTimeout (sid : Nat) : Statement (.allocTimeout sid) := rfl
theorem tagGrant (p : Nat) : Statement (.tagGrant p) := rfl
theorem tagDrainComplete (p t : Nat) : Statement (.tagDrainComplete p t) := rfl
theorem slotGrant (x : Nat) (o : OReg) : Statement (.slotGrant x o) := rfl
theorem barrierDepart (sid : Nat) : Statement (.barrierDepart sid) := rfl
theorem waitkWake (sid : Nat) : Statement (.waitkWake sid) := rfl
theorem wfiWake (sid : Nat) : Statement (.wfiWake sid) := rfl
theorem convoyDrained (sid : Nat) : Statement (.convoyDrained sid) := rfl
theorem preemptionTaken (sid v : Nat) : Statement (.preemptionTaken sid v) := rfl
theorem priorityAge (sid : Nat) : Statement (.priorityAge sid) := rfl
theorem clockStepDown (sensor : Nat) : Statement (.clockStepDown sensor) := rfl
theorem pageMigrate (page dev : Nat) : Statement (.pageMigrate page dev) := rfl
theorem linkCrcError (link : Nat) (replayed retrained : Bool) : Statement (.linkCrcError link replayed retrained) := rfl
theorem correctedError (u : RasUnit) : Statement (.correctedError u) := rfl
theorem lastingFaultRetire (u : RasUnit) : Statement (.lastingFaultRetire u) := rfl
theorem fatalError (kind : BitVec 8) (loc : BitVec 32) : Statement (.fatalError kind loc) := rfl
theorem quadrantReady (q : Nat) : Statement (.quadrantReady q) := rfl
theorem readEventLog (host : Bool) : Statement (.readEventLog host) := rfl
theorem readDuskRecord (host : Bool) : Statement (.readDuskRecord host) := rfl
theorem readSensors (host : Bool) : Statement (.readSensors host) := rfl
theorem mailboxComplete (host : Bool) : Statement (.mailboxComplete host) := rfl
theorem unassignedOpcode (w : IWord) : Statement (.unassignedOpcode w) := rfl
theorem reservedFieldNotZero (w : IWord) : Statement (.reservedFieldNotZero w) := rfl
theorem hostMemoryAccess (pa bytes : Nat) (write : Option (List Byte)) : Statement (.hostMemoryAccess pa bytes write) := rfl
theorem peerMemoryAccess (dev addr : Nat) (op : PeerOp) : Statement (.peerMemoryAccess dev addr op) := rfl
theorem clockStepUp : Statement .clockStepUp := rfl
theorem migrationWindowEnd : Statement .migrationWindowEnd := rfl
theorem dawn : Statement .dawn := rfl
theorem writeFirmwareImage : Statement .writeFirmwareImage := rfl
theorem commitFirmwareImage : Statement .commitFirmwareImage := rfl
theorem loadKeySlot : Statement .loadKeySlot := rfl
theorem eraseKeySlot : Statement .eraseKeySlot := rfl
theorem fetchFault : Statement .fetchFault := rfl
theorem lanesplitWrite (d : SReg) : Statement (.lanesplitWrite d) := rfl
theorem poolDescriptorWrite (far : Bool) (d : SReg) : Statement (.poolDescriptorWrite far d) := rfl
theorem ptrootWrite (d : SReg) : Statement (.ptrootWrite d) := rfl
theorem pselWrite (d : SReg) : Statement (.pselWrite d) := rfl
theorem partitionCreate (d : SReg) : Statement (.partitionCreate d) := rfl
theorem pbootWrite (d : SReg) : Statement (.pbootWrite d) := rfl
theorem poolReset (d : SReg) : Statement (.poolReset d) := rfl
theorem preqWrite (d : SReg) : Statement (.preqWrite d) := rfl
theorem gnodeWrite (d : SReg) : Statement (.gnodeWrite d) := rfl
theorem grpentWrite (d : SReg) : Statement (.grpentWrite d) := rfl
theorem qpwrWrite (d : SReg) : Statement (.qpwrWrite d) := rfl
theorem tagcapWrite (d : SReg) : Statement (.tagcapWrite d) := rfl
theorem cellStoreWrite (size : Bool) (d : SReg) : Statement (.cellStoreWrite size d) := rfl
theorem fragcntWrite (d : SReg) : Statement (.fragcntWrite d) := rfl
theorem vlWrite (d : SReg) : Statement (.vlWrite d) := rfl
theorem vlmaxWrite (d : SReg) : Statement (.vlmaxWrite d) := rfl
theorem sheadWrite (d : SReg) : Statement (.sheadWrite d) := rfl
theorem gmWrite (d : SReg) : Statement (.gmWrite d) := rfl

end Sys2Proof.Laws.F
end

