-- ==== Sys2Proof/Tests/Slice0.lean ====
section
/-! SUPPORT. Tests: words written out from the encoding tables and what they decode to, ill-formed terms, the worked
examples of the rules, and for each claim with hypotheses the states and operands that meet them. -/

set_option Elab.async false

namespace Sys2Proof.Tests

open Sys2Proof Sys2Proof.Machine

/-! ### Decoding -/

/-- Each word, written out from the encoding tables of the rules (R55-R68), decodes to the instruction beside it. -/
def decodes (l : List (IWord × Instr)) : Bool := l.all fun x => (decodeWord x.1).toOption == some x.2

theorem test_decode_scalar_alu : decodes [
    (0x04000000, .nop), (0x040A9501, .svc 2709), (0x04000002, .tret), (0x04EAF903, .sysr 14 2809),
    (0x05FBF404, .sysw 31 3060), (0x04000005, .endStrand), (0x04000006, .wfi), (0x08896200, .add 8 37 34),
    (0x08A8C201, .sub 10 35 2), (0x0AB39302, .mul 43 14 19), (0x081FB503, .mulh 1 62 53),
    (0x0BCF6004, .mulhu 60 61 32), (0x0BDF3305, .div 61 60 51), (0x0AE55A06, .divu 46 21 26),
    (0x0B09F207, .rem 48 39 50), (0x0AF30108, .remu 47 12 1), (0x0B60C410, .and 54 3 4), (0x08952F11, .or 9 20 47),
    (0x0B8B6C12, .xor 56 45 44), (0x0A835C13, .shl 40 13 28), (0x0B8AE814, .shr 56 43 40), (0x086CDC15, .sra 6 51 28),
    (0x08EBFA16, .rotl 14 47 58), (0x0BEA7418, .min 62 41 52), (0x08320319, .max 3 8 3), (0x09E6E41A, .minu 30 27 36),
    (0x094EE41B, .maxu 20 59 36), (0x0A53AF1C, .slt 37 14 47), (0x09AE5E1D, .sltu 26 57 30), (0x091A8020, .clz 17 42),
    (0x09FE0021, .ctz 31 56), (0x0A3A8022, .popc 35 42), (0x0DAE68FF, .addi 26 57 10495),
    (0x115DA432, .andi 21 54 9266), (0x177F2B22, .ori 55 60 11042), (0x1AFE2FC2, .xori 47 56 12226),
    (0x1CED4024, .shli 14 53 36), (0x1D6B5012, .shri 22 45 18), (0x1C89602A, .srai 8 37 42),
    (0x22C37AE1, .slti 44 13 15073), (0x25C5EB71, .sltiu 28 23 11121), (0x2B4F4759, .lhi 52 1001305),
    (0x2C6F5B09, .pcadd 6 1006345)] = true := by decide +kernel

theorem test_decode_scalar_memory_and_branches : decodes [
    (0x31A55AE3, .lds 26 21 .h 2787), (0x3667EFBB, .ldu 38 31 .w 4027), (0x3A8DDF0D, .sts 40 55 .h 3853),
    (0x3DCE2548, .amo 28 56 .cas .rel .quad true), (0x43BAA5F3, .beq 59 42 9715), (0x47E27086, .bne 62 9 12422),
    (0x482D694E, .blt 2 53 10574), (0x4E6CF05C, .bge 38 51 12380), (0x5233B57D, .bltu 35 14 13693),
    (0x568AECDA, .bgeu 40 43 11482), (0x5B3C5A0A, .jal 51 809482), (0x5C173B58, .jalr 1 28 15192),
    (0x62310000, .strip 35 4), (0x62400000, .stripClose 36), (0x64600000, .snext 6), (0x690BC000, .setvl 16 47),
    (0x6AFEB6F8, .setvlx 47 58 5880)] = true := by decide +kernel

theorem test_decode_heads_and_bit_fields : decodes [
    (0x6F5C8710, .grp { inv := true, guard := 5, fa := 14, fb := 8, rnd := 3, sat := true, inf := false, g := 1 }),
    (0x735C8720, .grpk { inv := true, guard := 5, fa := 14, fb := 8, rnd := 3, sat := true, inf := false, g := 2 }),
    (0x772DCCF4, .bext 50 55 51 52), (0x7519182B, .bins 17 36 32 43), (0x77E7E700, .fsh 62 31 28)] = true := by decide +kernel

theorem test_decode_elementwise : decodes [
    (0x81E44480, .vadd 30 17 4 true), (0x8126D281, .vsub 18 27 18 true), (0x80F11382, .vmul 15 4 19 true),
    (0x81918F83, .vfma 25 6 15 true), (0x81359384, .vfms 19 22 19 true), (0x81D78D85, .vdiv 29 30 13 true),
    (0x81A15E86, .vmin 26 5 30 true), (0x81B28987, .vmax 27 10 9 true), (0x8186CE88, .vand 24 27 14 true),
    (0x80571B89, .vor 5 28 27 true), (0x80614C8A, .vxor 6 5 12 true), (0x81E64E8B, .vshl 30 25 14 true),
    (0x8020DC8C, .vshr 2 3 28 true), (0x8020428D, .vsra 2 1 2 true), (0x8066488E, .vfsh 6 25 8 true),
    (0x8065588F, .vbext 6 21 24 true), (0x81378090, .vabs 19 30 true), (0x80138091, .vneg 1 14 true),
    (0x80B68092, .vpopc 11 26 true), (0x81D38093, .vclz 29 14 true), (0x80939199, .vsel 9 14 17 1 true),
    (0x84F5A380, .vaddScalar 15 22 35 true), (0x84759B81, .vsubScalar 7 22 27 true),
    (0x84806882, .vmulScalar 8 1 40 true), (0x84511383, .vfmaScalar 5 4 19 true),
    (0x84617884, .vfmsScalar 6 5 56 true), (0x8581FC85, .vdivScalar 24 7 60 true),
    (0x85214C86, .vminScalar 18 5 12 true), (0x85539987, .vmaxScalar 21 14 25 true),
    (0x84C0F488, .vandScalar 12 3 52 true), (0x85C46A89, .vorScalar 28 17 42 true),
    (0x85B4BD8A, .vxorScalar 27 18 61 true), (0x84759B8B, .vshlScalar 7 22 27 true),
    (0x85C74E8C, .vshrScalar 28 29 14 true), (0x8453AD8D, .vsraScalar 5 14 45 true),
    (0x85D7078E, .vfshScalar 29 28 7 true), (0x84909B8F, .vbextScalar 9 2 27 true),
    (0x85B2179D, .vselScalar 27 8 23 5 true)] = true := by decide +kernel

theorem test_decode_compare_reduce_convert : decodes [
    (0x88235801, .vcmp 2 13 24 .ne), (0x8816BB09, .vcmpScalar 1 26 59 .ne), (0x8E407A00, .vredsum 36 1 58),
    (0x8FC5F601, .vredmax 60 23 54), (0x8CB2BD02, .vredmin 11 10 61), (0x9040C080, .vcvt 4 3 true),
    (0x9043C081, .vcvtSat 4 15 true), (0x90274082, .vexp2 2 29 true), (0x90B28083, .vrcp 11 10 true),
    (0x91A74084, .vsqrt 26 29 true), (0x90900088, .vidx 9 true), (0x90604089, .vmv 6 1 true),
    (0x9192808A, .vmvScalar 25 10 true)] = true := by decide +kernel

theorem test_decode_permutes_masks_divergence : decodes [
    (0x94960700, .vperm 9 24 7), (0x95B50101, .vcomp 27 20 1), (0x94C2C402, .vexpd 12 11 4),
    (0x95A45803, .vslide 26 17 24), (0x9860C400, .mand 6 3 4), (0x98414601, .mor 4 5 6), (0x98204402, .mxor 2 1 4),
    (0x98404003, .mnot 4 1), (0x98D18004, .mpopc 13 6), (0x99510005, .mfirst 21 4), (0x98399906, .mset 3 38 25),
    (0x99B08307, .mget 27 2 3), (0x9C302151, .vbr 3 8529), (0xA202EFD9, .vjoin 33746905)] = true := by decide +kernel

theorem test_decode_chains : decodes [
    (0xA4F00000, .cnew 15), (0xA4C00001, .cfree 12), (0xA4728002, .cshare 7 10), (0xA4F50003, .cprep 15 20),
    (0xA4C04004, .capp 12 1), (0xA5BD0005, .cprepElement 27 52), (0xA51F8006, .cappElement 17 62),
    (0xA5798007, .ctrimH 23 38), (0xA5DC0008, .ctrimT 29 48), (0xA4140F09, .csplit 1 16 15),
    (0xA4A2440A, .csplice 10 9 4), (0xA484400B, .clen 8 17), (0xA524540C, .cseg 18 17 20), (0xA432800D, .cflat 3 10),
    (0xA7129F0E, .cget 49 10 31), (0xA48D7C0F, .cput 8 53 60), (0xA4062310, .cspill 24 35),
    (0xA4CAC011, .cfill 12 43), (0xA5E04012, .chld 30 1), (0xA4038D13, .chst 14 13), (0xA87007B5, .ctrimHImm 7 1973),
    (0xA9100C47, .ctrimTImm 17 1095), (0xA8919755, .csplitImm 9 6 1877), (0xA8379E25, .cgetImm 3 30 1573),
    (0xA8D4A497, .cputImm 13 18 1175)] = true := by decide +kernel

theorem test_decode_vector_memory_and_copies : decodes [
    (0xAD328000, .vld 19 10), (0xAC8B6201, .vlds 8 45 34), (0xAC510302, .vldx 5 4 3), (0xAC674003, .vldff 6 29),
    (0xAD09C204, .vldk 16 39 2), (0xB08EC000, .vst 8 59), (0xB0AE7401, .vsts 10 57 52), (0xB0B71302, .vstx 11 28 19),
    (0xB59B8000, .strm 25 46), (0xB56F4001, .strmx 22 61), (0xB5300002, .strmoff 19), (0xB8010000, .cpy 4),
    (0xB80DC001, .cpyx 55), (0xB8024002, .cpyr 9), (0xBC234000, .waitk 2 13), (0xBD31AD01, .ktest 19 6 45),
    (0xBC400002, .kclr 4)] = true := by decide +kernel

theorem test_decode_sync : decodes [
    (0xC0000019, .fence .sc .core), (0xC0000020, .ifence), (0xC000E140, .gbar 225), (0xC0000860, .garr 8),
    (0xC000F480, .gwt 244), (0xC0000FA0, .qpost 15), (0xC48C1B9A, .vamo 8 48 27 .cas .rel .pkg)] = true := by decide +kernel

theorem test_decode_matrix_and_context : decodes [
    (0xC9E74000, .oclaim 30 29), (0xCA400001, .orel 36), (0xC9748002, .oput 23 18), (0xC9874003, .oget 24 29),
    (0xC8E5FC04, .mma 14 23 60), (0xC8398B05, .mmaz 3 38 11), (0xC8179706, .bswalk 1 30 23),
    (0xC8B23107, .biasupd 11 8 49), (0xCC040000, .tkon 16), (0xCC000001, .tkoff), (0xCC118002, .tkget 1 6),
    (0xCC0E0003, .tksave 56), (0xCC0D0004, .tkload 52), (0xD3C00000, .tnew 60), (0xD1F00001, .tnewq 31),
    (0xD0034002, .tset 13), (0xD004C003, .tsets 19), (0xD3A00004, .tget 58), (0xD00D8005, .tretTag 54),
    (0xD00B9906, .citw 46 25), (0xD0E7C007, .citr 14 31), (0xD00E5408, .citp 57 20), (0xD1B40011, .stcm 27 16 .h),
    (0xD0FF8014, .vstcm 15 62), (0xD6FB9503, .ldt 47 46 21 .d), (0xD47B2D08, .vldt 7 44 45)] = true := by decide +kernel
/-! ### States to test on -/

/-- `e` answers `a`, read off its option. -/
theorem okOf {ε α : Type} {e : Except ε α} {a : α} (h : e.toOption = some a) : e = .ok a := by
  cases e <;> simp_all [Except.toOption]

/-- `e` fails with `x`, read off its swap. -/
theorem errOf {ε α : Type} {e : Except ε α} {x : ε} (h : (match e with | .error y => some y | .ok _ => none) = some x) :
    e = .error x := by
  cases e <;> simp_all

def tPart : Partition :=
  { pbound := [(0, 0xFFFFFFFF00000000)], evec := 0x8000, cplxlo := 0xFF, tagcap := 4, cellbase := 0x100000, cellsize := 4
    tags := [(1, .live)] }
/-- A supervisor strand in slot 0 with four elements of i32. -/
def tStrand : Strand :=
  { resident := true, uid := 1, mode := .supervisor, pc := 0x1000, vl := 4, vlmax := 64, grant := 4, lanereq := 4, lanemin := 1
    gm := { fa := 8, fb := 8 } }
def tPool : Pool := { enable := true, bsize := 0, count := 8, free := [0, 1, 2, 3] }
def tCx : Machine.Complex := { near := tPool, far := { tPool with base := 0x20 } }
/-- Strand `t` alone on the package; the word after the one at its PC is a `nop`. -/
def tBase (t : Strand) : State :=
  { State.reset with
    strands := [(0, t)], parts := [(0, tPart)], cxs := [(0, tCx)], nextId := 10, mem := [(0x1007, 0x04)] }
/-- The scalar registers of the tests: addresses on the pages of `tPaged`, and small numbers. -/
def tRegs : Sparse Word :=
  [(1, 0x2000), (2, 0x4000002000), (3, 0x8000002000), (4, 0xC000002000), (5, 0x10000002000), (6, 0x2001), (7, 1), (8, 2),
   (9, 0xFFFFFFFFFFFFFFF9), (10, 0x3FFFFFFFF8)]
/-- Pages of 2^38 bytes from VA 0: plain, tagged, of format n2 and without permissions; the fifth is absent. -/
def tPaged (t : Strand) : State :=
  let s := { tBase t with parts := [(0, { tPart with ptroot := 0x40000 })] }
  (((((s.setBytes 0x40000 (leBytes 8 0x110000001)).setBytes 0x44000 (leBytes 8 0x1F)).setBytes 0x44008
    (leBytes 8 0x5F)).setBytes 0x44010 (leBytes 8 0x11F)).setBytes 0x44018 (leBytes 8 0x03))
def tOne : State := tPaged { tStrand with regs := tRegs, ctx := 1 }
/-- The state after instruction `i`. -/
def after (i : Instr) (s : State) : State := match exec i s with | .next t => t | _ => State.reset
/-- The page of an address of `tPaged`. -/
def pg (pa : Nat) : Page := { pa := pa, level := 1 }

/-! ### Witnesses: for each claim with hypotheses, states and operands that meet them -/

theorem test_witness_ScalarLoads :
    tOne.check tOne.myAccess (tOne.reg 1 + wrap64 (0xFF8 : BitVec 12).toInt).toNat 8 true false = .ok (pg 0x1FF8)
    ∧ tOne.check tOne.myAccess (tOne.reg 10 + wrap64 (0 : BitVec 12).toInt).toNat 8 true false = .ok (pg 0x3FFFFFFFF8)
    ∧ tOne.check { tOne.myAccess with tag := (tOne.reg 7).toNat } (tOne.reg 2).toNat 2 true false
      = .ok { pg 0x2000 with tagged := true } := by decide +kernel

/-- A store to a peer's memory whose last link may be failing. -/
def tPeer (l : Option Nat) : State := { tBase { tStrand with regs := [(5, 0x430000002000)] } with peers := [3], losing := l }

theorem test_witness_ScalarStores :
    let t := { pg 0x2000 with tagged := true }
    (pg 0x1FF8).pa < mboxBase ∧ tOne.lost (pg 0x1FF8).pa = false ∧ tOne.cellSound tOne.myAccess (pg 0x1FF8)
    ∧ tOne.check tOne.myAccess (tOne.reg 1 + wrap64 (0xFF8 : BitVec 12).toInt).toNat 8 false true = .ok (pg 0x1FF8)
    ∧ tOne.cellSound tOne.myAccess t ∧ tOne.check tOne.myAccess (tOne.reg 2).toNat 8 false true = .ok t
    ∧ tOne.check { tOne.myAccess with tag := 0 } (tOne.reg 2).toNat 8 false true = .ok t
    ∧ ((tPeer (some 3)).lost 0x430000002000 = true
      ∧ (tPeer (some 3)).check (tPeer (some 3)).myAccess 0x430000002000 4 false true
        = .ok { pa := 0x430000002000, direct := true }) := by
  unfold State.cellSound; decide +kernel

/-- A write of granule 0x400 by another agent. -/
def tTouch : Touch := { agent := 7, epoch := 1, family := 7, name := .strand 9 }

theorem test_witness_ScalarAccessChecks :
    let s := tOne
    let va := s.reg 1
    let t := tPaged { tStrand with regs := tRegs, ctx := 2 }
    let full := { s with parts := [(0, { s.part 0 with cellsize := 0 })] }
    let drain := { s with parts := [(0, { s.part 0 with
      cellsize := 1, tags := [(1, .live), (2, .draining 0)], cells := [{ line := 9, tag := 2, idx := 0 }] })] }
    let high := s.setBytes 0x44020 (leBytes 8 (0x5F + 2 ^ 53))
    let raced := { s with order := { grans := [(0x400, { writes := [tTouch] })] } }
    let P := pg 0x2000
    let T := { P with tagged := true }
    let at_ (s : State) (r : SReg) (load store : Bool) (g : Page) : Prop :=
      (s.reg r).toNat % 8 = 0 ∧ s.page s.me.part s.me.mode (s.reg r).toNat = some g
        ∧ s.permits s.me.part s.me.mode g load store false = true
    ((s.reg 6).toNat % 8 ≠ 0
    ∧ ((s.reg 5).toNat % 8 = 0 ∧ s.page s.me.part s.me.mode (s.reg 5).toNat = none)
    ∧ (s.page s.me.part s.me.mode (s.reg 4).toNat = some { P with exec := false, write := false, read := false }
      ∧ s.permits s.me.part s.me.mode { P with exec := false, write := false, read := false } true false false = false
      ∧ s.permits s.me.part s.me.mode { P with exec := false, write := false, read := false } false true false = false)
    ∧ at_ s 3 true true { P with format := 1 }
    ∧ (at_ high 5 true true { pg (2 ^ 39 + 0x2000) with tagged := true } ∧ dramTop ≤ 2 ^ 39 + 0x2000)
    ∧ (at_ t 2 true true T ∧ t.me.ctx ≠ 0 ∧ Sparse.get .free t.me.ctx.toNat t.myPart.tags ≠ .live)
    ∧ (at_ full 2 false true T ∧ full.needsCell full.myAccess T = true
      ∧ Sparse.get .free full.me.ctx.toNat full.myPart.tags = .live
      ∧ full.myPart.takeCell = none ∧ full.myPart.drainPending = false)
    ∧ (at_ drain 2 false true T ∧ drain.needsCell drain.myAccess T = true ∧ drain.myPart.takeCell = none
      ∧ drain.myPart.drainPending = true)
    ∧ (at_ { s with badLines := [0x80] } 1 true false P ∧ { s with badLines := [0x80] }.broken 0x2000 = true)
    ∧ (at_ { s with poison := [0x80] } 1 false true P ∧ { s with poison := [0x80] }.marked 0x2000 = true)
    ∧ (s.locate s.myAccess P = 0x2000 ∧ s.lost 0x2000 = false ∧ s.broken 0x2000 = false ∧ s.marked 0x2000 = false
      ∧ (s.granule 0x400).writes = [])
    ∧ (at_ (tPeer (some 3)) 5 true false { pa := 0x430000002000, direct := true } ∧ (tPeer (some 3)).lost 0x430000002000 = true) ∧ va = 0x2000)
    ∧ at_ raced 1 true false P ∧ raced.rival P (raced.locate raced.myAccess P) 8 false tTouch :=
  ⟨by decide +kernel, by decide +kernel, rfl, rfl, rfl, by decide +kernel, ⟨0x400, by decide +kernel⟩, by decide +kernel⟩

theorem test_witness_AtomicAccess :
    tOne.checkAtomic tOne.myAccess (tOne.reg 1).toNat 4 = .ok (pg 0x2000)
    ∧ tOne.checkAtomic tOne.myAccess (tOne.reg 10).toNat 8 = .ok (pg 0x3FFFFFFFF8)
    ∧ atomicWrites .cas 4 0 1 2 = none ∧ tOne.needsCell tOne.myAccess (pg 0x2000) = false
    ∧ tOne.checkAtomic tOne.myAccess (tOne.reg 2).toNat 8 = .ok { pg 0x2000 with tagged := true }
    ∧ tOne.myPart.takeCell.isSome ∧ tOne.cellSound tOne.myAccess { pg 0x2000 with tagged := true } := by
  unfold State.cellSound; decide +kernel

theorem test_witness_SystemInstructions : (tBase tStrand).me.mode ≠ .user ∧ (tBase { tStrand with mode := .user }).me.mode = .user := by
  decide +kernel

/-- A copy of strand 1 with a chunk to move. -/
def tCopying : Copy :=
  { id := 3, owner := .strand 1, part := 0, cplx := 0, mode := .user, tag := 0, blockVa := 0, block := [], segs := []
    todo := [0], failed := [], done := [], counts := true, fault := none, clk := [] }

theorem test_witness_StrandEnds :
    let s := tBase { tStrand with mode := .user, origin := { kind := .record, grouped := true }, grpmem := 0xFFFFFF03 }
    let park (id : BitVec 16) : State := tBase { tStrand with estatus := 2, parkid := id }
    let copying := { s with copies := [tCopying] }
    (s.inFlight s.me.uid = [] ∧ ¬ (s.me.mode = .supervisor ∧ s.me.estatus.getLsbD 1 = true)
      ∧ (groupIds s.me.grpmem.toNat).Nodup)
    ∧ copying.inFlight copying.me.uid ≠ []
    ∧ ((park 0).me.mode = .supervisor ∧ (park 0).me.estatus.getLsbD 1 = true ∧ (park 0).me.parkid = 0)
    ∧ ((park 9).inFlight (park 9).me.uid = [] ∧ (park 9).me.mode = .supervisor ∧ (park 9).me.estatus.getLsbD 1 = true
      ∧ (park 9).me.parkid ≠ 0 ∧ (park 9).myPart.parked = []) := by decide +kernel

theorem test_witness_StripLoops :
    let s := tBase { tStrand with shead := 0x1004, srem := 5 }
    (s.me.shead ≠ 0 ∧ s.me.srem ≠ 0 ∧ s.me.frags = [])
    ∧ (tBase { s.me with srem := 0 }).me.srem = 0
    ∧ (tBase tStrand).me.shead = 0
    ∧ (tBase { tStrand with frags := [{}] }).me.frags ≠ []
    ∧ (tBase tStrand).waiter (tBase tStrand).me.part (tBase tStrand).myCx (sideOf (tBase tStrand).cur) = none := by
  decide +kernel

theorem test_witness_SysRegisterReads :
    let s := tBase tStrand
    let u := tBase { tStrand with mode := .user }
    let run := tBase { tStrand with fragsel := 0x10 }
    (s.me.mode = .supervisor ∧ ¬ ((0x206 : BitVec 12).toNat = 0x305 ∨ 0x50C ≤ (0x206 : BitVec 12).toNat))
    ∧ (u.me.mode = .user ∧ ¬ (0x200 ≤ 0x00C ∨ 0x200 = 0x100 ∨ 0x200 = 0x101 ∨ 0x200 = 0x304))
    ∧ (run.me.fragsel.getLsbD 4 = true ∧ s.me.fragsel.getLsbD 4 = false)
    ∧ ¬ (0x510 ≤ 0x50F ∨ (0x510 : Nat) = 0x411) := by decide +kernel

theorem test_witness_SysStrandWrites :
    let s := tBase { tStrand with regs := [(1, 0x500000), (2, 0x3E0000)] }
    let u := tBase { tStrand with mode := .user }
    let frag (sel : BitVec 26) : State := tBase { tStrand with frags := [{}], fragsel := sel, regs := [(1, 2)] }
    ((u.sysValue 0x200).isSome ∧ u.me.mode = .user) ∧ s.sysValue 0xFFF = none ∧ s.me.mode ≠ .user
    ∧ ((frag 0).me.fragsel.getLsbD 4 = false ∧ (frag 0).me.fragsel.toNat % 16 < (frag 0).me.frags.length
      ∧ ((frag 0).reg 1).getLsbD 1 = true ∧ ((frag 0).reg 2).getLsbD 1 = false)
    ∧ (¬ (frag 1).me.fragsel.toNat % 16 < (frag 1).me.frags.length)
    ∧ ((frag 16).me.fragsel.getLsbD 4 = true ∧ (frag 16).me.frags ≠ [])
    ∧ badMode ((s.reg 1).toNat / 2 ^ 17 % 32) ((s.reg 1).toNat / 2 ^ 12 % 32) ((s.reg 1).toNat / 2 ^ 9 % 8)
        ((s.reg 1).toNat / 16 % 8) = false
    ∧ badMode ((s.reg 2).toNat / 2 ^ 17 % 32) ((s.reg 2).toNat / 2 ^ 12 % 32) ((s.reg 2).toNat / 2 ^ 9 % 8)
        ((s.reg 2).toNat / 16 % 8) = true := by decide +kernel

/-- A queue whose head record, a sound one, is ready; `d2` holds its lanes and `d3` its groups. -/
def tQueue (d2 d3 : Word) : QState :=
  { enabled := true, ringbase := 0x3000, ringsize := 8, cplbase := 0x3800, cplsize := 8, readTo := 1, count := 1
    recs := [{ idx := 0, seq := 0, words := [0x1000, 5, d2, d3, 0x77], capable := true, verdict := some .ok
               started := false }] }

/-- The partition of the tests, on complexes 0 and 1, with that queue. -/
def tLaunch (d2 d3 : Word) : Partition := { tPart with cplxlo := 3, queues := [(0, tQueue d2 d3)], ready := [.queue 0] }
/-- The strand of the tests in the first slot of complex 1, and partition `p`. -/
def tOn1 (p : Partition) : State :=
  { tBase tStrand with strands := [(16, tStrand)], cur := 16, cxs := [(1, tCx)], parts := [(0, p)] }

theorem test_witness_StripLoops_waiter :
    let s := tOn1 (tLaunch 0xFFFF000000580040 0xFFFFFFFF)
    s.me.frags = [] ∧ s.waiter s.me.part s.myCx (sideOf s.cur) = some (5, 4) := by decide +kernel

/-- The monitor strand of the tests, with `v` in s1. -/
def tMon (v : Word) : State :=
  let s := tBase { tStrand with mode := .monitor, regs := [(1, v)] }
  { s with parts := [(0, { tPart with pbound := [], cplxlo := 2 })], cxs := [(0, tCx)] }
/-- A graph copy whose chunk 0 has failed. -/
def tNodeCopy : Copy :=
  { id := 3, owner := .node 0 2 0, part := 0, cplx := 0, mode := .user, tag := 0, blockVa := 0x2000, block := [], segs := []
    todo := [], failed := [0], done := [], counts := true, fault := some (0, 0, .notPresent, 0x9000), clk := [] }

theorem test_witness_SysSharedWrites :
    let s := { tBase { tStrand with regs := [(1, 0x8100000000000004), (2, 0xC00000000), (3, 2)] } with
      cxs := [(0, { tCx with near := {} })], parts := [(0, { tPart with faultedNodes := [2] })], copies := [tNodeCopy] }
    (s.me.mode ≠ .user ∧ ¬ 8 < bitsOf (s.reg 1).toNat 11 8 + bitsOf (s.reg 1).toNat 15 12)
    ∧ (bitsOf (s.reg 1).toNat 58 56 ≠ 7 ∧ ¬ 2 ^ 22 < bitsOf (s.reg 1).toNat 23 0 * (64 * 2 ^ bitsOf (s.reg 1).toNat 58 56)
      ∧ (s.pool 0 false).enable = false ∧ (s.reg 1).getLsbD 63 = true)
    ∧ ((s.part 0).grpsel ≠ 255 ∧ ((s.part 0).group (s.part 0).grpsel.toNat).resident = 0
      ∧ ((s.part 0).group (s.part 0).grpsel.toNat).arrived = 0)
    ∧ ((s.part 0).preqBusy = false ∧ (s.strand ((s.reg 2).toNat % 2048)).resident = true
      ∧ (s.strand ((s.reg 2).toNat % 2048)).part = 0)
    ∧ (s.nodeCopy s.sysPart ((s.reg 3).toNat % 65536) = some tNodeCopy
      ∧ (s.part s.sysPart).faultedNodes.contains ((s.reg 3).toNat % 65536) = true) := by decide +kernel

theorem test_witness_SysSharedWrites_monitor :
    let s := tMon 0x8000000000000003
    let e := { s with psel := 0x10000, cxs := [(0, tCx), (1, tCx)] }
    let full := { e with cxs := [(0, tCx), (1, { tCx with reclaim := [4] })] }
    (s.me.mode = .monitor ∧ s.poolsUsed s.sysCx = true)
    ∧ (e.poolsUsed e.sysCx = false ∧ (e.cx e.sysCx).reclaim = [])
    ∧ (full.poolsUsed full.sysCx = false ∧ (full.cx full.sysCx).reclaim ≠ [])
    ∧ (tMon 3).me.mode = .monitor ∧ (((tMon 3).reg 1).getLsbD 63 = false)
    ∧ s.ofPart ((s.reg 1).toNat % 16) = [] ∧ (s.copies = [] ∧ (s.part ((s.reg 1).toNat % 16)).parked = [])
    ∧ (((tMon 0).reg 1).getLsbD 3 = false ∧ (tMon 0).mayGate 3 = true)
    ∧ { tMon 0 with parts := [(0, tPart)] }.mayGate 3 = false
    ∧ (s.me.resident = true ∧ (s.part s.sysPart).firstCx = some 1 ∧ s.freeSlot 1 0 = some 16 ∧ s.freeUnits 1 0 ≠ 0) := by
  decide +kernel

/-- The registers of complex 1 and partition 2 as a monitor strand reaches them: a claimed slot, the entry that is never
valid and one that may be, and a tag in each state. -/
theorem test_witness_SysRegisterReads_shared :
    let tags (sel : BitVec 16) : Partition := { tPart with tagcap := 3, tagsel := sel, tags := [(1, .live), (2, .draining 5)] }
    let s (sel : BitVec 16) (g : BitVec 8) : State :=
      { tMon 0 with psel := 0x10002, parts := [(2, { tags sel with grpsel := g })]
                    cxs := [(1, { tCx with slots := [(0, { owner := some 9, sid := 40 })] })] }
    ((s 0 255).me.mode = .monitor ∧ (s 0 255).sysCx = 1 ∧ (s 0 255).sysPart = 2 ∧ (tBase tStrand).me.mode ≠ .monitor)
    ∧ (((s 0 255).cx 1).slot 0).sid < 2048 ∧ ((s 0 255).part 2).grpsel = 255 ∧ ((s 0 3).part 2).grpsel ≠ 255
    ∧ (((s 1 0).part 2).tag 1 = .live ∧ ((s 2 0).part 2).tag 2 = .draining 5 ∧ ((s 3 0).part 2).tag 3 = .free
      ∧ ((s 4 0).part 2).tag 4 = .free ∧ (3 : BitVec 16).toNat < (4 : BitVec 16).toNat) := by decide +kernel

/-- Writes of a shared register that are ignored, or that wait. -/
theorem test_witness_SysSharedWrites_ignored :
    let pool : Pool := { enable := true, count := 3, free := [0, 1] }
    let s := { tBase { tStrand with regs := [(1, 0x8000000000000004), (2, 7)] } with cxs := [(0, { tCx with near := pool })] }
    let part (p : Partition) : State := { s with parts := [(0, p)] }
    let made (l : List Copy) : State := { tMon 0x8000000000000003 with copies := l }
    ((s.pool 0 false).enable = true ∧ (s.pool 0 false).free.length ≠ (s.pool 0 false).count.toNat
      ∧ bitsOf (s.reg 1).toNat 23 0 ≠ (s.pool 0 false).count.toNat ∧ bitsOf (s.reg 1).toNat 58 56 ≠ 7)
    ∧ ({ pool with free := [0, 1, 2] }.free.length = pool.count.toNat ∧ (s.reg 2).getLsbD 63 = false)
    ∧ ((part { tPart with grpsel := 255 }).part 0).grpsel = 255
    ∧ (((part { tPart with groups := [(0, { valid := true, resident := 1 })] }).part 0).group 0).resident ≠ 0
    ∧ ((part { tPart with preqBusy := true }).part 0).preqBusy = true
    ∧ ((s.part 0).preqBusy = false ∧ (s.strand ((s.reg 2).toNat % 2048)).resident = false)
    ∧ (tBase { tStrand with regs := [(1, 0)] }).ofPart 0 ≠ []
    ∧ ((made []).ofPart 3 = [] ∧ ∃ k ∈ (made [{ tCopying with part := 3 }]).copies, k.part = 3 ∧ k.todo ≠ []
      ∧ k.owner = .strand 1) := by decide +kernel

/-! ### Convoys -/

/-- The word after the executing instruction is the `nop` of `tBase`. -/
theorem nopNext {s : State} (h : (s.fetch s.cur (s.me.pc + 4).toNat).toOption = some 0x04000000) : s.scalarNext :=
  ⟨0x04000000, .nop, okOf h, okOf (by decide +kernel), rfl⟩

/-- What `Opens` asks beside the member and the word after it. -/
def opensB (s : State) (m : Member) : Bool :=
  m.fits && !m.clash && ((m.reads ++ m.writes).all fun c => !s.me.streamed c) && (m.writes.all fun c => !s.copyInto c)
    && !twice m.writes && (s.me.gm.gk || m.mwrite != some s.me.gm.guard)

theorem opensOf {i : Instr} {s : State} {m : Member} (hm : memberOf s.me.gm i = some m)
    (hn : m.closes = true ∨ s.scalarNext) (h : opensB s m = true) : Opens i s m := by
  simp only [opensB, Bool.and_eq_true, Bool.not_eq_true', List.all_eq_true, Bool.or_eq_true, bne_iff_ne] at h
  obtain ⟨⟨⟨⟨⟨h1, h2⟩, h3⟩, h4⟩, h5⟩, h6⟩ := h
  exact ⟨hm, hn, h1, h2, h3, h4, h5, h6⟩

theorem aloneOf {i : Instr} {s : State} {m : Member} (ho : Opens i s m)
    (h : s.me.vstart = 0 ∧ s.me.gm.gk = false ∧ s.me.redlive = 0 ∧ s.me.memdone = 0) : Alone i s m :=
  ⟨ho, h.1, h.2.1, h.2.2⟩

/-- What a convoy of one member asks of the state beside the member: the word after it, a `nop`, and that nothing is
carried over from an interruption. -/
def aloneB (s : State) (m : Member) : Bool :=
  (m.closes || (s.fetch s.cur (s.me.pc + 4).toNat).toOption == some 0x04000000) && opensB s m && s.me.vstart == 0
    && !s.me.gm.gk && s.me.redlive == 0 && s.me.memdone == 0

theorem aloneIn {i : Instr} {s : State} {m : Member} (hm : memberOf s.me.gm i = some m) (h : aloneB s m = true) :
    Alone i s m := by
  simp only [aloneB, Bool.and_eq_true, Bool.or_eq_true, beq_iff_eq, Bool.not_eq_true'] at h
  obtain ⟨⟨⟨⟨⟨h1, h2⟩, h3⟩, h4⟩, h5⟩, h6⟩ := h
  exact aloneOf (opensOf hm (h1.imp id nopNext) h2) ⟨h3, h4, h5, h6⟩

/-- What `hasBuffers` asks, as one decidable proposition. -/
theorem buffersOf {s : State} {k rows : Nat}
    (h : (rows * k ≠ 0 → s.myPool.enable = true) ∧ rows * k ≤ s.myPool.free.length ∧ s.behind s.myCx s.me.farPool = false
      ∧ s.myPool.free.Nodup ∧ (∀ i ∈ s.myPool.free, i < 2 ^ 23) ∧ s.me.farPool = false ∧ k ≤ 32) : s.hasBuffers k rows := by
  obtain ⟨h1, h2, h3, h4, h5, h6, h7⟩ := h
  exact ⟨h1, h2, h3, h4, h5, fun h => absurd h (by simp [h6]), h7⟩

/-- Two chains of four i32 elements in buffer 4 of the near pool, 7, -1, 0x7FFFFFFF, 2 and 1, 2, 3, 0; s1 holds 5. -/
def tVecStrand : Strand :=
  { tStrand with regs := [(1, 5), (2, 0x2000)]
                 chains := [(1, { segs := [⟨4, 0, 16⟩] }), (2, { segs := [⟨4, 16, 16⟩] })] }
def tWith (t : Strand) : State :=
  let s := tBase t
  { s with cxs := [(0, { tCx with sram := [(256, 7), (260, 0xFF), (261, 0xFF), (262, 0xFF), (263, 0xFF), (264, 0xFF), (265, 0xFF),
                                           (266, 0xFF), (267, 0x7F), (268, 2), (272, 1), (276, 2), (280, 3)] })] }
def tVec : State := tWith tVecStrand

theorem tVec_next : tVec.scalarNext := nopNext (by decide +kernel)

theorem test_witness_GroupModes :
    badMode 31 8 0 0 = true ∧ badMode 8 8 0 0 = false ∧ tVec.scalarNext := ⟨rfl, rfl, tVec_next⟩

/-- The words of `l` after the executing instruction. -/
def tProg (s : State) (l : List Nat) : State := s.setBytes (s.me.pc + 4).toNat (l.flatMap (leBytes 4))

/-- What two members of one convoy ask of the words after the first. -/
theorem gathersTwo {s : State} {i j : Instr} {m n : Member} {w : IWord} (h : memberOf s.me.gm i = some m ∧ m.closes = false)
    (hf : (s.fetch s.cur (s.me.pc + 4).toNat).toOption = some w) (hd : (decodeWord w).toOption = some j)
    (hn : memberOf s.me.gm j = some n) : s.gathers i [m, n] := by
  refine ⟨by simp, h.1, fun k x hk hx => ?_, fun k x hk hx => ?_⟩
  · match k, hk, hx with
    | 1, _, hx => cases hx; exact ⟨w, j, okOf hf, okOf hd, hn⟩
  · match k, hk, hx with
    | 0, _, hx => cases hx; exact h.2

/-- A second `vadd` that writes c3 again. -/
def tTwice : State := tProg tVec [0x80304200]

theorem test_witness_GroupModes_defects :
    let m := memberVadd 3 1 2 false tTwice.me.gm
    tTwice.gathers (.vadd 3 1 2 false) [m, m] ∧ tTwice.soundAt [m, m] 0 m ∧ tTwice.breaksLimit [m, m] 1 m
    ∧ (memberVadd 3 1 2 false { fa := 8, fb := 14 }).fits = false
    ∧ (∃ c ∈ (memberVadd 6 1 2 false tVec.me.gm).writes,
        (tWith { tStrand with chains := [(6, { segs := [], stream := some {
          block := [], far := false, tag := 0, mode := .user, q := 0, held := none, ahead := [], fetched := 0, bad := none
          agent := 9 } })] }).me.streamed c = true) := by
  refine ⟨gathersTwo (j := .vadd 3 1 2 false) ⟨rfl, rfl⟩ (w := 0x80304200) (by decide +kernel) (by decide +kernel) rfl,
    ⟨rfl, by decide +kernel, by unfold State.breaksLimit; decide +kernel⟩,
    .inr (.inr (.inr (.inr (.inr (.inl ⟨3, by decide +kernel, _, List.mem_singleton.mpr rfl, .inl (by decide +kernel)⟩))))),
    by decide +kernel, 6, by decide +kernel⟩

theorem test_witness_IntegerElements :
    let g : Gm := { fa := 8, fb := 8 }
    g.fmtA.isInt = true ∧ g.fmtB.isInt = true ∧ 0xFFFFFFFF < 2 ^ g.fmtA.bits ∧ 0x80000000 < 2 ^ g.fmtB.bits
      ∧ 0 < 2 ^ g.fmtA.bits := by decide +kernel

/-- Two floating formats, one of each kind, and a K-group of 32 products and a shorter one. -/
theorem test_witness_IntegerElements_floating :
    let g : Gm := { fa := 14, fb := 16 }
    let h : Gm := { fa := 8, fb := 13 }
    (g.fmtA.isInt = false ∧ Fmt.ofCode 14 = some g.fmtA ∧ g.fmtB.isInt = false ∧ Fmt.ofCode 16 = some g.fmtB)
    ∧ (0x3F800000 < 2 ^ g.fmtA.bits ∧ 0xFF < 2 ^ g.fmtB.bits ∧ g.fmtA.spec.ieee = true)
    ∧ ((h.fmtA.isInt != h.fmtB.isInt) = true ∧ Fmt.ofCode 8 = some h.fmtA ∧ Fmt.ofCode 13 = some h.fmtB)
    ∧ ((List.replicate 32 (1, 2)).length = 32 ∧ [(1, 2)] ≠ [] ∧ [(1, 2)].length ≤ 32 ∧ 0x7FC00000 < 2 ^ 32) := by decide +kernel

/-- The example of R114: two to the power 0.5, and to the power -2.75. -/
theorem test_vexp2_series : opExp2 .fp32 rneMode 0x3F000000 = (0x3FB50000, 0) ∧ opExp2 .fp32 rneMode 0xC0300000 = (0x3E183800, 0) := by
  decide +kernel

theorem tVec_add : Alone (.vadd 3 1 2 false) tVec (memberVadd 3 1 2 false tVec.me.gm) := aloneIn rfl (by decide +kernel)

/-- The sums of the elements of the two chains, wrapped (R96). -/
def tSums (e : Nat) : Nat × Flags := ([8, 1, 0x80000002, 2].getD e 0, 0)

theorem tVec_buffers : tVec.hasBuffers 1 := buffersOf (by decide +kernel)

theorem test_witness_ElementwiseConvoy :
    let s := tVec
    let m := memberVadd 3 1 2 false s.me.gm
    ∃ op, elementwise (.vadd 3 1 2 false) = true ∧ Alone (.vadd 3 1 2 false) s m ∧ m.body = .map op none none false
      ∧ m.dests = [(3, 32)] ∧ (∀ e, e < s.countFor m → s.mapElement m op none none false e = .val (tSums e))
      ∧ s.hasBuffers (s.buffersFor (pack 32 ((List.range (s.countFor m)).map fun e => (tSums e).1)).length) :=
  ⟨_, rfl, tVec_add, rfl, rfl, by decide +kernel, tVec_buffers⟩

/-- 513 elements and buffers of 64 bytes: one segment more than a chain holds. -/
def tLong : State :=
  let s := tWith { tVecStrand with vl := 513, vlmax := 4096 }
  { s with cxs := [(0, { s.cx 0 with near := { tPool with count := 64, free := List.range 32 } })] }

theorem test_witness_ElementwiseConvoy_spine :
    let m := memberVidx 3 false tLong.me.gm
    ∃ op, Alone (.vidx 3 false) tLong m ∧ m.body = .map op none none false ∧ m.dests = [(3, 32)]
      ∧ (∀ e, e < tLong.countFor m → tLong.mapElement m op none none false e = .val (e, 0))
      ∧ 32 < tLong.buffersFor (4 * tLong.countFor m) ∧ tLong.hasBuffers 32 :=
  ⟨_, aloneIn rfl (by decide +kernel), rfl, rfl, by decide +kernel, by decide +kernel, buffersOf (by decide +kernel)⟩

/-- c3 = c1 + c2 and c4 = -c3, in one convoy. -/
def tPair : State := tProg tVec [0x8040C011, 0x04000000]
def tPairMembers : List Member := [memberVadd 3 1 2 false tPair.me.gm, memberVneg 4 3 false tPair.me.gm]
/-- The results of the two, and what member `p` computes. -/
def tPairOut (p e : Nat) : Nat × Flags := if p = 0 then tSums e else ([0xFFFFFFF8, 0xFFFFFFFF, 0x7FFFFFFE, 0xFFFFFFFE].getD e 0, 0)
def opOf (m : Member) : Nat → List Nat → Nat → Bool → Nat × Flags := match m.body with | .map op _ _ _ => op | _ => fun _ _ _ _ => (0, 0)
def tPairOp (p : Nat) : Nat → List Nat → Nat → Bool → Nat × Flags :=
  opOf (if p = 0 then memberVadd 3 1 2 false tPair.me.gm else memberVneg 4 3 false tPair.me.gm)
/-- The operands of member `p`, the results of the one before it among them. -/
def tPairSrc (p : Nat) (c : Src) (e : Nat) : Got Nat :=
  if p = 1 ∧ c.reg = 3 then .val (tPairOut 0 e).1 else tPair.operand c e

theorem test_witness_ElementwiseConvoy_pair :
    let s := tPair
    let ms := tPairMembers
    let d (p : Nat) : CReg := if p = 0 then 3 else 4
    s.convoyOf (.vadd 3 1 2 false) ms ∧ s.me.vstart = 0 ∧ s.me.gm.gk = false ∧ s.me.redlive = 0 ∧ s.me.memdone = 0
    ∧ (∀ p m, ms[p]? = some m → s.soundAt ms p m ∧ m.body = .map (tPairOp p) none none false ∧ m.dests = [(d p, 32)]
      ∧ s.copyInto (d p) = false ∧ (∀ c ∈ m.reads, s.me.streamed c = false)
      ∧ m.bound.foldl (fun k c => Min.min k (if p = 1 then 4 else s.lenOf c)) s.me.vl.toNat = 4
      ∧ ∀ e, e < 4 → s.mapFrom (tPairSrc p) m (tPairOp p) none none false e = .val (tPairOut p e))
    ∧ s.hasBuffers 1 2 := by
  refine ⟨⟨gathersTwo (j := .vneg 4 3 false) ⟨rfl, rfl⟩ (w := 0x8040C011) (by decide +kernel) (by decide +kernel) rfl,
    0x04000000, .nop, okOf (by decide +kernel), okOf (by decide +kernel), rfl⟩, ?_, ?_, ?_, ?_, fun p m h => ?_, ?_⟩
  · decide +kernel
  · decide +kernel
  · decide +kernel
  · decide +kernel
  · match p, h with
    | 0, h => cases h; refine ⟨?_, rfl, rfl, ?_⟩ <;> (try unfold State.soundAt State.breaksLimit) <;> decide +kernel
    | 1, h => cases h; refine ⟨?_, rfl, rfl, ?_⟩ <;> (try unfold State.soundAt State.breaksLimit) <;> decide +kernel
  · exact buffersOf (by decide +kernel)

theorem test_witness_VectorCompares :
    let s := tVec
    let m := memberVcmp 1 1 2 .lt s.me.gm
    ∃ op, Alone (.vcmp 1 1 2 .lt) s m ∧ m.body = .cmp op none ∧ m.mwrite = some 1
      ∧ ∀ e, e < s.countFor m → s.cmpElement m op none e = .val ([false, true, false, false].getD e false, 0) :=
  ⟨_, aloneIn rfl (by decide +kernel), rfl, rfl, by decide +kernel⟩

theorem test_witness_VectorReductions :
    let s := tVec
    let m := memberVredsum 5 2 1 s.me.gm
    ∃ comb, Alone (.vredsum 5 2 1) s m ∧ m.body = .red comb 1 ∧ m.swrite = some 5
      ∧ ∀ e, e < s.countFor m → s.active e = true → s.operands m e = .val [[1, 2, 3, 0].getD e 0] :=
  ⟨_, aloneIn rfl (by decide +kernel), rfl, rfl, by decide +kernel⟩

theorem test_witness_Permutes :
    let s := tVec
    let m := memberVperm 3 1 2 s.me.gm
    let c := memberVcomp 3 1 0 s.me.gm
    (∃ p, Alone (.vperm 3 1 2) s m ∧ m.body = .perm p ∧ m.other = [⟨1, s.me.gm.fmtA⟩] ∧ m.dests = [(3, 32)]
      ∧ (∀ e, e < s.countFor m → s.permElement m p ⟨1, s.me.gm.fmtA⟩ e = .val ([0xFFFFFFFF, 0x7FFFFFFF, 2, 7].getD e 0))
      ∧ s.hasBuffers (s.buffersFor (pack 32 ((List.range (s.countFor m)).map fun e =>
          [0xFFFFFFFF, 0x7FFFFFFF, 2, 7].getD e 0)).length))
    ∧ Alone (.vcomp 3 1 0) s c
    ∧ ∀ e, e ∈ (List.range (s.countFor c)).filter (fun e => s.active e && (s.me.mask 0).getLsbD e) →
        s.operands c e = .val [[7, 0xFFFFFFFF, 0x7FFFFFFF, 2].getD e 0] :=
  ⟨⟨_, aloneIn rfl (by decide +kernel), rfl, rfl, rfl, by decide +kernel,
    tVec_buffers⟩, aloneIn rfl (by decide +kernel), by decide +kernel⟩

theorem test_witness_MaskInstructions :
    let u := tWith { tVecStrand with memdone := 1 }
    (Opens (.mand 1 2 3) tVec (memberMand 1 2 3) ∧ tVec.me.memdone.getLsbD 0 = false)
    ∧ (Opens (.mget 5 2 1) u (memberMget 5 2 1) ∧ u.me.memdone.getLsbD 0 = true) :=
  ⟨⟨opensOf rfl (.inr tVec_next) (by decide +kernel), by decide +kernel⟩,
    opensOf rfl (.inr (nopNext (by decide +kernel))) (by decide +kernel), by decide +kernel⟩

theorem test_witness_Divergence :
    let s := tWith { tVecStrand with masks := [(1, 5)] }
    let full := tWith { tVecStrand with frags := List.replicate 16 {} }
    let one := tWith { tVecStrand with frags := [{ pc := 0x2000, jn := 0, mask := 3 }], runMask := 12 }
    let join := tWith { tVecStrand with frags := [{ pc := 0, jn := 0x3001, mask := 3 }] }
    (Opens (.vbr 1 4) s (memberVbr 1 4) ∧ s.me.frags.length < 16)
    ∧ (Opens (.vbr 1 4) full (memberVbr 1 4) ∧ full.me.frags.length = 16)
    ∧ (Opens (.vjoin 4) s (memberVjoin 4) ∧ s.me.frags = [])
    ∧ (Opens (.vjoin 4) one (memberVjoin 4) ∧ one.me.frags = [] ++ [{ pc := 0x2000, jn := 0, mask := 3 }])
    ∧ (Opens (.vjoin 4) join (memberVjoin 4) ∧ join.me.frags = [] ++ [{ pc := 0, jn := 0x3001, mask := 3 }]
      ∧ (0x3001 : Word) &&& 3 = 1) :=
  ⟨⟨opensOf rfl (.inl rfl) (by decide +kernel), by decide +kernel⟩, ⟨opensOf rfl (.inl rfl) (by decide +kernel), by decide +kernel⟩,
    ⟨opensOf rfl (.inl rfl) (by decide +kernel), by decide +kernel⟩, ⟨opensOf rfl (.inl rfl) (by decide +kernel), by decide +kernel⟩,
    opensOf rfl (.inl rfl) (by decide +kernel), by decide +kernel⟩

/-! ### Vector memory, slots and matrix products -/

theorem spotOf {s t : State} {a : Access} {base : Word} {e : Nat} {r : Nat × Flags}
    (h : ((s.elementSpot a .unit base [] e false).toOption.map fun sp =>
      s.readSpot a s.me.gm.fmtA s.me.gm.num (s.elementAt a .unit base [] e).2.1 sp) = some (r, t)) :
    ReadsElement s t a .unit base [] e r := by
  unfold ReadsElement
  cases g : s.elementSpot a .unit base [] e false with
  | ok sp => simp only [g, Except.toOption, Option.map_some, Option.some.injEq] at h; exact ⟨sp, rfl, h⟩
  | error x => simp [g, Except.toOption] at h

/-- Two elements, of which the guard m1 leaves the first active; the addresses of the last two of a 64 KiB range in s3. -/
def tLoad : State :=
  (tWith { tVecStrand with vl := 2, gm := { fa := 8, fb := 8, guard := 1 }, masks := [(1, 1)]
                           kmasks := [(2, { bits := 1 })] }).setBytes 0x2000 [0x78, 0x56, 0x34, 0x12]
/-- The same with every element active and only the first 64 KiB of memory in the partition. -/
def tEdge : State :=
  let s := tWith { tVecStrand with regs := [(2, 0xFFFC)] }
  { s with parts := [(0, { tPart with pbound := (List.range 8).map fun i => (i, 0) })] }
/-- The state after element 0 has been read from the address in s2. -/
def tRead (s : State) : State :=
  match s.elementSpot s.myAccess .unit (s.reg 2) [] 0 false with
  | .ok sp => (s.readSpot s.myAccess s.me.gm.fmtA s.me.gm.num 0 sp).2
  | _ => s

theorem test_witness_VectorLoads :
    let s := tLoad
    let m := memberVld 3 2 s.me.gm
    let a := s.loadAs .plain
    let σ : Nat → State := fun e => if e = 0 then s else tRead s
    let R : Nat → Nat × Flags := fun e => if e = 0 then (0x12345678, 0) else (0, 0)
    Alone (.vld 3 2) s m ∧ m.body = .load .unit 2 .plain ∧ m.dests = [(3, 32)] ∧ s.countFor m = 2
    ∧ (∀ e, e < 2 →
        if s.active e = true then
          ∃ v, (σ e).operands m e = .val v ∧ ReadsElement (σ e) (σ (e + 1)) a .unit (s.reg 2) v e (R e)
        else R e = (0, 0) ∧ σ (e + 1) = σ e)
    ∧ s.hasBuffers (s.buffersFor (pack 32 ((List.range 2).map fun e => (R e).1)).length) := by
  refine ⟨aloneIn rfl (by decide +kernel), rfl, rfl, by decide +kernel, ?_, buffersOf (by decide +kernel)⟩
  intro e he
  match e, he with
  | 0, _ =>
    rw [if_pos (by decide +kernel)]
    exact ⟨[], by decide +kernel, spotOf (by decide +kernel)⟩
  | 1, _ => rw [if_neg (by decide +kernel)]; exact ⟨rfl, rfl⟩

theorem test_witness_VectorLoads_first :
    let s := tEdge
    let m := memberVldff 3 2 s.me.gm
    let σ : Nat → State := fun e => if e = 0 then s else tRead s
    Alone (.vldff 3 2) s m ∧ m.body = .load .unit 2 .first ∧ (s.countFor m = 4 ∧ s.active 0 = true ∧ s.active 1 = true)
    ∧ ((σ 0).operands m 0 = .val [] ∧ ReadsElement (σ 0) (σ 1) (s.loadAs .first) .unit (s.reg 2) [] 0 (0, 0))
    ∧ (σ 1).elementSpot (s.loadAs .first) .unit (s.reg 2) [] 1 false = .error (.bad .permission 0x10000 {}) :=
  ⟨aloneIn rfl (by decide +kernel), rfl, by decide +kernel, ⟨by decide +kernel, spotOf (by decide +kernel)⟩,
    errOf (by decide +kernel)⟩

theorem test_witness_VectorLoads_stop :
    let s := tEdge
    let m := memberVld 3 2 s.me.gm
    let σ : Nat → State := fun e => if e = 0 then s else tRead s
    Alone (.vld 3 2) s m ∧ m.body = .load .unit 2 .plain ∧ (s.countFor m = 4 ∧ s.active 0 = true ∧ s.active 1 = true)
    ∧ ReadsElement (σ 0) (σ 1) (s.loadAs .plain) .unit (s.reg 2) [] 0 (0, 0) ∧ (σ 1).operands m 1 = .val []
    ∧ (σ 1).elementSpot (s.loadAs .plain) .unit (s.reg 2) [] 1 false = .error (.bad .permission 0x10000 {})
    ∧ s.hasBuffers (s.buffersFor (pack 32 [0]).length) :=
  ⟨aloneIn rfl (by decide +kernel), rfl, by decide +kernel, spotOf (by decide +kernel), by decide +kernel,
    errOf (by decide +kernel), buffersOf (by decide +kernel)⟩

theorem test_witness_ChunkLoads :
    let s := tLoad
    let m := memberVldk 3 2 2 s.me.gm
    let u := s.chunkSeen 2 0
    Alone (.vldk 3 2 2) s m ∧ s.countFor m = 2 ∧ s.active 0 = true ∧ (s.me.kmask 2).bits.getLsbD 0 = true
    ∧ ReadsElement u (tRead u) s.myAccess .unit (s.reg 2) [] 0 (0x12345678, 0) ∧ s.active 1 = false
    ∧ s.hasBuffers (s.buffersFor 8) :=
  ⟨aloneIn rfl (by decide +kernel), rfl, by decide +kernel, by decide +kernel, spotOf (by decide +kernel),
    by decide +kernel, buffersOf (by decide +kernel)⟩

theorem test_witness_VectorStores :
    let s := tLoad
    let m := memberVst 1 2 s.me.gm
    let sp : Spot := .plain { pa := 0x2000, direct := true }
    Alone (.vst 1 2) s m ∧ m.body = .store .unit 2 false
    ∧ (s.countFor m = 2 ∧ s.active 0 = true ∧ s.active 1 = false ∧ s.operands m 0 = .val [7])
    ∧ s.elementSpot s.myAccess .unit (s.reg 2) [7] 0 true = .ok sp
    ∧ (s.spotBytes s.myAccess s.me.gm.fmtA s.me.gm.num 0 7 sp = some ({ pa := 0x2000, direct := true }, [7, 0, 0, 0])
      ∧ s.lost 0x2000 = false ∧ s.cellSound s.myAccess { pa := 0x2000, direct := true }) := by
  refine ⟨aloneIn rfl (by decide +kernel), rfl, by decide +kernel, okOf (by decide +kernel), ?_⟩
  unfold State.cellSound; decide +kernel

/-- Elements of i32 under completion mask k2. -/
def tHeadMode : GrpMode := { inv := false, guard := 2, fa := 8, fb := 8, rnd := 0, sat := false, inf := false, g := 0 }
/-- Strand `t` before a `grpk`, after which come word `w` and a `nop`; chunk 0 of k2 is there. -/
def tHead (t : Strand) (w : Nat) : State := tProg (tWith { t with kmasks := [(2, { bits := 1 })] }) [w, 0x04000000]
/-- The same as its convoy begins, `gm` written and the PC at the first member. -/
def tMember (v : State) : State :=
  v.setMe { v.me with pc := v.me.pc + 4, gm := { gk := true, guard := 2, fa := 8, fb := 8 } }

theorem headedOf {v : State} {i : Instr} {w : IWord}
    (h : (v.fetch v.cur (v.me.pc + 4).toNat).toOption = some w ∧ (decodeWord w).toOption = some i) :
    Begins i (tMember v) (.grpk tHeadMode) v ((tMember v).setMe { (tMember v).me with pc := v.me.pc }) :=
  .headed true tHeadMode v w (by decide) (okOf h.1) (okOf h.2) rfl

theorem test_witness_ElementwiseConvoy_headed :
    let v := tHead tVecStrand 0x80304200
    let s := tMember v
    let m := memberVadd 3 1 2 false s.me.gm
    Begins (.vadd 3 1 2 false) s (.grpk tHeadMode) v (s.setMe { s.me with pc := v.me.pc })
    ∧ Opens (.vadd 3 1 2 false) s m ∧ (s.me.gm.gk = true ∧ s.active 3 = true ∧ s.me.vstart = 0)
    ∧ (∀ e, e < s.countFor m → s.mapElement m (opOf m) none none false e = .val (tSums e))
    ∧ s.hasBuffers (s.buffersFor 16) :=
  ⟨headedOf (w := 0x80304200) (by decide +kernel), opensOf rfl (.inr (nopNext (by decide +kernel))) (by decide +kernel),
    by decide +kernel, by decide +kernel, buffersOf (by decide +kernel)⟩

theorem test_witness_ElementwiseConvoy_resumed :
    let s := tWith { tVecStrand with vstart := 2, chains := (3, { segs := [⟨4, 0, 8⟩] }) :: tVecStrand.chains }
    let m := memberVadd 3 1 2 false s.me.gm
    Opens (.vadd 3 1 2 false) s m
    ∧ (∀ e, e < s.countFor m →
        if e < s.me.vstart.toNat then s.oldElement (3, 32) e = .val ([7, 0xFFFFFFFF].getD e 0)
        else s.mapElement m (opOf m) none none false e = .val (tSums e))
    ∧ s.hasBuffers (s.buffersFor 16) :=
  ⟨opensOf rfl (.inr (nopNext (by decide +kernel))) (by decide +kernel), by decide +kernel, buffersOf (by decide +kernel)⟩

/-- 130 elements of c1, of which the first 128 have been added to the 9 that `redpart` holds. -/
theorem test_witness_VectorReductions_resumed :
    let s := tWith { tVecStrand with vl := 130, vlmax := 256, vstart := 128, redlive := 1, redpart := [(0, 9)]
                                     chains := [(1, { segs := List.replicate 9 ⟨4, 0, 64⟩ })] }
    let m := memberVredsum 5 1 1 s.me.gm
    Opens (.vredsum 5 1 1) s m ∧ (s.me.gm.gk = false ∧ m.swrite = some 5 ∧ s.countFor m = 130)
    ∧ (∀ e, 128 ≤ e → e < 130 → s.active e = true → s.operands m e = .val [[7, 0xFFFFFFFF].getD (e - 128) 0])
    ∧ (s.reduced (fun a b => (a + b, 0)) 130 (fun e => [7, 20].getD (e - 128) 0) 5) = (41, 0) := by
  refine ⟨opensOf rfl (.inr (nopNext (by decide +kernel))) (by decide +kernel), by decide +kernel, fun e h1 h2 => ?_,
    by decide +kernel⟩
  obtain rfl | rfl : e = 128 ∨ e = 129 := by omega
  all_goals decide +kernel

theorem test_witness_VectorLoads_headed :
    let v := (tHead { tVecStrand with vl := 2 } 0xAC308000).setBytes 0x2000 [0x78, 0x56, 0x34, 0x12]
    let s := tMember v
    let m := memberVld 3 2 s.me.gm
    let a := s.loadAs .plain
    Begins (.vld 3 2) s (.grpk tHeadMode) v (s.setMe { s.me with pc := v.me.pc })
    ∧ Opens (.vld 3 2) s m ∧ (s.countFor m = 2 ∧ s.me.gm.gk = true ∧ s.active 0 = true ∧ s.active 1 = true)
    ∧ ((s.guardSeen 0).operands m 0 = .val []
      ∧ ReadsElement (s.guardSeen 0) (tRead (s.guardSeen 0)) a .unit (s.reg 2) [] 0 (0x12345678, 0))
    ∧ (((tRead (s.guardSeen 0)).guardSeen 1).elementSpot a .unit (s.reg 2) [] 1 false).toOption.isSome = true :=
  ⟨headedOf (w := 0xAC308000) (by decide +kernel), opensOf rfl (.inr (nopNext (by decide +kernel))) (by decide +kernel),
    by decide +kernel, ⟨by decide +kernel, spotOf (by decide +kernel)⟩, by decide +kernel⟩

theorem test_witness_VectorStores_headed :
    let v := tHead { tVecStrand with vl := 1 } 0xB0108000
    let s := tMember v
    let m := memberVst 1 2 s.me.gm
    Begins (.vst 1 2) s (.grpk tHeadMode) v (s.setMe { s.me with pc := v.me.pc })
    ∧ Opens (.vst 1 2) s m ∧ (s.countFor m = 1 ∧ s.active 0 = true ∧ (s.guardSeen 0).operands m 0 = .val [7])
    ∧ (s.guardSeen 0).elementSpot s.myAccess .unit (s.reg 2) [7] 0 true = .ok (.plain { pa := 0x2000, direct := true }) :=
  ⟨headedOf (w := 0xB0108000) (by decide +kernel), opensOf rfl (.inr (nopNext (by decide +kernel))) (by decide +kernel),
    by decide +kernel, okOf (by decide +kernel)⟩

/-- A member that cannot be fetched, and two words that are no instruction, after a `grpk` and its first member. -/
theorem test_witness_GroupModes_words :
    let edge (pc : Word) : State := { tEdge with strands := [(0, { tEdge.me with pc := pc })] }
    let odd (w : Nat) : State := tMember (tHead tVecStrand 0x80304200 |>.setBytes 0x1008 (leBytes 4 w))
    let s := odd 0x803042FF
    let m := memberVadd 3 1 2 false s.me.gm
    (((edge 0xFFFC).fetch 0 0x10000).toOption = none
      ∧ ((tHead tVecStrand 0x803042FF).fetch 0 0x1004).toOption = some 0x803042FF)
    ∧ (s.gathers (.vadd 3 1 2 false) [m] ∧ s.soundAt [m] 0 m ∧ m.closes = false)
    ∧ Begins (.vadd 3 1 2 false) s (.grpk tHeadMode) (tHead tVecStrand 0x80304200 |>.setBytes 0x1008 (leBytes 4 0x803042FF))
        (s.setMe { s.me with pc := 0x1000 })
    ∧ (s.fetch s.cur (s.me.pc + 4).toNat = .ok 0x803042FF ∧ convoyWord 0x803042FF = true
      ∧ decodeWord 0x803042FF = .error .unassigned)
    ∧ ((odd 0x82304200).fetch 0 (s.me.pc + 4).toNat = .ok 0x82304200 ∧ convoyWord 0x82304200 = true
      ∧ decodeWord 0x82304200 = .error .reserved) := by
  refine ⟨by decide +kernel, ⟨⟨by simp, rfl, fun k x hk hx => ?_, fun k x hk _ => absurd hk (by simp)⟩,
    by unfold State.soundAt State.breaksLimit; decide +kernel, rfl⟩, headedOf (w := 0x80304200) (by decide +kernel),
    ⟨okOf (by decide +kernel), by decide +kernel, errOf (by decide +kernel)⟩,
    okOf (by decide +kernel), by decide +kernel, errOf (by decide +kernel)⟩
  match k, hk with
  | k + 1, _ => simp at hx

theorem test_witness_VectorAtomics :
    let s := tWith { tVecStrand with vl := 1, chains := [(1, { segs := [⟨4, 0, 16⟩] }), (5, { segs := [⟨4, 64, 16⟩] })] }
    let m := memberVamo 1 2 5 .add .rlx .pkg s.me.gm
    Alone (.vamo 1 2 5 .add .rlx .pkg) s m ∧ s.countFor m = 1 ∧ s.active 0 = true ∧ s.operands m 0 = .val [7, 0]
    ∧ s.checkAtomic s.myAccess ((s.reg 2).toNat + s.me.gm.fmtB.int (arg [7, 0] 1)) 4 = .ok { pa := 0x2000, direct := true }
    ∧ ((s.atomic s.myAccess (vamoSync s .rlx .pkg) { pa := 0x2000, direct := true } 4 .add 7 0).toOption.map (·.1)) = some 0
    ∧ s.hasBuffers (s.buffersFor 4) :=
  ⟨aloneIn rfl (by decide +kernel), rfl, by decide +kernel, by decide +kernel, by decide +kernel, by decide +kernel,
    buffersOf (by decide +kernel)⟩

/-- An i8 strand of one column that holds slots o1 (1 × 2), o2 (2 × 1), o4 (32 × 1) and the staging slots o5 and o6. -/
def tMatStrand : Strand :=
  { tStrand with vl := 1, gm := { fa := 4, fb := 4 }, regs := [(1, 0x2000), (2, 0x2040)] }
def tSlots : Sparse Slot :=
  [(1, { owner := some 1, geom := 0x400020001, data := [(0, 3), (1, 0xFF)] }),
   (2, { owner := some 1, geom := 0x400010002, data := [(0, 5), (1, 7)] }),
   (3, { owner := some 1, geom := 0xE00040001 }),
   (4, { owner := some 1, geom := 0x400010020 }), (5, { owner := some 1 }), (6, { owner := some 1 }),
   (7, { owner := some 1, geom := 0x800040001, data := [(0, 9)] })]
def tMat (t : Strand) : State :=
  let s := tWith t
  let p := { tPool with count := 64, free := List.range 36 }
  let u := { s with cxs := [(0, { s.cx 0 with slots := tSlots, near := p })] }
  (u.setBytes 0x2004 [0x07]).setBytes 0x2040 (dwordBytes [0x4000000000005000, 0, 0x40000, 0x400000, 0, 0, 0, 0x4200000])

/-- An epilogue of one row and one rank. -/
def tEpi : Epilogue :=
  { rows := 1, k := 1, int := true, biasen := false, bslot := 0, control := 0x10001, colbase := 0, lists := [[⟨5, 5, 2⟩]] }

theorem test_witness_SlotElements :
    let s := tMat tVecStrand
    (s.holds 7 = true ∧ geomCode (s.slot s.myCx 7).geom = s.me.gm.fa.toNat)
    ∧ Alone (.oput 7 1) s (memberOput 7 1 s.me.gm) ∧ Alone (.oget 3 7) s (memberOget 3 7 s.me.gm)
    ∧ ((∀ e, e < 4 → s.active e = true → s.operands (memberOput 7 1 s.me.gm) e
        = .val [[7, 0xFFFFFFFF, 0x7FFFFFFF, 2].getD e 0])
      ∧ ∀ e, e < 4 → s.active e = true → (s.slot s.myCx 7).marked s.me.gm.fmtA e = false)
    ∧ s.hasBuffers (s.buffersFor 16) :=
  ⟨by decide +kernel, aloneIn rfl (by decide +kernel), aloneIn rfl (by decide +kernel), by decide +kernel,
    buffersOf (by decide +kernel)⟩

theorem test_witness_MatrixProducts :
    let s := tMat { tMatStrand with chains := [(3, { segs := [⟨4, 0, 4⟩] })] }
    let armed := { s with strands := [(0, { s.me with epilogue := some tEpi })] }
    Alone (.mmaz 3 1 2) s (memberMmaz 3 1 2 s.me.gm) ∧ Alone (.mma 3 1 2) s (memberMma 3 1 2 s.me.gm)
    ∧ (s.mmaCheck s.me.gm 1 1 2 = none ∧ s.me.gm.rows = 1 ∧ s.oldElement (3, 32) 0 = .val 7
      ∧ slotsMarked (s.slot s.myCx 1) (s.slot s.myCx 2) 1 0 2 = false)
    ∧ (armed.mmaCheck armed.me.gm 1 1 2 = none ∧ tEpi.biasMarked (armed.slot armed.myCx tEpi.bslot.toNat) 0 = false)
    ∧ s.hasBuffers (s.buffersFor 4) 1 :=
  ⟨aloneIn rfl (by decide +kernel), aloneIn rfl (by decide +kernel), by decide +kernel, by decide +kernel,
    buffersOf (by decide +kernel)⟩

theorem test_witness_EpilogueConvoys :
    let s := tMat { tVecStrand with epilogue := some tEpi }
    Alone (.tkget 3 4) s (memberTkget 3 4) ∧ s.me.epilogue = some tEpi ∧ tEpi.rows ≤ 16 ∧ tEpi.k ≤ 64
    ∧ s.hasBuffers (s.buffersFor 4) 2
    ∧ Alone (.biasupd 3 1 2) s (memberBiasupd 3 1 2 s.me.gm) ∧ s.holds 3 = true ∧ geomRows (s.slot s.myCx 3).geom = 1
    ∧ geomCode (s.slot s.myCx 3).geom = 14
    ∧ ((s.slot s.myCx 3).poison = [] ∧ (s.slot s.myCx 3).pending = false)
    ∧ ∀ e, e < 4 → s.active e = true → s.operands (memberBiasupd 3 1 2 s.me.gm) e
        = .val [[7, 0xFFFFFFFF, 0x7FFFFFFF, 2].getD e 0] :=
  ⟨aloneIn rfl (by decide +kernel), rfl, by decide, by decide, buffersOf (by decide +kernel), aloneIn rfl (by decide +kernel),
    by decide +kernel⟩

/-- The state after the first `n` elements of a row block `out` are written, when each passes its checks. -/
def blockRun (w : Walk) (rblk : Nat) (out : Nat → Nat → Nat) (s : State) : Nat → Option State
  | 0 => some s
  | p + 1 => (blockRun w rblk out s p).bind fun u =>
      let va := w.target rblk (p / w.vl) (p % w.vl)
      if w.block.inWindow va then
        match u.spot u.myAccess w.block.size va false true false none with
        | .ok sp => some (u.writeSpot u.myAccess w.block.fmt w.block.num 0 false (w.converted (out (p / w.vl) (p % w.vl))).1 sp).2
        | .error _ => none
      else some u

theorem blockRun_writes {w : Walk} {rblk n : Nat} {out : Nat → Nat → Nat} {s : State}
    (h : (blockRun w rblk out s n).isSome = true) :
    WritesBlock w rblk n out fun p => (blockRun w rblk out s p).getD s := by
  have hs : ∀ k, k ≤ n → ∃ u, blockRun w rblk out s k = some u := by
    induction n with
    | zero => intro k hk; obtain rfl : k = 0 := by omega
              exact ⟨s, rfl⟩
    | succ n ih =>
      intro k hk
      obtain rfl | hk := Nat.eq_or_lt_of_le hk
      · exact Option.isSome_iff_exists.mp h
      · refine ih ?_ k (by omega)
        cases g : blockRun w rblk out s n with
        | some u => rfl
        | none => simp [blockRun, g] at h
  intro p hp
  obtain ⟨u, hu⟩ := hs p (by omega)
  obtain ⟨v, hv⟩ := hs (p + 1) (by omega)
  have hn := hv
  simp only [blockRun, hu, Option.bind_some] at hn
  simp only [hu, hv, Option.getD_some]
  split at hn
  · rename_i hw
    rw [if_pos hw]
    split at hn
    · rename_i sp hsp
      exact ⟨sp, hsp, (Option.some.inj hn).symm⟩
    · simp at hn
  · rename_i hw
    rw [if_neg hw]
    exact (Option.some.inj hn).symm

/-- A table of one entry, `d` and `tile`, at `table`, and a destination from `base` on, in a partition of 64 KiB. -/
def tSparse (table base d tile : Nat) (sl : Slot) : State :=
  let s := tMat { tMatStrand with regs := [(1, BitVec.ofNat 64 table), (2, 0x2040)] }
  let s := { s with parts := [(0, { tPart with pbound := (List.range 8).map fun i => (i, 0) })]
                    cxs := [(0, { s.cx 0 with slots := Sparse.put Slot.free 4 sl (s.cx 0).slots })] }
  (s.setBytes 0x2000 (leBytes 8 d ++ leBytes 8 tile)).setBytes 0x2040 (dwordBytes [0x4000000000000000 + BitVec.ofNat 64 base])
def tBSlot : Slot := { owner := some 1, geom := 0x400010020 }
/-- The walk, the state once its block is read, and the state once its entry is. -/
def tWalk (s : State) (base : Nat) : Walk :=
  { o := 4, table := (s.reg 1).toNat
    block := [0x4000000000000000 + BitVec.ofNat 64 base, 0, 0x40000, 0x400000, 0, 0, 0, 0x4200000]
    g := s.me.gm, vl := 1, addr := s.me.pc }
def tWalkOpen (s : State) : State := match s.readWalkBlock (s.reg 2) with | .ok p => p.2 | _ => s
def tWalkEntry (s : State) : State :=
  let u := tWalkOpen s
  match u.checkAt u.myAccess (s.reg 1).toNat 16 true false false with
  | .ok p => (u.load u.myAccess p 16).2
  | _ => u
/-- What happens at its first entry, of which no tile is read. -/
def tWalkData (s : State) (base d tile : Nat) : WalkData :=
  let e := tWalkEntry s
  let o (p : Nat) : State := (blockRun (tWalk s base) (entryRblk d) (fun _ _ => 0) e p).getD e
  { d := fun _ => d, tile := fun _ => tile, x := fun _ _ => 0, acc := fun _ _ _ => 0
    before := fun t => if t = 0 then tWalkOpen s else o 32, reads := fun _ _ => e, writes := fun _ => o }

theorem tWalkData_upTo (s : State) (base d tile : Nat) :
    (tWalkData s base d tile).upTo s (tWalkOpen s) (tWalk s base) 0 :=
  ⟨rfl, fun _ _ => rfl, fun t h => absurd h (by omega)⟩

/-- What the claim asks of a walk before its first entry. -/
structure WalkOpens (s : State) (base : Nat) : Prop where
  opens : Opens (.bswalk 4 1 2) s (memberBswalk 4 1 2 s.me.gm)
  fresh : s.me.vstart = 0 ∧ s.me.redlive = 0 ∧ s.me.memdone = 0 ∧ (s.reg 1).toNat % 16 = 0 ∧ (s.reg 2).toNat % 64 = 0
  block : s.readWalkBlock (s.reg 2) = .ok ((tWalk s base).block, tWalkOpen s)
  held  : ∀ k, k < 3 → s.holds (4 + k) = true
  suits : geomCode (s.slot s.myCx 4).geom = s.me.gm.fb.toNat ∧ s.me.vl.toNat ≤ geomCols (s.slot s.myCx 4).geom
    ∧ Block.walkDefect (tWalk s base).block (accFmt s.me.gm.fmtA s.me.gm.fmtB) = false
  room  : s.hasBuffers (s.buffersFor (4 * s.me.vl.toNat)) 32

theorem walkOpens {s : State} {base : Nat}
    (h : opensB s (memberBswalk 4 1 2 s.me.gm) = true
      ∧ (s.me.vstart = 0 ∧ s.me.redlive = 0 ∧ s.me.memdone = 0 ∧ (s.reg 1).toNat % 16 = 0 ∧ (s.reg 2).toNat % 64 = 0)
      ∧ (s.readWalkBlock (s.reg 2)).toOption.map (·.1) = some (tWalk s base).block
      ∧ (∀ k, k < 3 → s.holds (4 + k) = true)
      ∧ (geomCode (s.slot s.myCx 4).geom = s.me.gm.fb.toNat ∧ s.me.vl.toNat ≤ geomCols (s.slot s.myCx 4).geom
        ∧ Block.walkDefect (tWalk s base).block (accFmt s.me.gm.fmtA s.me.gm.fmtB) = false)
      ∧ (32 * s.buffersFor (4 * s.me.vl.toNat) ≠ 0 → s.myPool.enable = true)
      ∧ 32 * s.buffersFor (4 * s.me.vl.toNat) ≤ s.myPool.free.length ∧ s.behind s.myCx s.me.farPool = false
      ∧ s.myPool.free.Nodup ∧ (∀ i ∈ s.myPool.free, i < 2 ^ 23) ∧ s.me.farPool = false
      ∧ s.buffersFor (4 * s.me.vl.toNat) ≤ 32) :
    WalkOpens s base := by
  obtain ⟨ho, hf, hb, hh, hs, hr⟩ := h
  refine ⟨opensOf rfl (.inl rfl) ho, hf, ?_, hh, hs, buffersOf hr⟩
  unfold tWalkOpen
  generalize s.readWalkBlock (s.reg 2) = r at hb ⊢
  cases r with
  | error x => simp [Except.toOption] at hb
  | ok p => simp only [Except.toOption, Option.map_some, Option.some.injEq] at hb; simp only [← hb]

theorem readsEntryOf {s : State} {base d tile : Nat}
    (h : (match (tWalkOpen s).checkAt (tWalkOpen s).myAccess ((s.reg 1).toNat : Nat) 16 true false false with
      | .ok p => some (leNat (((tWalkOpen s).peek (tWalkOpen s).myAccess p 16).take 8),
          leNat (((tWalkOpen s).peek (tWalkOpen s).myAccess p 16).drop 8)) | _ => none) = some (d, tile)) :
    ReadsEntry (tWalk s base) 0 (tWalkOpen s) (tWalkEntry s) d tile := by
  unfold tWalkEntry ReadsEntry
  simp only [tWalk, Nat.mul_zero, Nat.add_zero]
  generalize (tWalkOpen s).checkAt (tWalkOpen s).myAccess ((s.reg 1).toNat : Nat) 16 true false false = r at h ⊢
  cases r with
  | ok p => simp only [Option.some.injEq, Prod.mk.injEq] at h; exact ⟨p, rfl, h.1, h.2, rfl⟩
  | bad c n => simp at h
  | cell => simp at h

/-- One entry, empty, the last of its row block and of its table. -/
def tWhole : State := tSparse 0x2000 0x5000 0x700000000 0 tBSlot

theorem tWhole_opens : WalkOpens tWhole 0x5000 :=
  walkOpens (by decide +kernel)

theorem test_witness_BlockSparseWalk :
    let z := tWalkData tWhole 0x5000 0x700000000 0
    WalkOpens tWhole 0x5000 ∧ z.upTo tWhole (tWalkOpen tWhole) (tWalk tWhole 0x5000) 0
    ∧ z.applied tWhole (tWalk tWhole 0x5000) 0 ∧ entryEnd (z.d 0) = true := by
  have hb : (blockRun (tWalk tWhole 0x5000) 0 (fun _ _ => 0) (tWalkEntry tWhole) 32).isSome = true := by decide +kernel
  refine ⟨tWhole_opens, tWalkData_upTo _ _ _ _,
    { entry := readsEntryOf (by decide +kernel), sound := by unfold entrySound; decide +kernel
      tile := fun h => absurd h (by decide), open_ := rfl, block := fun _ => ?_, next := rfl, acc := fun _ _ => rfl }, by decide⟩
  exact blockRun_writes hb

/-- The checks of R246 that come before the walk, the first failing. -/
theorem test_witness_BlockSparseWalk_opening :
    let s (t b : Word) : State := tMat { tMatStrand with regs := [(1, t), (2, b)] }
    let slots (l : Sparse Slot) : State := { tWhole with cxs := [(0, { tWhole.cx 0 with slots := l })] }
    ((s 0x2008 0x2040).reg 1).toNat % 16 ≠ 0 ∧ ((s 0x2000 0x2048).reg 2).toNat % 64 ≠ 0
    ∧ (slots []).holds 4 = false
    ∧ ¬ 1 ≤ geomCols ((slots [(4, { tBSlot with geom := 0x400000020 })]).slot 0 4).geom
    ∧ Block.walkDefect [0, 0, 0, 0, 0, 0, 0, 0x4200001] (accFmt tWhole.me.gm.fmtA tWhole.me.gm.fmtB) = true := by decide +kernel

theorem test_witness_BlockSparseWalk_stops :
    let stops (s : State) (base d tile v : Nat) (c : Cause) (eval : Word) : Prop :=
      WalkOpens s base ∧ (tWalkData s base d tile).stops s (tWalk s base) 0 v c eval {}
    stops (tSparse 0x12000 0x5000 0 0 tBSlot) 0x5000 0 0 0 .permission 0x12000
    ∧ stops (tSparse 0x2000 0x5000 0x800000000 0 tBSlot) 0x5000 0x800000000 0 0 .topology 0x2000
    ∧ stops (tSparse 0x2000 0x5000 0 0x20000 tBSlot) 0x5000 0 0x20000 0 .permission 0x20000
    ∧ stops (tSparse 0x2000 0x20000 0x700000000 0 tBSlot) 0x20000 0x700000000 0 1 .permission 0x20000 := by
  have o {s : State} {base : Nat} := @walkOpens s base
  refine ⟨⟨o (by decide +kernel),
    .entry _ _ (by decide +kernel)⟩, ?_, ?_, ?_⟩
  · exact ⟨o (by decide +kernel),
      .defect (readsEntryOf (by decide +kernel)) (by unfold entrySound; decide +kernel)⟩
  · exact ⟨o (by decide +kernel),
      .tile 0 _ 0x20000 _ (readsEntryOf (by decide +kernel)) (by unfold entrySound; decide +kernel) (by decide) (by decide)
        (fun k h => absurd h (by omega)) (errOf (by decide +kernel))⟩
  · exact ⟨o (by decide +kernel),
      .write 0 _ 0x20000 _ { entry := readsEntryOf (by decide +kernel), sound := by unfold entrySound; decide +kernel
                             tile := fun h => absurd h (by decide), open_ := rfl } (by decide) (by decide)
        (fun k h => absurd h (by omega)) (by decide +kernel) (errOf (by decide +kernel))⟩

theorem test_witness_IndirectionPermute :
    let s := tVec
    Opens (.citp 1 2) s (memberCitp 1 2 s.me.gm) ∧ s.me.gm.gk = false ∧ (s.reg 1).toNat < 4096
    ∧ ∀ e, e < 4 → s.operands (memberCitp 1 2 s.me.gm) e = .val [[1, 2, 3, 0].getD e 0] :=
  ⟨opensOf rfl (.inr tVec_next) (by decide +kernel), by decide +kernel⟩

/-! ### Chains -/

/-- c1 lies in buffer 4 alone, c2 in buffers 4 and 5; c6 is a stream register; s1 = 2, s2 = 0x2000, s3 = 0x2001, s4 = 40. -/
def tStreamOf (ahead : List Seg) (q : Nat) : Stream :=
  { block := [0x4000000000005000, 0, 0x400F0, 0, 0, 0, 0, 0], far := false, tag := 0, mode := .supervisor, q := q, held := none
    ahead := ahead, fetched := q, bad := none, agent := 9 }
def tChainStrand : Strand :=
  { tStrand with regs := [(1, 2), (2, 0x2000), (3, 0x2001), (4, 40)]
                 chains := [(1, { segs := [⟨4, 64, 16⟩] }), (2, { segs := [⟨4, 16, 16⟩, ⟨5, 0, 16⟩] }),
                            (6, { segs := [], stream := some (tStreamOf [] 0) })] }
def tChain (refs : Sparse Nat) : State :=
  let s := tWith tChainStrand
  { s with cxs := [(0, { s.cx 0 with near := { tPool with refs := refs } })] }
def tCh : State := tChain [(4, 1), (5, 1)]
def tCh2 : State := tChain [(4, 65535), (5, 2)]

theorem test_witness_ChainEdits :
    let s := tCh
    let long := tWith { tChainStrand with chains := [(1, { segs := List.replicate 32 ⟨4, 0, 16⟩ }), (2, { segs := [⟨4, 0, 16⟩] })] }
    (s.editable [3] [1, 2] ∧ (s.segs 1 ++ s.segs 2).length ≤ 32 ∧ s.saturates s.myCx (s.segs 1 ++ s.segs 2) = false)
    ∧ (s.editable [3] [1] ∧ s.saturates s.myCx (s.segs 1) = false)
    ∧ (tCh2.editable [3] [1] ∧ tCh2.saturates tCh2.myCx (tCh2.segs 1) = true)
    ∧ (long.editable [3] [1, 2] ∧ 32 < (long.segs 1 ++ long.segs 2).length)
    ∧ (long.editable [2] [1] ∧ 32 < (long.segs 2 ++ long.segs 1).length)
    ∧ s.me.streamed 6 = true := by unfold State.editable; decide +kernel

theorem test_witness_ChainTrims :
    let s := tCh
    let n2 := tWith { tChainStrand with gm := { fa := 1, fb := 1 } }
    s.editable [1] [] ∧ (s.reg 1).toNat * s.me.gm.fmtA.bits % 8 = 0
    ∧ Min.min (s.reg 1).toNat (segsLen (s.segs 1) * 8 / s.me.gm.fmtA.bits) ≠ 0
    ∧ Min.min (0 : BitVec 11).toNat (segsLen (s.segs 1) * 8 / s.me.gm.fmtA.bits) = 0
    ∧ n2.editable [1] [] ∧ (3 : BitVec 11).toNat * n2.me.gm.fmtA.bits % 8 ≠ 0 := by unfold State.editable; decide +kernel

theorem test_witness_ChainSplits :
    let s := tCh
    let n2 := tWith { tChainStrand with gm := { fa := 1, fb := 1 } }
    let cut (s : State) : Option Seg :=
      if (s.segs 1).length < (segsTake 8 (s.segs 1)).length + (segsDrop 8 (s.segs 1)).length then (segsDrop 8 (s.segs 1)).head?
      else none
    (3 : CReg) ≠ 1 ∧ s.editable [3, 1] [] ∧ (s.reg 1).toNat * s.me.gm.fmtA.bits % 8 = 0
    ∧ (cut s = some ⟨4, 72, 8⟩ ∧ s.refs s.myCx 4 < 65535)
    ∧ (tCh2.editable [3, 1] [] ∧ cut tCh2 = some ⟨4, 72, 8⟩ ∧ 65535 ≤ tCh2.refs tCh2.myCx 4)
    ∧ n2.editable [3, 1] [] ∧ (3 : BitVec 11).toNat * n2.me.gm.fmtA.bits % 8 ≠ 0 := by unfold State.editable; decide +kernel

theorem tCh_buffers : tCh.hasBuffers 1 := buffersOf (by decide +kernel)

theorem test_witness_ChainBuilds :
    (tCh.editable [3] [] ∧ tCh.hasBuffers 1)
    ∧ (tCh.editable [3] [1] ∧ tCh.segsMarked tCh.myCx (tCh.segs 1) = false
      ∧ tCh.hasBuffers (tCh.buffersFor (tCh.segBytes tCh.myCx (tCh.segs 1)).length))
    ∧ (let s := tWith { tChainStrand with chains := [(1, { segs := List.replicate 4 ⟨4, 0, 4096⟩ })] }
       s.editable [3] [1] ∧ 32 * s.myPool.size < (s.segBytes s.myCx (s.segs 1)).length) :=
  ⟨⟨by unfold State.editable; decide +kernel, tCh_buffers⟩,
    ⟨by unfold State.editable; decide +kernel, by decide +kernel, tCh_buffers⟩, by unfold State.editable; decide +kernel⟩

theorem test_witness_ChainElementAdds :
    let s := tCh
    let n2 := tWith { tChainStrand with gm := { fa := 1, fb := 1 } }
    (n2.editable [1] [] ∧ n2.me.gm.fmtA.bits < 8)
    ∧ (s.editable [1] [] ∧ 8 ≤ s.me.gm.fmtA.bits ∧ s.segs 1 = [] ++ [⟨4, 64, 16⟩] ∧ s.refs s.myCx 4 = 1)
    ∧ (64 + 16 + 4 > (s.pool s.myCx false).size ∧ (tChain [(5, 1)]).refs 0 4 ≠ 1 ∧ (tChain [(5, 1)]).segs 1 = ⟨4, 64, 16⟩ :: [])
    ∧ (tVec.editable [3] [] ∧ tVec.segs 3 = []) ∧ s.hasBuffers 1 ∧ tVec.hasBuffers 1 :=
  ⟨by unfold State.editable; decide +kernel, by unfold State.editable; decide +kernel, by decide +kernel,
    by unfold State.editable; decide +kernel, tCh_buffers, tVec_buffers⟩

/-- c1 lies in a buffer of 256 bytes, with room before and behind. -/
def tRoomy : State :=
  let s := tWith { tChainStrand with chains := [(1, { segs := [⟨4, 64, 16⟩] })] }
  { s with cxs := [(0, { s.cx 0 with near := { tPool with bsize := 2, refs := [(4, 1)] } })] }

theorem test_witness_ChainElementAdds_inPlace :
    let s := tRoomy
    s.editable [1] [] ∧ s.segs 1 = [] ++ [⟨4, 64, 16⟩] ∧ s.segs 1 = ⟨4, 64, 16⟩ :: [] ∧ s.refs s.myCx 4 = 1
    ∧ 64 + 16 + 4 ≤ (s.pool s.myCx (idFar 4)).size ∧ 4 ≤ 64 ∧ 64 ≤ (s.pool s.myCx (idFar 4)).size := by
  unfold State.editable; decide +kernel

theorem test_witness_ChainElementWrites :
    let s := tRoomy
    let n2 := tWith { tChainStrand with gm := { fa := 1, fb := 1 } }
    (n2.editable [1] [] ∧ (3 : BitVec 11).toNat * n2.me.gm.fmtA.bits % 8 ≠ 0)
    ∧ (s.editable [1] [] ∧ segsLen (s.segs 1) * 8 / 32 ≤ (s.reg 4).toNat)
    ∧ ((s.reg 1).toNat < segsLen (s.segs 1) * 8 / 32 ∧ segAt ((s.reg 1).toNat * 4) 4 (s.segs 1) 0 = some (0, 72)
      ∧ (s.segs 1)[0]? = some ⟨4, 64, 16⟩ ∧ 64 + 16 ≤ (s.pool s.myCx (idFar 4)).size ∧ s.refs s.myCx 4 = 1)
    ∧ ((tVec.editable [1] []) ∧ tVec.refs tVec.myCx 4 ≠ 1 ∧ tVec.bufMarked tVec.myCx 4 0 16 = false ∧ tVec.hasBuffers 1
      ∧ 16 ≤ tVec.myPool.size)
    ∧ segAt 14 4 [⟨4, 0, 16⟩, ⟨5, 0, 16⟩] 0 = none :=
  ⟨by unfold State.editable; decide +kernel, by unfold State.editable; decide +kernel, by decide +kernel,
    ⟨by unfold State.editable; decide +kernel, by decide +kernel, by decide +kernel, tVec_buffers, by decide +kernel⟩,
    by decide +kernel⟩

/-- c1 in a far buffer that another chain shares, of more bytes than a near buffer holds; with 31 segments more or
without. -/
def tShared (n : Nat) : State :=
  let s := tWith { tChainStrand with chains := [(1, { segs := ⟨2 ^ 23 + 4, 0, 100⟩ :: List.replicate n ⟨5, 0, 4⟩ })] }
  { s with cxs := [(0, { s.cx 0 with far := { tPool with bsize := 2, base := 0x20, refs := [(4, 2)] } })] }

theorem test_witness_ChainElementWrites_copies :
    let s := tShared 0
    (s.editable [1] [] ∧ (s.reg 1).toNat * s.me.gm.fmtA.bits % 8 = 0 ∧ (s.reg 1).toNat < segsLen (s.segs 1) * 8 / 32
      ∧ segAt 8 4 (s.segs 1) 0 = some (0, 8) ∧ (s.segs 1)[0]? = some ⟨2 ^ 23 + 4, 0, 100⟩
      ∧ 100 ≤ (s.pool s.myCx (idFar (2 ^ 23 + 4))).size ∧ s.refs s.myCx (2 ^ 23 + 4) ≠ 1
      ∧ s.bufMarked s.myCx (2 ^ 23 + 4) 0 100 = false ∧ s.myPool.size < 100)
    ∧ ((s.newSegs 100).length = 2 ∧ (s.segs 1).length - 1 + 2 ≤ 32)
    ∧ s.hasBuffers 2 ∧ 32 < ((tShared 31).segs 1).length - 1 + ((tShared 31).newSegs 100).length :=
  ⟨by unfold State.editable; decide +kernel, by decide +kernel, buffersOf (by decide +kernel), by decide +kernel⟩

/-- c1 in a far buffer that no other chain names, the line after its bytes marked; and of 32 segments, the last of them
shared. -/
def tHeld : State :=
  let s := tWith { tChainStrand with chains := [(1, { segs := [⟨2 ^ 23 + 4, 64, 16⟩] })] }
  let far : Pool := { tPool with bsize := 2, base := 0x20, refs := [(4, 1)] }
  { s with cxs := [(0, { s.cx 0 with far := far })], poison := [(far.farPlace 4 + 64) / 64] }

theorem test_witness_ChainElementAdds_traps :
    let s := tHeld
    let id := 2 ^ 23 + 4
    let full := tWith { tChainStrand with chains := [(1, { segs := List.replicate 32 ⟨4, 0, 4⟩ })] }
    (s.editable [1] [] ∧ s.segs 1 = [] ++ [⟨id, 64, 16⟩] ∧ s.segs 1 = ⟨id, 64, 16⟩ :: [] ∧ s.refs s.myCx id = 1)
    ∧ (64 + 16 + 4 ≤ (s.pool s.myCx (idFar id)).size ∧ s.bufHeld s.myCx id (64 + 16) 4 = true ∧ 4 ≤ 64
      ∧ { s with poison := s.poison.map (· - 1) }.bufHeld s.myCx id (64 - 4) 4 = true)
    ∧ (full.editable [1] [] ∧ full.segs 1 = List.replicate 31 ⟨4, 0, 4⟩ ++ [⟨4, 0, 4⟩]
      ∧ full.segs 1 = ⟨4, 0, 4⟩ :: List.replicate 31 ⟨4, 0, 4⟩ ∧ full.refs full.myCx 4 ≠ 1 ∧ 32 ≤ 31 + 1)
    ∧ (s.reg 1).toNat < segsLen (s.segs 1) * 8 / 32 ∧ segAt ((s.reg 1).toNat * 4) 4 (s.segs 1) 0 = some (0, 72)
    ∧ s.bufHeld s.myCx id 72 4 = true := by
  unfold State.editable; decide +kernel

theorem test_witness_ChainReads :
    let s := tCh
    let n2 := tWith { tChainStrand with gm := { fa := 1, fb := 1 } }
    let split := tWith { tChainStrand with chains := [(1, { segs := [⟨4, 0, 6⟩, ⟨5, 0, 6⟩] })] }
    let marked := { s with cxs := [(0, { s.cx 0 with sramPoison := [5] })] }
    s.editable [] [1] ∧ (s.segs 1).length ≤ (s.reg 1).toNat ∧ (s.segs 2)[(s.reg 1).toNat - 1]? = some ⟨5, 0, 16⟩
    ∧ ((0 : BitVec 11).toNat < segsLen (s.segs 2) * 8 / 32 ∧ s.editable [] [2]
      ∧ s.chainElem s.myCx (s.segs 2) s.me.gm.fmtA 0 = .val 1)
    ∧ (split.editable [] [1] ∧ 1 < segsLen (split.segs 1) * 8 / 32
      ∧ split.chainElem 0 (split.segs 1) split.me.gm.fmtA 1 = .bad .element {})
    ∧ (marked.editable [] [1] ∧ (match marked.chainElem 0 (marked.segs 1) marked.me.gm.fmtA 0 with
        | .bad c _ => c == .poison | _ => false) = true)
    ∧ segsLen (s.segs 1) * 8 / 32 ≤ (s.reg 4).toNat
    ∧ n2.editable [] [1] ∧ (3 : BitVec 11).toNat * n2.me.gm.fmtA.bits % 8 ≠ 0 := by
  unfold State.editable; decide +kernel

/-- The states between the pieces of a store, and the pages of the pieces. -/
def storeStates (s : State) (a : Access) (va : Nat) (bs : List Byte) (parts : List (Nat × Nat)) (j : Nat) : State :=
  (parts.take j).foldl (fun s p =>
    match s.check a (va + p.1 : Nat) p.2 false true (decide (p.1 < wholeBytes va bs.length)) with
    | .ok g => s.store a g ((bs.drop p.1).take p.2) (decide (p.1 < wholeBytes va bs.length) && (p.1 + p.2) % 64 == 0)
    | _ => s) s

def storePages (s : State) (a : Access) (va : Nat) (bs : List Byte) (parts : List (Nat × Nat)) (j : Nat) : Page :=
  let p := parts.getD j (0, 0)
  match (storeStates s a va bs parts j).check a (va + p.1 : Nat) p.2 false true (decide (p.1 < wholeBytes va bs.length)) with
  | .ok g => g
  | _ => { pa := 0 }

theorem storesOf {s : State} {a : Access} {va : Nat} {bs : List Byte} {parts : List (Nat × Nat)}
    (h : ∀ j, j < parts.length →
      (storeStates s a va bs parts j).check a (va + (parts.getD j (0, 0)).1 : Nat) (parts.getD j (0, 0)).2 false true
        (decide ((parts.getD j (0, 0)).1 < wholeBytes va bs.length)) = .ok (storePages s a va bs parts j)) :
    s.Stores a va bs parts (storeStates s a va bs parts) (storePages s a va bs parts) := by
  have hc : ∀ j p, parts[j]? = some p →
      (storeStates s a va bs parts j).check a (va + p.1 : Nat) p.2 false true (decide (p.1 < wholeBytes va bs.length))
        = .ok (storePages s a va bs parts j) := by
    intro j p hp
    have hj : j < parts.length := (List.getElem?_eq_some_iff.mp hp).1
    have := h j hj
    rwa [List.getD_eq_getElem?_getD, hp, Option.getD_some] at this
  refine ⟨rfl, hc, fun j p hp => ?_⟩
  have hs : storeStates s a va bs parts (j + 1)
      = match (storeStates s a va bs parts j).check a (va + p.1 : Nat) p.2 false true
          (decide (p.1 < wholeBytes va bs.length)) with
        | .ok g => (storeStates s a va bs parts j).store a g ((bs.drop p.1).take p.2)
            (decide (p.1 < wholeBytes va bs.length) && (p.1 + p.2) % 64 == 0)
        | _ => storeStates s a va bs parts j := by
    simp [storeStates, List.take_add_one, hp, List.foldl_append]
  rw [hs, hc j p hp]

theorem test_witness_ChainSpills :
    let s := tCh
    let frame := leBytes 8 (16 + s.me.gm.fa.toNat * 2 ^ 32) ++ List.replicate 56 0 ++ (s.segBytes s.myCx (s.segs 1)).take 16
    (s.editable [1] [] ∧ (s.reg 3).toNat % 64 ≠ 0)
    ∧ ((s.reg 2).toNat % 64 = 0 ∧ s.segsMarked s.myCx (segsTake 16 (s.segs 1)) = false)
    ∧ (∃ σ g, s.Stores s.myAccess (s.reg 2).toNat frame (pieces frame.length) σ g
        ∧ (g 0).pa < mboxBase ∧ (σ 0).lost (g 0).pa = false ∧ (σ 0).cellSound s.myAccess (g 0))
    ∧ ((s.readSpan s.myAccess 0x2000 8).toOption.map fun p =>
        (leNat p.1 / 2 ^ 37, (p.2.readSpan s.myAccess 0x2040 (leNat p.1 % 2 ^ 32)).toOption.map (·.1))) = some (0, some [])
    ∧ s.hasBuffers (s.buffersFor 0) :=
  ⟨⟨by unfold State.editable; decide +kernel, by decide +kernel⟩, by decide +kernel,
    ⟨_, _, storesOf (by decide +kernel), by unfold State.cellSound; decide +kernel⟩, by decide +kernel,
    buffersOf (by decide +kernel)⟩

/-- The bytes that `s` reads at `va`, and the state after it. -/
def spanOf (s : State) (va n : Nat) : List Byte × State :=
  match s.readSpan s.blockAccess va n with | .ok p => p | .error _ => ([], s)

theorem spanReads {s v : State} {va n : Nat} (hb : v.blockAccess = s.blockAccess)
    (h : (v.readSpan s.blockAccess va n).toOption.isSome = true) :
    v.readSpan s.blockAccess va n = .ok ((spanOf v va n).1, (spanOf v va n).2) := by
  unfold spanOf
  rw [hb]
  cases g : v.readSpan s.blockAccess va n with
  | ok p => rfl
  | error x => simp [g, Except.toOption] at h

/-- An object of two blocks at 0x2000 and 0x2200, of one entry each. -/
def tObject : State :=
  let entry (id n : Nat) : Nat := id * 2 ^ 25 + n
  (tCh.setBytes 0x2000 (dwordBytes [0x8000000000000001, 0x2200, 0, 0, BitVec.ofNat 64 (entry 4 16)])).setBytes 0x2200
    (dwordBytes [1, 0, 0, 0, BitVec.ofNat 64 (entry 5 8)])

theorem test_witness_ChainObjects :
    let s := tCh
    (s.editable [3] [] ∧ s.editable [] [1] ∧ (s.reg 3).toNat % 512 ≠ 0)
    ∧ ((s.reg 2).toNat % 512 = 0 ∧ s.saturates s.myCx (s.segs 1) = false ∧ tCh2.saturates tCh2.myCx (tCh2.segs 1) = true)
    ∧ s.Object [] [] 0x2000 s [] (spanOf s 0x2000 512).2
    ∧ ((spanOf s 0x2000 512).2.writeLines s.blockAccess 0x2000 (List.replicate 512 0) 8).1 = none := by
  refine ⟨by unfold State.editable; decide +kernel, by decide +kernel, ?_, by decide +kernel⟩
  exact .empty _ _ _ _ (spanReads rfl (by decide +kernel)) (by decide +kernel)

theorem test_witness_ChainObjects_entries :
    let s := tObject
    let u := (spanOf s 0x2000 512).2
    s.editable [3] [] ∧ s.editable [] [1] ∧ s.saturates s.myCx [⟨4, 0, 16⟩, ⟨5, 0, 8⟩] = false
    ∧ s.Object [] [] 0x2000 s [⟨4, 0, 16⟩, ⟨5, 0, 8⟩] (spanOf u 0x2200 512).2 := by
  have sound {bs : List Byte} {k : Nat} (h : (dword bs 0 / 2 ^ 32 % 2 ^ 7 = tObject.myCx
      ∧ (dword bs 0 / 2 ^ 39 % 2 ^ 24 = 0 ∧ dword bs 0 / 2 ^ 6 % 2 ^ 26 = 0 ∧ dword bs 2 / 2 ^ 32 = 0 ∧ dword bs 3 = 0
        ∧ (∀ i, i < 32 → dword bs (4 + i) / 2 ^ 49 = 0) ∧ ∀ i, i < 28 → dword bs (36 + i) = 0)
      ∧ k + dword bs 0 % 64 ≤ 32
      ∧ ∀ g ∈ spineEntries bs, 0 < g.count ∧ g.start + g.count ≤ (tObject.pool tObject.myCx (idFar g.id)).size
        ∧ 0 < tObject.refs tObject.myCx g.id)) : tObject.SpineBlock bs k := ⟨h.1, h.2.1, h.2.2.1, h.2.2.2⟩
  refine ⟨by unfold State.editable; decide +kernel, by unfold State.editable; decide +kernel, by decide +kernel, ?_⟩
  refine .more [] [] _ _ _ (spanOf tObject 0x2000 512).2 _ _ (spanReads rfl (by decide +kernel)) (fun _ => by decide +kernel)
    (sound (by decide +kernel)) (by decide +kernel) (by decide +kernel) (by decide +kernel) (by decide +kernel) ?_
  have h : [] ++ spineEntries (spanOf tObject 0x2000 512).1 = [⟨4, 0, 16⟩] := by decide +kernel
  have n : dword (spanOf tObject 0x2000 512).1 1 = 0x2200 := by decide +kernel
  have e : [⟨4, 0, 16⟩, ⟨5, 0, 8⟩] = [⟨4, 0, 16⟩] ++ spineEntries (spanOf (spanOf tObject 0x2000 512).2 0x2200 512).1 := by
    decide +kernel
  rw [h, n, e]
  exact .last _ _ _ _ _ _ (spanReads (by decide +kernel) (by decide +kernel)) (fun x => by simp at x)
    (sound (by decide +kernel)) (by decide +kernel)

/-! ### Copies, streams, barriers and slots -/

theorem readOf {ε α β : Type} {e : Except ε (α × β)} {a : α} (h : e.toOption.map (·.1) = some a) : ∃ b, e = .ok (a, b) := by
  cases e with
  | ok p => exact ⟨p.2, by simp only [Except.toOption, Option.map_some, Option.some.injEq] at h; rw [← h]⟩
  | error x => simp [Except.toOption] at h

/-- A block of sixteen i32 elements from 0x5000, one chunk, whose D1 is `d1`. -/
def tBlock (d1 : Word) : Block := [0x4000000000005000, d1, 0x400F0, 0, 0, 0, 0, 0x400]
/-- The block at 0x2000, with `copies` in flight and completion mask k1. -/
def tCpy (d1 : Word) (copies : List Copy) (k : KMask) : State :=
  let s := tMat { tChainStrand with kmasks := [(1, k)] }
  { s.setBytes 0x2000 (dwordBytes (tBlock d1)) with copies := copies }
def tCopyOf (d1 : Word) : Copy :=
  { id := 3, owner := .strand 1, part := 0, cplx := 0, mode := .supervisor, tag := 0, blockVa := 0x2000, block := tBlock d1
    segs := [], todo := [0], failed := [], done := [], counts := true, fault := none, clk := [] }
/-- To memory with k1, to memory without a mask, to slot o7, and to chain register c3. -/
def d1Mem : Word := 0x0400000000006000
def d1None : Word := 0x3C00000000006000
def d1Slot : Word := 0x4400000000070000
def d1Chain : Word := 0x8400000000000003

theorem test_witness_CompletionMasks :
    let s := tCpy d1Mem [tCopyOf d1Mem] { bits := 3 }
    let idle := tCpy d1Mem [] { bits := 3 }
    (∀ j, 0 ≤ j → j < 0 + (0x20000 : Word).toNat / 2 ^ 16 % 1024 → j < 512 → (s.me.kmask 1).bits.getLsbD j = true)
    ∧ ((s.me.kmask 1).bits.getLsbD 511 = false ∧ (0x101FF : Word).toNat % 512 = 511)
    ∧ s.flight s.me.uid 1 ≠ 0 ∧ idle.flight idle.me.uid 1 = 0
    ∧ (tBase { tStrand with wait := .waitk 1 0x20000 }).me.wait = .waitk 1 0x20000 := by decide +kernel

/-- What the claim asks of the block that a copy instruction finds. -/
def CopyFinds (d1 : Word) (copies : List Copy) (k : KMask) : Prop :=
  let s := tCpy d1 copies k
  (∃ u, s.readBlock s.myAccess (s.reg 2) = .ok (tBlock d1, u)) ∧ (tBlock d1).defect false true = false
    ∧ s.copyReady (tBlock d1) ∧ ¬ 16 ≤ (s.inFlight s.me.uid).length

theorem copyFinds {d1 : Word} {copies : List Copy} {k : KMask} (h : let s := tCpy d1 copies k; let b := tBlock d1
    (s.readBlock s.myAccess (s.reg 2)).toOption.map (·.1) = some b ∧ b.defect false true = false
      ∧ ((b.kreg ≤ 7 → b.kbase + b.chunks ≤ 512)
        ∧ (b.dkind = 1 → s.holds b.slot = true ∧ b.offset + b.bytes ≤ 32768 ∧ b.offset % b.size = 0)
        ∧ (b.dkind = 2 → s.me.streamed (BitVec.ofNat 5 b.creg) = false))
      ∧ ¬ 16 ≤ (s.inFlight s.me.uid).length) : CopyFinds d1 copies k :=
  ⟨readOf h.1, h.2.1, ⟨h.2.2.1.1, h.2.2.1.2.1, h.2.2.1.2.2⟩, h.2.2.2⟩

theorem test_witness_CopyIssue :
    CopyFinds d1Mem [] {} ∧ CopyFinds d1None [] {} ∧ CopyFinds d1Slot [] {}
    ∧ (CopyFinds d1Chain [] {} ∧ Block.dkind (tBlock d1Chain) = 2 ∧ (tCpy d1Chain [] {}).copyInto 3 = false
      ∧ (tCpy d1Chain [] {}).hasBuffers ((tCpy d1Chain [] {}).buffersFor (Block.bytes (tBlock d1Chain))))
    ∧ (CopyFinds d1Chain [tCopyOf d1Chain] {} ∧ (tCpy d1Chain [tCopyOf d1Chain] {}).copyInto 3 = true)
    ∧ (CopyFinds d1Mem [tCopyOf d1Mem] {} ∧ (tCpy d1Mem [tCopyOf d1Mem] {}).flight 1 1 ≠ 0)
    ∧ (CopyFinds d1Mem [] { bits := 1 } ∧ (List.range (Block.chunks (tBlock d1Mem))).filter
        (fun j => !((tCpy d1Mem [] { bits := 1 }).me.kmask 1).bits.getLsbD (Block.kbase (tBlock d1Mem) + j)) = []) :=
  ⟨copyFinds (by decide +kernel), copyFinds (by decide +kernel), copyFinds (by decide +kernel),
    ⟨copyFinds (by decide +kernel), rfl, by decide +kernel, buffersOf (by decide +kernel)⟩,
    ⟨copyFinds (by decide +kernel), by decide +kernel⟩, ⟨copyFinds (by decide +kernel), by decide +kernel⟩,
    copyFinds (by decide +kernel), by decide +kernel⟩

theorem test_witness_CopyIssue_stops :
    let s := tCpy d1Mem (List.replicate 16 (tCopyOf d1Mem)) {}
    16 ≤ (s.inFlight s.me.uid).length ∧ (s.reg 3).toNat % 64 ≠ 0 ∧ Block.kreg (tBlock d1None) = 15
    ∧ (tBlock 0x0200000000006000).defect false true = true := by decide +kernel

/-- A copy into a chain register that finds too few buffers, before and after the block has been read. -/
theorem test_witness_CopyIssue_fills :
    let s (l : List Nat) (a : Option (Word × Block)) : State :=
      let u := tCpy d1Chain [] {}
      { u.setMe { u.me with again := a } with cxs := [(0, { u.cx 0 with near := { tPool with free := l } })] }
    let b := tBlock d1Chain
    (Block.dkind b = 2 ∧ Block.bytes b ≤ 32 * (s [] none).myPool.size ∧ (s [] none).copyReady b
      ∧ (s [] none).copyInto 3 = false ∧ (s [] none).myPool.enable = true ∧ (s [] none).behind 0 false = false
      ∧ (s [] none).myPool.free.length < (s [] none).buffersFor (Block.bytes b))
    ∧ ((s [0] (some (0x2000, b))).me.again = some (0x2000, b)
      ∧ (s [0] (some (0x2000, b))).hasBuffers ((s [0] (some (0x2000, b))).buffersFor (Block.bytes b))) :=
  ⟨⟨rfl, by decide +kernel, ⟨by decide +kernel, by decide +kernel, by decide +kernel⟩, by decide +kernel⟩, rfl,
    buffersOf (by decide +kernel)⟩

/-- A `cpyr` that has waited, with the block that it read. -/
theorem test_witness_CopyIssue_again :
    let s (copies : List Copy) (k : KMask) : State :=
      let u := tCpy d1Mem copies k
      u.setMe { u.me with again := some (0x2000, tBlock d1Mem) }
    ((s [] {}).me.again = some (0x2000, tBlock d1Mem) ∧ (s [] {}).flight 1 1 = 0
      ∧ (List.range (Block.chunks (tBlock d1Mem))).filter
        (fun j => !((s [] {}).me.kmask 1).bits.getLsbD (Block.kbase (tBlock d1Mem) + j)) ≠ [])
    ∧ (s [tCopyOf d1Mem] {}).flight 1 1 ≠ 0 ∧ (s [] { bits := 1 }).me.again.isSome
    ∧ (s [] {}).copyReady (tBlock d1Mem) :=
  ⟨by decide +kernel, by decide +kernel, by decide +kernel, ⟨by decide +kernel, by decide +kernel, by decide +kernel⟩⟩

theorem test_witness_CopyChunks :
    let s := tCpy d1Mem [tCopyOf d1Mem] {}
    let k := tCopyOf d1Mem
    let f := s.chunkAgent k
    let e := { s with parts := [(0, { tPart with pbound := (List.range 8).map fun i => (i, 0x500000005) })] }
    let g := e.chunkAgent k
    (s.copy? 3 = some k ∧ 0 ∈ k.todo)
    ∧ ((f.2.pass k (k.access f.1) none 0).1.fault = none
      ∧ (f.2.pass k (k.access f.1) none 0).1.cell = false)
    ∧ s.strands.find? (fun e => e.2.resident && e.2.uid == 1) = some (0, s.strand 0)
    ∧ (g.2.pass k (k.access g.1) none 0).1.fault = some (0, .permission, 0x5000)
    ∧ (g.2.pass k (k.access g.1) (some (Config.chunkByteNew e.freeCount)) 0).1.fault
        = some (0, .permission, 0x5000)
    ∧ (g.2.pass k (k.access g.1) (some (Config.chunkByteNew e.freeCount)) 0).1.cell = false := by
  decide +kernel

/-- A chunk for slot o7 whose source line is marked. -/
theorem test_witness_CopyChunks_marked :
    let k := tCopyOf d1Slot
    let s := { tCpy d1Slot [k] {} with poison := [0x140] }
    let f := s.chunkAgent k
    let bad := (f.2.pass k (k.access f.1) (some (Config.chunkByteNew s.freeCount)) 0).1
    (s.copy? 3 = some k ∧ 0 ∈ k.todo) ∧ bad.fault = some (0, .poison, 0x5000) ∧ bad.cell = false ∧ bad.poison = true
    ∧ Block.dkind k.block = 1 := by decide +kernel

/-- What `strm c3, [s2]` finds: the buffers it takes, the bytes of its first strip, and the states on the way. -/
def tStrm : Option (State × List Nat × State × List Byte × State) :=
  let s := tCpy d1Mem [] {}
  let acc : Access := { s.myAccess with agent := s.nextId }
  match (s.readBlock s.myAccess (s.reg 2)).toOption with
  | none => none
  | some (b, u) => match (u.allocs s.myCx s.me.farPool (s.buffersFor (4 * Block.size b))).toOption with
    | none => none
    | some (ids, w) =>
        let rel := w.forgets.myRelease .sys
        match (({ rel.2 with nextId := s.nextId + 1 } : State).setClk s.nextId rel.1.clk).gatherRun acc b (List.range 4) with
        | (bs, none, v) => some (u, ids, w, bs, v)
        | _ => none

theorem test_witness_StreamRegisters :
    let s := tCpy d1Mem [] {}
    (s.copyInto 3 = false ∧ (s.reg 3).toNat % 64 ≠ 0)
    ∧ ((tBlock d1Mem).defect false false = false ∧ s.me.streamed 3 = false ∧ s.me.streams < 8)
    ∧ (tStrm.map fun x => (x.2.1, x.2.2.2.1)) = some ([0], List.replicate 16 0)
    ∧ (∃ u, s.readBlock s.myAccess (s.reg 2) = .ok (tBlock d1Mem, u)) ∧ s.hasBuffers (s.buffersFor (4 * 4))
    ∧ (s.me.streamed 6 = true ∧ (tBlock d1Mem).defect true false = true)
    ∧ ((s.me.chain 3).stream = none ∧ (s.me.chain 6).stream = some (tStreamOf [] 0)) :=
  ⟨by decide +kernel, by decide +kernel, by decide +kernel, readOf (by decide +kernel), buffersOf (by decide +kernel),
    by decide +kernel⟩

theorem test_witness_StreamRegisters_refill :
    let s := tCpy d1Mem [] {}
    let st := tStreamOf [] 0
    let B : Block := st.block
    (s.me.chain 6).stream = some st ∧ s.me.resident = true ∧ st.ahead = [] ∧ st.bad = none
    ∧ Min.min s.me.vl.toNat (Block.count B - 0) ≠ 0 ∧ 0 < Block.size B ∧ st.delivered = st.height
    ∧ (s.pool 0 false).enable = true ∧ 1 ≤ (s.pool 0 false).free.length ∧ (s.pool 0 false).free.Nodup
    ∧ (∀ i ∈ (s.pool 0 false).free, i < 2 ^ 23) ∧ (∀ i ∈ s.onCx 0, s.waitsFor false i = none)
    ∧ ((s.allocs 0 false 1).toOption.map fun p =>
        (p.1, (p.2.gatherRun (st.access s.me.part s.me.uid 0) B (List.range 4)).2.1.isNone)) = some ([0], true)
    ∧ tStreamOf [⟨0, 0, 4⟩] 0 ≠ st := by decide +kernel

/-- c3 is the negative of stream register c6, whose next four elements have come. -/
theorem test_witness_StreamRegisters_strip :
    let st := tStreamOf [⟨4, 0, 16⟩] 0
    let s := tWith { tChainStrand with chains := [(6, { segs := [], stream := some st })] }
    let m := memberVneg 3 6 false s.me.gm
    let P := st.pop s.me.vl.toNat
    let strip := match P.held with | some g => g.1 | none => []
    (elementwise (.vneg 3 6 false) = true ∧ memberOf s.me.gm (.vneg 3 6 false) = some m ∧ m.fits = true ∧ m.clash = false
      ∧ m.dests = [(3, 32)] ∧ s.me.streamed 3 = false ∧ s.copyInto 3 = false ∧ (s.me.chain 6).stream = some st)
    ∧ s.scalarNext ∧ ((6 : CReg) ∈ m.reads ∧ s.me.vstart = 0 ∧ s.me.gm.gk = false)
    ∧ (P.delivered = P.height ∧ P.height = 4 ∧ (∀ q ∈ m.bound ++ m.other, q.reg = 6 → q.fmt.bits ≤ 8 * Block.size st.block))
    ∧ (∀ e, e < 4 → s.mapFrom (fun q e => if q.reg = 6 then s.chainElem s.myCx strip q.fmt e else s.operand q e) m (opOf m)
        none none false e = .val ([0xFFFFFFF9, 1, 0x80000001, 0xFFFFFFFE].getD e 0, 0))
    ∧ s.hasBuffers (s.buffersFor 16) :=
  ⟨⟨rfl, rfl, by decide +kernel⟩, nopNext (by decide +kernel), by decide +kernel, by decide +kernel, by decide +kernel,
    buffersOf (by decide +kernel)⟩

/-- A strand in group 3 of two members, one of which has arrived; `pend`, `gen` and `wait` as given. -/
def tBar (g : Group) (barst : BitVec 36) (w : Wait) : State :=
  { tBase { tStrand with grpmem := 0xFFFFFF03, barst := barst, wait := w } with
    parts := [(0, { tPart with groups := [(3, g)] })] }

theorem test_witness_FencesAndBarriers :
    let s := tBar { valid := true, members := 2, arrived := 1, resident := 2 } 0 .none
    let t := (s.me.arrived 0 0)
    let u := tBar { valid := true, members := 2, arrived := 1, resident := 2 } t.barst (.barrier 0)
    let v := tBar { valid := true, members := 2, resident := 2, gen := 1 } t.barst (.barrier 0)
    ((∀ i, i < 4 → s.me.grpmem.toNat / 256 ^ i % 256 ≠ (4 : BitVec 8).toNat) ∧ (s.myPart.group 4).valid = false)
    ∧ (s.me.grpmem.toNat / 256 ^ 0 % 256 = (3 : BitVec 8).toNat ∧ (s.myPart.group 3).valid = true ∧ s.me.pend 0 = false
      ∧ (s.myPart.group 3).arrived + 1 = (s.myPart.group 3).members)
    ∧ (u.me.pend 0 = true ∧ (u.myPart.group 3).gen = u.me.gen 0 ∧ u.me.wait = .barrier 0)
    ∧ (v.me.pend 0 = true ∧ (v.myPart.group 3).gen ≠ v.me.gen 0 ∧ v.me.wait = .barrier 0)
    ∧ (tBase { tStrand with wait := .wfi }).me.wait = .wfi := by decide +kernel

/-- Slot o2 with owner `o` and waiters `w`, the strand waiting as given. -/
def tSlot (o : Option Nat) (q : List Nat) (w : Wait) (copies : List Copy) : State :=
  { tBase { tStrand with regs := [(1, 0x400010002), (2, 0)], wait := w } with
    cxs := [(0, { tCx with slots := [(2, { owner := o, waiters := q })] })], copies := copies }

theorem test_witness_SlotClaims :
    let s := tSlot none [] .none []
    let other := tSlot (some 7) [] .none []
    let mine := tSlot (some 1) [] .none []
    let into := tSlot (some 1) [] .none [tCopyOf 0x4400000000020000]
    let queue := tSlot none [0] (.slot 2 0x400010002) []
    (geomValid (s.reg 1) = true ∧ geomValid (s.reg 2) = false)
    ∧ ((s.slot 0 2).owner = none ∧ s.slotQueue 0 2 = [])
    ∧ ¬ ((other.slot 0 2).owner = some 1 ∨ ((other.slot 0 2).owner = none
        ∧ (other.slotQueue 0 2 = [] ∨ (other.slotQueue 0 2).head? = some 0)))
    ∧ (s.holds 2 = false ∧ mine.holds 2 = true ∧ mine.copyIntoSlot 0 2 = false)
    ∧ (into.holds 2 = true ∧ into.copyIntoSlot 0 2 = true)
    ∧ ((queue.slot 0 2).owner = none ∧ (queue.slotQueue 0 2).head? = some 0
      ∧ (queue.strand 0).wait = .slot (BitVec.ofNat 6 2) 0x400010002 ∧ cxOf 0 = 0)
    ∧ (other.slot 0 (2 : OReg).toNat).owner ≠ none := by decide +kernel

theorem test_witness_EpilogueRegisters :
    let s := tBase { tStrand with regs := [(1, 0x10001), (2, 0x2000), (3, 0x2001)] }
    let t := s.setBytes 0x2000 (epilogueArea 0 (some { tEpi with lists := [[⟨5, 5, 2⟩]] }))
    (s.reg 1).toNat / 2 ^ 17 % 2 ^ 15 = 0 ∧ 1 ≤ (s.reg 1).toNat % 128 ∧ (s.reg 3).toNat % 64 ≠ 0
    ∧ (∃ σ g, s.Stores s.myAccess (s.reg 2).toNat (epilogueArea 0 none) (pieces (epilogueArea 0 none).length) σ g)
    ∧ ((s.readSpan s.myAccess 0x2000 8).toOption.map fun p => bitOf (dword p.1 0) 63) = some false
    ∧ ((t.readSpan t.myAccess 0x2000 8).toOption.bind fun p => (p.2.readSpan t.myAccess 0x2008 56).toOption.map fun q =>
        (bitOf (dword p.1 0) 63, areaHead (p.1 ++ q.1))) = some (true, some (1, 0x10001, 0))
    ∧ ((t.setBytes 0x2008 (leBytes 8 (2 ^ 63))).readSpan t.myAccess 0x2000 64).toOption.map (fun p => areaHead p.1) = some none
    ∧ ((t.readSpan t.myAccess 0x2040 16).toOption.bind fun q => areaRows q.1 1 0 1) = some [[⟨5, 5, 2⟩]]
    ∧ (ctlOk tEpi.control.toNat = true ∧ tEpi = epilogueOf 1 tEpi.control.toNat tEpi.colbase.toNat tEpi.lists
      ∧ tEpi.lists.length = 1 ∧ ∀ l ∈ tEpi.lists, l.length ≤ tEpi.k) :=
  ⟨by decide +kernel, by decide +kernel, by decide +kernel, ⟨_, _, storesOf (by decide +kernel)⟩, by decide +kernel,
    by decide +kernel, by decide +kernel, by decide +kernel⟩

/-! ### The launch unit and the package -/

theorem lowestTwo {p : Partition} (h : 2 ≤ p.tagcap.toNat ∧ Sparse.get .free 2 p.tags = .free ∧ Sparse.get .free 1 p.tags ≠ .free) :
    p.lowestFree 2 := by
  refine ⟨by omega, h.1, h.2.1, fun g _ h2 => ?_⟩
  obtain rfl : g = 1 := by omega
  exact h.2.2

theorem test_witness_ContextTags :
    let s := tBase { tStrand with regs := [(1, 0x10000), (2, 1), (3, 4095), (4, 4096)] }
    let full := { s with parts := [(0, { tPart with tags := [(1, .live), (2, .live), (3, .live), (4, .draining 5)] })] }
    let queue := { tBase { tStrand with wait := .tag 7 } with parts := [(0, { tPart with tagReqs := [.strand 0] })] }
    ((s.myPart.lowestFree 2 ∧ s.firstIn s.me.part (.strand 0) ∧ s.tagQueue 0 = [])
    ∧ (full.myPart.noneFree ∧ s.tagQueue 0 = []))
    ∧ (Sparse.get .free (s.reg 2).toNat s.myPart.tags = .live ∧ 0xFFFF < (s.reg 1).toNat)
    ∧ (queue.tagQueue 0 = .strand 0 :: [] ∧ (queue.part 0).lowestFree 2 ∧ (queue.strand 0).wait = .tag 7)
    ∧ (Sparse.get .free 4 (full.part 0).tags = .draining 5 ∧ full.clock < 5 + 16
      ∧ 5 + 16 ≤ { full with clock := 21 }.clock)
    ∧ ((s.reg 3).toNat < 4096 ∧ 4096 ≤ (s.reg 4).toNat ∧ 0xFFFF < (s.reg 1).toNat ∧ (s.reg 2).toNat ≤ 0xFFFF) := by
  refine ⟨⟨⟨lowestTwo (by decide +kernel), by unfold State.firstIn; decide +kernel, by decide +kernel⟩, fun h h1 h4 => ?_,
    by decide +kernel⟩, by decide +kernel, ⟨by decide +kernel, lowestTwo (by decide +kernel), by decide +kernel⟩, by decide +kernel⟩
  have h4 : h ≤ 4 := h4
  obtain rfl | rfl | rfl | rfl : h = 1 ∨ h = 2 ∨ h = 3 ∨ h = 4 := by omega
  all_goals decide +kernel

/-- A descriptor with the tail at `tail` and its queue enabled or not, and the record 0 of its ring. -/
def tDesc (tail on : Word) : State :=
  let s := { tBase { tStrand with regs := [(1, 64)] } with parts := [(0, { tPart with qbase := 0x3000 })] }
  (s.setBytes 0x3000 (dwordBytes [0x4000, 0x800000000 + tail * 0x10000, 0x5000, 0x800000000, on]))

theorem test_witness_QueuePolls :
    let d (s : State) : Option (List Word) := (s.readSpan (launchAccess 0) (s.descVa 0 0) 64).toOption.map fun p => dwords p.1
    let s := tDesc 1 1
    ((d s).map fun l => (descOk l, fieldOf l 4 0 0)) = some (true, 1)
    ∧ ((d (tDesc 1 0)).map fun l => fieldOf l 4 0 0) = some 0 ∧ ((d (tDesc 1 2)).map descOk) = some false
    ∧ d { s with parts := [(0, { tPart with qbase := 0x3000, pbound := (List.range 8).map fun i => (i, 0x100000001) })] } = none
    ∧ (s.queue 0 0).readTo < 65536 ∧ (s.queue 0 0).held = [] ∧ 64 ≤ (s.reg 1).toNat ∧ (s.reg 2).toNat < 64
    ∧ ({ s with parts := [(0, { tPart with queues := [(0, { held := [(1, 0)] })] })] }.queue 0 0).held ≠ []
    ∧ s.me.wait ≠ .wfi := by decide +kernel

theorem test_witness_CompletionEntries :
    let e : Ended := { uid := 1, origin := { kind := .record, queue := 0, ring := 0, token := 0x77 }, status := 0 }
    let q (h : List (Word × Word)) : QState := { tQueue 0 0 with held := h, live := [(0, 1)] }
    let on (q : QState) (ended : List Ended) : State :=
      { tBase tStrand with parts := [(0, { tPart with qbase := 0x3000, ended := ended, queues := [(0, q)] })] }
    let s := on (q [(0x77, 0)]) []
    let s1 := ((on (q []) [e]).setPart 0 { (on (q []) [e]).part 0 with ended := [] }).setQueue 0 0 { q [] with live := [] }
    let n := { s with copies := [tNodeCopy] }
    let done := { s with copies := [{ tNodeCopy with failed := [] }] }
    let writes (s : State) : Prop :=
      ∃ σ g, s.Stores (launchAccess 0) (0x3800 + 16 * (0 % 8)) (dwordBytes [0x77, 0]) (pieces 16) σ g
        ∧ (σ 2).check (launchAccess 0) (s.descVa 0 0 + 24 : Nat) 2 false true = .ok { pa := 0x3018, direct := true }
    (((on (q []) [e]).part 0).ended = e :: [] ∧ (s1.queue 0 0).enabled = true ∧ (s1.queue 0 0).held = [] ∧ (s1.queue 0 0).room)
    ∧ writes (s1.setQueue 0 0 { s1.queue 0 0 with held := [(0x77, 0)] })
    ∧ ((s.queue 0 0).held = [(0x77, 0)] ∧ (s.queue 0 0).enabled = true ∧ (s.queue 0 0).room) ∧ writes s
    ∧ (s.queue 0 1).enabled = false
    ∧ (n.nodeCopy 0 2 = some tNodeCopy ∧ tNodeCopy.todo = [] ∧ tNodeCopy.failed ≠ [] ∧ 2 ∉ (n.part 0).faultedNodes)
    ∧ (done.nodeCopy 0 2 = some { tNodeCopy with failed := [] } ∧ (3 : Nat) < done.nextId) := by
  refine ⟨by unfold QState.room; decide +kernel, ⟨_, _, storesOf (by decide +kernel), by decide +kernel⟩,
    by unfold QState.room; decide +kernel, ⟨_, _, storesOf (by decide +kernel), by decide +kernel⟩, by decide +kernel⟩

/-- A job of queue `q`, record 0, with lanes `d2` and groups and complex `d3`. -/
def tJob (q : Nat) (d2 d3 : Word) : Job :=
  { queue := q, ring := 0, node := 65535, graph := false, words := [0x1000, 5, d2, d3, 0x77] }

theorem test_witness_StrandStarts :
    let s := { tBase tStrand with parts := [(0, tLaunch 0xFFFF000000180040 0xFFFFFFFF)] }
    let t := { tBase tStrand with parts := [(0, tLaunch 0xFFFF000800180040 0xFFFFFFFF)] }
    let g := { tBase tStrand with parts := [(0, { tLaunch 0xFFFF000000180040 0xFFFFFF03 with
      groups := [(3, { valid := true, cores := true, members := 1 })], ready := [.group 3] })] }
    (s.readyOrder 0 = [.queue 0] ∧ s.jobs 0 (.queue 0) = some [tJob 0 0xFFFF000000180040 0xFFFFFFFF]
      ∧ (tJob 0 0xFFFF000000180040 0xFFFFFFFF).resume = false ∧ (tJob 0 0xFFFF000000180040 0xFFFFFFFF).newtag = false
      ∧ s.placeFor (s.part 0) (tJob 0 0xFFFF000000180040 0xFFFFFFFF).want = some (1, 0) ∧ s.freeSlot 1 0 = some 16
      ∧ (tJob 0 0xFFFF000000180040 0xFFFFFF03).groups.Nodup)
    ∧ (t.readyOrder 0 = [.queue 0] ∧ t.jobs 0 (.queue 0) = some [tJob 0 0xFFFF000800180040 0xFFFFFFFF]
      ∧ (tJob 0 0xFFFF000800180040 0xFFFFFFFF).newtag = true ∧ t.firstIn 0 (.record (.queue 0)))
    ∧ (g.readyOrder 0 = [.group 3] ∧ g.jobs 0 (.group 3) = some [tJob 0 0xFFFF000000180040 0xFFFFFF03]
      ∧ (match State.placeJobs 0 [tJob 0 0xFFFF000000180040 0xFFFFFF03] g with | .ok _ => true | _ => false) = true) := by
  unfold State.firstIn; decide +kernel

/-- Before queue 1's resume record stands queue 0's, which no side can hold while a strand has complex 1. -/
theorem test_witness_StrandStarts_resume :
    let k : Parked := { parkid := 9, cplx := 1, uid := 5, sid := 17, kmasks := [], chains := [], grpmem := 0xFFFFFF03
                        origin := { kind := .record, grouped := true } }
    let rec_ : Word := 0xFFFF001000110040
    let place : Word := 0x1301FFFFFFFF
    let p := { tLaunch 0xFFFF000000880040 0xFFFFFFFF with ready := [.queue 0, .queue 1], parked := [k] }
    let s := tOn1 { p with queues := [(0, tQueue 0xFFFF000000880040 0xFFFFFFFF), (1, tQueue rec_ place)] }
    s.readyOrder 0 = [.queue 0] ++ .queue 1 :: []
    ∧ (s.jobs 0 (.queue 0) = some [tJob 0 0xFFFF000000880040 0xFFFFFFFF]
      ∧ s.placeFor (s.part 0) (tJob 0 0xFFFF000000880040 0xFFFFFFFF).want = none)
    ∧ (s.jobs 0 (.queue 1) = some [tJob 1 rec_ place] ∧ (tJob 1 rec_ place).resume = true
      ∧ (tJob 1 rec_ place).newtag = false
      ∧ s.placeFor (s.part 0) (tJob 1 rec_ place).want = some (1, 0) ∧ s.freeSlot 1 0 = some 17)
    ∧ (s.part 0).parked.find? (fun c => c.parkid.toNat == (tJob 1 rec_ place).f 3 56 41
        && c.cplx == (tJob 1 rec_ place).f 3 38 32) = some k
    ∧ (groupIds k.grpmem.toNat).Nodup := by decide +kernel

/-- What the launch unit makes of a record: one whose lanes are 0; one that names a group without entry, and a sound one;
one whose node cannot be read, and one whose node is a copy node. -/
theorem test_witness_StrandStarts_judged :
    let s := tBase tStrand
    let P := s.part 0
    let far := { s with parts := [(0, { tPart with gcount := 4, gbase := 0x20000, pbound := [] })] }
    let copy := { s with parts := [(0, { tPart with gcount := 4, gbase := 0x2000 })] }
    let copy := copy.setBytes (copy.nodeVa 0 2) [1]
    (tJob 0 0 0xFFFFFFFF).breaks P
    ∧ (¬ (tJob 0 0xFFFF000000180040 0xFFFFFF03).breaks P ∧ (tJob 0 0xFFFF000000180040 0xFFFFFF03).badGroups P)
    ∧ ¬ (tJob 0 0xFFFF000000180040 0xFFFFFFFF).badGroups P
    ∧ (¬ (tJob 0 0x0002000000180040 0xFFFFFFFF).breaks (far.part 0) ∧ (far.readNode 0 2).1 = none)
    ∧ (¬ (tJob 0 0x0002000000180040 0xFFFFFFFF).breaks (copy.part 0)
      ∧ ((copy.readNode 0 2).1.map fun ws => fieldOf ws 0 3 0) = some 1) := by
  refine ⟨by unfold Job.breaks; decide +kernel, ⟨by unfold Job.breaks; decide +kernel, .inr (.inl ⟨0, by decide +kernel⟩)⟩, ?_,
    by unfold Job.breaks; decide +kernel, by unfold Job.breaks; decide +kernel⟩
  have h : ∀ a, a < 4 → (tJob 0 0xFFFF000000180040 0xFFFFFFFF).f 3 31 0 / 256 ^ a % 256 = 255 := by decide
  rintro (⟨a, b, ha, hb, e, n⟩ | ⟨a, ha, n, _⟩ | ⟨a, b, ha, hb, n, _⟩)
  · exact n (h a (by omega))
  · exact n (h a ha)
  · exact n (h a (by omega))

/-- What `e` gives, or `d`. -/
def okGet {ε α : Type} (e : Except ε α) (d : α) : α := match e with | .ok a => a | .error _ => d

theorem okGets {ε α : Type} {e : Except ε α} (d : α) (h : e.toOption.isSome = true) : e = .ok (okGet e d) := by
  cases e with
  | ok a => rfl
  | error x => simp [Except.toOption] at h

/-- The descriptor of `tDesc` with a tail of 1, a full completion ring, and the record `r` in its ring. -/
def tBell (r : List Word) : State :=
  let s := tDesc 1 1
  { s.setBytes 0x4000 (dwordBytes r) with parts := [(0, { tPart with qbase := 0x3000, queues := [(0,
      { enabled := true, ringbase := 0x4000, ringsize := 8, cplbase := 0x5000, cplsize := 8, cpltail := 8 })] })] }
/-- The descriptor as the launch unit reads it at the doorbell, and the record. -/
def tBellDesc (s : State) : List Byte × State :=
  okGet (((s.follows (launchAgent 0) (outAgent 0)).wakePart 0).readSpan (launchAccess 0) (s.descVa 0 0) 64) ([], s)
def tBellWith (s : State) : State := (tBellDesc s).2.setQueue 0 0 { s.queue 0 0 with cplhead := fieldOf (dwords (tBellDesc s).1) 3 31 16 }
def tBellRec (s : State) : List Byte × State := okGet ((tBellWith s).acquireSpan 0 0x4000 64) ([], s)

theorem test_witness_StrandStarts_refused :
    let d (s : State) : List Word := dwords (tBellDesc s).1
    let j (s : State) : Job := { queue := 0, ring := 0, node := 65535, graph := false, words := dwords (tBellRec s).1 }
    let finds (s : State) : Prop :=
      ((s.follows (launchAgent 0) (outAgent 0)).wakePart 0).readSpan (launchAccess 0) (s.descVa 0 0) 64 = .ok (tBellDesc s)
      ∧ (descOk (d s) = true ∧ fieldOf (d s) 4 0 0 = 1 ∧ fieldOf (d s) 1 31 16 = 1 ∧ 8 ≤ (8 + 65536 - fieldOf (d s) 3 31 16) % 65536)
      ∧ (tBellWith s).acquireSpan 0 0x4000 64 = .ok (tBellRec s) ∧ (s.part 0).nodes = []
    (finds (tBell []) ∧ (j (tBell [])).breaks (tPart))
    ∧ finds (tBell [0x1000, 5, 0xFFFF000000180040, 0xFFFFFF03, 0x77])
    ∧ (¬ (j (tBell [0x1000, 5, 0xFFFF000000180040, 0xFFFFFF03, 0x77])).breaks tPart
      ∧ (tBell []).couldHold tPart (j (tBell [0x1000, 5, 0xFFFF000000180040, 0xFFFFFF03, 0x77])).want = true
      ∧ (j (tBell [0x1000, 5, 0xFFFF000000180040, 0xFFFFFF03, 0x77])).badGroups tPart) := by
  refine ⟨⟨⟨okGets _ (by decide +kernel), by decide +kernel, okGets _ (by decide +kernel), rfl⟩, by unfold Job.breaks; decide +kernel⟩,
    ⟨okGets _ (by decide +kernel), by decide +kernel, okGets _ (by decide +kernel), rfl⟩, ?_⟩
  exact ⟨by unfold Job.breaks; decide +kernel, by decide +kernel, .inr (.inl ⟨0, by decide +kernel⟩)⟩

/-- The word at the PC is `w`, the next one a `nop`. -/
def tAt (s : State) (w : Nat) : State := s.setBytes 0x1000 (leBytes 4 w)
/-- A strand in user mode, the first 2^38 bytes being open to it. -/
def tUser (s : State) : State :=
  let s := { s with parts := [(0, { tPart with ptroot := 0x40000 })] }
  (s.setBytes 0x40000 (leBytes 8 0x110000001)).setBytes 0x44000 (leBytes 8 0x3F)

/-- Strand 0 waits for a near buffer since clock 0, `free` being free at clock 4,096. -/
def tDry (w : Nat) (free : List Nat) : State :=
  let s := tAt (tWith { tVecStrand with wait := .alloc false 0 [] }) w
  { s with clock := 4096, cxs := [(0, { s.cx 0 with near := { tPool with free := free } })] }

theorem test_witness_StrandHousekeeping :
    let late := tDry 0xA4300000 []
    let pre := tUser (tAt (tBase { tStrand with mode := .user, preq := true }) 0x04000000)
    let bad := tBase { tStrand with mode := .user }
    let double := tBase { tStrand with pc := 0x8000 }
    ((late.strand 0).wait = .alloc false 0 [] ∧ 0 + 4096 ≤ late.clock ∧ (late.pool (cxOf 0) false).free = []
      ∧ late.nextInstr = some (.cnew 3) ∧ late.me.farPool = false)
    ∧ ((tDry 0xB8008000 []).nextInstr = some (.cpy 2) ∧ (tDry 0xA4300000 [0]).clock < 1 + 4096)
    ∧ (pre.me.mayPreempt = true ∧ pre.nextInstr = some .nop ∧ opensConvoy pre.me.gm .nop = false)
    ∧ (tStrand.resident = true ∧ tStrand.wait = .none ∧ tStrand.prio + tStrand.age < 3
      ∧ 65536 * (tStrand.age + 1) ≤ { tStrand with unissued := 65536 }.unissued)
    ∧ ((decodeWord 0x803042FF).toOption = none ∧ (decodeWord 0x82304200).toOption = none)
    ∧ ((bad.fetch 0 0x1000).toOption = none ∧ ¬ (bad.me.mode ≠ .user ∧ bad.me.pc = bad.vector 0))
    ∧ (double.me.mode ≠ .user ∧ double.me.pc = double.vector 0) := by decide +kernel

/-- A `cnew` that finds the free list empty, and a `cpy` and a convoy that wait, holding a buffer that was granted. -/
theorem test_witness_StrandHousekeeping_waits :
    let s := tDry 0xA4300000 []
    let dry := s.setMe { s.me with wait := .none }
    let held (w : Nat) (free : List Nat) : State :=
      let u := tDry w free
      u.setMe { u.me with wait := .alloc false 0 [5] }
    (dry.me.farPool = false ∧ dry.editable [3] [] ∧ dry.myPool.enable = true ∧ dry.myPool.free = [] ∧ dry.me.wait = .none)
    ∧ ((held 0xB8008000 [1]).me.wait = .alloc false 0 [5] ∧ (held 0xB8008000 [1]).nextInstr = some (.cpy 2)
      ∧ ∀ i ∈ [5], i ∉ ((held 0xB8008000 [1]).pool 0 false).free)
    ∧ (∀ k ∈ (held 0x80304200 [1]).onCx 0, ∀ at_, (held 0x80304200 [1]).waitsFor false k = some at_ → 0 < at_ ∨ (0 = at_ ∧ 0 ≤ k))
    ∧ (opensConvoy s.me.gm (.vadd 3 1 2 false) = true ∧ (held 0x80304200 [1]).nextInstr = some (.vadd 3 1 2 false)
      ∧ ([5] ++ [1]).Nodup) :=
  ⟨⟨by decide +kernel, by unfold State.editable; decide +kernel, by decide +kernel⟩, by decide +kernel,
    fun k _ at_ _ => by omega, by decide +kernel⟩

/-- A waiting `cnew` for which a buffer has come free. -/
theorem test_witness_StrandHousekeeping_granted :
    let s := tDry 0xA4300000 [0]
    (s.strand 0).wait = .alloc false 0 [] ∧ { s with cur := 0 }.nextInstr = some (.cnew 3) ∧ s.editable [3] [] ∧ s.hasBuffers 1 :=
  ⟨rfl, by decide +kernel, by unfold State.editable; decide +kernel, buffersOf (by decide +kernel)⟩

/-- An element-wise convoy that has run dry, and one that is asked to stop at its third element. -/
theorem test_witness_StrandHousekeeping_convoys :
    let s := tDry 0x80304200 []
    let p := tUser (tAt (tWith { tVecStrand with mode := .user, preq := true }) 0x80304200)
    let m := memberVadd 3 1 2 false s.me.gm
    (Alone (.vadd 3 1 2 false) s m ∧ s.nextInstr = some (.vadd 3 1 2 false) ∧ p.nextInstr = some (.vadd 3 1 2 false)
      ∧ (∀ e, e < 4 → s.mapElement m (opOf m) none none false e = .val (tSums e))
      ∧ s.myPool.enable = true ∧ s.myPool.free.length < s.buffersFor 16)
    ∧ (p.me.mayPreempt = true ∧ p.me.wait ≠ .wfi ∧ p.me.due = false ∧ 0 < 2)
    ∧ Alone (.vadd 3 1 2 false) p (memberVadd 3 1 2 false p.me.gm)
    ∧ (∀ e, e < 4 → p.mapElement (memberVadd 3 1 2 false p.me.gm) (opOf m) none none false e = .val (tSums e))
    ∧ p.hasBuffers (p.buffersFor 8) :=
  ⟨⟨aloneIn rfl (by decide +kernel), by decide +kernel, by decide +kernel, by decide +kernel⟩, by decide +kernel,
    aloneIn rfl (by decide +kernel), by decide +kernel, buffersOf (by decide +kernel)⟩

theorem test_witness_FolmanActions :
    let s := { State.reset with time := 5040000000, clockStep := 4, steppedAt := some 4536000000, peers := [63], pageUse := [(7 * 128 + 63, 3), (7 * 128 + 64, 2)] }
    let row := RasUnit.row 255 3
    let err := { s with errors := List.replicate 7 (row, 0), lasting := [(row, 8)], spares := [(255, 256)] }
    ((∀ t, s.steppedAt = some t → t + 504000000 ≤ s.time) ∧ s.clockStep < 5 ∧ 0 < s.clockStep
      ∧ s.coolAt + 5040000000 ≤ s.time)
    ∧ (Sparse.get 0 7 s.pageMoves < 4 ∧ 63 ∈ s.peers ∧ 63 ∉ s.removed ∧ s.pinnedPage 7 = false
      ∧ Sparse.get 0 7 s.pageHome ≠ 63 + 1 ∧ Sparse.get 0 (7 * 128 + 63) s.pageUse = 3
      ∧ ∀ d, d = 64 ∨ d ∈ s.peers → Sparse.get 0 (7 * 128 + d) s.pageUse ≤ 3)
    ∧ (8 ≤ err.errors.countP (fun e => e.1 == row && err.time - e.2 ≤ 5040000000000) + 1 ∧ 256 ≤ Sparse.get 0 255 err.spares
      ∧ err.lasting.find? (fun e => e.1 == row) = some (row, 8)
      ∧ s.errors.countP (fun e => e.1 == row) + 1 < 8 ∧ Sparse.get 0 255 { err with spares := [] }.spares < 256)
    ∧ (3 < 4 ∧ s.qpwrOn.getLsbD 3 = true ∧ { s with qpwrReady := 7 }.qpwrReady.getLsbD 3 = false) := by
  refine ⟨⟨?_, by decide +kernel⟩, ⟨by decide, by decide, by decide, rfl, by decide, rfl, ?_⟩, by decide +kernel, by decide +kernel⟩
  · rintro t ⟨⟩; decide +kernel
  · rintro d (rfl | h)
    · decide +kernel
    · obtain rfl : d = 63 := by simpa using h
      decide +kernel

theorem test_witness_DawnAndDusk :
    let s := tBase tStrand
    s.halted = false ∧ s.failCode = 0 ∧ s.stage = 0
    ∧ ({ s with stage := 1 }.fwSlot s.activeB).failed = false ∧ 3 ≤ ({ s with stage := 3 } : State).stage.toNat
    ∧ (after (.fatalError 1 2) { s with stage := 5 }).halted = true
    ∧ (after (.fatalError 1 2) { s with stage := 5 }).dusk.isSome = true ∧ { s with failCode := 9 }.failCode ≠ 0
    ∧ ¬ 3 ≤ s.stage.toNat := by
  decide +kernel

/-- A copy of the mailbox whose command `op` has been started, with the argument doublewords `l`. -/
def tBox (op : Word) (l : List Word) : Mailbox :=
  { Mailbox.putArgs {} 0 (dwordBytes l) with run := .started, command := op }

theorem test_witness_MailboxCommands :
    let host (op : Word) (l : List Word) : State := { State.reset with hostBox := tBox op l, log := [.imageFailed] }
    let mon (op : Word) (l : List Word) : State := { State.reset with monBox := tBox op l, log := [.imageFailed] }
    let read (s : State) : Bool :=
      ((({ s with freeCount := s.freeCount + 32 } : State).boxWrite true ((s.box true).arg 0) (List.replicate 32 1)).isSome)
    ((host 1 [0x8000000000, 0x100000000]).hostBox.run = .started ∧ (host 1 [0x8000000000, 0x100000000]).hostBox.opcode = 1
      ∧ read (host 1 [0x8000000000, 0x100000000]) = true)
    ∧ ((mon 2 []).dusk = none ∧ (mon 2 []).monBox.opcode = 2)
    ∧ ((host 0x10 [0x8000000000, 8, 4]).hostBox.arg 0 + (host 0x10 [0x8000000000, 8, 4]).hostBox.arg 2 ≤ 2 ^ 64
      ∧ 2 ^ 64 < (host 0x10 [0xFFFFFFFFFFFFFFFF, 8, 4]).hostBox.arg 0 + (host 0x10 [0xFFFFFFFFFFFFFFFF, 8, 4]).hostBox.arg 2)
    ∧ (({ State.reset with dusk := some { more := 0, kind := 1, place := 2, clock := 3, size := 96, offset := [] } }).boxWrite true
        0x8000000000 [0]).isSome
    ∧ (Sparse.get none 5 [(5, some 9), (6, some 9)] = some 9 ∧ Sparse.get none 6 [(5, some 9), (6, some 9)] = some 9)
    ∧ ((mon 0x20 [16383]).monBox.opcode = 0x20 ∧ (mon 0x20 [16383]).monBox.run = .started)
    ∧ (State.reset.hostBox.run = .idle ∧ strayCode true 0x20 = some 4 ∧ strayCode false 0x7777 = some 1) := by
  decide +kernel

/-- A line written under slot 5 and read under slot 6, whose materials differ, and under slot 7, whose material is the same. -/
theorem test_witness_MailboxCommands_keys :
    let s := { State.reset with keyBytes := [(5, some 9), (6, some 8), (7, some 9)], keyLoads := [(5, 1), (6, 1), (7, 1)]
                                lineKey := [(0, some (.loaded 5 1 9))] }
    Sparse.get none 5 s.keyBytes = some 9 ∧ Sparse.get none 6 s.keyBytes = some 8 ∧ Sparse.get none 7 s.keyBytes = some 9
    ∧ 63 < 0x7FF0000000 ∧ Sparse.get none (63 / 64) s.lineKey = some (.loaded 5 (Sparse.get 0 5 s.keyLoads) 9) := by
  decide +kernel

/-- FIPS 197: the substitution of 0x53, its inverse, and a column of the mixing (log 6). -/
theorem test_aes_parts : substitute 0x53 = 0xED ∧ restore 0xED = 0x53
    ∧ (mixColumns [2, 3, 1, 1] [0xDB, 0x13, 0x53, 0x45, 0, 0, 0, 0, 0, 0, 0, 0, 0, 0, 0, 0]).take 4 = [0x8E, 0x4D, 0xA1, 0xBC] := by
  decide +kernel

/-- R281: a load of the part counts as one use of its page, by the part itself. -/
theorem test_own_use_counted :
    let s := { tBase tStrand with peers := [63], agenda := [.issue 0] }
    Sparse.get 0 64 (after (.ldu 4 2 .d 0) s).pageUse = 1 := by decide +kernel

theorem test_witness_OutsideAccesses :
    let s := { State.reset with peers := [63] }
    (2 ^ 39 - 4) + 4 ≤ 2 ^ 39 ∧ 2 ^ 39 < (2 ^ 39 - 4) + 5 ∧ (63 ∈ s.peers ∧ 63 ∉ s.removed) ∧ ¬ (62 ∈ s.peers)
    ∧ ((2 ^ 39 - 8) % 8 = 0 ∧ (2 ^ 39 - 8) / 64 ∉ s.poison ∧ (2 ^ 39 - 8) / 64 ∉ s.badLines) := by decide +kernel

theorem test_witness_DecodeEncode : Instr.wf (.addi 10 9 0x2000) = true ∧ Instr.encoded (.addi 10 9 0x2000) = true
    ∧ decodeWord 0x0CA26000 = .ok (.addi 10 9 0x2000) := ⟨rfl, rfl, okOf (by decide +kernel)⟩

theorem test_witness_StepRunsDecodedInstruction :
    let s := { tBase tStrand with mem := [(0x1003, 0x04)], agenda := [.issue 0] }
    let asked (t : Strand) (w : Nat) : State :=
      { tUser (tAt (tBase { t with mode := .user, preq := true }) w) with agenda := [.issue 0] }
    let fetched (s : State) : Option Instr := (({ s with agenda := [] } : State).tick.issuing 0).nextInstr
    let u : State := ({ s with agenda := [] } : State).tick.issuing 0
    (s.halted = false ∧ (s.strand 0).resident = true ∧ (s.strand 0).mayPreempt = false ∧ (s.strand 0).wait.blocks = false)
    ∧ (u.fetch 0 (s.strand 0).pc.toNat = .ok 0x04000000 ∧ decodeWord 0x04000000 = .ok .nop)
    ∧ (((asked { tStrand with due := true } 0).strand 0).mayPreempt = true ∧ ((asked { tStrand with due := true } 0).strand 0).due = true)
    ∧ (fetched (asked tStrand 0x80304200) = some (.vadd 3 1 2 false) ∧ fetched (asked tStrand 0x04000005) = some .endStrand
      ∧ fetched (asked tStrand 0x04000000) = some .nop ∧ ((asked tStrand 0).strand 0).due = false)
    ∧ (opensConvoy tStrand.gm (.vadd 3 1 2 false) = true ∧ opensConvoy tStrand.gm .endStrand = false) :=
  ⟨by decide +kernel, ⟨okOf (by decide +kernel), okOf (by decide +kernel)⟩, by decide +kernel, by decide +kernel, by decide +kernel⟩

/-- Whose turn it is not, what a waiting strand finds, and when a request is taken. -/
theorem test_witness_StepRunsDecodedInstruction_turns :
    let on (t : Strand) (w : Nat) : State := { tUser (tAt (tWith { t with mode := .user }) w) with agenda := [.issue 0] }
    let at_ (s : State) : State := ({ s with agenda := [] } : State).tick
    let two := at_ { on tStrand 0x04000000 with strands := [(0, { tStrand with mode := .user }), (1, { tStrand with prio := 3 })] }
    let waits := at_ (on { tStrand with wait := .cell } 0x04000000)
    let asked := at_ (on { tVecStrand with preq := true } 0x80304200)
    let twice := at_ ((on { tVecStrand with preq := true } 0x80304200).setBytes 0x1004 (leBytes 4 0x80304200))
    let mon (pc : Word) : State := at_ (tBase { tStrand with mode := .monitor, preq := true, pc := pc })
    (two.nextOn (coreOf 0) = some 1 ∧ (two.strand 0).wait = .none ∧ (two.strand 0).mayPreempt = false)
    ∧ ((waits.strand 0).wait = .cell ∧ (waits.strand 0).wait.blocks = false
      ∧ (waits.fetch 0 (waits.strand 0).pc.toNat).toOption = some 0x04000000
      ∧ ((after .nop { waits with cur := 0 }).strand 0).wait = .none)
    ∧ ((asked.strand 0).mayPreempt = true ∧ asked.nextOn (coreOf 0) = some 0 ∧ (asked.strand 0).due = false
      ∧ (asked.issuing 0).convoyFails (.vadd 3 1 2 false) = false ∧ opensConvoy (asked.strand 0).gm (.vadd 3 1 2 false) = true)
    ∧ ((twice.issuing 0).convoyFails (.vadd 3 1 2 false) = true ∧ (twice.strand 0).mayPreempt = true)
    ∧ ((mon 0x1000).strand 0).mayPreempt = true ∧ ((mon 0).strand 0).pc = (mon 0).mvec := by decide +kernel

theorem test_witness_StepKeepsMemoryCanonical :
    let s := { tBase { tStrand with regs := [(1, 5), (2, 0x2000)] } with
      mem := [(0x1001, 0x82), (0x1002, 0x10), (0x1003, 0x38)], agenda := [.issue 0] }
    s.memOk ∧ ∃ t, Sys2Proof.Machine.step s = .next t := by
  refine ⟨by unfold State.memOk; decide +kernel, ?_⟩
  have h : (match Sys2Proof.Machine.step { tBase { tStrand with regs := [(1, 5), (2, 0x2000)] } with
      mem := [(0x1001, 0x82), (0x1002, 0x10), (0x1003, 0x38)], agenda := [.issue 0] } with | .next _ => true | _ => false) = true := by
    decide +kernel
  generalize Sys2Proof.Machine.step _ = o at h ⊢
  cases o with
  | next t => exact ⟨t, rfl⟩
  | _ => simp at h

/-! ### Worked examples of the rules -/

/-- The scalar registers of a state after instruction `i` on registers `r`. -/
def regAfter (i : Instr) (r : Sparse Word) (d : SReg) : Word := (after i (tBase { tStrand with regs := r })).reg d

theorem test_division_edges :
    let n7 : Word := -7
    regAfter (.div 3 1 2) [(1, n7), (2, 2)] 3 = -3 ∧ regAfter (.rem 3 1 2) [(1, n7), (2, 2)] 3 = -1
    ∧ regAfter (.divu 3 1 2) [(1, 7)] 3 = 0xFFFFFFFFFFFFFFFF ∧ regAfter (.remu 3 1 2) [(1, 7)] 3 = 7
    ∧ regAfter (.div 3 1 2) [(1, 0x8000000000000000), (2, -1)] 3 = 0x8000000000000000 := by decide +kernel

theorem test_address_of_R75 :
    regAfter (.lhi 5 0x48D16) [] 5 = 0x123458000 ∧ regAfter (.addi 5 5 0x2E9C) [(5, 0x123458000)] 5 = 0x123456E9C := by
  decide +kernel

theorem test_bext_of_R76 : regAfter (.bext 10 11 12 6) [(11, 0x35000)] 10 = 0x35 := by decide +kernel

theorem test_zero_register : regAfter (.addi 0 1 5) [(1, 1)] 0 = 0 := by decide +kernel

/-- The strand of the strip example of R82 to R85, with a grant of `u` units of a side that owns `split`. -/
def tStrip (t : Strand) (u : Nat) (split : BitVec 4) : State :=
  { tBase { t with vlmax := 4096, gm := { fa := 14, fb := 14 }, grant := u, lanereq := 4, regs := [(3, 5000)] } with
    cxs := [(0, { lock := true, split := split })] }

theorem test_strip_example :
    let a := (after (.strip 4 3) (tStrip tStrand 2 2)).me
    let b := (after (.snext 4) (tStrip { tStrand with shead := 0x900, srem := 2952, si := 2048, vl := 100 } 2 4)).me
    let c := (after (.snext 4) (tStrip { tStrand with shead := 0x900, srem := 0, si := 5000, vl := 100 } 4 4)).me
    [a.srem.toNat, a.si.toNat, a.shead.toNat, a.vl.toNat, (a.reg 4).toNat, a.grant] = [2952, 2048, 0x1004, 2048, 2048, 2]
    ∧ [b.srem.toNat, b.si.toNat, b.shead.toNat, b.vl.toNat, (b.reg 4).toNat, b.pc.toNat, b.grant]
      = [0, 5000, 0x900, 2952, 2952, 0x900, 4]
    ∧ [c.srem.toNat, c.si.toNat, c.shead.toNat, c.vl.toNat, (c.reg 4).toNat, c.pc.toNat] = [0, 5000, 0, 100, 0, 0x1004] := by
  decide +kernel

/-- A strand whose c1 holds `n` bytes from the start of near buffer 4, whose bytes are `bs`. -/
def tBytes (t : Strand) (n : Nat) (bs : List Byte) : State :=
  let s := tBase { t with chains := [(1, { segs := [⟨4, 0, n⟩] })] }
  { s with cxs := [(0, { tCx with near := { tPool with bsize := 2 }, sram := putBytes [] 1024 bs })] }
/-- The bytes of 32-bit patterns. -/
def w32 (l : List Nat) : List Byte := l.flatMap (leBytes 4)

theorem test_vredsum_tree_of_R108 :
    (after (.vredsum 5 1 0) (tBytes { tStrand with vl := 5, gm := { fa := 14, fb := 14 } } 20
      (w32 [0x4B800000, 0x3F800000, 0x3F800000, 0x3F800000, 0x3F800000]))).reg 5 = 0x4B800002 := by decide +kernel

theorem test_vexp2_of_R114 :
    let s := tBytes { tStrand with gm := { fa := 14, fb := 14 } } 16 (w32 [0x3F000000, 0xC0300000, 0x80000000, 0x43480000])
    let t := after (.vexp2 3 1 false) s
    t.segBytes 0 (t.segs 3) = w32 [0x3FB50000, 0x3E183800, 0x3F800000, 0x7F800000] := by decide +kernel

/-- The chains of the example of R139 before line `n`, with the reference counts as they stand. -/
def tShare (chains : Sparse Chain) (refs : Sparse Nat) (free : List Nat) : State :=
  let s := tBase { tStrand with regs := [(9, 0xAB), (10, 0xCD)], chains := chains }
  { s with cxs := [(0, { tCx with near := { tPool with count := 32, free := free, refs := refs } })] }

theorem test_chain_example :
    let c2 : Chain := { segs := [⟨0x11, 0, 32⟩] }
    let c4 : Chain := { segs := [⟨0x10, 0, 64⟩] }
    let a := after (.cshare 5 4) (tShare [(2, c2), (4, c4)] [(0x10, 1), (0x11, 1)] [0x12, 0x13])
    let b := after (.ctrimHImm 5 4) (tShare [(2, c2), (4, c4), (5, c4)] [(0x10, 2), (0x11, 1)] [0x12, 0x13])
    let c5 : Chain := { segs := [⟨0x10, 16, 48⟩] }
    let c := after (.csplice 6 2 5) (tShare [(2, c2), (4, c4), (5, c5)] [(0x10, 2), (0x11, 1)] [0x12, 0x13])
    let c6 : Chain := { segs := [⟨0x11, 0, 32⟩, ⟨0x10, 16, 48⟩] }
    let d := after (.cputImm 6 9 2) (tShare [(2, c2), (4, c4), (5, c5), (6, c6)] [(0x10, 3), (0x11, 2)] [0x12, 0x13])
    let c6' : Chain := { segs := [⟨0x12, 0, 32⟩, ⟨0x10, 16, 48⟩] }
    let e := after (.cappElement 6 10) (tShare [(2, c2), (6, c6')] [(0x10, 1), (0x11, 1), (0x12, 1)] [0x13])
    (a.segs 5 = [⟨0x10, 0, 64⟩] ∧ (a.pool 0 false).ref 0x10 = 2) ∧ b.segs 5 = [⟨0x10, 16, 48⟩]
    ∧ (c.segs 6 = c6.segs ∧ (c.pool 0 false).ref 0x11 = 2 ∧ (c.pool 0 false).ref 0x10 = 3)
    ∧ (d.segs 6 = c6'.segs ∧ (d.pool 0 false).ref 0x11 = 1 ∧ (d.pool 0 false).ref 0x12 = 1
      ∧ d.bufBytes 0 0x12 8 4 = [0xAB, 0, 0, 0])
    ∧ (e.segs 6 = c6'.segs ++ [⟨0x13, 0, 4⟩] ∧ (after (.clen 8 6) e).reg 8 = 84) := by decide +kernel

theorem test_divergence_of_idiom_6 :
    let t := after (.vbr 2 4) (tWith { tStrand with vlmax := 4, masks := [(2, 5)] })
    let u := after (.vjoin 1) (tWith { tStrand with vlmax := 4, runMask := 5, frags := [{ pc := 0x1008, jn := 0, mask := 10 }] })
    (t.me.frags = [{ pc := 0x1004, jn := 0, mask := 10 }] ∧ t.me.runMask = 5 ∧ t.me.pc = 0x1010)
    ∧ (u.me.frags = [{ pc := 0x1008, jn := 0x1005, mask := 15 }] ∧ u.me.runMask = 10 ∧ u.me.pc = 0x1008) := by
  decide +kernel

theorem test_vamo_of_R219 :
    let s := tBytes { tStrand with vl := 3, gm := { fa := 10, fb := 10 }, regs := [(5, 0x2000)] } 24
      ([1, 1, 1, 8, 8, 0].flatMap (leBytes 8))
    let s := { s with strands := [(0, { s.me with chains := [(4, { segs := [⟨4, 0, 24⟩] }), (6, { segs := [⟨4, 24, 24⟩] })] })] }
    let s := (s.setBytes 0x2000 [7]).setBytes 0x2008 [40]
    let t := after (.vamo 4 5 6 .add .rlx .pkg) s
    t.segBytes 0 (t.segs 4) = [40, 41, 7].flatMap (leBytes 8) ∧ t.byteAt 0x2008 = 42 ∧ t.byteAt 0x2000 = 8 := by
  decide +kernel

theorem test_mmaz_of_R238 :
    let tB := putBytes [] 0 ([0x3F00, 0x3F80, 0x3FC0, 0x4000, 0xBF80, 0x3E80].flatMap (leBytes 2))
    let s := tBytes { tStrand with vl := 2, gm := { fa := 2, fb := 12, g := 1 } } 0 []
    let s := { s with cxs := [(0, { s.cx 0 with slots :=
      [(4, { owner := some 1, geom := 0x200030002, data := [(0, 0xE1), (1, 0x03), (2, 0x87)] }),
       (5, { owner := some 1, geom := 0xC00020003, data := tB })] })] }
    let t := after (.mmaz 16 4 5) s
    t.segBytes 0 (t.segs 16) = w32 [0xC0B00000, 0xC0100000] ∧ t.segBytes 0 (t.segs 17) = w32 [0x41940000, 0x41400000] := by
  decide +kernel

theorem test_topk_of_R240 :
    let e : Epilogue := { tEpi with k := 3, int := false, control := 3, lists := [[]] }
    let v (j : Nat) : Nat := if j = 3 ∨ j = 36 then 0x40000000 else if j = 7 then 0x7FC00000
      else if j = 20 ∨ j = 33 then 0x40A00000 else 0xBF800000
    ((List.range 40).foldl (fun e j => e.feed false Slot.free 0 j (v j)) e).ranks
      = [(0x40A00000, 20), (0x40A00000, 33), (0x40000000, 3)] := by decide +kernel

theorem test_biasupd_of_R243 :
    let s := tBytes { tStrand with regs := [(6, 0x43E000000)] } 16 (w32 [3, 5, 4, 4])
    let s := { s with cxs := [(0, { s.cx 0 with slots := [(9, { owner := some 1, geom := 0xE00040001 })] })] }
    let t := after (.biasupd 9 1 6) s
    (t.slot 0 9).shadow = putBytes [] 0 (w32 [0x3E000000, 0xBE000000]) ∧ (t.slot 0 9).pending = true
    ∧ (t.slot 0 9).data = [] := by decide +kernel

theorem test_halo_of_R175 :
    let b : Block := [0x7000000000100000, 0x0400000000200000, 0x4003F, 0x20001F, 0, 0, 0, 0x100200400]
    (List.range 8).map (b.addr · 0) = [0x100000 - 36, 0x100000 - 32, 0x100000 - 28, 0x100000 - 24, 0x100000 - 4, 0x100000,
      0x100004, 0x100008]
    ∧ (List.range 8).map (fun t => b.inWindow (b.addr t 0)) = [false, false, false, false, false, true, true, true]
    ∧ b.chunks = 1 ∧ b.defect false true = false := by decide +kernel

/-- The SHA3-256 digest of the empty message (FIPS 202), its first byte least significant. -/
theorem test_sha3_of_nothing : sha3 [] = 0x4A43F8804B0AD882FA493BE44DFF80F562D661A05647C15166D71EBFF8C6FFA7 := by decide +kernel

theorem test_refused_words :
    ([0x00000000, 0x803042FF, 0x04000007, 0xD8000000] : List Nat).all
      (fun w => match decodeWord (BitVec.ofNat 32 w) with | .error .unassigned => true | _ => false) = true
    ∧ ([0x82304200, 0x04010002, 0x04000100] : List Nat).all
      (fun w => match decodeWord (BitVec.ofNat 32 w) with | .error .reserved => true | _ => false) = true := by decide +kernel

/-! ### Ill-formed terms -/

theorem test_wf_refuses :
    ([.strip 4 0, .amo 5 6 .cas .acq .pkg false, .vamo 3 2 1 .cas .rlx .pkg, .doorbell 16 0, .doorbell 0 64, .descriptorPoll 0 64,
      .heldCompletionWrite 16 0, .strandPlace 16, .gangStart 16, .recordComplete 16, .tagGrant 16, .copyNodeComplete 0 65535,
      .graphCopyFault 16 0, .streamRefill 2048 0, .allocGrant 2048, .allocTimeout 2048, .barrierDepart 2048, .waitkWake 2048,
      .wfiWake 2048, .convoyDrained 2048, .preemptionTaken 2048 0, .priorityAge 2048, .bufferReclaim 128, .slotGrant 128 0,
      .tagDrainComplete 0 0, .tagDrainComplete 0 65536, .quadrantReady 0, .quadrantReady 4, .linkCrcError 16 true true,
      .pageMigrate 0 65, .hostMemoryAccess (2 ^ 39 - 1) 2 none, .hostMemoryAccess 0 2 (some [1]),
      .peerMemoryAccess 64 0 (.read 1), .peerMemoryAccess 0 (2 ^ 39) (.write [1]), .peerMemoryAccess 0 4 (.amo .add true 1 0)] :
      List Instr).all (fun i => !i.wf) = true := by decide +kernel

theorem test_withFetchWord :
    (match Sys2Proof.Machine.step (State.reset.withFetchWord 32 0x0CA24000) with
      | .next t => t.me.pc == State.reset.me.pc + 4 && t.reg 10 == t.reg 9 | _ => false) = true := by decide +kernel

end Sys2Proof.Tests
end

section
/-! PROOFS. Folman's own steps (R13, R14, R281, R284, R316-R319): for each step of the model the state it answers, and what
that state holds; at the end they are put together to settle O52. -/

namespace Sys2Proof.Machine

/-! ### The event log (R282) -/

/-- The entry just made is the newest that the log keeps. -/
@[simp] theorem State.logs_newest (s : State) (e : LogEvent) : (s.logs e).log.getLast? = some e := by
  have kept : ¬ (s.log ++ [e]).length ≤ s.log.length + 1 - 4096 := by simp
  unfold State.logs
  rw [List.getLast?_drop, if_neg kept, List.getLast?_concat]

/-- An entry changes the log alone. -/
theorem State.logs_eq (s : State) (e : LogEvent) : ∃ l, s.logs e = { s with log := l } := ⟨_, rfl⟩

theorem State.logs_rest (s : State) (e : LogEvent) : { s.logs e with log := s.log } = s := by unfold State.logs; rfl

@[simp] theorem State.logs_errors (s : State) (e : LogEvent) : (s.logs e).errors = s.errors := by unfold State.logs; rfl
@[simp] theorem State.logs_lasting (s : State) (e : LogEvent) : (s.logs e).lasting = s.lasting := by unfold State.logs; rfl
@[simp] theorem State.logs_mem (s : State) (e : LogEvent) : (s.logs e).mem = s.mem := by unfold State.logs; rfl
@[simp] theorem State.logs_spares (s : State) (e : LogEvent) : (s.logs e).spares = s.spares := by unfold State.logs; rfl
@[simp] theorem State.logs_retired (s : State) (e : LogEvent) : (s.logs e).retired = s.retired := by unfold State.logs; rfl
@[simp] theorem State.logs_time (s : State) (e : LogEvent) : (s.logs e).time = s.time := by unfold State.logs; rfl
@[simp] theorem State.logs_cx (s : State) (e : LogEvent) (x : Nat) : (s.logs e).cx x = s.cx x := by
  obtain ⟨l, h⟩ := s.logs_eq e
  rw [h]
  rfl

/-! ### The governor (R13, R14) -/

theorem mayStep_iff (s : State) : s.mayStep = true ↔ ∀ t, s.steppedAt = some t → t + 504000000 ≤ s.time := by
  unfold State.mayStep
  cases s.steppedAt with
  | none => simp
  | some t => rw [decide_eq_true_eq]; simp [milli]

theorem exec_clockStepDown_moves {s : State} (k : Nat) (may : s.mayStep = true) (lower : s.clockStep < 5) :
    exec (.clockStepDown k) s = .next (({ s with coolAt := s.time } : State).stepTo (s.clockStep + 1) (some k)) :=
  if_pos (by simp [may, lower])

theorem exec_clockStepDown_stays {s : State} (k : Nat) (h : ¬ (s.mayStep = true ∧ s.clockStep < 5)) :
    exec (.clockStepDown k) s = .next { s with coolAt := s.time } :=
  if_neg (by simpa using h)

theorem exec_clockStepUp_moves {s : State} (may : s.mayStep = true) (higher : 0 < s.clockStep)
    (cool : s.coolAt + 10 * milli ≤ s.time) : exec .clockStepUp s = .next (s.stepTo (s.clockStep - 1) none) :=
  if_pos (by simp [may, higher, cool])

theorem exec_clockStepUp_stays {s : State}
    (h : ¬ (s.mayStep = true ∧ 0 < s.clockStep ∧ s.coolAt + 10 * milli ≤ s.time)) : exec .clockStepUp s = .next s :=
  if_neg (by simpa [and_assoc] using h)

/-! ### Migration (R281) -/

theorem usesMost_iff (s : State) (g dev : Nat) :
    s.usesMost g dev = true ↔ 0 < s.uses g dev ∧ ∀ d, d = 64 ∨ d ∈ s.peers → s.uses g d ≤ s.uses g dev := by
  simp [State.usesMost, thisPart]

/-- What R281 asks before page `g` moves to device `dev`. -/
def State.Movable (s : State) (g dev : Nat) : Prop :=
  Sparse.get 0 g s.pageMoves < 4 ∧ (dev = 64 ∨ (dev ∈ s.peers ∧ dev ∉ s.removed)) ∧ Sparse.get 0 g s.pageHome ≠ homeOf dev
    ∧ s.pinnedPage g = false ∧ s.usesMost g dev = true

theorem exec_pageMigrate_moves {s : State} {g dev : Nat} (h : s.Movable g dev) :
    exec (.pageMigrate g dev) s = .next { s with
      pageHome := Sparse.put 0 g (homeOf dev) s.pageHome
      pageMoves := Sparse.put 0 g (Sparse.get 0 g s.pageMoves + 1) s.pageMoves } := by
  obtain ⟨few, there, away, loose, most⟩ := h
  exact if_pos (by simp [few, there, away, loose, most, thisPart])

theorem exec_pageMigrate_stays {s : State} {g dev : Nat} (h : ¬ s.Movable g dev) : exec (.pageMigrate g dev) s = .next s :=
  if_neg fun c => h (by
    simp only [Bool.and_eq_true, Bool.or_eq_true, decide_eq_true_eq, bne_iff_ne, beq_iff_eq, List.contains_iff_mem,
      Bool.not_eq_true', thisPart] at c
    obtain ⟨⟨⟨⟨few, there⟩, away⟩, most⟩, loose⟩ := c
    exact ⟨few, by simpa using there, away, loose, most⟩)

theorem exec_migrationWindowEnd (s : State) : exec .migrationWindowEnd s =
    .next (if s.windowAt + 4194304 ≤ s.clock then { s with windowAt := s.clock, pageMoves := [], pageUse := [] } else s) :=
  (apply_ite Host.Outcome.next ..).symm

/-! ### Links (R319) -/

/-- Some link that is up reaches device `d`. -/
def State.reaches (s : State) (d : Nat) : Bool :=
  (List.range 16).any fun n => !s.linksDown.contains n && Config.linkDevice n == d

theorem reaches_eq_false_iff (s : State) (d : Nat) :
    s.reaches d = false ↔ ∀ n, n < 16 → n ∉ s.linksDown → Config.linkDevice n ≠ d := by
  simp [State.reaches]

/-- Link `k` is counted as down. -/
def State.linkDown (s : State) (k : Nat) : State := { s with linksDown := k :: s.linksDown.filter (· != k) }

/-- Device `d` is out of the domain when no link reaches it any more. -/
def State.unlink (s : State) (d : Nat) : State :=
  { s with
    removed := if s.reaches d || s.removed.contains d then s.removed else d :: s.removed
    losing := if s.reaches d then s.losing else s.losing.filter (· != d) }

theorem mem_removed_unlink (s : State) (d e : Nat) :
    e ∈ (s.unlink d).removed ↔ e ∈ s.removed ∨ (e = d ∧ s.reaches d = false) := by
  unfold State.unlink
  cases s.reaches d with
  | true => simp
  | false =>
    by_cases gone : d ∈ s.removed
    · rw [if_pos (by simpa using gone), and_iff_left rfl, or_iff_left_of_imp (· ▸ gone)]
    · simp [gone, or_comm]

theorem losing_unlink (s : State) (d e : Nat) :
    (s.unlink d).losing = some e ↔ s.losing = some e ∧ (e ≠ d ∨ s.reaches d = true) := by
  unfold State.unlink
  cases s.reaches d with
  | true => simp
  | false => simp [Option.filter_eq_some_iff]

/-- Link `k` goes down (R319), with its log entry. -/
def State.dropLink (s : State) (k : Nat) : State :=
  let t := (s.linkDown k).unlink (Config.linkDevice k)
  { s.logs (.link k) with linksDown := t.linksDown, removed := t.removed, losing := t.losing }

theorem dropLink_linksDown (s : State) (k : Nat) : (s.dropLink k).linksDown = (s.linkDown k).linksDown := by
  unfold State.dropLink; rfl

theorem dropLink_removed (s : State) (k : Nat) :
    (s.dropLink k).removed = ((s.linkDown k).unlink (Config.linkDevice k)).removed := by
  unfold State.dropLink; rfl

theorem dropLink_losing (s : State) (k : Nat) :
    (s.dropLink k).losing = ((s.linkDown k).unlink (Config.linkDevice k)).losing := by
  unfold State.dropLink; rfl

theorem dropLink_rest (s : State) (k : Nat) :
    { s.dropLink k with linksDown := s.linksDown, removed := s.removed, losing := s.losing, log := s.log } = s := by
  obtain ⟨l, h⟩ := s.logs_eq (.link k)
  unfold State.dropLink
  rw [h]

theorem exec_linkCrcError_replayed {s : State} {k : Nat} (h : s.losing ≠ some (Config.linkDevice k)) (c : Bool) :
    exec (.linkCrcError k true c) s = .next s :=
  if_pos (by simp [h])

theorem exec_linkCrcError_retrained {s : State} {k : Nat} (h : s.losing ≠ some (Config.linkDevice k)) :
    exec (.linkCrcError k false true) s = .next (s.logs (.link k)) :=
  if_pos (by simp [h])

theorem exec_linkCrcError_down {s : State} {k : Nat} {r c : Bool}
    (h : s.losing = some (Config.linkDevice k) ∨ (r = false ∧ c = false)) :
    exec (.linkCrcError k r c) s = .next (s.dropLink k) := by
  have unmended (b : Bool) (hb : b = r ∨ b = c) : ¬ (b && !(s.losing == some (Config.linkDevice k))) = true := by
    rcases h with lost | ⟨rfl, rfl⟩
    · simp [lost]
    · simp [or_self_iff.1 hb]
  exact (if_neg (unmended r (.inl rfl))).trans (if_neg (unmended c (.inr rfl)))

/-- R319: the link is down; its peer leaves the domain when no other link reaches it, and nothing waits for it then. -/
theorem linkCrcError_down {s : State} {k : Nat} {r c : Bool}
    (h : s.losing = some (Config.linkDevice k) ∨ (r = false ∧ c = false)) :
    let peer := Config.linkDevice k
    let alone (t : State) : Prop := ∀ n, n < 16 → n ∉ t.linksDown → Config.linkDevice n ≠ peer
    ∃ t, exec (.linkCrcError k r c) s = .next t ∧ k ∈ t.linksDown
      ∧ (peer ∈ t.removed ↔ peer ∈ s.removed ∨ alone t)
      ∧ (∀ d, d ≠ peer → (d ∈ t.removed ↔ d ∈ s.removed))
      ∧ (∀ d, t.losing = some d ↔ s.losing = some d ∧ (d ≠ peer ∨ ¬ alone t))
      ∧ { t with linksDown := s.linksDown, removed := s.removed, losing := s.losing, log := s.log } = s := by
  intro peer alone
  have cut : (s.linkDown k).reaches peer = false ↔ alone (s.dropLink k) := by
    rw [reaches_eq_false_iff, ← dropLink_linksDown]
  have down : k ∈ (s.dropLink k).linksDown := by
    rw [dropLink_linksDown]; exact List.mem_cons_self
  have removed (d : Nat) : d ∈ (s.dropLink k).removed ↔ d ∈ s.removed ∨ (d = peer ∧ alone (s.dropLink k)) := by
    rw [← cut, dropLink_removed]; exact mem_removed_unlink ..
  have losing (d : Nat) : (s.dropLink k).losing = some d ↔ s.losing = some d ∧ (d ≠ peer ∨ ¬ alone (s.dropLink k)) := by
    rw [← cut, Bool.not_eq_false, dropLink_losing]; exact losing_unlink ..
  refine ⟨_, exec_linkCrcError_down h, down, ?_, fun d other => ?_, losing, dropLink_rest s k⟩
  · simp [removed]
  · simp [removed, other]

/-! ### Corrected errors and retired units (R317, R318) -/

/-- A corrected error of unit `u`, counted and logged. -/
def State.countError (s : State) (u : RasUnit) : State :=
  { s with errors := (u, s.time) :: s.errors.filter fun e => e.1 != u || s.time - e.2 ≤ tenSeconds }.logs (.corrected u)

/-- The count takes in the new error, and no error that the window still holds has been dropped from it. -/
theorem recent_countError (s : State) (u : RasUnit) : (s.countError u).recent u = s.recent u + 1 := by
  have window (e : RasUnit × Nat) :
      ((e.1 == u && decide (s.time - e.2 ≤ tenSeconds)) && (e.1 != u || decide (s.time - e.2 ≤ tenSeconds)))
        = (e.1 == u && decide (s.time - e.2 ≤ tenSeconds)) := by
    cases h : e.1 == u <;> simp [h, bne]
  unfold State.recent State.countError
  rw [State.logs_errors, State.logs_time, List.countP_cons_of_pos (by simp), List.countP_filter]
  simp only [window]

@[simp] theorem countError_lasting (s : State) (u : RasUnit) : (s.countError u).lasting = s.lasting := State.logs_lasting ..

theorem mem_countError (s : State) (u : RasUnit) : (u, s.time) ∈ (s.countError u).errors := by simp [State.countError]

@[simp] theorem countError_newest (s : State) (u : RasUnit) : (s.countError u).log.getLast? = some (.corrected u) :=
  State.logs_newest ..

theorem countError_rest (s : State) (u : RasUnit) :
    { s.countError u with errors := s.errors, lasting := s.lasting, log := s.log } = s := by
  unfold State.countError State.logs
  rfl

theorem exec_correctedError_passes {s : State} {u : RasUnit} (few : s.recent u + 1 < 8) :
    exec (.correctedError u) s = .next (s.countError u) :=
  congrArg Host.Outcome.next (if_pos ((recent_countError s u).symm ▸ few))

theorem exec_correctedError_lasts {s : State} {u : RasUnit} (many : 8 ≤ s.recent u + 1) :
    exec (.correctedError u) s = .next { s.countError u with
      lasting := (u, s.recent u + 1) :: s.lasting.filter fun e => e.1 != u } := by
  rw [← recent_countError] at many ⊢
  rw [← countError_lasting s u]
  exact congrArg Host.Outcome.next (if_neg (Nat.not_lt.2 many))

/-- R317: the error counts, and the eighth in ten seconds makes a lasting fault. -/
theorem correctedError_counts (s : State) (u : RasUnit) :
    ∃ t, exec (.correctedError u) s = .next t ∧ (u, s.time) ∈ t.errors ∧ t.log.getLast? = some (.corrected u)
      ∧ (s.recent u + 1 < 8 → t.lasting = s.lasting)
      ∧ (8 ≤ s.recent u + 1 → t.lasting.find? (fun e => e.1 == u) = some (u, s.recent u + 1))
      ∧ { t with errors := s.errors, lasting := s.lasting, log := s.log } = s := by
  rcases Nat.lt_or_ge (s.recent u + 1) 8 with few | many
  · exact ⟨_, exec_correctedError_passes few, mem_countError s u, countError_newest s u, fun _ => countError_lasting s u,
      fun many => absurd few (Nat.not_lt.2 many), countError_rest s u⟩
  · refine ⟨_, exec_correctedError_lasts many, mem_countError s u, ?_, fun few => absurd few (Nat.not_lt.2 many), ?_,
      countError_rest s u⟩
    · simp only [countError_newest]
    · simp only [List.find?_cons, beq_self_eq_true, implies_true]

/-- Nothing is counted of unit `u` any more. -/
def State.forget (s : State) (u : RasUnit) : State :=
  { s with errors := s.errors.filter fun e => e.1 != u, lasting := s.lasting.filter fun e => e.1 != u }

theorem forget_forgets (s : State) (u : RasUnit) : ∀ e ∈ (s.forget u).errors ++ (s.forget u).lasting, e.1 ≠ u := by
  intro e he
  rcases List.mem_append.1 he with m | m
  · simpa using (List.mem_filter.1 m).2
  · simpa using (List.mem_filter.1 m).2

theorem exec_lastingFaultRetire (u : RasUnit) (s : State) :
    exec (.lastingFaultRetire u) s = execLastingFaultRetire u s := rfl

theorem exec_lastingFaultRetire_none {s : State} {u : RasUnit} (h : ∀ e ∈ s.lasting, e.1 ≠ u) :
    exec (.lastingFaultRetire u) s = .next s := by
  have none : (s.lasting.find? fun e => e.1 == u) = none := by simpa [List.find?_eq_none] using h
  rw [exec_lastingFaultRetire, execLastingFaultRetire, none]

theorem exec_lastingFaultRetire_spent {s : State} {c r : Nat} {f : RasUnit × Nat}
    (h : s.lasting.find? (fun e => e.1 == .row c r) = some f) (spent : 256 ≤ Sparse.get 0 c s.spares) :
    exec (.lastingFaultRetire (.row c r)) s = .next ((s.forget (.row c r)).logs (.lastingFault (.row c r))) := by
  rw [exec_lastingFaultRetire, execLastingFaultRetire, h]
  exact if_pos spent

theorem exec_lastingFaultRetire_row {s : State} {c r : Nat} {f : RasUnit × Nat}
    (h : s.lasting.find? (fun e => e.1 == .row c r) = some f) (left : Sparse.get 0 c s.spares < 256) :
    exec (.lastingFaultRetire (.row c r)) s = .next ({ s.forget (.row c r) with
      spares := Sparse.put 0 c (Sparse.get 0 c s.spares + 1) s.spares
      retired := .row c r :: s.retired }.logs (.retired (.row c r) f.2)) := by
  rw [exec_lastingFaultRetire, execLastingFaultRetire, h]
  exact if_neg (Nat.not_le.2 left)

theorem exec_lastingFaultRetire_way {s : State} {w : Nat} {f : RasUnit × Nat}
    (h : s.lasting.find? (fun e => e.1 == .way w) = some f) :
    exec (.lastingFaultRetire (.way w)) s = .next ({ s.forget (.way w) with
      retired := .way w :: s.retired }.logs (.retired (.way w) f.2)) := by
  rw [exec_lastingFaultRetire, execLastingFaultRetire, h]
  rfl

theorem exec_lastingFaultRetire_bank {s : State} {x w : Nat} {f : RasUnit × Nat}
    (h : s.lasting.find? (fun e => e.1 == .bank x w) = some f) :
    exec (.lastingFaultRetire (.bank x w)) s = .next (({ s.forget (.bank x w) with
      retired := .bank x w :: s.retired }.setCx x { s.cx x with degraded := true }).logs (.retired (.bank x w) f.2)) := by
  rw [exec_lastingFaultRetire, execLastingFaultRetire, h]
  rfl

/-- R318: a unit that holds a lasting fault is retired, but for a row of a channel that has used up its spares. -/
theorem lastingFaultRetire_retires {s : State} {u : RasUnit} {n : Nat}
    (h : s.lasting.find? (fun e => e.1 == u) = some (u, n)) :
    ∃ t, exec (.lastingFaultRetire u) s = .next t ∧ t.mem = s.mem ∧ (∀ e ∈ t.errors ++ t.lasting, e.1 ≠ u)
      ∧ (∀ c r, u = .row c r → 256 ≤ Sparse.get 0 c s.spares →
          t.log.getLast? = some (.lastingFault u) ∧ t.retired = s.retired)
      ∧ (∀ c r, u = .row c r → Sparse.get 0 c s.spares < 256 →
          u ∈ t.retired ∧ Sparse.get 0 c t.spares = Sparse.get 0 c s.spares + 1 ∧ t.log.getLast? = some (.retired u n))
      ∧ (∀ w, u = .way w → u ∈ t.retired)
      ∧ (∀ x w, u = .bank x w → u ∈ t.retired ∧ (t.cx x).degraded = true) := by
  have forgets := forget_forgets s u
  cases u with
  | row c r =>
    rcases Nat.lt_or_ge (Sparse.get 0 c s.spares) 256 with left | spent
    · refine ⟨_, exec_lastingFaultRetire_row h left, ?_, ?_, ?_, ?_, nofun, nofun⟩
      · simp [State.forget]
      · simpa using forgets
      · rintro _ _ ⟨⟩ spent; omega
      · rintro _ _ ⟨⟩ _; simp
    · refine ⟨_, exec_lastingFaultRetire_spent h spent, ?_, ?_, ?_, ?_, nofun, nofun⟩
      · simp [State.forget]
      · simpa using forgets
      · rintro _ _ ⟨⟩ _; simp [State.forget]
      · rintro _ _ ⟨⟩ left; omega
  | way w =>
    refine ⟨_, exec_lastingFaultRetire_way h, ?_, ?_, nofun, nofun, ?_, nofun⟩
    · simp [State.forget]
    · simpa using forgets
    · simp
  | bank x w =>
    refine ⟨_, exec_lastingFaultRetire_bank h, ?_, ?_, nofun, nofun, nofun, ?_⟩
    · simp [State.forget]
    · simpa using forgets
    · rintro _ _ ⟨⟩; simp

/-! ### A quadrant that becomes ready (R284) -/

/-- A table of which only the keys that meet `p` have been kept. -/
theorem Sparse.get_filter {α : Type} (d : α) (p : Nat → Bool) (k : Nat) (t : Sparse α) :
    Sparse.get d k (t.filter fun e => p e.1) = if p k then Sparse.get d k t else d := by
  induction t with
  | nil => simp
  | cons e t ih =>
      rw [List.filter_cons]
      by_cases here : e.1 = k
      · subst here
        cases kept : p e.1
        · rw [if_neg Bool.false_ne_true, ih, kept]; rfl
        · simp [Sparse.get]
      · cases p e.1 <;> simp [Sparse.get, here, ih]

theorem byteAt_blankQuad (s : State) (q l : Nat) :
    (s.blankQuad q).byteAt l = if l / 2 ^ 37 = q then 0 else s.byteAt l := by
  have kept := Sparse.get_filter unwritten (fun a => !(a / 2 ^ 37 == q)) l s.mem
  refine kept.trans ?_
  by_cases h : l / 2 ^ 37 = q
  · rw [if_pos h, if_neg (by simpa using h)]; rfl
  · rw [if_neg h, if_pos (by simpa using h)]; rfl

theorem mem_poison_blankQuad (s : State) (q l : Nat) :
    l ∈ (s.blankQuad q).poison ↔ l ∈ s.poison ∧ 64 * l / 2 ^ 37 ≠ q := by simp [State.blankQuad]

theorem mem_badLines_blankQuad (s : State) (q l : Nat) :
    l ∈ (s.blankQuad q).badLines ↔ l ∈ s.badLines ∧ 64 * l / 2 ^ 37 ≠ q := by simp [State.blankQuad]

theorem exec_quadrantReady_becomes {s : State} {q : Nat} (on : s.qpwrOn.getLsbD q = true)
    (unready : s.qpwrReady.getLsbD q = false) :
    exec (.quadrantReady q) s = .next { s.blankQuad q with
      qpwrReady := s.qpwrReady ||| ((1 : BitVec 4) <<< q)
      linksDown := s.linksDown.filter fun n => n / 4 != q } :=
  if_pos (by simp [on, unready])

theorem exec_quadrantReady_stays {s : State} {q : Nat} (h : s.qpwrOn.getLsbD q = false ∨ s.qpwrReady.getLsbD q = true) :
    exec (.quadrantReady q) s = .next s :=
  if_neg (by rcases h with h | h <;> simp [h])

/-- One bit of a register of four set. -/
theorem getLsbD_or_one_shiftLeft (v : BitVec 4) {q : Nat} (hq : q < 4) (r : Nat) :
    (v ||| ((1 : BitVec 4) <<< q)).getLsbD r = (v.getLsbD r || r == q) := by
  rw [BitVec.getLsbD_or, BitVec.getLsbD_shiftLeft]
  congr 1
  by_cases h : r = q
  · simp [h, hq]
  · have apart : r < 4 → q ≤ r → ¬ r - q = 0 := by omega
    simpa [beq_eq_false_iff_ne.2 h] using apart

/-- R284: the quadrant is ready, its DRAM initialised and its links trained. -/
theorem quadrantReady_becomes {s : State} {q : Nat} (hq : q < 4) (on : s.qpwrOn.getLsbD q = true)
    (unready : s.qpwrReady.getLsbD q = false) :
    ∃ t, exec (.quadrantReady q) s = .next t
      ∧ (∀ r, r < 4 → t.qpwrReady.getLsbD r = (s.qpwrReady.getLsbD r || r == q))
      ∧ (∀ l, t.byteAt l = if l / 2 ^ 37 = q then 0 else s.byteAt l)
      ∧ (∀ l, (l ∈ t.poison ↔ l ∈ s.poison ∧ 64 * l / 2 ^ 37 ≠ q) ∧ (l ∈ t.badLines ↔ l ∈ s.badLines ∧ 64 * l / 2 ^ 37 ≠ q))
      ∧ { t with qpwrReady := s.qpwrReady, linksDown := s.linksDown, mem := s.mem, lineKey := s.lineKey
                 poison := s.poison, badLines := s.badLines } = s :=
  ⟨_, exec_quadrantReady_becomes on unready, fun r _ => getLsbD_or_one_shiftLeft _ hq r, byteAt_blankQuad s q,
    fun l => ⟨mem_poison_blankQuad s q l, mem_badLines_blankQuad s q l⟩, rfl⟩

/-- Settles O52: clause by clause, from the state that each of Folman's steps answers. -/
theorem folmanActions : Obligations.FolmanActions := by
  unfold Obligations.FolmanActions
  intro s k g dev q b u may moves uses home movable recent peer alone
  have mayStep : may ↔ s.mayStep = true := (mayStep_iff s).symm
  have movable_iff : movable ↔ s.Movable g dev := by
    unfold State.Movable
    rw [usesMost_iff]
    rfl
  refine ⟨fun m lower => ?_, fun h => ?_, fun m higher cool => ?_, fun h => ?_, fun h => ?_, fun h => ?_,
    exec_migrationWindowEnd s, fun up => ?_, fun r c h => linkCrcError_down h, correctedError_counts s u,
    exec_lastingFaultRetire_none, fun n h => lastingFaultRetire_retires h, quadrantReady_becomes, exec_quadrantReady_stays⟩
  · exact ⟨_, exec_clockStepDown_moves k (mayStep.1 m) lower, rfl, rfl, rfl, State.logs_newest .., rfl⟩
  · exact exec_clockStepDown_stays k fun c => h ⟨mayStep.2 c.1, c.2⟩
  · exact ⟨_, exec_clockStepUp_moves (mayStep.1 m) higher cool, rfl, rfl, State.logs_newest .., rfl⟩
  · exact exec_clockStepUp_stays fun c => h ⟨mayStep.2 c.1, c.2⟩
  · exact ⟨_, exec_pageMigrate_moves (movable_iff.1 h), Sparse.get_put_same .., Sparse.get_put_same 0 g (moves + 1) _,
      fun j other => Sparse.get_put_ne _ other .., rfl⟩
  · exact exec_pageMigrate_stays (movable_iff.not.1 h)
  · exact ⟨exec_linkCrcError_replayed up b, _, exec_linkCrcError_retrained up, s.logs_rest _⟩

end Sys2Proof.Machine
end

section
/-! PROOFS. What the shared steps behind the claims on execution leave: strands that leave `wfi` (R93, R277), the bookkeeping
of the ordering model (R201), resolved pre-emption requests (R295), and groups and slots given up (R34, R233). -/

namespace Sys2Proof.Machine

/-! ### Strands that leave `wfi` -/

/-- From `s` to `t` some strands have left `wfi`, and nothing else has changed. -/
structure Woken (s t : State) : Prop where
  rest   : { t with strands := s.strands } = s
  strand : ∀ k, t.strand k = s.strand k
    ∨ ((s.strand k).wait = .wfi ∧ t.strand k = (s.strand k).go ((s.strand k).pc + 4))

theorem Woken.refl (s : State) : Woken s s := ⟨rfl, fun _ => .inl rfl⟩

theorem Woken.trans {s t u : State} (first : Woken s t) (second : Woken t u) : Woken s u := by
  refine ⟨?_, fun k => ?_⟩
  · exact (congrArg (fun v : State => { v with strands := s.strands }) second.rest).trans first.rest
  · rcases second.strand k with e | ⟨wfi, e⟩
    · rw [e]; exact first.strand k
    · rcases first.strand k with e' | ⟨-, e'⟩
      · rw [e'] at wfi e; exact .inr ⟨wfi, e⟩
      · rw [e', Strand.go_wait] at wfi; cases wfi

theorem Woken.cur {s t : State} (w : Woken s t) : t.cur = s.cur := by
  have e := congrArg State.cur w.rest; exact e

theorem Woken.parts {s t : State} (w : Woken s t) : t.parts = s.parts := by
  have e := congrArg State.parts w.rest; exact e

theorem Woken.cxs {s t : State} (w : Woken s t) : t.cxs = s.cxs := by
  have e := congrArg State.cxs w.rest; exact e

theorem Woken.mem {s t : State} (w : Woken s t) : t.mem = s.mem := by
  have e := congrArg State.mem w.rest; exact e

/-- A strand that did not wait in `wfi` is as before. -/
theorem Woken.same {s t : State} (w : Woken s t) {k : Nat} (h : (s.strand k).wait ≠ .wfi) : t.strand k = s.strand k :=
  (w.strand k).elim id fun e => (h e.1).elim

theorem wake_woken (i : Nat) (s : State) : Woken s (State.wake i s) := by
  unfold State.wake
  dsimp only
  split
  · next wfi =>
      refine ⟨rfl, fun k => ?_⟩
      rw [State.strand_setStrand]
      split
      · next h => subst h; exact .inr ⟨wfi, rfl⟩
      · exact .inl rfl
  · exact .refl s

theorem foldl_wake_woken (l : List Nat) (s : State) : Woken s (l.foldl (fun s i => State.wake i s) s) := by
  induction l generalizing s with
  | nil => exact .refl s
  | cons i l ih => exact (wake_woken i s).trans (ih _)

theorem wakePart_woken (s : State) (p : Nat) : Woken s (s.wakePart p) := foldl_wake_woken _ s

theorem wakeMonitor_woken (s : State) : Woken s s.wakeMonitor := foldl_wake_woken _ s

/-! ### The ordering model -/

theorem acquire_rest (s : State) (a : Nat) (loc : Token) (sc : Scope) (l : List Token) :
    { s.acquire a loc sc l with order := s.order } = s := by
  unfold State.acquire
  dsimp only
  split <;> rfl

@[simp] theorem follows_strand (s : State) (a b k : Nat) : (s.follows a b).strand k = s.strand k := rfl
@[simp] theorem follows_part (s : State) (a b p : Nat) : (s.follows a b).part p = s.part p := rfl
@[simp] theorem follows_cxs (s : State) (a b : Nat) : (s.follows a b).cxs = s.cxs := rfl
@[simp] theorem follows_mem (s : State) (a b : Nat) : (s.follows a b).mem = s.mem := rfl
@[simp] theorem follows_cur (s : State) (a b : Nat) : (s.follows a b).cur = s.cur := rfl

/-! ### Resolved pre-emption requests (R295) -/

theorem resolveIn_rest (res : BitVec 3) (sid : Nat) (l : List Nat) (s : State) :
    { State.resolveIn res sid l s with parts := s.parts } = s := by
  induction l generalizing s with
  | nil => rfl
  | cons p l ih =>
      rw [State.resolveIn]
      dsimp only
      split
      · exact congrArg (fun v : State => { v with parts := s.parts }) (ih (s.setPart p _))
      · exact ih s

/-- A partition whose outstanding request, if it names strand `sid`, is answered with `res`. -/
def Partition.resolved (res : BitVec 3) (sid : Nat) (x : Partition) : Partition :=
  if x.preqBusy && x.preqTarget.toNat == sid then { x with preqBusy := false, preqResult := res } else x

@[simp] theorem Partition.resolved_resolved (res : BitVec 3) (sid : Nat) (x : Partition) :
    (x.resolved res sid).resolved res sid = x.resolved res sid := by
  unfold Partition.resolved
  by_cases h : (x.preqBusy && x.preqTarget.toNat == sid) = true
  · rw [if_pos h]; simp
  · rw [if_neg h, if_neg h]

theorem Partition.resolved_except (res : BitVec 3) (sid : Nat) (x : Partition) :
    { x.resolved res sid with preqBusy := x.preqBusy, preqResult := x.preqResult } = x := by
  unfold Partition.resolved
  split <;> rfl

theorem part_resolveIn (res : BitVec 3) (sid : Nat) (l : List Nat) (s : State) (q : Nat) :
    (State.resolveIn res sid l s).part q = if q ∈ l then (s.part q).resolved res sid else s.part q := by
  induction l generalizing s with
  | nil => simp [State.resolveIn]
  | cons p l ih =>
      have one : (if (s.part p).preqBusy && (s.part p).preqTarget.toNat == sid then
          s.setPart p { s.part p with preqBusy := false, preqResult := res } else s).part q
            = if q = p then (s.part p).resolved res sid else s.part q := by
        unfold Partition.resolved
        split
        · rw [State.part_setPart]
        · split
          · next h => rw [h]
          · rfl
      rw [State.resolveIn, ih, one]
      by_cases at_ : q = p
      · subst at_; simp
      · simp [at_]

/-- What resolving the requests directed at strand `sid` leaves: the requests answered, the strand's own mark gone, and
monitor strands that waited in `wfi` (R277, R295). -/
structure Resolves (s t : State) (res : BitVec 3) (sid : Nat) : Prop where
  rest    : { t with strands := s.strands, parts := s.parts } = s
  parts   : ∀ q, t.part q = if q < 16 then (s.part q).resolved res sid else s.part q
  others  : ∀ k, k ≠ sid → t.strand k = s.strand k
    ∨ ((s.strand k).wait = .wfi ∧ t.strand k = (s.strand k).go ((s.strand k).pc + 4))
  strand  : let m : Strand := { s.strand sid with preq := false, due := false }
    t.strand sid = m ∨ (m.wait = .wfi ∧ t.strand sid = m.go (m.pc + 4))

theorem resolvePreq_asked {s : State} {res : BitVec 3} {sid : Nat} (asked : (s.strand sid).preq = true) :
    Resolves s (s.resolvePreq res sid) res sid := by
  unfold State.resolvePreq
  rw [if_pos asked]
  dsimp only
  generalize hu : State.resolveIn res sid (List.range 16) s = u
  have rest : { u with parts := s.parts } = s := hu ▸ resolveIn_rest res sid _ s
  have strands : u.strands = s.strands := by have e := congrArg State.strands rest; exact e
  have at_ (k : Nat) : u.strand k = s.strand k := congrArg (Sparse.get Strand.blank k) strands
  generalize hv : u.setStrand sid { u.strand sid with preq := false, due := false } = v
  have woken := wakeMonitor_woken v
  have vk (k : Nat) : v.strand k = if k = sid then { s.strand sid with preq := false, due := false } else s.strand k := by
    rw [← hv, State.strand_setStrand, at_, at_]
  refine ⟨?_, fun q => ?_, fun k other => ?_, ?_⟩
  · have e := congrArg (fun w : State => { w with strands := s.strands, parts := s.parts }) woken.rest
    refine e.trans ?_
    subst hv
    exact (congrArg (fun w : State => { w with strands := s.strands }) rest)
  · have e : v.wakeMonitor.part q = u.part q := by
      unfold State.part
      rw [woken.parts, ← hv]
      rfl
    rw [e, ← hu, part_resolveIn]
    simp
  · have w := woken.strand k
    rwa [vk, if_neg other] at w
  · have w := woken.strand sid
    rwa [vk, if_pos rfl] at w

theorem resolvePreq_unasked {s : State} {res : BitVec 3} {sid : Nat} (quiet : (s.strand sid).preq = false) :
    s.resolvePreq res sid = s := by
  unfold State.resolvePreq
  rw [if_neg (by simp [quiet])]

theorem resolvePreq_rest (s : State) (res : BitVec 3) (sid : Nat) :
    { s.resolvePreq res sid with strands := s.strands, parts := s.parts } = s := by
  cases h : (s.strand sid).preq with
  | true => exact (resolvePreq_asked h).rest
  | false => rw [resolvePreq_unasked h]

theorem resolvePreq_part (s : State) (res : BitVec 3) (sid q : Nat) :
    { (s.resolvePreq res sid).part q with preqBusy := (s.part q).preqBusy, preqResult := (s.part q).preqResult } = s.part q := by
  cases h : (s.strand sid).preq with
  | true =>
      rw [(resolvePreq_asked h).parts q]
      split
      · exact Partition.resolved_except ..
      · rfl
  | false => rw [resolvePreq_unasked h]

theorem resolvePreq_strand (s : State) (res : BitVec 3) (sid : Nat) :
    let m := s.strand sid
    { (s.resolvePreq res sid).strand sid with pc := m.pc, wait := m.wait, preq := m.preq, due := m.due } = m := by
  dsimp only
  cases h : (s.strand sid).preq with
  | true =>
      rcases (resolvePreq_asked (res := res) h).strand with e | ⟨-, e⟩
      · rw [e, ← h]
      · rw [e, ← h]; rfl
  | false => rw [resolvePreq_unasked h]; rw [← h]

/-! ### Groups (R34) -/

@[simp] theorem group_setGroup (x : Partition) (g h : Nat) (v : Group) :
    (x.setGroup g v).group h = if h = g then v else x.group h := Sparse.get_put ..

theorem foldl_setGroup_rest (f : Group → Group) (l : List Nat) (x : Partition) :
    { l.foldl (fun x g => x.setGroup g (f (x.group g))) x with groups := x.groups } = x := by
  induction l generalizing x with
  | nil => rfl
  | cons g l ih =>
      exact congrArg (fun v : Partition => { v with groups := x.groups }) (ih (x.setGroup g (f (x.group g))))

theorem onGroups_rest (x : Partition) (w : Nat) (f : Group → Group) : { x.onGroups w f with groups := x.groups } = x :=
  foldl_setGroup_rest f _ x

theorem group_foldl_setGroup (f : Group → Group) (l : List Nat) (x : Partition) (once : l.Nodup) (h : Nat) :
    (l.foldl (fun x g => x.setGroup g (f (x.group g))) x).group h = if h ∈ l then f (x.group h) else x.group h := by
  induction l generalizing x with
  | nil => simp
  | cons g l ih =>
      obtain ⟨new, once⟩ := List.nodup_cons.1 once
      rw [List.foldl_cons, ih _ once, group_setGroup]
      by_cases at_ : h = g
      · subst at_; simp [new]
      · simp [at_]

/-- Each group that `w` names, when it names none twice, changes by `f`; the others stay. -/
theorem group_onGroups {x : Partition} {w : Nat} (f : Group → Group) (once : (groupIds w).Nodup) (h : Nat) :
    (x.onGroups w f).group h = if h ∈ groupIds w then f (x.group h) else x.group h :=
  group_foldl_setGroup f _ x once h

/-! ### Operand slots (R233) -/

/-- What a table holds at a key that does not read as the default is listed. -/
theorem Sparse.mem_of_get_ne {α : Type} {d v : α} {k : Nat} {t : Sparse α} (h : Sparse.get d k t = v) (ne : v ≠ d) :
    (k, v) ∈ t := by
  induction t with
  | nil => exact (ne h.symm).elim
  | cons e t ih =>
      rw [Sparse.get] at h
      split at h
      · next same => subst h; rw [← same]; exact List.mem_cons_self
      · exact List.mem_cons_of_mem _ (ih h)

theorem mem_heldSlots {s : State} {x uid o : Nat} (h : (s.slot x o).owner = some uid) : o ∈ s.heldSlots x uid := by
  have listed : (o, s.slot x o) ∈ (s.cx x).slots :=
    Sparse.mem_of_get_ne (d := Slot.free) rfl fun e => by rw [e] at h; cases h
  exact List.mem_map.2 ⟨_, List.mem_filter.2 ⟨listed, by simp [h]⟩, rfl⟩

theorem slot_setSlot (s : State) (x y o k : Nat) (v : Slot) :
    (s.setSlot x o v).slot y k = if y = x ∧ k = o then v else s.slot y k := by
  unfold State.setSlot State.slot Complex.slot Complex.setSlot
  rw [State.cx_setCx]
  by_cases h : y = x
  · subst h; simp [Sparse.get_put]
  · simp [h]

theorem pool_setSlot (s : State) (x y o : Nat) (v : Slot) (far : Bool) : (s.setSlot x o v).pool y far = s.pool y far := by
  unfold State.setSlot State.pool Complex.setSlot
  rw [State.cx_setCx]
  split
  · next h => subst h; cases far <;> rfl
  · rfl

theorem pool_releaseSlot (uid x : Nat) (s : State) (o y : Nat) (far : Bool) :
    (State.releaseSlot uid x s o).pool y far = s.pool y far := pool_setSlot ..

theorem owner_releaseSlot (uid x : Nat) (s : State) (o k : Nat) :
    ((State.releaseSlot uid x s o).slot x k).owner = if k = o then none else (s.slot x k).owner := by
  unfold State.releaseSlot
  dsimp only
  rw [slot_setSlot]
  by_cases h : k = o
  · simp [h]
  · simp [h]; rfl

theorem foldl_releaseSlot_rest (uid x : Nat) (l : List Nat) (s : State) :
    { l.foldl (State.releaseSlot uid x) s with cxs := s.cxs, order := s.order } = s := by
  induction l generalizing s with
  | nil => rfl
  | cons o l ih =>
      exact congrArg (fun v : State => { v with cxs := s.cxs, order := s.order }) (ih (State.releaseSlot uid x s o))

theorem pool_foldl_releaseSlot (uid x : Nat) (l : List Nat) (s : State) (y : Nat) (far : Bool) :
    (l.foldl (State.releaseSlot uid x) s).pool y far = s.pool y far := by
  induction l generalizing s with
  | nil => rfl
  | cons o l ih => rw [List.foldl_cons, ih, pool_releaseSlot]

theorem owner_foldl_releaseSlot (uid x : Nat) (l : List Nat) (s : State) (k : Nat) :
    ((l.foldl (State.releaseSlot uid x) s).slot x k).owner = if k ∈ l then none else (s.slot x k).owner := by
  induction l generalizing s with
  | nil => simp
  | cons o l ih =>
      rw [List.foldl_cons, ih, owner_releaseSlot]
      by_cases h : k = o
      · simp [h]
      · simp [h]

/-- Dropping references leaves the operand slots. -/
theorem slot_dropRefs (s : State) (x : Nat) (l : List Seg) (y o : Nat) : (s.dropRefs x l).slot y o = s.slot y o := by
  induction l generalizing s with
  | nil => rfl
  | cons g l ih =>
      rw [dropRefs_cons, ih]
      unfold State.dropRef State.slot
      dsimp only
      have one : ((s.setPool x (idFar g.id) ((s.pool x (idFar g.id)).drop (idIndex g.id))).cx y).slots = (s.cx y).slots := by
        unfold State.setPool Complex.setPool
        rw [State.cx_setCx]
        split
        · next h => subst h; split <;> rfl
        · rfl
      unfold Complex.slot
      split
      · rw [State.cx_setCx]
        split
        · next h => subst h; rw [one]
        · rw [one]
      · rw [one]

/-! Writing a key twice. -/

theorem Sparse.erase_erase {α : Type} (k : Nat) (t : Sparse α) :
    Sparse.erase k (Sparse.erase k t) = Sparse.erase k t := by
  unfold Sparse.erase
  rw [List.filter_filter]
  exact List.filter_congr fun e _ => Bool.and_self _

theorem Sparse.erase_place {α : Type} (k : Nat) (v : α) (t : Sparse α) :
    Sparse.erase k (Sparse.place k v t) = Sparse.erase k t := by
  induction t with
  | nil => simp [Sparse.place, Sparse.erase]
  | cons e t ih =>
      unfold Sparse.place
      split
      · simp [Sparse.erase]
      · unfold Sparse.erase at ih ⊢
        rw [List.filter_cons, List.filter_cons, ih]

/-- The later of two writes of one key stands. -/
theorem Sparse.put_put {α : Type} [DecidableEq α] (d : α) (k : Nat) (v w : α) (t : Sparse α) :
    Sparse.put d k v (Sparse.put d k w t) = Sparse.put d k v t := by
  have gone : Sparse.erase k (Sparse.put d k w t) = Sparse.erase k t := by
    unfold Sparse.put
    split
    · exact Sparse.erase_erase k t
    · rw [Sparse.erase_place, Sparse.erase_erase]
  rw [Sparse.put, gone, ← Sparse.put]

theorem setStrand_setStrand (s : State) (k : Nat) (t u : Strand) :
    (s.setStrand k t).setStrand k u = s.setStrand k u := by
  unfold State.setStrand
  dsimp only
  rw [Sparse.put_put]

theorem setMe_setMe (s : State) (t u : Strand) : (s.setMe t).setMe u = s.setMe u :=
  setStrand_setStrand s s.cur t u

end Sys2Proof.Machine
end

section
/-! PROOFS. The end of a strand (R34, R45, R92, R301): what leaving the core gives up, what ending and parking add to it, and
the cases of `end`; at the end they are put together to settle O9. -/

namespace Sys2Proof.Machine

/-! ### Leaving the core -/

/-- What `vacate` leaves of the package: a blank slot, the strand's groups with a member less (R34), and, beside what
resolving its requests changes, nothing but the bookkeeping of the ordering model. -/
structure Vacated (s t : State) (sid : Nat) : Prop where
  rest   : { t with strands := s.strands, parts := s.parts, order := s.order } = s
  strand : t.strand sid = Strand.blank
  groups : let m := s.strand sid
    m.origin.grouped = true → (groupIds m.grpmem.toNat).Nodup → ∀ g ∈ groupIds m.grpmem.toNat,
      ((t.part m.part).group g).resident = ((s.part m.part).group g).resident - 1
  part   : let x := s.part (s.strand sid).part
    { t.part (s.strand sid).part with preqBusy := x.preqBusy, preqResult := x.preqResult, groups := x.groups } = x

/-- The last step of `vacate`: the ordering model notes what the launch unit follows, and the slot holds `m`. -/
def State.leaves (s : State) (sid : Nat) (m : Strand) (a b c : Nat) : State :=
  ((s.follows a b).follows a c).setStrand sid m

@[simp] theorem leaves_part (s : State) (sid : Nat) (m : Strand) (a b c q : Nat) : (s.leaves sid m a b c).part q = s.part q := rfl

@[simp] theorem leaves_strand (s : State) (sid : Nat) (m : Strand) (a b c : Nat) : (s.leaves sid m a b c).strand sid = m :=
  State.strand_setStrand_same ..

theorem leaves_only (s : State) (sid : Nat) (m : Strand) (a b c : Nat) (l : Sparse Strand) (k : Sparse Partition) (o : Order) :
    { s.leaves sid m a b c with strands := l, parts := k, order := o } = { s with strands := l, parts := k, order := o } := by
  cases s; rfl

/-- The partition of a strand that leaves its core, the groups that it counts in having a member less (R34). -/
def State.leftBy (s : State) (m : Strand) : State :=
  if m.origin.grouped then s.setPart m.part ((s.part m.part).onGroups m.grpmem.toNat Group.leave) else s

theorem leftBy_rest (s : State) (m : Strand) : { s.leftBy m with parts := s.parts } = s := by
  unfold State.leftBy
  split <;> rfl

theorem leftBy_part (s : State) (m : Strand) :
    { (s.leftBy m).part m.part with groups := (s.part m.part).groups } = s.part m.part := by
  unfold State.leftBy
  split
  · rw [State.part_setPart_same]; exact onGroups_rest ..
  · rfl

theorem group_leftBy {s : State} {m : Strand} (counts : m.origin.grouped = true) (once : (groupIds m.grpmem.toNat).Nodup)
    {g : Nat} (mine : g ∈ groupIds m.grpmem.toNat) :
    (((s.leftBy m).part m.part).group g).resident = ((s.part m.part).group g).resident - 1 := by
  rw [State.leftBy, if_pos counts, State.part_setPart_same, group_onGroups _ once, if_pos mine]
  rfl

theorem leftBy_congr (s : State) {m n : Strand} (part : n.part = m.part) (origin : n.origin = m.origin)
    (grpmem : n.grpmem = m.grpmem) : s.leftBy n = s.leftBy m := by
  unfold State.leftBy
  rw [part, origin, grpmem]

theorem vacate_vacated (s : State) (sid : Nat) (res : BitVec 3) : Vacated s (s.vacate sid res) sid := by
  have own := resolvePreq_strand s res sid
  have rest := resolvePreq_rest s res sid
  have part := resolvePreq_part s res sid (s.strand sid).part
  have shape : s.vacate sid res = ((s.resolvePreq res sid).leftBy ((s.resolvePreq res sid).strand sid)).leaves sid Strand.blank
      (launchAgent ((s.resolvePreq res sid).strand sid).part) ((s.resolvePreq res sid).strand sid).uid
      (copiesOf ((s.resolvePreq res sid).strand sid).uid) := rfl
  rw [shape]
  generalize s.resolvePreq res sid = u at own rest part
  have part_eq : (u.strand sid).part = (s.strand sid).part := by have e := congrArg Strand.part own; exact e
  rw [leftBy_congr u part_eq (by have e := congrArg Strand.origin own; exact e)
    (by have e := congrArg Strand.grpmem own; exact e)]
  have left := leftBy_rest u (s.strand sid)
  have leftPart := leftBy_part u (s.strand sid)
  have leftGroup := @group_leftBy u (s.strand sid)
  generalize u.leftBy (s.strand sid) = w at left leftPart leftGroup
  refine ⟨?_, leaves_strand .., fun counts once g mine => ?_, ?_⟩
  · rw [leaves_only]
    exact (congrArg (fun v : State => { v with strands := s.strands, parts := s.parts, order := s.order }) left).trans
      (congrArg (fun v : State => { v with order := s.order }) rest)
  · have groups : (u.part (s.strand sid).part).groups = (s.part (s.strand sid).part).groups := by
      have e := congrArg Partition.groups part; exact e
    rw [leaves_part, leftGroup counts once mine]
    unfold Partition.group
    rw [groups]
  · rw [leaves_part]
    exact (congrArg (fun v : Partition => { v with
      preqBusy := (s.part (s.strand sid).part).preqBusy, preqResult := (s.part (s.strand sid).part).preqResult
      groups := (s.part (s.strand sid).part).groups }) leftPart).trans
        (congrArg (fun v : Partition => { v with groups := (s.part (s.strand sid).part).groups }) part)

theorem Vacated.parked {s t : State} {sid : Nat} (v : Vacated s t sid) :
    (t.part (s.strand sid).part).parked = (s.part (s.strand sid).part).parked := by
  have e := congrArg Partition.parked v.part; exact e

theorem Vacated.ended {s t : State} {sid : Nat} (v : Vacated s t sid) :
    (t.part (s.strand sid).part).ended = (s.part (s.strand sid).part).ended := by
  have e := congrArg Partition.ended v.part; exact e

theorem Vacated.cxs {s t : State} {sid : Nat} (v : Vacated s t sid) : t.cxs = s.cxs := by
  have e := congrArg State.cxs v.rest; exact e

theorem Vacated.mem {s t : State} {sid : Nat} (v : Vacated s t sid) : t.mem = s.mem := by
  have e := congrArg State.mem v.rest; exact e

/-! ### What a strand that goes leaves -/

/-- Strand `sid` has gone in going from `s` to `t`: its slot is blank, the segments `drop` have lost a reference each, its
groups a member (R34), and no byte of memory has changed. -/
structure Gone (s t : State) (sid : Nat) (drop : List Seg) : Prop where
  strand : t.strand sid = Strand.blank
  refs   : ∀ id, t.refs (cxOf sid) id = s.refs (cxOf sid) id
    - drop.countP fun g => idFar g.id == idFar id && idIndex g.id == idIndex id
  groups : let m := s.strand sid
    m.origin.grouped = true → (groupIds m.grpmem.toNat).Nodup → ∀ g ∈ groupIds m.grpmem.toNat,
      ((t.part m.part).group g).resident = ((s.part m.part).group g).resident - 1
  memory : ∀ l, t.byteAt l = s.byteAt l

/-- A strand that vacates its slot after its references have been dropped has gone. -/
theorem gone_of_vacated {s u v : State} {sid : Nat} {drop : List Seg}
    (strands : u.strands = s.strands) (parts : u.parts = s.parts) (mem : u.mem = s.mem)
    (pools : ∀ far, u.pool (cxOf sid) far = (s.dropRefs (cxOf sid) drop).pool (cxOf sid) far) (vac : Vacated u v sid) :
    Gone s v sid drop := by
  have strand_eq : u.strand sid = s.strand sid := congrArg (Sparse.get Strand.blank sid) strands
  have part_eq (p : Nat) : u.part p = s.part p := congrArg (Sparse.get Partition.reset p) parts
  refine ⟨vac.strand, fun id => ?_, ?_, fun l => congrArg (Sparse.get unwritten l) (vac.mem.trans mem)⟩
  · have e : v.refs (cxOf sid) id = (s.dropRefs (cxOf sid) drop).refs (cxOf sid) id := by
      unfold State.refs
      rw [← pools]
      unfold State.pool State.cx
      rw [vac.cxs]
    rw [e, refs_dropRefs]
  · have g := vac.groups
    rw [strand_eq] at g
    simpa only [part_eq] using g

/-- A change of a partition that keeps its groups leaves the strand gone. -/
theorem Gone.setPart {s t : State} {sid : Nat} {drop : List Seg} (gone : Gone s t sid drop) (p : Nat) {x : Partition}
    (groups : x.groups = (t.part p).groups) : Gone s (t.setPart p x) sid drop := by
  refine ⟨gone.strand, gone.refs, fun counts once g mine => ?_, gone.memory⟩
  rw [← gone.groups counts once g mine, State.part_setPart]
  split
  · next h => rw [h]; unfold Partition.group; rw [groups]
  · rfl

/-- What ending has done before the record's completion is noted. -/
def State.stopped (s : State) (sid : Nat) : State :=
  let t := s.strand sid
  let u := s.dropRefs (cxOf sid) (Sparse.allSegs t.chains)
  ((u.heldSlots (cxOf sid) t.uid).foldl (State.releaseSlot t.uid (cxOf sid)) u).vacate sid 2

theorem ends_eq (s : State) (sid : Nat) (status : BitVec 8) :
    s.ends sid status =
      let t := s.strand sid
      let u := s.stopped sid
      if t.origin.kind = .record then
        u.setPart t.part { u.part t.part with
          ended := (u.part t.part).ended ++ [{ uid := t.uid, origin := t.origin, status := status }] }
      else u := rfl

/-- What a strand that ends leaves (R92): it has gone, its operand slots are free, and its record's completion is due. -/
structure EndsWith (s t : State) (sid : Nat) (status : BitVec 8) : Prop where
  gone   : Gone s t sid (Sparse.allSegs (s.strand sid).chains)
  slots  : ∀ o, (s.slot (cxOf sid) o).owner = some (s.strand sid).uid → (t.slot (cxOf sid) o).owner = none
  parked : (t.part (s.strand sid).part).parked = (s.part (s.strand sid).part).parked
  ended  : (t.part (s.strand sid).part).ended = (s.part (s.strand sid).part).ended ++
    if (s.strand sid).origin.kind = .record then
      [{ uid := (s.strand sid).uid, origin := (s.strand sid).origin, status := status }] else []

theorem ends_endsWith (s : State) (sid : Nat) (status : BitVec 8) : EndsWith s (s.ends sid status) sid status := by
  have vac := vacate_vacated ((State.heldSlots (s.dropRefs (cxOf sid) (Sparse.allSegs (s.strand sid).chains)) (cxOf sid)
    (s.strand sid).uid).foldl (State.releaseSlot (s.strand sid).uid (cxOf sid))
    (s.dropRefs (cxOf sid) (Sparse.allSegs (s.strand sid).chains))) sid 2
  change Vacated _ (s.stopped sid) sid at vac
  generalize hu : State.dropRefs s (cxOf sid) (Sparse.allSegs (s.strand sid).chains) = u at vac
  have freed := foldl_releaseSlot_rest (s.strand sid).uid (cxOf sid) (u.heldSlots (cxOf sid) (s.strand sid).uid) u
  have pools := pool_foldl_releaseSlot (s.strand sid).uid (cxOf sid) (u.heldSlots (cxOf sid) (s.strand sid).uid) u
  have owners := owner_foldl_releaseSlot (s.strand sid).uid (cxOf sid) (u.heldSlots (cxOf sid) (s.strand sid).uid) u
  generalize (u.heldSlots (cxOf sid) (s.strand sid).uid).foldl (State.releaseSlot (s.strand sid).uid (cxOf sid)) u = w
    at vac freed pools owners
  have dropped : { u with cxs := s.cxs } = s := hu ▸ dropRefs_rest ..
  have strands : w.strands = s.strands := by
    have e := congrArg State.strands freed; have e' := congrArg State.strands dropped; exact Eq.trans e e'
  have parts : w.parts = s.parts := by
    have e := congrArg State.parts freed; have e' := congrArg State.parts dropped; exact Eq.trans e e'
  have mem : w.mem = s.mem := by
    have e := congrArg State.mem freed; have e' := congrArg State.mem dropped; exact Eq.trans e e'
  have strand_eq : w.strand sid = s.strand sid := congrArg (Sparse.get Strand.blank sid) strands
  have part_eq (p : Nat) : w.part p = s.part p := congrArg (Sparse.get Partition.reset p) parts
  have gone : Gone s (s.stopped sid) sid (Sparse.allSegs (s.strand sid).chains) :=
    gone_of_vacated strands parts mem (fun far => by rw [pools, hu]) vac
  have slots (o : Nat) (mine : (s.slot (cxOf sid) o).owner = some (s.strand sid).uid) :
      ((s.stopped sid).slot (cxOf sid) o).owner = none := by
    have e : (s.stopped sid).slot (cxOf sid) o = w.slot (cxOf sid) o := by
      unfold State.slot State.cx; rw [vac.cxs]
    have held : o ∈ u.heldSlots (cxOf sid) (s.strand sid).uid :=
      mem_heldSlots (by rw [← hu, slot_dropRefs]; exact mine)
    rw [e, owners, if_pos held]
  have parked := vac.parked
  have ended := vac.ended
  rw [strand_eq, part_eq] at parked ended
  rw [ends_eq]
  generalize s.stopped sid = z at gone slots parked ended
  dsimp only
  by_cases record : (s.strand sid).origin.kind = .record
  · rw [if_pos record]
    refine ⟨gone.setPart _ rfl, slots, ?_, ?_⟩
    · rw [State.part_setPart_same]; exact parked
    · rw [State.part_setPart_same, if_pos record, ← ended]
  · rw [if_neg record]
    exact ⟨gone, slots, parked, by rw [ended, if_neg record, List.append_nil]⟩

/-- What parking keeps of strand `sid` (R45). -/
def State.keptOf (s : State) (sid : Nat) : Parked :=
  let t := s.strand sid
  { parkid := t.parkid, cplx := cxOf sid, uid := t.uid, sid := sid, kmasks := t.kmasks
    chains := t.chains.filter fun c => c.2.stream.isSome, grpmem := t.grpmem, origin := t.origin }

/-- What a strand that parks leaves (R45, R301): it has gone but for its stream registers and its operand slots, and its
partition keeps it. -/
structure ParksWith (s t : State) (sid : Nat) : Prop where
  gone   : Gone s t sid (Sparse.allSegs ((s.strand sid).chains.filter fun c => c.2.stream.isNone))
  slots  : ∀ o, t.slot (cxOf sid) o = s.slot (cxOf sid) o
  parked : (t.part (s.strand sid).part).parked = (s.part (s.strand sid).part).parked ++ [s.keptOf sid]
  ended  : (t.part (s.strand sid).part).ended = (s.part (s.strand sid).part).ended

theorem parks_parksWith (s : State) (sid : Nat) : ParksWith s (s.parks sid) sid := by
  have shape : s.parks sid =
      let u := (s.dropRefs (cxOf sid) (Sparse.allSegs ((s.strand sid).chains.filter fun c => c.2.stream.isNone))).vacate sid 3
      u.setPart (s.strand sid).part { u.part (s.strand sid).part with
        parked := (u.part (s.strand sid).part).parked ++ [s.keptOf sid] } := rfl
  have vac := vacate_vacated
    (s.dropRefs (cxOf sid) (Sparse.allSegs ((s.strand sid).chains.filter fun c => c.2.stream.isNone))) sid 3
  rw [shape]
  generalize (s.dropRefs (cxOf sid) (Sparse.allSegs ((s.strand sid).chains.filter fun c => c.2.stream.isNone))).vacate sid 3
    = v at vac
  have parts : (s.dropRefs (cxOf sid) (Sparse.allSegs ((s.strand sid).chains.filter fun c => c.2.stream.isNone))).parts
      = s.parts := by
    have e := congrArg State.parts (dropRefs_rest s (cxOf sid)
      (Sparse.allSegs ((s.strand sid).chains.filter fun c => c.2.stream.isNone)))
    exact e
  have gone := gone_of_vacated (dropRefs_strands ..) parts (dropRefs_mem ..) (fun _ => rfl) vac
  have strand_eq := congrArg (Sparse.get Strand.blank sid) (dropRefs_strands s (cxOf sid)
    (Sparse.allSegs ((s.strand sid).chains.filter fun c => c.2.stream.isNone)))
  change State.strand _ sid = State.strand _ sid at strand_eq
  have part_eq := congrArg (Sparse.get Partition.reset (s.strand sid).part) parts
  change State.part _ _ = State.part _ _ at part_eq
  have parked := vac.parked
  have ended := vac.ended
  rw [strand_eq, part_eq] at parked ended
  refine ⟨gone.setPart _ rfl, fun o => ?_, ?_, ?_⟩
  · rw [← slot_dropRefs s (cxOf sid) (Sparse.allSegs ((s.strand sid).chains.filter fun c => c.2.stream.isNone)) (cxOf sid) o]
    exact congrArg (fun l => (Sparse.get Complex.reset (cxOf sid) l).slot o) vac.cxs
  · dsimp only
    rw [State.part_setPart_same, ← parked]
  · dsimp only
    rw [State.part_setPart_same]; exact ended

/-! ### The cases of `end` (R92, R301) -/

/-- Whether the executing strand's `end` parks it (R45). -/
def State.parking (s : State) : Prop := s.me.mode = .supervisor ∧ s.me.estatus.getLsbD 1 = true

/-- Whether its park id is 0 or in use (R301). -/
def State.parkTaken (s : State) : Prop := s.me.parkid = 0 ∨ ∃ k ∈ s.myPart.parked, k.parkid = s.me.parkid

theorem parking_iff (s : State) : (s.me.mode == .supervisor && s.me.estatus.getLsbD 1) = true ↔ s.parking := by
  simp [State.parking]

theorem parkTaken_iff (s : State) :
    (s.me.parkid == 0 || s.myPart.parked.any fun k => k.parkid == s.me.parkid) = true ↔ s.parkTaken := by
  simp [State.parkTaken]

theorem exec_endStrand (s : State) : exec .endStrand s = execEndStrand s := rfl

theorem exec_endStrand_refused {s : State} (park : s.parking) (taken : s.parkTaken) :
    exec .endStrand s = .next (s.trapHere .mode) := by
  rw [exec_endStrand, execEndStrand, if_pos (Bool.and_eq_true_iff.2 ⟨(parking_iff s).2 park, (parkTaken_iff s).2 taken⟩)]

/-- An `end` that is not refused. -/
theorem exec_endStrand_taken {s : State} (free : ¬ (s.parking ∧ s.parkTaken)) :
    exec .endStrand s =
      if !(s.inFlight s.me.uid).isEmpty then .next (s.waits .ending)
      else if s.me.mode == .supervisor && s.me.estatus.getLsbD 1 then .next (s.parks s.cur)
      else .next (s.ends s.cur (if s.me.mode = .user then 0x00 else 0xFF)) := by
  rw [exec_endStrand, execEndStrand, if_neg]
  rw [Bool.and_eq_true_iff, parking_iff, parkTaken_iff]
  exact free

theorem exec_endStrand_waits {s : State} (free : ¬ (s.parking ∧ s.parkTaken)) (flight : s.inFlight s.me.uid ≠ []) :
    exec .endStrand s = .next (s.waits .ending) := by
  rw [exec_endStrand_taken free, if_pos (by simpa using flight)]

theorem exec_endStrand_ends {s : State} (landed : s.inFlight s.me.uid = []) (park : ¬ s.parking) :
    exec .endStrand s = .next (s.ends s.cur (if s.me.mode = .user then 0x00 else 0xFF)) := by
  rw [exec_endStrand_taken fun h => park h.1, if_neg (by simp [landed]), if_neg (by rwa [parking_iff])]

theorem exec_endStrand_parks {s : State} (landed : s.inFlight s.me.uid = []) (park : s.parking) (free : ¬ s.parkTaken) :
    exec .endStrand s = .next (s.parks s.cur) := by
  rw [exec_endStrand_taken fun h => free h.2, if_neg (by simp [landed]), if_pos ((parking_iff s).2 park)]

/-- Settles O9: the four cases of `end`, from what ending and parking leave. -/
theorem strandEnds : Obligations.StrandEnds := by
  unfold Obligations.StrandEnds
  intro s me park taken streams left
  refine ⟨fun hp ht => traps_of_trap (exec_endStrand_refused hp ht), fun free flight => ?_, fun landed stay => ?_,
    fun landed hp free => ?_⟩
  · exact ⟨_, exec_endStrand_waits free flight, State.me_setMe .., setMe_onlyMe ..⟩
  · obtain ⟨⟨strand, refs, groups, memory⟩, slots, parked, ended⟩ :=
      ends_endsWith s s.cur (if s.me.mode = .user then 0x00 else 0xFF)
    exact ⟨_, exec_endStrand_ends landed stay, ⟨strand, refs, groups, memory⟩, slots, parked, ended⟩
  · obtain ⟨⟨strand, refs, groups, memory⟩, slots, parked, ended⟩ := parks_parksWith s s.cur
    exact ⟨_, exec_endStrand_parks landed hp free, ⟨strand, refs, groups, memory⟩, slots, parked, ended⟩

end Sys2Proof.Machine
end

section
/-! PROOFS. Strip loops and occupancy points (R33, R82-R85): what an occupancy point may change and what it makes of the grant,
what each strip instruction then leaves of the executing strand; at the end they are put together to settle O10. -/

namespace Sys2Proof.Machine

/-! ### The occupancy point (R33) -/

/-- An occupancy point changes the executing strand's grant and the split of its complex, and nothing else. -/
structure OccupancyOnly (s t : State) : Prop where
  me     : t.me = { s.me with grant := t.me.grant }
  others : ∀ i, i ≠ s.cur → t.strand i = s.strand i
  rest   : { t with strands := s.strands, cxs := s.cxs } = s

theorem occupancyOnly_refl (s : State) : OccupancyOnly s s := ⟨rfl, fun _ _ => rfl, rfl⟩

theorem occupancyOnly_grant (s : State) (u : Nat) : OccupancyOnly s (s.setMe { s.me with grant := u }) :=
  ⟨by rw [State.me_setMe], fun _ h => State.strand_setMe_ne s h _, rfl⟩

theorem occupancyOnly_widen (s : State) (x d n u : Nat) :
    OccupancyOnly s ((s.takeUnits x d n).setMe { (s.takeUnits x d n).me with grant := u }) :=
  ⟨by rw [State.me_setMe]; rfl, fun _ h => State.strand_setMe_ne (s.takeUnits x d n) h _, rfl⟩

theorem occupancy_none {s : State} (h : s.me.frags ≠ []) : s.occupancy = s := by
  unfold State.occupancy
  rw [if_pos (by simpa using h)]

/-- The grant of a strand that may widen: its request, as far as the side has units to give. -/
def State.widened (s : State) : Nat := Nat.min s.me.lanereq (s.me.grant + s.avail s.myCx (sideOf s.cur))

theorem occupancy_widens {s : State} (h : s.me.frags = []) (alone : s.waiter s.me.part s.myCx (sideOf s.cur) = none) :
    s.occupancy = if s.me.grant < s.widened then
      (s.takeUnits s.myCx (sideOf s.cur) (s.widened - s.me.grant)).setMe
        { (s.takeUnits s.myCx (sideOf s.cur) (s.widened - s.me.grant)).me with grant := s.widened } else s := by
  unfold State.occupancy
  rw [if_neg (by simp [h])]
  dsimp only
  rw [alone]
  rfl

theorem occupancy_shrinks {s : State} {need avail : Nat} (h : s.me.frags = [])
    (waits : s.waiter s.me.part s.myCx (sideOf s.cur) = some (need, avail)) :
    s.occupancy = if s.me.lanemin < s.me.grant then
      s.setMe { s.me with grant := Nat.max s.me.lanemin (s.me.grant - (need - avail)) } else s := by
  unfold State.occupancy
  rw [if_neg (by simp [h])]
  dsimp only
  rw [waits]

theorem occupancy_only (s : State) : OccupancyOnly s s.occupancy := by
  by_cases frags : s.me.frags = []
  · cases waiter : s.waiter s.me.part s.myCx (sideOf s.cur) with
    | none =>
        rw [occupancy_widens frags waiter]
        split
        · exact occupancyOnly_widen ..
        · exact occupancyOnly_refl s
    | some w =>
        rw [occupancy_shrinks frags waiter]
        split
        · exact occupancyOnly_grant ..
        · exact occupancyOnly_refl s
  · rw [occupancy_none frags]; exact occupancyOnly_refl s

theorem grant_widened {s : State} (h : s.me.frags = []) (alone : s.waiter s.me.part s.myCx (sideOf s.cur) = none) :
    s.occupancy.me.grant = if s.me.grant < s.me.lanereq then
      Min.min s.me.lanereq (s.me.grant + s.avail s.myCx (sideOf s.cur)) else s.me.grant := by
  have grant : s.occupancy.me.grant = if s.me.grant < s.widened then s.widened else s.me.grant := by
    rw [occupancy_widens h alone]
    split
    · rw [State.me_setMe]
    · rfl
  have widened : s.widened = Min.min s.me.lanereq (s.me.grant + s.avail s.myCx (sideOf s.cur)) := rfl
  rw [grant]
  split <;> split <;> omega

theorem grant_shrunk {s : State} {need avail : Nat} (h : s.me.frags = [])
    (waits : s.waiter s.me.part s.myCx (sideOf s.cur) = some (need, avail)) :
    s.occupancy.me.grant = if s.me.lanemin < s.me.grant then
      Max.max s.me.lanemin (s.me.grant - (need - avail)) else s.me.grant := by
  rw [occupancy_shrinks h waits]
  split
  · exact congrArg Strand.grant (State.me_setMe ..)
  · rfl

/-! ### What a strip instruction keeps -/

/-- From `s` to `t` the executing strand may differ in the registers of its strip loop, its scalar registers and its grant,
and the package in what an occupancy point changes. -/
def StripOnly (s t : State) : Prop :=
  OnlyMeAndGrant s t ∧
  { t.me with regs := s.me.regs, pc := s.me.pc, vl := s.me.vl, si := s.me.si, srem := s.me.srem
              shead := s.me.shead, grant := s.me.grant } = { s.me with wait := .none }

/-- The executing strand after an occupancy point, with the registers of its strip loop and one scalar register written. -/
def State.stripped (s : State) (d : SReg) (v : Word) (vl : BitVec 16) (si srem shead pc : Word) : Strand :=
  (({ s.occupancy.me with vl := vl, si := si, srem := srem, shead := shead } : Strand).setReg d v).go pc

theorem stripped_reg (s : State) (d : SReg) (v : Word) (vl : BitVec 16) (si srem shead pc : Word) (r : SReg) :
    (s.stripped d v vl si srem shead pc).reg r = if r = d ∧ d ≠ 0 then v else s.reg r := by
  rw [State.stripped, Strand.reg_go, Strand.reg_setReg, (occupancy_only s).me]
  rfl

theorem stripOnly_stripped (s : State) (d : SReg) (v : Word) (vl : BitVec 16) (si srem shead pc : Word) :
    StripOnly s (s.occupancy.setMe (s.stripped d v vl si srem shead pc)) := by
  have occ := occupancy_only s
  have cur : s.occupancy.cur = s.cur := by have e := congrArg State.cur occ.rest; exact e
  have kept : { s.stripped d v vl si srem shead pc with
      regs := s.me.regs, pc := s.me.pc, vl := s.me.vl, si := s.me.si, srem := s.me.srem, shead := s.me.shead
      grant := s.me.grant } = ({ s.me with wait := .none } : Strand) := by
    rw [State.stripped, setReg_eq, occ.me]
    rfl
  refine ⟨⟨fun i h => ?_, ?_, rfl, occ.rest⟩, ?_⟩
  · rw [State.strand_setMe_ne _ (cur ▸ h)]; exact occ.others i h
  · rw [State.me_setMe, State.stripped, setReg_eq]; rfl
  · rw [State.me_setMe]; exact kept

/-- What the executing strand holds after a strip instruction that has written `v` to `d` (R69, R83-R85). -/
theorem stripped_spec (s : State) (d : SReg) (v : Word) (vl : BitVec 16) (si srem shead pc : Word) :
    let t := s.occupancy.setMe (s.stripped d v vl si srem shead pc)
    StripOnly s t ∧ Wrote s t d v ∧ t.me.vl = vl ∧ t.me.si = si ∧ t.me.srem = srem ∧ t.me.shead = shead ∧ t.me.pc = pc := by
  refine ⟨stripOnly_stripped .., fun r => ?_, ?_, ?_, ?_, ?_, ?_⟩
  · rw [State.reg, State.me_setMe, stripped_reg]
  all_goals rw [State.me_setMe, State.stripped, setReg_eq]; rfl

/-! ### Lengths (R82, R85) -/

/-- The elements that an occupancy point and the vector length limit leave of `n` (R82, R85). -/
def State.strideOf (s : State) (n : Nat) : Nat := Min.min n (Min.min s.me.vlmax.toNat (stripCap s s.occupancy.me.grant))

theorem strideOf_le (s : State) (n : Nat) : s.strideOf n ≤ n := Nat.min_le_left ..

theorem strideOf_lt (s : State) (n : Nat) : s.strideOf n < 2 ^ 16 :=
  Nat.lt_of_le_of_lt ((Nat.min_le_right ..).trans (Nat.min_le_left ..)) s.me.vlmax.isLt

theorem toNat_strideOf (s : State) (n : Nat) : (BitVec.ofNat 16 (s.strideOf n)).toNat = s.strideOf n :=
  BitVec.toNat_ofNat .. ▸ Nat.mod_eq_of_lt (strideOf_lt s n)

theorem toNat_strideOf_word (s : State) (n : Nat) : (BitVec.ofNat 64 (s.strideOf n)).toNat = s.strideOf n :=
  BitVec.toNat_ofNat .. ▸ Nat.mod_eq_of_lt ((strideOf_lt s n).trans (by decide))

theorem toNat_sub_strideOf (s : State) (v : Word) :
    (v - BitVec.ofNat 64 (s.strideOf v.toNat)).toNat = v.toNat - s.strideOf v.toNat := by
  rw [BitVec.toNat_sub_of_le, toNat_strideOf_word]
  rw [BitVec.le_def, toNat_strideOf_word]
  exact strideOf_le ..

theorem cap_occupancy (s : State) : s.occupancy.me.cap = stripCap s s.occupancy.me.grant := by
  rw [Strand.cap, stripCap, (occupancy_only s).me, Nat.mul_assoc]

theorem strideOf_occupancy (s : State) (n : Nat) :
    Nat.min n (Nat.min s.occupancy.me.vlmax.toNat s.occupancy.me.cap) = s.strideOf n := by
  rw [cap_occupancy, (occupancy_only s).me]
  rfl

/-- Grant(D) of a strand whose next strip has `g` elements (R82). -/
theorem strip_of_length {t : Strand} {d : SReg} {g : Nat} (h : Nat.min t.srem.toNat (Nat.min t.vlmax.toNat t.cap) = g) :
    t.strip d = ({ t with vl := BitVec.ofNat 16 g, si := t.si + BitVec.ofNat 64 g, srem := t.srem - BitVec.ofNat 64 g } :
      Strand).setReg d (BitVec.ofNat 64 g) := by
  rw [Strand.strip, h]

/-- A branch offset counts instruction words (R80). -/
theorem sx_shiftLeft_two {n : Nat} (o : BitVec n) : sx o <<< 2 = wrap64 (o.toInt * 4) := by
  rw [wrap64, BitVec.ofInt_mul, BitVec.shiftLeft_eq_mul_twoPow]
  rfl

/-! ### The strip instructions (R83-R85) -/

theorem exec_strip_nested {d a : SReg} {s : State} (h : s.me.shead ≠ 0) : exec (.strip d a) s = .next (s.trapHere .strip) :=
  if_pos h

theorem exec_strip {d a : SReg} {s : State} (h : s.me.shead = 0) :
    let g := BitVec.ofNat 64 (s.strideOf (s.reg a).toNat)
    exec (.strip d a) s = .next (s.occupancy.setMe
      (s.stripped d g (BitVec.ofNat 16 (s.strideOf (s.reg a).toNat)) g (s.reg a - g) (s.me.pc + 4) (s.me.pc + 4))) := by
  have e : exec (.strip d a) s = execStrip d a s := rfl
  have si : (0 : Word) + BitVec.ofNat 64 (s.strideOf (s.reg a).toNat) = BitVec.ofNat 64 (s.strideOf (s.reg a).toNat) :=
    zero_add _
  rw [e, execStrip, if_neg (not_not.2 h)]
  dsimp only
  rw [strip_of_length (strideOf_occupancy s (s.reg a).toNat), si]
  rfl

theorem exec_stripClose (d : SReg) (s : State) :
    exec (.stripClose d) s = .next (s.occupancy.setMe (s.stripped d 0 s.me.vl s.me.si s.me.srem 0 (s.me.pc + 4))) := by
  have e : exec (.stripClose d) s = .next (s.occupancy.setMe
      ((({ s.occupancy.me with shead := 0 } : Strand).setReg d 0).go (s.me.pc + 4))) := rfl
  rw [e, State.stripped]
  rw [(occupancy_only s).me]

theorem exec_snext_outside {d : SReg} {s : State} (h : s.me.shead = 0) : exec (.snext d) s = .next (s.trapHere .strip) :=
  if_pos h

theorem exec_snext_more {d : SReg} {s : State} (loop : s.me.shead ≠ 0) (more : s.me.srem ≠ 0) :
    let h := BitVec.ofNat 64 (s.strideOf s.me.srem.toNat)
    exec (.snext d) s = .next (s.occupancy.setMe
      (s.stripped d h (BitVec.ofNat 16 (s.strideOf s.me.srem.toNat)) (s.me.si + h) (s.me.srem - h) s.me.shead s.me.shead)) := by
  have e : exec (.snext d) s = execSnext d s := rfl
  have srem : s.occupancy.me.srem = s.me.srem := by rw [(occupancy_only s).me]
  rw [e, execSnext, if_neg loop]
  dsimp only
  rw [if_pos (srem ▸ more), strip_of_length (srem ▸ strideOf_occupancy s s.me.srem.toNat), State.stripped,
    (occupancy_only s).me]

theorem exec_snext_done {d : SReg} {s : State} (loop : s.me.shead ≠ 0) (done : s.me.srem = 0) :
    exec (.snext d) s = .next (s.occupancy.setMe (s.stripped d 0 s.me.vl s.me.si 0 0 (s.me.pc + 4))) := by
  have e : exec (.snext d) s = execSnext d s := rfl
  have srem : s.occupancy.me.srem = 0 := by rw [(occupancy_only s).me]; exact done
  rw [e, execSnext, if_neg loop]
  dsimp only
  rw [if_neg (not_not.2 srem), State.stripped, (occupancy_only s).me, ← done]

theorem setLength_length (s : State) (d a : SReg) : (s.setLength d a).1 = s.strideOf (s.reg a).toNat := strideOf_occupancy ..

/-- The state that `setvl` and `setvlx` leave, with the strand at `pc` (R85). -/
theorem setLength_go (s : State) (d a : SReg) (pc : Word) :
    (s.setLength d a).2.setMe ((s.setLength d a).2.me.go pc) = s.occupancy.setMe
      (s.stripped d (BitVec.ofNat 64 (s.strideOf (s.reg a).toNat)) (BitVec.ofNat 16 (s.strideOf (s.reg a).toNat))
        s.me.si s.me.srem s.me.shead pc) := by
  have length : (s.setLength d a).2 = s.occupancy.setMe
      (({ s.occupancy.me with vl := BitVec.ofNat 16 (s.strideOf (s.reg a).toNat) } : Strand).setReg d
        (BitVec.ofNat 64 (s.strideOf (s.reg a).toNat))) := by
    rw [← strideOf_occupancy]; rfl
  rw [length, State.me_setMe, setMe_setMe, State.stripped, (occupancy_only s).me]

theorem setLength_pc (s : State) (d a : SReg) : (s.setLength d a).2.me.pc = s.me.pc := by
  have e : (s.setLength d a).2.me.pc = s.occupancy.me.pc := by
    unfold State.setLength
    dsimp only
    rw [State.me_setMe, Strand.setReg_pc]
  rw [e, (occupancy_only s).me]

theorem exec_setvl (d a : SReg) (s : State) :
    let g := s.strideOf (s.reg a).toNat
    exec (.setvl d a) s = .next (s.occupancy.setMe
      (s.stripped d (BitVec.ofNat 64 g) (BitVec.ofNat 16 g) s.me.si s.me.srem s.me.shead (s.me.pc + 4))) := by
  have e : exec (.setvl d a) s = .next ((s.setLength d a).2.setMe ((s.setLength d a).2.me.go ((s.setLength d a).2.me.pc + 4))) :=
    rfl
  rw [e, setLength_pc, setLength_go]

theorem exec_setvlx (d a : SReg) (o : BitVec 13) (s : State) :
    let g := s.strideOf (s.reg a).toNat
    exec (.setvlx d a o) s = .next (s.occupancy.setMe
      (s.stripped d (BitVec.ofNat 64 g) (BitVec.ofNat 16 g) s.me.si s.me.srem s.me.shead
        (if g = 0 then s.me.pc + wrap64 (o.toInt * 4) else s.me.pc + 4))) := by
  have e : exec (.setvlx d a o) s = .next ((s.setLength d a).2.setMe ((s.setLength d a).2.me.go
      (if (s.setLength d a).1 = 0 then s.me.pc + (sx o <<< 2) else s.me.pc + 4))) := rfl
  rw [e, setLength_length, setLength_go, sx_shiftLeft_two]

/-- Settles O10: each strip instruction from the strand that it leaves, and the grant from the occupancy point. -/
theorem stripLoops : Obligations.StripLoops := by
  unfold Obligations.StripLoops
  intro s d a o u av cap g h keeps
  have given (v : Word) (vl : BitVec 16) (si srem shead pc : Word) := stripped_spec s d v vl si srem shead pc
  have once : g = s.strideOf (s.reg a).toNat := rfl
  have next : h = s.strideOf s.me.srem.toNat := rfl
  refine ⟨fun nested => traps_of_trap (exec_strip_nested nested), fun free => ?_, ?_,
    fun outside => traps_of_trap (exec_snext_outside outside), fun loop more => ?_, fun loop done => ?_, ?_, ?_,
    occupancy_none, grant_widened, fun frags need avail => grant_shrunk frags, ?_⟩
  · obtain ⟨only, wrote, vl, si, srem, shead, pc⟩ := given _ _ _ _ _ _
    exact ⟨_, exec_strip free, only, wrote, by rw [vl, toNat_strideOf, once], by rw [si, toNat_strideOf_word, once],
      by rw [srem, toNat_sub_strideOf, once], shead, pc⟩
  · obtain ⟨only, wrote, vl, si, srem, shead, pc⟩ := given _ _ _ _ _ _
    exact ⟨_, exec_stripClose d s, only, wrote, shead, vl, si, srem, pc⟩
  · obtain ⟨only, wrote, vl, si, srem, shead, pc⟩ := given _ _ _ _ _ _
    exact ⟨_, exec_snext_more loop more, only, wrote, by rw [vl, toNat_strideOf, next], si,
      by rw [srem, toNat_sub_strideOf, next], shead, pc⟩
  · obtain ⟨only, wrote, vl, si, srem, shead, pc⟩ := given _ _ _ _ _ _
    exact ⟨_, exec_snext_done loop done, only, wrote, shead, vl, si, srem, pc⟩
  · obtain ⟨only, wrote, vl, si, srem, shead, pc⟩ := given _ _ _ _ _ _
    exact ⟨_, exec_setvl d a s, only, wrote, by rw [vl, toNat_strideOf, once], si, srem, shead, pc⟩
  · obtain ⟨only, wrote, vl, si, srem, shead, pc⟩ := given _ _ _ _ _ _
    exact ⟨_, exec_setvlx d a o s, only, wrote, by rw [vl, toNat_strideOf, once], si, srem, shead, pc⟩
  · exact congrArg (fun m : Strand => { m with grant := u }) (occupancy_only s).me

end Sys2Proof.Machine
end

section
/-! PROOFS. System register reads (R61, R231): a state in which the bits of `oinfo` that R231 reserves do not read 0. -/

namespace Sys2Proof.Machine

/-- The reset state, but with operand slot 0 of complex 0 in the hands of sid 2048, a strand slot that the package does not
have (R7 numbers them 0 to 2047). -/
def claimedByNoSid : State :=
  { State.reset with cxs := [(0, { Complex.reset with slots := [(0, { owner := some 1, sid := 2048 })] })] }

/-- There `oinfo` has the sid's bit 11 in its bit 59. -/
theorem sysValue_oinfo_claimedByNoSid :
    claimedByNoSid.sysValue 0x304 = some (BitVec.twoPow 64 63 ||| BitVec.twoPow 64 59) := by
  decide +kernel

/-- Refutes O11: the clause on `oinfo` (0x304) asks that bits 61:59 read 0 whatever `sid` the claimed slot names, while it
speaks of the sid field itself only under `slot.sid < 2048`; `claimedByNoSid` has a slot whose `sid` is 2048, and bit 59 of
its `oinfo` is 1. A claim records the number of the executing strand, so a package of 2048 strand slots does not get there; the
statement quantifies over every state. -/
theorem not_sysRegisterReads : ¬ Obligations.SysRegisterReads := by
  intro h
  obtain ⟨-, -, -, -, -, -, -, -, -, -, -, -, -, -, -, -, -, -, -, -,
    -, -, -, -, -, -, -, -, -, -, -, -, -, -, -, -, -, -, -, -, reads, -⟩ := h claimedByNoSid 0 0
  obtain ⟨v, value, -, -, reserved, -⟩ := reads
  rw [sysValue_oinfo_claimedByNoSid, Option.some.injEq] at value
  subst value
  revert reserved
  decide

end Sys2Proof.Machine
end

section
/-! PROOFS. Start records (R19, R22): a bad record that R19 holds back is not refused when it is read. -/

namespace Sys2Proof.Machine

/-- A partition that owns the complexes 0 to 7 and all of memory. The completion ring of its queue 0 is full, and a record of
the queue has been started and has not completed. -/
def barredPart : Partition :=
  let queue : QState :=
    { enabled := true, ringbase := 0x4000, ringsize := 8, cplbase := 0x5000, cplsize := 8, cpltail := 8, count := 1
      live := [(0, 7)] }
  { qbase := 0x3000, pbound := [(0, 0xFFFFFFFF00000000)], cplxlo := 0xFF, queues := [(0, queue)] }

/-- A package with that partition. The descriptor of queue 0, at 0x3000, has a tail of 1; the record in its ring, at 0x4000,
is all zeros but for the barrier flag. -/
@[irreducible] def barredRecord : State :=
  let desc : List Word := [0x4000, 0x800010000, 0x5000, 0x800000000, 1]
  let record : List Word := [0, 0, 0x100000000, 0, 0, 0, 0, 0]
  let s : State := { State.reset with parts := [(0, barredPart)] }
  (s.setBytes 0x3000 (dwordBytes desc)).setBytes 0x4000 (dwordBytes record)

/-- The bytes and the state of a read that succeeds. -/
def found (e : Except Stop (List Byte × State)) : List Byte × State :=
  match e with | .ok r => r | .error _ => ([], State.reset)

theorem eq_ok_found {e : Except Stop (List Byte × State)} (h : e.toOption.isSome = true) : e = .ok (found e) := by
  cases e with
  | ok r => rfl
  | error x => cases h

/-- The descriptor as the doorbell has it read. -/
@[irreducible] def barredDesc : List Byte × State :=
  found (((barredRecord.follows (launchAgent 0) (outAgent 0)).wakePart 0).readSpan (launchAccess 0) (barredRecord.descVa 0 0) 64)

/-- The record as it is read then. -/
@[irreducible] def barredRead : List Byte × State :=
  found ((barredDesc.2.setQueue 0 0 { barredRecord.queue 0 0 with cplhead := fieldOf (dwords barredDesc.1) 3 31 16 }).acquireSpan
    0 0x4000 64)

/-- The record as the launch unit makes a job of it. -/
def barredJob : Job :=
  { queue := 0, ring := (barredRecord.queue 0 0).readTo, node := fieldOf (dwords barredRead.1) 2 63 48, graph := false
    words := dwords barredRead.1 }

/-- Its limit of elements, for one, is 0. -/
theorem barredJob_breaks : barredJob.breaks (barredRecord.part 0) := by unfold Job.breaks; decide +kernel

/-- Whether queue 0 of partition 0 then holds a record that has been neither started nor refused. -/
def holdsRecord (o : Out) : Bool :=
  match o with | .next t => !(t.queue 0 0).recs.isEmpty | _ => false

/-- At the doorbell the record is read, and it stays in its queue unjudged. -/
theorem doorbell_barredRecord : holdsRecord (exec (.doorbell 0 0) barredRecord) = true := by decide +kernel

theorem barredDesc_read : ((barredRecord.follows (launchAgent 0) (outAgent 0)).wakePart 0).readSpan (launchAccess 0)
    (barredRecord.descVa 0 0) 64 = .ok barredDesc := by
  unfold barredDesc; exact eq_ok_found (by decide +kernel)

theorem barredRead_read :
    (barredDesc.2.setQueue 0 0 { barredRecord.queue 0 0 with cplhead := fieldOf (dwords barredDesc.1) 3 31 16 }).acquireSpan 0
      0x4000 64 = .ok barredRead := by
  unfold barredRead; exact eq_ok_found (by decide +kernel)

/-- The descriptor is sound and enables the queue; one record is to be read, and there is no room for a completion entry. -/
theorem barredDesc_sound : descOk (dwords barredDesc.1) = true ∧ fieldOf (dwords barredDesc.1) 4 0 0 = 1
    ∧ fieldOf (dwords barredDesc.1) 1 31 16 = ((barredRecord.queue 0 0).readTo + 1) % 65536
    ∧ (barredRecord.queue 0 0).cplsize
      ≤ ((barredRecord.queue 0 0).cpltail + 65536 - fieldOf (dwords barredDesc.1) 3 31 16) % 65536 := by decide +kernel

theorem barredRecord_part : barredRecord.part 0 = barredPart := by decide +kernel

theorem barredRecord_queue : (barredRecord.queue 0 0).enabled = true ∧ (barredRecord.queue 0 0).recs = []
    ∧ (barredRecord.queue 0 0).readTo = 0 := by decide +kernel

theorem barredRecord_at : (barredRecord.queue 0 0).ringbase.toNat
    + 64 * ((barredRecord.queue 0 0).readTo % (barredRecord.queue 0 0).ringsize) = 0x4000 := by decide +kernel

theorem barredRecord_otherQueue {k : Nat} (h : k ≠ 0) : (barredRecord.queue 0 k).recs = [] := by
  unfold State.queue
  rw [barredRecord_part]
  exact congrArg QState.recs (if_neg h.symm)

/-- Refutes O50: a record that breaks R22 is said to be refused, and to have left its queue, as soon as a doorbell has it
read. `barredJob` carries the barrier flag while an earlier record has not completed: R19 holds it back, and the launch unit
judges a record only when R19 lets it start (log 30). -/
theorem not_strandStarts : ¬ Obligations.StrandStarts := by
  intro h
  obtain ⟨-, -, -, -, -, refused, -⟩ := h barredRecord 0 0 (.queue 0) [] []
  obtain ⟨sound, on, tail, full⟩ := barredDesc_sound
  obtain ⟨enabled, fresh, start⟩ := barredRecord_queue
  have nodes : (barredRecord.part 0).nodes = [] := by rw [barredRecord_part]; rfl
  dsimp only at refused
  obtain ⟨t, c, run, -, -, gone, -⟩ := refused barredDesc.1 barredRead.1 barredDesc.2 barredRead.2 (by omega) (by omega)
    barredDesc_read sound on enabled fresh (by omega) tail full (by rw [barredRecord_at]; exact barredRead_read)
    (fun k => barredRecord_otherQueue) nodes (.inl (.inr barredJob_breaks))
  have holds := doorbell_barredRecord
  rw [run, holdsRecord, gone] at holds
  exact absurd holds (by decide)

end Sys2Proof.Machine
end

section
/-! PROOFS. What the accesses of the launch unit may change, and what its bookkeeping may (R17-R28, R323): the memory and the
records of the ordering model on the one hand, strands in `wfi` and its own copies of queues and nodes on the other. -/

namespace Sys2Proof.Machine

/-! ### Its accesses -/

/-- The package without what an access on tag 0 may change: memory with its keys and markers, the monitor's mailbox, the
records of the ordering model, the uses of pages, Folman's log, and the counter of free values. -/
def State.bare (s : State) : State :=
  { s with mem := [], lineKey := [], poison := [], badLines := [], monBox := {}, order := {}, pageUse := [], log := [], freeCount := 0 }

theorem bare_strand {s t : State} (h : t.bare = s.bare) (k : Nat) : t.strand k = s.strand k := by
  have e := congrArg (fun v : State => v.strand k) h; exact e

theorem bare_part {s t : State} (h : t.bare = s.bare) (p : Nat) : t.part p = s.part p := by
  have e := congrArg (fun v : State => v.part p) h; exact e

theorem bare_cur {s t : State} (h : t.bare = s.bare) : t.cur = s.cur := by
  have e := congrArg (fun v : State => v.cur) h; exact e

theorem bare_copies {s t : State} (h : t.bare = s.bare) : t.copies = s.copies := by
  have e := congrArg (fun v : State => v.copies) h; exact e

theorem bare_nextId {s t : State} (h : t.bare = s.bare) : t.nextId = s.nextId := by
  have e := congrArg (fun v : State => v.nextId) h; exact e

theorem bare_foldl {α : Type} (f : State → α → State) (step : ∀ s a, (f s a).bare = s.bare) (l : List α) (s : State) :
    (l.foldl f s).bare = s.bare := by
  induction l generalizing s with
  | nil => rfl
  | cons a l ih => rw [List.foldl_cons, ih, step]

theorem bare_log (s : State) (l : List LogEvent) : ({ s with log := l } : State).bare = s.bare := rfl

@[simp] theorem logs_bare (s : State) (e : LogEvent) : (s.logs e).bare = s.bare := by
  unfold State.logs
  rw [bare_log]

@[simp] theorem free_bare (s : State) : s.free.2.bare = s.bare := rfl

@[simp] theorem noted_bare (s : State) (n : Note) : (s.noted n).bare = s.bare := by
  unfold State.noted
  dsimp only
  rw [bare_foldl _ fun _ _ => logs_bare ..]
  split
  · split
    · exact logs_bare ..
    · rfl
  · rfl

@[simp] theorem release_bare (s : State) (a : Nat) (loc : Token) (sc : Scope) : (s.release a loc sc).2.bare = s.bare := rfl

@[simp] theorem acquire_bare (s : State) (a : Nat) (loc : Token) (sc : Scope) (l : List Token) :
    (s.acquire a loc sc l).bare = s.bare := by
  unfold State.acquire
  dsimp only
  split <;> rfl

@[simp] theorem setTokens_bare (s : State) (k : Nat) (l : List Token) : (s.setTokens k l).bare = s.bare := rfl

@[simp] theorem sawTokens_bare (s : State) (a k : Nat) : (s.sawTokens a k).bare = s.bare := by
  unfold State.sawTokens
  dsimp only
  split <;> rfl

@[simp] theorem wroteTokens_bare (s : State) (a k : Nat) : (s.wroteTokens a k).bare = s.bare := by
  unfold State.wroteTokens
  dsimp only
  split <;> rfl

@[simp] theorem used_bare (s : State) (g : Page) : (s.used g).bare = s.bare := by
  unfold State.used
  split <;> rfl

@[simp] theorem touchAll_bare (s : State) (a : Access) (g : Page) (l n : Nat) (w : Bool) :
    (s.touchAll a g l n w).bare = s.bare := by
  unfold State.touchAll
  split
  · exact bare_foldl (fun s k => s.touch a.agent a.family a.name k w) (fun _ _ => rfl) _ s
  · rfl

@[simp] theorem setBytes_bare (s : State) (l : Nat) (bs : List Byte) : (s.setBytes l bs).bare = s.bare := by
  induction bs generalizing s l with
  | nil => rfl
  | cons b bs ih => exact ih (s.setByte l b) (l + 1)

@[simp] theorem rekey_bare (s : State) (k l : Nat) : (s.rekey k l).bare = s.bare := by
  unfold State.rekey
  dsimp only
  split
  · rfl
  · split
    · rfl
    · have kept := setBytes_bare s (l / 64 * 64) (s.plain k (l / 64 * 64) 64)
      generalize s.setBytes (l / 64 * 64) (s.plain k (l / 64 * 64) 64) = u at kept
      exact kept

@[simp] theorem putPlain_bare (s : State) (k l : Nat) (bs : List Byte) : (s.putPlain k l bs).bare = s.bare := by
  unfold State.putPlain
  split
  · rfl
  · rw [setBytes_bare, rekey_bare]

/-- Tag 0 never needs a cell (R255). -/
theorem needsCell_tag0 (s : State) {a : Access} (h : a.tag = 0) (g : Page) : s.needsCell a g = false := by
  simp [State.needsCell, Access.tagOn, h]

theorem poke_bare (s : State) {a : Access} (h : a.tag = 0) (g : Page) (bs : List Byte) (c : Bool) :
    (s.poke a g bs c).bare = s.bare := by
  have kept := putPlain_bare s g.key (s.locate a g) bs
  unfold State.poke
  simp only [needsCell_tag0 s h g, Bool.false_eq_true, if_false]
  generalize s.putPlain g.key (s.locate a g) bs = u at kept
  split
  · rfl
  · split
    · exact logs_bare ..
    · split
      · exact kept
      · exact kept

theorem store_bare (s : State) {a : Access} (h : a.tag = 0) (g : Page) (bs : List Byte) (c : Bool) :
    (s.store a g bs c).bare = s.bare := by
  have poked : ((s.used g).poke a g bs c).bare = s.bare := (poke_bare _ h g bs c).trans (used_bare s g)
  unfold State.store
  dsimp only
  split
  · rw [touchAll_bare, poked]
  · rw [bare_foldl _ fun _ _ => wroteTokens_bare .., touchAll_bare, poked]

@[simp] theorem load_bare (s : State) (a : Access) (g : Page) (n : Nat) : (s.load a g n).2.bare = s.bare := by
  unfold State.load
  dsimp only
  split
  · rw [touchAll_bare, used_bare]
  · rw [bare_foldl _ fun _ _ => sawTokens_bare .., touchAll_bare, used_bare]

theorem readPieces_bare {s t : State} {a : Access} {va : Nat} {l : List (Nat × Nat)} {bs : List Byte}
    (h : s.readPieces a va l = .ok (bs, t)) : t.bare = s.bare := by
  induction l generalizing s bs with
  | nil =>
      rw [State.readPieces, Except.ok.injEq, Prod.mk.injEq] at h
      rw [h.2]
  | cons e l ih =>
      rw [State.readPieces] at h
      split at h
      · cases h
      · cases h
      · next g _ =>
          dsimp only at h
          split at h
          · cases h
          · next rest =>
              rw [Except.ok.injEq, Prod.mk.injEq] at h
              obtain ⟨-, rfl⟩ := h
              rw [ih rest, load_bare]

theorem readSpan_bare {s t : State} {a : Access} {va n : Nat} {bs : List Byte} (h : s.readSpan a va n = .ok (bs, t)) :
    t.bare = s.bare := readPieces_bare h

theorem writePieces_bare (s : State) {a : Access} (h : a.tag = 0) (va : Nat) (bs : List Byte) (w : Nat)
    (l : List (Nat × Nat)) : (s.writePieces a va bs w l).2.bare = s.bare := by
  induction l generalizing s with
  | nil => rfl
  | cons e l ih =>
      rw [State.writePieces]
      split
      · rfl
      · rfl
      · rw [ih, store_bare s h]

theorem writeSpan_bare (s : State) {a : Access} (h : a.tag = 0) (va : Nat) (bs : List Byte) :
    (s.writeSpan a va bs).2.bare = s.bare := writePieces_bare s h va bs _ _

theorem readBlock_bare {s t : State} {a : Access} {va : Word} {b : Block} (h : s.readBlock a va = .ok (b, t)) :
    t.bare = s.bare := by
  unfold State.readBlock at h
  split at h
  · cases h
  · split at h
    · cases h
    · cases h
    · next read =>
        rw [Except.ok.injEq, Prod.mk.injEq] at h
        rw [← h.2, readSpan_bare read]

@[simp] theorem atomicRead_bare (s : State) (y : Syncing) (l : List Nat) : (s.atomicRead y l).bare = s.bare := by
  unfold State.atomicRead
  dsimp only
  rw [bare_foldl _ fun _ _ => sawTokens_bare ..]
  split
  · exact acquire_bare ..
  · rfl

theorem putTokens_bare (s : State) (l : List Nat) (new : List Token) :
    (if new.isEmpty then s
      else l.foldl (fun s k => s.setTokens k (new.foldl addToken (s.tokensAt k))) s).bare = s.bare := by
  split
  · rfl
  · exact bare_foldl _ (fun _ _ => setTokens_bare ..) l s

@[simp] theorem atomicWrote_bare (s : State) (y : Syncing) (l : List Nat) : (s.atomicWrote y l).bare = s.bare := by
  unfold State.atomicWrote
  dsimp only
  split
  · exact (putTokens_bare ..).trans (release_bare ..)
  · exact putTokens_bare ..

theorem atomic_bare {s t : State} {a : Access} (h0 : a.tag = 0) {y : Syncing} {g : Page} {z : Nat} {op : AmoOp} {v c n : Nat}
    (h : s.atomic a y g z op v c = .ok (n, t)) : t.bare = s.bare := by
  unfold State.atomic at h
  dsimp only at h
  split at h
  · obtain ⟨-, rfl⟩ := Prod.mk.inj (Except.ok.inj h)
    rw [atomicRead_bare, used_bare]
  · split at h
    · cases h
    · obtain ⟨-, rfl⟩ := Prod.mk.inj (Except.ok.inj h)
      rw [atomicWrote_bare, poke_bare _ h0, atomicRead_bare, used_bare]

@[simp] theorem launchFault_bare (s : State) (p : Nat) (queue : Bool) (n : Nat) (e : Stop) :
    (s.launchFault p queue n e).bare = s.bare := by
  cases e with
  | trap c va note => exact (logs_bare ..).trans (noted_bare s note)
  | cell => exact logs_bare ..
  | buffer far why => exact logs_bare ..

theorem acquireSpan_bare {s t : State} {p va n : Nat} {bs : List Byte} (h : s.acquireSpan p va n = .ok (bs, t)) :
    t.bare = s.bare := by
  unfold State.acquireSpan at h
  dsimp only at h
  split at h
  · cases h
  · next read =>
      rw [Except.ok.injEq, Prod.mk.injEq] at h
      rw [← h.2, acquire_bare, readSpan_bare read]
      rfl

/-! ### Its copies of queues -/

/-- What the launch unit's own work leaves of its copy `x` of a queue, `y` being what has become of it: a ring that no
reading has set anew, and, while no entry can be written, a tail that stands and held entries that only grow (R18, R20). -/
structure Kept (x y : QState) : Prop where
  same    : { y with enabled := x.enabled, head := x.head, cpltail := x.cpltail, recs := x.recs, held := x.held } = x
  enabled : y.enabled = true → x.enabled = true
  stuck   : x.enabled = false ∨ ¬ x.room → y.cpltail = x.cpltail ∧ ∃ more, y.held = x.held ++ more

theorem Kept.refl (x : QState) : Kept x x := ⟨rfl, id, fun _ => ⟨rfl, [], (List.append_nil _).symm⟩⟩

theorem Kept.cplsize {x y : QState} (k : Kept x y) : y.cplsize = x.cplsize := by
  have e := congrArg QState.cplsize k.same; exact e

theorem Kept.cplhead {x y : QState} (k : Kept x y) : y.cplhead = x.cplhead := by
  have e := congrArg QState.cplhead k.same; exact e

/-- A queue to which no entry can be written stays so. -/
theorem Kept.stays {x y : QState} (k : Kept x y) (h : x.enabled = false ∨ ¬ x.room) : y.enabled = false ∨ ¬ y.room := by
  rcases h with off | full
  · refine .inl ((Bool.eq_false_or_eq_true _).resolve_left fun on => ?_)
    rw [k.enabled on] at off
    cases off
  · right
    unfold QState.room at full ⊢
    rwa [(k.stuck (.inr full)).1, k.cplhead, k.cplsize]

theorem Kept.trans {x y z : QState} (first : Kept x y) (second : Kept y z) : Kept x z := by
  refine ⟨?_, fun on => first.enabled (second.enabled on), fun h => ?_⟩
  · have e := congrArg (fun v : QState =>
      { v with enabled := x.enabled, head := x.head, cpltail := x.cpltail, recs := x.recs, held := x.held }) second.same
    exact e.trans first.same
  · obtain ⟨tail, more, held⟩ := first.stuck h
    obtain ⟨tail', more', held'⟩ := second.stuck (first.stays h)
    exact ⟨tail'.trans tail, more ++ more', by rw [held', held, List.append_assoc]⟩

/-- The same bookkeeping, with only the records, the head and the held entries written. -/
theorem kept_records (x : QState) (l : List QRec) (h : Nat) (more : List (Word × Word)) :
    Kept x { x with recs := l, head := h, held := x.held ++ more } := ⟨rfl, id, fun _ => ⟨rfl, more, rfl⟩⟩

theorem kept_off (x : QState) : Kept x { x with enabled := false } :=
  ⟨rfl, fun h => (Bool.false_ne_true h).elim, fun _ => ⟨rfl, [], (List.append_nil _).symm⟩⟩

theorem queue_setQueue (s : State) (p q : Nat) (v : QState) (k : Nat) :
    (s.setQueue p q v).queue p k = if k = q then v else s.queue p k := by
  unfold State.setQueue State.queue
  rw [State.part_setPart_same, Sparse.get_put]

@[simp] theorem queue_setQueue_same (s : State) (p q : Nat) (v : QState) : (s.setQueue p q v).queue p q = v := by
  rw [queue_setQueue, if_pos rfl]

theorem bare_queue {s t : State} (h : t.bare = s.bare) (p q : Nat) : t.queue p q = s.queue p q := by
  unfold State.queue; rw [bare_part h]

theorem Woken.queue {s t : State} (w : Woken s t) (p q : Nat) : t.queue p q = s.queue p q := by
  unfold State.queue State.part; rw [w.parts]

/-! ### What its bookkeeping may change -/

/-- From `s` to `t` strands may have left `wfi`, memory and what `State.bare` leaves out may have changed, the launch unit's
lists of partition `p` may have, and copies of graph nodes may have started; nothing else of the partitions has changed. -/
structure Beside (p : Nat) (s t : State) : Prop where
  cur    : t.cur = s.cur
  strand : ∀ k, t.strand k = s.strand k
    ∨ ((s.strand k).wait = .wfi ∧ t.strand k = (s.strand k).go ((s.strand k).pc + 4))
  others : ∀ q, q ≠ p → t.part q = s.part q
  part   : { t.part p with
      queues := (s.part p).queues, ready := (s.part p).ready, nodes := (s.part p).nodes, badNodes := (s.part p).badNodes
      nodeQueues := (s.part p).nodeQueues, tagReqs := (s.part p).tagReqs } = s.part p
  copies : ∀ k ∈ t.copies, k ∈ s.copies ∨ s.nextId ≤ k.id
  nextId : s.nextId ≤ t.nextId

/-- The same, and of its queues nothing but what `Kept` leaves open has. -/
structure Launched (p : Nat) (s t : State) : Prop extends Beside p s t where
  queue : ∀ q, Kept (s.queue p q) (t.queue p q)

theorem Beside.trans {p : Nat} {s t u : State} (first : Beside p s t) (second : Beside p t u) : Beside p s u where
  cur := second.cur.trans first.cur
  strand k := by
    rcases second.strand k with e | ⟨wfi, e⟩
    · rw [e]; exact first.strand k
    · rcases first.strand k with e' | ⟨-, e'⟩
      · rw [e'] at wfi e; exact .inr ⟨wfi, e⟩
      · rw [e', Strand.go_wait] at wfi; cases wfi
  others q h := (second.others q h).trans (first.others q h)
  part := by
    have e := congrArg (fun v : Partition => { v with
      queues := (s.part p).queues, ready := (s.part p).ready, nodes := (s.part p).nodes, badNodes := (s.part p).badNodes
      nodeQueues := (s.part p).nodeQueues, tagReqs := (s.part p).tagReqs }) second.part
    exact e.trans first.part
  copies k h := by
    rcases second.copies k h with old | new
    · exact first.copies k old
    · exact .inr (first.nextId.trans new)
  nextId := first.nextId.trans second.nextId

theorem Launched.trans {p : Nat} {s t u : State} (first : Launched p s t) (second : Launched p t u) : Launched p s u :=
  ⟨first.toBeside.trans second.toBeside, fun q => (first.queue q).trans (second.queue q)⟩

theorem launched_of_bare (p : Nat) {s t : State} (h : t.bare = s.bare) : Launched p s t where
  cur := bare_cur h
  strand k := .inl (bare_strand h k)
  others q _ := bare_part h q
  part := by rw [bare_part h]
  copies k m := by rw [bare_copies h] at m; exact .inl m
  nextId := (bare_nextId h).ge
  queue q := by rw [bare_queue h]; exact .refl _

theorem Launched.refl (p : Nat) (s : State) : Launched p s s := launched_of_bare p rfl

theorem Woken.launched (p : Nat) {s t : State} (w : Woken s t) : Launched p s t where
  cur := w.cur
  strand := w.strand
  others q _ := by unfold State.part; rw [w.parts]
  part := by unfold State.part; rw [w.parts]
  copies k m := by
    have e := congrArg State.copies w.rest
    have e' : t.copies = s.copies := e
    rw [e'] at m; exact .inl m
  nextId := by
    have e := congrArg State.nextId w.rest
    have e' : t.nextId = s.nextId := e
    exact e'.ge
  queue q := by rw [w.queue]; exact .refl _

/-- Partition `p` with other lists. -/
theorem beside_setPart (p : Nat) (s : State) {x : Partition} (same : { x with
      queues := (s.part p).queues, ready := (s.part p).ready, nodes := (s.part p).nodes, badNodes := (s.part p).badNodes
      nodeQueues := (s.part p).nodeQueues, tagReqs := (s.part p).tagReqs } = s.part p) : Beside p s (s.setPart p x) where
  cur := rfl
  strand _ := .inl rfl
  others q h := by rw [State.part_setPart, if_neg h]
  part := by rw [State.part_setPart_same]; exact same
  copies _ m := .inl m
  nextId := Nat.le_refl _

theorem launched_setPart (p : Nat) (s : State) {x : Partition} (same : { x with
      ready := (s.part p).ready, nodes := (s.part p).nodes, badNodes := (s.part p).badNodes
      nodeQueues := (s.part p).nodeQueues, tagReqs := (s.part p).tagReqs } = s.part p) : Launched p s (s.setPart p x) where
  toBeside := beside_setPart p s (by
    have e := congrArg (fun v : Partition => { v with queues := (s.part p).queues }) same
    exact e)
  queue q := by
    have e := congrArg Partition.queues same
    have queues : x.queues = (s.part p).queues := e
    unfold State.queue
    rw [State.part_setPart_same, queues]
    exact .refl _

theorem beside_setQueue (p q : Nat) (s : State) (v : QState) : Beside p s (s.setQueue p q v) := beside_setPart p s rfl

theorem launched_setQueue (p q : Nat) (s : State) {v : QState} (k : Kept (s.queue p q) v) : Launched p s (s.setQueue p q v) where
  toBeside := beside_setQueue p q s v
  queue r := by
    rw [queue_setQueue]
    split
    · next h => subst h; exact k
    · exact .refl _

end Sys2Proof.Machine
end

section
/-! PROOFS. What each operation of the launch unit leaves (R18-R28, R35, R297, R323). -/

namespace Sys2Proof.Machine

/-! ### Completion entries (R20) -/

theorem launched_launchFault (s : State) (p : Nat) (queue : Bool) (n : Nat) (e : Stop) :
    Launched p s (s.launchFault p queue n e) := launched_of_bare p (launchFault_bare ..)

theorem launched_queueOff (s : State) (p q : Nat) : Launched p s (s.queueOff p q) := launched_setQueue p q s (kept_off _)

/-- A failed access of the launch unit to a queue (R323). -/
theorem launched_fails (s : State) (p q n : Nat) (b : Bool) (e : Stop) :
    Launched p s ((s.launchFault p b n e).queueOff p q) := (launched_launchFault ..).trans (launched_queueOff ..)

/-- The tail of a completion ring written to its descriptor on page `g`, with the release that goes with it (R20). -/
def State.tailWritten (s : State) (p : Nat) (g : Page) (tail : Nat) : State :=
  let r := (s.store (launchAccess p) g (leBytes 2 tail)).release (launchAgent p) pkgLoc .sys
  (List.range 2).foldl (fun s i => s.setTokens (byteKey 0 (placeOf g.pa g.home + i)) [r.1]) r.2

theorem tailWritten_bare (s : State) (p : Nat) (g : Page) (tail : Nat) : (s.tailWritten p g tail).bare = s.bare := by
  unfold State.tailWritten
  dsimp only
  rw [bare_foldl _ fun _ _ => setTokens_bare .., release_bare, store_bare s rfl]

/-- Writing one entry (R20). -/
theorem writeEntry_of_writes {s u : State} {p q : Nat} {e : Word × Word} {g : Page}
    (written : s.writeSpan (launchAccess p) ((s.queue p q).cplbase.toNat + 16 * ((s.queue p q).cpltail % (s.queue p q).cplsize))
      (dwordBytes [e.1, e.2]) = (none, u))
    (checked : u.check (launchAccess p) (s.descVa p q + 24 : Nat) 2 false true = .ok g) :
    s.writeEntry p q e = .ok (((u.tailWritten p g (idxAdd (s.queue p q).cpltail 1)).setQueue p q
      { s.queue p q with cpltail := idxAdd (s.queue p q).cpltail 1 }).wakePart p) := by
  have bare : (u.tailWritten p g (idxAdd (s.queue p q).cpltail 1)).bare = s.bare := by
    have e' := writeSpan_bare s (a := launchAccess p) rfl
      ((s.queue p q).cplbase.toNat + 16 * ((s.queue p q).cpltail % (s.queue p q).cplsize)) (dwordBytes [e.1, e.2])
    rw [written] at e'
    rw [tailWritten_bare, e']
  unfold State.writeEntry
  dsimp only
  rw [written]
  dsimp only
  rw [checked]
  dsimp only
  generalize idxAdd (s.queue p q).cpltail 1 = tail at bare ⊢
  change Except.ok (((u.tailWritten p g tail).setQueue p q
    { (u.tailWritten p g tail).queue p q with cpltail := tail }).wakePart p) = _
  rw [bare_queue bare]

/-- An entry is written only in this way. -/
theorem writeEntry_ok {s t : State} {p q : Nat} {e : Word × Word} (h : s.writeEntry p q e = .ok t) :
    ∃ u : State, u.bare = s.bare
      ∧ t = (u.setQueue p q { s.queue p q with cpltail := idxAdd (s.queue p q).cpltail 1 }).wakePart p := by
  rcases written : s.writeSpan (launchAccess p)
    ((s.queue p q).cplbase.toNat + 16 * ((s.queue p q).cpltail % (s.queue p q).cplsize)) (dwordBytes [e.1, e.2]) with ⟨_ | st, u⟩
  case some =>
    unfold State.writeEntry at h
    dsimp only at h
    rw [written] at h
    cases h
  case none =>
    cases checked : u.check (launchAccess p) (s.descVa p q + 24 : Nat) 2 false true with
    | ok g =>
        rw [writeEntry_of_writes written checked, Except.ok.injEq] at h
        refine ⟨_, ?_, h.symm⟩
        have e' := writeSpan_bare s (a := launchAccess p) rfl
          ((s.queue p q).cplbase.toNat + 16 * ((s.queue p q).cpltail % (s.queue p q).cplsize)) (dwordBytes [e.1, e.2])
        rw [written] at e'
        rw [tailWritten_bare, e']
    | bad c n =>
        unfold State.writeEntry at h
        dsimp only at h
        rw [written] at h
        dsimp only at h
        rw [checked] at h
        cases h
    | cell =>
        unfold State.writeEntry at h
        dsimp only at h
        rw [written] at h
        dsimp only at h
        rw [checked] at h
        cases h

/-- No entry can be written to a queue: it is off, or its completion ring is full. -/
def QState.stuck (x : QState) : Prop := x.enabled = false ∨ ¬ x.room

theorem stuck_iff (x : QState) :
    (!x.enabled || decide (x.cplsize ≤ (x.cpltail + 65536 - x.cplhead) % 65536)) = true ↔ x.stuck := by
  unfold QState.stuck QState.room
  rw [Bool.or_eq_true, Bool.not_eq_true', decide_eq_true_eq, Nat.not_lt]

theorem flush_none {s : State} {p q : Nat} (h : (s.queue p q).held = []) (n : Nat) : State.flush p q n s = s := by
  cases n with
  | zero => rfl
  | succ n => rw [State.flush]; dsimp only; rw [h]

theorem flush_stuck {s : State} {p q : Nat} (h : (s.queue p q).stuck) (n : Nat) : State.flush p q n s = s := by
  cases n with
  | zero => rfl
  | succ n =>
      rw [State.flush]
      dsimp only
      split
      · rfl
      · rw [if_pos ((stuck_iff _).2 h)]

theorem flush_fails {s : State} {p q : Nat} {e : Word × Word} {l : List (Word × Word)} {st : Stop}
    (held : (s.queue p q).held = e :: l) (goes : ¬ (s.queue p q).stuck) (fails : s.writeEntry p q e = .error st) (n : Nat) :
    State.flush p q (n + 1) s = (s.launchFault p true q st).queueOff p q := by
  rw [State.flush]
  dsimp only
  rw [held]
  dsimp only
  rw [if_neg (mt (stuck_iff _).1 goes), fails]

theorem flush_writes {s t : State} {p q : Nat} {e : Word × Word} {l : List (Word × Word)} (held : (s.queue p q).held = e :: l)
    (goes : ¬ (s.queue p q).stuck) (written : s.writeEntry p q e = .ok t) (n : Nat) :
    State.flush p q (n + 1) s = State.flush p q n (t.setQueue p q { t.queue p q with held := l }) := by
  rw [State.flush]
  dsimp only
  rw [held]
  dsimp only
  rw [if_neg (mt (stuck_iff _).1 goes), written]

theorem launched_entry {s t : State} {p q : Nat} {e : Word × Word} {l : List (Word × Word)}
    (written : s.writeEntry p q e = .ok t) (held : (s.queue p q).held = e :: l) (goes : ¬ (s.queue p q).stuck) :
    Launched p s (t.setQueue p q { t.queue p q with held := l }) := by
  obtain ⟨u, bare, rfl⟩ := writeEntry_ok written
  have woken := wakePart_woken (u.setQueue p q { s.queue p q with cpltail := idxAdd (s.queue p q).cpltail 1 }) p
  refine ⟨?_, fun r => ?_⟩
  · exact ((launched_of_bare p bare).toBeside.trans (beside_setQueue p q u _)).trans
      ((woken.launched p).toBeside.trans (beside_setQueue p q _ _))
  · rw [woken.queue, queue_setQueue_same]
    by_cases h : r = q
    · subst h
      rw [queue_setQueue_same]
      exact ⟨rfl, id, fun stuck => (goes stuck).elim⟩
    · rw [queue_setQueue, if_neg h, woken.queue, queue_setQueue, if_neg h, bare_queue bare]
      exact .refl _

theorem launched_flush (p q n : Nat) (s : State) : Launched p s (State.flush p q n s) := by
  induction n generalizing s with
  | zero => exact .refl p s
  | succ n ih =>
      by_cases stuck : (s.queue p q).stuck
      · rw [flush_stuck stuck]; exact .refl p s
      · cases held : (s.queue p q).held with
        | nil => rw [flush_none held]; exact .refl p s
        | cons e l =>
            cases written : s.writeEntry p q e with
            | error st => rw [flush_fails held stuck written]; exact launched_fails ..
            | ok t => rw [flush_writes held stuck written]; exact (launched_entry written held stuck).trans (ih _)

theorem launched_post (s : State) (p q : Nat) (d0 d1 : Word) : Launched p s (s.post p q d0 d1) :=
  (launched_setQueue p q s (kept_records (s.queue p q) _ _ [(d0, d1)])).trans (launched_flush ..)

theorem launched_graphFault (s : State) (p q n : Nat) : Launched p s (s.graphFault p q n) := launched_post ..

theorem launched_refuseJob (s : State) (p : Nat) (j : Job) (v : Verdict) : Launched p s (s.refuseJob p j v) := launched_post ..

/-! ### Graph nodes (R25) -/

theorem launched_unreadNode (s : State) (p n : Nat) (e : Stop) : Launched p s (s.unreadNode p n e) := by
  unfold State.unreadNode
  dsimp only
  split
  · exact (launched_launchFault ..).trans (launched_graphFault ..)
  · exact ((launched_launchFault ..).trans (launched_of_bare p (free_bare _))).trans (launched_graphFault ..)

theorem launched_readNode (s : State) (p n : Nat) : Launched p s (s.readNode p n).2 := by
  unfold State.readNode
  split
  · exact launched_unreadNode ..
  · next bs u read =>
      have seen : Launched p s (u.setPart p { u.part p with
          nodeQueues := Sparse.put none (s.nodeVa p n) (some (nodeQueue (dwords bs))) (u.part p).nodeQueues }) :=
        (launched_of_bare p (readSpan_bare read)).trans (launched_setPart p u rfl)
      dsimp only
      split
      · split
        · exact seen
        · exact (seen.trans (launched_setPart p _ (by rw [State.part_setPart_same]))).trans (launched_graphFault ..)
      · exact seen.trans (launched_setPart p _ (by rw [State.part_setPart_same]))

/-! ### Start records (R18, R19, R22) -/

theorem launched_judge (s : State) (p : Nat) (j : Job) (c : Bool) : Launched p s (s.judge p j c).2 := by
  have read := launched_readNode s p j.named
  unfold State.judge
  dsimp only
  split
  · exact .refl p s
  · split
    · simp only [apply_ite Prod.snd, ite_self]
      exact .refl p s
    · split
      · next u e =>
          rw [e] at read
          simp only [apply_ite Prod.snd, ite_self]
          exact read
      · next ws u e =>
          rw [e] at read
          simp only [apply_ite Prod.snd, ite_self]
          exact read

theorem kept_onRec (x : QState) (i : Nat) (f : QRec → QRec) : Kept x (x.onRec i f) :=
  ⟨rfl, id, fun _ => ⟨rfl, [], (List.append_nil _).symm⟩⟩

theorem kept_front (x : QState) (l : List QRec) (h : Nat) : Kept x { x with recs := l, head := h } :=
  ⟨rfl, id, fun _ => ⟨rfl, [], (List.append_nil _).symm⟩⟩

theorem launched_handled (s : State) (p q i : Nat) : Launched p s (s.handled p q i) := by
  have marked := launched_setQueue p q s ((kept_onRec (s.queue p q) i fun r => { r with started := true }).trans
    (kept_front _ (dropHandled ((s.queue p q).onRec i fun r => { r with started := true }).recs (s.queue p q).head).1
      (dropHandled ((s.queue p q).onRec i fun r => { r with started := true }).recs (s.queue p q).head).2))
  unfold State.handled
  dsimp only
  split
  · exact marked
  · split
    · exact marked.trans (launched_fails ..)
    · next u written =>
        have e := congrArg (fun r => r.2.bare) written
        dsimp only at e
        rw [writeSpan_bare _ rfl] at e
        exact marked.trans (launched_of_bare p e.symm)

theorem launched_judgeRec (p q : Nat) (s : State) (r : QRec) : Launched p s (State.judgeRec p q s r) := by
  have judged := launched_judge s p (r.job q) r.capable
  unfold State.judgeRec
  split
  · exact .refl p s
  · dsimp only
    have noted := judged.trans (launched_setQueue p q _ (kept_onRec ((s.judge p (r.job q) r.capable).2.queue p q) r.idx
      fun t => { t with verdict := some (s.judge p (r.job q) r.capable).1 }))
    split
    · exact noted
    · exact (noted.trans (launched_refuseJob ..)).trans (launched_handled ..)

theorem launched_foldl {α : Type} (p : Nat) (f : State → α → State) (step : ∀ s a, Launched p s (f s a)) (l : List α)
    (s : State) : Launched p s (l.foldl f s) := by
  induction l generalizing s with
  | nil => exact .refl p s
  | cons a l ih => exact (step s a).trans (ih _)

theorem launched_judgeHead (p q n : Nat) (s : State) : Launched p s (State.judgeHead p q n s) := by
  induction n generalizing s with
  | zero => exact .refl p s
  | succ n ih =>
      rw [State.judgeHead]
      split
      · exact .refl p s
      · next r _ =>
          have first := launched_judgeRec p q s r
          dsimp only
          split
          · exact first
          · split
            · split
              · exact first.trans (launched_foldl p _ (launched_judgeRec p q) _ _)
              · exact first
            · exact first.trans (ih _)

theorem launched_orphan (p : Nat) (s : State) (l : List NodeRec) (j : Job) :
    Launched p s ((s.setPart p { s.part p with nodes := l }).refuseJob p j .invalid) := by
  have dropped := launched_setPart p s (x := { s.part p with nodes := l }) rfl
  exact dropped.trans (launched_refuseJob _ p j .invalid)

theorem launched_dropOrphans (p : Nat) (s : State) : Launched p s (State.dropOrphans p s) := by
  unfold State.dropOrphans
  refine launched_foldl p _ (fun s x => ?_) _ s
  exact launched_orphan p s ((s.part p).nodes.filter (· != x)) x.job

/-- The heads judged and the orphans refused, before what is ready is listed anew (R29). -/
def State.judged (s : State) (p : Nat) : State :=
  State.dropOrphans p
    (((s.part p).queues.map (·.1)).foldl (fun s q => State.judgeHead p q ((s.queue p q).recs.length + 1) s) s)

theorem launched_judged (s : State) (p : Nat) : Launched p s (s.judged p) :=
  (launched_foldl p _ (fun s q => launched_judgeHead p q _ s) _ s).trans (launched_dropOrphans ..)

/-- What is ready now stands in the list that `settle` makes of it and of `l`, what was ready before. -/
theorem mem_readyList {r : Ready} {now : List Ready} (h : r ∈ now) (l : List Ready) :
    r ∈ l.filter now.contains ++ now.filter fun r => !(l.filter now.contains).contains r := by
  by_cases kept : r ∈ l.filter now.contains
  · exact List.mem_append_left _ kept
  · exact List.mem_append_right _ (List.mem_filter.2 ⟨h, by rw [Bool.not_eq_true', List.contains_eq_mem, decide_eq_false kept]⟩)

theorem settle_eq (s : State) (p : Nat) : ∃ ready tagReqs, s.settle p = (s.judged p).setPart p
    { (s.judged p).part p with ready := ready, tagReqs := tagReqs } ∧ ∀ r ∈ (s.judged p).readyNow p, r ∈ ready :=
  ⟨_, _, rfl, fun _ now => mem_readyList now ((s.judged p).part p).ready⟩

theorem launched_settle (s : State) (p : Nat) : Launched p s (s.settle p) := by
  obtain ⟨ready, tagReqs, e, -⟩ := settle_eq s p
  rw [e]
  exact (launched_judged s p).trans (launched_setPart p _ rfl)

/-! ### Graph nodes that complete (R26-R28) -/

/-- An agent number taken. -/
theorem launched_fresh (p : Nat) (s : State) : Launched p s s.fresh.2 where
  cur := rfl
  strand _ := .inl rfl
  others _ _ := rfl
  part := rfl
  copies _ m := .inl m
  nextId := Nat.le_succ _
  queue _ := .refl _

/-- Later a copy starts whose number was not in use before. -/
theorem Launched.starts {p : Nat} {s t : State} (l : Launched p s t) {c : Copy} (h : s.nextId ≤ c.id) :
    Launched p s { t with copies := t.copies ++ [c] } where
  cur := l.cur
  strand := l.strand
  others := l.others
  part := l.part
  copies k m := (List.mem_append.1 m).elim (l.copies k) fun m => by rw [List.mem_singleton.1 m]; exact .inr h
  nextId := l.nextId
  queue := l.queue

theorem launched_startNodeCopy (s : State) (p n q : Nat) (va : Word) : Launched p s (s.startNodeCopy p n q va) := by
  unfold State.startNodeCopy
  dsimp only
  split
  · exact (launched_launchFault ..).trans (launched_graphFault ..)
  · next b u read =>
      have counted := (launched_fresh p s).trans (launched_of_bare p (readBlock_bare read))
      split
      · exact counted.trans (launched_graphFault ..)
      · exact counted.starts (Nat.le_refl _)

theorem launched_enqueue (s : State) (p n : Nat) (ws : List Word) : Launched p s (s.enqueue p n ws) := by
  unfold State.enqueue
  dsimp only
  split
  · exact launched_startNodeCopy ..
  · split
    · exact (launched_launchFault ..).trans (launched_graphFault ..)
    · next bs u read =>
        have judged := (launched_of_bare p (readSpan_bare read)).trans (launched_judge u p
          (NodeRec.job { n := n, queue := nodeQueue ws, words := dwords bs })
          (u.couldHold (u.part p) (NodeRec.job { n := n, queue := nodeQueue ws, words := dwords bs }).want))
        split
        · exact judged.trans (launched_setPart p _ rfl)
        · exact judged.trans (launched_refuseJob ..)

theorem writePreds_bare {s t : State} {p n v : Nat} (h : s.writePreds p n v = .ok t) : t.bare = s.bare := by
  unfold State.writePreds at h
  dsimp only at h
  split at h
  · cases h
  · cases h
  · split at h
    · cases h
    · cases h
    · next written =>
        obtain rfl := Except.ok.inj h
        exact atomic_bare (a := launchAccess p) rfl written

theorem launched_decrement (s : State) (p n : Nat) : Launched p s (s.decrement p n) := by
  have read := launched_readNode s p n
  unfold State.decrement
  split
  · next e => rw [e] at read; exact read
  · next e =>
      rw [e] at read
      split
      · exact read
      · split
        · exact read.trans (launched_graphFault ..)
        · split
          · exact read.trans (launched_unreadNode ..)
          · next written =>
              have wrote := read.trans (launched_of_bare p (writePreds_bare written))
              split
              · exact wrote.trans (launched_enqueue ..)
              · exact wrote

theorem launched_followId (p n q : Nat) (s : State) (i : Nat) : Launched p s (State.followId p n q s i) := by
  unfold State.followId
  split
  · exact launched_graphFault ..
  · exact launched_decrement ..

theorem launched_decrementAll (p fuel n : Nat) (s : State) : Launched p s (State.decrementAll p fuel n s) := by
  induction fuel generalizing n s with
  | zero => exact .refl p s
  | succ fuel ih =>
      have read := launched_readNode s p n
      rw [State.decrementAll]
      split
      · next e => rw [e] at read; exact read
      · next ws u e =>
          rw [e] at read
          have followed := read.trans
            (launched_foldl p _ (launched_followId p n (nodeQueue ws)) (successors ws) u)
          dsimp only
          split
          · exact followed
          · split
            · exact followed.trans (launched_graphFault ..)
            · exact followed.trans (ih _ _)

theorem launched_nodeDone (s : State) (p n : Nat) : Launched p s (s.nodeDone p n) :=
  (launched_decrementAll ..).trans ((wakePart_woken _ p).launched p)

end Sys2Proof.Machine
end

section
/-! PROOFS. Readings of a descriptor (R17, R18, R227, R270, R323): what the launch unit reads does not depend on strands and
on the ordering model; what one reading leaves of a queue; at the end they are put together to settle O48. -/

namespace Sys2Proof.Machine

/-! ### What a reading depends on -/

/-- `s` and `t` differ in their strands and in the records of the ordering model at most. -/
def Synced (s t : State) : Prop := { t with strands := s.strands, order := s.order } = s

theorem synced_check {s t : State} (h : Synced s t) (p : Nat) (va : Int) (n : Nat) (l w c : Bool) :
    t.check (launchAccess p) va n l w c = s.check (launchAccess p) va n l w c := by
  unfold Synced at h
  rw [← h]
  rfl

theorem synced_used {s t : State} (h : Synced s t) (g : Page) : Synced (s.used g) (t.used g) := by
  unfold Synced at h ⊢
  rw [← h]
  unfold State.used
  dsimp only
  split <;> rfl

theorem Synced.symm {s t : State} (h : Synced s t) : Synced t s := by
  unfold Synced at h ⊢
  rw [← h]

theorem Synced.trans {s t u : State} (first : Synced s t) (second : Synced t u) : Synced s u := by
  unfold Synced at first second ⊢
  exact (congrArg (fun v : State => { v with strands := s.strands, order := s.order }) second).trans first

theorem synced_sawTokens (s : State) (a k : Nat) : Synced s (s.sawTokens a k) := by
  unfold State.sawTokens
  dsimp only
  split <;> rfl

theorem synced_foldl {α : Type} (f : State → α → State) (step : ∀ s a, Synced s (f s a)) (l : List α) (s : State) :
    Synced s (l.foldl f s) := by
  induction l generalizing s with
  | nil => rfl
  | cons a l ih => exact (step s a).trans (ih _)

/-- Of a read that the race checker does not see, only the count of uses stands outside the ordering model. -/
theorem synced_loaded (s : State) (p : Nat) (g : Page) (n : Nat) : Synced (s.used g) (s.load (launchAccess p) g n).2 := by
  unfold State.load State.touchAll
  dsimp only [launchAccess]
  simp only [Bool.not_true, Bool.false_and, Bool.false_eq_true, if_false]
  split
  · rfl
  · exact synced_foldl _ (fun s i => synced_sawTokens s _ _) _ _

theorem synced_load {s t : State} (h : Synced s t) (p : Nat) (g : Page) (n : Nat) :
    (t.load (launchAccess p) g n).1 = (s.load (launchAccess p) g n).1
      ∧ Synced (s.load (launchAccess p) g n).2 (t.load (launchAccess p) g n).2 := by
  refine ⟨?_, ((synced_loaded s p g n).symm.trans (synced_used h g)).trans (synced_loaded t p g n)⟩
  unfold Synced at h
  rw [← h]
  rfl

theorem synced_readPieces {s t : State} (h : Synced s t) (p va : Nat) (l : List (Nat × Nat)) :
    (t.readPieces (launchAccess p) va l).toOption.map (·.1) = (s.readPieces (launchAccess p) va l).toOption.map (·.1) := by
  induction l generalizing s t with
  | nil => rfl
  | cons e l ih =>
      rw [State.readPieces, State.readPieces, synced_check h]
      cases s.check (launchAccess p) (va + e.1 : Nat) e.2 true false with
      | bad c n => rfl
      | cell => rfl
      | ok g =>
          obtain ⟨bytes, next⟩ := synced_load h p g e.2
          have rest := ih next
          dsimp only
          rw [bytes]
          cases r : (t.load (launchAccess p) g e.2).2.readPieces (launchAccess p) va l with
          | error x =>
              cases r' : (s.load (launchAccess p) g e.2).2.readPieces (launchAccess p) va l with
              | error x' => rfl
              | ok y' => rw [r, r'] at rest; cases rest
          | ok y =>
              cases r' : (s.load (launchAccess p) g e.2).2.readPieces (launchAccess p) va l with
              | error x' => rw [r, r'] at rest; cases rest
              | ok y' =>
                  rw [r, r'] at rest
                  have same : y.1 = y'.1 := Option.some.inj rest
                  exact congrArg (fun bs => some ((s.load (launchAccess p) g e.2).1 ++ bs)) same

/-- What the launch unit reads does not depend on strands and on the ordering model. -/
theorem synced_readSpan {s t : State} (h : Synced s t) (p va n : Nat) :
    (t.readSpan (launchAccess p) va n).toOption.map (·.1) = (s.readSpan (launchAccess p) va n).toOption.map (·.1) :=
  synced_readPieces h p va _

/-! ### Reading records (R18) -/

/-- What one record read leaves of the queue that it is read from: its records, and how far it has been read. -/
theorem readRecs_spec (p q n : Nat) (s : State) : Beside p s (State.readRecs p q n s)
    ∧ { (State.readRecs p q n s).queue p q with
        recs := (s.queue p q).recs, readTo := (s.queue p q).readTo, count := (s.queue p q).count } = s.queue p q
    ∧ ((s.queue p q).readTo < 65536 → ((State.readRecs p q n s).queue p q).readTo = ((s.queue p q).readTo + n) % 65536) := by
  induction n generalizing s with
  | zero => exact ⟨(Launched.refl p s).toBeside, rfl, fun h => (Nat.mod_eq_of_lt h).symm⟩
  | succ n ih =>
      -- the state `u` in which the record has been read, and the record `r`
      have step (u : State) (r : QRec) (bare : u.bare = s.bare) :
          let v := u.setQueue p q { u.queue p q with
            recs := (u.queue p q).recs ++ [r], readTo := idxAdd (s.queue p q).readTo 1, count := (s.queue p q).count + 1 }
          Beside p s (State.readRecs p q n v)
          ∧ { (State.readRecs p q n v).queue p q with
              recs := (s.queue p q).recs, readTo := (s.queue p q).readTo, count := (s.queue p q).count } = s.queue p q
          ∧ ((s.queue p q).readTo < 65536 →
            ((State.readRecs p q n v).queue p q).readTo = ((s.queue p q).readTo + (n + 1)) % 65536) := by
        intro v
        obtain ⟨beside, same, reads⟩ := ih v
        have queue : v.queue p q = _ := queue_setQueue_same ..
        rw [queue, bare_queue bare] at same reads
        refine ⟨((launched_of_bare p bare).toBeside.trans (beside_setQueue ..)).trans beside, ?_, fun h => ?_⟩
        · have e := congrArg (fun x : QState => { x with
            recs := (s.queue p q).recs, readTo := (s.queue p q).readTo, count := (s.queue p q).count }) same
          exact e
        · rw [reads (Nat.mod_lt _ (by omega))]
          dsimp only [idxAdd]
          omega
      rw [State.readRecs]
      dsimp only
      split
      · exact step _ _ (launchFault_bare ..)
      · next read => exact step _ _ (acquireSpan_bare read)

/-! ### One reading of a descriptor (R18) -/

/-- A queue that the launch unit has switched off stays off while it settles what is ready. -/
theorem settle_off (s : State) (p q : Nat) : (((s.queueOff p q).settle p).queue p q).enabled = false := by
  refine (Bool.eq_false_or_eq_true _).resolve_left fun on => ?_
  have off := ((launched_settle (s.queueOff p q) p).queue q).enabled on
  rw [State.queueOff, queue_setQueue_same] at off
  cases off

theorem poll_unread {s : State} {p q : Nat} {e : Stop} (h : s.readSpan (launchAccess p) (s.descVa p q) 64 = .error e) :
    s.poll p q = ((s.launchFault p true q e).queueOff p q).settle p := by
  unfold State.poll; rw [h]

theorem poll_off {s u : State} {p q : Nat} {bs : List Byte} (h : s.readSpan (launchAccess p) (s.descVa p q) 64 = .ok (bs, u))
    (off : descOk (dwords bs) = false ∨ fieldOf (dwords bs) 4 0 0 = 0) :
    s.poll p q = (if descOk (dwords bs) then u.queueOff p q else (u.logs (.queueOff p q)).queueOff p q).settle p := by
  unfold State.poll
  rw [h]
  dsimp only
  cases ok : descOk (dwords bs) with
  | false => rfl
  | true => exact if_pos (off.resolve_left (by rw [ok]; exact Bool.noConfusion))

/-- The queue as its descriptor, the doublewords `d`, has it when it is loaded anew. -/
def QState.loaded (x : QState) (d : List Word) : QState :=
  { x with
    enabled := true, ringbase := d.getD 0 0, ringsize := fieldOf d 1 47 32, head := fieldOf d 1 15 0
    cplbase := d.getD 2 0, cplsize := fieldOf d 3 47 32, cpltail := fieldOf d 3 15 0
    readTo := fieldOf d 1 15 0, recs := [] }

/-- The queue as a reading of its descriptor finds it: loaded anew unless it was on, with the head of its completion ring. -/
def QState.found (x : QState) (d : List Word) : QState :=
  { if x.enabled then x else x.loaded d with cplhead := fieldOf d 3 31 16 }

theorem poll_on {s u : State} {p q : Nat} {bs : List Byte} (h : s.readSpan (launchAccess p) (s.descVa p q) 64 = .ok (bs, u))
    (ok : descOk (dwords bs) = true) (on : fieldOf (dwords bs) 4 0 0 = 1) :
    s.poll p q = (State.flush p q (u.queue p q).held.length (State.readRecs p q
      (idxAdd (fieldOf (dwords bs) 1 31 16) (65536 - ((u.queue p q).found (dwords bs)).readTo))
      (u.setQueue p q ((u.queue p q).found (dwords bs))))).settle p := by
  unfold State.poll
  rw [h]
  dsimp only
  rw [ok, on]
  unfold QState.found QState.loaded
  cases (u.queue p q).enabled <;> rfl

theorem beside_poll (s : State) (p q : Nat) : Beside p s (s.poll p q) := by
  cases h : s.readSpan (launchAccess p) (s.descVa p q) 64 with
  | error e =>
      rw [poll_unread h]
      exact ((launched_fails s p q q true e).trans (launched_settle ..)).toBeside
  | ok r =>
      obtain ⟨bs, u⟩ := r
      have bare := launched_of_bare p (readSpan_bare h)
      by_cases off : descOk (dwords bs) = false ∨ fieldOf (dwords bs) 4 0 0 = 0
      · rw [poll_off h off]
        refine (Launched.trans ?_ (launched_settle ..)).toBeside
        split
        · exact bare.trans (launched_queueOff ..)
        · exact (bare.trans (launched_of_bare p (logs_bare ..))).trans (launched_queueOff ..)
      · rw [not_or, Bool.not_eq_false] at off
        have bit : fieldOf (dwords bs) 4 0 0 < 2 := Nat.mod_lt _ (by decide)
        rw [poll_on h off.1 (by omega)]
        exact ((bare.toBeside.trans (beside_setQueue ..)).trans (readRecs_spec ..).1).trans
          ((launched_flush ..).trans (launched_settle ..)).toBeside

/-- What a reading of a sound descriptor that enables the queue leaves of it (R18). -/
structure Polled (x : QState) (d : List Word) (y : QState) : Prop where
  ringbase : y.ringbase = if x.enabled then x.ringbase else d.getD 0 0
  ringsize : y.ringsize = if x.enabled then x.ringsize else fieldOf d 1 47 32
  cplbase  : y.cplbase = if x.enabled then x.cplbase else d.getD 2 0
  cplsize  : y.cplsize = if x.enabled then x.cplsize else fieldOf d 3 47 32
  cplhead  : y.cplhead = fieldOf d 3 31 16
  readTo   : y.readTo = fieldOf d 1 31 16

/-- It leaves so what has been read up to the tail, and then bookkept. -/
theorem polled_of_read {x y z : QState} {d : List Word} {n : Nat}
    (same : { y with recs := (x.found d).recs, readTo := (x.found d).readTo, count := (x.found d).count } = x.found d)
    (reads : y.readTo = ((x.found d).readTo + n) % 65536) (tail : ((x.found d).readTo + n) % 65536 = fieldOf d 1 31 16)
    (kept : Kept y z) : Polled x d z := by
  have hy : y = { x.found d with recs := y.recs, readTo := y.readTo, count := y.count } := by rw [← same]
  have hz : z = { y with
      enabled := z.enabled, head := z.head, cpltail := z.cpltail, recs := z.recs, held := z.held } := by rw [← kept.same]
  have found {α : Type} (f : QState → α) : f (x.found d)
      = if x.enabled then f { x with cplhead := fieldOf d 3 31 16 } else f { x.loaded d with cplhead := fieldOf d 3 31 16 } := by
    unfold QState.found; split <;> rfl
  exact
    { ringbase := by rw [hz, hy]; exact found QState.ringbase
      ringsize := by rw [hz, hy]; exact found QState.ringsize
      cplbase := by rw [hz, hy]; exact found QState.cplbase
      cplsize := by rw [hz, hy]; exact found QState.cplsize
      cplhead := by rw [hz, hy]; rfl
      readTo := by rw [hz]; exact reads.trans tail }

theorem found_readTo_lt {x : QState} (h : x.readTo < 65536) (d : List Word) : (x.found d).readTo < 65536 := by
  unfold QState.found
  dsimp only
  split
  · exact h
  · exact Nat.mod_lt _ (by omega)

theorem poll_polled {s u : State} {p q : Nat} {bs : List Byte}
    (h : s.readSpan (launchAccess p) (s.descVa p q) 64 = .ok (bs, u)) (ok : descOk (dwords bs) = true)
    (on : fieldOf (dwords bs) 4 0 0 = 1) (low : (s.queue p q).readTo < 65536) :
    Polled (s.queue p q) (dwords bs) ((s.poll p q).queue p q) := by
  have start := found_readTo_lt low (dwords bs)
  have tail : fieldOf (dwords bs) 1 31 16 < 65536 := Nat.mod_lt _ (by omega)
  rw [poll_on h ok on, bare_queue (readSpan_bare h)]
  obtain ⟨-, same, reads⟩ := readRecs_spec p q
    (idxAdd (fieldOf (dwords bs) 1 31 16) (65536 - ((s.queue p q).found (dwords bs)).readTo))
    (u.setQueue p q ((s.queue p q).found (dwords bs)))
  rw [queue_setQueue_same] at same reads
  refine polled_of_read same (reads start) ?_ (((launched_flush ..).trans (launched_settle ..)).queue q)
  dsimp only [idxAdd]
  omega

/-! ### O48 -/

/-- Instruction `i` has the launch unit read the descriptor of queue `q` of partition `p`. -/
structure Polls (i : Instr) (s : State) (p q : Nat) : Prop where
  unread : ∀ e, s.readSpan (launchAccess p) (s.descVa p q) 64 = .error e →
    ∃ t, exec i s = .next t ∧ (t.queue p q).enabled = false
  read : ∀ bs u, s.readSpan (launchAccess p) (s.descVa p q) 64 = .ok (bs, u) →
    (descOk (dwords bs) = false ∨ fieldOf (dwords bs) 4 0 0 = 0 → ∃ t, exec i s = .next t ∧ (t.queue p q).enabled = false)
    ∧ (descOk (dwords bs) = true → fieldOf (dwords bs) 4 0 0 = 1 → (s.queue p q).readTo < 65536 →
      ∃ t, exec i s = .next t ∧ Polled (s.queue p q) (dwords bs) (t.queue p q))

/-- It is enough that it polls the queue in a state that differs in its strands and the ordering model alone. -/
theorem polls_of_poll {i : Instr} {s t v : State} {p q : Nat} (run : exec i s = .next t)
    (result : t.queue p q = (v.poll p q).queue p q) (synced : Synced s v) : Polls i s p q := by
  have queue : v.queue p q = s.queue p q := by unfold Synced at synced; rw [← synced]; rfl
  have desc : v.descVa p q = s.descVa p q := by unfold Synced at synced; rw [← synced]; rfl
  have bytes := synced_readSpan synced p (s.descVa p q) 64
  rw [← desc] at bytes
  refine ⟨fun e unread => ⟨t, run, ?_⟩, fun bs u read => ?_⟩
  · cases h : v.readSpan (launchAccess p) (v.descVa p q) 64 with
    | error e' => rw [result, poll_unread h]; exact settle_off ..
    | ok r => rw [desc] at h bytes; rw [h, unread] at bytes; cases bytes
  · cases h : v.readSpan (launchAccess p) (v.descVa p q) 64 with
    | error e' => rw [desc] at h bytes; rw [h, read] at bytes; cases bytes
    | ok r =>
        obtain ⟨bs', u'⟩ := r
        rw [h, desc, read] at bytes
        have same : bs' = bs := Option.some.inj bytes
        subst same
        refine ⟨fun off => ⟨t, run, ?_⟩, fun ok on low => ⟨t, run, ?_⟩⟩
        · rw [result, poll_off h off]
          split
          · exact settle_off ..
          · exact settle_off ..
        · rw [result, ← queue]
          exact poll_polled h ok on (by rw [queue]; exact low)

theorem synced_follows_wakePart (s : State) (a b p : Nat) : Synced s ((s.follows a b).wakePart p) :=
  Synced.trans (t := s.follows a b) rfl (by
    have e := congrArg (fun v : State => { v with order := (s.follows a b).order }) (wakePart_woken (s.follows a b) p).rest
    exact e)

theorem exec_doorbell {p q : Nat} (hp : p < 16) (hq : q < 64) (s : State) :
    exec (.doorbell p q) s = .next (((s.follows (launchAgent p) (outAgent 0)).wakePart p).poll p q) :=
  if_neg (by omega)

theorem exec_qpost {s : State} {a : SReg} (h : (s.reg a).toNat < 64) : exec (.qpost a) s
    = .next ((((s.follows (launchAgent s.me.part) s.me.uid).wakePart s.me.part).poll s.me.part (s.reg a).toNat).advance) :=
  if_neg (by omega)

theorem exec_descriptorPoll {s : State} {p q : Nat} (h : (s.queue p q).held ≠ []) :
    exec (.descriptorPoll p q) s = .next (s.poll p q) := if_neg (by simpa using h)

theorem Beside.me {p : Nat} {s t : State} (h : Beside p s t) (wait : s.me.wait ≠ .wfi) : t.me = s.me := by
  unfold State.me at wait ⊢
  rw [h.cur]
  exact (h.strand s.cur).resolve_right fun e => wait e.1

theorem Beside.passed {p : Nat} {s t : State} (h : Beside p s t) (wait : s.me.wait ≠ .wfi) : Passed s t.advance := by
  unfold Passed State.advance
  rw [State.me_setMe, h.me wait]
  rfl

theorem beside_qpost (s : State) (p q a b : Nat) : Beside p s (((s.follows a b).wakePart p).poll p q) :=
  ((launched_of_bare p (s := s) (t := s.follows a b) rfl).trans ((wakePart_woken _ p).launched p)).toBeside.trans (beside_poll ..)

/-- What `Polls` says, as the statement of O48 does. -/
theorem Polls.spelled {i : Instr} {s : State} {p q : Nat} (h : Polls i s p q) :
    (∀ e, s.readSpan (launchAccess p) (s.descVa p q) 64 = .error e → ∃ t, exec i s = .next t ∧ (t.queue p q).enabled = false)
    ∧ ∀ bs u, s.readSpan (launchAccess p) (s.descVa p q) 64 = .ok (bs, u) →
      (descOk (dwords bs) = false ∨ fieldOf (dwords bs) 4 0 0 = 0 →
        ∃ t, exec i s = .next t ∧ (t.queue p q).enabled = false)
      ∧ (descOk (dwords bs) = true → fieldOf (dwords bs) 4 0 0 = 1 → (s.queue p q).readTo < 65536 →
        ∃ t y, exec i s = .next t ∧ y = t.queue p q
          ∧ y.ringbase = (if (s.queue p q).enabled then (s.queue p q).ringbase else (dwords bs).getD 0 0)
          ∧ y.ringsize = (if (s.queue p q).enabled then (s.queue p q).ringsize else fieldOf (dwords bs) 1 47 32)
          ∧ y.cplbase = (if (s.queue p q).enabled then (s.queue p q).cplbase else (dwords bs).getD 2 0)
          ∧ y.cplsize = (if (s.queue p q).enabled then (s.queue p q).cplsize else fieldOf (dwords bs) 3 47 32)
          ∧ y.cplhead = fieldOf (dwords bs) 3 31 16 ∧ y.readTo = fieldOf (dwords bs) 1 31 16) := by
  refine ⟨h.unread, fun bs u read => ⟨(h.read bs u read).1, fun ok on low => ?_⟩⟩
  obtain ⟨t, run, p⟩ := (h.read bs u read).2 ok on low
  exact ⟨t, _, run, rfl, p.ringbase, p.ringsize, p.cplbase, p.cplsize, p.cplhead, p.readTo⟩

/-- Settles O48: each of the three has the launch unit poll the queue, and what it reads does not depend on what has happened
to strands and to the ordering model before. -/
theorem queuePolls : Obligations.QueuePolls := by
  intro s p q a
  refine ⟨fun hp hq => ?_, fun h => if_pos h, fun h => ?_, fun h => ?_, fun h => ?_, fun h => ⟨?_, fun wait => ?_⟩⟩
  · exact (polls_of_poll (exec_doorbell hp hq s) rfl (synced_follows_wakePart ..)).spelled
  · exact if_pos (by rw [h]; rfl)
  · exact (polls_of_poll (exec_descriptorPoll h) rfl rfl).spelled
  · exact traps_of_trap (if_pos h)
  · exact (polls_of_poll (exec_qpost h) rfl (synced_follows_wakePart ..)).spelled
  · exact ⟨_, exec_qpost h, (beside_qpost ..).passed wait⟩

end Sys2Proof.Machine
end

section
/-! PROOFS. Completion entries (R19, R20, R26, R28, R46): entries that wait or are written, records and copy nodes that
complete; at the end they are put together to settle O49. -/

namespace Sys2Proof.Machine

/-! ### What the bookkeeping of the launch unit keeps -/

theorem Beside.ended {p : Nat} {s t : State} (h : Beside p s t) : (t.part p).ended = (s.part p).ended := by
  have e := congrArg Partition.ended h.part; exact e

theorem Beside.faultedNodes {p : Nat} {s t : State} (h : Beside p s t) :
    (t.part p).faultedNodes = (s.part p).faultedNodes := by
  have e := congrArg Partition.faultedNodes h.part; exact e

theorem Beside.descVa {p : Nat} {s t : State} (h : Beside p s t) (q : Nat) : t.descVa p q = s.descVa p q := by
  have e := congrArg Partition.qbase h.part
  have base : (t.part p).qbase = (s.part p).qbase := e
  unfold State.descVa
  rw [base]

theorem Kept.live {x y : QState} (k : Kept x y) : y.live = x.live := by
  have e := congrArg QState.live k.same; exact e

/-! ### Entries (R20) -/

theorem plainByte_setPart (s : State) (p : Nat) (x : Partition) (key l : Nat) :
    (s.setPart p x).plainByte key l = s.plainByte key l := rfl

theorem Woken.plainByte {s t : State} (w : Woken s t) (key l : Nat) : t.plainByte key l = s.plainByte key l := by
  have e := congrArg (fun v : State => v.plainByte key l) w.rest; exact e

/-- What goes with the write of the tail stands in the ordering model. -/
theorem plainByte_tailWritten (s : State) (p : Nat) (g : Page) (tail key l : Nat) :
    (s.tailWritten p g tail).plainByte key l = (s.store (launchAccess p) g (leBytes 2 tail)).plainByte key l := by
  have tokens (ks : List Nat) (f : Nat → Nat) (toks : List Token) (u : State) :
      (ks.foldl (fun s i => s.setTokens (f i) toks) u).plainByte key l = u.plainByte key l := by
    induction ks generalizing u with
    | nil => rfl
    | cons k ks ih => rw [List.foldl_cons, ih]; rfl
  unfold State.tailWritten
  dsimp only
  rw [tokens]
  rfl

theorem length_dwordBytes (ws : List Word) : (dwordBytes ws).length = 8 * ws.length := by
  induction ws with
  | nil => rfl
  | cons w ws ih =>
      have more : dwordBytes (w :: ws) = leBytes 8 w.toNat ++ dwordBytes ws := rfl
      rw [more, List.length_append, length_leBytes, ih, List.length_cons]
      omega

/-- Pieces that are all stored. -/
theorem writePieces_of_stores {a : Access} {va : Nat} {bs : List Byte} {parts : List (Nat × Nat)} {s : State}
    {σ : Nat → State} {g : Nat → Page} (h : s.Stores a va bs parts σ g) :
    s.writePieces a va bs (wholeBytes va bs.length) parts = (none, σ parts.length) := by
  induction parts generalizing s σ g with
  | nil => rw [State.writePieces, ← h.start]; rfl
  | cons e l ih =>
      have check := h.check 0 e rfl
      have step := h.step 0 e rfl
      rw [h.start] at check step
      rw [State.writePieces, check]
      dsimp only
      rw [← step]
      exact ih (σ := fun j => σ (j + 1)) (g := fun j => g (j + 1))
        ⟨rfl, fun j r hr => h.check (j + 1) r hr, fun j r hr => h.step (j + 1) r hr⟩

theorem writeSpan_of_stores {a : Access} {va : Nat} {s : State} {σ : Nat → State} {g : Nat → Page} {e : Word × Word}
    (h : s.Stores a va (dwordBytes [e.1, e.2]) (pieces 16) σ g) :
    s.writeSpan a va (dwordBytes [e.1, e.2]) = (none, σ 2) := by
  have all := writePieces_of_stores h
  have len : (dwordBytes [e.1, e.2]).length = 16 := length_dwordBytes _
  unfold State.writeSpan
  rw [len] at all ⊢
  exact all

/-- An entry alone in its queue is written, with the ring's tail behind it. -/
theorem flush_one {s : State} {p q : Nat} {e : Word × Word} {σ : Nat → State} {g : Nat → Page} {h : Page}
    (held : (s.queue p q).held = [e]) (goes : ¬ (s.queue p q).stuck)
    (stores : s.Stores (launchAccess p) ((s.queue p q).cplbase.toNat + 16 * ((s.queue p q).cpltail % (s.queue p q).cplsize))
      (dwordBytes [e.1, e.2]) (pieces 16) σ g)
    (checked : (σ 2).check (launchAccess p) (s.descVa p q + 24 : Nat) 2 false true = .ok h) (n : Nat) :
    ∃ t, State.flush p q (n + 1) s = t
      ∧ t.queue p q = { s.queue p q with cpltail := ((s.queue p q).cpltail + 1) % 65536, held := [] }
      ∧ ∀ key l, t.plainByte key l
        = ((σ 2).store (launchAccess p) h (leBytes 2 (((s.queue p q).cpltail + 1) % 65536))).plainByte key l := by
  have written := writeEntry_of_writes (writeSpan_of_stores stores) checked
  rw [flush_writes held goes written]
  generalize hv : (σ 2).tailWritten p h (idxAdd (s.queue p q).cpltail 1) = v
  have woken := wakePart_woken (v.setQueue p q { s.queue p q with cpltail := idxAdd (s.queue p q).cpltail 1 }) p
  refine ⟨_, flush_none (by rw [queue_setQueue_same]) n, ?_, fun key l => ?_⟩
  · rw [queue_setQueue_same, woken.queue, queue_setQueue_same]
    rfl
  · rw [State.setQueue, plainByte_setPart, woken.plainByte, State.setQueue, plainByte_setPart, ← hv]
    exact plainByte_tailWritten ..

/-! ### Records that complete (R19, R20, R46) -/

/-- The strand with agent number `uid` has completed its records in the queues `l`. -/
def State.completes (s : State) (p uid : Nat) (l : List Nat) : State :=
  l.foldl (fun s q => s.setQueue p q { s.queue p q with live := (s.queue p q).live.filter fun l => l.2 != uid }) s

theorem beside_completes (p uid : Nat) (l : List Nat) (s : State) : Beside p s (s.completes p uid l) := by
  unfold State.completes
  induction l generalizing s with
  | nil => exact (Launched.refl p s).toBeside
  | cons q l ih => exact (beside_setQueue p q s _).trans (ih _)

theorem queue_completes (p uid : Nat) (l : List Nat) (s : State) (k : Nat) : (s.completes p uid l).queue p k
    = if k ∈ l then { s.queue p k with live := (s.queue p k).live.filter fun l => l.2 != uid } else s.queue p k := by
  unfold State.completes
  induction l generalizing s with
  | nil => rfl
  | cons q l ih =>
      rw [List.foldl_cons, ih, queue_setQueue]
      by_cases h : k = q
      · subst h
        simp [List.filter_filter]
      · simp [h]

/-- The package once the strand of `e`, the first of the ended ones, has completed its records, before the entry of its last
one. -/
def State.completed (s : State) (p : Nat) (e : Ended) (rest : List Ended) : State :=
  (s.setPart p { s.part p with ended := rest }).completes p e.uid (e.origin.queue :: e.origin.parkedOf.map (·.1))

theorem queue_completed (s : State) (p : Nat) (e : Ended) (rest : List Ended) (k : Nat) : (s.completed p e rest).queue p k
    = if k ∈ e.origin.queue :: e.origin.parkedOf.map (·.1) then
        { s.queue p k with live := (s.queue p k).live.filter fun l => l.2 != e.uid } else s.queue p k := by
  have same : (s.setPart p { s.part p with ended := rest }).queue p k = s.queue p k := by
    unfold State.queue; rw [State.part_setPart_same]
  rw [State.completed, queue_completes, same]

theorem ended_completed (s : State) (p : Nat) (e : Ended) (rest : List Ended) :
    ((s.completed p e rest).part p).ended = rest := by
  rw [State.completed, (beside_completes ..).ended, State.part_setPart_same]

theorem descVa_completed (s : State) (p : Nat) (e : Ended) (rest : List Ended) (q : Nat) :
    (s.completed p e rest).descVa p q = s.descVa p q := by
  rw [State.completed, (beside_completes ..).descVa]
  unfold State.descVa
  rw [State.part_setPart_same]

/-- The entry of a record (R20). -/
def Ended.entry (e : Ended) : Word × Word := (e.origin.token, entryWord e.origin.ring e.status)

/-- What `recordComplete` leaves, `u` being the package with the entry posted. -/
def State.nodesDone (u : State) (p : Nat) (e : Ended) : State :=
  (e.origin.nodes.foldl (fun s n => s.nodeDone p n) u).settle p

theorem launched_nodesDone (u : State) (p : Nat) (e : Ended) : Launched p u (u.nodesDone p e) :=
  (launched_foldl p (fun s n => s.nodeDone p n) (fun s n => launched_nodeDone s p n) _ u).trans (launched_settle ..)

theorem exec_recordComplete {s : State} {p : Nat} {e : Ended} {rest : List Ended} (h : (s.part p).ended = e :: rest) :
    exec (.recordComplete p) s
      = .next (((s.completed p e rest).post p e.origin.queue e.entry.1 e.entry.2).nodesDone p e) := by
  change execRecordComplete p s = _
  unfold execRecordComplete
  rw [h]
  rfl

theorem exec_recordComplete_none {s : State} {p : Nat} (h : (s.part p).ended = []) : exec (.recordComplete p) s = .next s := by
  change execRecordComplete p s = _
  unfold execRecordComplete
  rw [h]

/-- A queue to which no entry can be written holds the next one behind the others. -/
theorem held_post_stuck {s : State} {p q : Nat} (h : (s.queue p q).stuck) (d0 d1 : Word) :
    ((s.post p q d0 d1).queue p q).held = (s.queue p q).held ++ [(d0, d1)] := by
  have stuck : ((s.setQueue p q { s.queue p q with held := (s.queue p q).held ++ [(d0, d1)] }).queue p q).stuck := by
    rw [queue_setQueue_same]; exact h
  unfold State.post
  dsimp only
  rw [flush_stuck stuck, queue_setQueue_same]

theorem launched_recordComplete (s : State) (p : Nat) (e : Ended) (rest : List Ended) : Launched p (s.completed p e rest)
    (((s.completed p e rest).post p e.origin.queue e.entry.1 e.entry.2).nodesDone p e) :=
  (launched_post ..).trans (launched_nodesDone ..)

/-- No record of the strand is left in the queues of its records. -/
theorem live_recordComplete (s : State) (p : Nat) (e : Ended) (rest : List Ended) {y : Nat}
    (hy : y ∈ e.origin.queue :: e.origin.parkedOf.map (·.1)) {l : Nat × Nat}
    (hl : l ∈ ((((s.completed p e rest).post p e.origin.queue e.entry.1 e.entry.2).nodesDone p e).queue p y).live) :
    l.2 ≠ e.uid := by
  rw [((launched_recordComplete s p e rest).queue y).live, queue_completed, if_pos hy] at hl
  simpa using (List.mem_filter.1 hl).2

theorem held_recordComplete {s : State} {p : Nat} {e : Ended} (h : (s.queue p e.origin.queue).stuck) (rest : List Ended) :
    ∃ more, ((((s.completed p e rest).post p e.origin.queue e.entry.1 e.entry.2).nodesDone p e).queue p e.origin.queue).held
      = (s.queue p e.origin.queue).held ++ [e.entry] ++ more := by
  have queue := queue_completed s p e rest e.origin.queue
  rw [if_pos List.mem_cons_self] at queue
  have stuck : ((s.completed p e rest).queue p e.origin.queue).stuck := by rw [queue]; exact h
  have held := held_post_stuck stuck e.entry.1 e.entry.2
  have posted := ((launched_post (s.completed p e rest) p e.origin.queue e.entry.1 e.entry.2).queue e.origin.queue).stays stuck
  obtain ⟨-, more, later⟩ := ((launched_nodesDone ((s.completed p e rest).post p e.origin.queue e.entry.1 e.entry.2) p
    e).queue e.origin.queue).stuck posted
  refine ⟨more, ?_⟩
  rw [later, held, queue]

/-! ### Copy nodes (R26, R28) -/

theorem copies_flush (p q n : Nat) (s : State) : (State.flush p q n s).copies = s.copies := by
  induction n generalizing s with
  | zero => rfl
  | succ n ih =>
      by_cases stuck : (s.queue p q).stuck
      · rw [flush_stuck stuck]
      · cases held : (s.queue p q).held with
        | nil => rw [flush_none held]
        | cons e l =>
            cases written : s.writeEntry p q e with
            | error st =>
                rw [flush_fails held stuck written]
                have same := bare_copies (launchFault_bare s p true q st)
                exact same
            | ok t =>
                obtain ⟨u, bare, rfl⟩ := writeEntry_ok written
                have woken := congrArg State.copies (wakePart_woken
                  (u.setQueue p q { s.queue p q with cpltail := idxAdd (s.queue p q).cpltail 1 }) p).rest
                rw [flush_writes held stuck written, ih]
                have same := bare_copies bare
                exact Eq.trans woken same

theorem copies_post (s : State) (p q : Nat) (d0 d1 : Word) : (s.post p q d0 d1).copies = s.copies := copies_flush ..

theorem exec_copyNodeComplete {s : State} {p n : Nat} {c : Copy} (h : s.nodeCopy p n = some c) (todo : c.todo = [])
    (failed : c.failed = []) : exec (.copyNodeComplete p n) s
      = .next (({ s with copies := s.copies.filter fun k => k.id != c.id }.nodeDone p n).settle p) := by
  change execCopyNodeComplete p n s = _
  unfold execCopyNodeComplete
  rw [h]
  dsimp only
  rw [todo, failed]
  rfl

theorem exec_copyNodeComplete_waits {s : State} {p n : Nat} {c : Copy} (h : s.nodeCopy p n = some c)
    (waits : c.todo ≠ [] ∨ c.failed ≠ []) : exec (.copyNodeComplete p n) s = .next s := by
  change execCopyNodeComplete p n s = _
  unfold execCopyNodeComplete
  rw [h]
  exact if_pos (by simpa using waits)

/-- A copy node whose copy is done is gone, whatever copies start with it. -/
theorem copyNode_gone {s t : State} {p i : Nat} (h : Launched p { s with copies := s.copies.filter fun k => k.id != i } t)
    (low : i < s.nextId) : t.copy? i = none := by
  refine List.find?_eq_none.2 fun k hk e => ?_
  rw [beq_iff_eq] at e
  rcases h.copies k hk with old | new
  · simpa [e] using (List.mem_filter.1 old).2
  · exact absurd low (by rw [← e]; exact Nat.not_lt.2 new)

theorem exec_graphCopyFault {s : State} {p n bit e va y : Nat} {cause : Cause} {c : Copy} (h : s.nodeCopy p n = some c)
    (fault : c.fault = some (bit, e, cause, va)) (owner : c.owner = .node p n y) : exec (.graphCopyFault p n) s
      = if !c.todo.isEmpty || c.failed.isEmpty || (s.part p).faultedNodes.contains n then .next s
        else .next ((s.setPart p { s.part p with faultedNodes := n :: (s.part p).faultedNodes }).post p y (BitVec.ofNat 64 va)
          (BitVec.ofNat 64 (n * 2 ^ 48 + 0xFFFF * 2 ^ 16 + 0x38 * 2 ^ 8 + cause.code.toNat))) := by
  change execGraphCopyFault p n s = _
  unfold execGraphCopyFault
  rw [h]
  dsimp only
  rw [fault]
  dsimp only
  unfold Copy.nodeQueue
  rw [owner]

/-! ### O49 -/

theorem recordComplete_written {s t : State} {p : Nat} {e : Ended} {rest : List Ended} {σ : Nat → State} {g : Nat → Page}
    {h : Page} (run : t = ((s.completed p e rest).post p e.origin.queue e.entry.1 e.entry.2).nodesDone p e)
    (on : ((s.completed p e rest).queue p e.origin.queue).enabled = true)
    (none : ((s.completed p e rest).queue p e.origin.queue).held = [])
    (room : ((s.completed p e rest).queue p e.origin.queue).room)
    (stores : ((s.completed p e rest).setQueue p e.origin.queue
        { (s.completed p e rest).queue p e.origin.queue with held := [e.entry] }).Stores (launchAccess p)
      (((s.completed p e rest).queue p e.origin.queue).cplbase.toNat
        + 16 * (((s.completed p e rest).queue p e.origin.queue).cpltail
          % ((s.completed p e rest).queue p e.origin.queue).cplsize))
      (dwordBytes [e.entry.1, e.entry.2]) (pieces 16) σ g)
    (checked : (σ 2).check (launchAccess p) (s.descVa p e.origin.queue + 24 : Nat) 2 false true = .ok h) :
    ∃ u : State, t = u.nodesDone p e
      ∧ u.queue p e.origin.queue = { (s.completed p e rest).queue p e.origin.queue with
          cpltail := (((s.completed p e rest).queue p e.origin.queue).cpltail + 1) % 65536, held := [] }
      ∧ ∀ key l, u.plainByte key l = ((σ 2).store (launchAccess p) h
          (leBytes 2 ((((s.completed p e rest).queue p e.origin.queue).cpltail + 1) % 65536))).plainByte key l := by
  have desc := descVa_completed s p e rest e.origin.queue
  generalize s.completed p e rest = v at *
  have goes : ¬ QState.stuck { v.queue p e.origin.queue with held := [e.entry] } :=
    fun stuck => stuck.elim (fun off => by rw [on] at off; cases off) fun full => full room
  obtain ⟨u, flushed, queue, bytes⟩ := flush_one
    (s := v.setQueue p e.origin.queue { v.queue p e.origin.queue with held := [e.entry] }) (e := e.entry) (σ := σ) (g := g)
    (h := h) (by rw [queue_setQueue_same]) (by rw [queue_setQueue_same]; exact goes)
    (by rw [queue_setQueue_same]; exact stores) (by
      have base : (v.setQueue p e.origin.queue { v.queue p e.origin.queue with held := [e.entry] }).descVa p e.origin.queue
          = v.descVa p e.origin.queue := (beside_setQueue ..).descVa _
      rw [base, desc]; exact checked) 0
  rw [queue_setQueue_same] at queue bytes
  refine ⟨u, ?_, queue, bytes⟩
  rw [run, ← flushed]
  unfold State.post
  dsimp only
  rw [none]
  rfl

/-- Settles O49: what the launch unit does after the entry keeps its queues but for entries that it adds (`Kept`). -/
theorem completionEntries : Obligations.CompletionEntries := by
  intro s p q n
  refine ⟨exec_recordComplete_none, fun e rest h => ?_, ?_, ?_, fun c node => ⟨?_, ?_, ?_⟩⟩
  · refine ⟨_, exec_recordComplete h, ?_, fun y hy l => live_recordComplete s p e rest hy,
      fun stuck => held_recordComplete stuck rest, ?_⟩
    · exact (launched_recordComplete s p e rest).ended.trans (ended_completed ..)
    · intro o s1 y w σ g h' on none room stores checked
      exact recordComplete_written rfl on none room stores checked
  · rintro (none | stuck)
    · exact congrArg Host.Outcome.next (flush_none none _)
    · exact congrArg Host.Outcome.next (flush_stuck stuck _)
  · intro e σ g h held on room stores checked
    have goes : ¬ (s.queue p q).stuck := fun stuck => stuck.elim (fun off => by rw [on] at off; cases off) fun full => full room
    obtain ⟨t, flushed, queue, bytes⟩ := flush_one held goes stores checked 0
    refine ⟨t, ?_, queue, bytes⟩
    rw [← flushed]
    exact congrArg (fun l : List (Word × Word) => Host.Outcome.next (State.flush p q l.length s)) held
  · exact exec_copyNodeComplete_waits node
  · intro todo failed low
    exact ⟨_, exec_copyNodeComplete node todo failed,
      copyNode_gone ((launched_nodeDone ..).trans (launched_settle ..)) low⟩
  · intro bit e cause va y fault owner
    rw [exec_graphCopyFault node fault owner]
    refine ⟨fun waits => if_pos ?_, fun todo failed first => ?_⟩
    · simpa [or_assoc] using waits
    · rw [if_neg (by simp [todo, failed, first])]
      refine ⟨_, rfl, ?_, copies_post .., fun stuck => ?_⟩
      · rw [(launched_post ..).faultedNodes, State.part_setPart_same]
        exact List.mem_cons_self
      · have same : (s.setPart p { s.part p with faultedNodes := n :: (s.part p).faultedNodes }).queue p y = s.queue p y := by
          unfold State.queue; rw [State.part_setPart_same]
        rw [held_post_stuck (by rw [same]; exact stuck), same]

end Sys2Proof.Machine
end

section
/-! PROOFS. Writes of the registers of a complex, a partition and the package (R30, R61, R62, R91, R116, R253, R256, R272,
R302): the fence before them, what a write leaves when it only stores, and the registers of a complex. -/

namespace Sys2Proof.Machine

/-! ### The fence before a shared write (R62) -/

/-- The fence changes the records of the ordering model alone. -/
theorem fenceSc_rest (s : State) : { s.fenceSc with order := s.order } = s := by
  have acquired := acquire_rest s s.me.uid s.myLoc .pkg (Sparse.get [] s.me.uid s.order.seen)
  unfold State.fenceSc State.acquireFence State.myAcquire
  generalize s.acquire s.me.uid s.myLoc .pkg (Sparse.get [] s.me.uid s.order.seen) = u at acquired
  exact acquired

@[simp] theorem fenceSc_strands (s : State) : s.fenceSc.strands = s.strands := by
  have e := congrArg State.strands (fenceSc_rest s); exact e
@[simp] theorem fenceSc_cur (s : State) : s.fenceSc.cur = s.cur := by
  have e := congrArg State.cur (fenceSc_rest s); exact e
@[simp] theorem fenceSc_parts (s : State) : s.fenceSc.parts = s.parts := by
  have e := congrArg State.parts (fenceSc_rest s); exact e
@[simp] theorem fenceSc_cxs (s : State) : s.fenceSc.cxs = s.cxs := by
  have e := congrArg State.cxs (fenceSc_rest s); exact e
@[simp] theorem fenceSc_mem (s : State) : s.fenceSc.mem = s.mem := by
  have e := congrArg State.mem (fenceSc_rest s); exact e
@[simp] theorem fenceSc_copies (s : State) : s.fenceSc.copies = s.copies := by
  have e := congrArg State.copies (fenceSc_rest s); exact e
@[simp] theorem fenceSc_psel (s : State) : s.fenceSc.psel = s.psel := by
  have e := congrArg State.psel (fenceSc_rest s); exact e

@[simp] theorem fenceSc_part (s : State) (p : Nat) : s.fenceSc.part p = s.part p := by
  unfold State.part; rw [fenceSc_parts]
@[simp] theorem fenceSc_cx (s : State) (x : Nat) : s.fenceSc.cx x = s.cx x := by
  unfold State.cx; rw [fenceSc_cxs]
@[simp] theorem fenceSc_strand (s : State) (k : Nat) : s.fenceSc.strand k = s.strand k := by
  unfold State.strand; rw [fenceSc_strands]
@[simp] theorem fenceSc_me (s : State) : s.fenceSc.me = s.me := by
  unfold State.me; rw [fenceSc_strand, fenceSc_cur]

/-! ### The write (R61, R62, R91) -/

theorem sysWrite_done {s u : State} {n : Nat} {v : Word} (known : (s.sysValue n).isSome = true)
    (may : mayWrite s.me.mode n = true) (h : s.putSys n v = .done u) :
    s.sysWrite n v = .next (u.setMe (u.me.go (s.me.pc + 4))) := by
  unfold State.sysWrite
  rw [if_neg (by rw [Option.isNone_iff_eq_none]; exact Option.isSome_iff_ne_none.1 known), if_neg (by rw [may]; decide), h]

theorem sysWrite_wait {s : State} {n : Nat} {v : Word} {w : Wait} (known : (s.sysValue n).isSome = true)
    (may : mayWrite s.me.mode n = true) (h : s.putSys n v = .wait w) : s.sysWrite n v = .next (s.waits w) := by
  unfold State.sysWrite
  rw [if_neg (by rw [Option.isNone_iff_eq_none]; exact Option.isSome_iff_ne_none.1 known), if_neg (by rw [may]; decide), h]

/-- A write of a register of the executing strand's complex. -/
theorem putSys_cx {s : State} {n : Nat} {v : Word} {o : SysOut} (strand : s.me.putSys v n = none)
    (cx : s.fenceSc.putCxSys s.sysCx v n = some o) : s.putSys n v = o := by
  unfold State.putSys
  rw [strand]
  dsimp only
  rw [cx]

/-- A write of a register of its partition that only stores. -/
theorem putSys_part {s : State} {n : Nat} {v : Word} {y : Partition} (strand : s.me.putSys v n = none)
    (cx : s.fenceSc.putCxSys s.sysCx v n = none) (part : (s.part s.sysPart).putSys v n = some y) (other : n ≠ 0x403) :
    s.putSys n v = .done (s.fenceSc.setPart s.sysPart y) := by
  unfold State.putSys
  rw [strand]
  dsimp only
  rw [cx, fenceSc_part, part]
  dsimp only
  rw [if_neg other]

theorem may_of_ne_user {m : Mode} {n : Nat} (h : m ≠ .user) (r : readOnly n = false) (w : monitorWrites n = false) :
    mayWrite m n = true := by
  unfold mayWrite
  cases m with
  | monitor => rw [r]; rfl
  | supervisor => rw [r, w]; rfl
  | user => exact (h rfl).elim

theorem may_of_monitor {m : Mode} {n : Nat} (h : m = .monitor) (r : readOnly n = false) : mayWrite m n = true := by
  subst h
  unfold mayWrite
  rw [r]
  rfl

/-- A write that leaves the strands, the turn and memory completes, with the PC past it. -/
theorem finishes_of_done {i : Instr} {s u : State} {P : State → Prop}
    (run : exec i s = .next (u.setMe (u.me.go (s.me.pc + 4)))) (strands : u.strands = s.strands) (cur : u.cur = s.cur)
    (mem : u.mem = s.mem) (holds : P (u.setMe (u.me.go (s.me.pc + 4)))) : Finishes i s P := by
  have me : u.me = s.me := by unfold State.me State.strand; rw [strands, cur]
  refine ⟨_, run, ?_, fun k h => ?_, fun l => ?_, holds⟩
  · unfold Passed
    rw [State.me_setMe, me]
    rfl
  · rw [State.strand_setMe_ne u (by rw [cur]; exact h)]
    unfold State.strand
    rw [strands]
  · exact congrArg (Sparse.get unwritten l) mem

/-- A write that changes partition `s.sysPart` alone. -/
theorem putsPart_of_write {i : Instr} {s : State} {n : Nat} {v : Word} {y : Partition} (run : exec i s = s.sysWrite n v)
    (known : (s.sysValue n).isSome = true) (may : mayWrite s.me.mode n = true)
    (h : s.putSys n v = .done (s.fenceSc.setPart s.sysPart y)) : PutsPart i s s.sysPart y := by
  refine finishes_of_done (run.trans (sysWrite_done known may h)) (fenceSc_strands s) (fenceSc_cur s) (fenceSc_mem s)
    ⟨State.part_setPart_same .., fun q other => ?_, ?_⟩
  · exact (State.part_setPart s.fenceSc s.sysPart q y).trans ((if_neg other).trans (fenceSc_part s q))
  · have e := congrArg (fun u : State => { u with strands := s.strands, parts := s.parts }) (fenceSc_rest s)
    exact e

/-- A write of a register of a partition that only stores, in a mode that may write it. -/
theorem putsPart_of_stores {i : Instr} {s : State} {n : Nat} {v : Word} {y : Partition} (run : exec i s = s.sysWrite n v)
    (known : (s.sysValue n).isSome = true) (may : mayWrite s.me.mode n = true) (strand : s.me.putSys v n = none)
    (cx : s.fenceSc.putCxSys s.sysCx v n = none) (part : (s.part s.sysPart).putSys v n = some y) (other : n ≠ 0x403) :
    PutsPart i s s.sysPart y := putsPart_of_write run known may (putSys_part strand cx part other)

/-- From `s` to `u` complex `x` alone has changed, beside the records of the ordering model. -/
structure CxOnly (s u : State) (x : Nat) : Prop where
  others : ∀ q, q ≠ x → u.cx q = s.cx q
  rest   : { u with cxs := s.cxs, order := s.order } = s

theorem cxOnly_fenceSc (s : State) (x : Nat) : CxOnly s s.fenceSc x := by
  refine ⟨fun q _ => fenceSc_cx s q, ?_⟩
  have e := congrArg (fun u : State => { u with cxs := s.cxs }) (fenceSc_rest s)
  exact e

theorem CxOnly.setCx {s u : State} {x : Nat} (h : CxOnly s u x) (c : Machine.Complex) : CxOnly s (u.setCx x c) x := by
  refine ⟨fun q other => ?_, h.rest⟩
  rw [State.cx_setCx, if_neg other]
  exact h.others q other

theorem putsCx_of_write {i : Instr} {s u : State} {n x : Nat} {v : Word} {P : Machine.Complex → Prop}
    (run : exec i s = s.sysWrite n v) (known : (s.sysValue n).isSome = true) (may : mayWrite s.me.mode n = true)
    (h : s.putSys n v = .done u) (only : CxOnly s u x) (holds : P (u.cx x)) : PutsCx i s x P := by
  have strands := congrArg State.strands only.rest
  have cur := congrArg State.cur only.rest
  have mem := congrArg State.mem only.rest
  refine finishes_of_done (run.trans (sysWrite_done known may h)) strands cur mem ⟨holds, only.others, ?_⟩
  have e := congrArg (fun v : State => { v with strands := s.strands }) only.rest
  exact e

/-! ### One write by several rows (R91) -/

theorem exec_partitionCreate {s : State} {d : SReg} (h : (s.reg d).getLsbD 63 = true) :
    exec (.sysw d 0x50C) s = exec (.partitionCreate d) s := by
  have same : s.reg d ||| 0x8000000000000000 = s.reg d := by
    refine BitVec.eq_of_getLsbD_eq fun j hj => ?_
    rw [BitVec.getLsbD_or]
    by_cases e : j = 63
    · subst e; rw [h]; rfl
    · have none : (0x8000000000000000 : Word).getLsbD j = false := by
        revert e; revert j; decide
      rw [none, Bool.or_false]
  change s.sysWrite 0x50C (s.reg d) = s.sysWrite 0x50C (s.reg d ||| 0x8000000000000000)
  rw [same]

/-! ### Registers that only store -/

theorem puts_supervisor (s : State) (d : SReg) (h : s.me.mode ≠ .user) :
    PutsPart (.sysw d 0x203) s s.sysPart { s.part s.sysPart with evec := s.reg d &&& ~~~3 }
    ∧ PutsPart (.sysw d 0x400) s s.sysPart { s.part s.sysPart with qbase := s.reg d }
    ∧ PutsPart (.sysw d 0x401) s s.sysPart { s.part s.sysPart with gbase := s.reg d }
    ∧ PutsPart (.sysw d 0x402) s s.sysPart { s.part s.sysPart with grpsel := (s.reg d).setWidth 8 }
    ∧ PutsPart (.sysw d 0x408) s s.sysPart { s.part s.sysPart with tagsel := (s.reg d).setWidth 16 }
    ∧ PutsPart (.sysw d 0x40B) s s.sysPart { s.part s.sysPart with gcount := (s.reg d).setWidth 16 }
    ∧ PutsCx (.sysw d 0x303) s s.sysCx (· = { s.cx s.sysCx with osel := (s.reg d).setWidth 6 })
    ∧ PutsPart (.ptrootWrite d) s s.sysPart { s.part s.sysPart with ptroot := s.reg d &&& 0xFFFFFFFFC000 } := by
  refine ⟨?_, ?_, ?_, ?_, ?_, ?_, ?_, ?_⟩
  · exact putsPart_of_stores (n := 0x203) rfl rfl (may_of_ne_user h rfl rfl) rfl rfl rfl (by decide)
  · exact putsPart_of_stores (n := 0x400) rfl rfl (may_of_ne_user h rfl rfl) rfl rfl rfl (by decide)
  · exact putsPart_of_stores (n := 0x401) rfl rfl (may_of_ne_user h rfl rfl) rfl rfl rfl (by decide)
  · exact putsPart_of_stores (n := 0x402) rfl rfl (may_of_ne_user h rfl rfl) rfl rfl rfl (by decide)
  · exact putsPart_of_stores (n := 0x408) rfl rfl (may_of_ne_user h rfl rfl) rfl rfl rfl (by decide)
  · exact putsPart_of_stores (n := 0x40B) rfl rfl (may_of_ne_user h rfl rfl) rfl rfl rfl (by decide)
  · exact putsCx_of_write (n := 0x303) rfl rfl (may_of_ne_user h rfl rfl) (putSys_cx rfl rfl)
      ((cxOnly_fenceSc s _).setCx _) (by rw [State.cx_setCx_same, fenceSc_cx])
  · exact putsPart_of_stores (n := 0x405) rfl rfl (may_of_ne_user h rfl rfl) rfl rfl rfl (by decide)

theorem puts_monitor (s : State) (d : SReg) (h : s.me.mode = .monitor) :
    PutsPart (.sysw d 0x500) s s.sysPart { s.part s.sysPart with partid := (s.reg d).setWidth 4 }
    ∧ PutsPart (.sysw d 0x501) s s.sysPart { s.part s.sysPart with cplxlo := s.reg d }
    ∧ PutsPart (.sysw d 0x502) s s.sysPart { s.part s.sysPart with cplxhi := s.reg d }
    ∧ PutsPart (.sysw d 0x50B) s s.sysPart { s.part s.sysPart with keyrange := s.reg d &&& 0x3FFF3FFF }
    ∧ PutsPart (.tagcapWrite d) s s.sysPart { s.part s.sysPart with tagcap := (s.reg d).setWidth 16 }
    ∧ PutsPart (.cellStoreWrite false d) s s.sysPart
        (if (s.part s.sysPart).tagged then s.part s.sysPart else { s.part s.sysPart with cellbase := s.reg d })
    ∧ PutsPart (.cellStoreWrite true d) s s.sysPart
        (if (s.part s.sysPart).tagged then s.part s.sysPart else { s.part s.sysPart with cellsize := s.reg d }) := by
  refine ⟨?_, ?_, ?_, ?_, ?_, ?_, ?_⟩
  · exact putsPart_of_stores (n := 0x500) rfl rfl (may_of_monitor h rfl) rfl rfl rfl (by decide)
  · exact putsPart_of_stores (n := 0x501) rfl rfl (may_of_monitor h rfl) rfl rfl rfl (by decide)
  · exact putsPart_of_stores (n := 0x502) rfl rfl (may_of_monitor h rfl) rfl rfl rfl (by decide)
  · exact putsPart_of_stores (n := 0x50B) rfl rfl (may_of_monitor h rfl) rfl rfl rfl (by decide)
  · exact putsPart_of_stores (n := 0x404) rfl rfl (may_of_monitor h rfl) rfl rfl rfl (by decide)
  · exact putsPart_of_stores (n := 0x406) rfl rfl (may_of_monitor h rfl) rfl rfl rfl (by decide)
  · exact putsPart_of_stores (n := 0x407) rfl rfl (may_of_monitor h rfl) rfl rfl rfl (by decide)

/-- A write of a bound of the partition's memory. -/
theorem puts_pbound (s : State) (d : SReg) (h : s.me.mode = .monitor) {k : Nat} (hk : k < 8) :
    PutsPart (.sysw d (0x503 + BitVec.ofNat 12 k)) s s.sysPart
      { s.part s.sysPart with pbound := Sparse.put 0 k (s.reg d) (s.part s.sysPart).pbound } := by
  interval_cases k
  · exact putsPart_of_stores (n := 0x503) rfl rfl (may_of_monitor h rfl) rfl rfl rfl (by decide)
  · exact putsPart_of_stores (n := 0x504) rfl rfl (may_of_monitor h rfl) rfl rfl rfl (by decide)
  · exact putsPart_of_stores (n := 0x505) rfl rfl (may_of_monitor h rfl) rfl rfl rfl (by decide)
  · exact putsPart_of_stores (n := 0x506) rfl rfl (may_of_monitor h rfl) rfl rfl rfl (by decide)
  · exact putsPart_of_stores (n := 0x507) rfl rfl (may_of_monitor h rfl) rfl rfl rfl (by decide)
  · exact putsPart_of_stores (n := 0x508) rfl rfl (may_of_monitor h rfl) rfl rfl rfl (by decide)
  · exact putsPart_of_stores (n := 0x509) rfl rfl (may_of_monitor h rfl) rfl rfl rfl (by decide)
  · exact putsPart_of_stores (n := 0x50A) rfl rfl (may_of_monitor h rfl) rfl rfl rfl (by decide)

/-! ### Registers of a complex -/

theorem freeUnits_fenceSc (s : State) (x d : Nat) : s.fenceSc.freeUnits x d = s.freeUnits x d := by
  unfold State.freeUnits
  simp only [fenceSc_cx, fenceSc_strand]

theorem puts_lanesplit (s : State) (d : SReg) (h : s.me.mode ≠ .user) :
    let w := (s.reg d).toNat
    let c := s.cx s.sysCx
    PutsCx (.lanesplitWrite d) s s.sysCx (fun c' =>
      if 8 < bitsOf w 11 8 + bitsOf w 15 12 then c' = c
      else
        let n := bitsOf w 3 0
        let m := c.split.toNat
        let free := bitOf w 16 = true ∧ n ≤ 8 ∧ (if n ≤ m then m - n ≤ s.freeUnits s.sysCx 0 else n - m ≤ s.freeUnits s.sysCx 1)
        c' = { c with
          lock := bitOf w 16, reserve0 := BitVec.ofNat 4 (bitsOf w 11 8), reserve1 := BitVec.ofNat 4 (bitsOf w 15 12)
          split := if free then BitVec.ofNat 4 n else c.split }) := by
  intro w c
  refine putsCx_of_write (n := 0x300) (u := s.fenceSc.putLanesplit s.sysCx (s.reg d)) rfl rfl (may_of_ne_user h rfl rfl)
    (putSys_cx rfl rfl) ?_ ?_
  · unfold State.putLanesplit
    dsimp only
    split
    · exact cxOnly_fenceSc ..
    · exact (cxOnly_fenceSc ..).setCx _
  · unfold State.putLanesplit
    dsimp only
    rw [fenceSc_cx, freeUnits_fenceSc, freeUnits_fenceSc]
    split
    · exact fenceSc_cx ..
    · rw [State.cx_setCx_same]
      have taken (n m a b : Nat) : (bitOf w 16 && decide (n ≤ 8) && (if n ≤ m then decide (m - n ≤ a) else decide (n - m ≤ b))) = true
          ↔ bitOf w 16 = true ∧ n ≤ 8 ∧ (if n ≤ m then m - n ≤ a else n - m ≤ b) := by
        split <;> simp [and_assoc]
      have split_eq (n m a b : Nat) (y z : BitVec 4) :
          (if (bitOf w 16 && decide (n ≤ 8) && (if n ≤ m then decide (m - n ≤ a) else decide (n - m ≤ b))) = true then y else z)
          = if bitOf w 16 = true ∧ n ≤ 8 ∧ (if n ≤ m then m - n ≤ a else n - m ≤ b) then y else z :=
        if_congr (taken n m a b) rfl rfl
      rw [split_eq]

theorem bitOf_toNat (v : Word) (i : Nat) : bitOf v.toNat i = v.getLsbD i := by
  unfold bitOf
  rw [BitVec.getLsbD, Nat.testBit_eq_decide_div_mod_eq]
  rfl

/-- What a write of a pool's descriptor asks for (R116): its enable bit, buffer size, base, and number of buffers. -/
structure PoolWord where
  on   : Bool
  bs   : Nat
  base : BitVec 32
  n    : Nat

/-- The fields of `v` for pool `p`: a near pool has no base. -/
def poolWord (p : Pool) (far : Bool) (v : Word) : PoolWord :=
  { on := v.getLsbD 63, bs := if far then bitsOf v.toNat 62 60 else bitsOf v.toNat 58 56
    base := if far then BitVec.ofNat 32 (bitsOf v.toNat 55 24) else p.base, n := bitsOf v.toNat 23 0 }

/-- It asks for more than a pool may hold. -/
def PoolWord.tooBig (f : PoolWord) (far : Bool) : Prop :=
  f.bs = 7 ∨ (if far then 2 ^ 30 else 2 ^ 22) < f.n * (64 * 2 ^ f.bs) ∨ (far = true ∧ 8388608 < f.n)

/-- It gives the pool another place or size. -/
def PoolWord.moves (f : PoolWord) (p : Pool) : Prop := f.bs ≠ p.bsize.toNat ∨ f.base ≠ p.base ∨ f.n ≠ p.count.toNat

/-- Some buffer of the pool is in use. -/
def Pool.inUse (p : Pool) : Prop := p.enable = true ∧ p.free.length ≠ p.count.toNat

/-- The pool with those fields. -/
def PoolWord.put (f : PoolWord) (p : Pool) : Pool :=
  { p with enable := f.on, bsize := BitVec.ofNat 3 f.bs, base := f.base, count := BitVec.ofNat 24 f.n }

theorem tooBig_iff (c : Machine.Complex) (far : Bool) (v : Word) :
    ((poolWord (c.pool far) far v).bs = 7 ∨ (poolLimit far).1 < (poolWord (c.pool far) far v).n
        * (64 * 2 ^ (poolWord (c.pool far) far v).bs) ∨ (poolLimit far).2 < (poolWord (c.pool far) far v).n)
      ↔ (poolWord (c.pool far) far v).tooBig far := by
  have low : (poolWord (c.pool far) far v).n < 2 ^ 24 := Nat.mod_lt _ (by omega)
  unfold PoolWord.tooBig poolLimit
  cases far with
  | true => simp
  | false =>
      have none : ¬ 16777216 < (poolWord (c.pool false) false v).n := by omega
      simp [none]

theorem moves_iff (f : PoolWord) (p : Pool) :
    (f.bs != p.bsize.toNat || f.base != p.base || f.n != p.count.toNat) = true ↔ f.moves p := by
  unfold PoolWord.moves
  simp [or_assoc]

theorem held_iff (f : PoolWord) (p : Pool) :
    (((f.bs != p.bsize.toNat || f.base != p.base || f.n != p.count.toNat) || (p.enable && !f.on)) && p.enable
        && p.free.length != p.count.toNat) = true ↔ p.inUse ∧ (f.moves p ∨ f.on = false) := by
  rw [Bool.and_eq_true, Bool.and_eq_true, Bool.or_eq_true, moves_iff]
  unfold Pool.inUse
  cases p.enable <;> simp [and_comm]

/-- A write that asks for too much, or that moves or closes a pool in use, is ignored. -/
theorem putPool_ignored (c : Machine.Complex) (far : Bool) (v : Word)
    (h : (poolWord (c.pool far) far v).tooBig far
      ∨ ((c.pool far).inUse ∧ ((poolWord (c.pool far) far v).moves (c.pool far) ∨ (poolWord (c.pool far) far v).on = false))) :
    c.putPool far v = c := by
  unfold Complex.putPool
  dsimp only
  rw [bitOf_toNat]
  by_cases big : (poolWord (c.pool far) far v).tooBig far
  · exact if_pos ((tooBig_iff c far v).2 big)
  · exact (if_neg (mt (tooBig_iff c far v).1 big)).trans
      (if_pos ((held_iff (poolWord (c.pool far) far v) (c.pool far)).2 (h.resolve_left big)))

/-- Any other is carried out. -/
theorem putPool_taken (c : Machine.Complex) (far : Bool) (v : Word) (small : ¬ (poolWord (c.pool far) far v).tooBig far)
    (free : ¬ ((c.pool far).inUse ∧ ((poolWord (c.pool far) far v).moves (c.pool far)
      ∨ (poolWord (c.pool far) far v).on = false))) :
    c.putPool far v = if ((poolWord (c.pool far) far v).on && (!(c.pool far).enable
        || ((poolWord (c.pool far) far v).bs != (c.pool far).bsize.toNat || (poolWord (c.pool far) far v).base != (c.pool far).base
          || (poolWord (c.pool far) far v).n != (c.pool far).count.toNat))) = true
      then (c.setPool far ((poolWord (c.pool far) far v).put (c.pool far))).rebuilt far
      else c.setPool far ((poolWord (c.pool far) far v).put (c.pool far)) := by
  unfold Complex.putPool
  dsimp only
  rw [bitOf_toNat]
  exact (if_neg (mt (tooBig_iff c far v).1 small)).trans
    (if_neg (mt (held_iff (poolWord (c.pool far) far v) (c.pool far)).1 free))

theorem putPool_stands (c : Machine.Complex) (far : Bool) (v : Word) (small : ¬ (poolWord (c.pool far) far v).tooBig far)
    (free : ¬ ((c.pool far).inUse ∧ ((poolWord (c.pool far) far v).moves (c.pool far)
      ∨ (poolWord (c.pool far) far v).on = false)))
    (h : (poolWord (c.pool far) far v).on = false
      ∨ ((c.pool far).enable = true ∧ ¬ (poolWord (c.pool far) far v).moves (c.pool far))) :
    c.putPool far v = c.setPool far ((poolWord (c.pool far) far v).put (c.pool far)) := by
  rw [putPool_taken c far v small free, if_neg]
  rw [Bool.and_eq_true, Bool.or_eq_true, moves_iff]
  rintro ⟨on, off | moves⟩
  · rcases h with h | h
    · rw [on] at h; cases h
    · rw [h.1] at off; cases off
  · exact h.elim (fun h => by rw [on] at h; cases h) fun h => h.2 moves

theorem putPool_rebuilt (c : Machine.Complex) (far : Bool) (v : Word) (small : ¬ (poolWord (c.pool far) far v).tooBig far)
    (free : ¬ ((c.pool far).inUse ∧ ((poolWord (c.pool far) far v).moves (c.pool far)
      ∨ (poolWord (c.pool far) far v).on = false))) (on : (poolWord (c.pool far) far v).on = true)
    (h : (c.pool far).enable = false ∨ (poolWord (c.pool far) far v).moves (c.pool far)) :
    c.putPool far v = { c.setPool far { (poolWord (c.pool far) far v).put (c.pool far) with
        free := List.range (poolWord (c.pool far) far v).n, refs := [] } with
      reclaim := c.reclaim.filter fun id => idFar id != far } := by
  have low : (poolWord (c.pool far) far v).n < 2 ^ 24 := Nat.mod_lt _ (by omega)
  have count : (BitVec.ofNat 24 (poolWord (c.pool far) far v).n).toNat = (poolWord (c.pool far) far v).n :=
    Nat.mod_eq_of_lt low
  rw [putPool_taken c far v small free, if_pos]
  · unfold Complex.rebuilt Pool.rebuilt
    cases far with
    | true =>
        change ({ c with far := { (poolWord (c.pool true) true v).put (c.pool true) with
          free := List.range (BitVec.ofNat 24 (poolWord (c.pool true) true v).n).toNat, refs := [] }
                         reclaim := c.reclaim.filter fun id => idFar id != true } : Machine.Complex) = _
        rw [count]
        rfl
    | false =>
        change ({ c with near := { (poolWord (c.pool false) false v).put (c.pool false) with
          free := List.range (BitVec.ofNat 24 (poolWord (c.pool false) false v).n).toNat, refs := [] }
                         reclaim := c.reclaim.filter fun id => idFar id != false } : Machine.Complex) = _
        rw [count]
        rfl
  · rw [Bool.and_eq_true, Bool.or_eq_true, moves_iff]
    exact ⟨on, h.imp (fun off => by rw [off]; rfl) id⟩

theorem puts_pool {s : State} {far : Bool} {d : SReg} {P : Machine.Complex → Prop} (h : s.me.mode ≠ .user)
    (holds : P ((s.cx s.sysCx).putPool far (s.reg d))) : PutsCx (.poolDescriptorWrite far d) s s.sysCx P := by
  cases far with
  | true =>
      exact putsCx_of_write (n := 0x302) rfl rfl (may_of_ne_user h rfl rfl) (putSys_cx rfl rfl)
        ((cxOnly_fenceSc ..).setCx _) (by rw [State.cx_setCx_same, fenceSc_cx]; exact holds)
  | false =>
      exact putsCx_of_write (n := 0x301) rfl rfl (may_of_ne_user h rfl rfl) (putSys_cx rfl rfl)
        ((cxOnly_fenceSc ..).setCx _) (by rw [State.cx_setCx_same, fenceSc_cx]; exact holds)

/-- R116: a pool's descriptor written. -/
theorem puts_poolDescriptor (s : State) (d : SReg) (far : Bool) (h : s.me.mode ≠ .user) :
    let c := s.cx s.sysCx
    let p := c.pool far
    let f := poolWord p far (s.reg d)
    let off := (s.reg d).getLsbD 63 = false
    (f.tooBig far → PutsCx (.poolDescriptorWrite far d) s s.sysCx (· = c))
    ∧ (p.inUse → f.moves p ∨ off → PutsCx (.poolDescriptorWrite far d) s s.sysCx (· = c))
    ∧ (¬ f.tooBig far → ¬ (p.inUse ∧ (f.moves p ∨ off)) → off ∨ (p.enable = true ∧ ¬ f.moves p) →
      PutsCx (.poolDescriptorWrite far d) s s.sysCx (· = c.setPool far (f.put p)))
    ∧ (¬ f.tooBig far → ¬ (p.inUse ∧ (f.moves p ∨ off)) → ¬ off → p.enable = false ∨ f.moves p →
      PutsCx (.poolDescriptorWrite far d) s s.sysCx (· = { c.setPool far { f.put p with free := List.range f.n, refs := [] } with
        reclaim := c.reclaim.filter fun id => idFar id != far })) := by
  intro c p f off
  refine ⟨fun big => ?_, fun used why => ?_, fun small free why => ?_, fun small free up why => ?_⟩
  · exact puts_pool h (putPool_ignored c far _ (.inl big))
  · exact puts_pool h (putPool_ignored c far _ (.inr ⟨used, why⟩))
  · exact puts_pool h (putPool_stands c far _ small free why)
  · exact puts_pool h (putPool_rebuilt c far _ small free (Bool.not_eq_false _ ▸ up) why)

/-! ### Pools made anew (R302) -/

theorem poolsUsed_fenceSc (s : State) (x : Nat) : s.fenceSc.poolsUsed x = s.poolsUsed x := by
  unfold State.poolsUsed State.onCx State.residents
  rw [fenceSc_strands, fenceSc_parts, fenceSc_copies]

/-- The pools that `v` names, made anew. -/
def Complex.remade (c : Machine.Complex) (v : Word) : Machine.Complex :=
  { c with
    near := if v.getLsbD 0 then { c.near with free := List.range c.near.count.toNat, refs := [] } else c.near
    far := if v.getLsbD 1 then { c.far with free := List.range c.far.count.toNat, refs := [] } else c.far }

theorem rebuilt_of_reclaimed {c : Machine.Complex} (h : c.reclaim = []) (far : Bool) :
    c.rebuilt far = c.setPool far (c.pool far).rebuilt := by
  cases far with
  | true => unfold Complex.rebuilt; rw [h]; cases c; cases h; rfl
  | false => unfold Complex.rebuilt; rw [h]; cases c; cases h; rfl

theorem puts_poolReset (s : State) (d : SReg) (h : s.me.mode = .monitor) :
    let c := s.cx s.sysCx
    (s.poolsUsed s.sysCx = true → PutsCx (.poolReset d) s s.sysCx (· = c))
    ∧ (s.poolsUsed s.sysCx = false → c.reclaim ≠ [] → Becomes (.poolReset d) s { s.me with wait := .poolReset })
    ∧ (s.poolsUsed s.sysCx = false → c.reclaim = [] → PutsCx (.poolReset d) s s.sysCx (· = c.remade (s.reg d))) := by
  intro c
  have known : (s.sysValue 0x305).isSome = true := rfl
  have may : mayWrite s.me.mode 0x305 = true := may_of_monitor h rfl
  refine ⟨fun used => ?_, fun unused reclaims => ?_, fun unused reclaimed => ?_⟩
  · refine putsCx_of_write (n := 0x305) (u := s.fenceSc) rfl known may (putSys_cx rfl (congrArg some ?_)) (cxOnly_fenceSc ..)
      (fenceSc_cx ..)
    unfold State.resetPools
    rw [poolsUsed_fenceSc, if_pos used]
  · have run : s.sysWrite 0x305 (s.reg d) = .next (s.waits .poolReset) := by
      refine sysWrite_wait known may (putSys_cx rfl (congrArg some ?_))
      unfold State.resetPools
      rw [poolsUsed_fenceSc, if_neg (by rw [unused]; decide), fenceSc_cx, if_pos (by simpa using reclaims)]
    exact ⟨_, run, State.me_setMe .., setMe_onlyMe ..⟩
  · have near (b : Bool) : CxOnly s (if b then s.fenceSc.setCx s.sysCx ((s.fenceSc.cx s.sysCx).rebuilt false) else s.fenceSc) s.sysCx
        ∧ (if b then s.fenceSc.setCx s.sysCx ((s.fenceSc.cx s.sysCx).rebuilt false) else s.fenceSc).cx s.sysCx
          = { c with near := if b then { c.near with free := List.range c.near.count.toNat, refs := [] } else c.near } := by
      cases b with
      | false => exact ⟨cxOnly_fenceSc .., fenceSc_cx ..⟩
      | true =>
          refine ⟨(cxOnly_fenceSc ..).setCx _, (State.cx_setCx_same ..).trans ?_⟩
          rw [fenceSc_cx, rebuilt_of_reclaimed reclaimed]
          rfl
    have far {u : State} {c' : Machine.Complex} (only : CxOnly s u s.sysCx) (cx : u.cx s.sysCx = c') (none : c'.reclaim = [])
        (b : Bool) : CxOnly s (if b then u.setCx s.sysCx ((u.cx s.sysCx).rebuilt true) else u) s.sysCx
        ∧ (if b then u.setCx s.sysCx ((u.cx s.sysCx).rebuilt true) else u).cx s.sysCx
          = { c' with far := if b then { c'.far with free := List.range c'.far.count.toNat, refs := [] } else c'.far } := by
      cases b with
      | false => exact ⟨only, cx⟩
      | true =>
          refine ⟨only.setCx _, (State.cx_setCx_same ..).trans ?_⟩
          rw [cx, rebuilt_of_reclaimed none]
          rfl
    obtain ⟨only, cx⟩ := near ((s.reg d).getLsbD 0)
    obtain ⟨only', cx'⟩ := far only cx reclaimed ((s.reg d).getLsbD 1)
    refine putsCx_of_write (n := 0x305) rfl known may (putSys_cx rfl (congrArg some ?_)) only' cx'
    unfold State.resetPools
    rw [poolsUsed_fenceSc, if_neg (by rw [unused]; decide), if_neg (by rw [fenceSc_cx, reclaimed]; decide)]

end Sys2Proof.Machine
end

section
/-! PROOFS. Writes of shared registers that have a rule of their own: groups, pre-emption requests, copy nodes, partitions,
the power of quadrants, a strand booted (R28, R34, R35, R276, R278, R284, R295); at the end they are put together to settle
O13. -/

namespace Sys2Proof.Machine

/-! ### A write of a group's entry (R34, R35) -/

theorem Beside.group {p : Nat} {s t : State} (h : Beside p s t) (g : Nat) : (t.part p).group g = (s.part p).group g := by
  have e := congrArg Partition.groups h.part
  exact congrArg (Sparse.get Group.clear g) e

/-- From `s` to `t` strands have left `wfi` and none has changed otherwise; the same one executes. -/
structure WakesOnly (s t : State) : Prop where
  cur    : t.cur = s.cur
  strand : ∀ k, t.strand k = s.strand k
    ∨ ((s.strand k).wait = .wfi ∧ t.strand k = (s.strand k).go ((s.strand k).pc + 4))

theorem wakesOnly_of_eq {s t : State} (strands : t.strands = s.strands) (cur : t.cur = s.cur) : WakesOnly s t :=
  ⟨cur, fun k => .inl (by unfold State.strand; rw [strands])⟩

theorem Woken.only {s t : State} (w : Woken s t) : WakesOnly s t := ⟨w.cur, w.strand⟩

theorem Beside.only {p : Nat} {s t : State} (h : Beside p s t) : WakesOnly s t := ⟨h.cur, h.strand⟩

theorem WakesOnly.of_eq {s t u : State} (h : WakesOnly t u) (strands : t.strands = s.strands) (cur : t.cur = s.cur) :
    WakesOnly s u := by
  have same (k : Nat) : t.strand k = s.strand k := by unfold State.strand; rw [strands]
  refine ⟨h.cur.trans cur, fun k => ?_⟩
  rw [← same]
  exact h.strand k

/-- After the write itself the PC is past it. -/
theorem WakesOnly.passed_write {s u : State} (h : WakesOnly s u) : Passed s (u.setMe (u.me.go (s.me.pc + 4))) := by
  unfold Passed
  rw [State.me_setMe]
  unfold State.me
  rw [h.cur]
  rcases h.strand s.cur with e | ⟨-, e⟩
  · rw [e]; rfl
  · rw [e]; rfl

theorem WakesOnly.others_write {s u : State} (h : WakesOnly s u) (m : Strand) {k : Nat} (other : k ≠ s.cur)
    (wait : (s.strand k).wait ≠ .wfi) : (u.setMe m).strand k = s.strand k := by
  rw [State.strand_setMe_ne u (by rw [h.cur]; exact other)]
  exact (h.strand k).resolve_right fun e => wait e.1

/-- What is ready depends on the partition alone, and not on what was ready before. -/
theorem readyNow_congr {s t : State} {p : Nat} {ready : List Ready} {reqs : List TagReq}
    (h : t.part p = { s.part p with ready := ready, tagReqs := reqs }) : t.readyNow p = s.readyNow p := by
  have queue (q : Nat) : t.queue p q = s.queue p q := by unfold State.queue; rw [h]
  have heads : t.heads p = s.heads p := by unfold State.heads; simp only [queue]; rw [h]
  have groups (j : Job) : t.coGroups p j = s.coGroups p j := by unfold State.coGroups; rw [h]; rfl
  have found (g : Nat) : t.found p g = s.found p g := by unfold State.found; simp only [queue, heads]; rw [h]
  have gathered (g : Nat) : t.gathered p g = s.gathered p g := by unfold State.gathered; simp only [found]; rw [h]; rfl
  have jobs (r : Ready) : t.jobs p r = s.jobs p r := by
    unfold State.jobs
    cases r with
    | queue q => dsimp only; simp only [heads, groups]
    | node n => dsimp only; simp only [groups]; rw [h]
    | group g => dsimp only; simp only [gathered]; rw [h]; rfl
  unfold State.readyNow
  simp only [heads, groups, jobs]
  rw [h]

theorem putSys_grpent (s : State) (v : Word) : s.putSys 0x403 v
    = .done ((s.fenceSc.setPart s.sysPart ((s.part s.sysPart).putGrpent v)).settle s.sysPart) := by
  change SysOut.done ((s.fenceSc.setPart s.sysPart ((s.fenceSc.part s.sysPart).putGrpent v)).settle s.sysPart) = _
  rw [fenceSc_part]

theorem settle_nothing {s : State} {p : Nat} (queues : (s.part p).queues = []) (nodes : (s.part p).nodes = []) :
    (s.settle p).mem = s.mem := by
  have judged : s.judged p = s := by
    unfold State.judged
    rw [queues]
    change State.dropOrphans p s = s
    unfold State.dropOrphans
    rw [nodes]
    rfl
  obtain ⟨ready, reqs, e, -⟩ := settle_eq s p
  rw [e, judged]
  rfl

/-- What `settle` has found ready stands in the partition's list. -/
theorem ready_settle (s : State) (p : Nat) (r : Ready) (h : r ∈ (s.settle p).readyNow p) : r ∈ ((s.settle p).part p).ready := by
  obtain ⟨ready, reqs, e, all⟩ := settle_eq s p
  have part : (s.settle p).part p = { (s.judged p).part p with ready := ready, tagReqs := reqs } := by
    rw [e, State.part_setPart_same]
  rw [readyNow_congr part] at h
  rw [part]
  exact all r h

theorem putGrpent_taken {P : Partition} {g : Group} (h : P.grpsel = 255 ∨ g.resident ≠ 0 ∨ g.arrived ≠ 0)
    (hg : g = P.group P.grpsel.toNat) (v : Word) : P.putGrpent v = P := by
  unfold Partition.putGrpent
  subst hg
  refine if_pos ?_
  rw [Bool.or_eq_true, Bool.or_eq_true, bne_iff_ne, bne_iff_ne, decide_eq_true_eq, or_assoc]
  exact h.imp (fun e => by rw [e]; rfl) id

theorem putGrpent_free {P : Partition} (sel : P.grpsel ≠ 255) (resident : (P.group P.grpsel.toNat).resident = 0)
    (arrived : (P.group P.grpsel.toNat).arrived = 0) (v : Word) : P.putGrpent v = P.setGroup P.grpsel.toNat
      { P.group P.grpsel.toNat with
        valid := v.getLsbD 63, cores := v.getLsbD 62, members := BitVec.ofNat 12 (bitsOf v.toNat 43 32) } := by
  unfold Partition.putGrpent
  refine if_neg ?_
  have other : P.grpsel.toNat ≠ 255 := fun e => sel (BitVec.eq_of_toNat_eq e)
  rw [resident, arrived]
  simpa using other

/-- R34, R35: a group's entry written. -/
theorem writes_grpent (s : State) (d : SReg) (h : s.me.mode ≠ .user) : ∃ t, exec (.grpentWrite d) s = .next t ∧ Passed s t
    ∧ (∀ k, k ≠ s.cur → (s.strand k).wait ≠ .wfi → t.strand k = s.strand k)
    ∧ (∀ g, (t.part s.sysPart).group g = ((s.part s.sysPart).putGrpent (s.reg d)).group g)
    ∧ (∀ r, r ∈ t.readyNow s.sysPart → r ∈ (t.part s.sysPart).ready)
    ∧ ((s.part s.sysPart).queues = [] → (s.part s.sysPart).nodes = [] → ∀ l, t.byteAt l = s.byteAt l) := by
  have run : exec (.grpentWrite d) s = _ :=
    sysWrite_done (n := 0x403) rfl (may_of_ne_user h rfl rfl) (putSys_grpent s (s.reg d))
  have same : (s.part s.sysPart).queues = ((s.part s.sysPart).putGrpent (s.reg d)).queues
      ∧ (s.part s.sysPart).nodes = ((s.part s.sysPart).putGrpent (s.reg d)).nodes := by
    unfold Partition.putGrpent
    dsimp only
    split
    · exact ⟨rfl, rfl⟩
    · exact ⟨rfl, rfl⟩
  have wakes : WakesOnly s ((s.fenceSc.setPart s.sysPart ((s.part s.sysPart).putGrpent (s.reg d))).settle s.sysPart) :=
    (launched_settle ..).toBeside.only.of_eq (fenceSc_strands s) (fenceSc_cur s)
  have group (g : Nat) : (((s.fenceSc.setPart s.sysPart ((s.part s.sysPart).putGrpent (s.reg d))).settle s.sysPart).part
      s.sysPart).group g = ((s.part s.sysPart).putGrpent (s.reg d)).group g := by
    rw [(launched_settle ..).toBeside.group, State.part_setPart_same]
  have ready := ready_settle (s.fenceSc.setPart s.sysPart ((s.part s.sysPart).putGrpent (s.reg d))) s.sysPart
  have mem (queues : (s.part s.sysPart).queues = []) (nodes : (s.part s.sysPart).nodes = []) :
      ((s.fenceSc.setPart s.sysPart ((s.part s.sysPart).putGrpent (s.reg d))).settle s.sysPart).mem = s.mem :=
    (settle_nothing (by rw [State.part_setPart_same, ← same.1, queues]) (by rw [State.part_setPart_same, ← same.2, nodes])).trans
      (fenceSc_mem s)
  generalize (s.fenceSc.setPart s.sysPart ((s.part s.sysPart).putGrpent (s.reg d))).settle s.sysPart = u at *
  refine ⟨_, run, wakes.passed_write, fun k other wait => wakes.others_write _ other wait, group, fun r now => ?_,
    fun queues nodes l => congrArg (Sparse.get unwritten l) (mem queues nodes)⟩
  rw [readyNow_congr (s := u) (t := u.setMe _) (ready := (u.part s.sysPart).ready) (reqs := (u.part s.sysPart).tagReqs) rfl] at now
  exact ready r now

/-! ### Pre-emption requests (R295) -/

theorem putSys_preq (s : State) (v : Word) : s.putSys 0x410 v = .done (s.fenceSc.request s.sysPart v) := rfl

theorem request_busy {s : State} {p : Nat} (h : (s.part p).preqBusy = true) (v : Word) : s.request p v = s := by
  unfold State.request
  exact if_pos h

theorem toNat_setWidth11 (v : Word) : (v.setWidth 11 : BitVec 11).toNat = v.toNat % 2048 := BitVec.toNat_setWidth ..

theorem request_refused {s : State} {p : Nat} (idle : (s.part p).preqBusy = false) {v : Word}
    (h : (s.strand (v.toNat % 2048)).resident = false ∨ ((s.strand (v.toNat % 2048)).part ≠ p ∧ s.me.mode ≠ .monitor)) :
    s.request p v
      = (s.setPart p { s.part p with preqTarget := v.setWidth 11, preqBusy := false, preqResult := 4 }).wakeMonitor := by
  unfold State.request
  dsimp only
  rw [if_neg (by rw [idle]; decide), if_pos]
  rw [toNat_setWidth11, Bool.or_eq_true, Bool.not_eq_true', Bool.and_eq_true, bne_iff_ne, bne_iff_ne]
  exact h.imp id And.symm

theorem request_taken {s : State} {p : Nat} (idle : (s.part p).preqBusy = false) {v : Word}
    (resident : (s.strand (v.toNat % 2048)).resident = true)
    (ours : (s.strand (v.toNat % 2048)).part = p ∨ s.me.mode = .monitor) :
    s.request p v = (s.setPart p { s.part p with preqTarget := v.setWidth 11, preqBusy := true, preqResult := 0 }).setStrand
      (v.toNat % 2048) { s.strand (v.toNat % 2048) with preq := true } := by
  unfold State.request
  dsimp only
  rw [if_neg (by rw [idle]; decide), toNat_setWidth11, if_neg]
  rw [Bool.or_eq_true, Bool.not_eq_true', Bool.and_eq_true, bne_iff_ne, bne_iff_ne, resident]
  rintro (none | ⟨other, theirs⟩)
  · cases none
  · exact ours.elim theirs other

theorem run_preq (s : State) (d : SReg) (h : s.me.mode ≠ .user) {u : State} (e : s.fenceSc.request s.sysPart (s.reg d) = u) :
    exec (.preqWrite d) s = .next (u.setMe (u.me.go (s.me.pc + 4))) := by
  subst e
  exact sysWrite_done (n := 0x410) rfl (may_of_ne_user h rfl rfl) (putSys_preq s (s.reg d))

theorem writes_preq_busy (s : State) (d : SReg) (h : s.me.mode ≠ .user) (busy : (s.part s.sysPart).preqBusy = true) :
    PutsPart (.preqWrite d) s s.sysPart (s.part s.sysPart) := by
  refine finishes_of_done (run_preq s d h (request_busy (by rw [fenceSc_part]; exact busy) _)) (fenceSc_strands s)
    (fenceSc_cur s) (fenceSc_mem s) ⟨fenceSc_part .., fun q _ => fenceSc_part .., ?_⟩
  have e := congrArg (fun u : State => { u with strands := s.strands, parts := s.parts }) (fenceSc_rest s)
  exact e

theorem rest_setStrand {s u : State} (h : { u with strands := s.strands, parts := s.parts, order := s.order } = s) (k : Nat)
    (m m' : Strand) : { (u.setStrand k m).setMe m' with strands := s.strands, parts := s.parts, order := s.order } = s := h

theorem rest_setPart {s u : State} (h : { u with strands := s.strands, parts := s.parts, order := s.order } = s) (p : Nat)
    (x : Partition) : { u.setPart p x with strands := s.strands, parts := s.parts, order := s.order } = s := h

theorem rest_fenceSc (s : State) : { s.fenceSc with strands := s.strands, parts := s.parts, order := s.order } = s := by
  have e := congrArg (fun u : State => { u with strands := s.strands, parts := s.parts }) (fenceSc_rest s)
  exact e

/-- The strand that writes is asked itself when it names itself. -/
theorem me_asked {s u : State} (k : Nat) (me : u.me = s.me) (cur : u.cur = s.cur) (same : u.strand k = s.strand k) :
    ((u.setStrand k { u.strand k with preq := true }).setMe
      ((u.setStrand k { u.strand k with preq := true }).me.go (s.me.pc + 4))).me
      = { s.me with preq := s.me.preq || decide (s.cur = k), pc := s.me.pc + 4, wait := .none } := by
  have mine : (u.setStrand k { u.strand k with preq := true }).me
      = if s.cur = k then { u.strand k with preq := true } else s.me := by
    change (u.setStrand k { u.strand k with preq := true }).strand u.cur = _
    rw [← me, State.strand_setStrand, cur]
    unfold State.me
    rw [cur]
  rw [State.me_setMe, mine]
  by_cases h : s.cur = k
  · subst h
    rw [if_pos rfl, same, decide_eq_true rfl, Bool.or_true]
    rfl
  · rw [if_neg h, decide_eq_false h, Bool.or_false]
    rfl

theorem writes_preq_taken (s : State) (d : SReg) (h : s.me.mode ≠ .user) (idle : (s.part s.sysPart).preqBusy = false)
    (resident : (s.strand ((s.reg d).toNat % 2048)).resident = true)
    (ours : (s.strand ((s.reg d).toNat % 2048)).part = s.sysPart ∨ s.me.mode = .monitor) :
    ∃ t, exec (.preqWrite d) s = .next t
      ∧ t.part s.sysPart = { s.part s.sysPart with preqBusy := true, preqResult := 0, preqTarget := (s.reg d).setWidth 11 }
      ∧ (∀ q, q ≠ s.sysPart → t.part q = s.part q)
      ∧ (∀ k, k ≠ s.cur → t.strand k = if k = (s.reg d).toNat % 2048 then
          { s.strand ((s.reg d).toNat % 2048) with preq := true } else s.strand k)
      ∧ t.me = { s.me with preq := s.me.preq || decide (s.cur = (s.reg d).toNat % 2048), pc := s.me.pc + 4, wait := .none }
      ∧ { t with strands := s.strands, parts := s.parts, order := s.order } = s := by
  have run := run_preq s d h (request_taken (v := s.reg d) (by rw [fenceSc_part]; exact idle)
    (by rw [fenceSc_strand]; exact resident) (by rw [fenceSc_strand, fenceSc_me]; exact ours))
  have rest := rest_setPart (rest_fenceSc s) s.sysPart
    { s.fenceSc.part s.sysPart with preqTarget := (s.reg d).setWidth 11, preqBusy := true, preqResult := 0 }
  have strand (k : Nat) : (s.fenceSc.setPart s.sysPart { s.fenceSc.part s.sysPart with
      preqTarget := (s.reg d).setWidth 11, preqBusy := true, preqResult := 0 }).strand k = s.strand k := fenceSc_strand s k
  have part (q : Nat) : (s.fenceSc.setPart s.sysPart { s.fenceSc.part s.sysPart with
      preqTarget := (s.reg d).setWidth 11, preqBusy := true, preqResult := 0 }).part q
      = if q = s.sysPart then { s.part s.sysPart with preqBusy := true, preqResult := 0, preqTarget := (s.reg d).setWidth 11 }
        else s.part q := by rw [State.part_setPart, fenceSc_part, fenceSc_part]
  rw [fenceSc_strand, ← strand] at run
  generalize s.fenceSc.setPart s.sysPart _ = u at run rest strand part
  have cur := congrArg State.cur rest
  have cur : u.cur = s.cur := cur
  refine ⟨_, run, (part s.sysPart).trans (if_pos rfl), fun q other => (part q).trans (if_neg other), fun k other => ?_,
    me_asked _ (by unfold State.me; rw [cur, strand]) cur (strand _), rest_setStrand rest ..⟩
  rw [State.strand_setMe_ne _ (by change k ≠ u.cur; rw [cur]; exact other), State.strand_setStrand, strand, strand]

theorem writes_preq_refused (s : State) (d : SReg) (h : s.me.mode ≠ .user) (idle : (s.part s.sysPart).preqBusy = false)
    (why : (s.strand ((s.reg d).toNat % 2048)).resident = false
      ∨ ((s.strand ((s.reg d).toNat % 2048)).part ≠ s.sysPart ∧ s.me.mode ≠ .monitor)) :
    ∃ t, exec (.preqWrite d) s = .next t ∧ Passed s t
      ∧ t.part s.sysPart = { s.part s.sysPart with preqBusy := false, preqResult := 4, preqTarget := (s.reg d).setWidth 11 }
      ∧ (∀ q, q ≠ s.sysPart → t.part q = s.part q)
      ∧ (∀ k, k ≠ s.cur → (s.strand k).wait ≠ .wfi → t.strand k = s.strand k)
      ∧ { t with strands := s.strands, parts := s.parts, order := s.order } = s := by
  have run := run_preq s d h (request_refused (by rw [fenceSc_part]; exact idle) (v := s.reg d)
    (by rw [fenceSc_strand, fenceSc_me]; exact why))
  have woken := wakeMonitor_woken (s.fenceSc.setPart s.sysPart
    { s.fenceSc.part s.sysPart with preqTarget := (s.reg d).setWidth 11, preqBusy := false, preqResult := 4 })
  have wakes : WakesOnly s _ := woken.only.of_eq (fenceSc_strands s) (fenceSc_cur s)
  have part (q : Nat) := congrArg (Sparse.get Partition.reset q) woken.parts
  refine ⟨_, run, wakes.passed_write, ?_, fun q other => ?_, fun k other wait => wakes.others_write _ other wait, ?_⟩
  · refine (part s.sysPart).trans ((State.part_setPart_same ..).trans ?_)
    rw [fenceSc_part]
  · exact (part q).trans ((State.part_setPart s.fenceSc s.sysPart q _).trans ((if_neg other).trans (fenceSc_part s q)))
  · have first := congrArg (fun u : State => { u with strands := s.strands, parts := s.parts, order := s.order }) woken.rest
    have second := congrArg (fun u : State => { u with strands := s.strands, parts := s.parts }) (fenceSc_rest s)
    exact Eq.trans first second

/-! ### Copy nodes tried again (R28) -/

theorem retryNode_faulted {s : State} {p n : Nat} {c : Copy} (h : s.nodeCopy p n = some c)
    (faulted : (s.part p).faultedNodes.contains n = true) : s.retryNode p n
      = (s.setPart p { s.part p with faultedNodes := (s.part p).faultedNodes.filter (· != n) }).setCopy
        { c with todo := c.failed, failed := [], fault := none, clk := s.clkOf (launchAgent p) } := by
  unfold State.retryNode
  rw [if_neg (by rw [faulted]; decide), h]
  rfl

theorem writes_gnode (s : State) (d : SReg) (h : s.me.mode ≠ .user) {k : Copy}
    (node : s.nodeCopy s.sysPart ((s.reg d).toNat % 65536) = some k)
    (faulted : (s.part s.sysPart).faultedNodes.contains ((s.reg d).toNat % 65536) = true) :
    Finishes (.gnodeWrite d) s fun t =>
      (t.part s.sysPart).faultedNodes.contains ((s.reg d).toNat % 65536) = false
      ∧ ∃ k' ∈ t.copies, k'.id = k.id ∧ k'.todo = k.failed ∧ k'.failed = [] ∧ k'.fault = none := by
  have node' : s.fenceSc.nodeCopy s.sysPart ((s.reg d).toNat % 65536) = some k := by
    unfold State.nodeCopy at node ⊢
    rw [fenceSc_copies]
    exact node
  have put : s.putSys 0x411 (s.reg d) = .done (s.fenceSc.retryNode s.sysPart ((s.reg d).setWidth 16).toNat) := rfl
  rw [BitVec.toNat_setWidth, retryNode_faulted node' (by rw [fenceSc_part]; exact faulted)] at put
  refine finishes_of_done (sysWrite_done (n := 0x411) rfl (may_of_ne_user h rfl rfl) put) (fenceSc_strands s) (fenceSc_cur s)
    (fenceSc_mem s) ⟨?_, { k with todo := k.failed, failed := [], fault := none, clk := s.fenceSc.clkOf (launchAgent s.sysPart) }, ?_,
      rfl, rfl, rfl, rfl⟩
  · change ((s.fenceSc.setPart s.sysPart _).part s.sysPart).faultedNodes.contains _ = false
    rw [State.part_setPart_same]
    simp
  · refine List.mem_map.2 ⟨k, List.mem_of_find?_eq_some node', ?_⟩
    exact if_pos (beq_self_eq_true k.id)

/-! ### Partitions chosen and emptied (R276) -/

theorem keep_toNat (v : Word) : bitsOf v.toNat 3 0 = v.toNat % 16 := by
  unfold bitsOf; omega

theorem putSys_psel (s : State) (v : Word) : s.putSys 0x50C v = s.fenceSc.putPsel v := rfl

theorem ofPart_fenceSc (s : State) (p : Nat) : s.fenceSc.ofPart p = s.ofPart p := by
  unfold State.ofPart State.residents
  simp only [fenceSc_strands, fenceSc_strand]

theorem writes_psel (s : State) (d : SReg) (h : s.me.mode = .monitor) (create : (s.reg d).getLsbD 63 = false) :
    Finishes (.pselWrite d) s fun t =>
      { t with strands := s.strands, order := s.order } = { s with psel := s.reg d &&& 0x7F000F } := by
  have put : s.putSys 0x50C (s.reg d) = .done { s.fenceSc with psel := s.reg d &&& 0x7F000F } := by
    rw [putSys_psel]
    unfold State.putPsel
    dsimp only
    exact if_pos (by rw [create]; rfl)
  refine finishes_of_done (sysWrite_done (n := 0x50C) rfl (may_of_monitor h rfl) put) (fenceSc_strands s) (fenceSc_cur s)
    (fenceSc_mem s) ?_
  have e := congrArg (fun u : State => { u with strands := s.strands, psel := s.reg d &&& 0x7F000F }) (fenceSc_rest s)
  exact e

/-- A copy of a strand of the partition is in flight. -/
def State.copying (s : State) (p : Nat) : Prop := ∃ k ∈ s.copies, k.part = p ∧ k.todo ≠ [] ∧ ∃ u, k.owner = .strand u

theorem copying_iff (s : State) (p : Nat) : (s.copies.any fun c => c.part == p && !c.todo.isEmpty
      && (match c.owner with | .strand _ => true | _ => false)) = true ↔ s.copying p := by
  unfold State.copying
  rw [List.any_eq_true]
  refine exists_congr fun k => and_congr_right fun _ => ?_
  cases k.owner <;> simp

/-- What creating partition `p` does when `psel` becomes `keep` (R276). -/
theorem putPsel_create {s : State} {v : Word} (h : v.getLsbD 63 = true) : s.putPsel v
    = if !(s.ofPart (v.toNat % 16)).isEmpty then .done s
      else if s.copies.any fun c => c.part == v.toNat % 16 && !c.todo.isEmpty
        && (match c.owner with | .strand _ => true | _ => false) then .wait .create
      else .done { s.emptyPart (v.toNat % 16) with psel := v &&& 0x7F000F } := by
  unfold State.putPsel
  dsimp only
  rw [if_neg (by rw [h]; decide), keep_toNat] <;> rfl

theorem created_bit (v : Word) : (v ||| 0x8000000000000000).getLsbD 63 = true := by
  rw [BitVec.getLsbD_or]
  exact Bool.or_true _

theorem created_part (v : Word) : (v ||| 0x8000000000000000).toNat % 16 = v.toNat % 16 := by
  rw [BitVec.toNat_or]
  have e := @Nat.or_mod_two_pow v.toNat (0x8000000000000000 : Word).toNat 4
  exact e.trans (Nat.or_zero _)

theorem created_keep (v : Word) : (v ||| 0x8000000000000000) &&& 0x7F000F = v &&& 0x7F000F := by
  rw [BitVec.and_or_distrib_right]
  exact BitVec.or_zero

/-- An emptied partition has no copies of graph nodes. -/
theorem mem_copies_emptyPart {s : State} {p : Nat} (h : (s.part p).parked = []) (k : Copy) :
    k ∈ (s.emptyPart p).copies ↔ k ∈ s.copies ∧ ∀ a b, k.owner ≠ .node p a b := by
  unfold State.emptyPart
  rw [h]
  refine List.mem_filter.trans (and_congr_right fun _ => ?_)
  cases k.owner <;> simp

theorem part_emptyPart {s : State} {p : Nat} (h : (s.part p).parked = []) (q : Nat) :
    (s.emptyPart p).part q = if q = p then Partition.reset else s.part q := by
  unfold State.emptyPart
  rw [h]
  have e := State.part_setPart s p q Partition.reset
  exact e

theorem rest_emptyPart {s : State} {p : Nat} (h : (s.part p).parked = []) :
    { s.emptyPart p with parts := s.parts, copies := s.copies } = s := by
  unfold State.emptyPart
  rw [h]
  rfl

/-- R276: a partition created. -/
theorem writes_create (s : State) (d : SReg) (h : s.me.mode = .monitor) :
    let p := (s.reg d).toNat % 16
    let keep := s.reg d &&& 0x7F000F
    (s.ofPart p ≠ [] →
      Finishes (.partitionCreate d) s fun t => { t with strands := s.strands, order := s.order } = s)
    ∧ (s.ofPart p = [] → s.copying p → Becomes (.partitionCreate d) s { s.me with wait := .create })
    ∧ (s.ofPart p = [] → ¬ s.copying p →
      (∃ t, exec (.partitionCreate d) s = .next t ∧ t.me.pc = s.me.pc + 4 ∧ t.part p = Partition.reset ∧ t.psel = keep)
      ∧ ((s.part p).parked = [] → Finishes (.partitionCreate d) s fun t =>
        t.part p = Partition.reset ∧ (∀ q, q ≠ p → t.part q = s.part q)
        ∧ (∀ k, k ∈ t.copies ↔ k ∈ s.copies ∧ ∀ a b, k.owner ≠ .node p a b)
        ∧ { t with strands := s.strands, parts := s.parts, copies := s.copies, order := s.order } =
            { s with psel := keep })) := by
  intro p keep
  have known : (s.sysValue 0x50C).isSome = true := rfl
  have may : mayWrite s.me.mode 0x50C = true := may_of_monitor h rfl
  have put : s.putSys 0x50C (s.reg d ||| 0x8000000000000000) = s.fenceSc.putPsel (s.reg d ||| 0x8000000000000000) := rfl
  rw [putPsel_create (created_bit _), created_part, created_keep, ofPart_fenceSc] at put
  refine ⟨fun owned => ?_, fun free copies => ?_, fun free quiet => ?_⟩
  · rw [if_pos (by simpa using owned)] at put
    refine finishes_of_done (sysWrite_done known may put) (fenceSc_strands s) (fenceSc_cur s) (fenceSc_mem s) ?_
    have e := congrArg (fun u : State => { u with strands := s.strands }) (fenceSc_rest s)
    exact e
  · have copying : s.fenceSc.copying p := by unfold State.copying; rw [fenceSc_copies]; exact copies
    rw [if_neg (by rw [free]; decide), if_pos ((copying_iff ..).2 copying)] at put
    exact ⟨_, sysWrite_wait known may put, State.me_setMe .., setMe_onlyMe ..⟩
  · have still : ¬ s.fenceSc.copying p := by unfold State.copying; rw [fenceSc_copies]; exact quiet
    rw [if_neg (by rw [free]; decide), if_neg (mt (copying_iff ..).1 still)] at put
    have run := sysWrite_done known may put
    refine ⟨⟨_, run, ?_, ?_, rfl⟩, fun none => ?_⟩
    · rw [State.me_setMe]; rfl
    · exact State.part_setPart_same (s.fenceSc.part p |>.parked.foldl State.discard s.fenceSc) p Partition.reset
    · have none' : (s.fenceSc.part p).parked = [] := by rw [fenceSc_part]; exact none
      have copies := mem_copies_emptyPart none'
      have part := part_emptyPart none'
      have rest := rest_emptyPart none'
      change s.putSys 0x50C _ = .done { s.fenceSc.emptyPart p with psel := keep } at put
      have strands := congrArg State.strands rest
      have cur := congrArg State.cur rest
      have mem := congrArg State.mem rest
      refine finishes_of_done (sysWrite_done known may put) (Eq.trans strands (fenceSc_strands s))
        (Eq.trans cur (fenceSc_cur s)) (Eq.trans mem (fenceSc_mem s)) ⟨?_, fun q other => ?_, fun k => ?_, ?_⟩
      · exact (part p).trans (if_pos rfl)
      · exact (part q).trans ((if_neg other).trans (fenceSc_part s q))
      · have e := copies k
        rw [fenceSc_copies] at e
        exact e
      · have first := congrArg (fun u : State => { u with
          strands := s.strands, parts := s.parts, copies := s.copies, order := s.order, psel := keep }) rest
        have second := congrArg (fun u : State => { u with
          strands := s.strands, parts := s.parts, copies := s.copies, psel := keep }) (fenceSc_rest s)
        exact Eq.trans first second

/-! ### The power of quadrants (R284) -/

/-- What one bit of `qpwr` makes of quadrant `q`: powered, gated, or left. -/
def State.powers (s : State) (v : Word) (q : Nat) : State :=
  if v.getLsbD q then { s with qpwrOn := s.qpwrOn ||| ((1 : BitVec 4) <<< q) } else if s.mayGate q then s.gate q else s

theorem putQpwr_eq (s : State) (v : Word) : s.putQpwr v = ((s.powers v 1).powers v 2).powers v 3 := rfl

theorem parts_powers (s : State) (v : Word) (q : Nat) : (s.powers v q).parts = s.parts := by
  unfold State.powers
  split
  · rfl
  · split <;> rfl

theorem strands_powers (s : State) (v : Word) (q : Nat) : (s.powers v q).strands = s.strands := by
  unfold State.powers
  split
  · rfl
  · split <;> rfl

theorem cur_powers (s : State) (v : Word) (q : Nat) : (s.powers v q).cur = s.cur := by
  unfold State.powers
  split
  · rfl
  · split <;> rfl

theorem mayGate_congr {s t : State} (h : t.parts = s.parts) (q : Nat) : t.mayGate q = s.mayGate q := by
  unfold State.mayGate; rw [h]

theorem getLsbD_and_not_one_shiftLeft (x : BitVec 4) {q : Nat} (hq : q < 4) {r : Nat} (hr : r < 4) :
    (x &&& ~~~((1 : BitVec 4) <<< q)).getLsbD r = (x.getLsbD r && !(r == q)) := by
  have one := getLsbD_or_one_shiftLeft (0#4) hq r
  rw [BitVec.zero_or, BitVec.getLsbD_zero, Bool.false_or] at one
  rw [BitVec.getLsbD_and, BitVec.getLsbD_not, one, decide_eq_true hr, Bool.true_and]

theorem on_powers (s : State) (v : Word) {q r : Nat} (hq : q < 4) (hr : r < 4) : (s.powers v q).qpwrOn.getLsbD r
    = if r = q then (v.getLsbD q || (s.qpwrOn.getLsbD r && !s.mayGate q)) else s.qpwrOn.getLsbD r := by
  unfold State.powers
  cases v.getLsbD q with
  | true =>
      rw [if_pos rfl]
      refine (getLsbD_or_one_shiftLeft _ hq r).trans ?_
      by_cases h : r = q <;> simp [h]
  | false =>
      rw [if_neg (by decide)]
      cases s.mayGate q with
      | true =>
          rw [if_pos rfl]
          refine (getLsbD_and_not_one_shiftLeft _ hq hr).trans ?_
          by_cases h : r = q <;> simp [h]
      | false =>
          rw [if_neg (by decide)]
          by_cases h : r = q <;> simp [h]

theorem ready_powers (s : State) (v : Word) {q r : Nat} (hq : q < 4) (hr : r < 4) : (s.powers v q).qpwrReady.getLsbD r
    = (s.qpwrReady.getLsbD r && !(r == q && !v.getLsbD q && s.mayGate q)) := by
  unfold State.powers
  cases v.getLsbD q with
  | true => rw [if_pos rfl]; simp
  | false =>
      rw [if_neg (by decide)]
      cases s.mayGate q with
      | true => rw [if_pos rfl]; refine (getLsbD_and_not_one_shiftLeft _ hq hr).trans ?_; simp
      | false => rw [if_neg (by decide)]; simp

theorem byteAt_powers (s : State) (v : Word) (q l : Nat) (h : v.getLsbD q = false → s.mayGate q = true → l / 2 ^ 37 ≠ q) :
    (s.powers v q).byteAt l = s.byteAt l := by
  unfold State.powers
  cases on : v.getLsbD q with
  | true => rfl
  | false =>
      cases may : s.mayGate q with
      | true =>
          rw [if_neg (by decide), if_pos rfl]
          exact (byteAt_blankQuad s q l).trans (if_neg (h on may))
      | false => rfl

theorem writes_qpwr (s : State) (d : SReg) (h : s.me.mode = .monitor) :
    let v := s.reg d
    ∃ t, exec (.qpwrWrite d) s = .next t ∧ Passed s t ∧ (∀ k, k ≠ s.cur → t.strand k = s.strand k)
      ∧ (∀ q, q = 1 ∨ q = 2 ∨ q = 3 →
        (v.getLsbD q = true → t.qpwrOn.getLsbD q = true)
        ∧ (v.getLsbD q = false → s.mayGate q = true → t.qpwrOn.getLsbD q = false ∧ t.qpwrReady.getLsbD q = false)
        ∧ (v.getLsbD q = false → s.mayGate q = false → t.qpwrOn.getLsbD q = s.qpwrOn.getLsbD q))
      ∧ ∀ l, (∀ q, q = 1 ∨ q = 2 ∨ q = 3 → v.getLsbD q = false → s.mayGate q = true → l / 2 ^ 37 ≠ q) →
        t.byteAt l = s.byteAt l := by
  intro v
  have put : s.putSys 0x50E v = .done (s.fenceSc.putQpwr v) := rfl
  have parts : s.fenceSc.parts = s.parts := fenceSc_parts s
  have run := sysWrite_done (n := 0x50E) rfl (may_of_monitor h rfl) put
  rw [putQpwr_eq] at run
  have wakes : WakesOnly s (((s.fenceSc.powers v 1).powers v 2).powers v 3) := by
    refine wakesOnly_of_eq ?_ ?_
    · rw [strands_powers, strands_powers, strands_powers, fenceSc_strands]
    · rw [cur_powers, cur_powers, cur_powers, fenceSc_cur]
  have strand (k : Nat) : (((s.fenceSc.powers v 1).powers v 2).powers v 3).strand k = s.strand k := by
    unfold State.strand
    rw [strands_powers, strands_powers, strands_powers, fenceSc_strands]
  have may1 := mayGate_congr parts
  have may2 (q : Nat) := (mayGate_congr (parts_powers s.fenceSc v 1) q).trans (may1 q)
  have may3 (q : Nat) := (mayGate_congr (parts_powers (s.fenceSc.powers v 1) v 2) q).trans (may2 q)
  have on0 : s.fenceSc.qpwrOn = s.qpwrOn := by
    have e := congrArg State.qpwrOn (fenceSc_rest s); exact e
  have ready0 : s.fenceSc.qpwrReady = s.qpwrReady := by
    have e := congrArg State.qpwrReady (fenceSc_rest s); exact e
  refine ⟨_, run, wakes.passed_write, fun k other => ?_, fun q hq => ?_, fun l gated => ?_⟩
  · rw [State.strand_setMe_ne _ (by rw [wakes.cur]; exact other)]
    exact strand k
  · have low : q < 4 := by omega
    have on1 := on_powers s.fenceSc v (q := 1) (by omega) low
    have on2 := on_powers (s.fenceSc.powers v 1) v (q := 2) (by omega) low
    have on3 := on_powers ((s.fenceSc.powers v 1).powers v 2) v (q := 3) (by omega) low
    have ready1 := ready_powers s.fenceSc v (q := 1) (by omega) low
    have ready2 := ready_powers (s.fenceSc.powers v 1) v (q := 2) (by omega) low
    have ready3 := ready_powers ((s.fenceSc.powers v 1).powers v 2) v (q := 3) (by omega) low
    rw [on2, on1, may1, may2, may3, on0] at on3
    rw [ready2, ready1, may1, may2, may3, ready0] at ready3
    change (v.getLsbD q = true → (((s.fenceSc.powers v 1).powers v 2).powers v 3).qpwrOn.getLsbD q = true)
      ∧ (v.getLsbD q = false → s.mayGate q = true → (((s.fenceSc.powers v 1).powers v 2).powers v 3).qpwrOn.getLsbD q = false
        ∧ (((s.fenceSc.powers v 1).powers v 2).powers v 3).qpwrReady.getLsbD q = false)
      ∧ (v.getLsbD q = false → s.mayGate q = false →
        (((s.fenceSc.powers v 1).powers v 2).powers v 3).qpwrOn.getLsbD q = s.qpwrOn.getLsbD q)
    rw [on3, ready3]
    refine ⟨fun set => ?_, fun clear may => ?_, fun clear may => ?_⟩
    · rcases hq with rfl | rfl | rfl <;> rw [set] <;> simp
    · rcases hq with rfl | rfl | rfl <;> rw [clear, may] <;> simp
    · rcases hq with rfl | rfl | rfl <;> rw [clear, may] <;> simp
  · have same : (((s.fenceSc.powers v 1).powers v 2).powers v 3).byteAt l = s.byteAt l := by
      rw [byteAt_powers, byteAt_powers, byteAt_powers]
      · exact congrArg (Sparse.get unwritten l) (fenceSc_mem s)
      · exact fun clear may => gated 1 (by omega) clear (by rw [← may1]; exact may)
      · exact fun clear may => gated 2 (by omega) clear (by rw [← may2]; exact may)
      · exact fun clear may => gated 3 (by omega) clear (by rw [← may3]; exact may)
    exact same

/-! ### A strand booted (R278), and the monitor's vector (R284) -/

theorem freeSlot_fenceSc (s : State) (x d : Nat) : s.fenceSc.freeSlot x d = s.freeSlot x d := by
  unfold State.freeSlot
  simp only [fenceSc_strand]

theorem boot_placed {s : State} {p x sid : Nat} (other : x ≠ 0) (first : (s.part p).firstCx = some x)
    (slot : s.freeSlot x 0 = some sid) (units : s.freeUnits x 0 ≠ 0) (v : Word) : s.boot p v
      = (s.fresh.2.setStrand sid (bootStrand s.fresh.1 p .supervisor (v &&& ~~~3) (v &&& ~~~3) (s.freeUnits x 0) .boot)).follows
        s.fresh.1 s.me.uid := by
  unfold State.boot
  rw [first]
  split
  · next e => cases e
  · next e => exact (other (Option.some.inj e)).elim
  · next y _ e =>
      obtain rfl := Option.some.inj e
      rw [slot]
      exact if_neg units

theorem reg_bootStrand (uid p : Nat) (m : Mode) (pc arg : Word) (grant : Nat) (kind : OriginKind) (r : SReg) :
    (bootStrand uid p m pc arg grant kind).reg r = if r = 1 then arg else if r = 2 then 0x100 else 0 := by
  have index (k : SReg) : r.toNat = k.toNat ↔ r = k := BitVec.toNat_inj
  unfold Strand.reg bootStrand
  dsimp only
  rw [Sparse.get_put, Sparse.get_put]
  by_cases h0 : r = 0
  · subst h0; rfl
  · rw [if_neg h0]
    exact if_congr (index 1) rfl (if_congr (index 2) rfl rfl)

theorem writes_pboot (s : State) (d : SReg) (h : s.me.mode = .monitor) {x sid : Nat} (resident : s.me.resident = true)
    (other : x ≠ 0) (first : (s.part s.sysPart).firstCx = some x) (slot : s.freeSlot x 0 = some sid)
    (units : s.freeUnits x 0 ≠ 0) :
    ∃ t, exec (.pbootWrite d) s = .next t ∧ t.me.pc = s.me.pc + 4
      ∧ t.strand sid = bootStrand s.nextId s.sysPart .supervisor (s.reg d &&& ~~~3) (s.reg d &&& ~~~3) (s.freeUnits x 0) .boot := by
  have put : s.putSys 0x50F (s.reg d) = .done (s.fenceSc.boot s.fenceSc.sysPart (s.reg d)) := rfl
  have part : s.fenceSc.sysPart = s.sysPart := by unfold State.sysPart; rw [fenceSc_me, fenceSc_psel]
  rw [part, boot_placed other (by rw [fenceSc_part]; exact first) (by rw [freeSlot_fenceSc]; exact slot)
    (by rw [freeUnits_fenceSc]; exact units), freeUnits_fenceSc] at put
  have apart : sid ≠ s.cur := by
    rintro rfl
    have free := List.find?_some slot
    change (!s.me.resident) = true at free
    rw [resident] at free
    cases free
  have id : s.fenceSc.nextId = s.nextId := by
    have e := congrArg State.nextId (fenceSc_rest s); exact e
  refine ⟨_, sysWrite_done (n := 0x50F) rfl (may_of_monitor h rfl) put, ?_, ?_⟩
  · rw [State.me_setMe]; rfl
  · rw [State.strand_setMe_ne _ (by rw [follows_cur]; change sid ≠ s.fenceSc.cur; rw [fenceSc_cur]; exact apart),
      follows_strand, State.strand_setStrand_same]
    unfold State.fresh
    rw [id]

theorem writes_mvec (s : State) (d : SReg) (h : s.me.mode = .monitor) : Finishes (.sysw d 0x50D) s fun t =>
    { t with strands := s.strands, order := s.order } = { s with mvec := s.reg d &&& ~~~3 } := by
  have put : s.putSys 0x50D (s.reg d) = .done { s.fenceSc with mvec := s.reg d &&& ~~~3 } := rfl
  refine finishes_of_done (sysWrite_done (n := 0x50D) rfl (may_of_monitor h rfl) put) (fenceSc_strands s) (fenceSc_cur s)
    (fenceSc_mem s) ?_
  have e := congrArg (fun u : State => { u with strands := s.strands, mvec := s.reg d &&& ~~~3 }) (fenceSc_rest s)
  exact e

/-- Settles O13: each register's write as the lemmas above give it. -/
theorem sysSharedWrites : Obligations.SysSharedWrites := by
  intro s d far
  refine ⟨rfl, rfl, rfl, rfl, rfl, rfl, rfl, rfl, rfl, rfl, rfl, rfl, rfl, rfl, exec_partitionCreate, fun h => ?_, fun h => ?_,
    fun h => ?_, fun h => ?_, fun k h node faulted => ?_, fun h => ?_⟩
  · obtain ⟨evec, qbase, gbase, grpsel, tagsel, gcount, osel, -⟩ := puts_supervisor s d h
    exact ⟨evec, qbase, gbase, grpsel, tagsel, gcount, osel⟩
  · obtain ⟨partid, cplxlo, cplxhi, keyrange, -⟩ := puts_monitor s d h
    exact ⟨partid, cplxlo, cplxhi, fun k hk => ⟨_, puts_pbound s d h hk, fun j => Sparse.get_put ..⟩, keyrange,
      writes_mvec s d h⟩
  · obtain ⟨-, -, -, -, -, -, -, ptroot⟩ := puts_supervisor s d h
    obtain ⟨t, run, passed, others, group, ready, bytes⟩ := writes_grpent s d h
    refine ⟨puts_lanesplit s d h, puts_poolDescriptor s d far h, ptroot, fun taken => ⟨t, run, passed, ?_⟩,
      fun sel resident arrived => ⟨t, run, passed, others, ?_, ready, bytes⟩, writes_preq_busy s d h, fun idle resident ours =>
      writes_preq_taken s d h idle resident ours, fun idle why => writes_preq_refused s d h idle why⟩
    · rw [group, putGrpent_taken taken rfl]
    · rw [group, putGrpent_free sel resident arrived]
      exact Sparse.get_put_same ..
  · obtain ⟨-, -, -, -, tagcap, cellbase, cellsize⟩ := puts_monitor s d h
    obtain ⟨used, waits, made⟩ := puts_poolReset s d h
    exact ⟨tagcap, cellbase, cellsize, used, waits, made⟩
  · exact writes_gnode s d h node faulted
  · obtain ⟨owned, waits, created⟩ := writes_create s d h
    refine ⟨writes_psel s d h, owned, waits, fun free quiet => created free ?_, writes_qpwr s d h,
      fun x sid resident other first slot units => ?_⟩
    · rintro ⟨k, hk, part, todo, u, owner⟩
      exact quiet k hk part todo u owner
    · obtain ⟨t, run, pc, strand⟩ := writes_pboot s d h resident other first slot units
      refine ⟨t, run, pc, ?_⟩
      rw [strand]
      exact ⟨rfl, rfl, rfl, rfl, fun r => reg_bootStrand .., rfl, rfl, rfl, rfl, rfl⟩

end Sys2Proof.Machine
end

section
/-! PROOFS. The strand that executes: no instruction that a word encodes changes which strand that is. First the
operations on the package keep `cur`, then every scalar-class instruction does. -/

namespace Sys2Proof.Machine

/-! ### Operations that keep the executing strand -/

theorem foldl_cur {α : Type} (f : State → α → State) (hf : ∀ s a, (f s a).cur = s.cur) (l : List α) (s : State) :
    (l.foldl f s).cur = s.cur := by
  induction l generalizing s with
  | nil => rfl
  | cons a l ih => rw [List.foldl_cons, ih, hf]

@[simp] theorem trapIn_cur (s : State) (sid : Nat) (r : TrapRec) : (s.trapIn sid r).cur = s.cur := rfl
@[simp] theorem trap_cur (s : State) (c : Cause) (v : Word) : (s.trap c v).cur = s.cur := rfl
@[simp] theorem trapHere_cur (s : State) (c : Cause) : (s.trapHere c).cur = s.cur := rfl
@[simp] theorem waits_cur (s : State) (w : Wait) : (s.waits w).cur = s.cur := rfl
@[simp] theorem advance_cur (s : State) : s.advance.cur = s.cur := rfl
@[simp] theorem result_cur (s : State) (d : SReg) (v : Word) : (s.result d v).cur = s.cur := rfl
@[simp] theorem logs_cur (s : State) (e : LogEvent) : (s.logs e).cur = s.cur := by
  have k := congrArg State.cur (s.logs_rest e)
  dsimp only at k
  exact k
@[simp] theorem setClk_cur (s : State) (a : Nat) (e : Epochs) : (s.setClk a e).cur = s.cur := rfl
@[simp] theorem setTokens_cur (s : State) (k : Nat) (l : List Token) : (s.setTokens k l).cur = s.cur := rfl
@[simp] theorem release_cur (s : State) (a : Nat) (l : Token) (sc : Scope) : (s.release a l sc).2.cur = s.cur := rfl
@[simp] theorem myRelease_cur (s : State) (sc : Scope) : (s.myRelease sc).2.cur = s.cur := rfl
@[simp] theorem touch_cur (s : State) (a f : Nat) (n : Party) (g : Nat) (w : Bool) : (s.touch a f n g w).cur = s.cur := rfl
@[simp] theorem unmark_cur (s : State) (l : Nat) : (s.unmark l).cur = s.cur := rfl

@[simp] theorem acquire_cur (s : State) (a : Nat) (l : Token) (sc : Scope) (k : List Token) :
    (s.acquire a l sc k).cur = s.cur := by
  unfold State.acquire
  dsimp only
  split <;> rfl

@[simp] theorem myAcquire_cur (s : State) (sc : Scope) (k : List Token) : (s.myAcquire sc k).cur = s.cur := acquire_cur ..

@[simp] theorem sawTokens_cur (s : State) (a k : Nat) : (s.sawTokens a k).cur = s.cur := by
  unfold State.sawTokens
  dsimp only
  split <;> rfl

@[simp] theorem wroteTokens_cur (s : State) (a k : Nat) : (s.wroteTokens a k).cur = s.cur := by
  unfold State.wroteTokens
  dsimp only
  split <;> rfl

@[simp] theorem noted_cur (s : State) (n : Note) : (s.noted n).cur = s.cur := by
  unfold State.noted
  dsimp only
  rw [foldl_cur _ fun _ _ => logs_cur ..]
  repeat' split
  all_goals rfl

@[simp] theorem refuse_cur (s : State) (c : Cause) (n : Note) (v : Word) : (s.refuse c n v).cur = s.cur := noted_cur s n

@[simp] theorem used_cur (s : State) (g : Page) : (s.used g).cur = s.cur := by
  unfold State.used
  split <;> rfl

@[simp] theorem touchAll_cur (s : State) (a : Access) (g : Page) (l n : Nat) (w : Bool) :
    (s.touchAll a g l n w).cur = s.cur := by
  unfold State.touchAll
  split
  · exact foldl_cur _ (fun _ _ => touch_cur ..) _ _
  · rfl

@[simp] theorem setBytes_cur (s : State) (l : Nat) (bs : List Byte) : (s.setBytes l bs).cur = s.cur := by
  induction bs generalizing s l with
  | nil => rfl
  | cons b bs ih => exact ih ..

@[simp] theorem rekey_cur (s : State) (k l : Nat) : (s.rekey k l).cur = s.cur := by
  unfold State.rekey
  dsimp only
  repeat' split
  · rfl
  · rfl
  · dsimp only
    rw [setBytes_cur]

@[simp] theorem putPlain_cur (s : State) (k l : Nat) (bs : List Byte) : (s.putPlain k l bs).cur = s.cur := by
  unfold State.putPlain
  split
  · rfl
  · rw [setBytes_cur, rekey_cur]

@[simp] theorem materialise_cur (s : State) (a : Access) (g : Page) : (s.materialise a g).cur = s.cur := by
  unfold State.materialise
  dsimp only
  split
  · rfl
  · rw [foldl_cur _ fun _ _ => wroteTokens_cur .., foldl_cur _ fun _ _ => sawTokens_cur .., State.setPart_cur,
      unmark_cur, putPlain_cur]

@[simp] theorem load_cur (s : State) (a : Access) (g : Page) (n : Nat) : (s.load a g n).2.cur = s.cur := by
  unfold State.load
  dsimp only
  split
  · rw [touchAll_cur, used_cur]
  · rw [foldl_cur _ fun _ _ => sawTokens_cur .., touchAll_cur, used_cur]

@[simp] theorem poke_cur (s : State) (a : Access) (g : Page) (bs : List Byte) (c : Bool) : (s.poke a g bs c).cur = s.cur := by
  unfold State.poke
  dsimp only
  repeat' split
  all_goals simp

@[simp] theorem store_cur (s : State) (a : Access) (g : Page) (bs : List Byte) (c : Bool) :
    (s.store a g bs c).cur = s.cur := by
  unfold State.store
  dsimp only
  split
  · rw [touchAll_cur, poke_cur, used_cur]
  · rw [foldl_cur _ fun _ _ => wroteTokens_cur .., touchAll_cur, poke_cur, used_cur]

theorem cur_of_readPieces {s t : State} {a : Access} {va : Nat} {l : List (Nat × Nat)} {bs : List Byte}
    (h : s.readPieces a va l = .ok (bs, t)) : t.cur = s.cur := by
  induction l generalizing s bs with
  | nil =>
      injection h with e
      injection e with _ e
      rw [← e]
  | cons x l ih =>
      rw [State.readPieces] at h
      split at h
      · cases h
      · cases h
      · dsimp only at h
        split at h
        · cases h
        · next r =>
          injection h with e
          injection e with _ e
          subst e
          rw [ih r, load_cur]

theorem cur_of_readSpan {s t : State} {a : Access} {va n : Nat} {bs : List Byte}
    (h : s.readSpan a va n = .ok (bs, t)) : t.cur = s.cur := cur_of_readPieces h

@[simp] theorem writePieces_cur (s : State) (a : Access) (va : Nat) (bs : List Byte) (w : Nat) (l : List (Nat × Nat)) :
    (s.writePieces a va bs w l).2.cur = s.cur := by
  induction l generalizing s with
  | nil => rfl
  | cons x l ih =>
      rw [State.writePieces]
      split
      · rfl
      · rfl
      · rw [ih, store_cur]

@[simp] theorem writeLines_cur (s : State) (a : Access) (va : Nat) (bs : List Byte) (n : Nat) :
    (s.writeLines a va bs n).2.cur = s.cur := by
  induction n generalizing s va bs with
  | zero => rfl
  | succ n ih =>
      rw [State.writeLines]
      split
      · rfl
      · rfl
      · rw [ih, store_cur]

theorem cur_of_writeSpan {s t : State} {a : Access} {va : Nat} {bs : List Byte} {e : Option Stop}
    (h : s.writeSpan a va bs = (e, t)) : t.cur = s.cur := by
  have k := writePieces_cur s a va bs (if va % 64 = 0 then bs.length / 64 * 64 else 0) (pieces bs.length)
  unfold State.writeSpan at h
  rw [h] at k
  exact k

theorem cur_of_writeLines {s t : State} {a : Access} {va n : Nat} {bs : List Byte} {e : Option Stop}
    (h : s.writeLines a va bs n = (e, t)) : t.cur = s.cur := by
  have k := writeLines_cur s a va bs n
  rw [h] at k
  exact k

/-! ### Buffers and chains -/

theorem cur_of_allocs {x : Nat} {far : Bool} {n : Nat} {s t : State} {ids : List Nat}
    (h : s.allocs x far n = .ok (ids, t)) : t.cur = s.cur := by
  induction n generalizing s ids with
  | zero =>
      injection h with e
      injection e with _ e
      rw [← e]
  | succ n ih =>
      rw [State.allocs] at h
      split at h
      · cases h
      next i u a =>
        have one : u.cur = s.cur := by
          unfold State.alloc at a
          dsimp only at a
          split at a
          · cases a
          · split at a
            · cases a
            · injection a with e
              injection e with _ e
              rw [← e]
              rfl
        split at h
        · cases h
        next r =>
          injection h with e
          injection e with _ e
          subst e
          rw [ih r, one]

theorem cur_of_myAllocs {s t : State} {n : Nat} {ids : List Nat} (h : s.myAllocs n = .ok (ids, t)) : t.cur = s.cur := by
  unfold State.myAllocs at h
  dsimp only at h
  split at h
  · cases h
  · split at h
    next r a =>
      injection h with e
      subst e
      exact cur_of_allocs a
    · cases h

@[simp] theorem setFar_cur (s : State) (l : Nat) (bs : List Byte) : (s.setFar l bs).cur = s.cur := by
  have e := congrArg State.cur (setFar_rest s l bs)
  exact e

@[simp] theorem setBuf_cur (s : State) (x id o : Nat) (bs : List Byte) : (s.setBuf x id o bs).cur = s.cur := by
  unfold State.setBuf
  dsimp only
  repeat' split
  all_goals simp

@[simp] theorem cleanBuf_cur (s : State) (x id o n : Nat) : (s.cleanBuf x id o n).cur = s.cur := by
  unfold State.cleanBuf
  split
  · exact foldl_cur _ unmark_cur _ _
  · rfl

@[simp] theorem setFresh_cur (s : State) (x id o : Nat) (bs : List Byte) : (s.setFresh x id o bs).cur = s.cur := by
  rw [State.setFresh, cleanBuf_cur, setBuf_cur]

@[simp] theorem fill_cur (s : State) (x : Nat) (l : List Seg) (bs : List Byte) : (s.fill x l bs).cur = s.cur := by
  induction l generalizing s bs with
  | nil => rfl
  | cons g l ih => rw [State.fill, ih, setFresh_cur]

@[simp] theorem notedBuf_cur (s : State) (x id o n : Nat) : (s.notedBuf x id o n).cur = s.cur := by
  unfold State.notedBuf
  split
  · exact foldl_cur _ (fun _ _ => noted_cur ..) _ _
  · rfl

@[simp] theorem writeChain_cur (s : State) (c : CReg) (l : List Seg) : (s.writeChain c l).cur = s.cur := by
  unfold State.writeChain
  rw [dropRefs_cur, State.setMe_cur]

theorem cur_of_myDense {s t : State} {bs : List Byte} {l : List Seg} (h : s.myDense bs = .ok (l, t)) : t.cur = s.cur := by
  unfold State.myDense at h
  dsimp only at h
  split at h
  · cases h
  next a =>
    injection h with e
    injection e with _ e
    rw [← e, fill_cur, cur_of_myAllocs a]

@[simp] theorem waitBuffer_cur (s : State) (far : Bool) : (s.waitBuffer far).cur = s.cur := rfl

@[simp] theorem stop_cur (s : State) (e : Stop) : (s.stop e).cur = s.cur := by
  unfold State.stop
  split <;> simp

@[simp] theorem edit_cur (s : State) (c : CReg) (a l : List Seg) : (s.edit c a l).cur = s.cur := by
  rw [State.edit, advance_cur, writeChain_cur, addRefs_cur]

@[simp] theorem respine_cur (s : State) (c : CReg) (l : List Seg) : (s.respine c l).cur = s.cur := rfl

@[simp] theorem segsPoison_cur (s : State) (l : List Seg) : (s.segsPoison l).cur = s.cur :=
  foldl_cur _ (fun _ _ => notedBuf_cur ..) _ _

@[simp] theorem putElem_cur (s : State) (x id o : Nat) (f : Fmt) (v : Nat) : (s.putElem x id o f v).cur = s.cur := by
  unfold State.putElem
  split <;> simp

@[simp] theorem forgets_cur (s : State) : s.forgets.cur = s.cur := rfl
@[simp] theorem keeps_cur (s : State) (va : Word) (b : Block) : (s.keeps va b).cur = s.cur := rfl

/-! ### Blocks, copies and streams -/

@[simp] theorem acquireBits_cur (s : State) (k : KMask) (l : List Nat) : (s.acquireBits k l).cur = s.cur := by
  unfold State.acquireBits
  dsimp only
  split
  · rfl
  · exact foldl_cur _ (fun _ _ => myAcquire_cur ..) _ _

@[simp] theorem startCopy_cur (s : State) (va : Word) (b : Block) (l : List Seg) (todo : List Nat) (c : Bool) :
    (s.startCopy va b l todo c).cur = s.cur := rfl

theorem cur_of_readBlock {s t : State} {a : Access} {va : Word} {b : Block} (h : s.readBlock a va = .ok (b, t)) :
    t.cur = s.cur := by
  unfold State.readBlock at h
  split at h
  · cases h
  · split at h
    · cases h
    · cases h
    next r =>
      injection h with e
      injection e with _ e
      rw [← e, cur_of_readSpan r]

@[simp] theorem loadBlock_cur (s : State) (a : Access) (g : Page) (o : Nat) : (s.loadBlock a g o).2.cur = s.cur := by
  unfold State.loadBlock
  dsimp only
  rw [load_cur, load_cur, load_cur]

@[simp] theorem readSpot_cur (s : State) (a : Access) (f : Fmt) (nm : NumMode) (bit : Nat) (p : Spot) :
    (s.readSpot a f nm bit p).2.cur = s.cur := by
  unfold State.readSpot
  split <;> simp

theorem cur_of_readIndex {s t : State} {a : Access} {b : Block} {n : Nat} {i : Int}
    (h : s.readIndex a b n = .ok (i, t)) : t.cur = s.cur := by
  unfold State.readIndex at h
  split at h
  · dsimp only at h
    split at h
    · cases h
    · injection h with e
      injection e with _ e
      rw [← e, readSpot_cur]
  · injection h with e
    injection e with _ e
    rw [e]

theorem cur_of_gather {s t : State} {a : Access} {b : Block} {n : Nat} {v : Nat × Bool}
    (h : s.gather a b n = .ok (v, t)) : t.cur = s.cur := by
  unfold State.gather at h
  split at h
  · cases h
  next u r =>
    dsimp only at h
    split at h
    · injection h with e
      injection e with _ e
      rw [← e, cur_of_readIndex r]
    · split at h
      · cases h
      · injection h with e
        injection e with _ e
        rw [← e, readSpot_cur, cur_of_readIndex r]

@[simp] theorem gatherRun_cur (s : State) (a : Access) (b : Block) (l : List Nat) : (s.gatherRun a b l).2.2.cur = s.cur := by
  induction l generalizing s with
  | nil => rfl
  | cons n l ih =>
      rw [State.gatherRun]
      split
      · rfl
      · rfl
      next g => exact (ih _).trans (cur_of_gather g)

@[simp] theorem placeStrip_cur (s : State) (x : Nat) (far : Bool) (ids : List Nat) (bs : List Byte) :
    (s.placeStrip x far ids bs).2.cur = s.cur := by
  unfold State.placeStrip
  dsimp only
  rw [dropRefs_cur, fill_cur]

theorem cur_of_readObject {s t : State} {va : Nat} {l r : List Seg} {seen : List Nat} {fuel : Nat}
    (h : s.readObject va l seen fuel = .ok (r, t)) : t.cur = s.cur := by
  induction fuel generalizing s va l seen with
  | zero => cases h
  | succ fuel ih =>
      rw [State.readObject] at h
      split at h
      · cases h
      next bs u r =>
        have one := cur_of_readSpan r
        dsimp only at h
        split at h
        · injection h with e
          injection e with _ e
          rw [← e, one]
        · repeat' split at h
          · cases h
          · cases h
          · cases h
          · cases h
          · injection h with e
            injection e with _ e
            rw [← e, one]
          · rw [ih h, one]

/-! ### Lanes, slots and groups -/

@[simp] theorem occupancy_cur (s : State) : s.occupancy.cur = s.cur := by
  unfold State.occupancy
  dsimp only
  repeat' split
  all_goals rfl

@[simp] theorem claim_cur (s : State) (sid o : Nat) (g : Word) : (s.claim sid o g).cur = s.cur := by
  unfold State.claim
  dsimp only
  exact acquire_cur ..

@[simp] theorem unclaim_cur (s : State) (o : Nat) : (s.unclaim o).cur = s.cur := rfl

@[simp] theorem acquireFence_cur (s : State) (sc : Scope) : (s.acquireFence sc).cur = s.cur := myAcquire_cur ..

@[simp] theorem releaseFence_cur (s : State) (sc : Scope) : (s.releaseFence sc).cur = s.cur := rfl

@[simp] theorem arrive_cur (s : State) (i g : Nat) : (s.arrive i g).cur = s.cur := rfl

@[simp] theorem depart_cur (s : State) (sid i g : Nat) : (s.depart sid i g).cur = s.cur := by
  unfold State.depart
  dsimp only
  exact acquire_cur ..

@[simp] theorem departs_cur (s : State) (i g : Nat) : (s.departs i g).cur = s.cur := by
  unfold State.departs
  split
  · exact depart_cur ..
  · rfl

/-! ### The end of a strand -/

@[simp] theorem vacate_cur (s : State) (sid : Nat) (res : BitVec 3) : (s.vacate sid res).cur = s.cur := by
  have e := congrArg State.cur (vacate_vacated s sid res).rest
  exact e

theorem releaseSlots_cur (uid x : Nat) (l : List Nat) (s : State) : (l.foldl (State.releaseSlot uid x) s).cur = s.cur :=
  foldl_cur (State.releaseSlot uid x) (fun _ _ => rfl) l s

@[simp] theorem ends_cur (s : State) (sid : Nat) (status : BitVec 8) : (s.ends sid status).cur = s.cur := by
  have e : (s.stopped sid).cur = s.cur := by
    unfold State.stopped
    rw [vacate_cur, releaseSlots_cur, dropRefs_cur]
  rw [ends_eq]
  dsimp only
  split
  · rw [State.setPart_cur, e]
  · exact e

@[simp] theorem parks_cur (s : State) (sid : Nat) : (s.parks sid).cur = s.cur := by
  unfold State.parks
  dsimp only
  rw [State.setPart_cur, vacate_cur, dropRefs_cur]

@[simp] theorem doubleFault_cur (s : State) (sid : Nat) (c : Cause) : (s.doubleFault sid c).cur = s.cur := by
  rw [State.doubleFault, ends_cur, logs_cur]

/-! ### Writes of system registers -/

/-- A write of a system register that is done keeps the executing strand. -/
structure SysOut.Stays (s : State) (o : SysOut) : Prop where
  cur : ∀ t, o = .done t → t.cur = s.cur

theorem SysOut.stays_done {s t : State} (h : t.cur = s.cur) : SysOut.Stays s (.done t) := by
  refine ⟨fun u e => ?_⟩
  injection e with e
  rw [← e, h]

theorem SysOut.stays_trap (s : State) (c : Cause) : SysOut.Stays s (.trap c) := ⟨fun _ e => nomatch e⟩

theorem SysOut.stays_wait (s : State) (w : Wait) : SysOut.Stays s (.wait w) := ⟨fun _ e => nomatch e⟩

theorem stays_resetPools (s : State) (x : Nat) (v : Word) : (s.resetPools x v).Stays s := by
  unfold State.resetPools
  repeat' split
  · exact SysOut.stays_done rfl
  · exact SysOut.stays_wait ..
  all_goals exact SysOut.stays_done rfl

theorem putLanesplit_cur (s : State) (x : Nat) (v : Word) : (s.putLanesplit x v).cur = s.cur := by
  unfold State.putLanesplit
  dsimp only
  split <;> rfl

theorem stays_putCxSys {s : State} {x n : Nat} {v : Word} {o : SysOut} (h : s.putCxSys x v n = some o) : o.Stays s := by
  unfold State.putCxSys at h
  split at h <;> first | (injection h with h; subst h) | cases h
  · exact SysOut.stays_done (putLanesplit_cur ..)
  · exact SysOut.stays_done rfl
  · exact SysOut.stays_done rfl
  · exact SysOut.stays_done rfl
  · exact stays_resetPools ..

theorem request_cur (s : State) (p : Nat) (v : Word) : (s.request p v).cur = s.cur := by
  unfold State.request
  dsimp only
  repeat' split
  · rfl
  · exact (wakeMonitor_woken _).cur
  · rfl

theorem retryNode_cur (s : State) (p n : Nat) : (s.retryNode p n).cur = s.cur := by
  unfold State.retryNode
  repeat' split
  all_goals rfl

theorem discard_cur (s : State) (k : Parked) : (s.discard k).cur = s.cur := by
  unfold State.discard
  dsimp only
  rw [releaseSlots_cur, dropRefs_cur]

theorem emptyPart_cur (s : State) (p : Nat) : (s.emptyPart p).cur = s.cur := by
  unfold State.emptyPart
  dsimp only
  rw [State.setPart_cur, foldl_cur _ discard_cur]

theorem stays_putPsel (s : State) (v : Word) : (s.putPsel v).Stays s := by
  unfold State.putPsel
  dsimp only
  repeat' split
  · exact SysOut.stays_done rfl
  · exact SysOut.stays_done rfl
  · exact SysOut.stays_wait ..
  · exact SysOut.stays_done (emptyPart_cur ..)

theorem boot_cur (s : State) (p : Nat) (v : Word) : (s.boot p v).cur = s.cur := by
  unfold State.boot
  dsimp only
  repeat' split
  all_goals rfl

theorem putQpwr_cur (s : State) (v : Word) : (s.putQpwr v).cur = s.cur := by
  rw [putQpwr_eq, cur_powers, cur_powers, cur_powers]

theorem stays_putPkgSys {s : State} {n : Nat} {v : Word} {o : SysOut} (h : s.putPkgSys v n = some o) : o.Stays s := by
  unfold State.putPkgSys at h
  split at h <;> first | (injection h with h; subst h) | cases h
  · exact stays_putPsel ..
  · exact SysOut.stays_done rfl
  · exact SysOut.stays_done (putQpwr_cur ..)
  · exact SysOut.stays_done (boot_cur ..)

theorem SysOut.Stays.of_eq {s t : State} {o : SysOut} (h : o.Stays t) (e : t.cur = s.cur) : o.Stays s :=
  ⟨fun u k => (h.cur u k).trans e⟩

theorem stays_putSys (s : State) (n : Nat) (v : Word) : (s.putSys n v).Stays s := by
  have f := fenceSc_cur s
  unfold State.putSys
  split
  · split
    · exact SysOut.stays_trap ..
    · exact SysOut.stays_done rfl
  · dsimp only
    split
    next h => exact (stays_putCxSys h).of_eq f
    · split
      · refine SysOut.stays_done ?_
        split
        · exact (launched_settle _ _).cur.trans f
        · exact f
      · split
        · exact SysOut.stays_done ((request_cur ..).trans f)
        · split
          · exact SysOut.stays_done ((retryNode_cur ..).trans f)
          · cases h : s.fenceSc.putPkgSys v n with
            | none => exact SysOut.stays_done rfl
            | some o => exact (stays_putPkgSys h).of_eq f

/-! ### Outcomes -/

/-- What an instruction answers keeps the executing strand. -/
structure Stays (s : State) (o : Out) : Prop where
  cur : ∀ t, o = .next t → t.cur = s.cur

theorem stays_next {s t : State} (h : t.cur = s.cur) : Stays s (.next t) := by
  refine ⟨fun u e => ?_⟩
  injection e with e
  rw [← e, h]

theorem stays_sysWrite (s : State) (n : Nat) (v : Word) : Stays s (s.sysWrite n v) := by
  unfold State.sysWrite
  split
  · exact stays_next rfl
  · split
    · exact stays_next rfl
    · split
      next h => exact stays_next ((State.setMe_cur ..).trans ((stays_putSys s n v).cur _ h))
      · exact stays_next rfl
      · exact stays_next rfl

theorem stays_settled {s : State} {l : List CReg} {k : Out} (h : Stays s k) : Stays s (s.settled l k) := by
  unfold State.settled
  split
  · exact stays_next rfl
  · exact h

theorem stays_noStream {s : State} {w r : List CReg} {k : Out} (h : Stays s k) : Stays s (s.noStream w r k) := by
  unfold State.noStream
  split
  · exact stays_next rfl
  · exact stays_settled h

end Sys2Proof.Machine
end

section
/-! PROOFS. The scalar-class instructions keep the executing strand: one lemma for each shared operation, then one case for
each instruction. -/

namespace Sys2Proof.Machine

/-! ### Scalar accesses -/

theorem stays_loadScalar (s : State) (a : Access) (d : SReg) (va : Word) (n : Nat) (signed : Bool) :
    Stays s (s.loadScalar a d va n signed) := by
  unfold State.loadScalar
  split
  · exact stays_next (load_cur ..)
  · exact stays_next (refuse_cur ..)
  · exact stays_next rfl

theorem stays_storeScalar (s : State) (a : Access) (va : Word) (n : Nat) (v : Word) :
    Stays s (s.storeScalar a va n v) := by
  unfold State.storeScalar
  split
  · exact stays_next (store_cur ..)
  · exact stays_next (refuse_cur ..)
  · exact stays_next rfl

theorem atomicRead_cur (s : State) (y : Syncing) (keys : List Nat) : (s.atomicRead y keys).cur = s.cur := by
  unfold State.atomicRead
  dsimp only
  rw [foldl_cur _ fun _ _ => sawTokens_cur ..]
  split
  · exact acquire_cur ..
  · rfl

theorem atomicWrote_cur (s : State) (y : Syncing) (keys : List Nat) : (s.atomicWrote y keys).cur = s.cur := by
  unfold State.atomicWrote
  dsimp only
  repeat' split
  · rfl
  · exact foldl_cur _ (fun _ _ => setTokens_cur ..) _ _
  · rfl
  · exact foldl_cur _ (fun _ _ => setTokens_cur ..) _ _

theorem cur_of_atomic {s t : State} {a : Access} {y : Syncing} {g : Page} {z v c old : Nat} {op : AmoOp}
    (h : s.atomic a y g z op v c = .ok (old, t)) : t.cur = s.cur := by
  unfold State.atomic at h
  dsimp only at h
  split at h
  · injection h with e
    injection e with _ e
    rw [← e, atomicRead_cur, used_cur]
  · split at h
    · cases h
    · injection h with e
      injection e with _ e
      rw [← e, atomicWrote_cur, poke_cur, atomicRead_cur, used_cur]

theorem stays_amo (d a : SReg) (p : AmoOp) (o : AmoOrder) (sc : Scope) (w : Bool) (s : State) :
    Stays s (execAmo d a p o sc w s) := by
  unfold execAmo
  dsimp only
  split
  · exact stays_next (refuse_cur ..)
  · exact stays_next rfl
  · split
    · exact stays_next (refuse_cur ..)
    · exact stays_next rfl
    next h => exact stays_next ((result_cur ..).trans (cur_of_atomic h))

/-! ### Strips -/

theorem stays_strip (d a : SReg) (s : State) : Stays s (execStrip d a s) := by
  unfold execStrip
  split
  · exact stays_next rfl
  · exact stays_next (occupancy_cur s)

theorem stays_snext (d : SReg) (s : State) : Stays s (execSnext d s) := by
  unfold execSnext
  dsimp only
  repeat' split
  · exact stays_next rfl
  · exact stays_next (occupancy_cur s)
  · exact stays_next (occupancy_cur s)

/-! ### Chains -/

theorem stays_sharing (s : State) (c : CReg) (add l : List Seg) : Stays s (s.sharing c add l) := by
  unfold State.sharing
  repeat' split
  · exact stays_next rfl
  · exact stays_next rfl
  · exact stays_next (edit_cur ..)

theorem stays_cnew (d : CReg) (s : State) : Stays s (execCnew d s) := by
  unfold execCnew
  refine stays_noStream ?_
  split
  · exact stays_next (stop_cur ..)
  next h => exact stays_next (by rw [edit_cur, fill_cur, cur_of_myAllocs h])

theorem stays_newElement (s : State) (d : CReg) (bs : List Byte) (front : Bool) : Stays s (s.newElement d bs front) := by
  unfold State.newElement
  dsimp only
  split
  · exact stays_next rfl
  · split
    · exact stays_next (stop_cur ..)
    next h => exact stays_next (by rw [respine_cur, foldl_cur _ fun _ _ => setFresh_cur .., cur_of_myAllocs h])

theorem stays_inPlace {s k : State} (id o n : Nat) (h : k.cur = s.cur) : Stays s (s.inPlace id o n k) := by
  unfold State.inPlace
  split
  · exact stays_next rfl
  · exact stays_next h

theorem stays_cprepElement (d : CReg) (a : SReg) (s : State) : Stays s (execCprepElement d a s) := by
  unfold execCprepElement
  dsimp only
  refine stays_noStream ?_
  repeat' split
  · exact stays_next rfl
  · exact stays_inPlace _ _ _ (setBuf_cur ..)
  · exact stays_newElement ..
  · exact stays_newElement ..

theorem stays_cappElement (d : CReg) (a : SReg) (s : State) : Stays s (execCappElement d a s) := by
  unfold execCappElement
  dsimp only
  refine stays_noStream ?_
  repeat' split
  · exact stays_next rfl
  · exact stays_inPlace _ _ _ (setBuf_cur ..)
  · exact stays_newElement ..
  · exact stays_newElement ..

theorem stays_trimHead (s : State) (d : CReg) (x : Nat) : Stays s (s.trimHead d x) := by
  unfold State.trimHead
  refine stays_noStream ?_
  split
  · exact stays_next rfl
  · exact stays_next (edit_cur ..)

theorem stays_trimTail (s : State) (d : CReg) (x : Nat) : Stays s (s.trimTail d x) := by
  unfold State.trimTail
  refine stays_noStream ?_
  repeat' split
  · exact stays_next rfl
  · exact stays_next rfl
  · exact stays_next (edit_cur ..)

theorem stays_split (s : State) (d a : CReg) (x : Nat) : Stays s (s.split d a x) := by
  unfold State.split
  dsimp only
  split
  · exact stays_next rfl
  · refine stays_noStream ?_
    generalize (if (s.segs a).length < _ then _ else _) = cut
    split
    · exact stays_next rfl
    · split
      · exact stays_next rfl
      · exact stays_next (by rw [advance_cur, writeChain_cur, State.setMe_cur, addRefs_cur])

theorem stays_cflat (d a : CReg) (s : State) : Stays s (execCflat d a s) := by
  unfold execCflat
  dsimp only
  refine stays_noStream ?_
  split
  · exact stays_next rfl
  · split
    · exact stays_next (segsPoison_cur ..)
    · split
      · exact stays_next (stop_cur ..)
      next h => exact stays_next (by rw [edit_cur, cur_of_myDense h])

theorem stays_getElem (s : State) (d : SReg) (a : CReg) (x : Nat) : Stays s (s.getElem d a x) := by
  unfold State.getElem
  dsimp only
  refine stays_noStream ?_
  split
  · exact stays_next rfl
  · split
    · exact stays_next rfl
    · split
      · exact stays_next rfl
      · split
        · exact stays_next (segsPoison_cur ..)
        · exact stays_next rfl

theorem stays_putAt (s : State) (d : CReg) (v : Word) (x : Nat) : Stays s (s.putAt d v x) := by
  unfold State.putAt
  dsimp only
  refine stays_noStream ?_
  split
  · exact stays_next rfl
  · split
    · exact stays_next rfl
    · split
      · exact stays_next rfl
      · split
        · exact stays_next rfl
        · split
          · exact stays_inPlace _ _ _ ((respine_cur ..).trans (putElem_cur ..))
          · split
            · exact stays_next (segsPoison_cur ..)
            · split
              · exact stays_next rfl
              · split
                · exact stays_next (stop_cur ..)
                next h => exact stays_next (by rw [respine_cur, dropRefs_cur, fill_cur, cur_of_myAllocs h])

theorem stays_cspill (a : CReg) (b : SReg) (s : State) : Stays s (execCspill a b s) := by
  unfold execCspill
  dsimp only
  refine stays_noStream ?_
  split
  · exact stays_next rfl
  · split
    · exact stays_next (segsPoison_cur ..)
    · split
      next h => exact stays_next (by rw [edit_cur, cur_of_writeSpan h])
      · exact stays_next (stop_cur ..)
      next h => exact stays_next (by rw [stop_cur, cur_of_writeSpan h])

theorem stays_cfill (d : CReg) (a : SReg) (s : State) : Stays s (execCfill d a s) := by
  unfold execCfill
  dsimp only
  refine stays_noStream ?_
  split
  · exact stays_next rfl
  · split
    · exact stays_next (stop_cur ..)
    next head =>
      split
      · exact stays_next ((trap_cur ..).trans (cur_of_readSpan head))
      · split
        · exact stays_next ((trap_cur ..).trans (cur_of_readSpan head))
        · split
          · exact stays_next (stop_cur ..)
          next body =>
            split
            · exact stays_next (stop_cur ..)
            next h => exact stays_next (by rw [edit_cur, cur_of_myDense h, cur_of_readSpan body, cur_of_readSpan head])

theorem stays_chld (d : CReg) (a : SReg) (s : State) : Stays s (execChld d a s) := by
  unfold execChld
  dsimp only
  refine stays_noStream ?_
  split
  · exact stays_next rfl
  · split
    · exact stays_next (stop_cur ..)
    next h =>
      split
      · exact stays_next ((trapHere_cur ..).trans (cur_of_readObject h))
      · exact stays_next (by rw [edit_cur, myAcquire_cur, cur_of_readObject h])

theorem stays_chst (a : CReg) (b : SReg) (s : State) : Stays s (execChst a b s) := by
  unfold execChst
  dsimp only
  refine stays_noStream ?_
  split
  · exact stays_next rfl
  · split
    · exact stays_next (stop_cur ..)
    next read =>
      split
      · exact stays_next ((trapHere_cur ..).trans (cur_of_readObject read))
      · split
        · exact stays_next (stop_cur ..)
        next wrote => exact stays_next (by rw [advance_cur, foldl_cur _ fun _ _ => setTokens_cur .., myRelease_cur,
            dropRefs_cur, addRefs_cur, cur_of_writeLines wrote, cur_of_readObject read])

/-! ### Copies, completion masks and streams -/

theorem Stays.of_eq {s t : State} {o : Out} (h : Stays t o) (e : t.cur = s.cur) : Stays s o :=
  ⟨fun u k => (h.cur u k).trans e⟩

theorem waitBits_cur (s : State) (d : KReg) (w : Word) : (s.waitBits d w).cur = s.cur := by
  unfold State.waitBits
  dsimp only
  repeat' split
  · exact acquireBits_cur ..
  · rfl
  · rfl

theorem stays_ktest (d : SReg) (a : KReg) (b : SReg) (s : State) : Stays s (execKtest d a b s) := by
  unfold execKtest
  dsimp only
  split
  · exact stays_next rfl
  · split
    · exact stays_next (acquireBits_cur ..)
    · exact stays_next rfl

theorem stays_kclr (d : KReg) (s : State) : Stays s (execKclr d s) := by
  unfold execKclr
  split <;> exact stays_next rfl

theorem stays_copyFrom (s : State) (va : Word) (b : Block) : Stays s (s.copyFrom va b) := by
  unfold State.copyFrom
  dsimp only
  split
  · exact stays_next rfl
  · split
    · split
      · exact stays_next rfl
      · refine (stays_settled (s := s.keeps va b) ?_).of_eq rfl
        split
        · exact stays_next (stop_cur ..)
        next h => exact stays_next (by rw [advance_cur, writeChain_cur, startCopy_cur, forgets_cur, cur_of_myAllocs h, keeps_cur])
    · exact stays_next rfl

theorem stays_issueCopy (s : State) (a : SReg) (indirect : Bool) : Stays s (s.issueCopy a indirect) := by
  unfold State.issueCopy
  split
  · exact stays_copyFrom ..
  · split
    · exact stays_next rfl
    · split
      · exact stays_next (stop_cur ..)
      next h =>
        dsimp only
        repeat' split
        · exact stays_next ((trap_cur ..).trans (cur_of_readBlock h))
        · exact stays_next ((trap_cur ..).trans (cur_of_readBlock h))
        · exact (stays_copyFrom ..).of_eq (cur_of_readBlock h)

theorem stays_copyAgain (s : State) (va : Word) (b : Block) : Stays s (s.copyAgain va b) := by
  unfold State.copyAgain
  dsimp only
  generalize (if b.dkind = 2 then (s.me.chain (BitVec.ofNat 5 b.creg)).segs else []) = segs
  split
  · exact stays_next rfl
  · split
    · exact stays_next rfl
    · split
      · exact stays_next rfl
      · refine stays_next ?_
        rw [advance_cur]
        split <;> rfl

theorem stays_cpyr (a : SReg) (s : State) : Stays s (execCpyr a s) := by
  unfold execCpyr
  split
  · exact stays_copyAgain ..
  · split
    · exact stays_next rfl
    · split
      · exact stays_next (stop_cur ..)
      next h =>
        dsimp only
        repeat' split
        · exact stays_next ((trap_cur ..).trans (cur_of_readBlock h))
        · exact stays_next ((trap_cur ..).trans (cur_of_readBlock h))
        · exact (stays_copyAgain ..).of_eq (cur_of_readBlock h)

theorem stays_streamFrom (s : State) (d : CReg) (va : Word) (b : Block) : Stays s (s.streamFrom d va b) := by
  unfold State.streamFrom
  split
  · exact stays_next rfl
  · split
    · exact stays_next rfl
    · dsimp only
      split
      · exact stays_next rfl
      · split
        · exact stays_next (stop_cur ..)
        next u h =>
          have granted : u.cur = s.cur := cur_of_myAllocs h
          refine stays_next ?_
          rw [advance_cur, dropRefs_cur, State.setMe_cur, placeStrip_cur]
          have run : ∀ (w : State) (a : Access) (l : List Nat), w.cur = s.cur → (w.gatherRun a b l).2.2.cur = s.cur :=
            fun w a l e => (gatherRun_cur ..).trans e
          split
          · exact (noted_cur ..).trans (run _ _ _ granted)
          · exact run _ _ _ granted

theorem stays_startStream (s : State) (d : CReg) (a : SReg) (indirect : Bool) : Stays s (s.startStream d a indirect) := by
  unfold State.startStream
  refine stays_settled ?_
  split
  · exact stays_streamFrom ..
  · split
    · exact stays_next (stop_cur ..)
    next h =>
      split
      · exact stays_next ((trap_cur ..).trans (cur_of_readBlock h))
      · exact (stays_streamFrom ..).of_eq (cur_of_readBlock h)

theorem stays_strmoff (d : CReg) (s : State) : Stays s (execStrmoff d s) := by
  unfold execStrmoff
  split
  · exact stays_next rfl
  · exact stays_next (dropRefs_cur ..)

/-! ### Fences, barriers and doorbells -/

theorem stays_fence (o : FenceOrder) (sc : Scope) (s : State) : Stays s (execFence o sc s) := by
  unfold execFence
  cases o <;> exact stays_next (by simp)

theorem stays_gbar (g : BitVec 8) (s : State) : Stays s (execGbar g s) := by
  unfold execGbar
  split
  · exact stays_next rfl
  · refine stays_next ((departs_cur ..).trans ?_)
    split <;> rfl

theorem stays_garr (g : BitVec 8) (s : State) : Stays s (execGarr g s) := by
  unfold execGarr
  split
  · exact stays_next rfl
  · split <;> exact stays_next rfl

theorem stays_gwt (g : BitVec 8) (s : State) : Stays s (execGwt g s) := by
  unfold execGwt
  split
  · exact stays_next rfl
  · split
    · exact stays_next (departs_cur ..)
    · exact stays_next rfl

theorem stays_qpost (a : SReg) (s : State) : Stays s (exec (.qpost a) s) := by
  by_cases h : (s.reg a).toNat < 64
  · rw [exec_qpost h]
    exact stays_next ((advance_cur ..).trans (beside_qpost ..).cur)
  · change Stays s (execQpost a s)
    unfold execQpost
    rw [if_pos (by omega)]
    exact stays_next rfl

/-! ### Slots, the epilogue and tags -/

theorem stays_oclaim (d : OReg) (a : SReg) (s : State) : Stays s (execOclaim d a s) := by
  unfold execOclaim
  dsimp only
  split
  · exact stays_next rfl
  · have claimed : (s.claim s.cur d.toNat (s.reg a)).advance.cur = s.cur := claim_cur s s.cur d.toNat (s.reg a)
    repeat' split
    · exact stays_next claimed
    · exact stays_next rfl
    · exact stays_next rfl
    · exact stays_next claimed
    · exact stays_next rfl
    · exact stays_next rfl

theorem stays_orel (d : OReg) (s : State) : Stays s (execOrel d s) := by
  unfold execOrel
  repeat' split
  all_goals exact stays_next rfl

theorem stays_tkon (a : SReg) (s : State) : Stays s (execTkon a s) := by
  unfold execTkon
  dsimp only
  split <;> exact stays_next rfl

theorem stays_tksave (a : SReg) (s : State) : Stays s (execTksave a s) := by
  unfold execTksave
  dsimp only
  split
  · exact stays_next rfl
  · split
    · exact stays_next (stop_cur ..)
    next t h =>
      have wrote : t.cur = s.cur := cur_of_writeSpan h
      exact stays_next wrote

theorem stays_tkload (a : SReg) (s : State) : Stays s (execTkload a s) := by
  unfold execTkload
  dsimp only
  split
  · exact stays_next rfl
  · split
    · exact stays_next (stop_cur ..)
    next t first =>
      have read : t.cur = s.cur := cur_of_readSpan first
      split
      · exact stays_next read
      · split
        · exact stays_next (stop_cur ..)
        next head =>
          split
          · exact stays_next rfl
          · split
            · exact stays_next (stop_cur ..)
            next rows =>
              split
              · exact stays_next rfl
              · exact stays_next (by
                  rw [advance_cur, State.setMe_cur, cur_of_readSpan rows, cur_of_readSpan head, cur_of_readSpan first])

theorem stays_tnew (d : SReg) (s : State) : Stays s (execTnew d s) := by
  unfold execTnew
  dsimp only
  repeat' split
  all_goals exact stays_next rfl

theorem stays_tnewq (d : SReg) (s : State) : Stays s (execTnewq d s) := by
  unfold execTnewq
  repeat' split
  all_goals exact stays_next rfl

theorem stays_tset (a : SReg) (s : State) : Stays s (execTset a s) := by
  unfold execTset
  split <;> exact stays_next rfl

theorem stays_tsets (a : SReg) (s : State) : Stays s (execTsets a s) := by
  unfold execTsets
  split <;> exact stays_next rfl

theorem stays_tretTag (a : SReg) (s : State) : Stays s (execTretTag a s) := by
  unfold execTretTag
  dsimp only
  split <;> exact stays_next rfl

theorem stays_citw (a b : SReg) (s : State) : Stays s (execCitw a b s) := by
  unfold execCitw
  repeat' split
  all_goals exact stays_next rfl

theorem stays_citr (d a : SReg) (s : State) : Stays s (execCitr d a s) := by
  unfold execCitr
  split <;> exact stays_next rfl

/-! ### System instructions -/

theorem stays_sysr (d : SReg) (r : BitVec 12) (s : State) : Stays s (execSysr d r s) := by
  unfold execSysr
  repeat' split
  all_goals exact stays_next rfl

theorem stays_tret (s : State) : Stays s (execTret s) := by
  unfold execTret
  split <;> exact stays_next rfl

theorem stays_wfi (s : State) : Stays s (execWfi s) := by
  unfold execWfi
  split <;> exact stays_next rfl

theorem stays_endStrand (s : State) : Stays s (execEndStrand s) := by
  unfold execEndStrand
  dsimp only
  repeat' split
  · exact stays_next rfl
  · exact stays_next rfl
  · exact stays_next (parks_cur ..)
  · exact stays_next (ends_cur ..)
  · exact stays_next (ends_cur ..)

end Sys2Proof.Machine
end

section
/-! PROOFS. What a word decodes to: an instruction that has an encoding. A scalar-class one keeps the executing strand, and
so does a convoy that fails when it is decoded. -/

namespace Sys2Proof.Machine

/-! ### Scalar-class instructions and convoys -/

/-- What an instruction that is no convoy does keeps the executing strand. -/
theorem stays_scalar {i : Instr} {s : State} (enc : i.encoded = true) (single : opensConvoy s.me.gm i = false) :
    Stays s (exec i s) := by
  cases i
  -- those that only the steps beside the strands name
  case doorbell | descriptorPoll | strandPlace | gangStart | recordComplete | heldCompletionWrite | copyNodeComplete |
      graphCopyFault | chunkComplete | chunkFail | streamRefill | bufferReclaim | allocGrant | allocTimeout | tagGrant
      | tagDrainComplete | slotGrant | barrierDepart | waitkWake | wfiWake | convoyDrained | preemptionTaken |
      priorityAge | clockStepDown | clockStepUp | pageMigrate | migrationWindowEnd | linkCrcError | correctedError |
      lastingFaultRetire | fatalError | dawn | quadrantReady | readEventLog | readDuskRecord | readSensors |
      writeFirmwareImage | commitFirmwareImage | loadKeySlot | eraseKeySlot | mailboxComplete | lanesplitWrite |
      poolDescriptorWrite | ptrootWrite | pselWrite | partitionCreate | pbootWrite | poolReset | preqWrite |
      gnodeWrite | grpentWrite | qpwrWrite | tagcapWrite | cellStoreWrite | fragcntWrite | vlWrite | vlmaxWrite |
      sheadWrite | gmWrite | unassignedOpcode | reservedFieldNotZero | fetchFault | hostMemoryAccess |
      peerMemoryAccess =>
    exact absurd enc Bool.false_ne_true
  -- those that open a convoy
  case grp | grpk | vadd | vsub | vmul | vfma | vfms | vdiv | vmin | vmax | vand | vor | vxor | vshl | vshr | vsra |
      vfsh | vbext | vabs | vneg | vpopc | vclz | vsel | vaddScalar | vsubScalar | vmulScalar | vfmaScalar |
      vfmsScalar | vdivScalar | vminScalar | vmaxScalar | vandScalar | vorScalar | vxorScalar | vshlScalar |
      vshrScalar | vsraScalar | vfshScalar | vbextScalar | vselScalar | vcmp | vcmpScalar | vredsum | vredmax |
      vredmin | vcvt | vcvtSat | vexp2 | vrcp | vsqrt | vidx | vmv | vmvScalar | vperm | vcomp | vexpd | vslide | mand
      | mor | mxor | mnot | mpopc | mfirst | mset | mget | vbr | vjoin | vld | vlds | vldx | vldff | vldk | vst | vsts
      | vstx | vamo | oput | oget | mma | mmaz | bswalk | biasupd | tkget | citp | vstcm | vldt =>
    exact absurd single.symm Bool.false_ne_true
  -- those that write nothing but the executing strand
  case nop | svc | add | sub | mul | mulh | mulhu | div | divu | rem | remu | and | or | xor | shl | shr | sra | rotl
      | min | max | minu | maxu | slt | sltu | clz | ctz | popc | addi | andi | ori | xori | shli | shri | srai | slti
      | sltiu | lhi | pcadd | beq | bne | blt | bge | bltu | bgeu | jal | jalr | bext | bins | fsh | ifence | tkoff |
      tget =>
    exact stays_next rfl
  case lds | ldu | ldt => exact stays_loadScalar ..
  case sts | stcm => exact stays_storeScalar ..
  case amo => exact stays_amo ..
  case strip => exact stays_strip ..
  case stripClose | setvl | setvlx => exact stays_next (occupancy_cur s)
  case snext => exact stays_snext ..
  case cnew => exact stays_cnew ..
  case cfree => exact stays_noStream (stays_next (edit_cur ..))
  case cshare | cprep | capp | csplice => exact stays_noStream (stays_sharing ..)
  case clen | cseg => exact stays_noStream (stays_next rfl)
  case cprepElement => exact stays_cprepElement ..
  case cappElement => exact stays_cappElement ..
  case cflat => exact stays_cflat ..
  case cspill => exact stays_cspill ..
  case cfill => exact stays_cfill ..
  case chld => exact stays_chld ..
  case chst => exact stays_chst ..
  case strmoff => exact stays_strmoff ..
  case cpyr => exact stays_cpyr ..
  case ktest => exact stays_ktest ..
  case kclr => exact stays_kclr ..
  case fence => exact stays_fence ..
  case gbar => exact stays_gbar ..
  case garr => exact stays_garr ..
  case gwt => exact stays_gwt ..
  case qpost => exact stays_qpost ..
  case oclaim => exact stays_oclaim ..
  case orel => exact stays_orel ..
  case tkon => exact stays_tkon ..
  case tksave => exact stays_tksave ..
  case tkload => exact stays_tkload ..
  case tnew => exact stays_tnew ..
  case tnewq => exact stays_tnewq ..
  case tset => exact stays_tset ..
  case tsets => exact stays_tsets ..
  case tretTag => exact stays_tretTag ..
  case citw => exact stays_citw ..
  case citr => exact stays_citr ..
  case sysr => exact stays_sysr ..
  case tret => exact stays_tret ..
  case wfi => exact stays_wfi ..
  case endStrand => exact stays_endStrand ..
  case ctrimH | ctrimHImm => exact stays_trimHead ..
  case ctrimT | ctrimTImm => exact stays_trimTail ..
  case csplit | csplitImm => exact stays_split ..
  case cget | cgetImm => exact stays_getElem ..
  case cput | cputImm => exact stays_putAt ..
  case strm | strmx => exact stays_startStream ..
  case cpy | cpyx => exact stays_issueCopy ..
  case waitk => exact stays_next (waitBits_cur ..)
  case sysw => exact stays_sysWrite ..

/-- An instruction that opens a convoy runs it. -/
theorem exec_eq_reopen {i : Instr} {g : Gm} (opens : opensConvoy g i = true) (s : State) :
    exec i s = s.reopen i false none := by
  cases i
  case grp | grpk | vadd | vsub | vmul | vfma | vfms | vdiv | vmin | vmax | vand | vor | vxor | vshl | vshr | vsra |
      vfsh | vbext | vabs | vneg | vpopc | vclz | vsel | vaddScalar | vsubScalar | vmulScalar | vfmaScalar |
      vfmsScalar | vdivScalar | vminScalar | vmaxScalar | vandScalar | vorScalar | vxorScalar | vshlScalar |
      vshrScalar | vsraScalar | vfshScalar | vbextScalar | vselScalar | vcmp | vcmpScalar | vredsum | vredmax |
      vredmin | vcvt | vcvtSat | vexp2 | vrcp | vsqrt | vidx | vmv | vmvScalar | vperm | vcomp | vexpd | vslide | mand
      | mor | mxor | mnot | mpopc | mfirst | mset | mget | vbr | vjoin | vld | vlds | vldx | vldff | vldk | vst | vsts
      | vstx | vamo | oput | oget | mma | mmaz | bswalk | biasupd | tkget | citp | vstcm | vldt =>
    rfl
  case doorbell | descriptorPoll | strandPlace | gangStart | recordComplete | heldCompletionWrite | copyNodeComplete |
      graphCopyFault | chunkComplete | chunkFail | streamRefill | bufferReclaim | allocGrant | allocTimeout | tagGrant
      | tagDrainComplete | slotGrant | barrierDepart | waitkWake | wfiWake | convoyDrained | preemptionTaken |
      priorityAge | clockStepDown | clockStepUp | pageMigrate | migrationWindowEnd | linkCrcError | correctedError |
      lastingFaultRetire | fatalError | dawn | quadrantReady | readEventLog | readDuskRecord | readSensors |
      writeFirmwareImage | commitFirmwareImage | loadKeySlot | eraseKeySlot | mailboxComplete | lanesplitWrite |
      poolDescriptorWrite | ptrootWrite | pselWrite | partitionCreate | pbootWrite | poolReset | preqWrite |
      gnodeWrite | grpentWrite | qpwrWrite | tagcapWrite | cellStoreWrite | fragcntWrite | vlWrite | vlmaxWrite |
      sheadWrite | gmWrite | unassignedOpcode | reservedFieldNotZero | fetchFault | hostMemoryAccess |
      peerMemoryAccess | nop | svc | tret | sysr | sysw | endStrand | wfi | add | sub | mul | mulh | mulhu | div |
      divu | rem | remu | and | or | xor | shl | shr | sra | rotl | min | max | minu | maxu | slt | sltu | clz | ctz |
      popc | addi | andi | ori | xori | shli | shri | srai | slti | sltiu | lhi | pcadd | lds | ldu | sts | amo | beq
      | bne | blt | bge | bltu | bgeu | jal | jalr | strip | stripClose | snext | setvl | setvlx | bext | bins | fsh |
      cnew | cfree | cshare | cprep | capp | cprepElement | cappElement | ctrimH | ctrimT | csplit | csplice | clen |
      cseg | cflat | cget | cput | cspill | cfill | chld | chst | ctrimHImm | ctrimTImm | csplitImm | cgetImm |
      cputImm | strm | strmx | strmoff | cpy | cpyx | cpyr | waitk | ktest | kclr | fence | ifence | gbar | garr | gwt
      | qpost | oclaim | orel | tkon | tkoff | tksave | tkload | tnew | tnewq | tset | tsets | tget | tretTag | citw |
      citr | stcm | ldt =>
    exact absurd opens Bool.false_ne_true

/-- A convoy that fails when it is decoded traps, and so keeps the executing strand. -/
theorem stays_runConvoy_fails {s u : State} {start : Word} {l : List (Word × Fetched)} {fails : Bool} {pre : Option Nat}
    {e : Word × Cause × Note} (h : Scan.run u.me {} l = .error e) : Stays s (s.runConvoy u start l fails pre) := by
  unfold State.runConvoy
  rw [h]
  exact stays_next (noted_cur s _)

theorem stays_headed_fails {s : State} {gk : Bool} {m : GrpMode}
    (h : badMode m.fa.toNat m.fb.toNat m.rnd.toNat m.g.toNat = true ∨
      ∃ e, Scan.run (s.setMe { s.me with gm := gmOf m gk }).me {} ((s.setMe { s.me with gm := gmOf m gk }).gatherWords
        (s.setMe { s.me with gm := gmOf m gk }).me.gm 9 (s.me.pc + 4)) = .error e) :
    Stays s (s.headed gk m false none) := by
  unfold State.headed
  split
  · exact stays_next rfl
  next good =>
    obtain ⟨e, h⟩ := h.resolve_left good
    dsimp only
    split
    · exact stays_next rfl
    · exact stays_runConvoy_fails h

theorem stays_reopen_fails {i : Instr} {s : State} (h : s.convoyFails i = true) : Stays s (s.reopen i false none) := by
  unfold State.convoyFails at h
  dsimp only at h
  unfold State.reopen
  split at h
  · refine stays_headed_fails ((Bool.or_eq_true_iff.1 h).imp id fun h => ?_)
    split at h
    next e r => exact ⟨e, r⟩
    · cases h
  · refine stays_headed_fails ((Bool.or_eq_true_iff.1 h).imp id fun h => ?_)
    split at h
    next e r => exact ⟨e, r⟩
    · cases h
  · unfold State.convoy
    split
    · exact stays_next rfl
    next m member =>
      rw [member] at h
      dsimp only at h
      split at h
      next e r => exact stays_runConvoy_fails r
      · cases h

/-! ### The decoder -/

/-- What the decoder answers: an instruction that has an encoding, or that the word is none, for it is never too short. -/
def Decoded : Except DecodeErr Instr → Prop
  | .ok i => i.encoded = true
  | .error e => e ≠ .short

theorem decoded_named {i : Instr} (zero : Bool) (h : i.encoded = true) : Decoded (Sys2Proof.named zero i) := by
  cases zero with
  | true => exact h
  | false => exact DecodeErr.noConfusion

theorem decoded_unlisted : Decoded unlisted := DecodeErr.noConfusion

theorem decoded_decodeSys (d a b mn : Nat) : Decoded (decodeSys d a b mn) := by
  unfold decodeSys
  repeat' split
  all_goals first | exact decoded_named _ rfl | exact decoded_unlisted

theorem decoded_decodeAlu (d a b mn : Nat) : Decoded (decodeAlu d a b mn) := by
  unfold decodeAlu
  repeat' split
  all_goals first | exact decoded_named _ rfl | exact decoded_unlisted

theorem decoded_decodeShiftImm (d a b mn : Nat) : Decoded (decodeShiftImm d a b mn) := by
  unfold decodeShiftImm
  dsimp only
  repeat' split
  all_goals first | exact decoded_named _ rfl | exact decoded_unlisted

theorem decoded_decodeAmo (d a b mn : Nat) : Decoded (decodeAmo d a b mn) := by
  unfold decodeAmo
  dsimp only
  repeat' split
  all_goals first | exact decoded_named _ rfl | exact decoded_unlisted

theorem decoded_decodeSetvl (d a b mn : Nat) : Decoded (decodeSetvl d a b mn) := by
  unfold decodeSetvl
  dsimp only
  repeat' split
  all_goals exact decoded_named _ rfl

theorem decoded_decodeBitField (d a b mn : Nat) : Decoded (decodeBitField d a b mn) := by
  unfold decodeBitField
  dsimp only
  repeat' split
  all_goals first | exact decoded_named _ rfl | exact decoded_unlisted

theorem decoded_decodeValu (d a b mn : Nat) : Decoded (decodeValu d a b mn) := by
  unfold decodeValu
  repeat' split
  all_goals first | exact decoded_named _ rfl | exact decoded_unlisted

theorem decoded_decodeValuScalar (d a b mn : Nat) : Decoded (decodeValuScalar d a b mn) := by
  unfold decodeValuScalar
  repeat' split
  all_goals first | exact decoded_named _ rfl | exact decoded_unlisted

theorem decoded_decodeVcmp (d a b mn : Nat) : Decoded (decodeVcmp d a b mn) := by
  unfold decodeVcmp
  repeat' split
  all_goals first | exact decoded_named _ rfl | exact decoded_unlisted

theorem decoded_decodeVred (d a b mn : Nat) : Decoded (decodeVred d a b mn) := by
  unfold decodeVred
  repeat' split
  all_goals first | exact decoded_named _ rfl | exact decoded_unlisted

theorem decoded_decodeVcvt (d a b mn : Nat) : Decoded (decodeVcvt d a b mn) := by
  unfold decodeVcvt
  repeat' split
  all_goals first | exact decoded_named _ rfl | exact decoded_unlisted

theorem decoded_decodeVperm (d a b mn : Nat) : Decoded (decodeVperm d a b mn) := by
  unfold decodeVperm
  repeat' split
  all_goals exact decoded_named _ rfl

theorem decoded_decodeMask (d a b mn : Nat) : Decoded (decodeMask d a b mn) := by
  unfold decodeMask
  repeat' split
  all_goals first | exact decoded_named _ rfl | exact decoded_unlisted

theorem decoded_decodeChain (d a b mn : Nat) : Decoded (decodeChain d a b mn) := by
  unfold decodeChain
  repeat' split
  all_goals first | exact decoded_named _ rfl | exact decoded_unlisted

theorem decoded_decodeChainImm (d a b mn : Nat) : Decoded (decodeChainImm d a b mn) := by
  unfold decodeChainImm
  dsimp only
  repeat' split
  all_goals first | exact decoded_named _ rfl | exact decoded_unlisted

theorem decoded_decodeVld (d a b mn : Nat) : Decoded (decodeVld d a b mn) := by
  unfold decodeVld
  repeat' split
  all_goals first | exact decoded_named _ rfl | exact decoded_unlisted

theorem decoded_decodeVst (d a b mn : Nat) : Decoded (decodeVst d a b mn) := by
  unfold decodeVst
  repeat' split
  all_goals first | exact decoded_named _ rfl | exact decoded_unlisted

theorem decoded_decodeStrm (d a b mn : Nat) : Decoded (decodeStrm d a b mn) := by
  unfold decodeStrm
  repeat' split
  all_goals first | exact decoded_named _ rfl | exact decoded_unlisted

theorem decoded_decodeCopy (d a b mn : Nat) : Decoded (decodeCopy d a b mn) := by
  unfold decodeCopy
  repeat' split
  all_goals first | exact decoded_named _ rfl | exact decoded_unlisted

theorem decoded_decodeKmask (d a b mn : Nat) : Decoded (decodeKmask d a b mn) := by
  unfold decodeKmask
  repeat' split
  all_goals first | exact decoded_named _ rfl | exact decoded_unlisted

theorem decoded_decodeSync (d a b mn : Nat) : Decoded (decodeSync d a b mn) := by
  unfold decodeSync
  repeat' split
  all_goals first | exact decoded_named _ rfl | exact decoded_unlisted

theorem decoded_decodeVamo (d a b mn : Nat) : Decoded (decodeVamo d a b mn) := by
  unfold decodeVamo
  repeat' split
  all_goals first | exact decoded_named _ rfl | exact decoded_unlisted

theorem decoded_decodeMat (d a b mn : Nat) : Decoded (decodeMat d a b mn) := by
  unfold decodeMat
  repeat' split
  all_goals first | exact decoded_named _ rfl | exact decoded_unlisted

theorem decoded_decodeTopk (d a b mn : Nat) : Decoded (decodeTopk d a b mn) := by
  unfold decodeTopk
  repeat' split
  all_goals first | exact decoded_named _ rfl | exact decoded_unlisted

theorem decoded_decodeCtx (d a b mn : Nat) : Decoded (decodeCtx d a b mn) := by
  unfold decodeCtx
  repeat' split
  all_goals first | exact decoded_named _ rfl | exact decoded_unlisted

theorem decoded_decodeCtxld (d a b mn : Nat) : Decoded (decodeCtxld d a b mn) := by
  unfold decodeCtxld
  repeat' split
  all_goals first | exact decoded_named _ rfl | exact decoded_unlisted

theorem decoded_decodeFields (maj d a b mn : Nat) : Decoded (decodeFields maj d a b mn) := by
  unfold decodeFields
  split
  case h_1 => exact decoded_decodeSys ..
  case h_2 => exact decoded_decodeAlu ..
  case h_3 | h_4 | h_5 | h_6 | h_8 | h_9 | h_10 | h_11 | h_12 | h_13 | h_14 | h_16 | h_17 | h_18 | h_19 | h_20 | h_21
      | h_22 | h_23 | h_25 | h_27 | h_28 | h_37 | h_38 =>
    exact decoded_named _ rfl
  case h_7 => exact decoded_decodeShiftImm ..
  case h_15 => exact decoded_decodeAmo ..
  case h_24 => split <;> exact decoded_named _ rfl
  case h_26 => exact decoded_decodeSetvl ..
  case h_29 => exact decoded_decodeBitField ..
  case h_30 => exact decoded_decodeValu ..
  case h_31 => exact decoded_decodeValuScalar ..
  case h_32 => exact decoded_decodeVcmp ..
  case h_33 => exact decoded_decodeVred ..
  case h_34 => exact decoded_decodeVcvt ..
  case h_35 => exact decoded_decodeVperm ..
  case h_36 => exact decoded_decodeMask ..
  case h_39 => exact decoded_decodeChain ..
  case h_40 => exact decoded_decodeChainImm ..
  case h_41 => exact decoded_decodeVld ..
  case h_42 => exact decoded_decodeVst ..
  case h_43 => exact decoded_decodeStrm ..
  case h_44 => exact decoded_decodeCopy ..
  case h_45 => exact decoded_decodeKmask ..
  case h_46 => exact decoded_decodeSync ..
  case h_47 => exact decoded_decodeVamo ..
  case h_48 => exact decoded_decodeMat ..
  case h_49 => exact decoded_decodeTopk ..
  case h_50 => exact decoded_decodeCtx ..
  case h_51 => exact decoded_decodeCtxld ..
  case h_52 => exact decoded_unlisted

theorem decoded_decodeWord (w : IWord) : Decoded (decodeWord w) := decoded_decodeFields ..

end Sys2Proof.Machine
end

section
/-! PROOFS. A step that issues (R36, R43, R55, R67, R293, R294): what the choice of a strand leaves of it, what the word at its
PC does whatever the word is, and what trapping looks like from the mover; at the end they are put together to settle O60. -/

namespace Sys2Proof.Machine

/-! ### What a fetch depends on -/

theorem fetch_congr {s t : State} {sid : Nat} (va : Nat)
    (rest : { t with strands := s.strands, cxs := s.cxs, cur := s.cur, turns := s.turns } = s)
    (part : (t.strand sid).part = (s.strand sid).part) (mode : (t.strand sid).mode = (s.strand sid).mode) :
    t.fetch sid va = s.fetch sid va := by
  unfold State.fetch
  dsimp only
  rw [part, mode]
  generalize (s.strand sid).part = p
  generalize (s.strand sid).mode = m
  rw [← rest]
  rfl

/-! ### A clock passes and a strand issues -/

theorem get_ages (l : Sparse Strand) (k : Nat) :
    Sparse.get Strand.blank k (l.map fun e => (e.1, e.2.ages)) = (Sparse.get Strand.blank k l).ages := by
  induction l with
  | nil => rfl
  | cons e l ih =>
      rw [List.map_cons, Sparse.get, Sparse.get, ih]
      split <;> rfl

theorem strand_tick (s : State) (k : Nat) : s.tick.strand k = (s.strand k).ages := get_ages s.strands k

theorem ages_cases (t : Strand) : t.ages.resident = t.resident ∧ t.ages.pc = t.pc ∧ t.ages.wait = t.wait := by
  unfold Strand.ages
  split
  · exact ⟨rfl, rfl, rfl⟩
  · exact ⟨rfl, rfl, rfl⟩

@[simp] theorem issuing_cur (s : State) (sid : Nat) : (s.issuing sid).cur = sid := rfl

@[simp] theorem issuing_me (s : State) (sid : Nat) :
    (s.issuing sid).me = { s.strand sid with unissued := 0, age := 0 } := State.strand_setStrand_same ..

theorem fetch_cur (s : State) (sid va : Nat) : ({ s with cur := sid } : State).fetch sid va = s.fetch sid va :=
  fetch_congr va rfl rfl rfl

theorem fetch_issuing (s : State) (sid va : Nat) : (s.issuing sid).fetch sid va = s.fetch sid va := by
  have me : (s.issuing sid).strand sid = { s.strand sid with unissued := 0, age := 0 } := issuing_me s sid
  exact fetch_congr va rfl (by rw [me]) (by rw [me])

theorem step_issue {s : State} {sid : Nat} {rest : List Move} (run : s.halted = false) (chosen : s.agenda = .issue sid :: rest) :
    Sys2Proof.Machine.step s = ({ s with agenda := rest } : State).tick.issue sid := by
  unfold Sys2Proof.Machine.step State.moveNext State.nextMove
  rw [chosen, run]
  rfl

/-! ### What the word at the PC does -/

theorem runWord_of_fault {s : State} {e : Cause × Note} (h : s.fetch s.cur s.me.pc.toNat = .error e) :
    s.runWord = exec .fetchFault s := by
  unfold State.runWord
  rw [h]

theorem runWord_of_ok {s : State} {w : IWord} {i : Instr} (h : s.fetch s.cur s.me.pc.toNat = .ok w)
    (d : decodeWord w = .ok i) : s.runWord = exec i s := by
  unfold State.runWord
  rw [h]
  dsimp only
  rw [d]

theorem runWord_of_unassigned {s : State} {w : IWord} (h : s.fetch s.cur s.me.pc.toNat = .ok w)
    (d : decodeWord w = .error .unassigned) : s.runWord = exec (.unassignedOpcode w) s := by
  unfold State.runWord
  rw [h]
  dsimp only
  rw [d]

theorem runWord_of_reserved {s : State} {w : IWord} (h : s.fetch s.cur s.me.pc.toNat = .ok w)
    (d : decodeWord w = .error .reserved) : s.runWord = exec (.reservedFieldNotZero w) s := by
  unfold State.runWord
  rw [h]
  dsimp only
  rw [d]

theorem nextInstr_of_ok {s : State} {w : IWord} {i : Instr} (h : s.fetch s.cur s.me.pc.toNat = .ok w)
    (d : decodeWord w = .ok i) : s.nextInstr = some i := by
  unfold State.nextInstr
  rw [h]
  dsimp only
  rw [d]

/-- The word at the PC cannot be fetched, or is no instruction. -/
def State.stuckAt (s : State) : Prop :=
  ∀ w, s.fetch s.cur s.me.pc.toNat = .ok w → ∀ i, decodeWord w ≠ .ok i

theorem stuckAt_of_error {s : State} {w : IWord} {e : DecodeErr} (ok : s.fetch s.cur s.me.pc.toNat = .ok w)
    (d : decodeWord w = .error e) : s.stuckAt := by
  intro w' ok' i d'
  rw [ok] at ok'
  cases ok'
  rw [d] at d'
  cases d'

theorem nextInstr_of_stuckAt {s : State} (h : s.stuckAt) : s.nextInstr = none := by
  unfold State.nextInstr
  split
  next w fetched =>
    split
    next i d => exact absurd d (h w fetched i)
    · rfl
  · rfl

theorem exec_unassigned {w : IWord} (d : decodeWord w = .error .unassigned) (s : State) :
    exec (.unassignedOpcode w) s = .next (s.trapHere .unassigned) := by
  change execUnassignedOpcode w s = _
  unfold execUnassignedOpcode
  rw [d]

theorem exec_reserved {w : IWord} (d : decodeWord w = .error .reserved) (s : State) :
    exec (.reservedFieldNotZero w) s = .next (s.trapHere .reserved) := by
  change execReservedFieldNotZero w s = _
  unfold execReservedFieldNotZero
  rw [d]

theorem exec_fetchFault {s : State} {c : Cause} {n : Note} (h : s.fetch s.cur s.me.pc.toNat = .error (c, n)) :
    exec .fetchFault s = .next (if s.me.mode ≠ .user ∧ s.me.pc = s.vector s.cur then (s.noted n).doubleFault s.cur c
      else (s.noted n).trapHere c) := by
  change execFetchFault s = _
  unfold execFetchFault
  rw [h]
  dsimp only
  split <;> rfl

/-! ### Trapping, as the mover sees it -/

/-- In `t`, the strand that executes in `s` has trapped or has been ended, and waits for nothing. -/
structure Halts (s t : State) : Prop where
  trapped : s.trapped t = true
  wait    : (t.strand s.cur).wait = .none

theorem me_trapHere (s : State) (c : Cause) : (s.trapHere c).me = { s.me.enter with
    epc := s.me.pc, ecause := c.code, eval := s.me.pc, evpos := 0, vstart := 0, pc := s.vector s.cur
    wait := .none, again := none } := State.strand_setStrand_same ..

theorem trapped_trapHere (s : State) (c : Cause) : s.trapped (s.trapHere c) = true := by
  unfold State.trapped
  rw [me_trapHere]
  unfold Strand.enter State.vector
  dsimp only
  have here : (s.strand s.cur).mode = s.me.mode := rfl
  rw [here]
  cases s.me.mode <;> simp

theorem halts_trapHere (s : State) (c : Cause) : Halts s (s.trapHere c) :=
  ⟨trapped_trapHere s c, congrArg Strand.wait (me_trapHere s c)⟩

theorem me_noted (s : State) (n : Note) : (s.noted n).me = s.me := by
  unfold State.me
  rw [noted_cur, bare_strand (noted_bare s n)]

theorem mvec_noted (s : State) (n : Note) : (s.noted n).mvec = s.mvec := by
  have e := congrArg (fun v : State => v.mvec) (noted_bare s n)
  exact e

theorem halts_noted {s t : State} {n : Note} (h : Halts (s.noted n) t) : Halts s t := by
  obtain ⟨trapped, wait⟩ := h
  unfold State.trapped at trapped
  rw [me_noted, mvec_noted] at trapped
  rw [noted_cur] at wait
  exact ⟨trapped, wait⟩

theorem halts_doubleFault (s : State) (c : Cause) : Halts s (s.doubleFault s.cur c) := by
  have gone : (s.doubleFault s.cur c).strand s.cur = Strand.blank := (ends_endsWith ..).gone.strand
  have me : (s.doubleFault s.cur c).me = Strand.blank := by
    unfold State.me
    rw [doubleFault_cur]
    exact gone
  refine ⟨?_, congrArg Strand.wait gone⟩
  unfold State.trapped
  rw [me]
  rfl

/-- Where the word at the PC is no instruction, the strand traps, or a double fault ends it. -/
theorem halts_of_stuckAt {s : State} (h : s.stuckAt) : ∃ t, s.runWord = .next t ∧ Halts s t := by
  cases fetched : s.fetch s.cur s.me.pc.toNat with
  | error e =>
      refine ⟨_, (runWord_of_fault fetched).trans (exec_fetchFault fetched), ?_⟩
      split
      · refine halts_noted (n := e.2) ?_
        rw [← noted_cur s e.2]
        exact halts_doubleFault ..
      · exact halts_noted (halts_trapHere ..)
  | ok w =>
      have sound := decoded_decodeWord w
      cases d : decodeWord w with
      | ok i => exact absurd d (h w fetched i)
      | error e =>
          rw [d] at sound
          cases e with
          | unassigned =>
              exact ⟨_, (runWord_of_unassigned fetched d).trans (exec_unassigned d s), halts_trapHere ..⟩
          | reserved => exact ⟨_, (runWord_of_reserved fetched d).trans (exec_reserved d s), halts_trapHere ..⟩
          | short => exact absurd rfl sound

/-! ### The turn of a strand -/

section
variable {v : State} {sid : Nat}

theorem issue_calm (resident : (v.strand sid).resident = true) (free : (v.strand sid).wait = .none)
    (turn : v.nextOn (coreOf sid) = some sid) (calm : (v.strand sid).mayPreempt = false) :
    v.issue sid = (v.issuing sid).runWord := by
  unfold State.issue
  simp [resident, free, turn, calm]

theorem issue_asked (resident : (v.strand sid).resident = true) (free : (v.strand sid).wait = .none)
    (turn : v.nextOn (coreOf sid) = some sid) (asked : (v.strand sid).mayPreempt = true) :
    v.issue sid = (v.issuing sid).issueAsked := by
  unfold State.issue
  simp [resident, free, turn, asked]

theorem issue_later (resident : (v.strand sid).resident = true) (free : (v.strand sid).wait = .none)
    (turn : v.nextOn (coreOf sid) ≠ some sid) : v.issue sid = .next v := by
  unfold State.issue
  simp [resident, free, turn]

theorem issue_waiting (resident : (v.strand sid).resident = true) (waits : (v.strand sid).wait ≠ .none) :
    v.issue sid = v.look sid := by
  unfold State.issue
  simp [resident, waits]

theorem look_asked (asked : (v.strand sid).mayPreempt = true) : v.look sid = exec (.preemptionTaken sid 0) v := by
  unfold State.look
  simp [asked]

theorem look_blocked (calm : (v.strand sid).mayPreempt = false) (blocks : (v.strand sid).wait.blocks = true) :
    v.look sid = .next v := by
  unfold State.look
  simp [calm, blocks]

/-- What a waiting strand's instruction does if it is executed says whether it waits on. -/
theorem look_runs {t : State} (calm : (v.strand sid).mayPreempt = false) (open_ : (v.strand sid).wait.blocks = false)
    (run : ({ v with cur := sid } : State).runWord = .next t) :
    v.look sid = .next (if (t.strand sid).wait = (v.strand sid).wait then v
      else v.setStrand sid { v.strand sid with wait := .none }) := by
  unfold State.look
  rw [if_neg (by simp [calm]), if_neg (by simp [open_]), run]
  dsimp only
  split <;> rfl

end

/-! ### A request that may be taken -/

theorem preemptsFirst_eq {s : State} (free : s.me.wait = .none) (due : s.me.due = false) {i : Instr}
    (next : s.nextInstr = some i) : s.preemptsFirst = (opensConvoy s.me.gm i && !s.convoyFails i) := by
  unfold State.preemptsFirst
  rw [free, due, next]
  rfl

theorem preemptsFirst_due {s : State} (due : s.me.due = true) : s.preemptsFirst = true := by
  unfold State.preemptsFirst
  rw [due]
  rfl

theorem issueAsked_first {s : State} (first : s.preemptsFirst = true) :
    s.issueAsked = exec (.preemptionTaken s.cur 0) s := by
  unfold State.issueAsked
  rw [if_pos first]

theorem issueAsked_end {s : State} (first : s.preemptsFirst = false) (next : s.nextInstr = some .endStrand) :
    s.issueAsked = s.runWord := by
  unfold State.issueAsked
  rw [if_neg (by simp [first]), if_pos next]

theorem issueAsked_runs {s t : State} (first : s.preemptsFirst = false) (next : s.nextInstr ≠ some .endStrand)
    (run : s.runWord = .next t) :
    s.issueAsked = if s.trapped t then .next t else exec (.preemptionTaken s.cur 0) s := by
  unfold State.issueAsked
  rw [if_neg (by simp [first]), if_neg next, run]

/-- Where the word at the PC is no instruction, the trap goes before the request. -/
theorem issueAsked_stuckAt {s : State} (free : s.me.wait = .none) (due : s.me.due = false) (stuck : s.stuckAt) :
    s.issueAsked = s.runWord := by
  obtain ⟨t, run, halts⟩ := halts_of_stuckAt stuck
  have none_ := nextInstr_of_stuckAt stuck
  have first : s.preemptsFirst = false := by
    unfold State.preemptsFirst
    rw [free, due, none_]
    rfl
  rw [issueAsked_runs first (by simp [none_]) run, if_pos halts.trapped, run]

/-- What the mover asks of the strand that executes, asked of its slot. -/
theorem trapped_iff {s t : State} (cur : t.cur = s.cur) : s.trapped t = true ↔
    (t.strand s.cur).resident = false
      ∨ (if s.me.mode = .monitor then (t.strand s.cur).pc = s.mvec else (t.strand s.cur).mode ≠ .user) := by
  unfold State.trapped State.me
  rw [cur]
  split <;> simp_all

/-- What `stops` of O60 says of a step `o` that runs the word at the PC where that is no instruction. -/
theorem stops_of_runs {s : State} {word : Except (Cause × Note) IWord} {o : Out}
    (fetched : s.fetch s.cur s.me.pc.toNat = word) (runs : s.stuckAt → o = s.runWord) :
    (∀ w, word = .ok w → decodeWord w = .error .unassigned → o = exec (.unassignedOpcode w) s)
      ∧ (∀ w, word = .ok w → decodeWord w = .error .reserved → o = exec (.reservedFieldNotZero w) s)
      ∧ (∀ e, word = .error e → o = exec .fetchFault s) := by
  subst fetched
  refine ⟨fun w ok d => ?_, fun w ok d => ?_, fun x bad => ?_⟩
  · rw [runs (stuckAt_of_error ok d), runWord_of_unassigned ok d]
  · rw [runs (stuckAt_of_error ok d), runWord_of_reserved ok d]
  · rw [runs fun w ok => ?_, runWord_of_fault bad]
    rw [bad] at ok
    cases ok

/-- An instruction that does not wait for a request before it keeps the executing strand. -/
theorem stays_unasked {i : Instr} {s : State} {w : IWord} (d : decodeWord w = .ok i)
    (h : opensConvoy s.me.gm i = false ∨ s.convoyFails i = true) : Stays s (exec i s) := by
  have enc := decoded_decodeWord w
  rw [d] at enc
  cases opens : opensConvoy s.me.gm i with
  | false => exact stays_scalar enc opens
  | true =>
      rw [exec_eq_reopen opens]
      exact stays_reopen_fails (h.resolve_left (by simp [opens]))

/-- Settles O60: the arms of `issue`, `look` and `issueAsked`, one by one. -/
theorem stepRunsDecodedInstruction : Obligations.StepRunsDecodedInstruction := by
  unfold Obligations.StepRunsDecodedInstruction
  intro s sid rest v m u word step turn stops trapped run chosen resident
  have issued : step = v.issue sid := step_issue run chosen
  have me : u.me = { m with unissued := 0, age := 0 } := issuing_me v sid
  have at_u : u.fetch u.cur u.me.pc.toNat = word := by rw [me]; rfl
  have at_v : ({ v with cur := sid } : State).fetch sid m.pc.toNat = word :=
    (fetch_cur v sid m.pc.toNat).trans (fetch_issuing v sid m.pc.toNat).symm
  have stops_of (runs : u.stuckAt → step = u.runWord) : stops := stops_of_runs at_u runs
  refine ⟨rfl, rfl, fun k => ?_, fun calm => ⟨fun ⟨free, mine⟩ => ?_, fun free other => ?_, fun blocks => ?_,
    fun waits open_ none_ => ?_, fun w i t waits open_ ok d e => ?_⟩, fun asked => ⟨fun waits => ?_, fun free other => ?_,
    fun ⟨free, mine⟩ due => ?_, fun ⟨free, mine⟩ due => ?_, fun w i ⟨free, mine⟩ due ok d => ?_⟩⟩
  · have e := strand_tick ({ s with agenda := rest } : State) k
    change v.strand k = (s.strand k).ages at e
    rw [e]
    exact ages_cases _
  · have runs : step = u.runWord := issued.trans (issue_calm resident free mine calm)
    exact ⟨fun w i ok d => runs.trans (runWord_of_ok (at_u.trans ok) d), stops_of fun _ => runs⟩
  · exact issued.trans (issue_later resident free other)
  · have waits : m.wait ≠ .none := fun e => by rw [e] at blocks; cases blocks
    exact issued.trans ((issue_waiting resident waits).trans (look_blocked calm blocks))
  · obtain ⟨t, ran, halts⟩ := halts_of_stuckAt (s := { v with cur := sid }) fun w ok => none_ w (at_v.symm.trans ok)
    rw [issued, issue_waiting resident waits, look_runs calm open_ ran]
    have woke : ¬ (t.strand sid).wait = (v.strand sid).wait := fun e => waits (e.symm.trans halts.wait)
    rw [if_neg woke]
  · rw [issued, issue_waiting resident waits, look_runs calm open_ ((runWord_of_ok (at_v.trans ok) d).trans e)]
  · exact issued.trans ((issue_waiting resident waits).trans (look_asked asked))
  · exact issued.trans (issue_later resident free other)
  · have first : u.preemptsFirst = true := preemptsFirst_due (by rw [me]; exact due)
    exact issued.trans ((issue_asked resident free mine asked).trans (issueAsked_first first))
  · exact stops_of fun stuck => (issued.trans (issue_asked resident free mine asked)).trans
      (issueAsked_stuckAt (by rw [me]; exact free) (by rw [me]; exact due) stuck)
  · have asks : step = u.issueAsked := issued.trans (issue_asked resident free mine asked)
    have next : u.nextInstr = some i := nextInstr_of_ok (at_u.trans ok) d
    have gm : u.me.gm = m.gm := by rw [me]
    have first := preemptsFirst_eq (by rw [me]; exact free) (by rw [me]; exact due) next
    have runs := runWord_of_ok (at_u.trans ok) d
    rw [gm] at first
    refine ⟨fun opens sound => ?_, fun end_ => ?_, fun t late more ran => ?_⟩
    · exact asks.trans (issueAsked_first (first.trans (by rw [opens, sound]; rfl)))
    · subst end_
      exact (asks.trans (issueAsked_end first next)).trans runs
    · have quiet : u.preemptsFirst = false := by
        rw [first]
        rcases late with e | e <;> simp [e]
      have stays : t.cur = u.cur := (stays_unasked d (by rw [gm]; exact late)).cur t ran
      have arm := asks.trans (issueAsked_runs quiet (by rw [next]; exact fun e => more (Option.some.inj e)) (runs.trans ran))
      have seen : u.trapped t = true ↔ trapped t := by
        rw [trapped_iff stays, me]
        rfl
      exact ⟨fun h => arm.trans (if_pos (seen.2 h)), fun h => arm.trans (if_neg fun k => h (seen.1 k))⟩

end Sys2Proof.Machine
end

section
/-! PROOFS. Buffers beside the instructions: the reclaimer (R121), and the buffers that a strand holds while it waits for
one more (R120, R298, R299). -/

namespace Sys2Proof.Machine

/-! ### The reclaimer -/

/-- A buffer given back joins the head of its pool's free list. -/
theorem pool_giveBack (c : Complex) (id : Nat) (far : Bool) : (c.giveBack id).pool far = { c.pool far with
    free := (if idFar id = far then [idIndex id] else []) ++ (c.pool far).free } := by
  unfold Complex.giveBack Complex.pool Complex.setPool
  cases far <;> cases idFar id <;> rfl

theorem giveBack_rest (c : Complex) (id : Nat) : { c.giveBack id with near := c.near, far := c.far } = c := by
  unfold Complex.giveBack Complex.setPool
  cases idFar id <;> rfl

theorem pool_giveBacks (l : List Nat) (c : Complex) (far : Bool) : (l.foldl Complex.giveBack c).pool far = { c.pool far with
    free := ((l.filter fun id => idFar id == far).map idIndex).reverse ++ (c.pool far).free } := by
  induction l generalizing c with
  | nil => rfl
  | cons id l ih =>
      rw [List.foldl_cons, ih, pool_giveBack]
      by_cases h : idFar id = far <;> simp [h]

theorem giveBacks_rest (l : List Nat) (c : Complex) :
    { l.foldl Complex.giveBack c with near := c.near, far := c.far } = c := by
  induction l generalizing c with
  | nil => rfl
  | cons id l ih =>
      rw [List.foldl_cons]
      exact (congrArg (fun d : Complex => { d with near := c.near, far := c.far }) (ih (c.giveBack id))).trans
        (giveBack_rest c id)

/-- What one run of the reclaimer leaves. -/
theorem bufferReclaim_spec (s : State) (x : Nat) : ∃ t, exec (.bufferReclaim x) s = .next t
    ∧ (∀ far, t.pool x far = { s.pool x far with
        free := ((((s.cx x).reclaim.take 8).filter fun id => idFar id == far).map idIndex).reverse ++ (s.pool x far).free })
    ∧ (t.cx x).reclaim = (s.cx x).reclaim.drop 8
    ∧ { t with cxs := s.cxs } = s ∧ (∀ y, y ≠ x → t.cx y = s.cx y)
    ∧ { t.cx x with near := s.pool x false, far := s.pool x true, reclaim := (s.cx x).reclaim } = s.cx x := by
  have rest := giveBacks_rest ((s.cx x).reclaim.take 8) { s.cx x with reclaim := (s.cx x).reclaim.drop 8 }
  refine ⟨_, rfl, fun far => ?_, ?_, rfl, fun y other => ?_, ?_⟩
  · unfold State.pool
    rw [State.cx_setCx_same]
    exact pool_giveBacks ..
  · rw [State.cx_setCx_same]
    have e := congrArg Complex.reclaim rest
    exact e
  · rw [State.cx_setCx, if_neg other]
  · rw [State.cx_setCx_same]
    exact congrArg (fun c : Complex => { c with reclaim := (s.cx x).reclaim }) rest

/-! ### Waiting begins -/

theorem onCx_congr {s t : State} (h : t.strands = s.strands) (x : Nat) : t.onCx x = s.onCx x := by
  unfold State.onCx State.residents
  rw [h]

theorem waitsFor_congr {s t : State} (h : t.strands = s.strands) (far : Bool) (k : Nat) : t.waitsFor far k = s.waitsFor far k := by
  unfold State.waitsFor State.strand
  rw [h]

theorem behind_congr {s t : State} (h : t.strands = s.strands) (cur : t.cur = s.cur) (x : Nat) (far : Bool) :
    t.behind x far = s.behind x far := by
  unfold State.behind
  rw [onCx_congr h, cur]
  simp only [waitsFor_congr h]

/-- No buffer may be taken from an empty pool, and none behind another allocation by a strand that holds none. -/
theorem room_none {s : State} {x : Nat} {far : Bool} (free : s.me.wait = .none)
    (h : (s.pool x far).free = [] ∨ s.behind x far = true) : s.room x far = 0 := by
  have held : s.me.wait.held far = [] := by rw [free]; rfl
  unfold State.room
  dsimp only
  rw [held]
  split
  · rfl
  · next quick =>
      have empty : (s.pool x far).free = [] := h.resolve_right quick
      rw [empty]; rfl

/-- A chain instruction that names neither a stream register nor a register that a copy fills has its effect. -/
theorem noStream_editable {s : State} {w r : List CReg} (h : s.editable w r) (k : Out) : s.noStream w r k = k := by
  obtain ⟨plain, still⟩ := h
  have quiet : (w ++ r).any s.me.streamed = false := by
    rw [List.any_eq_false]
    intro c hc
    simp [plain c hc]
  have settled : w.find? s.copyInto = none := by
    rw [List.find?_eq_none]
    intro c hc
    simp [still c hc]
  unfold State.noStream State.settled
  rw [quiet, settled, if_neg Bool.false_ne_true]

theorem cnew_waits {s : State} {d : CReg} (edit : s.editable [d] []) (enable : s.myPool.enable = true)
    (short : s.myPool.free = [] ∨ s.behind s.myCx s.me.farPool = true) (free : s.me.wait = .none) :
    exec (.cnew d) s = .next (s.waitBuffer s.me.farPool) := by
  have none_ : s.room s.myCx s.me.farPool = 0 := room_none free short
  have fails : s.myAllocs 1 = .error (.buffer s.me.farPool .empty) := by
    have on : (s.pool s.myCx s.me.far).enable = true := enable
    have zero : s.room s.myCx s.me.far = 0 := none_
    unfold State.myAllocs
    dsimp only
    rw [on, zero]
    rfl
  change s.noStream [d] [] _ = _
  rw [noStream_editable edit, fails]
  rfl

theorem hold_nil (p : Pool) : p.hold [] = p := rfl

/-- A strand that can take no buffer waits holding none. -/
theorem waitBuffer_spec {s : State} {far : Bool} (none_ : s.room s.myCx far = 0) :
    (s.waitBuffer far).me = { s.me with wait := .alloc far s.clock [] }
      ∧ ((s.waitBuffer far).pool s.myCx far).free = (s.pool s.myCx far).free
      ∧ (∀ k, k ≠ s.cur → (s.waitBuffer far).strand k = s.strand k)
      ∧ { s.waitBuffer far with strands := s.strands, cxs := s.cxs } = s := by
  unfold State.waitBuffer
  dsimp only
  rw [none_, List.take_zero, hold_nil]
  refine ⟨State.me_setMe .., ?_, fun k other => State.strand_setMe_ne _ other _, rfl⟩
  exact congrArg Pool.free (pool_setPool_same s s.myCx far _)

/-! ### What a waiting strand holds -/

section
variable {s : State} {far : Bool} {since : Nat} {held : List Nat} (waits : s.me.wait = .alloc far since held)
include waits

theorem unheld_eq : s.unheld = s.setPool s.myCx far ((s.pool s.myCx far).unhold held) := by
  unfold State.unheld
  rw [waits]

theorem held_wait : s.me.wait.held far = held := by
  rw [waits]
  unfold Wait.held
  simp

theorem granted_me (b : Nat) : (s.granted far b).me = { s.me with wait := .alloc far s.clock (held ++ [b]) } := by
  unfold State.granted State.waits
  rw [State.me_setMe, unheld_me, held_wait waits]

theorem free_unheld : (s.unheld.pool s.myCx far).free = held ++ (s.pool s.myCx far).free := by
  rw [unheld_eq waits, pool_setPool_same]
  rfl

theorem free_granted (b : Nat) : ((s.granted far b).pool s.myCx far).free = held ++ (s.pool s.myCx far).free :=
  free_unheld waits

theorem room_unheld : s.unheld.room s.myCx far
    = if s.behind s.myCx far then held.length else held.length + (s.pool s.myCx far).free.length := by
  unfold State.room
  dsimp only
  rw [behind_congr (unheld_strands s) (unheld_cur s), unheld_me, held_wait waits, free_unheld waits]
  split
  · rw [List.filter_eq_self.2]
    intro i hi
    simp [hi]
  · exact List.length_append

/-- With none of its buffers on the free list, a strand that gives up returns them all, and the free list is as before. -/
theorem letGo_spec (apart : ∀ i ∈ held, i ∉ (s.pool s.myCx far).free) :
    (s.letGo.pool s.myCx far).free = (s.pool s.myCx far).free
      ∧ (s.letGo.cx s.myCx).reclaim = (s.cx s.myCx).reclaim ++ held.map (mkId far) := by
  have all : held.filter (held ++ (s.pool s.myCx far).free).contains = held := by
    rw [List.filter_eq_self]
    intro i hi
    simp [hi]
  have kept : (held ++ (s.pool s.myCx far).free).filter (fun i => !held.contains i) = (s.pool s.myCx far).free := by
    rw [List.filter_append, List.filter_eq_nil_iff.2, List.filter_eq_self.2, List.nil_append]
    · intro i hi
      have : i ∉ held := fun h => apart i h hi
      simp [this]
    · intro i hi
      simp [hi]
  have queue : (s.unheld.cx s.myCx).reclaim = (s.cx s.myCx).reclaim := by
    rw [unheld_eq waits]
    unfold State.setPool Complex.setPool
    rw [State.cx_setCx_same]
    cases far <;> rfl
  unfold State.letGo
  rw [waits]
  dsimp only
  unfold State.returned
  dsimp only
  rw [free_unheld waits, all, kept]
  split
  · next none_ =>
      have empty : held = [] := List.isEmpty_iff.1 none_
      subst empty
      rw [free_unheld waits, queue]
      simp
  · refine ⟨?_, ?_⟩
    · unfold State.pool
      rw [State.cx_setCx_same]
      have e := congrArg Pool.free (pool_setPool_same s.unheld s.myCx far
        { s.unheld.pool s.myCx far with free := (s.pool s.myCx far).free })
      cases far <;> exact e
    · rw [State.cx_setCx_same]
      dsimp only
      congr 1
      rw [← queue]
      unfold State.setPool Complex.setPool
      rw [State.cx_setCx_same]
      cases far <;> rfl

end

theorem granted_rest (s : State) (far : Bool) (b : Nat) :
    { s.granted far b with cxs := s.cxs, strands := s.strands } = s :=
  congrArg (fun v : State => { v with strands := s.strands }) (unheld_rest s)

/-! ### The strand that has waited longest -/

/-- Strand `sid`, which waits for a buffer since `since`, has waited longest of its complex: of two that began at one
clock, the lower slot's. -/
def State.waitsLongest (s : State) (x : Nat) (far : Bool) (sid since : Nat) : Prop :=
  ∀ k ∈ s.onCx x, ∀ at_, s.waitsFor far k = some at_ → since < at_ ∨ (since = at_ ∧ sid ≤ k)

theorem oldest_iff {s : State} {x sid since : Nat} {far : Bool} {held : List Nat}
    (waits : (s.strand sid).wait = .alloc far since held) : s.oldest x far sid = true ↔ s.waitsLongest x far sid since := by
  have mine : s.waitsFor far sid = some since := by
    unfold State.waitsFor
    rw [waits]
    simp
  unfold State.oldest State.waitsLongest
  rw [List.all_eq_true]
  refine forall₂_congr fun k _ => ?_
  rw [mine]
  cases s.waitsFor far k with
  | none => simp
  | some a => simp [eq_comm (a := a)]

end Sys2Proof.Machine
end

section
/-! PROOFS. A waiting strand is granted a buffer or gives up, and a strand takes a pre-emption at a boundary (R43, R120,
R294, R295, R299). -/

namespace Sys2Proof.Machine

/-! ### The instruction at the PC -/

/-- The instruction at the PC is found again by a step that has changed neither memory nor the strand's place. -/
theorem nextInstr_congr {s t : State} (rest : { t with strands := s.strands, cxs := s.cxs } = s)
    (pc : t.me.pc = s.me.pc) (part : t.me.part = s.me.part) (mode : t.me.mode = s.me.mode) :
    t.nextInstr = s.nextInstr := by
  have cur : t.cur = s.cur := by have e := congrArg State.cur rest; exact e
  have turns : t.turns = s.turns := by have e := congrArg State.turns rest; exact e
  have same : { t with strands := s.strands, cxs := s.cxs, cur := s.cur, turns := s.turns } = s := by
    rw [← cur, ← turns]; exact rest
  have here : t.strand t.cur = t.me := rfl
  have found : t.fetch t.cur t.me.pc.toNat = s.fetch s.cur s.me.pc.toNat := by
    rw [pc, cur]
    exact fetch_congr _ same (by rw [← cur, here]; exact part.trans (by rw [cur]; rfl))
      (by rw [← cur, here]; exact mode.trans (by rw [cur]; rfl))
  unfold State.nextInstr
  rw [found]

theorem nextInstr_unheld (s : State) : s.unheld.nextInstr = s.nextInstr :=
  nextInstr_congr (congrArg (fun v : State => { v with strands := s.strands }) (unheld_rest s)) (by rw [unheld_me])
    (by rw [unheld_me]) (by rw [unheld_me])

theorem nextInstr_granted (s : State) (far : Bool) (b : Nat) : (s.granted far b).nextInstr = s.nextInstr := by
  have me : (s.granted far b).me = { s.me with wait := .alloc far s.unheld.clock (s.me.wait.held far ++ [b]) } := by
    unfold State.granted State.waits
    rw [State.me_setMe, unheld_me]
    have e := congrArg State.clock (unheld_rest s)
    dsimp only at e
    rw [e]
  exact nextInstr_congr (congrArg (fun v : State => { v with strands := s.strands }) (unheld_rest s)) (by rw [me])
    (by rw [me]) (by rw [me])

/-- The chain instructions whose only wait is for buffers. -/
def WaitsForBuffers (i : Instr) : Prop :=
  (∃ d, i = .cnew d) ∨ (∃ d a, i = .cprepElement d a) ∨ (∃ d a, i = .cappElement d a) ∨ (∃ d a, i = .cflat d a)
    ∨ (∃ d a b, i = .cput d a b) ∨ (∃ d a k, i = .cputImm d a k) ∨ ∃ d a, i = .cfill d a

/-- The instructions that issue a copy or a stream, whose descriptor `a` names. -/
def CopiesFrom (i : Instr) (a : SReg) : Prop :=
  i = .cpy a ∨ i = .cpyx a ∨ (∃ d, i = .strm d a) ∨ ∃ d, i = .strmx d a

/-- What a strand tries again after it has waited for a buffer is its instruction. -/
theorem retry_eq {s : State} {i : Instr} (next : s.nextInstr = some i)
    (h : WaitsForBuffers i ∨ (∃ a, CopiesFrom i a) ∨ opensConvoy s.me.gm i = true) : s.retry = exec i s := by
  unfold State.retry
  rw [next]
  rcases h with (⟨d, rfl⟩ | ⟨d, a, rfl⟩ | ⟨d, a, rfl⟩ | ⟨d, a, rfl⟩ | ⟨d, a, b, rfl⟩ | ⟨d, a, k, rfl⟩ | ⟨d, a, rfl⟩)
    | ⟨a, rfl | rfl | ⟨d, rfl⟩ | ⟨d, rfl⟩⟩ | opens
  iterate 11 rfl
  split
  iterate 11 next _ e => rw [Option.some.inj e] at opens; exact absurd opens Bool.false_ne_true
  · next e => rw [Option.some.inj e]; exact (exec_eq_reopen (Option.some.inj e ▸ opens) s).symm
  · next e => cases e

end Sys2Proof.Machine
end

section
/-! PROOFS. Steps beside a strand's instructions: a grant and a time-out of an allocation (R120, R299), a pre-emption at a
boundary (R43, R285, R295), ageing (R36), and a fetch that fails (R286, R296). -/

namespace Sys2Proof.Machine

/-! ### Traps -/

/-- A trap is one of `s` when the strand and its vector were in `s` as where it was taken. -/
theorem Trapped.of_same {s w t : State} {i : Nat} {c : Cause} {epc eval evpos vstart : Word}
    (trap : Trapped w t i c epc eval evpos vstart) (mode : (w.strand i).mode = (s.strand i).mode)
    (estatus : (w.strand i).estatus = (s.strand i).estatus) (redlive : (w.strand i).redlive = (s.strand i).redlive)
    (vector : w.vector i = s.vector i) : Trapped s t i c epc eval evpos vstart where
  epc := trap.epc
  ecause := trap.ecause
  eval := trap.eval
  evpos := trap.evpos
  vstart := trap.vstart
  pc := trap.pc.trans vector
  mode := by rw [trap.mode, mode]
  estatus := by rw [trap.estatus, mode, estatus, redlive]

theorem Trapped.of_strands {s w t : State} {i : Nat} {c : Cause} {epc eval evpos vstart : Word}
    (trap : Trapped w t i c epc eval evpos vstart) (strands : w.strands = s.strands) (parts : w.parts = s.parts)
    (mvec : w.mvec = s.mvec) : Trapped s t i c epc eval evpos vstart := by
  have here : w.strand i = s.strand i := congrArg (Sparse.get Strand.blank i) strands
  refine trap.of_same (by rw [here]) (by rw [here]) (by rw [here]) ?_
  unfold State.vector State.part
  rw [here, parts, mvec]

/-- Buffers are returned after a trap as before it. -/
theorem returned_setStrand (s : State) (i : Nat) (m : Strand) (x : Nat) (far : Bool) (l : List Nat) :
    (s.setStrand i m).returned x far l = (s.returned x far l).setStrand i m := by
  have pool : (s.setStrand i m).pool x far = s.pool x far := rfl
  unfold State.returned
  dsimp only
  rw [pool]
  split <;> rfl

theorem setStrand_rest (s : State) (i : Nat) (m : Strand) : { s.setStrand i m with strands := s.strands } = s := rfl

theorem trapIn_frame (s : State) (i : Nat) (r : TrapRec) :
    (∀ k, k ≠ i → (s.trapIn i r).strand k = s.strand k) ∧ { s.trapIn i r with strands := s.strands } = s :=
  ⟨fun _ other => State.strand_setStrand_ne s other _, rfl⟩

/-- The strand after a trap, beside what the trap writes. -/
theorem trapIn_strand (s : State) (i : Nat) (r : TrapRec) (m : Strand) :
    { (s.trapIn i r).strand i with
        epc := m.epc, ecause := m.ecause, eval := m.eval, evpos := m.evpos, vstart := m.vstart, pc := m.pc
        mode := m.mode, estatus := m.estatus } =
      { s.strand i with
        epc := m.epc, ecause := m.ecause, eval := m.eval, evpos := m.evpos, vstart := m.vstart, pc := m.pc
        mode := m.mode, estatus := m.estatus, wait := .none, again := none } := by
  have e : (s.trapIn i r).strand i = { (s.strand i).enter with
      epc := r.epc, ecause := r.cause.code, eval := r.eval, evpos := r.evpos, vstart := r.vstart
      pc := s.vector i, wait := .none, again := none } := State.strand_setStrand_same ..
  rw [e]
  unfold Strand.enter
  cases (s.strand i).mode <;> rfl

/-! ### A grant -/

section
variable {s : State} {sid : Nat}

theorem allocGrant_none (free : ∀ far since held, (s.strand sid).wait ≠ .alloc far since held) :
    exec (.allocGrant sid) s = .next s := by
  change execAllocGrant sid s = _
  unfold execAllocGrant
  split
  · next e => exact absurd e (free _ _ _)
  · rfl

theorem allocTimeout_none (free : ∀ far since held, (s.strand sid).wait ≠ .alloc far since held) :
    exec (.allocTimeout sid) s = .next s := by
  change execAllocTimeout sid s = _
  unfold execAllocTimeout
  split
  · next e => exact absurd e (free _ _ _)
  · rfl

variable {far : Bool} {since : Nat} {held : List Nat} (waits : (s.strand sid).wait = .alloc far since held)
include waits

theorem allocGrant_later (h : (s.pool (cxOf sid) far).free = [] ∨ ¬ s.waitsLongest (cxOf sid) far sid since) :
    exec (.allocGrant sid) s = .next s := by
  change execAllocGrant sid s = _
  unfold execAllocGrant
  rw [waits]
  dsimp only
  split
  · rfl
  · next some_ =>
      have late : ¬ s.oldest (cxOf sid) far sid = true :=
        fun old => (h.resolve_left (by simp [some_])) ((oldest_iff waits).1 old)
      rw [if_neg late]

theorem allocGrant_first {b : Nat} {rest : List Nat} (free : (s.pool (cxOf sid) far).free = b :: rest)
    (first : s.waitsLongest (cxOf sid) far sid since) {i : Instr}
    (next : ({ s with cur := sid } : State).nextInstr = some i)
    (again : WaitsForBuffers i ∨ (∃ a, CopiesFrom i a) ∨ opensConvoy (s.strand sid).gm i = true) :
    exec (.allocGrant sid) s
      = giveBack (cxOf sid) far (held ++ [b]) (exec i (({ s with cur := sid } : State).granted far b)) := by
  have me : (({ s with cur := sid } : State).granted far b).me.gm = (s.strand sid).gm := by
    rw [granted_me (s := { s with cur := sid }) waits]
    rfl
  change execAllocGrant sid s = _
  unfold execAllocGrant
  rw [waits]
  dsimp only
  rw [free]
  dsimp only
  rw [if_pos ((oldest_iff waits).2 first), retry_eq ((nextInstr_granted _ far b).trans next) (by rw [me]; exact again)]

/-! ### A time-out -/

theorem allocTimeout_early (early : s.clock < since + 4096) : exec (.allocTimeout sid) s = .next s := by
  change execAllocTimeout sid s = _
  unfold execAllocTimeout
  rw [waits]
  dsimp only
  rw [if_pos early]

theorem allocTimeout_late (late : since + 4096 ≤ s.clock) : exec (.allocTimeout sid) s
    = giveBack (cxOf sid) far held (({ s with cur := sid } : State).unheld.outOfBuffers far) := by
  change execAllocTimeout sid s = _
  unfold execAllocTimeout
  rw [waits]
  dsimp only
  rw [if_neg (Nat.not_lt.2 late)]

/-- A time-out that traps: what the strand had been granted is returned. -/
theorem allocTimeout_traps (late : since + 4096 ≤ s.clock) {eval : Word}
    (fails : ({ s with cur := sid } : State).unheld.outOfBuffers far
      = .next (({ s with cur := sid } : State).unheld.trap .pool eval)) :
    ∃ t, exec (.allocTimeout sid) s = .next t ∧ Trapped s t sid .pool (s.strand sid).pc eval 0 0
      ∧ Moves s t sid (t.strand sid) ({ s with cur := sid } : State).letGo := by
  generalize hu : ({ s with cur := sid } : State) = u at fails
  have cur : u.cur = sid := hu ▸ rfl
  have me : u.me = s.strand sid := by rw [← hu]; rfl
  have back : u.unheld.returned (cxOf sid) far held = u.letGo := by
    unfold State.letGo
    rw [me, waits]
    dsimp only
    rw [← cur]
    rfl
  have strands : u.letGo.strands = s.strands := by rw [letGo_strands, ← hu]
  have vector : u.unheld.vector sid = s.vector sid := by
    have parts : u.unheld.parts = s.parts := by
      have e := congrArg State.parts (unheld_rest u); dsimp only at e; rw [e, ← hu]
    have mvec : u.unheld.mvec = s.mvec := by
      have e := congrArg State.mvec (unheld_rest u); dsimp only at e; rw [e, ← hu]
    unfold State.vector State.strand State.part
    rw [parts, mvec, unheld_strands, ← hu]
  obtain ⟨trap, -⟩ := trap_spec u.unheld .pool eval
  rw [unheld_cur, unheld_me, cur, me] at trap
  have end_ : (u.unheld.trap .pool eval).returned (cxOf sid) far held
      = u.letGo.setStrand sid ((u.unheld.trap .pool eval).strand sid) := by
    have same : (u.unheld.trap .pool eval) = u.unheld.setStrand u.unheld.cur ((u.unheld.trap .pool eval).strand u.unheld.cur) := by
      unfold State.trap State.trapIn
      rw [State.strand_setStrand_same]
    rw [unheld_cur, cur] at same
    rw [← back, ← returned_setStrand, ← same]
  have here : (u.letGo.setStrand sid ((u.unheld.trap .pool eval).strand sid)).strand sid
      = (u.unheld.trap .pool eval).strand sid := State.strand_setStrand_same ..
  have strand : u.unheld.strand sid = s.strand sid := by unfold State.strand; rw [unheld_strands, ← hu]
  refine ⟨_, (allocTimeout_late waits late).trans (by rw [hu, fails]; exact congrArg Host.Outcome.next end_), ?_, ?_⟩
  · refine Trapped.of_same (w := u.unheld) ?_ (by rw [strand]) (by rw [strand]) (by rw [strand]) vector
    obtain ⟨a, b, c, d, e, f, g, h⟩ := trap
    constructor <;> rw [here] <;> assumption
  · refine ⟨rfl, fun k other => ?_, setStrand_rest ..⟩
    rw [State.strand_setStrand_ne _ other]
    unfold State.strand
    rw [strands]

end

theorem outOfBuffers_waits {s : State} {i : Instr} (next : s.nextInstr = some i) (h : WaitsForBuffers i) (far : Bool) :
    s.outOfBuffers far = .next (s.trap .pool (noBufferEval far .empty)) := by
  unfold State.outOfBuffers
  rw [next]
  rcases h with ⟨d, rfl⟩ | ⟨d, a, rfl⟩ | ⟨d, a, rfl⟩ | ⟨d, a, rfl⟩ | ⟨d, a, b, rfl⟩ | ⟨d, a, k, rfl⟩ | ⟨d, a, rfl⟩ <;> rfl

theorem outOfBuffers_copies {s : State} {i : Instr} {a : SReg} (next : s.nextInstr = some i) (h : CopiesFrom i a) (far : Bool) :
    s.outOfBuffers far = .next (s.trap .pool (s.reg a)) := by
  unfold State.outOfBuffers
  rw [next]
  rcases h with rfl | rfl | ⟨d, rfl⟩ | ⟨d, rfl⟩ <;> rfl

theorem noBufferEval_empty (far : Bool) : noBufferEval far .empty = if far then 1 else 0 := by
  cases far <;> rfl

/-! ### A pre-emption -/

/-- What a pre-emption leaves, taken by strand `sid` with `eval` free, beside what a trap writes: the request answered, and
monitor strands that waited in `wfi`. -/
structure Preempted (s t : State) (sid : Nat) (epc eval evpos vstart : Word) : Prop where
  trap   : Trapped s t sid .preemption epc eval evpos vstart
  strand : ∀ m : Strand, { t.strand sid with
      epc := m.epc, ecause := m.ecause, eval := m.eval, evpos := m.evpos, vstart := m.vstart, pc := m.pc
      mode := m.mode, estatus := m.estatus } = { s.strand sid with
        epc := m.epc, ecause := m.ecause, eval := m.eval, evpos := m.evpos, vstart := m.vstart, pc := m.pc
        mode := m.mode, estatus := m.estatus, wait := .none, again := none, preq := false, due := false }
  others : ∀ k, k ≠ sid → (s.strand k).wait ≠ .wfi → t.strand k = s.strand k
  rest   : { t with strands := s.strands, parts := s.parts, freeCount := s.freeCount } = s
  parts  : ∀ q, t.part q = if q < 16 then (s.part q).resolved 1 sid else s.part q

theorem preempted_spec {s : State} {sid : Nat} (asked : (s.strand sid).preq = true) (epc vstart evpos : Word) :
    Preempted s (s.preempted sid epc vstart evpos) sid epc s.free.1 evpos vstart := by
  obtain ⟨rest, parts, others, strand⟩ := resolvePreq_asked (s := s.free.2) (res := 1) (sid := sid) asked
  generalize hw : s.free.2.resolvePreq 1 sid = w at rest parts others strand
  have free (k : Nat) : s.free.2.strand k = s.strand k := rfl
  have part (q : Nat) : s.free.2.part q = s.part q := rfl
  have evec (q : Nat) : (w.part q).evec = (s.part q).evec := by
    rw [parts, part]
    split
    · have e := Partition.resolved_except 1 sid (s.part q)
      have e := congrArg Partition.evec e
      exact e
    · rfl
  have mvec : w.mvec = s.mvec := by have e := congrArg State.mvec rest; exact e
  have same : { w.strand sid with pc := (s.strand sid).pc, wait := .none, again := none }
      = { s.strand sid with preq := false, due := false, wait := .none, again := none } := by
    rcases strand with e | ⟨-, e⟩ <;> rw [e] <;> rfl
  have mode : (w.strand sid).mode = (s.strand sid).mode := by have e := congrArg Strand.mode same; exact e
  have home : (w.strand sid).part = (s.strand sid).part := by have e := congrArg Strand.part same; exact e
  have t_eq : s.preempted sid epc vstart evpos = w.trapIn sid
      { cause := .preemption, epc := epc, eval := s.free.1, evpos := evpos, vstart := vstart } := by
    unfold State.preempted
    dsimp only
    rw [hw]
  rw [t_eq]
  obtain ⟨other_strands, frame⟩ := trapIn_frame w sid
    { cause := .preemption, epc := epc, eval := s.free.1, evpos := evpos, vstart := vstart }
  refine ⟨?_, fun m => ?_, fun k other active => ?_, ?_, fun q => parts q⟩
  · refine (trapIn_trapped w sid _).of_same mode (by have e := congrArg Strand.estatus same; exact e)
      (by have e := congrArg Strand.redlive same; exact e) ?_
    unfold State.vector
    rw [mode, home, mvec, evec]
  · rw [trapIn_strand]
    exact congrArg (fun n : Strand => { n with
      epc := m.epc, ecause := m.ecause, eval := m.eval, evpos := m.evpos, vstart := m.vstart, pc := m.pc
      mode := m.mode, estatus := m.estatus }) same
  · rw [other_strands k other]
    exact (others k other).resolve_right fun e => active e.1
  · exact congrArg (fun v : State => { v with freeCount := s.freeCount }) rest

end Sys2Proof.Machine
end

section
/-! PROOFS. Convoys of one element-wise member that may be interrupted: what such a member is, how the instruction opens
its run, and the elements that the run takes (R37, R130, R289). -/

namespace Sys2Proof.Machine

/-! ### Formats and packed results -/

/-- The widths of the formats that `gm` can name (R58). -/
def formatWidths : List Nat := [2, 4, 8, 16, 32, 64]

theorem bits_ofCode (c : BitVec 5) : ((Fmt.ofCode c.toNat).getD (.i 8)).bits ∈ formatWidths := by
  revert c
  decide +kernel

theorem fmtA_bits (g : Gm) : g.fmtA.bits ∈ formatWidths := bits_ofCode g.fa

theorem fmtB_bits (g : Gm) : g.fmtB.bits ∈ formatWidths := bits_ofCode g.fb

/-- A list cut into pairs or into runs of four. -/
theorem length_chunksOf {α : Type} {k : Nat} (hk : k = 2 ∨ k = 4) (fuel : Nat) (l : List α) (enough : l.length ≤ fuel) :
    (chunksOf k fuel l).length = (l.length + k - 1) / k := by
  induction fuel generalizing l with
  | zero =>
      have empty : l = [] := List.eq_nil_of_length_eq_zero (Nat.le_zero.1 enough)
      subst empty
      rcases hk with rfl | rfl <;> simp [chunksOf]
  | succ fuel ih =>
      cases l with
      | nil => rcases hk with rfl | rfl <;> simp [chunksOf]
      | cons a l =>
          have step : (chunksOf k (fuel + 1) (a :: l)).length = (chunksOf k fuel ((a :: l).drop k)).length + 1 := rfl
          rw [List.length_cons] at enough
          rw [step, ih _ (by rw [List.length_drop, List.length_cons]; omega), List.length_drop, List.length_cons]
          rcases hk with rfl | rfl <;> omega

/-- Packed patterns fill whole bytes, the last one with zeros (R95). -/
theorem length_pack {w : Nat} (hw : w ∈ formatWidths) (l : List Nat) : (pack w l).length = (l.length * w + 7) / 8 := by
  have wide (k : Nat) : (l.flatMap fun v => leBytes k v).length = l.length * k := by
    rw [List.length_flatMap]
    simp
  unfold pack
  have cases_ : w = 2 ∨ w = 4 ∨ w = 8 ∨ w = 16 ∨ w = 32 ∨ w = 64 := by simpa [formatWidths] using hw
  rcases cases_ with rfl | rfl | rfl | rfl | rfl | rfl
  · rw [if_neg (by decide), List.length_map, length_chunksOf (.inr rfl) _ _ (Nat.le_refl _)]
    omega
  · rw [if_neg (by decide), List.length_map, length_chunksOf (.inl rfl) _ _ (Nat.le_refl _)]
    omega
  all_goals
    rw [if_pos (by decide), wide]
    omega

/-! ### Element-wise members -/

/-- What an element-wise instruction asks of the convoy machine beside its operands and its operation. -/
structure Elementwise (m : Member) (g : Gm) : Prop where
  loads   : m.loads = 0
  stores  : m.stores = 0
  mwrite  : m.mwrite = none
  swrite  : m.swrite = none
  counted : m.counted = true
  widths  : ∀ d ∈ m.dests, d.2 = g.fmtA.bits ∨ d.2 = g.fmtB.bits

theorem elementwise_of_memberOf {i : Instr} {g : Gm} {m : Member} (ew : elementwise i = true) (h : memberOf g i = some m) :
    Elementwise m g := by
  have result (d : CReg) : ∀ e ∈ [(d, g.fmtA.bits)], e.2 = g.fmtA.bits ∨ e.2 = g.fmtB.bits := by
    intro e he; rw [List.mem_singleton.1 he]; exact .inl rfl
  have resultB (d : CReg) : ∀ e ∈ [(d, g.fmtB.bits)], e.2 = g.fmtA.bits ∨ e.2 = g.fmtB.bits := by
    intro e he; rw [List.mem_singleton.1 he]; exact .inr rfl
  cases i
  case vadd | vsub | vmul | vfma | vfms | vdiv | vmin | vmax | vand | vor | vxor | vshl | vshr | vsra | vfsh | vbext |
      vabs | vneg | vpopc | vclz | vsel | vaddScalar | vsubScalar | vmulScalar | vfmaScalar | vfmsScalar | vdivScalar |
      vminScalar | vmaxScalar | vandScalar | vorScalar | vxorScalar | vshlScalar | vshrScalar | vsraScalar |
      vfshScalar | vbextScalar | vselScalar | vexp2 | vrcp | vsqrt | vidx | vmv | vmvScalar =>
    rw [← Option.some.inj h]
    exact ⟨rfl, rfl, rfl, rfl, rfl, result _⟩
  case vcvt | vcvtSat =>
    rw [← Option.some.inj h]
    exact ⟨rfl, rfl, rfl, rfl, rfl, resultB _⟩
  all_goals exact absurd ew Bool.false_ne_true

/-- The result of an element-wise member is one of the formats of `gm`. -/
theorem Elementwise.width {m : Member} {g : Gm} (h : Elementwise m g) {d : CReg} {w : Nat} (dests : m.dests = [(d, w)]) :
    w ∈ formatWidths := by
  rcases h.widths (d, w) (by rw [dests]; exact List.mem_singleton.2 rfl) with e | e
  · exact (show w = _ from e) ▸ fmtA_bits g
  · exact (show w = _ from e) ▸ fmtB_bits g

theorem formatWidths_pos {w : Nat} (h : w ∈ formatWidths) : 0 < w := by
  have cases_ : w = 2 ∨ w = 4 ∨ w = 8 ∨ w = 16 ∨ w = 32 ∨ w = 64 := by simpa [formatWidths] using h
  omega

theorem le_foldl_max (l : List Nat) (a x : Nat) (h : x = a ∨ x ∈ l) : x ≤ l.foldl Nat.max a := by
  induction l generalizing a x with
  | nil => exact Nat.le_of_eq (h.resolve_right List.not_mem_nil)
  | cons b l ih =>
      rw [List.foldl_cons]
      rcases h with rfl | h
      · exact (Nat.le_max_left x b).trans (ih (Nat.max x b) _ (.inl rfl))
      · rcases List.mem_cons.1 h with rfl | h
        · exact (Nat.le_max_right a x).trans (ih (Nat.max a x) _ (.inl rfl))
        · exact ih _ _ (.inr h)

/-- W of R289 is at least the width of a result. -/
theorem Elementwise.le_counts {m : Member} {g : Gm} (h : Elementwise m g) {d : CReg} {w : Nat} (dests : m.dests = [(d, w)]) :
    w ≤ m.counts.foldl Nat.max 0 := by
  refine le_foldl_max _ _ _ (.inr ?_)
  unfold Member.counts
  rw [h.counted, dests]
  simp

/-! ### From the instruction to its run -/

/-- The fault that a pre-emption at element `v` stands for. -/
def preemptHit (v : Nat) : Hit := { e := v, pos := 0, at_ := v, cause := .preemption, eval := 0 }

/-- The run that lone member `m` opens in `s`, `b` being what is to stop it. -/
def openedWith (s : State) (m : Member) (b : Option Hit) : Run := { openRun s [m] [s.me.pc] with best := b }

/-- The convoy of a lone element-wise member is its loop, and what settles it. -/
theorem reopen_alone {i : Instr} {s : State} {m : Member} (h : Opens i s m) (ew : Elementwise m s.me.gm)
    {op : Nat → List Nat → Nat → Bool → Nat × Flags} {scal : Option (SReg × Nat)} {sel : Option MReg} {mrg : Bool}
    (body : m.body = .map op scal sel mrg) (fails : Bool) (pre : Option Nat) :
    s.reopen i fails pre = (Run.loop (openedWith s m (pre.map preemptHit)).fuel (openedWith s m (pre.map preemptHit))).settles
      s s [] fails pre s.me.pc := by
  have member := h.member
  have convoy : s.reopen i fails pre = s.convoy i fails pre := by
    unfold State.reopen
    split
    · cases member
    · cases member
    · rfl
  have words : (if m.closes then [] else s.gatherWords s.me.gm 8 (s.me.pc + 4)) = [] := by
    rcases h.next with closes | next
    · rw [if_pos closes]
    · rw [gatherWords_scalar next]; split <;> rfl
  have still : m.writes.find? s.copyInto = none := by
    rw [List.find?_eq_none]; intro c hc; simp [h.still c hc]
  have narrow : ∀ sc : Scan, sc.ms = [m] → sc.widens s.me = false := by
    intro sc e
    unfold Scan.widens
    rw [e]
    simp only [List.any_cons, List.any_nil, Bool.or_false, List.any_eq_false]
    intro c hc
    have plain := h.plain c.reg (List.mem_append_left _ (List.mem_map.2 ⟨c, hc, rfl⟩))
    unfold Strand.streamed at plain
    cases stream : (s.me.chain c.reg).stream <;> simp [stream] at plain ⊢
  have comp : m.isComp = false := by unfold Member.isComp; rw [body]
  rw [convoy]
  unfold State.convoy
  rw [member]
  simp only [words, State.runConvoy]
  rw [scan_alone h (by rw [ew.loads]; decide) (by rw [ew.stores]; decide)]
  simp only [still, State.pops, List.map_nil, List.map_cons, List.foldl_nil]
  rw [narrow _ rfl, if_neg Bool.false_ne_true]
  cases pre with
  | none => rfl
  | some v => simp [body, comp, Run.hitAt, openRun, openedWith, preemptHit]

end Sys2Proof.Machine
end

section
/-! PROOFS. The elements that the run of a lone element-wise member takes, to its end or to the element at which it is
interrupted (R130, R291). -/

namespace Sys2Proof.Machine

/-! ### One element -/

theorem chainElem_known (s : State) (x : Nat) (l : List Seg) (f : Fmt) (e : Nat) :
    s.chainElem x l f e ≠ .wait ∧ s.chainElem x l f e ≠ .short := by
  unfold State.chainElem
  split
  · exact ⟨nofun, nofun⟩
  · dsimp only
    split <;> exact ⟨nofun, nofun⟩

theorem gotAll_known (l : List (Got Nat)) (h : ∀ g ∈ l, g ≠ .wait ∧ g ≠ .short) : gotAll l ≠ .wait ∧ gotAll l ≠ .short := by
  induction l with
  | nil => exact ⟨nofun, nofun⟩
  | cons g l ih =>
      obtain ⟨here, more⟩ := List.forall_mem_cons.1 h
      obtain ⟨later, ends⟩ := ih more
      unfold gotAll
      cases g <;> cases all : gotAll l <;> simp_all

/-! The parts of `State.mapElement`, by what the element is. -/

/-- The broadcast scalar of an element-wise member, cut to its width (R140). -/
def State.scalarOf (s : State) : Option (SReg × Nat) → Nat
  | some (a, b) => (s.reg a).toNat % 2 ^ b
  | none => 0

/-- The bit by which `vsel` chooses (R140). -/
def State.selected (s : State) (e : Nat) : Option MReg → Bool
  | some q => (s.me.mask q).getLsbD e
  | none => false

section
variable {s : State} {m : Member} {op : Nat → List Nat → Nat → Bool → Nat × Flags} {scal : Option (SReg × Nat)}
  {sel : Option MReg} {mrg : Bool} {e : Nat}

theorem mapElement_active (active : s.active e = true) {l : List Nat}
    (all : gotAll (m.bound.map fun c => s.operand c e) = .val l) :
    s.mapElement m op scal sel mrg e = .val (op e l (s.scalarOf scal) (s.selected e sel)) := by
  unfold State.mapElement State.mapFrom
  rw [if_pos active, all]
  cases scal <;> cases sel <;> rfl

theorem mapElement_bad (active : s.active e = true) {c : Cause} {n : Note}
    (all : gotAll (m.bound.map fun c => s.operand c e) = .bad c n) : s.mapElement m op scal sel mrg e = .bad c n := by
  unfold State.mapElement State.mapFrom
  rw [if_pos active, all]

/-- An element that is not active is zero, or the old one under the merge bit. -/
theorem mapElement_idle (idle : ¬ s.active e = true) {v : Nat × Flags} (value : s.mapElement m op scal sel mrg e = .val v) :
    (mrg = false ∧ v = (0, 0)) ∨ (mrg = true ∧ ∃ w, s.oldElement (m.dests.headD (0, 8)) e = .val w ∧ v = (w, 0)) := by
  unfold State.mapElement State.mapFrom at value
  rw [if_neg idle] at value
  cases mrg with
  | false => exact .inl ⟨rfl, (Got.val.inj value).symm⟩
  | true =>
      rw [if_pos rfl] at value
      cases old : s.oldElement (m.dests.headD (0, 8)) e with
      | val w => rw [old] at value; exact .inr ⟨rfl, w, rfl, (Got.val.inj value).symm⟩
      | bad c n => rw [old] at value; cases value
      | wait => rw [old] at value; cases value
      | short => rw [old] at value; cases value

end

section
variable {r : Run} {s : State} {m : Member} (st : r.st = s.me)
include st

theorem active_opened (gk : s.me.gm.gk = false) (w e : Nat) : r.active w e = s.active e := by
  unfold Run.active State.active
  dsimp only
  rw [st, gk]
  rfl

theorem broadcast_opened (scal : Option (SReg × Nat)) : r.broadcast 0 scal = .val (s.scalarOf scal) := by
  cases scal with
  | none => rfl
  | some x => exact congrArg (fun t : Strand => Got.val ((t.reg x.1).toNat % 2 ^ x.2)) st

theorem optBit_opened (e : Nat) (sel : Option MReg) : r.optBit 0 e sel = .val (s.selected e sel) := by
  cases sel with
  | none => rfl
  | some q => exact congrArg (fun t : Strand => Got.val ((t.mask q).getLsbD e)) st

variable (scratch : r.s = s)
include scratch

/-- An operand that no earlier member writes is read from the chain that it held when the convoy opened. -/
theorem src_opened {c : Src} {e : Nat} (plain : s.me.streamed c.reg = false) (below : e < s.lenOf c) :
    r.src 0 c e = s.operand c e := by
  have stream : (s.me.chain c.reg).stream = none := by
    unfold Strand.streamed at plain
    simpa using plain
  have data : (s.me.chain c.reg).data = (s.me.chain c.reg).segs := by unfold Chain.data; rw [stream]
  have opened : (s.me.chain c.reg).opened c.fmt = s.lenOf c := by unfold Chain.opened; rw [stream]; rfl
  have inside : (e + 1) * c.fmt.bits ≤ 8 * segsLen (s.me.chain c.reg).segs := by
    rw [Nat.mul_comm 8]
    exact Nat.mul_le_of_le_div _ _ _ below
  unfold Run.src
  have none_ : r.producer 0 c.reg = none := rfl
  rw [none_, st, scratch]
  dsimp only
  rw [opened, data, if_neg (Nat.not_le.2 below), if_pos inside]
  rfl

theorem srcs_opened {e : Nat} (plain : ∀ c ∈ m.bound, s.me.streamed c.reg = false) (below : ∀ c ∈ m.bound, e < s.lenOf c) :
    r.srcs 0 e m = gotAll (m.bound.map fun c => s.operand c e) := by
  unfold Run.srcs
  congr 1
  exact List.map_congr_left fun c hc => src_opened st scratch (plain c hc) (below c hc)

theorem oldElem_opened (d : CReg × Nat) (e : Nat) : r.oldElem d e = s.oldElement d e := by
  unfold Run.oldElem State.oldElement
  rw [st, scratch]

/-- One element of a lone element-wise member. -/
theorem stepMap_opened {e : Nat} {op : Nat → List Nat → Nat → Bool → Nat × Flags} {scal : Option (SReg × Nat)}
    {sel : Option MReg} {mrg : Bool} {v : Nat × Flags} (gk : s.me.gm.gk = false)
    (plain : ∀ c ∈ m.bound, s.me.streamed c.reg = false) (below : ∀ c ∈ m.bound, e < s.lenOf c)
    (value : s.mapElement m op scal sel mrg e = .val v) : r.stepMap 0 e m op scal sel mrg = some (r.push 0 v) := by
  have known : gotAll (m.bound.map fun c => s.operand c e) ≠ .wait ∧ gotAll (m.bound.map fun c => s.operand c e) ≠ .short := by
    refine gotAll_known _ fun g hg => ?_
    obtain ⟨c, -, rfl⟩ := List.mem_map.1 hg
    exact chainElem_known ..
  have guarded : r.guarded r.fab e = r := by
    unfold Run.guarded
    rw [st, gk]
    rfl
  unfold Run.stepMap
  rw [srcs_opened st scratch plain below]
  by_cases active : s.active e = true
  · cases all : gotAll (m.bound.map fun c => s.operand c e) with
    | wait => exact absurd all known.1
    | short => exact absurd all known.2
    | bad c n => rw [mapElement_bad active all] at value; cases value
    | val l =>
        rw [mapElement_active active all] at value
        dsimp only
        rw [guarded, active_opened st gk, if_neg (by simp [active]), broadcast_opened st, optBit_opened st,
          ← Got.val.inj value]
  · have off : (!r.active r.fab e) = true := by rw [active_opened st gk]; simp [active]
    have idle := mapElement_idle active value
    cases all : gotAll (m.bound.map fun c => s.operand c e) with
    | wait => exact absurd all known.1
    | short => exact absurd all known.2
    | bad | val =>
        dsimp only
        rw [guarded, if_pos off]
        rcases idle with ⟨rfl, rfl⟩ | ⟨rfl, w, old, rfl⟩
        · rfl
        · rw [oldElem_opened st scratch, old]; rfl

end

end Sys2Proof.Machine
end

section
/-! PROOFS. The loop of a lone element-wise member: to its last element, or to the element at which it is interrupted (R130,
R291). -/

namespace Sys2Proof.Machine

/-! ### Element counts -/

theorem foldl_min_le (f : Src → Nat) (l : List Src) (n : Nat) :
    l.foldl (fun n c => Min.min n (f c)) n ≤ n ∧ ∀ c ∈ l, l.foldl (fun n c => Min.min n (f c)) n ≤ f c := by
  induction l generalizing n with
  | nil => exact ⟨Nat.le_refl n, nofun⟩
  | cons a l ih =>
      obtain ⟨start, all⟩ := ih (Min.min n (f a))
      refine ⟨start.trans (Nat.min_le_left ..), fun c hc => ?_⟩
      rcases List.mem_cons.1 hc with rfl | hc
      · exact start.trans (Nat.min_le_right ..)
      · exact all c hc

theorem countFor_le_vl (s : State) (m : Member) : s.countFor m ≤ s.me.vl.toNat := (foldl_min_le s.lenOf m.bound _).1

theorem countFor_le_len (s : State) (m : Member) {c : Src} (hc : c ∈ m.bound) : s.countFor m ≤ s.lenOf c :=
  (foldl_min_le s.lenOf m.bound _).2 c hc

theorem minLen_opened {r : Run} {s : State} (st : r.st = s.me) (l : List Src)
    (plain : ∀ c ∈ l, s.me.streamed c.reg = false) (n : Nat) :
    r.minLen 0 n l = .val (l.foldl (fun n c => Min.min n (s.lenOf c)) n) := by
  induction l generalizing n with
  | nil => rfl
  | cons c l ih =>
      have stream : (s.me.chain c.reg).stream = none := by
        have p := plain c (List.mem_cons_self ..)
        unfold Strand.streamed at p
        simpa using p
      have len : r.len 0 c = .val (s.lenOf c) := by
        unfold Run.len
        have none_ : r.producer 0 c.reg = none := rfl
        rw [none_, st]
        dsimp only
        unfold Chain.opened
        rw [stream]
        rfl
      rw [Run.minLen, len]
      exact ih (fun c hc => plain c (List.mem_cons_of_mem _ hc)) _

/-! ### Candidates -/

theorem cands_going {r : Run} {m : Member} (ms : r.ms = [m]) (last : m.last = false) (going : (r.prog 0).fin = false)
    (below : ∀ b, r.best = some b → (r.prog 0).done < b.e) : r.cands = [((r.prog 0).done, 0)] := by
  unfold Run.cands
  rw [ms]
  cases best : r.best with
  | none => simp [last, going, insKey]
  | some b => simp [last, going, insKey, below b best]

theorem cands_reached {r : Run} {m : Member} {b : Hit} (ms : r.ms = [m]) (best : r.best = some b) (pos : b.pos = 0)
    (reached : b.e ≤ (r.prog 0).done) : r.cands = [] := by
  unfold Run.cands
  rw [ms]
  simp [best, pos, Nat.not_lt.2 reached]

theorem cands_finished {r : Run} {m : Member} (ms : r.ms = [m]) (fin : (r.prog 0).fin = true) : r.cands = [] := by
  unfold Run.cands
  rw [ms]
  simp [fin]

theorem loop_stops {r : Run} (cell : r.cell = false) (none_ : r.cands = []) (fuel : Nat) : Run.loop fuel r = r := by
  cases fuel with
  | zero => rfl
  | succ fuel => simp [Run.loop, cell, none_, Run.pick, Run.inOrder]

theorem loop_moves {r t : Run} {k : Nat} (cell : r.cell = false) (one : r.cands = [(k, 0)]) (step : r.step 0 = some t)
    (fuel : Nat) : Run.loop (fuel + 1) r = Run.loop fuel t := by
  simp [Run.loop, cell, one, Run.pick, Run.inOrder, step]

/-! ### The run of an element-wise member -/

/-- The flags that the elements below `k` have raised, the newest first. -/
def raisedBelow (R : Nat → Nat × Flags) : Nat → List (Nat × Flags)
  | 0 => []
  | k + 1 => if (R k).2 = 0 then raisedBelow R k else (k, (R k).2) :: raisedBelow R k

/-- The progress of a member of `n` elements that has handled the first `k`, with the results `R`. -/
def mapProg (n k : Nat) (fin : Bool) (R : Nat → Nat × Flags) : Prog :=
  { begun := true, fin := fin, n := some n, done := k
    outs := [((List.range k).map fun e => (R e).1).toArray], flags := raisedBelow R k }

/-- The run that `m` has opened in `s` when it has handled `k` of its `n` elements. -/
def mapRun (s : State) (m : Member) (b : Option Hit) (n k : Nat) (fin : Bool) (R : Nat → Nat × Flags) : Run :=
  { openedWith s m b with progs := [mapProg n k fin R] }

theorem push_mapRun (s : State) (m : Member) (R : Nat → Nat × Flags) (b : Option Hit) (n k : Nat) : (mapRun s m b n k false R).push 0 (R k) = mapRun s m b n (k + 1) false R := by
  unfold Run.push mapRun Run.setProg Run.prog mapProg
  dsimp only [List.getD_cons_zero, List.set_cons_zero]
  congr 2
  simp [List.range_succ, raisedBelow]

theorem fuel_openedWith (s : State) (m : Member) (b : Option Hit) : ∃ f, (openedWith s m b).fuel = f + (s.countFor m + 1) ∧ 0 < f := by
  have le := countFor_le_vl s m
  have fuel : (openedWith s m b).fuel = 1 * (Nat.max s.me.vl.toNat 1024 + 3) := rfl
  have max : s.me.vl.toNat ≤ Nat.max s.me.vl.toNat 1024 := Nat.le_max_left ..
  exact ⟨(openedWith s m b).fuel - (s.countFor m + 1), by omega, by omega⟩

/-- Lone element-wise member `m`, which `i` opens in `s`, has the results `R` for chain register `d`, of `w` bits each. -/
structure Computes (i : Instr) (s : State) (m : Member) (d : CReg) (w : Nat) (R : Nat → Nat × Flags) : Prop
    extends Alone i s m where
  ew    : Elementwise m s.me.gm
  dests : m.dests = [(d, w)]
  value : ∃ op scal sel mrg, m.body = .map op scal sel mrg
    ∧ ∀ k, k < s.countFor m → s.mapElement m op scal sel mrg k = .val (R k)

section
variable {i : Instr} {s : State} {m : Member} {d : CReg} {w : Nat} {R : Nat → Nat × Flags} (h : Computes i s m d w R)
include h

theorem Computes.plainBound : ∀ c ∈ m.bound, s.me.streamed c.reg = false := fun c hc =>
  h.plain c.reg (List.mem_append_left _ (List.mem_map.2 ⟨c, List.mem_append_left _ hc, rfl⟩))

theorem Computes.last : m.last = false := by
  obtain ⟨op, scal, sel, mrg, body, -⟩ := h.value
  unfold Member.last
  rw [body]

theorem Computes.notComp : m.isComp = false := by
  obtain ⟨op, scal, sel, mrg, body, -⟩ := h.value
  unfold Member.isComp
  rw [body]

theorem Computes.notMask : m.isMask = false := by
  obtain ⟨op, scal, sel, mrg, body, -⟩ := h.value
  unfold Member.isMask
  rw [body]

theorem limit_mapRun (b : Option Hit) (n k : Nat) (fin : Bool) : (mapRun s m b n k fin R).limit 0 m = n := by
  unfold Run.limit
  rw [h.notComp]
  rfl

/-- The member begins with its element count and no result. -/
theorem step_begins (b : Option Hit) : (openedWith s m b).step 0 = some (mapRun s m b (s.countFor m) 0 false R) := by
  obtain ⟨op, scal, sel, mrg, body, -⟩ := h.value
  have count : (openedWith s m b).minLen 0 (openedWith s m b).vl m.bound = .val (s.countFor m) :=
    minLen_opened rfl m.bound h.plainBound _
  have start : (openedWith s m b).vstart = 0 := by
    have e := congrArg BitVec.toNat h.start; exact e
  have opens : (openedWith s m b).opens 0 m (s.countFor m) = mapRun s m b (s.countFor m) 0 false R := by
    unfold Run.opens
    rw [start, h.ew.mwrite]
    dsimp only
    rw [show Nat.min 0 (s.countFor m) = 0 from Nat.zero_min _]
    unfold Run.oldBad
    rw [h.dests]
    rfl
  have step : (openedWith s m b).step 0 = (openedWith s m b).begins 0 m := rfl
  rw [step]
  unfold Run.begins
  rw [body]
  dsimp only
  rw [count]
  dsimp only
  rw [opens]

/-- It takes its elements one by one. -/
theorem step_element (b : Option Hit) {k : Nat} (below : k < s.countFor m) :
    (mapRun s m b (s.countFor m) k false R).step 0 = some (mapRun s m b (s.countFor m) (k + 1) false R) := by
  obtain ⟨op, scal, sel, mrg, body, value⟩ := h.value
  have element : (mapRun s m b (s.countFor m) k false R).element 0 k m
      = some (mapRun s m b (s.countFor m) (k + 1) false R) := by
    unfold Run.element
    rw [body]
    dsimp only
    rw [stepMap_opened (s := s) rfl rfl h.masked h.plainBound
      (fun c hc => Nat.lt_of_lt_of_le below (countFor_le_len s m hc)) (value k below), push_mapRun]
  have at_ : (mapRun s m b (s.countFor m) k false R).ms[0]? = some m := rfl
  have prog : (mapRun s m b (s.countFor m) k false R).prog 0 = mapProg (s.countFor m) k false R := rfl
  unfold Run.step
  rw [at_]
  dsimp only
  rw [prog, limit_mapRun h, if_neg (by simp [mapProg]),
    if_pos (show (mapProg (s.countFor m) k false R).done < s.countFor m from below)]
  exact element

/-- After its last element it finishes. -/
theorem step_finishes (b : Option Hit) :
    (mapRun s m b (s.countFor m) (s.countFor m) false R).step 0 = some (mapRun s m b (s.countFor m) (s.countFor m) true R) := by
  obtain ⟨op, scal, sel, mrg, body, value⟩ := h.value
  have at_ : (mapRun s m b (s.countFor m) (s.countFor m) false R).ms[0]? = some m := rfl
  have prog : (mapRun s m b (s.countFor m) (s.countFor m) false R).prog 0 = mapProg (s.countFor m) (s.countFor m) false R := rfl
  unfold Run.step
  rw [at_]
  dsimp only
  rw [prog, limit_mapRun h, if_neg (by simp [mapProg]), if_neg (by simp [mapProg])]
  unfold Run.finishes
  rw [body]
  rfl

/-- The loop reaches element `k` when nothing stops it before. -/
theorem loop_reaches {b : Option Hit} (fuel k : Nat) (below : k ≤ s.countFor m) (free : ∀ x, b = some x → 0 < x.e ∧ k ≤ x.e) :
    Run.loop (fuel + (k + 1)) (openedWith s m b) = Run.loop fuel (mapRun s m b (s.countFor m) k false R) := by
  induction k generalizing fuel with
  | zero =>
      have one : (openedWith s m b).cands = [(0, 0)] := cands_going rfl h.last rfl fun x best => (free x best).1
      exact loop_moves rfl one (step_begins h b) fuel
  | succ k ih =>
      have one : (mapRun s m b (s.countFor m) k false R).cands = [(k, 0)] := cands_going rfl h.last rfl fun x best => (free x best).2
      rw [← Nat.add_assoc, Nat.add_right_comm, ih (fuel + 1) (Nat.le_of_succ_le below) fun x best =>
        ⟨(free x best).1, Nat.le_of_succ_le (free x best).2⟩]
      exact loop_moves rfl one (step_element h b below) fuel

/-- Interrupted at element `x.e`, the member has handled the elements below it. -/
theorem loop_interrupted {x : Hit} (pos : x.pos = 0) (some_ : 0 < x.e) (within_ : x.e ≤ s.countFor m) :
    Run.loop (openedWith s m (some x)).fuel (openedWith s m (some x)) = mapRun s m (some x) (s.countFor m) x.e false R := by
  obtain ⟨f, fuel, -⟩ := fuel_openedWith s m (some x)
  rw [fuel, show f + (s.countFor m + 1) = f + (s.countFor m - x.e) + (x.e + 1) by omega, loop_reaches h _ _ within_ fun y best => by
    rw [← Option.some.inj best]; exact ⟨some_, Nat.le_refl _⟩]
  exact loop_stops rfl (cands_reached rfl rfl pos (Nat.le_refl _)) _

/-- With no interruption at any of its elements, it has handled them all. -/
theorem loop_whole {b : Option Hit} (free : ∀ x, b = some x → s.countFor m < x.e) :
    Run.loop (openedWith s m b).fuel (openedWith s m b) = mapRun s m b (s.countFor m) (s.countFor m) true R := by
  obtain ⟨f, fuel, more⟩ := fuel_openedWith s m b
  obtain ⟨g, rfl⟩ : ∃ g, f = g + 1 := ⟨f - 1, by omega⟩
  have one : (mapRun s m b (s.countFor m) (s.countFor m) false R).cands = [(s.countFor m, 0)] :=
    cands_going rfl h.last rfl fun x best => free x best
  rw [fuel, loop_reaches h _ _ (Nat.le_refl _) fun x best =>
    ⟨Nat.lt_of_le_of_lt (Nat.zero_le _) (free x best), Nat.le_of_lt (free x best)⟩, loop_moves rfl one (step_finishes h b)]
  exact loop_stops rfl (cands_finished rfl rfl) _

end

end Sys2Proof.Machine
end

section
/-! PROOFS. What filling buffers leaves as it was, and states whose buffers hold the same bytes (R117, R120, R130). -/

namespace Sys2Proof.Machine

/-! ### States whose buffers hold the same bytes -/

/-- The pools of complex `x` are laid out in `t` as in `s`, and their bytes stand in `t` as in `s`. -/
structure SameBytes (x : Nat) (s t : State) : Prop where
  mem    : t.mem = s.mem
  keys   : t.lineKey = s.lineKey ∧ t.keyLoads = s.keyLoads ∧ t.keyBytes = s.keyBytes
  layout : ∀ far, (t.pool x far).bsize = (s.pool x far).bsize ∧ (t.pool x far).base = (s.pool x far).base
  sram   : (t.cx x).sram = (s.cx x).sram

theorem SameBytes.refl (x : Nat) (s : State) : SameBytes x s s := ⟨rfl, ⟨rfl, rfl, rfl⟩, fun _ => ⟨rfl, rfl⟩, rfl⟩

theorem SameBytes.trans {x : Nat} {s t u : State} (first : SameBytes x s t) (second : SameBytes x t u) : SameBytes x s u := by
  obtain ⟨mem, ⟨line, loads, bytes⟩, layout, sram⟩ := first
  obtain ⟨mem', ⟨line', loads', bytes'⟩, layout', sram'⟩ := second
  exact ⟨mem'.trans mem, ⟨line'.trans line, loads'.trans loads, bytes'.trans bytes⟩,
    fun far => ⟨(layout' far).1.trans (layout far).1, (layout' far).2.trans (layout far).2⟩, sram'.trans sram⟩

/-- Steps that change no complex, no memory and no key. -/
theorem SameBytes.of_cxs (x : Nat) {s t : State} (mem : t.mem = s.mem) (line : t.lineKey = s.lineKey)
    (loads : t.keyLoads = s.keyLoads) (bytes : t.keyBytes = s.keyBytes) (cxs : t.cxs = s.cxs) : SameBytes x s t := by
  have cx : t.cx x = s.cx x := congrArg (Sparse.get Complex.reset x) cxs
  refine ⟨mem, ⟨line, loads, bytes⟩, fun far => ?_, by rw [cx]⟩
  unfold State.pool
  rw [cx]
  exact ⟨rfl, rfl⟩

/-- Steps that change, of what the bytes depend on, the complexes alone. -/
theorem SameBytes.of_rest {x : Nat} {s t : State} (rest : { t with cxs := s.cxs } = s)
    (layout : ∀ far, (t.pool x far).bsize = (s.pool x far).bsize ∧ (t.pool x far).base = (s.pool x far).base)
    (sram : (t.cx x).sram = (s.cx x).sram) : SameBytes x s t := by
  have mem := congrArg State.mem rest
  have line := congrArg State.lineKey rest
  have loads := congrArg State.keyLoads rest
  have bytes := congrArg State.keyBytes rest
  exact ⟨mem, ⟨line, loads, bytes⟩, layout, sram⟩

section
variable {x : Nat} {s t : State} (same : SameBytes x s t)
include same

theorem SameBytes.size (far : Bool) : (t.pool x far).size = (s.pool x far).size := by
  unfold Pool.size
  rw [(same.layout far).1]

theorem SameBytes.byteAt (l : Nat) : t.byteAt l = s.byteAt l := by
  unfold State.byteAt
  rw [same.mem]

theorem SameBytes.farByte (l : Nat) : t.farByte l = s.farByte l := by
  obtain ⟨mem, ⟨line, loads, bytes⟩, -, -⟩ := same
  unfold State.farByte State.clearByte State.keyOf State.keyHeld State.keyNow State.bytesAt State.byteAt
  rw [mem, line, loads, bytes]

theorem SameBytes.bufBytes (id o n : Nat) : t.bufBytes x id o n = s.bufBytes x id o n := by
  have place (far : Bool) (i : Nat) : (t.pool x far).farPlace i = (s.pool x far).farPlace i := by
    unfold Pool.farPlace
    rw [same.size, (same.layout far).2]
  unfold State.bufBytes
  dsimp only
  rw [place, same.size, same.sram]
  simp only [same.farByte]

theorem SameBytes.segBytes (l : List Seg) : t.segBytes x l = s.segBytes x l := by
  unfold State.segBytes
  exact congrArg (fun f => l.flatMap f) (funext fun g => same.bufBytes g.id g.start g.count)

end

/-! ### The operations on pools -/

theorem sameBytes_setPool (s : State) (x y : Nat) (far : Bool) {p : Pool} (bsize : p.bsize = (s.pool y far).bsize)
    (base : p.base = (s.pool y far).base) : SameBytes x s (s.setPool y far p) := by
  refine .of_rest (setPool_rest s y far p) (fun g => ?_) (sram_setPool ..)
  rw [pool_setPool]
  split
  · next h => rw [h.1, h.2]; exact ⟨bsize, base⟩
  · exact ⟨rfl, rfl⟩

theorem sameBytes_dropRefs (s : State) (x y : Nat) (l : List Seg) : SameBytes x s (s.dropRefs y l) :=
  .of_rest (dropRefs_rest s y l) (fun far => (dropRefs_pool s y l x far).2) (dropRefs_sram s y x l)

theorem sameBytes_addRefs (s : State) (x y : Nat) (l : List Seg) : SameBytes x s (s.addRefs y l) := by
  induction l generalizing s with
  | nil => exact .refl x s
  | cons g l ih =>
      refine SameBytes.trans ?_ (ih _)
      exact sameBytes_setPool s x y (idFar g.id) rfl rfl

theorem sameBytes_setStrand (s : State) (x i : Nat) (m : Strand) : SameBytes x s (s.setStrand i m) :=
  .of_cxs x rfl rfl rfl rfl rfl

theorem sameBytes_setMe (s : State) (x : Nat) (m : Strand) : SameBytes x s (s.setMe m) := sameBytes_setStrand ..

theorem sameBytes_writeChain (s : State) (x : Nat) (c : CReg) (l : List Seg) : SameBytes x s (s.writeChain c l) :=
  (sameBytes_setMe s x _).trans (sameBytes_dropRefs ..)

theorem sameBytes_reclaim (s : State) (x y : Nat) (l : List Nat) :
    SameBytes x s (s.setCx y { s.cx y with reclaim := l }) := by
  refine .of_rest rfl (fun far => ?_) ?_
  · unfold State.pool
    rw [State.cx_setCx]
    split
    · next h => rw [h]; cases far <;> exact ⟨rfl, rfl⟩
    · exact ⟨rfl, rfl⟩
  · rw [State.cx_setCx]
    split
    · next h => rw [h]
    · rfl

theorem sameBytes_returned (s : State) (x y : Nat) (far : Bool) (l : List Nat) : SameBytes x s (s.returned y far l) := by
  unfold State.returned
  dsimp only
  split
  · exact .refl x s
  · refine SameBytes.trans ?_ (sameBytes_reclaim ..)
    exact sameBytes_setPool s x y far rfl rfl

theorem sameBytes_unheld (s : State) (x : Nat) : SameBytes x s s.unheld := by
  unfold State.unheld
  split
  · exact sameBytes_setPool s x _ _ rfl rfl
  · exact .refl x s

/-! ### Writes of fresh buffers -/

/-- Place `p`, of memory or of the near pools' storage, lies in segment `g` of complex `x`. -/
def State.spans (s : State) (x : Nat) (far : Bool) (g : Seg) (p : Nat) : Prop :=
  idFar g.id = far ∧ s.bufAt x g.id g.start ≤ p ∧ p < s.bufAt x g.id g.start + g.count

/-- From `s` to `t`, bytes have been written into the segments `l` of complex `x`, markers cleared, and nothing else has
changed. -/
structure Fills (x : Nat) (l : List Seg) (s t : State) : Prop where
  rest      : { t with cxs := s.cxs, mem := s.mem, poison := s.poison, badLines := s.badLines } = s
  memory    : ∀ p, (∀ g ∈ l, ¬ s.spans x true g p) → t.byteAt p = s.byteAt p
  marks     : (∀ g ∈ l, idFar g.id = false) → t.mem = s.mem ∧ t.poison = s.poison ∧ t.badLines = s.badLines
  near      : ∀ p, (∀ g ∈ l, ¬ s.spans x false g p) → Sparse.get 0 p (t.cx x).sram = Sparse.get 0 p (s.cx x).sram
  complexes : ∀ y, y ≠ x → t.cx y = s.cx y
  complex   : { t.cx x with sram := (s.cx x).sram, sramPoison := (s.cx x).sramPoison } = s.cx x

theorem Fills.refl (x : Nat) (s : State) : Fills x [] s s :=
  ⟨rfl, fun _ _ => rfl, fun _ => ⟨rfl, rfl, rfl⟩, fun _ _ => rfl, fun _ _ => rfl, rfl⟩

theorem Fills.pool {x : Nat} {l : List Seg} {s t : State} (h : Fills x l s t) (y : Nat) (far : Bool) :
    t.pool y far = s.pool y far := by
  unfold State.pool
  by_cases at_ : y = x
  · subst at_
    have near := congrArg Complex.near h.complex
    have far_ := congrArg Complex.far h.complex
    dsimp only at near far_
    cases far
    · exact near
    · exact far_
  · rw [h.complexes y at_]

theorem Fills.trans {x : Nat} {k l : List Seg} {s t u : State} (first : Fills x k s t) (second : Fills x l t u) :
    Fills x (k ++ l) s u := by
  have spans (far : Bool) (g : Seg) (p : Nat) : t.spans x far g p ↔ s.spans x far g p := by
    unfold State.spans State.bufAt
    rw [first.pool, first.pool]
  refine ⟨?_, fun p free => ?_, fun near => ?_, fun p free => ?_, fun y other => ?_, ?_⟩
  · exact (congrArg (fun v : State => { v with cxs := s.cxs, mem := s.mem, poison := s.poison, badLines := s.badLines })
      second.rest).trans first.rest
  · rw [second.memory p fun g hg => (spans ..).not.2 (free g (List.mem_append_right _ hg)),
      first.memory p fun g hg => free g (List.mem_append_left _ hg)]
  · obtain ⟨mem, poison, bad⟩ := first.marks fun g hg => near g (List.mem_append_left _ hg)
    obtain ⟨mem', poison', bad'⟩ := second.marks fun g hg => near g (List.mem_append_right _ hg)
    exact ⟨mem'.trans mem, poison'.trans poison, bad'.trans bad⟩
  · rw [second.near p fun g hg => (spans ..).not.2 (free g (List.mem_append_right _ hg)),
      first.near p fun g hg => free g (List.mem_append_left _ hg)]
  · rw [second.complexes y other, first.complexes y other]
  · exact (congrArg (fun c : Complex => { c with sram := (s.cx x).sram, sramPoison := (s.cx x).sramPoison })
      second.complex).trans first.complex

/-- Segments within the ones named are written no further. -/
theorem Fills.widen {x : Nat} {k l : List Seg} {s t : State} (h : Fills x k s t)
    (within_ : ∀ g ∈ k, ∃ b ∈ l, b.id = g.id ∧ b.start = g.start ∧ g.count ≤ b.count) : Fills x l s t := by
  have spans (far : Bool) (p : Nat) (free : ∀ g ∈ l, ¬ s.spans x far g p) : ∀ g ∈ k, ¬ s.spans x far g p := by
    intro g hg ⟨side, low, high⟩
    obtain ⟨b, hb, id, start, count⟩ := within_ g hg
    exact free b hb ⟨by rw [id]; exact side, by rw [id, start]; exact low, by rw [id, start]; omega⟩
  refine { h with memory := fun p free => h.memory p (spans true p free), near := fun p free => h.near p (spans false p free)
                  marks := fun near => h.marks fun g hg => ?_ }
  obtain ⟨b, hb, id, -⟩ := within_ g hg
  rw [← id]
  exact near b hb

theorem unmarks_rest (l : List Nat) (s : State) :
    { l.foldl State.unmark s with poison := s.poison, badLines := s.badLines } = s := by
  induction l generalizing s with
  | nil => rfl
  | cons r l ih =>
      exact congrArg (fun v : State => { v with poison := s.poison, badLines := s.badLines }) (ih (s.unmark r))

/-- One fresh buffer written. -/
theorem fills_setFresh (s : State) (x id o : Nat) (bs : List Byte) :
    Fills x [{ id := id, start := o, count := bs.length }] s (s.setFresh x id o bs) := by
  unfold State.setFresh State.cleanBuf State.setBuf
  cases side : idFar id with
  | false =>
      dsimp only
      rw [if_neg Bool.false_ne_true, if_neg Bool.false_ne_true]
      refine ⟨rfl, fun _ _ => rfl, fun _ => ⟨rfl, rfl, rfl⟩, fun p free => ?_, fun y other => ?_, ?_⟩
      · rw [State.cx_setCx_same]
        dsimp only
        rw [get_putBytes, if_neg]
        intro inside
        refine free _ (List.mem_singleton.2 rfl) ⟨side, ?_, ?_⟩
        · unfold State.bufAt; rw [side]; simp only [Bool.false_eq_true, if_false, Nat.zero_add]; exact inside.1
        · unfold State.bufAt; rw [side]; simp only [Bool.false_eq_true, if_false, Nat.zero_add]; exact inside.2
      · rw [State.cx_setCx, if_neg other]
      · rw [State.cx_setCx_same]
  | true =>
      dsimp only
      rw [if_pos rfl, if_pos rfl]
      generalize hl : (s.pool x true).farPlace (idIndex id) + o = l
      have at_ : s.bufAt x id o = l := by
        rw [← hl]; unfold State.bufAt Pool.farPlace; rw [side, placeOf_zero]; simp
      generalize hv : (if ((s.setFar l bs).poison.isEmpty && (s.setFar l bs).badLines.isEmpty) = true then s.setFar l bs
        else _) = v
      have marked : { v with poison := s.poison, badLines := s.badLines } = { s.setFar l bs with
          poison := s.poison, badLines := s.badLines } := by
        rw [← hv]; split <;> rfl
      generalize hr : anyRanges ((v.pool x true).farPlace (idIndex id) + o) bs.length = ranges
      generalize hw : ranges.foldl State.unmark v = w
      have cleaned := unmarks_rest ranges v
      rw [hw] at cleaned
      have same : { w with poison := s.poison, badLines := s.badLines } = { s.setFar l bs with
          poison := s.poison, badLines := s.badLines } :=
        (congrArg (fun u : State => { u with poison := s.poison, badLines := s.badLines }) cleaned).trans marked
      have cxs : w.cxs = s.cxs := by
        have e := congrArg State.cxs same
        exact Eq.trans e (setFar_cxs ..)
      have cx (y : Nat) : w.cx y = s.cx y := congrArg (Sparse.get Complex.reset y) cxs
      have mem : w.mem = (s.setFar l bs).mem := by have e := congrArg State.mem same; exact e
      refine ⟨?_, fun p free => ?_, fun near => ?_, fun p _ => by rw [cx], fun y _ => cx y, by rw [cx]⟩
      · exact (congrArg (fun u : State => { u with cxs := s.cxs, mem := s.mem }) same).trans
          (congrArg (fun u : State => { u with cxs := s.cxs, poison := s.poison, badLines := s.badLines }) (setFar_rest s l bs))
      · have byte : w.byteAt p = (s.setFar l bs).byteAt p := congrArg (Sparse.get unwritten p) mem
        rw [byte, byteAt_setFar, if_neg]
        intro inside
        exact free _ (List.mem_singleton.2 rfl) ⟨side, by rw [at_]; exact inside.2.1, by rw [at_]; exact inside.2.2⟩
      · have e := near _ (List.mem_singleton.2 rfl)
        rw [side] at e
        cases e

/-- Buffers filled with bytes. -/
theorem fills_fill (s : State) (x : Nat) (l : List Seg) (bs : List Byte) : Fills x l s (s.fill x l bs) := by
  induction l generalizing s bs with
  | nil => exact .refl x s
  | cons g l ih =>
      have one : Fills x [g] s (s.setFresh x g.id g.start (bs.take g.count)) :=
        (fills_setFresh s x g.id g.start (bs.take g.count)).widen fun b hb => by
          rw [List.mem_singleton.1 hb]
          exact ⟨g, List.mem_singleton.2 rfl, rfl, rfl, by rw [List.length_take]; exact Nat.min_le_left ..⟩
      exact one.trans (ih _ _)

end Sys2Proof.Machine
end

section
/-! PROOFS. The results of an interrupted run allocated, and its precise point (R133, R289, R299). -/

namespace Sys2Proof.Machine

/-! ### Buffers for bytes -/

theorem buffersFor_eq (s : State) (w k : Nat) : s.buffersFor ((k * w + 7) / 8) = buffersOf s.myPool.size w k := rfl

theorem size_pos (p : Pool) : 0 < p.size := Nat.mul_pos (by decide) (Nat.pow_pos (by decide))

/-- The buffers counted hold the bytes. -/
theorem le_buffers (size : Nat) (n : Nat) (pos : 0 < size) : n ≤ (n + size - 1) / size * size := by
  have below := Nat.lt_div_mul_add (a := n + size - 1) pos
  omega

theorem buffers_le {size n a : Nat} (pos : 0 < size) (h : n ≤ a * size) : (n + size - 1) / size ≤ a := by
  refine Nat.le_of_lt_succ ((Nat.div_lt_iff_lt_mul pos).2 ?_)
  rw [Nat.succ_mul]
  omega

/-- A buffer that is needed is needed at an element below the count. -/
theorem need_below {size w c i : Nat} (some_ : 0 < size) (hw : 0 < w) (h : i < buffersOf size w c) : i * size * 8 / w < c := by
  have whole : (i + 1) * size ≤ (c * w + 7) / 8 + size - 1 := Nat.mul_le_of_le_div _ _ _ h
  rw [Nat.succ_mul] at whole
  refine (Nat.div_lt_iff_lt_mul hw).2 ?_
  generalize i * size = b at *
  generalize c * w = n at *
  omega

/-! ### What is needed and granted -/

/-- The needs of the only result of a lone member, none of which an interruption cuts off. -/
theorem needs_lone {r : Run} {m : Member} (ms : r.ms = [m]) (last : m.last = false) {d : CReg} {w : Nat}
    (dests : m.dests = [(d, w)]) {size : Nat}
    (all : ∀ i, i < buffersOf size w ((r.prog 0).outs.getD 0 #[]).size → r.within (i * size * 8 / w) 0 = true) :
    r.needs size = (List.range (Nat.min (buffersOf size w ((r.prog 0).outs.getD 0 #[]).size) 33)).map fun i =>
      ({ e := i * size * 8 / w, pos := 0, k := 0, i := i } : Need) := by
  generalize hn : (List.range (Nat.min (buffersOf size w ((r.prog 0).outs.getD 0 #[]).size) 33)).map (fun i =>
      ({ e := i * size * 8 / w, pos := 0, k := 0, i := i } : Need)) = mine
  have kept : mine.filter (fun x => r.within x.e x.pos) = mine := by
    rw [List.filter_eq_self, ← hn]
    intro x hx
    obtain ⟨i, hi, rfl⟩ := List.mem_map.1 hx
    exact all i (Nat.lt_of_lt_of_le (List.mem_range.1 hi) (Nat.min_le_left ..))
  have sorted : mine.Pairwise fun a b => b.before a = false := by
    rw [← hn, List.pairwise_map]
    refine List.Pairwise.imp ?_ List.pairwise_lt_range
    intro a b hab
    have le : a * size * 8 / w ≤ b * size * 8 / w :=
      Nat.div_le_div_right (Nat.mul_le_mul_right 8 (Nat.mul_le_mul_right size hab.le))
    simp [Need.before]
    omega
  unfold Run.needs
  rw [ms]
  simp only [List.length_cons, List.length_nil, Nat.zero_add, List.range_one, List.foldl_cons, List.foldl_nil,
    List.getElem?_cons_zero, last, dests, Bool.false_eq_true, if_false, List.getD_cons_zero]
  rw [hn, kept]
  unfold mergeNeeds
  rw [foldl_insNeed _ _ (by simp) sorted, List.nil_append]

theorem allocs_succ {s u v : State} {x i n : Nat} {far : Bool} {is : List Nat} (one : s.alloc x far = .ok (i, u))
    (rest : u.allocs x far n = .ok (is, v)) : s.allocs x far (n + 1) = .ok (i :: is, v) := by
  rw [State.allocs, one]
  dsimp only
  rw [rest]

/-- An allocation that may take `k` buffers and needs more stops at the need after them, with what it has been granted. -/
theorem grants_short (x : Nat) (far : Bool) (addrs : List Word) (k : Nat) (l : List Need) (s s' : State) (acc : List Grant)
    (ids : List Nat) (need : Need) (next : l[k]? = some need) (few : ∀ n ∈ l.take (k + 1), n.i < 32 ∧ n.pos = 0 ∧ n.k = 0)
    (enable : (s'.pool x far).enable = true) (taken : s.allocs x far k = .ok (ids, s')) :
    s.grants x far true addrs k l acc = .ok s' (acc ++ ids.map fun i => ({ pos := 0, k := 0, id := i } : Grant))
      (some { e := need.e, pos := 0, at_ := need.e, cause := .pool, eval := noBufferEval far .empty }) := by
  induction k generalizing s acc ids l with
  | zero =>
      rw [State.allocs, Except.ok.injEq, Prod.mk.injEq] at taken
      obtain ⟨rfl, rfl⟩ := taken
      cases l with
      | nil => cases next
      | cons n l =>
          obtain rfl : n = need := Option.some.inj next
          obtain ⟨low, pos, -⟩ := few n (List.mem_cons_self ..)
          unfold State.grants
          dsimp only
          rw [if_neg (Nat.not_le.2 low), enable, Bool.not_true, if_neg Bool.false_ne_true, pos]
          simp
  | succ k ih =>
      cases l with
      | nil => cases next
      | cons n l =>
          obtain ⟨low, pos, which⟩ := few n (List.mem_cons_self ..)
          rw [State.allocs] at taken
          unfold State.grants
          dsimp only
          cases one : s.alloc x far with
          | error e => rw [one] at taken; cases taken
          | ok v =>
              obtain ⟨i, u⟩ := v
              rw [one] at taken
              dsimp only at taken ⊢
              cases more : u.allocs x far k with
              | error e => rw [more] at taken; cases taken
              | ok v =>
                  obtain ⟨is, u'⟩ := v
                  rw [more, Except.ok.injEq, Prod.mk.injEq] at taken
                  obtain ⟨rfl, rfl⟩ := taken
                  rw [if_neg (Nat.not_le.2 low), enable_of_alloc one, Bool.not_true, if_neg Bool.false_ne_true,
                    ih l u _ is next (fun n hn => few n (List.mem_cons_of_mem _ hn)) more, pos, which]
                  simp

/-! ### The precise point -/

/-- The search for the precise point finds the highest boundary at which the interim chain fits. -/
theorem lower_spec (r : Run) (size g : Nat) (pos : 0 < g) (q : Nat) : ∃ k, k ≤ q ∧ r.lower size g q (q * g) = k * g
    ∧ (k = 0 ∨ r.fits size (k * g) = true) ∧ ∀ j, k < j → j ≤ q → r.fits size (j * g) = false := by
  induction q with
  | zero => exact ⟨0, Nat.le_refl 0, by simp [Run.lower], .inl rfl, fun j more less => absurd less (Nat.not_le.2 more)⟩
  | succ q ih =>
      have some_ : (q + 1) * g ≠ 0 := Nat.mul_ne_zero (Nat.succ_ne_zero q) pos.ne'
      have down : (q + 1) * g - g = q * g := by rw [Nat.succ_mul, Nat.add_sub_cancel]
      rw [Run.lower, if_neg some_, down]
      cases fits : r.fits size ((q + 1) * g) with
      | true => exact ⟨q + 1, Nat.le_refl _, if_pos rfl, .inr fits, fun j more less => absurd less (Nat.not_le.2 more)⟩
      | false =>
          obtain ⟨k, le, found, ok, above⟩ := ih
          refine ⟨k, Nat.le_succ_of_le le, (if_neg Bool.false_ne_true).trans found, ok, fun j more less => ?_⟩
          rcases Nat.lt_or_eq_of_le less with less | rfl
          · exact above j more (Nat.le_of_lt_succ less)
          · exact fits

/-- The segments of the prior chain that an interruption at `v` keeps (R133). -/
def State.priorShare (s : State) (m : Member) (d : CReg) (w v : Nat) : List Seg :=
  if m.readsOld then segsDrop ((v * w + 7) / 8) (s.segs d) else []

section
variable {i : Instr} {s : State} {m : Member} {d : CReg} {w : Nat} {R : Nat → Nat × Flags} (h : Computes i s m d w R)
include h

theorem Computes.keepsPrior : m.keepsPrior = m.readsOld := by
  obtain ⟨op, scal, sel, mrg, body, -⟩ := h.value
  unfold Member.keepsPrior
  rw [body]
  exact Bool.or_false _

theorem gran_mapRun (b : Option Hit) (n k : Nat) (fin : Bool) :
    (mapRun s m b n k fin R).gran = 4096 / m.counts.foldl Nat.max 0 := by
  have counts : (mapRun s m b n k fin R).ms.flatMap Member.counts = m.counts := List.append_nil _
  have some_ : m.counts.foldl Nat.max 0 ≠ 0 :=
    (Nat.lt_of_lt_of_le (formatWidths_pos (h.ew.width h.dests)) (h.ew.le_counts h.dests)).ne'
  unfold Run.gran
  dsimp only
  rw [counts, if_neg some_]

theorem whole_mapRun (b : Option Hit) (n k : Nat) (fin : Bool) : (mapRun s m b n k fin R).whole = false := by
  have any : (mapRun s m b n k fin R).ms.any Member.isComp = false := by
    change (m.isComp || false) = false
    rw [h.notComp]
    rfl
  unfold Run.whole
  rw [any]
  rfl

theorem fits_mapRun (b : Option Hit) {n v : Nat} (k : Nat) (fin : Bool) (le : v ≤ n) :
    (mapRun s m b n k fin R).fits s.myPool.size v = true
      ↔ s.buffersFor ((v * w + 7) / 8) + (s.priorShare m d w v).length ≤ 32 := by
  have at_ : (mapRun s m b n k fin R).ms[0]? = some m := rfl
  have n_ : ((mapRun s m b n k fin R).prog 0).n.getD v = n := rfl
  have share : (if m.keepsPrior then (segsDrop ((v * w + 7) / 8) ((mapRun s m b n k fin R).st.chain d).segs).length else 0)
      = (s.priorShare m d w v).length := by
    unfold State.priorShare
    rw [h.keepsPrior]
    split <;> rfl
  unfold Run.fits
  have range : List.range (mapRun s m b n k fin R).ms.length = [0] := rfl
  rw [range]
  simp only [List.all_cons, List.all_nil, Bool.and_true, at_, h.last, Bool.false_or, h.dests, n_]
  rw [show Nat.min v n = v from Nat.min_eq_left le, share]
  exact decide_eq_true_iff

/-- Where an interruption at `top` stops: the precise point of R133 and R289. -/
theorem point_mapRun {x : Hit} {n k top : Nat} {fin : Bool} (cause : x.cause = .preemption ∨ x.cause = .pool)
    (top_eq : (if x.cause = .preemption then Nat.min x.at_ (n - 1) else x.at_) = top) (done : top ≤ k) (le : top ≤ n) :
    s.precise m d w top ((mapRun s m (some x) n k fin R).point s.myPool.size x) := by
  generalize hr : mapRun s m (some x) n k fin R = r
  have idle : x.idle = false := by
    unfold Hit.idle
    rcases cause with e | e <;> rw [e]
  have whole : r.whole = false := hr ▸ whole_mapRun h _ n k fin
  have start : r.vstart = 0 := by
    rw [← hr]; have e := congrArg BitVec.toNat h.start; exact e
  have range : List.range r.ms.length = [0] := by rw [← hr]; rfl
  have at_ : r.ms[0]? = some m := by rw [← hr]; rfl
  have most : Nat.max 0 ((r.prog 0).n.getD 0) = n := by rw [← hr]; exact Nat.zero_max n
  have completed : Nat.min top (r.completed 0 m) = top := by
    have e : r.completed 0 m = k := by
      unfold Run.completed
      rw [h.notComp, start, ← hr]
      exact Nat.max_zero k
    rw [e]
    exact Nat.min_eq_left done
  have low : (if (r.complete 0 m || m.isMask || m.last) = true then top else Nat.min top (r.completed 0 m)) = top := by
    rw [completed]; exact ite_self _
  have early : r.early x = false := by
    unfold Run.early
    rw [start]
    exact decide_eq_false (Nat.not_lt_zero _)
  have gran : r.gran = 4096 / m.counts.foldl Nat.max 0 := hr ▸ gran_mapRun h _ n k fin
  have point : r.point s.myPool.size x = r.lower s.myPool.size r.gran (top / r.gran) (top / r.gran * r.gran) := by
    unfold Run.point
    rw [whole, idle, range]
    simp only [List.foldl_cons, List.foldl_nil, at_, most, top_eq, low, early, start, Nat.zero_div, Nat.zero_mul,
      Nat.not_lt_zero, decide_false, Bool.false_or, Bool.or_self, Bool.false_eq_true, if_false]
    split
    · exact Nat.max_zero _
    · rfl
  have fits (v : Nat) (below : v ≤ top) : r.fits s.myPool.size v = true
      ↔ s.buffersFor ((v * w + 7) / 8) + (if m.readsOld then (segsDrop ((v * w + 7) / 8) (s.segs d)).length else 0) ≤ 32 := by
    rw [← hr, fits_mapRun h _ k fin (below.trans le)]
    unfold State.priorShare
    split <;> rfl
  rw [point]
  unfold State.precise
  dsimp only
  rw [← gran]
  rcases Nat.eq_zero_or_pos r.gran with zero | pos
  · rw [zero]
    refine ⟨?_, ?_, ?_, fun u divides more _ => ?_⟩
    · simp [Run.lower]
    · simp [Run.lower]
    · simp [Run.lower]
    · rw [Nat.mod_zero] at divides
      omega
  · obtain ⟨j, below, found, ok, above⟩ := lower_spec r s.myPool.size r.gran pos (top / r.gran)
    rw [found]
    have le_top (q : Nat) (hq : q ≤ top / r.gran) : q * r.gran ≤ top := Nat.mul_le_of_le_div _ _ _ hq
    refine ⟨Nat.mul_mod_left .., le_top j below, ?_, fun u divides more within_ fit => ?_⟩
    · rcases ok with rfl | ok
      · exact .inl (Nat.zero_mul _)
      · exact .inr ((fits _ (le_top j below)).1 ok)
    · obtain ⟨q, rfl⟩ : ∃ q, u = q * r.gran := ⟨u / r.gran, (Nat.div_mul_cancel (Nat.dvd_of_mod_eq_zero divides)).symm⟩
      have higher : j < q := Nat.lt_of_mul_lt_mul_right more
      have reach : q ≤ top / r.gran := (Nat.le_div_iff_mul_le pos).2 within_
      have short := above q higher reach
      rcases fit with none_ | fit
      · exact absurd none_ (Nat.ne_of_gt (Nat.lt_of_le_of_lt (Nat.zero_le _) more))
      · rw [(fits _ within_).2 fit] at short
        cases short

/-- The prior chain stays whole where not even it fits at the start (log 71). -/
theorem holds_mapRun {x : Hit} {n k : Nat} {fin : Bool} (cause : x.cause = .preemption ∨ x.cause = .pool) :
    (mapRun s m (some x) n k fin R).holds s.myPool.size x
      = (decide ((mapRun s m (some x) n k fin R).point s.myPool.size x = 0)
        && !(mapRun s m (some x) n k fin R).fits s.myPool.size 0) := by
  generalize hr : mapRun s m (some x) n k fin R = r
  have idle : x.idle = false := by
    unfold Hit.idle
    rcases cause with e | e <;> rw [e]
  have whole : r.whole = false := hr ▸ whole_mapRun h _ n k fin
  have start : r.vstart = 0 := by
    rw [← hr]; have e := congrArg BitVec.toNat h.start; exact e
  have early : r.early x = false := by
    unfold Run.early
    rw [start]
    exact decide_eq_false (Nat.not_lt_zero _)
  unfold Run.holds
  rw [whole, idle, early, start]
  rfl

end

end Sys2Proof.Machine
end

section
/-! PROOFS. What an interrupted run of an element-wise member leaves in its destination: the interim chain of R133 with the
results below the precise point, and the flags of the elements below it (R106). -/

namespace Sys2Proof.Machine

/-! ### Dense chains in fresh buffers -/

/-- A dense chain in different buffers of one pool, none in the Dusk region, reads back as the bytes that fill it. -/
theorem segBytes_dense {s : State} {x : Nat} {far : Bool} {l : List Nat} {bs : List Byte} (once : l.Nodup)
    (low : ∀ i ∈ l, i < 2 ^ 23) (dusk : far = true → (s.pool x far).offDusk l)
    (room : bs.length ≤ l.length * (s.pool x far).size) :
    let g := denseSegs (s.pool x far).size bs.length (l.map (mkId far))
    (s.fill x g bs).segBytes x g = bs := by
  have side {g : Seg} (hg : g ∈ denseSegs (s.pool x far).size bs.length (l.map (mkId far))) :
      ∃ i ∈ l, idFar g.id = far ∧ idIndex g.id = i ∧ g.start = 0 ∧ g.count ≤ (s.pool x far).size := by
    obtain ⟨named_, start, count⟩ := mem_dense hg
    obtain ⟨i, hi, id⟩ := List.mem_map.1 named_
    obtain ⟨far_, index⟩ := idIndex_mkId far (low i hi)
    exact ⟨i, hi, by rw [← id]; exact far_, by rw [← id]; exact index, start, count⟩
  refine segBytes_fill _ (apart_dense ?_) (fun g hg => ?_) (fun g hg => ?_) bs (segsLen_dense _ _ _ (by simpa using room))
  · rw [List.pairwise_map]
    refine (List.Nodup.pairwise_of_forall_ne once) ?_
    intro i hi j hj differ same
    rw [(idIndex_mkId far (low i hi)).2, (idIndex_mkId far (low j hj)).2] at same
    exact differ same.2
  · obtain ⟨i, -, far_, -, start, count⟩ := side hg
    unfold State.inside
    rw [far_, start, Nat.zero_add]
    exact count
  · obtain ⟨i, hi, far_, index, start, count⟩ := side hg
    intro isFar k below
    have far_true : far = true := far_.symm.trans isFar
    have off := dusk far_true i hi k (Nat.lt_of_lt_of_le below count)
    have at_ : s.bufAt x g.id g.start = (s.pool x far).farPlace i := by
      unfold State.bufAt Pool.farPlace
      rw [placeOf_zero, far_, index, start, far_true, if_pos rfl, Nat.add_zero]
    rw [at_]
    exact off

/-! ### Flags -/

theorem flagsOf_succ (n : Nat) (f : Nat → Flags) : flagsOf (n + 1) f = flagsOf n f ||| f n := by
  unfold flagsOf
  rw [List.range_succ, List.foldl_append]
  rfl

/-- Of the flags raised so far, those of the elements below `v`. -/
theorem foldl_raisedBelow (R : Nat → Nat × Flags) (v k : Nat) (acc : Flags) :
    (raisedBelow R k).foldl (fun f x => if decide (x.1 < v) = true then f ||| x.2 else f) acc
      = acc ||| flagsOf (Min.min v k) fun e => (R e).2 := by
  induction k generalizing acc with
  | zero =>
      rw [Nat.min_zero]
      exact (BitVec.or_zero).symm
  | succ k ih =>
      have rest : (if decide (k < v) = true then acc ||| (R k).2 else acc) ||| flagsOf (Min.min v k) (fun e => (R e).2)
          = acc ||| flagsOf (Min.min v (k + 1)) fun e => (R e).2 := by
        rcases Nat.lt_or_ge k v with below | above
        · rw [if_pos (decide_eq_true below), Nat.min_eq_right below.le, Nat.min_eq_right below, flagsOf_succ, BitVec.or_assoc,
            BitVec.or_comm (R k).2]
        · rw [if_neg (by simpa using above), Nat.min_eq_left above, Nat.min_eq_left (Nat.le_succ_of_le above)]
      rw [raisedBelow]
      split
      · next none_ =>
          rw [ih, ← rest, none_]
          simp
      · rw [List.foldl_cons, ih, rest]

/-! ### What is placed -/

theorem segsDrop_zero (l : List Seg) : segsDrop 0 l = l := by
  cases l <;> simp [segsDrop]

/-- What an interruption at `v` leaves before the trap: `s` with the results `R` below `v` in chain register `d`, before the
share of its prior chain, and their flags raised. -/
structure Interim (s t : State) (m : Member) (d : CReg) (w v : Nat) (R : Nat → Nat × Flags) : Prop where
  rest   : { t with strands := s.strands, cxs := s.cxs, mem := s.mem, poison := s.poison, badLines := s.badLines } = s
  strand : { t.me with chains := s.me.chains, cdirty := s.me.cdirty }
    = { s.me with fflags := s.me.fflags ||| flagsOf v fun e => (R e).2 }
  others : ∀ q, q ≠ d → t.me.chain q = s.me.chain q
  chain  : ∃ new, t.segs d = new ++ s.priorShare m d w v
    ∧ t.segBytes s.myCx new = pack w ((List.range v).map fun e => (R e).1)
  memory : s.me.farPool = false → t.mem = s.mem

/-- Buffers that `s` has granted the executing strand, in `t`. -/
structure Granted (s t : State) (a : Nat) (ids : List Nat) : Prop where
  rest   : { t with cxs := s.cxs } = s
  ids    : ids = (s.myPool.free.take a).map (mkId s.me.farPool)
  count  : a ≤ s.myPool.free.length
  layout : ∀ far, (t.pool s.myCx far).bsize = (s.pool s.myCx far).bsize ∧ (t.pool s.myCx far).base = (s.pool s.myCx far).base
  enable : (t.pool s.myCx s.me.farPool).enable = s.myPool.enable
  once   : s.myPool.free.Nodup
  low    : ∀ i ∈ s.myPool.free, i < 2 ^ 23
  dusk   : s.me.farPool = true → s.myPool.offDusk s.myPool.free

theorem granted_of_allocs {s : State} {a : Nat} (enable : a ≠ 0 → s.myPool.enable = true) (count : a ≤ s.myPool.free.length)
    (once : s.myPool.free.Nodup) (low : ∀ i ∈ s.myPool.free, i < 2 ^ 23)
    (dusk : s.me.farPool = true → s.myPool.offDusk s.myPool.free) :
    ∃ t, s.allocs s.myCx s.me.farPool a = .ok ((s.myPool.free.take a).map (mkId s.me.farPool), t)
      ∧ Granted s t a ((s.myPool.free.take a).map (mkId s.me.farPool)) := by
  obtain ⟨t, taken, rest, -, others, bsize, base, on, -, -⟩ := allocs_ok s.myCx s.me.farPool a s enable count
  refine ⟨t, taken, rest, rfl, count, fun far => ?_, on, once, low, dusk⟩
  by_cases same : far = s.me.farPool
  · rw [same]; exact ⟨bsize, base⟩
  · rw [others _ _ fun e => same e.2]; exact ⟨rfl, rfl⟩

theorem take_map_range (v k : Nat) (f : Nat → Nat) (le : v ≤ k) : ((List.range k).map f).take v = (List.range v).map f := by
  rw [← List.map_take, List.take_range, Nat.min_eq_left le]

/-- The grants of a lone member's only result are all its own. -/
theorem own_grants (ids : List Nat) : (((ids.map fun i => ({ pos := 0, k := 0, id := i } : Grant)).filter
    fun g => g.pos == 0 && g.k == 0).map (·.id)) = ids := by
  rw [List.filter_map, List.map_map]
  simp [Function.comp_def]

section
variable {i : Instr} {s : State} {m : Member} {d : CReg} {w : Nat} {R : Nat → Nat × Flags} (h : Computes i s m d w R)
include h

theorem placeRest_mapRun (b : Option Hit) {n k v : Nat} (fin : Bool) (le : v ≤ k) (t : Strand) :
    (mapRun s m b n k fin R).placeRest 0 m (some v) t = t.raise (flagsOf v fun e => (R e).2) := by
  have flags : ((mapRun s m b n k fin R).prog 0).flags.foldl
      (fun f x => if decide (x.1 < v) = true then f ||| x.2 else f) (0 : Flags) = flagsOf v fun e => (R e).2 := by
    have e := foldl_raisedBelow R v k 0
    rw [Nat.min_eq_left le] at e
    exact e.trans (by simp)
  unfold Run.placeRest
  dsimp only
  rw [h.ew.mwrite, h.ew.swrite, flags]

/-- With every prior chain kept, what was taken is given back. -/
theorem places_kept (b : Option Hit) {n k : Nat} (fin : Bool) {t : State} {a : Nat} {ids : List Nat} (granted : Granted s t a ids)
    (reads : m.readsOld = true) : Interim s
      ((mapRun s m b n k fin R).places t (ids.map fun i => ({ pos := 0, k := 0, id := i } : Grant)) (some 0) true) m d w 0 R := by
  have strands : t.strands = s.strands := by have e := congrArg State.strands granted.rest; exact e
  have cur : t.cur = s.cur := by have e := congrArg State.cur granted.rest; exact e
  have me : t.me = s.me := by unfold State.me State.strand; rw [strands, cur]
  generalize hl : ids.map (fun i => ({ pos := 0, k := 0, id := i } : Grant)) = l
  have placed : (mapRun s m b n k fin R).places t l (some 0) true
      = (t.dropRefs t.myCx ((l.filter fun g => g.pos == 0).map fun g => { id := g.id, start := 0, count := 1 })).setMe
          (s.me.raise (flagsOf 0 fun e => (R e).2)) := by
    unfold Run.places
    have range : List.range (mapRun s m b n k fin R).ms.length = [0] := rfl
    have at_ : (mapRun s m b n k fin R).ms[0]? = some m := rfl
    have log : (mapRun s m b n k fin R).replay t (some 0) = t := rfl
    rw [range, log]
    simp only [List.foldl_cons, List.foldl_nil, at_]
    rw [placeRest_mapRun h b fin (Nat.zero_le k)]
    unfold Run.placeMember
    rw [h.last, if_neg Bool.false_ne_true, Bool.true_or, if_pos rfl, dropRefs_me, me]
  rw [placed]
  generalize (l.filter fun g => g.pos == 0).map (fun g => ({ id := g.id, start := 0, count := 1 } : Seg)) = drop
  have dropped := dropRefs_rest t t.myCx drop
  have mem : (t.dropRefs t.myCx drop).mem = s.mem := by
    rw [dropRefs_mem]; have e := congrArg State.mem granted.rest; exact e
  refine ⟨?_, ?_, fun q _ => ?_, ⟨[], ?_, ?_⟩, fun _ => mem⟩
  · have e := (congrArg (fun v : State => { v with cxs := s.cxs }) dropped).trans granted.rest
    exact congrArg (fun v : State => { v with strands := s.strands, mem := s.mem, poison := s.poison, badLines := s.badLines }) e
  · rw [State.me_setMe]
    rfl
  · rw [State.me_setMe]
    rfl
  · unfold State.segs State.priorShare
    rw [State.me_setMe, if_pos reads, Nat.zero_mul, List.nil_append]
    exact (segsDrop_zero (s.segs d)).symm
  · unfold pack
    split <;> rfl

/-- Otherwise the destination holds the interim chain at `v`. -/
theorem places_interim (b : Option Hit) {n k v : Nat} (fin : Bool) {t : State} {a : Nat} {ids : List Nat}
    (granted : Granted s t a ids) (le : v ≤ k) (room : (v * w + 7) / 8 ≤ a * s.myPool.size) : Interim s
      ((mapRun s m b n k fin R).places t (ids.map fun i => ({ pos := 0, k := 0, id := i } : Grant)) (some v) false) m d w v R := by
  obtain ⟨rest, ids_eq, count, layout, -, once, low, dusk⟩ := granted
  have strands : t.strands = s.strands := by have e := congrArg State.strands rest; exact e
  have cur : t.cur = s.cur := by have e := congrArg State.cur rest; exact e
  have me : t.me = s.me := by unfold State.me State.strand; rw [strands, cur]
  have cx : t.myCx = s.myCx := by unfold State.myCx; rw [cur]
  have size : (t.pool s.myCx s.me.farPool).size = s.myPool.size := by
    unfold Pool.size State.myPool; rw [(layout _).1]
  have place (i : Nat) : (t.pool s.myCx s.me.farPool).farPlace i = s.myPool.farPlace i := by
    unfold Pool.farPlace; rw [size, (layout _).2]; rfl
  generalize hbs : pack w ((List.range v).map fun e => (R e).1) = bs
  have length : bs.length = (v * w + 7) / 8 := by
    rw [← hbs, length_pack (h.ew.width h.dests), List.length_map, List.length_range]
  generalize hused : (bs.length + s.myPool.size - 1) / s.myPool.size = used
  have enough : used ≤ a := by rw [← hused, length]; exact buffers_le (size_pos _) room
  generalize hl : s.myPool.free.take used = l
  have given : ids.take used = l.map (mkId s.me.farPool) := by
    rw [ids_eq, ← List.map_take, List.take_take, Nat.min_eq_left enough, hl]
  have among : ∀ i ∈ l, i ∈ s.myPool.free := fun i hi => List.mem_of_mem_take (hl ▸ hi)
  have llen : l.length = used := by rw [← hl, List.length_take, Nat.min_eq_left (enough.trans count)]
  generalize hg : denseSegs s.myPool.size bs.length (ids.take used) = g
  generalize hspare : (ids.drop used).map (fun i => ({ id := i, start := 0, count := 1 } : Seg)) = spare
  generalize hshare : s.priorShare m d w v = share
  have placed : (mapRun s m b n k fin R).places t (ids.map fun i => ({ pos := 0, k := 0, id := i } : Grant)) (some v) false
      = ((((t.fill s.myCx g bs).addRefs s.myCx share).writeChain d (g ++ share)).dropRefs s.myCx spare).setMe
          (((((t.fill s.myCx g bs).addRefs s.myCx share).writeChain d (g ++ share)).dropRefs s.myCx spare).me.raise
            (flagsOf v fun e => (R e).2)) := by
    unfold Run.places
    have range : List.range (mapRun s m b n k fin R).ms.length = [0] := rfl
    have at_ : (mapRun s m b n k fin R).ms[0]? = some m := rfl
    have log : (mapRun s m b n k fin R).replay t (some v) = t := rfl
    rw [range, log]
    simp only [List.foldl_cons, List.foldl_nil, at_]
    rw [placeRest_mapRun h b fin le]
    have member : (mapRun s m b n k fin R).placeMember 0 m (ids.map fun i => ({ pos := 0, k := 0, id := i } : Grant)) (some v)
        false t = (((t.fill s.myCx g bs).addRefs s.myCx share).writeChain d (g ++ share)).dropRefs s.myCx spare := by
      have begun : ((mapRun s m b n k fin R).prog 0).begun = true := rfl
      have far : (mapRun s m b n k fin R).st.farPool = s.me.farPool := rfl
      have outs : (((mapRun s m b n k fin R).prog 0).outs.getD 0 #[]).toList.take v = (List.range v).map fun e => (R e).1 :=
        take_map_range v k _ le
      have prior : (if m.keepsPrior = true then segsDrop ((v * w + 7) / 8) ((mapRun s m b n k fin R).st.chain d).segs else [])
          = share := by rw [h.keepsPrior, ← hshare]; rfl
      unfold Run.placeMember
      rw [h.last, begun, h.dests]
      simp only [Bool.not_true, Bool.and_false, Bool.or_self, Bool.false_eq_true, if_false, List.length_cons,
        List.length_nil, Nat.zero_add, List.range_one, List.foldl_cons, List.foldl_nil, List.getD_cons_zero]
      unfold Run.placeDest
      dsimp only
      rw [own_grants, outs, hbs, cx, far, size, hused, prior, hg, hspare]
    rw [member]
  rw [placed]
  have fills := fills_fill t s.myCx g bs
  have fill_me : (t.fill s.myCx g bs).me = s.me := by
    have strands' : (t.fill s.myCx g bs).strands = t.strands := by have e := congrArg State.strands fills.rest; exact e
    unfold State.me State.strand
    rw [fill_cur, strands', strands, cur]
  generalize hf : t.fill s.myCx g bs = f at fills fill_me
  have f_me : (f.addRefs s.myCx share).me = s.me := by rw [addRefs_me, fill_me]
  have f_cur : (f.addRefs s.myCx share).cur = s.cur := by rw [addRefs_cur, ← hf, fill_cur, cur]
  have w_me : (((f.addRefs s.myCx share).writeChain d (g ++ share)).dropRefs s.myCx spare).me
      = s.me.setChain d { segs := g ++ share } := by
    rw [dropRefs_me]
    unfold State.writeChain
    rw [dropRefs_me, State.me_setMe, f_me]
  have same : SameBytes s.myCx f (((f.addRefs s.myCx share).writeChain d (g ++ share)).dropRefs s.myCx spare) :=
    ((sameBytes_addRefs ..).trans (sameBytes_writeChain ..)).trans (sameBytes_dropRefs ..)
  have frame : { ((f.addRefs s.myCx share).writeChain d (g ++ share)).dropRefs s.myCx spare with
      strands := f.strands, cxs := f.cxs } = f := by
    have one := congrArg (fun v : State => { v with strands := f.strands, cxs := f.cxs })
      (dropRefs_rest ((f.addRefs s.myCx share).writeChain d (g ++ share)) s.myCx spare)
    have two := congrArg (fun v : State => { v with strands := f.strands, cxs := f.cxs })
      (dropRefs_rest ((f.addRefs s.myCx share).setMe ((f.addRefs s.myCx share).me.setChain d { segs := g ++ share }))
        (f.addRefs s.myCx share).myCx ((f.addRefs s.myCx share).me.chain d).segs)
    have three := congrArg (fun v : State => { v with strands := f.strands }) (addRefs_rest f s.myCx share)
    exact one.trans (two.trans three)
  generalize ((f.addRefs s.myCx share).writeChain d (g ++ share)).dropRefs s.myCx spare = u at w_me same frame
  rw [w_me]
  refine ⟨?_, ?_, fun q other => ?_, ⟨g, ?_, ?_⟩, fun near => ?_⟩
  · have e := congrArg (fun v : State => { v with strands := s.strands, cxs := s.cxs, mem := s.mem, poison := s.poison
                                                  badLines := s.badLines }) frame
    have e' := congrArg (fun v : State => { v with strands := s.strands, cxs := s.cxs, mem := s.mem, poison := s.poison
                                                   badLines := s.badLines }) fills.rest
    have e'' := congrArg (fun v : State => { v with strands := s.strands, mem := s.mem, poison := s.poison
                                                    badLines := s.badLines }) rest
    exact e.trans (e'.trans e'')
  · rw [State.me_setMe]
    rfl
  · rw [State.me_setMe]
    exact (Strand.chain_setChain s.me q d _).trans (if_neg other)
  · unfold State.segs
    rw [State.me_setMe, hshare]
    exact congrArg Chain.segs ((Strand.chain_setChain s.me d d _).trans (if_pos rfl))
  · rw [(same.trans (sameBytes_setMe ..)).segBytes, ← hf, ← hg, given, hbs]
    have dense := segBytes_dense (s := t) (x := s.myCx) (far := s.me.farPool) (l := l) (bs := bs)
      (hl ▸ once.sublist (List.take_sublist ..)) (fun i hi => low i (among i hi)) ?_ ?_
    · rw [size] at dense
      exact dense
    · intro far i hi o below
      rw [size] at below
      rw [place]
      exact dusk far i (among i hi) o below
    · rw [size, llen, ← hused]
      exact le_buffers _ _ (size_pos _)
  · have sides : ∀ a ∈ g, idFar a.id = false := by
      intro a ha
      rw [← hg, given] at ha
      obtain ⟨j, hj, id⟩ := List.mem_map.1 (mem_dense ha).1
      rw [← id, (idIndex_mkId s.me.farPool (low j (among j hj))).1, near]
    have mem : t.mem = s.mem := by have e := congrArg State.mem rest; exact e
    exact same.mem.trans ((fills.marks sides).1.trans mem)

end

end Sys2Proof.Machine
end

section
/-! PROOFS. The trap of an interrupted run of an element-wise member, and the two ways that the hardware interrupts it beside
its own faults: a pre-emption (R43) and an allocation that has waited too long (R299). -/

namespace Sys2Proof.Machine

/-! ### The trap -/

/-- A trap after the interim chains have been placed is the interruption of R133 and R289. -/
theorem Interim.stoppedAt {s u t : State} {m : Member} {d : CReg} {w v e : Nat} {c : Cause} {eval : Word}
    {R : Nat → Nat × Flags} (interim : Interim s u m d w v R)
    (trap : Trapped s t s.cur c s.me.pc eval (BitVec.ofNat 64 e) (BitVec.ofNat 64 v))
    (same : SameBytes s.myCx u t)
    (asked : t.me.preq = (s.me.preq && c != .preemption) ∧ t.me.due = (s.me.due && c != .preemption))
    (strand : { t.me with
        epc := s.me.epc, ecause := s.me.ecause, eval := s.me.eval, evpos := s.me.evpos, vstart := s.me.vstart, pc := s.me.pc
        mode := s.me.mode, estatus := s.me.estatus, preq := s.me.preq, due := s.me.due }
      = { u.me with
          epc := s.me.epc, ecause := s.me.ecause, eval := s.me.eval, evpos := s.me.evpos, vstart := s.me.vstart
          pc := s.me.pc, mode := s.me.mode, estatus := s.me.estatus, preq := s.me.preq, due := s.me.due, wait := .none
          again := none }) : StoppedAt s t m d w e v c eval R := by
  have chains : t.me.chains = u.me.chains := by have e := congrArg Strand.chains strand; exact e
  have chain (q : CReg) : t.me.chain q = u.me.chain q := by unfold Strand.chain; rw [chains]
  obtain ⟨new, segs, bytes⟩ := interim.chain
  refine ⟨trap, ⟨new, ?_, ?_⟩, fun q other => ?_, asked, ?_, fun near l => ?_⟩
  · have at_ : t.segs d = u.segs d := congrArg Chain.segs (chain d)
    rw [at_, segs]
    rfl
  · rw [same.segBytes, bytes]
  · rw [chain, interim.others q other]
  · have mine := congrArg (fun n : Strand => { n with
      epc := s.me.epc, ecause := s.me.ecause, eval := s.me.eval, evpos := s.me.evpos, vstart := s.me.vstart, pc := s.me.pc
      mode := s.me.mode, estatus := s.me.estatus, preq := s.me.preq, due := s.me.due, wait := Wait.none, again := none })
      interim.strand
    exact (congrArg (fun n : Strand => { n with chains := s.me.chains, cdirty := s.me.cdirty }) strand).trans mine
  · have mem := interim.memory near
    unfold State.byteAt
    rw [same.mem, mem]

section
variable {s u : State} {m : Member} {d : CReg} {w v : Nat} {R : Nat → Nat × Flags} (interim : Interim s u m d w v R)
include interim

theorem Interim.cur : u.cur = s.cur := by have e := congrArg State.cur interim.rest; exact e

theorem Interim.me : u.strand s.cur = u.me := by unfold State.me; rw [interim.cur]

theorem Interim.preq : u.me.preq = s.me.preq ∧ u.me.due = s.me.due := by
  have preq := congrArg Strand.preq interim.strand
  have due := congrArg Strand.due interim.strand
  exact ⟨preq, due⟩

theorem Interim.trapped {t : State} {c : Cause} {eval evpos vstart : Word}
    (trap : Trapped u t s.cur c s.me.pc eval evpos vstart) : Trapped s t s.cur c s.me.pc eval evpos vstart := by
  have mode := congrArg Strand.mode interim.strand
  have estatus := congrArg Strand.estatus interim.strand
  have redlive := congrArg Strand.redlive interim.strand
  have part := congrArg Strand.part interim.strand
  have parts := congrArg State.parts interim.rest
  have mvec := congrArg State.mvec interim.rest
  dsimp only at mode estatus redlive part parts mvec
  refine trap.of_same (by rw [interim.me]; exact mode) (by rw [interim.me]; exact estatus) (by rw [interim.me]; exact redlive) ?_
  unfold State.vector State.part
  rw [interim.me, mode, part, parts, mvec]
  rfl

/-- A trap other than a pre-emption; granted buffers that were not used are returned. -/
theorem Interim.stoppedAt_trap {c : Cause} (other : c ≠ .preemption) (eval : Word) (e y : Nat) (far : Bool) (l : List Nat) :
    StoppedAt s ((u.trapIn u.cur { cause := c, epc := s.me.pc, eval := eval, evpos := BitVec.ofNat 64 e
                                   vstart := BitVec.ofNat 64 v }).returned y far l) m d w e v c eval R := by
  have cur := interim.cur
  rw [cur]
  generalize hr : ({ cause := c, epc := s.me.pc, eval := eval, evpos := BitVec.ofNat 64 e
                     vstart := BitVec.ofNat 64 v } : TrapRec) = r
  generalize ht : u.trapIn s.cur r = t
  have strand := trapIn_strand u s.cur r s.me
  have trap := trapIn_trapped u s.cur r
  rw [ht] at strand trap
  have t_cur : t.cur = s.cur := by rw [← ht]; exact cur
  have back : (t.returned y far l).cur = t.cur := by
    have e := congrArg State.cur (returned_rest t y far l); exact e
  have me : (t.returned y far l).me = t.strand s.cur := by
    unfold State.me State.strand
    rw [returned_strands, back, t_cur]
  have same : SameBytes s.myCx u (t.returned y far l) := by
    refine SameBytes.trans ?_ (sameBytes_returned ..)
    rw [← ht]
    exact sameBytes_setStrand ..
  have quiet : (c != Cause.preemption) = true := by simp [other]
  rw [interim.me] at strand
  have preq : (t.strand s.cur).preq = u.me.preq := by have e := congrArg Strand.preq strand; exact e
  have due : (t.strand s.cur).due = u.me.due := by have e := congrArg Strand.due strand; exact e
  refine interim.stoppedAt ?_ same ?_ ?_
  · have mine : Trapped u t s.cur c s.me.pc eval (BitVec.ofNat 64 e) (BitVec.ofNat 64 v) := by
      rw [← hr] at trap; exact trap
    obtain ⟨a, b, c, d, e, f, g, h⟩ := interim.trapped mine
    have at_ : (t.returned y far l).strand s.cur = t.strand s.cur := by unfold State.strand; rw [returned_strands]
    constructor <;> rw [at_] <;> assumption
  · rw [me, preq, due, quiet, Bool.and_true, Bool.and_true]
    exact interim.preq
  · rw [me]
    exact congrArg (fun n : Strand => { n with preq := s.me.preq, due := s.me.due }) strand

/-- A pre-emption. -/
theorem Interim.stoppedAt_preempted (asked : s.me.preq = true) (y : Nat) (far : Bool) (l : List Nat) :
    StoppedAt s ((u.preempted u.cur s.me.pc (BitVec.ofNat 64 v) (BitVec.ofNat 64 0)).returned y far l) m d w 0 v .preemption
      u.free.1 R := by
  have cur := interim.cur
  rw [cur]
  obtain ⟨trap, strand, -, rest, -⟩ := preempted_spec (s := u) (sid := s.cur)
    (by rw [interim.me, interim.preq.1]; exact asked) s.me.pc (BitVec.ofNat 64 v) (BitVec.ofNat 64 0)
  generalize u.preempted s.cur s.me.pc (BitVec.ofNat 64 v) (BitVec.ofNat 64 0) = t at trap strand rest
  have t_cur : t.cur = s.cur := by have e := congrArg State.cur rest; exact Eq.trans e cur
  have back : (t.returned y far l).cur = t.cur := by
    have e := congrArg State.cur (returned_rest t y far l); exact e
  have me : (t.returned y far l).me = t.strand s.cur := by
    unfold State.me State.strand
    rw [returned_strands, back, t_cur]
  have same : SameBytes s.myCx u (t.returned y far l) := by
    refine SameBytes.trans ?_ (sameBytes_returned ..)
    have mem := congrArg State.mem rest
    have line := congrArg State.lineKey rest
    have loads := congrArg State.keyLoads rest
    have bytes := congrArg State.keyBytes rest
    have cxs := congrArg State.cxs rest
    exact .of_cxs _ mem line loads bytes cxs
  have strand := strand s.me
  rw [interim.me] at strand
  have preq : (t.strand s.cur).preq = false := by have e := congrArg Strand.preq strand; exact e
  have due : (t.strand s.cur).due = false := by have e := congrArg Strand.due strand; exact e
  refine interim.stoppedAt ?_ same ?_ ?_
  · obtain ⟨a, b, c, d, e, f, g, h⟩ := interim.trapped trap
    have at_ : (t.returned y far l).strand s.cur = t.strand s.cur := by unfold State.strand; rw [returned_strands]
    constructor <;> rw [at_] <;> assumption
  · rw [me, preq, due]
    exact ⟨(Bool.and_false _).symm, (Bool.and_false _).symm⟩
  · rw [me]
    exact congrArg (fun n : Strand => { n with preq := s.me.preq, due := s.me.due }) strand

theorem Interim.setMe_me : Interim s (u.setMe u.me) m d w v R := by
  obtain ⟨new, segs, bytes⟩ := interim.chain
  refine ⟨interim.rest, by rw [State.me_setMe]; exact interim.strand, by rw [State.me_setMe]; exact interim.others,
    ⟨new, ?_, ?_⟩, interim.memory⟩
  · have at_ : (u.setMe u.me).segs d = u.segs d := by unfold State.segs; rw [State.me_setMe]
    rw [at_, segs]
  · rw [(sameBytes_setMe ..).segBytes, bytes]

end

/-! ### The interruption -/

section
variable {i : Instr} {s : State} {m : Member} {d : CReg} {w : Nat} {R : Nat → Nat × Flags} (h : Computes i s m d w R)
include h

theorem keepRed_mapRun (b : Option Hit) (n k v : Nat) (fin : Bool) (t : Strand) :
    (mapRun s m b n k fin R).keepRed v t = { t with redlive := 0 } := by
  obtain ⟨op, scal, sel, mrg, body, -⟩ := h.value
  have range : List.range (mapRun s m b n k fin R).ms.length = [0] := rfl
  have at_ : (mapRun s m b n k fin R).ms[0]? = some m := rfl
  unfold Run.keepRed
  rw [range]
  simp only [List.foldl_cons, List.foldl_nil, at_, body]

theorem performed_mapRun (b : Option Hit) (n k v : Nat) (fin : Bool) :
    (mapRun s m b n k fin R).performed v = s.me.memdone := by
  have range : List.range (mapRun s m b n k fin R).ms.length = [0] := rfl
  have at_ : (mapRun s m b n k fin R).ms[0]? = some m := rfl
  have none_ : (mapRun s m b n k fin R).stands (some v) 0 = false := by
    unfold Run.stands Run.standing
    dsimp only
    rw [range]
    simp only [List.foldl_cons, List.foldl_nil, at_, h.notMask, Bool.false_and, List.nil_append, List.getD_cons_zero]
  unfold Run.performed
  rw [range]
  simp only [List.foldl_cons, List.foldl_nil, none_]
  rfl

/-- What an interruption leaves, with the prior chain kept or the interim chain in its place. -/
theorem interrupt_mapRun {x : Hit} {n k v : Nat} (fin : Bool) (kept : Bool) {t : State} {l : List Grant}
    (note : x.note = {}) (interim : Interim s ((mapRun s m (some x) n k fin R).places t l (some v) kept) m d w v R) :
    ∃ u, Interim s u m d w v R ∧ (mapRun s m (some x) n k fin R).interrupt t l s.me.pc x v kept
      = if x.cause = .preemption then u.preempted u.cur s.me.pc (BitVec.ofNat 64 v) (BitVec.ofNat 64 0)
        else u.trapIn u.cur { cause := x.cause, epc := s.me.pc, eval := x.eval, evpos := BitVec.ofNat 64 x.e
                              vstart := BitVec.ofNat 64 v } := by
  generalize hp : (mapRun s m (some x) n k fin R).places t l (some v) kept = p at interim
  have quiet : p.noted {} = p := rfl
  have redlive : p.me.redlive = 0 := by
    have e := congrArg Strand.redlive interim.strand; exact Eq.trans e h.whole.1
  have memdone : p.me.memdone = s.me.memdone := by
    have e := congrArg Strand.memdone interim.strand; exact e
  have me : { (mapRun s m (some x) n k fin R).keepRed v p.me with
      memdone := (mapRun s m (some x) n k fin R).performed v } = p.me := by
    rw [keepRed_mapRun h, performed_mapRun h, ← memdone]
    exact congrArg (fun b => { p.me with redlive := b }) redlive.symm
  refine ⟨p.setMe p.me, interim.setMe_me, ?_⟩
  unfold Run.interrupt
  dsimp only
  rw [hp, note, quiet, me]

/-- The grants of a fit: none of its buffers is missing at the precise point. -/
theorem interim_mapRun {x : Hit} {n k top a : Nat} {fin : Bool} {t : State} {ids : List Nat}
    (cause : x.cause = .preemption ∨ x.cause = .pool)
    (top_eq : (if x.cause = .preemption then Nat.min x.at_ (n - 1) else x.at_) = top) (done : top ≤ k) (le : k ≤ n)
    (granted : Granted s t a ids) (room : (top * w + 7) / 8 ≤ a * s.myPool.size) :
    let r := mapRun s m (some x) n k fin R
    let v := r.point s.myPool.size x
    s.precise m d w top v
      ∧ Interim s (r.places t (ids.map fun i => ({ pos := 0, k := 0, id := i } : Grant)) (some v) (r.holds s.myPool.size x))
          m d w v R := by
  have precise := point_mapRun h (R := R) (fin := fin) cause top_eq done (done.trans le)
  have holds := holds_mapRun h (R := R) (n := n) (k := k) (fin := fin) cause
  dsimp only
  refine ⟨precise, ?_⟩
  have below : (mapRun s m (some x) n k fin R).point s.myPool.size x ≤ top := by
    obtain ⟨-, le, -⟩ := precise; exact le
  generalize (mapRun s m (some x) n k fin R).point s.myPool.size x = v at holds below
  rw [holds]
  cases kept : (decide (v = 0) && !(mapRun s m (some x) n k fin R).fits s.myPool.size 0) with
  | true =>
      rw [Bool.and_eq_true] at kept
      obtain ⟨zero, unfit⟩ := kept
      have zero : v = 0 := of_decide_eq_true zero
      subst zero
      refine places_kept h (some x) fin granted ?_
      by_contra reads
      have fits : (mapRun s m (some x) n k fin R).fits s.myPool.size 0 = true := by
        rw [fits_mapRun h (some x) k fin (Nat.zero_le n)]
        have share : s.priorShare m d w 0 = [] := if_neg reads
        have none_ : s.buffersFor ((0 * w + 7) / 8) = 0 := by
          rw [Nat.zero_mul]
          exact Nat.div_eq_of_lt (by have := size_pos s.myPool; omega)
        rw [share, none_]
        decide
      rw [fits] at unfit
      cases unfit
  | false =>
      refine places_interim h (some x) fin granted (below.trans done) ?_
      refine le_trans (Nat.div_le_div_right (Nat.add_le_add_right (Nat.mul_le_mul_right w below) 7)) room

end

end Sys2Proof.Machine
end

section
/-! PROOFS. The convoy of a lone element-wise member opened again: with a pre-emption to be taken inside it (R43), and with an
allocation that has waited too long (R299). -/

namespace Sys2Proof.Machine

theorem Granted.size {s t : State} {a : Nat} {ids : List Nat} (granted : Granted s t a ids) :
    (t.pool t.myCx s.me.farPool).size = s.myPool.size := by
  have cur : t.cur = s.cur := by have e := congrArg State.cur granted.rest; exact e
  unfold State.myCx Pool.size
  rw [cur]
  have layout := (granted.layout s.me.farPool).1
  unfold State.myCx at layout
  rw [layout]
  rfl

theorem judged_of_best {r : Run} {x : Hit} (late : r.late = []) (best : r.best = some x) : r.judged = some x := by
  have none_ : r.lateHit = none := by unfold Run.lateHit; rw [late]; rfl
  unfold Run.judged
  rw [none_]
  exact best

theorem within_of_best {r : Run} {x : Hit} (late : r.late = []) (best : r.best = some x) {e : Nat} (below : e < x.e) :
    r.within e 0 = true := by
  have none_ : r.lateHit = none := by unfold Run.lateHit; rw [late]; rfl
  unfold Run.within
  rw [none_, best]
  simp [below]

/-- A run whose allocation finds a fault, or that a fault has been waiting for, is interrupted. -/
theorem settles_granted {r : Run} {s0 s t : State} {l : List Grant} {x : Hit} {fails : Bool} {pre : Option Nat} {start : Word}
    (clean : r.patches = []) (cell : r.cell = false) (alloc : r.allocate s fails = .ok t l none) (judged : r.judged = some x) :
    r.settles s0 s [] fails pre start = .next (r.interrupt t l start x (r.point (t.pool t.myCx r.st.farPool).size x)
      (r.holds (t.pool t.myCx r.st.farPool).size x)) := by
  have patched : r.patched = r := by unfold Run.patched; rw [clean]; rfl
  unfold Run.settles
  dsimp only
  rw [patched, cell, if_neg Bool.false_ne_true, alloc]
  dsimp only
  rw [judged]

theorem settles_refused {r v : Run} {s0 s t : State} {l : List Grant} {x y : Hit} {fails : Bool} {pre : Option Nat}
    {start : Word} (clean : r.patches = []) (cell : r.cell = false) (alloc : r.allocate s fails = .ok t l (some y))
    (hit : r.hitAt y = v) (judged : v.judged = some x) :
    r.settles s0 s [] fails pre start = .next (v.interrupt t l start x (v.point (t.pool t.myCx r.st.farPool).size x)
      (v.holds (t.pool t.myCx r.st.farPool).size x)) := by
  have patched : r.patched = r := by unfold Run.patched; rw [clean]; rfl
  unfold Run.settles
  dsimp only
  rw [patched, cell, if_neg Bool.false_ne_true, alloc]
  dsimp only
  rw [hit, judged]

section
variable {i : Instr} {s : State} {m : Member} {d : CReg} {w : Nat} {R : Nat → Nat × Flags} (h : Computes i s m d w R)
include h

theorem needs_mapRun (b : Option Hit) {n k : Nat} (fin : Bool) (below : ∀ x, b = some x → k ≤ x.e) :
    (mapRun s m b n k fin R).needs s.myPool.size = (List.range (Nat.min (buffersOf s.myPool.size w k) 33)).map fun i =>
      ({ e := i * s.myPool.size * 8 / w, pos := 0, k := 0, i := i } : Need) := by
  have size : (((mapRun s m b n k fin R).prog 0).outs.getD 0 #[]).size = k := by
    change ((List.range k).map fun e => (R e).1).toArray.size = k
    simp
  have needs := needs_lone (r := mapRun s m b n k fin R) rfl h.last h.dests (size := s.myPool.size)
  rw [size] at needs
  refine needs fun i hi => ?_
  have before := need_below (size_pos s.myPool) (formatWidths_pos (h.ew.width h.dests)) hi
  cases best : b with
  | none => rfl
  | some x => exact within_of_best rfl rfl (Nat.lt_of_lt_of_le before (below x best))

theorem Computes.reopen (fails : Bool) (pre : Option Nat) : s.reopen i fails pre
    = (Run.loop (openedWith s m (pre.map preemptHit)).fuel (openedWith s m (pre.map preemptHit))).settles
      s s [] fails pre s.me.pc := by
  obtain ⟨op, scal, sel, mrg, body, -⟩ := h.value
  exact reopen_alone h.toOpens h.ew body fails pre

/-- A pre-emption at element `v` above the first. -/
theorem reopen_preempted {v : Nat} (some_ : 0 < v)
    (buffers : s.hasBuffers (s.buffersFor ((Min.min v (s.countFor m) * w + 7) / 8))) :
    ∃ u p, s.precise m d w (Min.min v (s.countFor m - 1)) p ∧ Interim s u m d w p R
      ∧ s.reopen i false (some v) = .next (u.preempted u.cur s.me.pc (BitVec.ofNat 64 p) (BitVec.ofNat 64 0)) := by
  generalize hn : s.countFor m = n at buffers
  generalize hk : Min.min v n = k at buffers
  obtain ⟨enable, enough, turn, once, low, dusk, spine⟩ := buffers
  rw [buffersFor_eq, Nat.one_mul] at enable enough
  rw [buffersFor_eq] at spine
  obtain ⟨t, taken, granted⟩ := granted_of_allocs enable enough once low dusk
  have run : ∃ fin, Run.loop (openedWith s m (some (preemptHit v))).fuel (openedWith s m (some (preemptHit v)))
      = mapRun s m (some (preemptHit v)) n k fin R := by
    rcases Nat.lt_or_ge n v with past | inside
    · have k_eq : k = n := hk ▸ Nat.min_eq_right past.le
      exact ⟨true, by rw [k_eq, ← hn]; exact loop_whole h fun x e => by rw [← Option.some.inj e, hn]; exact past⟩
    · have k_eq : k = v := hk ▸ Nat.min_eq_left inside
      exact ⟨false, by rw [k_eq, ← hn]; exact loop_interrupted h rfl some_ (hn ▸ inside)⟩
  obtain ⟨fin, run⟩ := run
  generalize hr : mapRun s m (some (preemptHit v)) n k fin R = r at run
  have alloc : r.allocate s false = .ok t (((s.myPool.free.take (buffersOf s.myPool.size w k)).map (mkId s.me.farPool)).map
      fun i => ({ pos := 0, k := 0, id := i } : Grant)) none := by
    have needs := needs_mapRun h (some (preemptHit v)) (n := n) (k := k) fin fun x e => by
      rw [← Option.some.inj e, ← hk]; exact Nat.min_le_left ..
    have far : r.st.farPool = s.me.farPool := by rw [← hr]; rfl
    rw [hr] at needs
    unfold Run.allocate
    dsimp only
    rw [far, room_alone turn]
    change s.grants s.myCx s.me.farPool false r.addrs s.myPool.free.length (r.needs s.myPool.size) [] = _
    rw [needs, show Nat.min (buffersOf s.myPool.size w k) 33 = buffersOf s.myPool.size w k from
      Nat.min_eq_left (spine.trans (by decide))]
    refine (grants_eq _ _ _ _ _ _ s t [] _ (fun y hy => ?_) (by simpa using enough) (by simpa using taken)).trans rfl
    obtain ⟨j, hj, rfl⟩ := List.mem_map.1 hy
    exact ⟨Nat.lt_of_lt_of_le (List.mem_range.1 hj) spine, rfl, rfl⟩
  have size : (t.pool t.myCx r.st.farPool).size = s.myPool.size := by
    rw [← hr]
    exact granted.size
  have settled := settles_granted (r := r) (s0 := s) (s := s) (x := preemptHit v) (pre := some v) (start := s.me.pc)
    (by rw [← hr]; rfl) (by rw [← hr]; rfl) alloc (by rw [← hr]; exact judged_of_best rfl rfl)
  rw [size] at settled
  have done : Min.min v (n - 1) ≤ k := by omega
  have room : (Min.min v (n - 1) * w + 7) / 8 ≤ buffersOf s.myPool.size w k * s.myPool.size :=
    (Nat.div_le_div_right (Nat.add_le_add_right (Nat.mul_le_mul_right w done) 7)).trans
      (le_buffers _ _ (size_pos s.myPool))
  obtain ⟨precise, interim⟩ := interim_mapRun h (x := preemptHit v) (fin := fin) (top := Min.min v (n - 1)) (.inl rfl) (if_pos rfl) done
    (by omega : k ≤ n) granted room
  obtain ⟨u, placed, interrupted⟩ := interrupt_mapRun h fin _ rfl interim
  rw [hr] at precise interrupted
  refine ⟨u, _, precise, hr ▸ placed, ?_⟩
  rw [h.reopen]
  change Run.settles (Run.loop (openedWith s m (some (preemptHit v))).fuel (openedWith s m (some (preemptHit v)))) _ _ _ _ _ _ = _
  rw [run, settled, interrupted]
  rfl

/-- An allocation that may take `a` buffers, fewer than the results need, and has waited too long. -/
theorem reopen_refused {a : Nat} (room_eq : s.room s.myCx s.me.farPool = a) (few : a < 32)
    (short : a < s.buffersFor ((s.countFor m * w + 7) / 8)) (enable : s.myPool.enable = true)
    (count : a ≤ s.myPool.free.length) (once : s.myPool.free.Nodup) (low : ∀ i ∈ s.myPool.free, i < 2 ^ 23)
    (dusk : s.me.farPool = true → s.myPool.offDusk s.myPool.free) :
    ∃ u p, s.precise m d w (a * s.myPool.size * 8 / w) p ∧ Interim s u m d w p R
      ∧ s.reopen i true none = .next (u.trapIn u.cur
        { cause := .pool, epc := s.me.pc, eval := noBufferEval s.me.farPool .empty
          evpos := BitVec.ofNat 64 (a * s.myPool.size * 8 / w), vstart := BitVec.ofNat 64 p }) := by
  generalize hn : s.countFor m = n at short
  rw [buffersFor_eq] at short
  obtain ⟨t, taken, granted⟩ := granted_of_allocs (fun _ => enable) count once low dusk
  have run := loop_whole h (b := none) nofun
  rw [hn] at run
  generalize he : a * s.myPool.size * 8 / w = e
  generalize hx : ({ e := e, pos := 0, at_ := e, cause := .pool, eval := noBufferEval s.me.farPool .empty } : Hit) = x
  have wide := formatWidths_pos (h.ew.width h.dests)
  have below : e < n := he ▸ need_below (size_pos s.myPool) wide short
  generalize hr : mapRun s m (some x) n n true R = r
  have alloc : (mapRun s m none n n true R).allocate s true
      = .ok t (((s.myPool.free.take a).map (mkId s.me.farPool)).map
        fun i => ({ pos := 0, k := 0, id := i } : Grant)) (some x) := by
    have needs := needs_mapRun h none (n := n) (k := n) true nofun
    unfold Run.allocate
    dsimp only
    change s.grants s.myCx s.me.farPool true _ (s.room s.myCx s.me.farPool) (Run.needs _ s.myPool.size) [] = _
    rw [room_eq, needs]
    refine (grants_short s.myCx s.me.farPool _ a _ s t [] _ { e := e, pos := 0, k := 0, i := a } ?_ (fun y hy => ?_)
      (granted.enable.trans enable) taken).trans (by rw [hx]; rfl)
    · have at_ : a < Nat.min (buffersOf s.myPool.size w n) 33 := Nat.lt_min.2 ⟨short, few.trans (by decide)⟩
      rw [List.getElem?_map, List.getElem?_range at_, ← he]
      rfl
    · rw [← List.map_take, List.take_range] at hy
      obtain ⟨j, hj, rfl⟩ := List.mem_map.1 hy
      have first : j < a + 1 := Nat.lt_of_lt_of_le (List.mem_range.1 hj) (Nat.min_le_left ..)
      exact ⟨by show j < 32; omega, rfl, rfl⟩
  have size : (t.pool t.myCx (mapRun s m none n n true R).st.farPool).size = s.myPool.size := granted.size
  have settled := settles_refused (v := r) (s0 := s) (s := s) (x := x) (pre := none) (start := s.me.pc)
    rfl rfl alloc (by rw [← hr]; rfl) (by rw [← hr]; exact judged_of_best rfl rfl)
  rw [size] at settled
  have cause : x.cause = .preemption ∨ x.cause = .pool := by rw [← hx]; exact .inr rfl
  have top : (if x.cause = .preemption then Nat.min x.at_ (n - 1) else x.at_) = e := by
    rw [← hx]; exact if_neg nofun
  have room : (e * w + 7) / 8 ≤ a * s.myPool.size := by
    have le : e * w ≤ a * s.myPool.size * 8 := he ▸ Nat.div_mul_le_self ..
    omega
  obtain ⟨precise, interim⟩ := interim_mapRun h (x := x) (n := n) (fin := true) cause top below.le (Nat.le_refl n) granted room
  obtain ⟨u, placed, interrupted⟩ := interrupt_mapRun h true _ (by rw [← hx]) interim
  rw [hr] at precise interrupted
  refine ⟨u, _, precise, hr ▸ placed, ?_⟩
  rw [h.reopen]
  change Run.settles (Run.loop (openedWith s m none).fuel (openedWith s m none)) _ _ _ _ _ _ = _
  rw [run, settled, interrupted, ← hx]
  rfl

end

end Sys2Proof.Machine
end

section
/-! PROOFS. A strand whose granted buffers have been put back for its instruction: what that leaves as it was, and so what an
interruption of the instruction leaves (R298, R299). -/

namespace Sys2Proof.Machine

/-! ### The state with the granted buffers put back -/

theorem unheld_myCx (s : State) : s.unheld.myCx = s.myCx := by
  unfold State.myCx
  rw [unheld_cur]

theorem unheld_segs (s : State) (c : CReg) : s.unheld.segs c = s.segs c := by
  unfold State.segs
  rw [unheld_me]

theorem unheld_pool (s : State) (x : Nat) (far : Bool) :
    { s.unheld.pool x far with free := (s.pool x far).free, refs := (s.pool x far).refs } = s.pool x far := by
  unfold State.unheld
  split
  · rw [pool_setPool]
    split
    · next e => rw [e.1, e.2]; rfl
    · rfl
  · rfl

theorem unheld_cx (s : State) (x : Nat) :
    { s.unheld.cx x with near := (s.cx x).near, far := (s.cx x).far } = s.cx x := by
  unfold State.unheld
  split
  · next far _ _ _ =>
      unfold State.setPool Complex.setPool
      rw [State.cx_setCx]
      split
      · next e => rw [e]; cases far <;> rfl
      · rfl
  · rfl

theorem unheld_myPool (s : State) : { s.unheld.myPool with free := s.myPool.free, refs := s.myPool.refs } = s.myPool := by
  unfold State.myPool
  rw [unheld_myCx, unheld_me]
  exact unheld_pool ..

theorem unheld_size (s : State) : s.unheld.myPool.size = s.myPool.size := by
  have e := congrArg Pool.size (unheld_myPool s)
  exact e

theorem unheld_buffersFor (s : State) (n : Nat) : s.unheld.buffersFor n = s.buffersFor n := by
  unfold State.buffersFor
  rw [unheld_size]

theorem unheld_offDusk (s : State) (l : List Nat) : s.unheld.myPool.offDusk l ↔ s.myPool.offDusk l := by
  have e := congrArg (fun p : Pool => p.offDusk l) (unheld_myPool s)
  exact Iff.of_eq e

theorem unheld_scalarNext {s : State} (h : s.scalarNext) : s.unheld.scalarNext := by
  obtain ⟨w, i, fetched, decoded, scalar⟩ := h
  have same : { s.unheld with strands := s.strands, cxs := s.cxs, cur := s.cur, turns := s.turns } = s := by
    have e := congrArg (fun v : State => { v with strands := s.strands, cur := s.cur, turns := s.turns }) (unheld_rest s)
    exact e
  have strand (k : Nat) : s.unheld.strand k = s.strand k := by unfold State.strand; rw [unheld_strands]
  refine ⟨w, i, ?_, decoded, by rw [unheld_me]; exact scalar⟩
  rw [unheld_me, unheld_cur, fetch_congr _ same (by rw [strand]) (by rw [strand])]
  exact fetched

theorem unheld_copyInto (s : State) (c : CReg) : s.unheld.copyInto c = s.copyInto c := by
  have copies := congrArg State.copies (unheld_rest s)
  dsimp only at copies
  unfold State.copyInto
  rw [unheld_me, copies]

theorem unheld_chainElem (s : State) (l : List Seg) (f : Fmt) (e : Nat) :
    s.unheld.chainElem s.myCx l f e = s.chainElem s.myCx l f e := by
  have same := sameBytes_unheld s s.myCx
  have poison := congrArg State.poison (unheld_rest s)
  have bad := congrArg State.badLines (unheld_rest s)
  have sram := congrArg Complex.sramPoison (unheld_cx s s.myCx)
  dsimp only at poison bad sram
  have place (i : Nat) : (s.unheld.pool s.myCx true).farPlace i = (s.pool s.myCx true).farPlace i := by
    unfold Pool.farPlace
    rw [same.size, (same.layout true).2]
  have marked (id o n : Nat) : s.unheld.bufMarked s.myCx id o n = s.bufMarked s.myCx id o n := by
    unfold State.bufMarked
    dsimp only
    cases idFar id with
    | true => rw [poison, bad, if_pos rfl, if_pos rfl, place]
    | false => rw [if_neg Bool.false_ne_true, if_neg Bool.false_ne_true, same.size, sram]
  have note (id o n : Nat) : s.unheld.bufNote s.myCx id o n = s.bufNote s.myCx id o n := by
    unfold State.bufNote
    rw [place, bad]
  unfold State.chainElem
  simp only [marked, note, same.bufBytes]

theorem unheld_mapElement (s : State) (m : Member) (op : Nat → List Nat → Nat → Bool → Nat × Flags)
    (scal : Option (SReg × Nat)) (sel : Option MReg) (mrg : Bool) (e : Nat) :
    s.unheld.mapElement m op scal sel mrg e = s.mapElement m op scal sel mrg e := by
  have active : s.unheld.active e = s.active e := by unfold State.active State.guardChunk; rw [unheld_me]
  have operand (c : Src) : s.unheld.operand c e = s.operand c e := by
    unfold State.operand
    rw [unheld_me, unheld_myCx, unheld_chainElem]
  have old (d : CReg × Nat) : s.unheld.oldElement d e = s.oldElement d e := by
    unfold State.oldElement
    rw [unheld_me, unheld_myCx, unheld_chainElem]
  unfold State.mapElement State.mapFrom State.reg
  rw [active, old, unheld_me]
  simp only [operand]

theorem unheld_opens {i : Instr} {s : State} {m : Member} (h : Opens i s m) : Opens i s.unheld m := by
  obtain ⟨member, next, fits, clash, plain, still, once, guard⟩ := h
  refine ⟨?_, next.imp id unheld_scalarNext, fits, clash, ?_, fun c hc => ?_, once, ?_⟩
  · rw [unheld_me]; exact member
  · rw [unheld_me]; exact plain
  · rw [unheld_copyInto]; exact still c hc
  · rw [unheld_me]; exact guard

/-- What an instruction computes with its granted buffers put back is what it computes. -/
theorem computes_unheld {i : Instr} {s : State} {m : Member} {d : CReg} {w : Nat} {R : Nat → Nat × Flags}
    {op : Nat → List Nat → Nat → Bool → Nat × Flags} {scal : Option (SReg × Nat)} {sel : Option MReg} {mrg : Bool}
    (ew : elementwise i = true) (alone : Alone i s m) (body : m.body = .map op scal sel mrg) (dests : m.dests = [(d, w)])
    (value : ∀ k, k < s.countFor m → s.mapElement m op scal sel mrg k = .val (R k)) : Computes i s.unheld m d w R where
  toOpens := unheld_opens alone.toOpens
  start := by rw [unheld_me]; exact alone.start
  masked := by rw [unheld_me]; exact alone.masked
  whole := by rw [unheld_me]; exact alone.whole
  ew := by rw [unheld_me]; exact elementwise_of_memberOf ew alone.member
  dests := dests
  value := ⟨op, scal, sel, mrg, body, fun k below => by
    have count : s.unheld.countFor m = s.countFor m := by unfold State.countFor; rw [unheld_me]
    rw [unheld_mapElement]
    exact value k (count ▸ below)⟩

/-! ### What is claimed of the interruption -/

theorem precise_of_unheld {s : State} {m : Member} {d : CReg} {w h v : Nat} (p : s.unheld.precise m d w h v) :
    s.precise m d w h v := by
  unfold State.precise at *
  dsimp only at *
  simpa only [unheld_buffersFor, unheld_segs] using p

theorem stoppedAt_of_unheld {s t : State} {m : Member} {d : CReg} {w e v : Nat} {c : Cause} {eval : Word}
    {R : Nat → Nat × Flags} (h : StoppedAt s.unheld t m d w e v c eval R) : StoppedAt s t m d w e v c eval R := by
  obtain ⟨trap, chain, others, asked, strand, memory⟩ := h
  have parts := congrArg State.parts (unheld_rest s)
  have mvec := congrArg State.mvec (unheld_rest s)
  rw [unheld_me, unheld_cur] at trap
  rw [unheld_segs, unheld_myCx] at chain
  rw [unheld_me] at asked strand memory
  refine ⟨trap.of_strands (unheld_strands s) parts mvec, chain, fun q other => by rw [others q other, unheld_me], asked, strand,
    fun near l => ?_⟩
  rw [memory near, (sameBytes_unheld s 0).byteAt]

end Sys2Proof.Machine
end

section
/-! PROOFS. A `cnew` that is granted the buffer it has waited for (R120, R135). -/

namespace Sys2Proof.Machine

/-! ### References -/

theorem ref_dropRefs (s : State) (x : Nat) (l : List Seg) (far : Bool) (i : Nat) :
    ((s.dropRefs x l).pool x far).ref i = (s.pool x far).ref i - named far i l := by
  induction l generalizing s with
  | nil => rfl
  | cons g l ih =>
      have one : ((s.dropRef x g.id).pool x far).ref i
          = (s.pool x far).ref i - if (idFar g.id == far && idIndex g.id == i) = true then 1 else 0 := by
        rw [pool_dropRef]
        by_cases side : far = idFar g.id
        · rw [if_pos ⟨rfl, side⟩, ref_drop, side]
          by_cases index : i = idIndex g.id
          · rw [if_pos index, if_pos (by simp [index]), index]
          · rw [if_neg index, if_neg (by simp [Ne.symm index])]; rfl
        · rw [if_neg fun e => side e.2, if_neg (by simp [Ne.symm side])]; rfl
      rw [dropRefs_cons, ih, one]
      unfold named
      rw [List.countP_cons]
      omega

/-- What dropping references leaves of a pool beside the counts. -/
theorem dropRefs_pool_rest (s : State) (x y : Nat) (l : List Seg) (far : Bool) :
    { (s.dropRefs x l).pool y far with refs := (s.pool y far).refs } = s.pool y far := by
  induction l generalizing s with
  | nil => rfl
  | cons g l ih =>
      have one : { (s.dropRef x g.id).pool y far with refs := (s.pool y far).refs } = s.pool y far := by
        rw [pool_dropRef]
        split
        · next e => rw [e.1, e.2]; rfl
        · rfl
      exact (congrArg (fun p : Pool => { p with refs := (s.pool y far).refs }) (ih (s.dropRef x g.id))).trans one

/-- What it leaves of the complexes beside the pools and the reclaim queue. -/
theorem dropRefs_cx (s : State) (x : Nat) (l : List Seg) :
    (∀ y, y ≠ x → (s.dropRefs x l).cx y = s.cx y)
      ∧ { (s.dropRefs x l).cx x with near := (s.cx x).near, far := (s.cx x).far, reclaim := (s.cx x).reclaim } = s.cx x := by
  induction l generalizing s with
  | nil => exact ⟨fun _ _ => rfl, rfl⟩
  | cons g l ih =>
      obtain ⟨others, here⟩ := ih (s.dropRef x g.id)
      have one : (∀ y, y ≠ x → (s.dropRef x g.id).cx y = s.cx y) ∧ { (s.dropRef x g.id).cx x with
          near := (s.cx x).near, far := (s.cx x).far, reclaim := (s.cx x).reclaim } = s.cx x := by
        unfold State.dropRef State.setPool Complex.setPool
        dsimp only
        split
        · refine ⟨fun y other => ?_, ?_⟩
          · rw [State.cx_setCx, if_neg other, State.cx_setCx, if_neg other]
          · rw [State.cx_setCx_same, State.cx_setCx_same]
            cases idFar g.id <;> rfl
        · refine ⟨fun y other => ?_, ?_⟩
          · rw [State.cx_setCx, if_neg other]
          · rw [State.cx_setCx_same]
            cases idFar g.id <;> rfl
      refine ⟨fun y other => (others y other).trans (one.1 y other), ?_⟩
      exact (congrArg (fun c : Complex => { c with near := (s.cx x).near, far := (s.cx x).far, reclaim := (s.cx x).reclaim })
        here).trans one.2

/-! ### The new chain -/

/-- The state in which the head of the free list has been taken from the executing strand's pool. -/
def State.headTaken (s : State) (b : Nat) (rest : List Nat) : State :=
  s.setPool s.myCx s.me.farPool { s.myPool with free := rest, refs := Sparse.put 0 b 1 s.myPool.refs }

/-- The segment that `cnew` gives its register: the whole of buffer `b`. -/
def State.wholeBuffer (s : State) (b : Nat) : Seg := { id := mkId s.me.farPool b, start := 0, count := s.myPool.size }

/-- `cnew` with a buffer to be had. -/
theorem exec_cnew {s : State} {c : CReg} {b : Nat} {rest : List Nat} (edit : s.editable [c] [])
    (enable : s.myPool.enable = true) (free : s.myPool.free = b :: rest) (room : 0 < s.room s.myCx s.me.farPool) :
    exec (.cnew c) s = .next (((s.headTaken b rest).fill s.myCx [s.wholeBuffer b] (List.replicate s.myPool.size 0)).edit c []
      [s.wholeBuffer b]) := by
  have taken : s.myAllocs 1 = .ok ([mkId s.me.farPool b], s.headTaken b rest) := by
    have one := alloc_cons (s := s) (x := s.myCx) (far := s.me.farPool) enable free
    have all : s.allocs s.myCx s.me.farPool 1 = .ok ([mkId s.me.farPool b], s.headTaken b rest) := allocs_succ one rfl
    unfold State.myAllocs
    dsimp only
    rw [if_neg]
    · rw [show s.me.far = s.me.farPool from rfl, all]
    · have more : ¬ s.room s.myCx s.me.far < 1 := Nat.not_lt.2 room
      simp [more]
  have dense : denseSegs s.myPool.size s.myPool.size [mkId s.me.farPool b] = [s.wholeBuffer b] := by
    unfold State.wholeBuffer denseSegs
    rw [show Nat.min s.myPool.size s.myPool.size = s.myPool.size from Nat.min_self _]
    rfl
  change s.noStream [c] [] _ = _
  rw [noStream_editable edit, taken]
  change Host.Outcome.next (State.edit (State.fill _ _ (denseSegs s.myPool.size s.myPool.size _) _) _ _
    (denseSegs s.myPool.size s.myPool.size _)) = _
  rw [dense]
  rfl

/-- The first buffer that is free is the one chain of `cnew`. -/
theorem newSegs_one {s : State} {b : Nat} {rest : List Nat} (free : s.myPool.free = b :: rest) :
    s.newSegs s.myPool.size 1 0 = [s.wholeBuffer b] := by
  have one : s.buffersFor s.myPool.size = 1 := Nat.div_eq_of_lt_le (by have := size_pos s.myPool; omega) (by have := size_pos s.myPool; omega)
  unfold State.newSegs
  rw [one, free]
  change denseSegs s.myPool.size s.myPool.size [mkId s.me.farPool b] = _
  unfold State.wholeBuffer denseSegs
  rw [show Nat.min s.myPool.size s.myPool.size = s.myPool.size from Nat.min_self _]
  rfl

end Sys2Proof.Machine
end

section
/-! PROOFS. What a `cnew` leaves that takes the buffer it has been granted (R120, R126, R135). -/

namespace Sys2Proof.Machine

/-! ### What a `cnew` leaves in general -/

/-- The state that `cnew` leaves. -/
def State.newChain (s : State) (c : CReg) (b : Nat) (rest : List Nat) : State :=
  ((s.headTaken b rest).fill s.myCx [s.wholeBuffer b] (List.replicate s.myPool.size 0)).edit c [] [s.wholeBuffer b]

/-- The state between: the buffer taken and filled with zeros. -/
def State.newBuffer (s : State) (b : Nat) (rest : List Nat) : State :=
  (s.headTaken b rest).fill s.myCx [s.wholeBuffer b] (List.replicate s.myPool.size 0)

theorem pool_headTaken (s : State) (b : Nat) (rest : List Nat) (y : Nat) (far : Bool) :
    (s.headTaken b rest).pool y far = if y = s.myCx ∧ far = s.me.farPool then
      { s.myPool with free := rest, refs := Sparse.put 0 b 1 s.myPool.refs } else s.pool y far := pool_setPool ..

theorem fills_newBuffer (s : State) (b : Nat) (rest : List Nat) :
    Fills s.myCx [s.wholeBuffer b] (s.headTaken b rest) (s.newBuffer b rest) := fills_fill ..

theorem newBuffer_cur (s : State) (b : Nat) (rest : List Nat) : (s.newBuffer b rest).cur = s.cur := fill_cur ..

theorem newBuffer_me (s : State) (b : Nat) (rest : List Nat) : (s.newBuffer b rest).me = s.me := by
  have strands := congrArg State.strands (fills_newBuffer s b rest).rest
  dsimp only at strands
  unfold State.me State.strand
  rw [newBuffer_cur, strands]
  rfl

theorem newBuffer_myCx (s : State) (b : Nat) (rest : List Nat) : (s.newBuffer b rest).myCx = s.myCx := by
  unfold State.myCx
  rw [newBuffer_cur]

/-- The chain register written: its old references dropped after. -/
def State.chainWritten (s : State) (c : CReg) (b : Nat) (rest : List Nat) : State :=
  ((s.newBuffer b rest).setMe (s.me.setChain c { segs := [s.wholeBuffer b] })).dropRefs s.myCx (s.segs c)

theorem newChain_eq (s : State) (c : CReg) (b : Nat) (rest : List Nat) :
    s.newChain c b rest = (s.chainWritten c b rest).setMe ((s.me.setChain c { segs := [s.wholeBuffer b] }).go (s.me.pc + 4)) := by
  have written : (s.newBuffer b rest).writeChain c [s.wholeBuffer b] = s.chainWritten c b rest := by
    unfold State.writeChain State.chainWritten
    rw [newBuffer_me, newBuffer_myCx]
    rfl
  have me : (s.chainWritten c b rest).me = s.me.setChain c { segs := [s.wholeBuffer b] } := by
    unfold State.chainWritten
    rw [dropRefs_me, State.me_setMe]
  have edited : s.newChain c b rest = ((s.newBuffer b rest).writeChain c [s.wholeBuffer b]).advance := rfl
  rw [edited, written]
  unfold State.advance
  rw [me]
  rfl

theorem newChain_me (s : State) (c : CReg) (b : Nat) (rest : List Nat) :
    (s.newChain c b rest).me = (s.me.setChain c { segs := [s.wholeBuffer b] }).go (s.me.pc + 4) := by
  rw [newChain_eq, State.me_setMe]

theorem newChain_cxs (s : State) (c : CReg) (b : Nat) (rest : List Nat) :
    (s.newChain c b rest).cxs = (s.chainWritten c b rest).cxs := by
  rw [newChain_eq]
  rfl

theorem newChain_cx (s : State) (c : CReg) (b : Nat) (rest : List Nat) (y : Nat) :
    (s.newChain c b rest).cx y = (s.chainWritten c b rest).cx y := congrArg (Sparse.get Complex.reset y) (newChain_cxs s c b rest)

theorem newChain_pool (s : State) (c : CReg) (b : Nat) (rest : List Nat) (y : Nat) (far : Bool) :
    (s.newChain c b rest).pool y far = (s.chainWritten c b rest).pool y far := by
  unfold State.pool
  rw [newChain_cx]

/-- The pools of the package after a `cnew`, before old references drop. -/
theorem newBuffer_pool (s : State) (b : Nat) (rest : List Nat) (y : Nat) (far : Bool) :
    (s.newBuffer b rest).pool y far = (s.headTaken b rest).pool y far := (fills_newBuffer s b rest).pool y far

theorem newChain_ref (s : State) (c : CReg) (b : Nat) (rest : List Nat) (far : Bool) (i : Nat) :
    ((s.newChain c b rest).pool s.myCx far).ref i
      = (if far = s.me.farPool ∧ i = b then 1 else (s.pool s.myCx far).ref i) - named far i (s.segs c) := by
  have before : (((s.newBuffer b rest).setMe (s.me.setChain c { segs := [s.wholeBuffer b] })).pool s.myCx far).ref i
      = if far = s.me.farPool ∧ i = b then 1 else (s.pool s.myCx far).ref i := by
    change ((s.newBuffer b rest).pool s.myCx far).ref i = _
    rw [newBuffer_pool, pool_headTaken]
    by_cases side : far = s.me.farPool
    · rw [if_pos ⟨rfl, side⟩, side]
      change Sparse.get 0 i (Sparse.put 0 b 1 s.myPool.refs) = _
      rw [Sparse.get_put]
      by_cases same : i = b
      · rw [if_pos same, if_pos ⟨rfl, same⟩]
      · rw [if_neg same, if_neg fun e => same e.2]; rfl
    · rw [if_neg fun e => side e.2, if_neg fun e => side e.1]
  rw [newChain_pool]
  unfold State.chainWritten
  rw [ref_dropRefs, before]

theorem newChain_pool_rest (s : State) (c : CReg) (b : Nat) (rest : List Nat) (far : Bool) :
    { (s.newChain c b rest).pool s.myCx far with free := (s.pool s.myCx far).free, refs := (s.pool s.myCx far).refs }
      = s.pool s.myCx far := by
  have dropped := dropRefs_pool_rest ((s.newBuffer b rest).setMe (s.me.setChain c { segs := [s.wholeBuffer b] })) s.myCx s.myCx
    (s.segs c) far
  have before : { (s.newBuffer b rest).pool s.myCx far with
      free := (s.pool s.myCx far).free, refs := (s.pool s.myCx far).refs } = s.pool s.myCx far := by
    rw [newBuffer_pool, pool_headTaken]
    split
    · next e => rw [e.2]; rfl
    · rfl
  rw [newChain_pool]
  exact (congrArg (fun p : Pool => { p with free := (s.pool s.myCx far).free, refs := (s.pool s.myCx far).refs }) dropped).trans
    before

theorem newChain_free (s : State) (c : CReg) (b : Nat) (rest : List Nat) (far : Bool) :
    ((s.newChain c b rest).pool s.myCx far).free = if far = s.me.farPool then rest else (s.pool s.myCx far).free := by
  rw [newChain_pool]
  unfold State.chainWritten
  rw [(dropRefs_pool ..).1]
  change ((s.newBuffer b rest).pool s.myCx far).free = _
  rw [newBuffer_pool, pool_headTaken]
  by_cases side : far = s.me.farPool
  · rw [if_pos ⟨rfl, side⟩, if_pos side]
  · rw [if_neg fun e => side e.2, if_neg side]

theorem sameBytes_newChain (s : State) (c : CReg) (b : Nat) (rest : List Nat) (x : Nat) :
    SameBytes x (s.newBuffer b rest) (s.newChain c b rest) := by
  rw [newChain_eq]
  unfold State.chainWritten
  exact ((sameBytes_setMe ..).trans (sameBytes_dropRefs ..)).trans (sameBytes_setMe ..)

theorem sameBytes_headTaken (s : State) (b : Nat) (rest : List Nat) (x : Nat) : SameBytes x s (s.headTaken b rest) :=
  sameBytes_setPool s x s.myCx s.me.farPool rfl rfl

/-- The new buffer holds zeros. -/
theorem newChain_bytes {s : State} {b : Nat} (c : CReg) (rest : List Nat) (low : b < 2 ^ 23)
    (dusk : s.me.farPool = true → s.myPool.offDusk [b]) :
    (s.newChain c b rest).segBytes s.myCx [s.wholeBuffer b] = List.replicate s.myPool.size 0 := by
  have same := sameBytes_headTaken s b rest s.myCx
  have size : ((s.headTaken b rest).pool s.myCx s.me.farPool).size = s.myPool.size := same.size _
  have place (i : Nat) : ((s.headTaken b rest).pool s.myCx s.me.farPool).farPlace i = s.myPool.farPlace i := by
    unfold Pool.farPlace
    rw [size, (same.layout _).2]
    rfl
  have dense := segBytes_dense (s := s.headTaken b rest) (x := s.myCx) (far := s.me.farPool) (l := [b])
    (bs := List.replicate s.myPool.size 0) (List.nodup_singleton b)
    (fun i hi => by rw [List.mem_singleton.1 hi]; exact low) ?_ (by rw [size]; simp)
  · have whole : denseSegs s.myPool.size s.myPool.size [mkId s.me.farPool b] = [s.wholeBuffer b] := by
      unfold State.wholeBuffer denseSegs
      rw [show Nat.min s.myPool.size s.myPool.size = s.myPool.size from Nat.min_self _]
      rfl
    rw [size, List.length_replicate] at dense
    change State.segBytes (State.fill _ _ (denseSegs s.myPool.size s.myPool.size [mkId s.me.farPool b]) _) _
      (denseSegs s.myPool.size s.myPool.size [mkId s.me.farPool b]) = _ at dense
    rw [whole] at dense
    rw [(sameBytes_newChain s c b rest s.myCx).segBytes]
    exact dense
  · intro far i hi o below
    rw [size] at below
    rw [place]
    exact dusk far i hi o below

theorem newChain_rest (s : State) (c : CReg) (b : Nat) (rest : List Nat) :
    { s.newChain c b rest with strands := s.strands, cxs := s.cxs, mem := s.mem, poison := s.poison, badLines := s.badLines }
      = s := by
  have dropped := dropRefs_rest ((s.newBuffer b rest).setMe (s.me.setChain c { segs := [s.wholeBuffer b] })) s.myCx (s.segs c)
  have fills := (fills_newBuffer s b rest).rest
  rw [newChain_eq]
  have e := congrArg (fun v : State => { v with
    strands := s.strands, cxs := s.cxs, mem := s.mem, poison := s.poison, badLines := s.badLines }) dropped
  have e' := congrArg (fun v : State => { v with strands := s.strands, cxs := s.cxs }) fills
  exact Eq.trans e e'

theorem newChain_strand (s : State) (c : CReg) (b : Nat) (rest : List Nat) {k : Nat} (other : k ≠ s.cur) :
    (s.newChain c b rest).strand k = s.strand k := by
  have strands : (s.newBuffer b rest).strands = s.strands := by
    have e := congrArg State.strands (fills_newBuffer s b rest).rest; exact e
  have cur : (s.chainWritten c b rest).cur = s.cur := by
    unfold State.chainWritten
    rw [dropRefs_cur, State.setMe_cur, newBuffer_cur]
  rw [newChain_eq, State.strand_setMe_ne _ (by rw [cur]; exact other)]
  have e : (s.chainWritten c b rest).strand k
      = ((s.newBuffer b rest).setMe (s.me.setChain c { segs := [s.wholeBuffer b] })).strand k := by
    unfold State.chainWritten State.strand
    rw [dropRefs_strands]
  rw [e, State.strand_setMe_ne _ (by rw [newBuffer_cur]; exact other)]
  unfold State.strand
  rw [strands]

/-- The complexes beside the pools and the bytes. -/
theorem newChain_complexes (s : State) (c : CReg) (b : Nat) (rest : List Nat) :
    (∀ y, y ≠ s.myCx → (s.newChain c b rest).cx y = s.cx y)
      ∧ { (s.newChain c b rest).cx s.myCx with
          near := (s.cx s.myCx).near, far := (s.cx s.myCx).far, sram := (s.cx s.myCx).sram
          sramPoison := (s.cx s.myCx).sramPoison, reclaim := (s.cx s.myCx).reclaim } = s.cx s.myCx := by
  have fills := fills_newBuffer s b rest
  obtain ⟨others, here⟩ := dropRefs_cx ((s.newBuffer b rest).setMe (s.me.setChain c { segs := [s.wholeBuffer b] })) s.myCx
    (s.segs c)
  refine ⟨fun y other => ?_, ?_⟩
  · rw [newChain_cx]
    refine (others y other).trans ((fills.complexes y other).trans ?_)
    unfold State.headTaken State.setPool
    rw [State.cx_setCx, if_neg other]
  · have taken : { (s.headTaken b rest).cx s.myCx with near := (s.cx s.myCx).near, far := (s.cx s.myCx).far } = s.cx s.myCx := by
      unfold State.headTaken State.setPool Complex.setPool
      rw [State.cx_setCx_same]
      cases s.me.farPool <;> rfl
    rw [newChain_cx]
    have one := congrArg (fun c : Complex => { c with
      near := (s.cx s.myCx).near, far := (s.cx s.myCx).far, sram := (s.cx s.myCx).sram
      sramPoison := (s.cx s.myCx).sramPoison, reclaim := (s.cx s.myCx).reclaim }) here
    have two := congrArg (fun c : Complex => { c with
      near := (s.cx s.myCx).near, far := (s.cx s.myCx).far, sram := (s.cx s.myCx).sram
      sramPoison := (s.cx s.myCx).sramPoison, reclaim := (s.cx s.myCx).reclaim }) fills.complex
    have three := congrArg (fun c : Complex => { c with
      sram := (s.cx s.myCx).sram, sramPoison := (s.cx s.myCx).sramPoison, reclaim := (s.cx s.myCx).reclaim }) taken
    exact one.trans (two.trans three)

end Sys2Proof.Machine
end

section
/-! PROOFS. A strand that waits for one buffer is granted it and completes its `cnew` (R120, R126, R135). -/

namespace Sys2Proof.Machine

/-! ### The chain and the pools that a `cnew` leaves -/

theorem cdirty_setChain (m : Strand) (c q : CReg) (v : Chain) :
    (m.setChain c v).cdirty.getLsbD q.toNat = (m.cdirty.getLsbD q.toNat || c == q) := by
  have below : q.toNat < 32 := q.isLt
  unfold Strand.setChain
  dsimp only
  rw [BitVec.getLsbD_or]
  congr 1
  change (BitVec.ofNat 32 (1 <<< c.toNat)).getLsbD q.toNat = _
  rw [BitVec.getLsbD_ofNat, Nat.one_shiftLeft, Nat.testBit_two_pow, decide_eq_true below, Bool.true_and, beq_eq_decide]
  exact decide_eq_decide.2 BitVec.toNat_inj

theorem spans_far {s : State} {g : Seg} {p : Nat} : s.spans s.myCx true g p ↔ s.inFar g p := by
  unfold State.spans State.inFar State.bufAt Pool.farPlace
  rw [placeOf_zero]
  refine and_congr_right fun side => ?_
  rw [side, if_pos rfl]

theorem spans_near {s : State} {g : Seg} {p : Nat} : s.spans s.myCx false g p ↔ s.inNear g p := by
  unfold State.spans State.inNear State.bufAt
  refine and_congr_right fun side => ?_
  rw [side, if_neg Bool.false_ne_true, Nat.zero_add]

/-- `cnew` fills the first buffer that was free with zeros and gives its register that chain. -/
theorem newChain_spec {s : State} {c : CReg} {b : Nat} {rest : List Nat} (free : s.myPool.free = b :: rest)
    (low : b < 2 ^ 23) (dusk : s.me.farPool = true → s.myPool.offDusk [b]) :
    NewChain s (s.newChain c b rest) c (List.replicate s.myPool.size 0) := by
  have one : s.buffersFor s.myPool.size = 1 :=
    Nat.div_eq_of_lt_le (by have := size_pos s.myPool; omega) (by have := size_pos s.myPool; omega)
  have chain : (s.newChain c b rest).me.chain c = { segs := [s.wholeBuffer b] } := by
    rw [newChain_me, Strand.chain_go, Strand.chain_setChain, if_pos rfl]
  unfold NewChain
  rw [List.length_replicate]
  refine ⟨fun k below => ?_, fun _ _ => ?_, ?_, fun far i => ?_, fun q other => ?_, fun q => ?_⟩
  · rw [Nat.lt_one_iff.1 below, newSegs_one free, chain]
  · unfold State.segs
    rw [chain]
    exact newChain_bytes c rest low dusk
  · rw [newChain_free, if_pos rfl, one, free]
    rfl
  · rw [newChain_ref, one, free]
    simp
  · rw [newChain_me, Strand.chain_go, Strand.chain_setChain, if_neg (other 0 Nat.zero_lt_one)]
  · rw [newChain_me, Strand.go_cdirty, cdirty_setChain, List.range_one, List.any_cons, List.any_nil, Bool.or_false]

/-- It changes no more than that. -/
theorem newChain_poolsOnly {s : State} {c : CReg} {b : Nat} {rest : List Nat} (free : s.myPool.free = b :: rest) :
    PoolsOnly s s (s.newChain c b rest) 1 s.myPool.size := by
  have segs : ((List.range 1).flatMap fun k => s.newSegs s.myPool.size 1 k) = [s.wholeBuffer b] := by
    rw [List.range_one, List.flatMap_singleton, newSegs_one free]
  have fills := fills_newBuffer s b rest
  have taken := sameBytes_headTaken s b rest s.myCx
  have after := sameBytes_newChain s c b rest s.myCx
  have spans (far : Bool) (g : Seg) (p : Nat) : (s.headTaken b rest).spans s.myCx far g p ↔ s.spans s.myCx far g p := by
    unfold State.spans State.bufAt
    rw [taken.size, (taken.layout true).2]
  obtain ⟨complexes, complex⟩ := newChain_complexes s c b rest
  refine ⟨?_, ?_⟩
  · rw [segs]
    refine ⟨fun i other => newChain_strand s c b rest other, ?_, fun p free => ?_, fun near => ?_, fun p free => ?_, complexes,
      complex, fun far => newChain_pool_rest s c b rest far⟩
    · exact newChain_rest s c b rest
    · rw [after.byteAt, fills.memory p fun g hg => (spans ..).not.2 (spans_far.not.2 (free g hg)), taken.byteAt]
    · obtain ⟨-, poison, bad⟩ := fills.marks near
      rw [newChain_eq]
      have dropped := dropRefs_rest ((s.newBuffer b rest).setMe (s.me.setChain c { segs := [s.wholeBuffer b] })) s.myCx (s.segs c)
      have poison' := congrArg State.poison dropped
      have bad' := congrArg State.badLines dropped
      exact ⟨Eq.trans poison' poison, Eq.trans bad' bad⟩
    · rw [after.sram, fills.near p fun g hg => (spans ..).not.2 (spans_near.not.2 (free g hg)), taken.sram]
  · rw [newChain_free, if_neg (by cases s.me.farPool <;> decide)]

/-! ### A strand that has been granted its first buffer -/

section
variable {u : State} {far : Bool} {since : Nat} (waits : u.me.wait = .alloc far since [])
include waits

theorem granted_cx (b y : Nat) : (u.granted far b).cx y = u.cx y := by
  change u.unheld.cx y = u.cx y
  rw [unheld_eq waits]
  have same : (u.pool u.myCx far).unhold [] = u.pool u.myCx far := rfl
  rw [same]
  unfold State.setPool Complex.setPool State.pool Complex.pool
  rw [State.cx_setCx]
  split
  · next e => rw [e]; cases far <;> rfl
  · rfl

theorem granted_first (b : Nat) : (u.granted far b).me = { u.me with wait := .alloc far u.clock [b] } := granted_me waits b

end

/-- A state in which the executing strand waits differently and that is otherwise the same to it. -/
structure SameBut (u g : State) (w : Wait) : Prop where
  rest    : { g with cxs := u.cxs, strands := u.strands } = u
  cx      : ∀ y, g.cx y = u.cx y
  me      : g.me = { u.me with wait := w }
  strand  : ∀ k, k ≠ u.cur → g.strand k = u.strand k

section
variable {u g : State} {w : Wait} (same : SameBut u g w)
include same

theorem SameBut.cur : g.cur = u.cur := by
  have e := congrArg State.cur same.rest
  exact e

theorem SameBut.myCx : g.myCx = u.myCx := by
  unfold State.myCx
  rw [same.cur]

theorem SameBut.pool (y : Nat) (far : Bool) : g.pool y far = u.pool y far := by
  unfold State.pool
  rw [same.cx]

theorem SameBut.farPool : g.me.farPool = u.me.farPool := by rw [same.me]

theorem SameBut.myPool : g.myPool = u.myPool := by
  unfold State.myPool
  rw [same.pool, same.myCx, same.farPool]

theorem SameBut.chain (c : CReg) : g.me.chain c = u.me.chain c := by rw [same.me]; rfl

theorem SameBut.segs (c : CReg) : g.segs c = u.segs c := by
  unfold State.segs
  rw [same.chain]

theorem SameBut.newSegs (n rows k : Nat) : g.newSegs n rows k = u.newSegs n rows k := by
  unfold State.newSegs State.buffersFor
  rw [same.myPool, same.farPool]

theorem SameBut.byteAt (p : Nat) : g.byteAt p = u.byteAt p := by
  have mem := congrArg State.mem same.rest
  exact congrArg (Sparse.get unwritten p) mem

theorem SameBut.editable {l r : List CReg} (h : u.editable l r) : g.editable l r := by
  obtain ⟨plain, still⟩ := h
  have copies := congrArg State.copies same.rest
  dsimp only at copies
  refine ⟨fun c hc => ?_, fun c hc => ?_⟩
  · unfold Strand.streamed
    rw [same.chain]
    exact plain c hc
  · unfold State.copyInto
    rw [copies, same.me]
    exact still c hc

theorem SameBut.newChain {t : State} {d : CReg} {bs : List Byte} (h : NewChain g t d bs) : NewChain u t d bs := by
  obtain ⟨spine, bytes, free, refs, chains, dirty⟩ := h
  refine ⟨fun k hk => ?_, fun k hk => ?_, ?_, fun far i => ?_, fun c other => ?_, fun c => ?_⟩
  · rw [spine k hk, same.newSegs]
  · rw [← same.myCx]
    exact bytes k hk
  · unfold State.buffersFor
    rw [← same.myPool, ← same.myCx, ← same.farPool]
    exact free
  · have e := refs far i
    unfold State.buffersFor at e ⊢
    rw [same.myPool, same.farPool, same.pool, same.myCx] at e
    rw [e]
    simp only [same.segs]
  · rw [chains c other, same.chain]
  · rw [dirty c, same.me]

theorem SameBut.poolsOnly {t : State} {rows n : Nat} (h : PoolsOnly g g t rows n) : PoolsOnly u u t rows n := by
  obtain ⟨⟨others, rest, memory, marks, near, complexes, complex, pools⟩, other⟩ := h
  have poison := congrArg State.poison same.rest
  have bad := congrArg State.badLines same.rest
  dsimp only at poison bad
  have inFar (q : Seg) (p : Nat) : g.inFar q p ↔ u.inFar q p := by
    unfold State.inFar
    rw [same.pool, same.myCx]
  have inNear (q : Seg) (p : Nat) : g.inNear q p ↔ u.inNear q p := by
    unfold State.inNear
    rw [same.pool, same.myCx]
  have rest' : { t with
      strands := u.strands, cxs := u.cxs, mem := u.mem, poison := u.poison, badLines := u.badLines } = u := by
    have e := congrArg (fun v : State => { v with
      strands := u.strands, cxs := u.cxs, mem := u.mem, poison := u.poison, badLines := u.badLines }) rest
    have e' := congrArg (fun v : State => { v with mem := u.mem, poison := u.poison, badLines := u.badLines }) same.rest
    exact Eq.trans e e'
  simp only [same.newSegs, same.cur, same.myCx, same.farPool, same.cx, same.pool, same.byteAt, inFar, inNear] at *
  refine ⟨⟨fun i hi => (others i hi).trans (same.strand i hi), rest', memory, ?_, near, complexes, complex, pools⟩, other⟩
  rw [← poison, ← bad]
  exact marks

end

theorem sameBut_granted {u : State} {far : Bool} {since : Nat} (waits : u.me.wait = .alloc far since []) (b : Nat) :
    SameBut u (u.granted far b) (.alloc far u.clock [b]) where
  rest := granted_rest u far b
  cx := granted_cx waits b
  me := granted_first waits b
  strand k other := by
    refine (State.strand_setMe_ne _ (by rw [unheld_cur]; exact other) _).trans ?_
    unfold State.strand
    rw [unheld_strands]

/-! ### The grant -/

/-- A strand granted the one buffer that its `cnew` needs completes it. -/
theorem allocGrant_cnew {s : State} {sid : Nat} {since : Nat} {c : CReg} {b : Nat} {rest : List Nat}
    (waits : (s.strand sid).wait = .alloc (s.strand sid).farPool since [])
    (free : (s.pool (cxOf sid) (s.strand sid).farPool).free = b :: rest)
    (first : s.waitsLongest (cxOf sid) (s.strand sid).farPool sid since)
    (next : ({ s with cur := sid } : State).nextInstr = some (.cnew c))
    (edit : ({ s with cur := sid } : State).editable [c] [])
    (enable : ({ s with cur := sid } : State).myPool.enable = true) (once : (b :: rest).Nodup) (low : b < 2 ^ 23)
    (dusk : (s.strand sid).farPool = true → ({ s with cur := sid } : State).myPool.offDusk [b]) :
    ∃ t, exec (.allocGrant sid) s = .next t
      ∧ NewChain { s with cur := sid } t c (List.replicate ({ s with cur := sid } : State).myPool.size 0)
      ∧ PoolsOnly { s with cur := sid } { s with cur := sid } t 1 ({ s with cur := sid } : State).myPool.size
      ∧ { t.me with chains := (s.strand sid).chains, cdirty := (s.strand sid).cdirty }
        = { s.strand sid with pc := (s.strand sid).pc + 4, wait := .none } := by
  have again := allocGrant_first waits free first next (.inl (.inl ⟨c, rfl⟩))
  have me : ({ s with cur := sid } : State).me = s.strand sid := rfl
  have at_ : ({ s with cur := sid } : State).myCx = cxOf sid := rfl
  have here : ({ s with cur := sid } : State).myPool.free = b :: rest := free
  generalize ({ s with cur := sid } : State) = u at *
  rw [← me] at waits again dusk ⊢
  rw [← at_] at again
  generalize hf : u.me.farPool = far at waits again
  have same := sameBut_granted waits b
  generalize hg : u.granted far b = g at same again
  have free_g : g.myPool.free = b :: rest := by rw [same.myPool]; exact here
  have behind_room : 0 < g.room g.myCx g.me.farPool := by
    unfold State.room
    dsimp only
    rw [show g.pool g.myCx g.me.farPool = g.myPool from rfl, free_g, same.farPool, hf, same.me]
    unfold Wait.held
    split
    · simp
    · simp
  have run := exec_cnew (same.editable edit) (by rw [same.myPool]; exact enable) free_g behind_room
  have used : (g.newChain c b rest).returned u.myCx far ([] ++ [b]) = g.newChain c b rest := by
    refine returned_used fun i hi => ?_
    rw [List.nil_append, List.mem_singleton] at hi
    rw [hi, ← same.myCx, newChain_free, same.farPool, hf, if_pos rfl]
    exact (List.nodup_cons.1 once).1
  refine ⟨g.newChain c b rest, ?_, ?_, ?_, ?_⟩
  · rw [again, run]
    exact congrArg Host.Outcome.next used
  · rw [← same.myPool]
    refine same.newChain (newChain_spec free_g low ?_)
    rw [same.farPool, same.myPool]
    exact dusk
  · rw [← same.myPool]
    exact same.poolsOnly (newChain_poolsOnly free_g)
  · rw [newChain_me, same.me]
    rfl

end Sys2Proof.Machine
end

section
/-! PROOFS. Strands stopped beside their own steps: an element-wise convoy out of buffers (R299), a pre-emption at a boundary
and inside such a convoy (R43, R285, R294), ageing (R36) and fetches that fail (R286, R296). -/

namespace Sys2Proof.Machine

/-! ### An allocation of a convoy that has waited too long -/

theorem opensConvoy_of_member {i : Instr} {g : Gm} {m : Member} (h : memberOf g i = some m) : opensConvoy g i = true := by
  unfold opensConvoy
  split
  · rfl
  · rfl
  · rw [h]; rfl

theorem outOfBuffers_opens {s : State} {i : Instr} {m : Member} (next : s.nextInstr = some i) (h : memberOf s.me.gm i = some m)
    (far : Bool) : s.outOfBuffers far = s.reopen i true none := by
  unfold State.outOfBuffers
  rw [next]
  split
  iterate 4 next _ e => rw [Option.some.inj e] at h; cases h
  iterate 2 next _ e => rw [Option.some.inj e]
  · next e => rw [← Option.some.inj e, h]; rfl
  · next e => cases e

/-- An element-wise convoy whose allocation has waited too long stops at the element whose buffer is not to be had. -/
theorem allocTimeout_elementwise {s : State} {sid since z : Nat} {far : Bool} {held : List Nat} {i : Instr} {e : Member}
    {op : Nat → List Nat → Nat → Bool → Nat × Flags} {scal : Option (SReg × Nat)} {sel : Option MReg} {mrg : Bool} {d : CReg}
    {R : Nat → Nat × Flags} (waits : (s.strand sid).wait = .alloc far since held) (late : since + 4096 ≤ s.clock)
    (next : ({ s with cur := sid } : State).nextInstr = some i) (ew : elementwise i = true) (alone : Alone i { s with cur := sid } e)
    (body : e.body = .map op scal sel mrg) (dests : e.dests = [(d, z)])
    (value : ∀ k, k < ({ s with cur := sid } : State).countFor e →
      ({ s with cur := sid } : State).mapElement e op scal sel mrg k = .val (R k))
    (side : far = (s.strand sid).farPool) (enable : ({ s with cur := sid } : State).myPool.enable = true)
    (once : (held ++ (s.pool (cxOf sid) far).free).Nodup)
    (few : ({ s with cur := sid } : State).unheld.room (cxOf sid) far < 32)
    (short : ({ s with cur := sid } : State).unheld.room (cxOf sid) far
      < ({ s with cur := sid } : State).buffersFor ((({ s with cur := sid } : State).countFor e * z + 7) / 8))
    (low : ∀ k ∈ held ++ (s.pool (cxOf sid) far).free, k < 2 ^ 23)
    (dusk : far = true → ({ s with cur := sid } : State).myPool.offDusk (held ++ (s.pool (cxOf sid) far).free)) :
    let u : State := { s with cur := sid }
    let h := u.unheld.room (cxOf sid) far * u.myPool.size * 8 / z
    ∃ t p, exec (.allocTimeout sid) s = .next t ∧ u.precise e d z h p
      ∧ StoppedAt u t e d z h p .pool (if (s.strand sid).farPool then 1 else 0) R := by
  have run := allocTimeout_late waits late
  have me : ({ s with cur := sid } : State).me = s.strand sid := rfl
  have at_ : ({ s with cur := sid } : State).myCx = cxOf sid := rfl
  have pool : (s.pool (cxOf sid) far).free = (({ s with cur := sid } : State).pool (cxOf sid) far).free := rfl
  dsimp only
  rw [pool] at once low dusk
  generalize ({ s with cur := sid } : State) = u at *
  rw [← me] at waits side ⊢
  rw [← at_] at run few short once low dusk ⊢
  have mine : far = u.unheld.me.farPool := by rw [unheld_me]; exact side
  have free : u.unheld.myPool.free = held ++ (u.pool u.myCx far).free := by
    unfold State.myPool
    rw [unheld_myCx, ← mine]
    exact free_unheld waits
  have room := room_unheld waits
  have count : u.unheld.countFor e = u.countFor e := by unfold State.countFor; rw [unheld_me]
  have on : u.unheld.myPool.enable = true := by
    have same := congrArg Pool.enable (unheld_myPool u); exact Eq.trans same enable
  generalize ha : u.unheld.room u.myCx far = a at *
  have below : a ≤ u.unheld.myPool.free.length := by
    rw [free, List.length_append, room]
    split
    · exact Nat.le_add_right ..
    · exact Nat.le_refl _
  have computes := computes_unheld ew alone body dests value
  obtain ⟨v, p, precise, interim, stops⟩ := reopen_refused computes (a := a) (by rw [unheld_myCx, ← mine]; exact ha) few
    (by rw [unheld_buffersFor, count]; exact short) on below (by rw [free]; exact once) (by rw [free]; exact low)
    (fun f => by rw [free, unheld_offDusk]; exact dusk (mine.trans f))
  rw [unheld_size] at precise stops
  rw [unheld_me, noBufferEval_empty] at stops
  have out := outOfBuffers_opens ((nextInstr_unheld u).trans next) (by rw [unheld_me]; exact alone.member) far
  refine ⟨_, p, run.trans (by rw [out, stops]; rfl), precise_of_unheld precise, ?_⟩
  have stopped := interim.stoppedAt_trap (c := .pool) nofun (noBufferEval u.unheld.me.farPool .empty)
    (a * u.myPool.size * 8 / z) u.myCx far held
  rw [noBufferEval_empty, unheld_me] at stopped
  exact stoppedAt_of_unheld stopped

/-! ### Pre-emptions -/

theorem asked_of_mayPreempt {m : Strand} (h : m.mayPreempt = true) : m.preq = true := by
  unfold Strand.mayPreempt at h
  simp only [Bool.and_eq_true] at h
  exact h.1.1.2

theorem preemptionTaken_stays {s : State} {sid : Nat} (h : (s.strand sid).mayPreempt = false) (v : Nat) :
    exec (.preemptionTaken sid v) s = .next s := by
  change execPreemptionTaken sid v s = _
  unfold execPreemptionTaken
  rw [h]
  rfl

/-- Strand `sid` is at the start of a convoy, where a pre-emption may be taken inside it. -/
def State.atConvoy (s : State) (sid : Nat) : Prop :=
  (s.strand sid).wait ≠ .wfi ∧ ∃ i, ({ s with cur := sid } : State).nextInstr = some i ∧ opensConvoy (s.strand sid).gm i = true

/-- A pre-emption before an instruction. -/
theorem preemptionTaken_boundary {s : State} {sid v : Nat} (h : (s.strand sid).mayPreempt = true)
    (before : s.atConvoy sid → v ≤ (s.strand sid).vstart.toNat ∨ (s.strand sid).due = true) :
    ∃ vs, exec (.preemptionTaken sid v) s = .next (({ s with cur := sid } : State).letGo.preempted sid (s.strand sid).pc vs)
      ∧ (s.atConvoy sid → vs = (s.strand sid).vstart) ∧ (¬ s.atConvoy sid → vs = 0) := by
  have run : exec (.preemptionTaken sid v) s = execPreemptionTaken sid v s := rfl
  unfold execPreemptionTaken at run
  rw [h] at run
  dsimp only at run
  have me : ({ s with cur := sid } : State).me = s.strand sid := rfl
  by_cases at_ : s.atConvoy sid
  · refine ⟨(s.strand sid).vstart, ?_, fun _ => rfl, fun no => absurd at_ no⟩
    obtain ⟨awake, i, next, opens⟩ := id at_
    have early : (decide (v ≤ (s.strand sid).vstart.toNat) || (s.strand sid).due) = true := by
      simpa using before at_
    rw [run, next, me]
    dsimp only
    rw [opens]
    simp only [Bool.not_true, Bool.false_eq_true, if_false, Bool.true_and, bne_iff_ne, ne_eq, awake, not_false_eq_true, if_true, early]
  · refine ⟨0, ?_, fun yes => absurd yes at_, fun _ => rfl⟩
    rw [run]
    cases next : ({ s with cur := sid } : State).nextInstr with
    | none => rfl
    | some i =>
        have no : (opensConvoy (s.strand sid).gm i && (s.strand sid).wait != .wfi) = false := by
          rw [Bool.eq_false_iff]
          intro yes
          rw [Bool.and_eq_true, bne_iff_ne] at yes
          exact at_ ⟨yes.2, i, next, yes.1⟩
        rw [me]
        dsimp only
        rw [no]
        rfl

/-- What it leaves. -/
theorem preempted_letGo {s : State} {sid : Nat} (asked : (s.strand sid).preq = true) (epc vstart : Word) :
    let t := ({ s with cur := sid } : State).letGo.preempted sid epc vstart
    ∃ eval, Trapped s t sid .preemption epc eval 0 vstart
      ∧ (∀ m : Strand, { t.strand sid with
            epc := m.epc, ecause := m.ecause, eval := m.eval, evpos := m.evpos, vstart := m.vstart, pc := m.pc
            mode := m.mode, estatus := m.estatus } = { s.strand sid with
              epc := m.epc, ecause := m.ecause, eval := m.eval, evpos := m.evpos, vstart := m.vstart, pc := m.pc
              mode := m.mode, estatus := m.estatus, wait := .none, again := none, preq := false, due := false })
      ∧ (∀ k, k ≠ sid → (s.strand k).wait ≠ .wfi → t.strand k = s.strand k)
      ∧ { t with cur := s.cur, strands := s.strands, parts := s.parts, freeCount := s.freeCount, cxs := s.cxs } = s
      ∧ t.cxs = ({ s with cur := sid } : State).letGo.cxs
      ∧ ∀ p, p < 16 → (s.part p).preqBusy = true → (s.part p).preqTarget.toNat = sid →
          (t.part p).preqBusy = false ∧ (t.part p).preqResult = 1 := by
  intro t
  have rest := letGo_rest { s with cur := sid }
  have strands : ({ s with cur := sid } : State).letGo.strands = s.strands := letGo_strands _
  generalize hw : ({ s with cur := sid } : State).letGo = w at rest strands
  have strand (k : Nat) : w.strand k = s.strand k := congrArg (Sparse.get Strand.blank k) strands
  have parts : w.parts = s.parts := by have e := congrArg State.parts rest; exact e
  have mvec : w.mvec = s.mvec := by have e := congrArg State.mvec rest; exact e
  have part (p : Nat) : w.part p = s.part p := congrArg (Sparse.get Partition.reset p) parts
  have took := preempted_spec (s := w) (sid := sid) (by rw [strand]; exact asked) epc vstart 0
  have t_eq : t = w.preempted sid epc vstart 0 := by rw [← hw]
  rw [← t_eq] at took
  clear_value t
  obtain ⟨trap, mine, others, frame, answered⟩ := took
  refine ⟨_, trap.of_strands strands parts mvec, fun m => ?_, fun k other awake => ?_, ?_, ?_, fun p below busy target => ?_⟩
  · rw [mine m, strand]
  · rw [others k other (by rw [strand]; exact awake), strand]
  · have e := congrArg (fun v : State => { v with
      cur := s.cur, strands := s.strands, parts := s.parts, freeCount := s.freeCount, cxs := s.cxs }) frame
    have e' := congrArg (fun v : State => { v with
      cur := s.cur, strands := s.strands, parts := s.parts, freeCount := s.freeCount }) rest
    exact Eq.trans e e'
  · have e := congrArg State.cxs frame
    exact e
  · have yes : ((s.part p).preqBusy && (s.part p).preqTarget.toNat == sid) = true := by simp [busy, target]
    rw [answered, if_pos below, part]
    unfold Partition.resolved
    rw [if_pos yes]
    exact ⟨rfl, rfl⟩

theorem preempted_wait {s : State} {sid : Nat} (asked : (s.strand sid).preq = true) (epc vstart evpos : Word) :
    ((s.preempted sid epc vstart evpos).strand sid).wait = .none := by
  have e := congrArg Strand.wait ((preempted_spec asked epc vstart evpos).strand (s.strand sid))
  exact e

theorem preempted_me_wait {s : State} (asked : (s.strand s.cur).preq = true) (epc vstart evpos : Word) :
    (s.preempted s.cur epc vstart evpos).me.wait = .none := by
  have wait := preempted_wait asked epc vstart evpos
  have cur := congrArg State.cur (preempted_spec asked epc vstart evpos).rest
  generalize s.preempted s.cur epc vstart evpos = t at wait cur
  unfold State.me
  dsimp only at cur
  rw [cur]
  exact wait

/-- A pre-emption inside an element-wise convoy that is alone. -/
theorem preemptionTaken_inside {s : State} {sid v z : Nat} {i : Instr} {e : Member}
    {op : Nat → List Nat → Nat → Bool → Nat × Flags} {scal : Option (SReg × Nat)} {sel : Option MReg} {mrg : Bool} {d : CReg}
    {R : Nat → Nat × Flags} (h : (s.strand sid).mayPreempt = true) (awake : (s.strand sid).wait ≠ .wfi)
    (due : (s.strand sid).due = false) (some_ : 0 < v)
    (next : ({ s with cur := sid } : State).nextInstr = some i) (ew : elementwise i = true) (alone : Alone i { s with cur := sid } e)
    (body : e.body = .map op scal sel mrg) (dests : e.dests = [(d, z)])
    (value : ∀ k, k < ({ s with cur := sid } : State).countFor e →
      ({ s with cur := sid } : State).mapElement e op scal sel mrg k = .val (R k))
    (buffers : ({ s with cur := sid } : State).unheld.hasBuffers (({ s with cur := sid } : State).buffersFor
      ((Min.min v (({ s with cur := sid } : State).countFor e) * z + 7) / 8))) :
    let u : State := { s with cur := sid }
    ∃ t p eval, exec (.preemptionTaken sid v) s = .next t ∧ u.precise e d z (Min.min v (u.countFor e - 1)) p
      ∧ StoppedAt u t e d z 0 p .preemption eval R := by
  have run : exec (.preemptionTaken sid v) s = execPreemptionTaken sid v s := rfl
  unfold execPreemptionTaken at run
  rw [h] at run
  dsimp only at run
  have me : ({ s with cur := sid } : State).me = s.strand sid := rfl
  dsimp only
  generalize ({ s with cur := sid } : State) = u at *
  rw [← me] at h awake due
  have count : u.unheld.countFor e = u.countFor e := by unfold State.countFor; rw [unheld_me]
  have computes := computes_unheld ew alone body dests value
  have asked := asked_of_mayPreempt h
  obtain ⟨w, p, precise, interim, stops⟩ := reopen_preempted computes some_
    (by rw [unheld_buffersFor, count]; exact buffers)
  have inside : (decide (v ≤ u.me.vstart.toNat) || u.me.due) = false := by
    rw [alone.start, due]
    simpa using some_.ne'
  have asked_w : (w.strand w.cur).preq = true := by
    have e := interim.preq.1
    rw [unheld_me, asked] at e
    exact e
  have settled := preempted_me_wait asked_w u.unheld.me.pc (BitVec.ofNat 64 p) (BitVec.ofNat 64 0)
  rw [count] at precise
  refine ⟨_, p, _, ?_, precise_of_unheld precise, stoppedAt_of_unheld (interim.stoppedAt_preempted
    (by rw [unheld_me]; exact asked) u.myCx u.me.farPool (u.me.wait.held u.me.farPool))⟩
  rw [run, next]
  dsimp only
  rw [opensConvoy_of_member alone.member, stops]
  simp only [Bool.not_true, Bool.false_eq_true, if_false, Bool.true_and, bne_iff_ne, ne_eq, awake, not_false_eq_true, if_true,
    inside, settled, not_true_eq_false]

/-! ### Ageing -/

theorem priorityAge_ages {s : State} {sid : Nat} (resident : (s.strand sid).resident = true) (ready : (s.strand sid).wait = .none)
    (low : (s.strand sid).prio + (s.strand sid).age < 3)
    (long : 65536 * ((s.strand sid).age + 1) ≤ (s.strand sid).unissued) :
    exec (.priorityAge sid) s = .next (s.setStrand sid { s.strand sid with age := (s.strand sid).age + 1 }) := by
  change execPriorityAge sid s = _
  unfold execPriorityAge
  dsimp only
  rw [if_pos]
  simp [resident, ready, low, long]

theorem priorityAge_stays {s : State} {sid : Nat} (h : ¬ ((s.strand sid).resident = true ∧ (s.strand sid).wait = .none
    ∧ (s.strand sid).prio + (s.strand sid).age < 3 ∧ 65536 * ((s.strand sid).age + 1) ≤ (s.strand sid).unissued)) :
    exec (.priorityAge sid) s = .next s := by
  change execPriorityAge sid s = _
  unfold execPriorityAge
  dsimp only
  rw [if_neg]
  simpa [and_assoc] using h

/-! ### Fetches -/

theorem fetchFault_stays {s : State} {w : IWord} (h : s.fetch s.cur s.me.pc.toNat = .ok w) : exec .fetchFault s = .next s := by
  change execFetchFault s = _
  unfold execFetchFault
  rw [h]

/-- A fetch that fails traps. -/
theorem fetchFault_traps (s : State) (c : Cause) (n : Note) :
    Trapped s ((s.noted n).trapHere c) s.cur c s.me.pc s.me.pc 0 0
      ∧ Moves s ((s.noted n).trapHere c) s.cur (((s.noted n).trapHere c).strand s.cur) (s.noted n) := by
  have strand (k : Nat) : (s.noted n).strand k = s.strand k := bare_strand (noted_bare s n) k
  obtain ⟨trap, -⟩ := trap_spec (s.noted n) c (s.noted n).me.pc
  change Trapped (s.noted n) ((s.noted n).trapHere c) _ c _ _ 0 0 at trap
  rw [me_noted, noted_cur] at trap
  refine ⟨trap.of_same (by rw [strand]) (by rw [strand]) (by rw [strand]) ?_, rfl, fun k other => ?_, ?_⟩
  · unfold State.vector
    rw [strand, mvec_noted, bare_part (noted_bare s n)]
  · exact ((trapIn_frame (s.noted n) (s.noted n).cur _).1 k (by rw [noted_cur]; exact other)).trans (strand k)
  · rfl

/-- One that fails at the trap vector ends its strand. -/
theorem doubleFault_ends (s : State) (c : Cause) (n : Note) :
    ((s.noted n).doubleFault s.cur c).strand s.cur = Strand.blank
      ∧ (s.me.origin.kind = .record → (((s.noted n).doubleFault s.cur c).part s.me.part).ended
          = (s.part s.me.part).ended ++ [{ uid := s.me.uid, origin := s.me.origin, status := 0xFE }]) := by
  have bare : ((s.noted n).logs (.doubleFault s.cur c.code)).bare = s.bare := (logs_bare ..).trans (noted_bare s n)
  have ends := ends_endsWith ((s.noted n).logs (.doubleFault s.cur c.code)) s.cur 0xFE
  have ended := ends.ended
  rw [bare_strand bare, bare_part bare] at ended
  refine ⟨ends.gone.strand, fun record => ?_⟩
  have is : (s.strand s.cur).origin.kind = .record := record
  rw [if_pos is] at ended
  exact ended

end Sys2Proof.Machine
end

section
/-! PROOFS. What the hardware does beside a strand's instructions, put together (R36, R43, R120, R121, R286, R294-R299). -/

namespace Sys2Proof.Machine

/-- What a strand that waits for a buffer holds, and may take (R120, R298, R299). -/
theorem waiting_spec {s : State} {far : Bool} {since : Nat} {held : List Nat} (waits : s.me.wait = .alloc far since held)
    (b : Nat) :
    (s.granted far b).me = { s.me with wait := .alloc far s.clock (held ++ [b]) }
      ∧ (s.unheld.pool s.myCx far).free = held ++ (s.pool s.myCx far).free
      ∧ ((s.granted far b).pool s.myCx far).free = held ++ (s.pool s.myCx far).free
      ∧ (s.unheld.room s.myCx far
          = if s.behind s.myCx far then held.length else held.length + (s.pool s.myCx far).free.length)
      ∧ ((∀ i ∈ held, i ∉ (s.pool s.myCx far).free) → (s.letGo.pool s.myCx far).free = (s.pool s.myCx far).free
          ∧ (s.letGo.cx s.myCx).reclaim = (s.cx s.myCx).reclaim ++ held.map (mkId far))
      ∧ { s.letGo with cxs := s.cxs } = s ∧ { s.unheld with cxs := s.cxs } = s
      ∧ { s.granted far b with cxs := s.cxs, strands := s.strands } = s :=
  ⟨granted_me waits b, free_unheld waits, free_granted waits b, room_unheld waits, letGo_spec waits, letGo_rest s,
    unheld_rest s, granted_rest s far b⟩

/-- A `cnew` that finds no buffer to take waits for one, holding none. -/
theorem cnew_waits_spec {s : State} {d : CReg} (edit : s.editable [d] []) (enable : s.myPool.enable = true)
    (short : s.myPool.free = [] ∨ s.behind s.myCx s.me.farPool = true) (free : s.me.wait = .none) :
    ∃ t, exec (.cnew d) s = .next t ∧ t.me = { s.me with wait := .alloc s.me.farPool s.clock [] }
      ∧ (t.pool s.myCx s.me.farPool).free = s.myPool.free ∧ (∀ k, k ≠ s.cur → t.strand k = s.strand k)
      ∧ { t with strands := s.strands, cxs := s.cxs } = s :=
  ⟨_, cnew_waits edit enable short free, waitBuffer_spec (room_none free short)⟩

/-- A time-out of an instruction whose one allocation it was, or of one that issues a copy (R176, R299). -/
theorem allocTimeout_spec {s : State} {sid since : Nat} {far : Bool} {held : List Nat}
    (waits : (s.strand sid).wait = .alloc far since held) (late : since + 4096 ≤ s.clock) {i : Instr}
    (next : ({ s with cur := sid } : State).nextInstr = some i) :
    (WaitsForBuffers i → ∃ t, exec (.allocTimeout sid) s = .next t
        ∧ Trapped s t sid .pool (s.strand sid).pc (if far then 1 else 0) 0 0
        ∧ Moves s t sid (t.strand sid) ({ s with cur := sid } : State).letGo)
      ∧ ∀ a, CopiesFrom i a → ∃ t, exec (.allocTimeout sid) s = .next t
        ∧ Trapped s t sid .pool (s.strand sid).pc ((s.strand sid).reg a) 0 0
        ∧ Moves s t sid (t.strand sid) ({ s with cur := sid } : State).letGo := by
  have next' := (nextInstr_unheld { s with cur := sid }).trans next
  refine ⟨fun h => allocTimeout_traps waits late ?_, fun a h => allocTimeout_traps waits late ?_⟩
  · rw [← noBufferEval_empty]
    exact outOfBuffers_waits next' h far
  · have reg : ({ s with cur := sid } : State).unheld.reg a = (s.strand sid).reg a := by
      unfold State.reg
      rw [unheld_me]
      rfl
    rw [← reg]
    exact outOfBuffers_copies next' h far

/-- A pre-emption at the boundary before an instruction (R43, R285, R294). -/
theorem preemption_boundary_spec {s : State} {sid v : Nat} (h : (s.strand sid).mayPreempt = true)
    (before : s.atConvoy sid → v ≤ (s.strand sid).vstart.toNat ∨ (s.strand sid).due = true) :
    ∃ t eval vs, exec (.preemptionTaken sid v) s = .next t
      ∧ ((s.atConvoy sid → vs = (s.strand sid).vstart) ∧ (¬ s.atConvoy sid → vs = 0))
      ∧ Trapped s t sid .preemption (s.strand sid).pc eval 0 vs
      ∧ { t.strand sid with
          epc := (s.strand sid).epc, ecause := (s.strand sid).ecause, eval := (s.strand sid).eval
          evpos := (s.strand sid).evpos, vstart := (s.strand sid).vstart, pc := (s.strand sid).pc
          mode := (s.strand sid).mode, estatus := (s.strand sid).estatus }
        = { s.strand sid with wait := .none, again := none, preq := false, due := false }
      ∧ (∀ k, k ≠ sid → (s.strand k).wait ≠ .wfi → t.strand k = s.strand k)
      ∧ { t with cur := s.cur, strands := s.strands, parts := s.parts, freeCount := s.freeCount, cxs := s.cxs } = s
      ∧ t.cxs = ({ s with cur := sid } : State).letGo.cxs
      ∧ ∀ p, p < 16 → (s.part p).preqBusy = true → (s.part p).preqTarget.toNat = sid →
          (t.part p).preqBusy = false ∧ (t.part p).preqResult = 1 := by
  obtain ⟨vs, run, vstart⟩ := preemptionTaken_boundary h before
  obtain ⟨eval, trap, strand, others, rest, cxs, parts⟩ :=
    preempted_letGo (asked_of_mayPreempt h) (s.strand sid).pc vs
  exact ⟨_, eval, vs, run, vstart, trap, strand _, others, rest, cxs, parts⟩

/-- Ageing (R36). -/
theorem priorityAge_spec (s : State) (sid : Nat) :
    let m := s.strand sid
    let ages : Prop := m.resident = true ∧ m.wait = .none ∧ m.prio + m.age < 3 ∧ 65536 * (m.age + 1) ≤ m.unissued
    (ages → ∃ t, exec (.priorityAge sid) s = .next t ∧ Moves s t sid { m with age := m.age + 1 } s)
      ∧ (¬ ages → exec (.priorityAge sid) s = .next s) := by
  refine ⟨fun ⟨resident, ready, low, long⟩ => ⟨_, priorityAge_ages resident ready low long, ?_⟩, priorityAge_stays⟩
  exact ⟨State.strand_setStrand_same .., fun k other => State.strand_setStrand_ne _ other _, setStrand_rest ..⟩

/-- A fetch that fails (R286, R296). -/
theorem fetchFault_spec {s : State} {c : Cause} {n : Note} (failed : s.fetch s.cur s.me.pc.toNat = .error (c, n)) :
    let double : Prop := s.me.mode ≠ .user ∧ s.me.pc = s.vector s.cur
    (¬ double → ∃ t, exec .fetchFault s = .next t ∧ Trapped s t s.cur c s.me.pc s.me.pc 0 0
        ∧ Moves s t s.cur (t.strand s.cur) (s.noted n))
      ∧ (double → ∃ t, exec .fetchFault s = .next t ∧ t.strand s.cur = {}
        ∧ (s.me.origin.kind = .record → (t.part s.me.part).ended
            = (s.part s.me.part).ended ++ [{ uid := s.me.uid, origin := s.me.origin, status := 0xFE }])) := by
  have run := exec_fetchFault failed
  refine ⟨fun no => ?_, fun yes => ?_⟩
  · rw [if_neg no] at run
    exact ⟨_, run, fetchFault_traps s c n⟩
  · rw [if_pos yes] at run
    exact ⟨_, run, doubleFault_ends s c n⟩

/-- Settles O51: the buffers that a waiting strand holds by the rules of granting and returning them, the interruptions of
an element-wise convoy by running it up to where it stops, and each other step by its rule. -/
theorem strandHousekeeping : Obligations.StrandHousekeeping := by
  intro s sid v x w0 far w i e op scal sel mrg d z R
  dsimp only
  refine ⟨bufferReclaim_spec s x, ?_, fun since held waits => waiting_spec waits w0,
    fun free => ⟨letGo_none free, unheld_none free⟩, fun free => ⟨allocGrant_none free, allocTimeout_none free⟩,
    fun since held waits => ?_, fun still => preemptionTaken_stays still v, fun may before => preemption_boundary_spec may before,
    ?_, rfl, priorityAge_spec s sid, fun none_ => traps_of_trap (exec_unassigned none_ s),
    fun none_ => traps_of_trap (exec_reserved none_ s), fun k found => fetchFault_stays found, fun c note => fetchFault_spec⟩
  · rintro d rfl edit enable short free
    exact cnew_waits_spec edit enable short free
  · refine ⟨allocGrant_later waits, ?_, ?_, allocTimeout_early waits, fun late i next => allocTimeout_spec waits late next, ?_⟩
    · intro b rest i free first next again
      refine (allocGrant_first waits free first next again).trans ?_
      generalize exec i _ = o
      cases o <;> rfl
    · rintro c b rest free first rfl next rfl edit enable once low dusk
      rw [free] at once low dusk
      refine allocGrant_cnew waits free first next edit enable once (low b List.mem_cons_self) fun far => ?_
      exact fun k hk => dusk far k (List.mem_cons.2 (.inl (List.mem_singleton.1 hk)))
    · rintro late ⟨next, ew, alone, body, dests, value⟩ side enable once few short low dusk
      exact allocTimeout_elementwise waits late next ew alone body dests value side enable once few short low dusk
  · rintro may awake due some_ ⟨next, ew, alone, body, dests, value⟩ buffers
    exact preemptionTaken_inside may awake due some_ next ew alone body dests value buffers

end Sys2Proof.Machine
end


section
/-! PROOFS. What the decoder answers (R55-R68): for each major, an instruction that it answers is well formed and has the word
that was decoded. -/

namespace Sys2Proof.Machine

/-! ### Fields of a word -/

@[simp] theorem isC_iff (n : Nat) : isC n = true ↔ n < 32 := decide_eq_true_iff
@[simp] theorem isM_iff (n : Nat) : isM n = true ↔ n < 8 := decide_eq_true_iff
@[simp] theorem toNat_sreg (n : Nat) : (sreg n).toNat = n % 64 := BitVec.toNat_ofNat ..
@[simp] theorem toNat_creg (n : Nat) : (creg n).toNat = n % 32 := BitVec.toNat_ofNat ..
@[simp] theorem toNat_mreg (n : Nat) : (mreg n).toNat = n % 8 := BitVec.toNat_ofNat ..
@[simp] theorem toNat_kreg (n : Nat) : (kreg n).toNat = n % 8 := BitVec.toNat_ofNat ..
@[simp] theorem toNat_oreg (n : Nat) : (oreg n).toNat = n % 64 := BitVec.toNat_ofNat ..

theorem toNat_bit {n : Nat} (h : n < 2) : (n == 1).toNat = n := by
  interval_cases n <;> rfl

theorem toNat_bitOf (n i : Nat) : (bitOf n i).toNat = n / 2 ^ i % 2 := toNat_bit (Nat.mod_lt _ Nat.zero_lt_two)

theorem AmoOp.code_of_ofCode {n : Nat} {p : AmoOp} (h : AmoOp.ofCode n = some p) : p.code = n := by
  unfold AmoOp.ofCode at h
  split at h <;> cases h <;> rfl

theorem AmoOrder.code_of_ofCode {n : Nat} {o : AmoOrder} (h : AmoOrder.ofCode n = some o) : o.code = n := by
  unfold AmoOrder.ofCode at h
  split at h <;> cases h <;> rfl

theorem Scope.code_of_ofCode {n : Nat} {s : Scope} (h : Scope.ofCode n = some s) : s.code = n := by
  unfold Scope.ofCode at h
  split at h <;> cases h <;> rfl

theorem Cond.code_of_ofCode {n : Nat} {c : Cond} (h : Cond.ofCode n = some c) : c.code = n := by
  unfold Cond.ofCode at h
  split at h <;> cases h <;> rfl

theorem FenceOrder.code_ofCode {n : Nat} (h : n < 4) : (FenceOrder.ofCode n).code = n := by
  interval_cases n <;> rfl

theorem VamoOrder.code_ofCode {n : Nat} (h : n < 4) : (VamoOrder.ofCode n).code = n := by
  interval_cases n <;> rfl

theorem VamoScope.code_ofCode {n : Nat} (h : n < 4) : (VamoScope.ofCode n).code = n := by
  interval_cases n <;> rfl

theorem Size.code_ofCode {n : Nat} (h : n < 4) : (Size.ofCode n).code = n := by
  interval_cases n <;> rfl

/-- The mode fields of a word tile its bits 25:4 (R58). -/
theorem mode_fields_tile {v : Nat} (high : v < 2 ^ 26) (low : v % 16 = 0) :
    v / 2 ^ 25 % 2 * 2 ^ 25 + v / 2 ^ 22 % 2 ^ 3 * 2 ^ 22 + v / 2 ^ 17 % 2 ^ 5 * 2 ^ 17 + v / 2 ^ 12 % 2 ^ 5 * 2 ^ 12
      + v / 2 ^ 9 % 2 ^ 3 * 2 ^ 9 + v / 2 ^ 8 % 2 * 2 ^ 8 + v / 2 ^ 7 % 2 * 2 ^ 7 + v / 2 ^ 4 % 2 ^ 3 * 2 ^ 4 = v := by
  omega

theorem GrpMode.bits_ofFields {d a b mn : Nat} (fields : d < 64 ∧ a < 64 ∧ b < 64 ∧ mn < 256) (zero : mn % 16 = 0) :
    (GrpMode.ofFields d a b mn).bits = off26 d a b mn := by
  have tile := mode_fields_tile (v := off26 d a b mn) (by unfold off26; omega) (by unfold off26; omega)
  simp only [GrpMode.bits, GrpMode.ofFields, toNat_bitOf, bitsOf, BitVec.toNat_ofNat, Nat.reduceAdd, Nat.reduceSub,
    Nat.mod_mod]
  exact tile

theorem wf_amo (d a : SReg) (p : AmoOp) (o : AmoOrder) (s : Scope) (w : Bool) :
    (Instr.amo d a p o s w).wf = (p != .cas || d.toNat % 2 == 0) := rfl

theorem wf_vamo (d : CReg) (a : SReg) (b : CReg) (p : AmoOp) (o : VamoOrder) (s : VamoScope) :
    (Instr.vamo d a b p o s).wf = (p != .cas || d.toNat % 2 == 0) := rfl

theorem wf_strip (d a : SReg) : (Instr.strip d a).wf = (a != 0) := rfl

/-! ### What the decoder answers has the word it was decoded from -/

/-- An answer of the decoder to the word `w`: if it is an instruction, that is well formed and `w` is its word. -/
def HasWord (w : Nat) : Except DecodeErr Instr → Prop
  | .ok i => i.wf = true ∧ encodeNat i = some w
  | .error _ => True

theorem hasWord_unlisted (w : Nat) : HasWord w unlisted := trivial

theorem hasWord_named {w : Nat} {zero : Bool} {i : Instr} (h : zero = true → i.wf = true ∧ encodeNat i = some w) :
    HasWord w (Sys2Proof.named zero i) := by
  cases zero with
  | true => exact h rfl
  | false => trivial

/-- A row whose instruction is always well formed. -/
theorem hasWord_code {w v : Nat} {zero : Bool} {i : Instr} (wf : i.wf = true) (code : encodeNat i = some v)
    (same : zero = true → v = w) : HasWord w (Sys2Proof.named zero i) :=
  hasWord_named fun h => ⟨wf, code.trans (congrArg some (same h))⟩

/-- A row of format A (R55). -/
theorem hasWord_fields {zero : Bool} {i : Instr} {maj x y z k d a b mn : Nat} (wf : i.wf = true)
    (code : encodeNat i = some (packA maj x y z k)) (fields : zero = true → x = d ∧ y = a ∧ z = b ∧ k = mn) :
    HasWord (packA maj d a b mn) (Sys2Proof.named zero i) := by
  refine hasWord_code wf code fun h => ?_
  obtain ⟨rfl, rfl, rfl, rfl⟩ := fields h
  rfl

/-- A row of format I or B (R55). -/
theorem hasWord_imm {zero : Bool} {i : Instr} {maj x y k d a b mn : Nat} (wf : i.wf = true)
    (code : encodeNat i = some (packI maj x y k)) (fields : zero = true → x = d ∧ y = a ∧ k = imm14 b mn) :
    HasWord (packA maj d a b mn) (Sys2Proof.named zero i) := by
  refine hasWord_code wf code fun h => ?_
  obtain ⟨rfl, rfl, rfl⟩ := fields h
  exact (Nat.add_assoc ..).symm

/-- A row of format L (R55). -/
theorem hasWord_off {zero : Bool} {i : Instr} {maj x k d a b mn : Nat} (wf : i.wf = true)
    (code : encodeNat i = some (packL maj x k)) (fields : zero = true → x = d ∧ k = off20 a b mn) :
    HasWord (packA maj d a b mn) (Sys2Proof.named zero i) := by
  refine hasWord_code wf code fun h => ?_
  obtain ⟨rfl, rfl⟩ := fields h
  simp only [packL, packA, off20]
  omega

/-- A row of format J or M (R55). -/
theorem hasWord_wide {zero : Bool} {i : Instr} {maj k d a b mn : Nat} (wf : i.wf = true)
    (code : encodeNat i = some (packJ maj k)) (fields : zero = true → k = off26 d a b mn) :
    HasWord (packA maj d a b mn) (Sys2Proof.named zero i) := by
  refine hasWord_code wf code fun h => ?_
  rw [fields h]
  simp only [packJ, packA, off26]
  omega

section
variable {d a b mn : Nat} (fields : d < 64 ∧ a < 64 ∧ b < 64 ∧ mn < 256)
include fields

theorem hasWord_decodeSys : HasWord (packA 0x01 d a b mn) (decodeSys d a b mn) := by
  unfold decodeSys
  split
  case h_2 | h_4 | h_5 => exact hasWord_off rfl rfl fun zero => by simp [off20] at zero ⊢; omega
  case h_8 => exact hasWord_unlisted _
  all_goals exact hasWord_fields rfl rfl fun zero => by simp at zero ⊢; omega

theorem hasWord_decodeAlu : HasWord (packA 0x02 d a b mn) (decodeAlu d a b mn) := by
  unfold decodeAlu
  split
  case h_26 => exact hasWord_unlisted _
  all_goals exact hasWord_fields rfl rfl fun zero => by simp at zero ⊢; omega

theorem hasWord_decodeVred : HasWord (packA 0x23 d a b mn) (decodeVred d a b mn) := by
  unfold decodeVred
  split
  case h_4 => exact hasWord_unlisted _
  all_goals exact hasWord_fields rfl rfl fun zero => by simp at zero ⊢; omega

theorem hasWord_decodeMask : HasWord (packA 0x26 d a b mn) (decodeMask d a b mn) := by
  unfold decodeMask
  split
  case h_9 => exact hasWord_unlisted _
  all_goals exact hasWord_fields rfl rfl fun zero => by simp at zero ⊢; omega

theorem hasWord_decodeChain : HasWord (packA 0x29 d a b mn) (decodeChain d a b mn) := by
  unfold decodeChain
  split
  case h_21 => exact hasWord_unlisted _
  all_goals exact hasWord_fields rfl rfl fun zero => by simp at zero ⊢; omega

theorem hasWord_decodeVld : HasWord (packA 0x2b d a b mn) (decodeVld d a b mn) := by
  unfold decodeVld
  split
  case h_6 => exact hasWord_unlisted _
  all_goals exact hasWord_fields rfl rfl fun zero => by simp at zero ⊢; omega

theorem hasWord_decodeVst : HasWord (packA 0x2c d a b mn) (decodeVst d a b mn) := by
  unfold decodeVst
  split
  case h_4 => exact hasWord_unlisted _
  all_goals exact hasWord_fields rfl rfl fun zero => by simp at zero ⊢; omega

theorem hasWord_decodeStrm : HasWord (packA 0x2d d a b mn) (decodeStrm d a b mn) := by
  unfold decodeStrm
  split
  case h_4 => exact hasWord_unlisted _
  all_goals exact hasWord_fields rfl rfl fun zero => by simp at zero ⊢; omega

theorem hasWord_decodeCopy : HasWord (packA 0x2e d a b mn) (decodeCopy d a b mn) := by
  unfold decodeCopy
  split
  case h_4 => exact hasWord_unlisted _
  all_goals exact hasWord_fields rfl rfl fun zero => by simp at zero ⊢; omega

theorem hasWord_decodeKmask : HasWord (packA 0x2f d a b mn) (decodeKmask d a b mn) := by
  unfold decodeKmask
  split
  case h_4 => exact hasWord_unlisted _
  all_goals exact hasWord_fields rfl rfl fun zero => by simp at zero ⊢; omega

theorem hasWord_decodeMat : HasWord (packA 0x32 d a b mn) (decodeMat d a b mn) := by
  unfold decodeMat
  split
  case h_9 => exact hasWord_unlisted _
  all_goals exact hasWord_fields rfl rfl fun zero => by simp at zero ⊢; omega

theorem hasWord_decodeTopk : HasWord (packA 0x33 d a b mn) (decodeTopk d a b mn) := by
  unfold decodeTopk
  split
  case h_6 => exact hasWord_unlisted _
  all_goals exact hasWord_fields rfl rfl fun zero => by simp at zero ⊢; omega

theorem hasWord_decodeCtx : HasWord (packA 0x34 d a b mn) (decodeCtx d a b mn) := by
  unfold decodeCtx
  split
  case h_11 =>
    split
    next c =>
      have code := Size.code_ofCode (Nat.mod_lt mn (by decide : 0 < 4))
      exact hasWord_fields rfl rfl fun zero => by simp [code] at zero c ⊢; omega
    · exact hasWord_unlisted _
  all_goals exact hasWord_fields rfl rfl fun zero => by simp at zero ⊢; omega

theorem hasWord_decodeCtxld : HasWord (packA 0x35 d a b mn) (decodeCtxld d a b mn) := by
  unfold decodeCtxld
  split
  · exact hasWord_fields rfl rfl fun zero => by simp at zero ⊢; omega
  · split
    next c =>
      have code := Size.code_ofCode (Nat.mod_lt mn (by decide : 0 < 4))
      exact hasWord_fields rfl rfl fun zero => by simp [code] at zero c ⊢; omega
    · exact hasWord_unlisted _

theorem hasWord_decodeShiftImm : HasWord (packA 0x07 d a b mn) (decodeShiftImm d a b mn) := by
  unfold decodeShiftImm
  dsimp only
  split
  case h_4 => exact hasWord_unlisted _
  all_goals exact hasWord_imm rfl rfl fun zero => by simp [imm14] at *; omega

theorem hasWord_decodeAmo : HasWord (packA 0x0f d a b mn) (decodeAmo d a b mn) := by
  unfold decodeAmo
  dsimp only
  split
  next p o s hp ho hs =>
    have bit := toNat_bit (Nat.mod_lt (imm14 b mn / 8) Nat.zero_lt_two)
    have op := AmoOp.code_of_ofCode hp
    have order := AmoOrder.code_of_ofCode ho
    have scope := Scope.code_of_ofCode hs
    refine hasWord_named fun zero => ?_
    rw [Bool.and_eq_true, beq_iff_eq] at zero
    obtain ⟨low, even⟩ := zero
    refine ⟨?_, congrArg some ?_⟩
    · rwa [wf_amo, toNat_sreg, Nat.mod_eq_of_lt fields.1]
    · simp only [packI, packA, toNat_sreg]
      unfold imm14 at *
      omega
  · exact hasWord_unlisted _

theorem hasWord_decodeSetvl : HasWord (packA 0x1a d a b mn) (decodeSetvl d a b mn) := by
  unfold decodeSetvl
  dsimp only
  split
  all_goals exact hasWord_imm rfl rfl fun zero => by simp [imm14] at *; omega

theorem hasWord_decodeBitField : HasWord (packA 0x1d d a b mn) (decodeBitField d a b mn) := by
  unfold decodeBitField
  dsimp only
  split
  case h_4 => exact hasWord_unlisted _
  all_goals exact hasWord_imm rfl rfl fun zero => by simp [imm14] at *; omega

theorem hasWord_decodeValu : HasWord (packA 0x20 d a b mn) (decodeValu d a b mn) := by
  have bit := toNat_bit (by omega : mn / 128 < 2)
  unfold decodeValu
  split
  case h_21 =>
    split
    next c => exact hasWord_fields rfl rfl fun zero => by simp at zero c ⊢; omega
    · exact hasWord_unlisted _
  all_goals exact hasWord_fields rfl rfl fun zero => by simp at zero ⊢; omega

theorem hasWord_decodeValuScalar : HasWord (packA 0x21 d a b mn) (decodeValuScalar d a b mn) := by
  have bit := toNat_bit (by omega : mn / 128 < 2)
  unfold decodeValuScalar
  split
  case h_17 =>
    split
    next c => exact hasWord_fields rfl rfl fun zero => by simp at zero c ⊢; omega
    · exact hasWord_unlisted _
  all_goals exact hasWord_fields rfl rfl fun zero => by simp at zero ⊢; omega

theorem hasWord_decodeVcmp : HasWord (packA 0x22 d a b mn) (decodeVcmp d a b mn) := by
  unfold decodeVcmp
  split
  next c hc =>
    have code := Cond.code_of_ofCode hc
    split
    next k => exact hasWord_fields rfl rfl fun zero => by simp at zero k ⊢; omega
    next k => exact hasWord_fields rfl rfl fun zero => by simp at zero k ⊢; omega
  · exact hasWord_unlisted _

theorem hasWord_decodeVcvt : HasWord (packA 0x24 d a b mn) (decodeVcvt d a b mn) := by
  have bit := toNat_bit (by omega : mn / 128 < 2)
  unfold decodeVcvt
  split
  case h_9 => exact hasWord_unlisted _
  all_goals exact hasWord_fields rfl rfl fun zero => by simp at zero ⊢; omega

theorem hasWord_decodeVperm : HasWord (packA 0x25 d a b mn) (decodeVperm d a b mn) := by
  unfold decodeVperm
  split
  all_goals exact hasWord_fields rfl rfl fun zero => by simp at *; omega

theorem hasWord_decodeChainImm : HasWord (packA 0x2a d a b mn) (decodeChainImm d a b mn) := by
  unfold decodeChainImm
  dsimp only
  split
  case h_6 => exact hasWord_unlisted _
  all_goals exact hasWord_imm rfl rfl fun zero => by simp [imm14] at *; omega

theorem hasWord_decodeSync : HasWord (packA 0x30 d a b mn) (decodeSync d a b mn) := by
  unfold decodeSync
  split
  case h_1 =>
    split
    next s hs =>
      have := Scope.code_of_ofCode hs
      have := FenceOrder.code_ofCode (Nat.mod_lt (mn / 8) (by decide : 0 < 4))
      exact hasWord_fields rfl rfl fun zero => by simp at zero ⊢; omega
    · exact hasWord_unlisted _
  case h_3 | h_4 | h_5 => exact hasWord_off rfl rfl fun zero => by simp [off20] at zero ⊢; omega
  case h_7 => exact hasWord_unlisted _
  all_goals exact hasWord_fields rfl rfl fun zero => by simp at zero ⊢; omega

theorem hasWord_decodeVamo : HasWord (packA 0x31 d a b mn) (decodeVamo d a b mn) := by
  unfold decodeVamo
  split
  next p hp =>
    have op := AmoOp.code_of_ofCode hp
    have order := VamoOrder.code_ofCode (Nat.mod_lt (mn / 4) (by decide : 0 < 4))
    have scope := VamoScope.code_ofCode (Nat.mod_lt mn (by decide : 0 < 4))
    refine hasWord_named fun zero => ?_
    simp only [Bool.and_eq_true, isC_iff] at zero
    obtain ⟨⟨chain, index⟩, even⟩ := zero
    refine ⟨?_, congrArg some ?_⟩
    · rwa [wf_vamo, toNat_creg, Nat.mod_eq_of_lt chain]
    · simp only [packA, toNat_creg, toNat_sreg, op, order, scope]
      omega
  · exact hasWord_unlisted _

theorem hasWord_decodeFields (maj : Nat) : HasWord (packA maj d a b mn) (decodeFields maj d a b mn) := by
  unfold decodeFields
  split
  case h_1 => exact hasWord_decodeSys fields
  case h_2 => exact hasWord_decodeAlu fields
  case h_7 => exact hasWord_decodeShiftImm fields
  case h_15 => exact hasWord_decodeAmo fields
  case h_24 =>
    split
    next none_ => exact hasWord_imm rfl rfl fun zero => by simp [imm14] at *; omega
    next some_ =>
      have source : a ≠ 0 := fun h => some_ (beq_iff_eq.2 h)
      have nonzero : sreg a ≠ 0 := fun h => source <| by simpa [Nat.mod_eq_of_lt fields.2.1] using congrArg BitVec.toNat h
      exact hasWord_imm (by rw [wf_strip, bne_iff_ne]; exact nonzero) rfl fun zero => by simp [imm14] at zero ⊢; omega
  case h_26 => exact hasWord_decodeSetvl fields
  case h_29 => exact hasWord_decodeBitField fields
  case h_30 => exact hasWord_decodeValu fields
  case h_31 => exact hasWord_decodeValuScalar fields
  case h_32 => exact hasWord_decodeVcmp fields
  case h_33 => exact hasWord_decodeVred fields
  case h_34 => exact hasWord_decodeVcvt fields
  case h_35 => exact hasWord_decodeVperm fields
  case h_36 => exact hasWord_decodeMask fields
  case h_39 => exact hasWord_decodeChain fields
  case h_40 => exact hasWord_decodeChainImm fields
  case h_41 => exact hasWord_decodeVld fields
  case h_42 => exact hasWord_decodeVst fields
  case h_43 => exact hasWord_decodeStrm fields
  case h_44 => exact hasWord_decodeCopy fields
  case h_45 => exact hasWord_decodeKmask fields
  case h_46 => exact hasWord_decodeSync fields
  case h_47 => exact hasWord_decodeVamo fields
  case h_48 => exact hasWord_decodeMat fields
  case h_49 => exact hasWord_decodeTopk fields
  case h_50 => exact hasWord_decodeCtx fields
  case h_51 => exact hasWord_decodeCtxld fields
  case h_52 => exact hasWord_unlisted _
  case h_27 | h_28 =>
    exact hasWord_wide rfl rfl fun zero => GrpMode.bits_ofFields fields (beq_iff_eq.1 zero)
  case h_38 => exact hasWord_wide rfl rfl fun zero => by simp [off26]; omega
  case h_10 | h_11 | h_22 => exact hasWord_off rfl rfl fun zero => by simp [off20]; omega
  case h_12 | h_13 | h_14 =>
    have size := Size.code_ofCode (by unfold imm14; omega : imm14 b mn / 4096 < 4)
    exact hasWord_imm rfl rfl fun zero => by simp [imm14] at size ⊢; omega
  case h_3 | h_4 | h_5 | h_6 | h_8 | h_9 | h_16 | h_17 | h_18 | h_19 | h_20 | h_21 | h_23 | h_25 | h_37 =>
    exact hasWord_imm rfl rfl fun zero => by simp [imm14] at zero ⊢; omega

end

theorem hasWord_decodeNat {w : Nat} (h : w < 2 ^ 32) : HasWord w (decodeNat w) := by
  have cut : packA (w / 2 ^ 26 % 64) (w / 2 ^ 20 % 64) (w / 2 ^ 14 % 64) (w / 2 ^ 8 % 64) (w % 256) = w := by
    unfold packA
    omega
  have word := hasWord_decodeFields (d := w / 2 ^ 20 % 64) (a := w / 2 ^ 14 % 64) (b := w / 2 ^ 8 % 64) (mn := w % 256)
    (by omega) (w / 2 ^ 26 % 64)
  rwa [cut] at word

end Sys2Proof.Machine
end

section
/-! PROOFS. The decoder reads back the word of each well-formed instruction that has one (R55-R68); at the end, with what it
answers, this settles O57, and evaluation settles O56. -/

namespace Sys2Proof.Machine

/-! ### The decoder reads back the word of an instruction -/

@[simp] theorem sreg_toNat (r : SReg) : sreg r.toNat = r := BitVec.ofNat_toNat ..
@[simp] theorem creg_toNat (r : CReg) : creg r.toNat = r := BitVec.ofNat_toNat ..
@[simp] theorem mreg_toNat (r : MReg) : mreg r.toNat = r := BitVec.ofNat_toNat ..
@[simp] theorem kreg_toNat (r : KReg) : kreg r.toNat = r := BitVec.ofNat_toNat ..
@[simp] theorem oreg_toNat (r : OReg) : oreg r.toNat = r := BitVec.ofNat_toNat ..
@[simp] theorem isC_toNat (r : CReg) : isC r.toNat = true := (isC_iff _).2 r.isLt
@[simp] theorem isM_toNat (r : MReg) : isM r.toNat = true := (isM_iff _).2 r.isLt
@[simp] theorem imm14_div_mod (k : Nat) : imm14 (k / 256) (k % 256) = k := Nat.div_add_mod' k 256
@[simp] theorem named_true (i : Instr) : Sys2Proof.named true i = .ok i := rfl

@[simp] theorem AmoOp.ofCode_code (p : AmoOp) : AmoOp.ofCode p.code = some p := by cases p <;> rfl
@[simp] theorem AmoOrder.ofCode_code (o : AmoOrder) : AmoOrder.ofCode o.code = some o := by cases o <;> rfl
@[simp] theorem Scope.ofCode_code (s : Scope) : Scope.ofCode s.code = some s := by cases s <;> rfl
@[simp] theorem FenceOrder.ofCode_code (o : FenceOrder) : FenceOrder.ofCode o.code = o := by cases o <;> rfl
@[simp] theorem VamoOrder.ofCode_code (o : VamoOrder) : VamoOrder.ofCode o.code = o := by cases o <;> rfl
@[simp] theorem VamoScope.ofCode_code (s : VamoScope) : VamoScope.ofCode s.code = s := by cases s <;> rfl
@[simp] theorem Size.ofCode_code (z : Size) : Size.ofCode z.code = z := by cases z <;> rfl

theorem AmoOp.code_lt (p : AmoOp) : p.code < 10 := by cases p <;> decide
theorem AmoOrder.code_lt (o : AmoOrder) : o.code < 5 := by cases o <;> decide
theorem Scope.code_lt (s : Scope) : s.code < 7 := by cases s <;> decide
theorem FenceOrder.code_lt (o : FenceOrder) : o.code < 4 := by cases o <;> decide
theorem VamoOrder.code_lt (o : VamoOrder) : o.code < 4 := by cases o <;> decide
theorem VamoScope.code_lt (s : VamoScope) : s.code < 4 := by cases s <;> decide
theorem Size.code_lt (z : Size) : z.code < 4 := by cases z <;> decide

theorem GrpMode.bits_lt (m : GrpMode) : m.bits < 2 ^ 26 := by
  have := m.inv.toNat_lt
  have := m.sat.toNat_lt
  have := m.inf.toNat_lt
  unfold GrpMode.bits
  omega

/-- An instruction whose word the decoder reads back. -/
def ReadsBack (i : Instr) : Prop := ∃ w, encodeNat i = some w ∧ w < 2 ^ 32 ∧ decodeNat w = .ok i

theorem decodeNat_packA {maj d a b mn : Nat} (fields : d < 64 ∧ a < 64 ∧ b < 64 ∧ mn < 256) (major : maj < 64) :
    decodeNat (packA maj d a b mn) = decodeFields maj d a b mn := by
  unfold decodeNat packA
  congr 1 <;> omega

section
variable {i : Instr} {maj d a b mn k : Nat}

theorem readsBack_fields (code : encodeNat i = some (packA maj d a b mn))
    (fields : d < 64 ∧ a < 64 ∧ b < 64 ∧ mn < 256) (major : maj < 64) (h : decodeFields maj d a b mn = .ok i) :
    ReadsBack i :=
  ⟨_, code, by unfold packA; omega, (decodeNat_packA fields major).trans h⟩

theorem readsBack_imm (code : encodeNat i = some (packI maj d a k)) (fields : d < 64 ∧ a < 64 ∧ k < 2 ^ 14)
    (major : maj < 64) (h : decodeFields maj d a (k / 256) (k % 256) = .ok i) : ReadsBack i := by
  refine readsBack_fields (code.trans (congrArg some ?_)) (by omega) major h
  unfold packI packA
  omega

theorem readsBack_off (code : encodeNat i = some (packL maj d k)) (fields : d < 64 ∧ k < 2 ^ 20) (major : maj < 64)
    (h : decodeFields maj d (k / 2 ^ 14) (k / 256 % 64) (k % 256) = .ok i) : ReadsBack i := by
  refine readsBack_fields (code.trans (congrArg some ?_)) (by omega) major h
  unfold packL packA
  omega

theorem readsBack_wide (code : encodeNat i = some (packJ maj k)) (field : k < 2 ^ 26) (major : maj < 64)
    (h : decodeFields maj (k / 2 ^ 20) (k / 2 ^ 14 % 64) (k / 256 % 64) (k % 256) = .ok i) : ReadsBack i := by
  refine readsBack_fields (code.trans (congrArg some ?_)) (by omega) major h
  unfold packJ packA
  omega

/-- A row whose operand fills bits 19:8. -/
theorem readsBack_mid (code : encodeNat i = some (packL maj d (k * 256 + mn))) (fields : d < 64 ∧ k < 2 ^ 12 ∧ mn < 256)
    (major : maj < 64) (h : decodeFields maj d (k / 64) (k % 64) mn = .ok i) : ReadsBack i := by
  refine readsBack_fields (code.trans (congrArg some ?_)) (by omega) major h
  unfold packL packA
  omega

end

theorem off20_digits {k : Nat} (_ : k < 2 ^ 20) : off20 (k / 16384) (k / 256 % 64) (k % 256) = k := by
  unfold off20
  omega

theorem off26_digits {k : Nat} (_ : k < 2 ^ 26) : off26 (k / 1048576) (k / 16384 % 64) (k / 256 % 64) (k % 256) = k := by
  unfold off26
  omega

theorem decodeValu_vsel (d a b : CReg) (n : MReg) (x : Bool) :
    decodeValu d.toNat a.toNat b.toNat (0x18 + n.toNat + x.toNat * 128) = .ok (.vsel d a b n x) := by
  have small := x.toNat_lt
  have op : (0x18 + n.toNat + x.toNat * 128) % 128 = 0x18 + n.toNat := by omega
  have kind : (0x18 + n.toNat) / 8 = 3 := by omega
  have mask : (0x18 + n.toNat) % 8 = n.toNat := by omega
  have merge : (0x18 + n.toNat + x.toNat * 128) / 128 = x.toNat := by omega
  unfold decodeValu
  rw [op, merge]
  split
  case h_21 => simp [kind, mask]
  all_goals omega

theorem decodeValuScalar_vsel (d a : CReg) (b : SReg) (n : MReg) (x : Bool) :
    decodeValuScalar d.toNat a.toNat b.toNat (0x18 + n.toNat + x.toNat * 128) = .ok (.vselScalar d a b n x) := by
  have small := x.toNat_lt
  have op : (0x18 + n.toNat + x.toNat * 128) % 128 = 0x18 + n.toNat := by omega
  have kind : (0x18 + n.toNat) / 8 = 3 := by omega
  have mask : (0x18 + n.toNat) % 8 = n.toNat := by omega
  have merge : (0x18 + n.toNat + x.toNat * 128) / 128 = x.toNat := by omega
  unfold decodeValuScalar
  rw [op, merge]
  split
  case h_17 => simp [kind, mask]
  all_goals omega

theorem decodeSync_fence (o : FenceOrder) (s : Scope) : decodeSync 0 0 0 (o.code * 8 + s.code) = .ok (.fence o s) := by
  have order := FenceOrder.code_lt o
  have scope := Scope.code_lt s
  have op : (o.code * 8 + s.code) / 32 = 0 := by omega
  have low : (o.code * 8 + s.code) % 8 = s.code := by omega
  have mid : (o.code * 8 + s.code) / 8 % 4 = o.code := by omega
  simp [decodeSync, op, low, mid]

theorem decodeAmo_row {d a : SReg} {p : AmoOp} {o : AmoOrder} {s : Scope} {w : Bool} {b mn : Nat}
    (imm : imm14 b mn = p.code * 1024 + o.code * 128 + s.code * 16 + w.toNat * 8)
    (wf : (Instr.amo d a p o s w).wf = true) : decodeAmo d.toNat a.toNat b mn = .ok (.amo d a p o s w) := by
  have small := And.intro (AmoOp.code_lt p) (And.intro (AmoOrder.code_lt o) (And.intro (Scope.code_lt s) w.toNat_lt))
  have op : imm14 b mn / 1024 = p.code := by omega
  have order : imm14 b mn / 128 % 8 = o.code := by omega
  have scope : imm14 b mn / 16 % 8 = s.code := by omega
  have wide : imm14 b mn / 8 % 2 = w.toNat := by omega
  have zero : imm14 b mn % 8 = 0 := by omega
  rw [wf_amo] at wf
  simp [decodeAmo, op, order, scope, wide, zero, wf]

theorem decodeVamo_row {d : CReg} {a : SReg} {b : CReg} {p : AmoOp} {o : VamoOrder} {s : VamoScope}
    (wf : (Instr.vamo d a b p o s).wf = true) :
    decodeVamo d.toNat a.toNat b.toNat (p.code * 16 + o.code * 4 + s.code) = .ok (.vamo d a b p o s) := by
  have small := And.intro (VamoOrder.code_lt o) (VamoScope.code_lt s)
  have op : (p.code * 16 + o.code * 4 + s.code) / 16 = p.code := by omega
  have order : (p.code * 16 + o.code * 4 + s.code) / 4 % 4 = o.code := by omega
  have scope : (p.code * 16 + o.code * 4 + s.code) % 4 = s.code := by omega
  rw [wf_vamo] at wf
  simp [decodeVamo, op, order, scope, wf]

theorem GrpMode.bits_low (m : GrpMode) : m.bits % 16 = 0 := by
  unfold GrpMode.bits
  omega

@[simp] theorem toNat_beq_one (x : Bool) : (x.toNat == 1) = x := by cases x <;> rfl

theorem GrpMode.fields_bits (m : GrpMode) :
    m.bits / 2 ^ 25 % 2 = m.inv.toNat ∧ bitsOf m.bits 24 22 = m.guard.toNat ∧ bitsOf m.bits 21 17 = m.fa.toNat
      ∧ bitsOf m.bits 16 12 = m.fb.toNat ∧ bitsOf m.bits 11 9 = m.rnd.toNat ∧ m.bits / 2 ^ 8 % 2 = m.sat.toNat
      ∧ m.bits / 2 ^ 7 % 2 = m.inf.toNat ∧ bitsOf m.bits 6 4 = m.g.toNat := by
  have := m.inv.toNat_lt
  have := m.sat.toNat_lt
  have := m.inf.toNat_lt
  unfold bitsOf GrpMode.bits
  refine ⟨?_, ?_, ?_, ?_, ?_, ?_, ?_, ?_⟩ <;> omega

theorem GrpMode.ofFields_bits (m : GrpMode) :
    GrpMode.ofFields (m.bits / 1048576) (m.bits / 16384 % 64) (m.bits / 256 % 64) (m.bits % 256) = m := by
  have word : m.bits / 1048576 * 2 ^ 20 + m.bits / 16384 % 64 * 2 ^ 14 + m.bits / 256 % 64 * 2 ^ 8 + m.bits % 256 = m.bits :=
    off26_digits (GrpMode.bits_lt m)
  obtain ⟨inv, guard, fa, fb, rnd, sat, inf, g⟩ := GrpMode.fields_bits m
  simp only [GrpMode.ofFields, word, bitOf, inv, guard, fa, fb, rnd, sat, inf, g, toNat_beq_one, BitVec.ofNat_toNat,
    BitVec.setWidth_eq]

theorem readsBack_alu (d a b : SReg) :
    ∀ i ∈ [Instr.add d a b, .sub d a b, .mul d a b, .mulh d a b, .mulhu d a b, .div d a b, .divu d a b, .rem d a
      b, .remu d a b, .and d a b, .or d a b, .xor d a b, .shl d a b, .shr d a b, .sra d a b, .rotl d a b, .min d
      a b, .max d a b, .minu d a b, .maxu d a b, .slt d a b, .sltu d a b, .clz d a, .ctz d a, .popc d a], ReadsBack i := by
  simp only [List.forall_mem_cons, List.not_mem_nil, false_imp_iff, implies_true, and_true]
  and_intros
  all_goals exact readsBack_fields rfl (by omega) (by omega) (by simp [decodeFields, decodeAlu])

theorem readsBack_immediate (d a : SReg) (i : BitVec 14) :
    ∀ j ∈ [Instr.addi d a i, .andi d a i, .ori d a i, .xori d a i, .slti d a i, .sltiu d a i, .jalr d a i, .beq d a i,
      .bne d a i, .blt d a i, .bge d a i, .bltu d a i, .bgeu d a i], ReadsBack j := by
  simp only [List.forall_mem_cons, List.not_mem_nil, false_imp_iff, implies_true, and_true]
  and_intros
  all_goals exact readsBack_imm rfl (by omega) (by omega) (by simp [decodeFields])

theorem readsBack_shiftImm (d a : SReg) (n : BitVec 6) :
    ∀ i ∈ [Instr.shli d a n, .shri d a n, .srai d a n], ReadsBack i := by
  have kind : n.toNat / 4096 = 0 ∧ (4096 + n.toNat) / 4096 = 1 ∧ (8192 + n.toNat) / 4096 = 2 := by omega
  have zero : n.toNat / 64 = 0 ∧ (4096 + n.toNat) / 64 % 64 = 0 ∧ (8192 + n.toNat) / 64 % 64 = 0 := by omega
  have count : n.toNat % 64 = n.toNat ∧ (4096 + n.toNat) % 64 = n.toNat ∧ (8192 + n.toNat) % 64 = n.toNat := by omega
  simp only [List.forall_mem_cons, List.not_mem_nil, false_imp_iff, implies_true, and_true]
  and_intros
  all_goals exact readsBack_imm rfl (by omega) (by omega) (by simp [decodeFields, decodeShiftImm, kind, zero, count])

theorem readsBack_bitField (d a : SReg) (p l : BitVec 6) :
    ∀ i ∈ [Instr.bext d a p l, .bins d a p l, .fsh d a p], ReadsBack i := by
  have kind : (p.toNat * 64 + l.toNat) / 4096 = 0 ∧ (4096 + p.toNat * 64 + l.toNat) / 4096 = 1
      ∧ (8192 + p.toNat * 64) / 4096 = 2 := by omega
  have pos : (p.toNat * 64 + l.toNat) / 64 % 64 = p.toNat ∧ (4096 + p.toNat * 64 + l.toNat) / 64 % 64 = p.toNat
      ∧ (8192 + p.toNat * 64) / 64 % 64 = p.toNat := by omega
  have low : (p.toNat * 64 + l.toNat) % 64 = l.toNat ∧ (4096 + p.toNat * 64 + l.toNat) % 64 = l.toNat
      ∧ (8192 + p.toNat * 64) % 64 = 0 := by omega
  simp only [List.forall_mem_cons, List.not_mem_nil, false_imp_iff, implies_true, and_true]
  and_intros
  all_goals exact readsBack_imm rfl (by omega) (by omega) (by simp [decodeFields, decodeBitField, kind, pos, low])

theorem readsBack_chainImm (d a : CReg) (r : SReg) (n : BitVec 11) :
    ∀ i ∈ [Instr.ctrimHImm d n, .ctrimTImm d n, .csplitImm d a n, .cgetImm r a n, .cputImm d r n], ReadsBack i := by
  have kind : n.toNat / 2048 = 0 ∧ (2048 + n.toNat) / 2048 = 1 ∧ (4096 + n.toNat) / 2048 = 2 ∧ (6144 + n.toNat) / 2048 = 3
      ∧ (8192 + n.toNat) / 2048 = 4 := by omega
  have count : n.toNat % 2048 = n.toNat ∧ (2048 + n.toNat) % 2048 = n.toNat ∧ (4096 + n.toNat) % 2048 = n.toNat
      ∧ (6144 + n.toNat) % 2048 = n.toNat ∧ (8192 + n.toNat) % 2048 = n.toNat := by omega
  simp only [List.forall_mem_cons, List.not_mem_nil, false_imp_iff, implies_true, and_true]
  and_intros
  all_goals exact readsBack_imm rfl (by omega) (by omega) (by simp [decodeFields, decodeChainImm, kind, count])

theorem readsBack_valu (d a b : CReg) (x : Bool) :
    ∀ i ∈ [Instr.vadd d a b x, .vsub d a b x, .vmul d a b x, .vfma d a b x, .vfms d a b x, .vdiv d a b x, .vmin
      d a b x, .vmax d a b x, .vand d a b x, .vor d a b x, .vxor d a b x, .vshl d a b x, .vshr d a b x, .vsra d
      a b x, .vfsh d a b x, .vbext d a b x, .vabs d a x, .vneg d a x, .vpopc d a x, .vclz d a x], ReadsBack i := by
  cases x
  all_goals
    simp only [List.forall_mem_cons, List.not_mem_nil, false_imp_iff, implies_true, and_true]
    and_intros
    all_goals exact readsBack_fields rfl (by simp; omega) (by omega) (by simp [decodeFields, decodeValu])

theorem readsBack_valuScalar (d a : CReg) (b : SReg) (x : Bool) :
    ∀ i ∈ [Instr.vaddScalar d a b x, .vsubScalar d a b x, .vmulScalar d a b x, .vfmaScalar d a b x, .vfmsScalar
      d a b x, .vdivScalar d a b x, .vminScalar d a b x, .vmaxScalar d a b x, .vandScalar d a b x, .vorScalar d
      a b x, .vxorScalar d a b x, .vshlScalar d a b x, .vshrScalar d a b x, .vsraScalar d a b x, .vfshScalar d a
      b x, .vbextScalar d a b x], ReadsBack i := by
  cases x
  all_goals
    simp only [List.forall_mem_cons, List.not_mem_nil, false_imp_iff, implies_true, and_true]
    and_intros
    all_goals exact readsBack_fields rfl (by simp; omega) (by omega) (by simp [decodeFields, decodeValuScalar])

theorem readsBack_chain (d a b : CReg) (r t : SReg) :
    ∀ i ∈ [Instr.cnew d, .cfree d, .cshare d a, .cprep d a, .capp d a, .cprepElement d r, .cappElement d r,
      .ctrimH d r, .ctrimT d r, .csplit d a r, .csplice d a b, .clen r a, .cseg r a t, .cflat d a, .cget r a t,
      .cput d r t, .cspill a r, .cfill d r, .chld d r, .chst a r], ReadsBack i := by
  simp only [List.forall_mem_cons, List.not_mem_nil, false_imp_iff, implies_true, and_true]
  and_intros
  all_goals exact readsBack_fields rfl (by omega) (by omega) (by simp [decodeFields, decodeChain])

theorem readsBack_vcvt (d a : CReg) (r : SReg) (x : Bool) :
    ∀ i ∈ [Instr.vcvt d a x, .vcvtSat d a x, .vexp2 d a x, .vrcp d a x, .vsqrt d a x, .vidx d x, .vmv d a x,
      .vmvScalar d r x], ReadsBack i := by
  cases x
  all_goals
    simp only [List.forall_mem_cons, List.not_mem_nil, false_imp_iff, implies_true, and_true]
    and_intros
    all_goals exact readsBack_fields rfl (by simp; omega) (by omega) (by simp [decodeFields, decodeVcvt])

theorem readsBack_mask (d a b : MReg) (r t : SReg) :
    ∀ i ∈ [Instr.mand d a b, .mor d a b, .mxor d a b, .mnot d a, .mpopc r a, .mfirst r a, .mset d r t, .mget r a
      t], ReadsBack i := by
  simp only [List.forall_mem_cons, List.not_mem_nil, false_imp_iff, implies_true, and_true]
  and_intros
  all_goals exact readsBack_fields rfl (by omega) (by omega) (by simp [decodeFields, decodeMask])

theorem readsBack_mat (o p q : OReg) (d : CReg) (r t : SReg) :
    ∀ i ∈ [Instr.oclaim o r, .orel o, .oput o d, .oget d o, .mma d p q, .mmaz d p q, .bswalk o r t, .biasupd o d
      t], ReadsBack i := by
  simp only [List.forall_mem_cons, List.not_mem_nil, false_imp_iff, implies_true, and_true]
  and_intros
  all_goals exact readsBack_fields rfl (by omega) (by omega) (by simp [decodeFields, decodeMat])

theorem readsBack_ctx (d r t : SReg) (c : CReg) :
    ∀ i ∈ [Instr.tnew d, .tnewq d, .tset r, .tsets r, .tget d, .tretTag r, .citw r t, .citr d r, .citp r c,
      .vstcm c r], ReadsBack i := by
  simp only [List.forall_mem_cons, List.not_mem_nil, false_imp_iff, implies_true, and_true]
  and_intros
  all_goals exact readsBack_fields rfl (by omega) (by omega) (by simp [decodeFields, decodeCtx])

theorem readsBack_vcmp (n : MReg) (a b : CReg) (r : SReg) (c : Cond) :
    ∀ i ∈ [Instr.vcmp n a b c, .vcmpScalar n a r c], ReadsBack i := by
  cases c
  all_goals
    simp only [List.forall_mem_cons, List.not_mem_nil, false_imp_iff, implies_true, and_true]
    and_intros
    all_goals
      exact readsBack_fields rfl (by simp [Cond.code]; omega) (by omega)
        (by simp [decodeFields, decodeVcmp, Cond.code, Cond.ofCode])

theorem readsBack_sized (d r t : SReg) (z : Size) :
    ∀ i ∈ [Instr.stcm d r z, .ldt d r t z], ReadsBack i := by
  cases z
  all_goals
    simp only [List.forall_mem_cons, List.not_mem_nil, false_imp_iff, implies_true, and_true]
    and_intros
    all_goals
      exact readsBack_fields rfl (by simp [Size.code]; omega) (by omega)
        (by simp [decodeFields, decodeCtx, decodeCtxld, Size.code, Size.ofCode])

theorem readsBack (i : Instr) (wf : i.wf = true) (encoded : i.encoded = true) : ReadsBack i := by
  cases i
  case doorbell | descriptorPoll | strandPlace | gangStart | recordComplete | heldCompletionWrite | copyNodeComplete |
      graphCopyFault | chunkComplete | chunkFail | streamRefill | bufferReclaim | allocGrant | allocTimeout | tagGrant
      | tagDrainComplete | slotGrant | barrierDepart | waitkWake | wfiWake | convoyDrained | preemptionTaken |
      priorityAge | clockStepDown | clockStepUp | pageMigrate | migrationWindowEnd | linkCrcError | correctedError |
      lastingFaultRetire | fatalError | dawn | quadrantReady | readEventLog | readDuskRecord | readSensors |
      writeFirmwareImage | commitFirmwareImage | loadKeySlot | eraseKeySlot | mailboxComplete | lanesplitWrite |
      poolDescriptorWrite | ptrootWrite | pselWrite | partitionCreate | pbootWrite | poolReset | preqWrite |
      gnodeWrite | grpentWrite | qpwrWrite | tagcapWrite | cellStoreWrite | fragcntWrite | vlWrite | vlmaxWrite |
      sheadWrite | gmWrite | unassignedOpcode | reservedFieldNotZero | fetchFault | hostMemoryAccess |
      peerMemoryAccess =>
    exact absurd encoded Bool.false_ne_true
  case nop | tret | endStrand | wfi => exact readsBack_fields rfl (by omega) (by omega) rfl
  case svc | sysr | sysw =>
    exact readsBack_mid rfl (by omega) (by omega) (by simp [decodeFields, decodeSys, Nat.div_add_mod'])
  case add d a b | sub d a b | mul d a b | mulh d a b | mulhu d a b | div d a b | divu d a b | rem d a b | remu d a b
      | and d a b | or d a b | xor d a b | shl d a b | shr d a b | sra d a b | rotl d a b | min d a b | max d a b
      | minu d a b | maxu d a b | slt d a b | sltu d a b =>
    exact readsBack_alu d a b _ (by simp)
  case clz d a | ctz d a | popc d a => exact readsBack_alu d a 0 _ (by simp)
  case addi d a i | andi d a i | ori d a i | xori d a i | slti d a i | sltiu d a i | jalr d a i | beq d a i | bne d a i
      | blt d a i | bge d a i | bltu d a i | bgeu d a i =>
    exact readsBack_immediate d a i _ (by simp)
  case stripClose | snext => exact readsBack_imm rfl (by omega) (by omega) (by simp [decodeFields])
  case shli d a n | shri d a n | srai d a n => exact readsBack_shiftImm d a n _ (by simp)
  case lhi d o | pcadd d o | jal d o =>
    have off := off20_digits o.isLt
    exact readsBack_off rfl (by omega) (by omega) (by simp [decodeFields, off])
  case lds d a z o | ldu d a z o | sts d a z o =>
    have small := Size.code_lt z
    have size : (z.code * 4096 + o.toNat) / 4096 = z.code := by omega
    have off : (z.code * 4096 + o.toNat) % 4096 = o.toNat := by omega
    exact readsBack_imm rfl (by omega) (by omega) (by simp [decodeFields, size, off])
  case amo d a p o s w =>
    have small := And.intro (AmoOp.code_lt p) (And.intro (AmoOrder.code_lt o) (And.intro (Scope.code_lt s) w.toNat_lt))
    exact readsBack_imm rfl (by omega) (by omega) (by rw [decodeFields, decodeAmo_row (imm14_div_mod _) wf])
  case strip d a =>
    have source : a.toNat ≠ 0 := fun h => bne_iff_ne.1 wf (BitVec.eq_of_toNat_eq h)
    exact readsBack_imm rfl (by omega) (by omega) (by simp [decodeFields, source])
  case setvl d a => exact readsBack_imm rfl (by omega) (by omega) (by simp [decodeFields, decodeSetvl, imm14])
  case setvlx d a o =>
    have kind : (8192 + o.toNat) / 8192 = 1 := by omega
    have off : (8192 + o.toNat) % 8192 = o.toNat := by omega
    exact readsBack_imm rfl (by omega) (by omega) (by simp [decodeFields, decodeSetvl, kind, off])
  case grp m | grpk m =>
    exact readsBack_wide rfl (GrpMode.bits_lt m) (by omega)
      (by simp [decodeFields, GrpMode.bits_low, GrpMode.ofFields_bits])
  case bext d a p l | bins d a p l => exact readsBack_bitField d a p l _ (by simp)
  case fsh d a n => exact readsBack_bitField d a n 0 _ (by simp)
  case vadd d a b x | vsub d a b x | vmul d a b x | vfma d a b x | vfms d a b x | vdiv d a b x | vmin d a b x
      | vmax d a b x | vand d a b x | vor d a b x | vxor d a b x | vshl d a b x | vshr d a b x | vsra d a b x
      | vfsh d a b x | vbext d a b x =>
    exact readsBack_valu d a b x _ (by simp)
  case vabs d a x | vneg d a x | vpopc d a x | vclz d a x => exact readsBack_valu d a 0 x _ (by simp)
  case vsel d a b n x =>
    have small := x.toNat_lt
    exact readsBack_fields rfl (by omega) (by omega) (by simp [decodeFields, decodeValu_vsel])
  case vaddScalar d a b x | vsubScalar d a b x | vmulScalar d a b x | vfmaScalar d a b x | vfmsScalar d a b x
      | vdivScalar d a b x | vminScalar d a b x | vmaxScalar d a b x | vandScalar d a b x | vorScalar d a b x
      | vxorScalar d a b x | vshlScalar d a b x | vshrScalar d a b x | vsraScalar d a b x | vfshScalar d a b x
      | vbextScalar d a b x =>
    exact readsBack_valuScalar d a b x _ (by simp)
  case vselScalar d a b n x =>
    have small := x.toNat_lt
    exact readsBack_fields rfl (by omega) (by omega) (by simp [decodeFields, decodeValuScalar_vsel])
  case vcmp n a b c => exact readsBack_vcmp n a b 0 c _ (by simp)
  case vcmpScalar n a r c => exact readsBack_vcmp n a 0 r c _ (by simp)
  case vredsum | vredmax | vredmin =>
    exact readsBack_fields rfl (by omega) (by omega) (by simp [decodeFields, decodeVred])
  case vcvt d a x | vcvtSat d a x | vexp2 d a x | vrcp d a x | vsqrt d a x | vmv d a x =>
    exact readsBack_vcvt d a 0 x _ (by simp)
  case vidx d x => exact readsBack_vcvt d 0 0 x _ (by simp)
  case vmvScalar d r x => exact readsBack_vcvt d 0 r x _ (by simp)
  case vperm | vcomp | vexpd | vslide =>
    exact readsBack_fields rfl (by omega) (by omega) (by simp [decodeFields, decodeVperm])
  case mand d a b | mor d a b | mxor d a b => exact readsBack_mask d a b 0 0 _ (by simp)
  case mnot d a => exact readsBack_mask d a 0 0 0 _ (by simp)
  case mpopc r a | mfirst r a => exact readsBack_mask 0 a 0 r 0 _ (by simp)
  case mset d r t => exact readsBack_mask d 0 0 r t _ (by simp)
  case mget r a t => exact readsBack_mask 0 a 0 r t _ (by simp)
  case vbr => exact readsBack_imm rfl (by omega) (by omega) (by simp [decodeFields])
  case vjoin o =>
    have off := off26_digits o.isLt
    exact readsBack_wide rfl (by omega) (by omega) (by simp [decodeFields, off])
  case cnew d | cfree d => exact readsBack_chain d 0 0 0 0 _ (by simp)
  case cshare d a | cprep d a | capp d a | cflat d a => exact readsBack_chain d a 0 0 0 _ (by simp)
  case cprepElement d r | cappElement d r | ctrimH d r | ctrimT d r | cfill d r | chld d r =>
    exact readsBack_chain d 0 0 r 0 _ (by simp)
  case clen r a | cspill a r | chst a r => exact readsBack_chain 0 a 0 r 0 _ (by simp)
  case csplit d a r => exact readsBack_chain d a 0 r 0 _ (by simp)
  case csplice d a b => exact readsBack_chain d a b 0 0 _ (by simp)
  case cseg r a t | cget r a t => exact readsBack_chain 0 a 0 r t _ (by simp)
  case cput d r t => exact readsBack_chain d 0 0 r t _ (by simp)
  case ctrimHImm d n | ctrimTImm d n => exact readsBack_chainImm d 0 0 n _ (by simp)
  case csplitImm d a n => exact readsBack_chainImm d a 0 n _ (by simp)
  case cgetImm r a n => exact readsBack_chainImm 0 a r n _ (by simp)
  case cputImm d r n => exact readsBack_chainImm d 0 r n _ (by simp)
  case vld | vlds | vldx | vldff | vldk =>
    exact readsBack_fields rfl (by omega) (by omega) (by simp [decodeFields, decodeVld])
  case vst | vsts | vstx => exact readsBack_fields rfl (by omega) (by omega) (by simp [decodeFields, decodeVst])
  case strm | strmx | strmoff => exact readsBack_fields rfl (by omega) (by omega) (by simp [decodeFields, decodeStrm])
  case cpy | cpyx | cpyr => exact readsBack_fields rfl (by omega) (by omega) (by simp [decodeFields, decodeCopy])
  case waitk | ktest | kclr => exact readsBack_fields rfl (by omega) (by omega) (by simp [decodeFields, decodeKmask])
  case fence o s =>
    have order := FenceOrder.code_lt o
    have scope := Scope.code_lt s
    exact readsBack_fields rfl (by omega) (by omega) (by simp [decodeFields, decodeSync_fence])
  case ifence | qpost => exact readsBack_fields rfl (by omega) (by omega) (by simp [decodeFields, decodeSync])
  case gbar g | garr g | gwt g =>
    have high : g.toNat / 64 / 4 = 0 := by omega
    have low : g.toNat / 64 % 4 * 64 + g.toNat % 64 = g.toNat := by omega
    exact readsBack_mid rfl (by omega) (by omega) (by simp [decodeFields, decodeSync, high, low])
  case vamo d a b p o s =>
    have small := And.intro (AmoOp.code_lt p) (And.intro (VamoOrder.code_lt o) (VamoScope.code_lt s))
    exact readsBack_fields rfl (by omega) (by omega) (by rw [decodeFields, decodeVamo_row wf])
  case oclaim o r => exact readsBack_mat o 0 0 0 r 0 _ (by simp)
  case orel o => exact readsBack_mat o 0 0 0 0 0 _ (by simp)
  case oput o d => exact readsBack_mat o 0 0 d 0 0 _ (by simp)
  case oget d o => exact readsBack_mat o 0 0 d 0 0 _ (by simp)
  case mma d p q | mmaz d p q => exact readsBack_mat 0 p q d 0 0 _ (by simp)
  case bswalk o r t => exact readsBack_mat o 0 0 0 r t _ (by simp)
  case biasupd o d t => exact readsBack_mat o 0 0 d 0 t _ (by simp)
  case tkon | tkoff | tkget | tksave | tkload =>
    exact readsBack_fields rfl (by omega) (by omega) (by simp [decodeFields, decodeTopk])
  case tnew d | tnewq d | tget d => exact readsBack_ctx d 0 0 0 _ (by simp)
  case tset r | tsets r | tretTag r => exact readsBack_ctx 0 r 0 0 _ (by simp)
  case citw r t => exact readsBack_ctx 0 r t 0 _ (by simp)
  case citr d r => exact readsBack_ctx d r 0 0 _ (by simp)
  case citp r c | vstcm c r => exact readsBack_ctx 0 r 0 c _ (by simp)
  case stcm d r z => exact readsBack_sized d r 0 z _ (by simp)
  case ldt d r t z => exact readsBack_sized d r t z _ (by simp)
  case vldt => exact readsBack_fields rfl (by omega) (by omega) (by simp [decodeFields, decodeCtxld])

theorem encoder_reads_back {i : Instr} (wf : i.wf = true) (encoded : i.encoded = true) :
    ∃ w, encode i = some w ∧ decodeWord w = .ok i := by
  obtain ⟨n, code, word, back⟩ := readsBack i wf encoded
  refine ⟨BitVec.ofNat 32 n, congrArg (Option.map (BitVec.ofNat 32)) code, ?_⟩
  rwa [decodeWord, BitVec.toNat_ofNat, Nat.mod_eq_of_lt word]

theorem decoder_has_word {w : IWord} {i : Instr} (h : decodeWord w = .ok i) : i.wf = true ∧ encode i = some w := by
  have word := hasWord_decodeNat w.isLt
  rw [show decodeNat w.toNat = .ok i from h] at word
  obtain ⟨wf, code⟩ := word
  exact ⟨wf, (congrArg (Option.map (BitVec.ofNat 32)) code).trans (congrArg some (BitVec.ofNat_toNat ..))⟩

/-- Settles O57: the decoder reads back what the encoder writes, format by format, and each row that it answers has the word
that it read. -/
theorem decodeEncode : Obligations.DecodeEncode := by
  refine ⟨fun i wf encoded => encoder_reads_back wf encoded, fun w i h => ?_⟩
  have encoded := decoded_decodeWord w
  rw [h] at encoded
  obtain ⟨wf, code⟩ := decoder_has_word h
  exact ⟨wf, encoded, code⟩

/-- Settles O56: each word is decoded by evaluation. -/
theorem decodesWrittenWords : Obligations.DecodesWrittenWords := by
  unfold Obligations.DecodesWrittenWords
  decide +kernel

end Sys2Proof.Machine
end

section
/-! PROOFS. Writes of a strand's registers (R59, R61, R62, R91, R144, R146, R147, R188): what each of them stores, and in which
modes; at the end they are put together to settle O12. -/

namespace Sys2Proof.Machine

/-! ### The write -/

theorem sysWrite_unknown {s : State} {n : Nat} (v : Word) (unknown : s.sysValue n = none) :
    s.sysWrite n v = .next (s.trapHere .unassigned) := by
  unfold State.sysWrite
  rw [unknown]
  rfl

theorem sysWrite_barred {s : State} {n : Nat} (v : Word) (known : (s.sysValue n).isSome = true)
    (barred : mayWrite s.me.mode n = false) : s.sysWrite n v = .next (s.trapHere .privilege) := by
  unfold State.sysWrite
  rw [if_neg (by rw [Option.isNone_iff_eq_none]; exact Option.isSome_iff_ne_none.1 known), if_pos (by rw [barred]; rfl)]

/-- A write that stores strand `m` as the executing one changes nothing else but the PC. -/
theorem becomes_of_done {i : Instr} {s : State} {n : Nat} {v : Word} {m : Strand} (run : exec i s = s.sysWrite n v)
    (known : (s.sysValue n).isSome = true) (may : mayWrite s.me.mode n = true) (put : s.putSys n v = .done (s.setMe m)) :
    Becomes i s { m with pc := s.me.pc + 4, wait := .none } := by
  refine ⟨_, run.trans (sysWrite_done known may put), ?_, ?_⟩
  · rw [State.me_setMe, State.me_setMe]
    rfl
  · rw [setMe_setMe]
    exact setMe_onlyMe s _

theorem becomes_of_putSys {i : Instr} {s : State} {n : Nat} {v : Word} {m : Strand} (run : exec i s = s.sysWrite n v)
    (known : (s.sysValue n).isSome = true) (may : mayWrite s.me.mode n = true) (put : s.me.putSys v n = some m)
    (other : n ≠ 0x006) : Becomes i s { m with pc := s.me.pc + 4, wait := .none } := by
  refine becomes_of_done run known may ?_
  unfold State.putSys
  rw [put]
  exact if_neg fun h => other h.1

/-- The modes that may write a register (R61, R62). -/
theorem mayWrite_iff (m : Mode) (n : Nat) : mayWrite m n = true ↔
    ¬ (n = 0x00A ∨ n = 0x00B ∨ n = 0x00C ∨ n = 0x304 ∨ n = 0x306 ∨ n = 0x409 ∨ n = 0x40A)
      ∧ match m with
        | .monitor => True
        | .supervisor => ¬ (n = 0x305 ∨ n = 0x404 ∨ n = 0x406 ∨ n = 0x407 ∨ (0x500 ≤ n ∧ n ≤ 0x50F))
        | .user => n = 0x006 ∨ n = 0x008 ∨ n = 0x009 := by
  cases m with
  | monitor => simp [mayWrite, readOnly, and_assoc]
  | supervisor => simp [mayWrite, readOnly, monitorWrites, monitorOnly]; omega
  | user => simp [mayWrite, readOnly, userWrites, or_assoc, and_assoc]

/-! ### What each write stores -/

theorem putVlmax_eq (t : Strand) (v : Word) : t.putVlmax v = if v.toNat % 65536 = 0 then t else
    { t with vlmax := v.setWidth 16, vl := BitVec.ofNat 16 (Min.min t.vl.toNat (v.toNat % 65536)) } := by
  have zero : (v.setWidth 16 = 0) ↔ v.toNat % 65536 = 0 := by
    rw [BitVec.toNat_eq, BitVec.toNat_setWidth]
    rfl
  have least : (if t.vl.toNat ≤ (v.setWidth 16 : BitVec 16).toNat then t.vl else v.setWidth 16)
      = BitVec.ofNat 16 (Min.min t.vl.toNat (v.toNat % 65536)) := by
    refine BitVec.eq_of_toNat_eq ?_
    rw [BitVec.toNat_ofNat, apply_ite BitVec.toNat, BitVec.toNat_setWidth]
    split <;> omega
  unfold Strand.putVlmax
  simp only [zero, least]

theorem putFragcnt_eq (t : Strand) (v : Word) : t.putFragcnt v = if 16 < v.toNat then t else
    { t with frags := t.frags.take v.toNat ++ List.replicate (v.toNat - t.frags.length) {}
             runMask := if v.toNat = 0 then BitVec.allOnes 65536 else t.runMask } := rfl

theorem fragEntry_eq (t : Strand) : t.fragEntry = t.fragsel.toNat % 16 := by
  unfold Strand.fragEntry
  rw [BitVec.toNat_and]
  exact Nat.and_two_pow_sub_one_eq_mod t.fragsel.toNat 4

theorem fragLow_eq (t : Strand) : t.fragLow = 64 * (t.fragsel.toNat / 2 ^ 16) := by
  unfold Strand.fragLow bitsOf
  omega

theorem onFrag_named {t : Strand} (f : Frag → Frag) (run : ¬ t.fragsel.getLsbD 4 = true)
    (there : t.fragsel.toNat % 16 < t.frags.length) : t.onFrag f =
      { t with frags := t.frags.set (t.fragsel.toNat % 16) (f (t.frags.getD (t.fragsel.toNat % 16) {})) } := by
  unfold Strand.onFrag Strand.fragRun
  rw [fragEntry_eq, List.getElem?_eq_getElem there, List.getD_eq_getElem _ _ there]
  exact if_neg run

theorem onFrag_unnamed {t : Strand} (f : Frag → Frag)
    (h : ¬ (¬ t.fragsel.getLsbD 4 = true ∧ t.fragsel.toNat % 16 < t.frags.length)) : t.onFrag f = t := by
  unfold Strand.onFrag Strand.fragRun
  rw [fragEntry_eq]
  split
  next e there =>
    refine if_pos (not_not.1 fun run => h ⟨run, ?_⟩)
    exact (List.getElem?_eq_some_iff.1 there).1
  · rfl

/-- Bit 1 of a join target is its kind's (R147). -/
theorem and_two (v : Word) : v &&& 2 = 0 ↔ v.getLsbD 1 = false := by
  change v &&& BitVec.twoPow 64 1 = 0 ↔ _
  rw [BitVec.and_twoPow]
  cases v.getLsbD 1 <;> decide

theorem getLsbD_putWindow (m : Mask) (low : Nat) (v : Word) {e : Nat} (h : e < 65536) :
    (putWindow m low v).getLsbD e = if low ≤ e ∧ e < low + 64 then v.getLsbD (e - low) else m.getLsbD e := by
  have short : e - low < 65536 := by omega
  unfold putWindow
  simp only [BitVec.getLsbD_or, BitVec.getLsbD_and, BitVec.getLsbD_not, BitVec.getLsbD_shiftLeft, BitVec.getLsbD_setWidth,
    BitVec.getLsbD_allOnes, h, short, decide_true, Bool.true_and]
  by_cases below : e < low
  · simp [below, Nat.not_le.2 below]
  · by_cases inside : e - low < 64
    · have place : low ≤ e ∧ e < low + 64 := by omega
      simp [below, inside, place]
    · have out : ¬ (low ≤ e ∧ e < low + 64) := by omega
      have none_ : v.getLsbD (e - low) = false := BitVec.getLsbD_of_ge _ _ (Nat.not_lt.1 inside)
      simp [inside, out, none_]

theorem putFragmsk_named {t : Strand} (v : Word) (run : ¬ t.fragsel.getLsbD 4 = true)
    (there : t.fragsel.toNat % 16 < t.frags.length) : t.putFragmsk v =
      { t with frags := t.frags.set (t.fragsel.toNat % 16) { t.frags.getD (t.fragsel.toNat % 16) {} with
          mask := putWindow (t.frags.getD (t.fragsel.toNat % 16) {}).mask t.fragLow v } } := by
  unfold Strand.putFragmsk
  rw [if_neg (by exact run)]
  exact onFrag_named _ run there

theorem putFragmsk_runMask {t : Strand} (v : Word) (run : t.fragsel.getLsbD 4 = true) (some_ : t.frags ≠ []) :
    t.putFragmsk v = { t with runMask := putWindow t.runMask t.fragLow v } := by
  unfold Strand.putFragmsk
  rw [if_pos (by exact run), if_neg (by rw [List.isEmpty_iff]; exact some_)]

theorem putFragmsk_unnamed {t : Strand} (v : Word)
    (h : ¬ (¬ t.fragsel.getLsbD 4 = true ∧ t.fragsel.toNat % 16 < t.frags.length))
    (none_ : ¬ (t.fragsel.getLsbD 4 = true ∧ t.frags ≠ [])) : t.putFragmsk v = t := by
  unfold Strand.putFragmsk
  split
  next run =>
    exact if_pos (List.isEmpty_iff.2 (not_not.1 fun some_ => none_ ⟨run, some_⟩))
  · exact onFrag_unnamed _ h

/-- A field of `gm` that a write takes from bits `hi:lo` (R58). -/
theorem ofNat_bitsOf (v : Word) (w hi lo : Nat) (width : hi + 1 - lo = w) :
    BitVec.ofNat w (bitsOf v.toNat hi lo) = v.extractLsb' lo w := by
  refine BitVec.eq_of_toNat_eq ?_
  rw [BitVec.toNat_ofNat, BitVec.extractLsb'_toNat, bitsOf, width, Nat.mod_mod, Nat.shiftRight_eq_div_pow]

theorem gmOfNat_eq (v : Word) : Gm.ofNat v.toNat =
    { gk := v.getLsbD 26, inv := v.getLsbD 25, guard := v.extractLsb' 22 3, fa := v.extractLsb' 17 5
      fb := v.extractLsb' 12 5, rnd := v.extractLsb' 9 3, sat := v.getLsbD 8, inf := v.getLsbD 7
      g := v.extractLsb' 4 3 } := by
  unfold Gm.ofNat
  simp only [bitOf_toNat, ofNat_bitsOf _ 3 24 22 rfl, ofNat_bitsOf _ 5 21 17 rfl, ofNat_bitsOf _ 5 16 12 rfl,
    ofNat_bitsOf _ 3 11 9 rfl, ofNat_bitsOf _ 3 6 4 rfl]

/-- A write of `gm` (R59): a reserved code traps, any other is the only change. -/
theorem gm_write {i : Instr} {s : State} {v : Word} (run : exec i s = s.sysWrite 0x006 v) :
    let bad := badMode (v.toNat / 2 ^ 17 % 32) (v.toNat / 2 ^ 12 % 32) (v.toNat / 2 ^ 9 % 8) (v.toNat / 16 % 8)
    (bad = true → Traps i s .mode s.me.pc)
    ∧ (bad = false → Becomes i s { s.me with gm := Gm.ofNat v.toNat, pc := s.me.pc + 4, wait := .none }) := by
  intro bad
  have may : mayWrite s.me.mode 0x006 = true := by cases s.me.mode <;> rfl
  have put : s.putSys 0x006 v = if bad = true then .trap .mode else .done (s.setMe { s.me with gm := Gm.ofNat v.toNat }) :=
    if_congr (and_iff_right rfl) rfl rfl
  refine ⟨fun h => traps_of_trap (run.trans ?_), fun h => ?_⟩
  · rw [if_pos h] at put
    unfold State.sysWrite
    rw [if_neg (by exact Bool.false_ne_true), if_neg (by rw [may]; exact Bool.false_ne_true), put]
    rfl
  · rw [if_neg (by rw [h]; exact Bool.false_ne_true)] at put
    exact becomes_of_done run rfl may put

/-- Settles O12: a write that the mode bars or the map lacks traps, and any other leaves the strand that the register's rule
gives. -/
theorem sysStrandWrites : Obligations.SysStrandWrites := by
  intro s d r v n me on sys both may run at_ entry named low window bad
  have writes {n : Nat} (h : me.mode ≠ .user) (shared : readOnly n = false) (strand : monitorWrites n = false) :
      mayWrite s.me.mode n = true := may_of_ne_user h shared strand
  have pair {i : Instr} {k : BitVec 12} {m m' : Strand} (here : exec i s = s.sysWrite k.toNat v)
      (known : (s.sysValue k.toNat).isSome = true) (ok : mayWrite s.me.mode k.toNat = true) (other : k.toNat ≠ 0x006)
      (put : me.putSys v k.toNat = some m) (same : m = m') : both i k m' :=
    same ▸ ⟨becomes_of_putSys here known ok put other, becomes_of_putSys rfl known ok put other⟩
  have one {k : BitVec 12} {m m' : Strand} (known : (s.sysValue k.toNat).isSome = true) (ok : mayWrite s.me.mode k.toNat = true)
      (other : k.toNat ≠ 0x006) (put : me.putSys v k.toNat = some m) (same : m = m') : sys k m' :=
    same ▸ becomes_of_putSys rfl known ok put other
  have window_of (old : Mask) : window old (putWindow old me.fragLow v) := by
    intro e he
    rw [getLsbD_putWindow _ _ _ he, fragLow_eq]
  refine ⟨fun known barred => ?_, fun unknown => ?_, fun mode => ?_, ?_, ?_, fun h => ?_, fun h => ?_⟩
  · refine traps_of_trap (sysWrite_barred v known ?_)
    exact Bool.eq_false_iff.2 fun ok => barred ((mayWrite_iff s.me.mode r.toNat).1 ok)
  · exact traps_of_trap (sysWrite_unknown v unknown)
  · refine ⟨?_, ?_, ?_, ?_, ?_, ?_, ?_, ?_, ?_, ?_, ?_, ?_, fun h => ?_, fun h => ?_, fun h some_ => ?_, ?_, ?_, ?_, ?_, ?_, ?_,
      ?_, ?_, ?_, ?_, ?_⟩
    · exact pair rfl rfl (writes mode rfl rfl) (by decide) rfl rfl
    · exact pair rfl rfl (writes mode rfl rfl) (by decide) rfl (putVlmax_eq me v)
    · exact pair rfl rfl (writes mode rfl rfl) (by decide) rfl rfl
    · exact pair rfl rfl (writes mode rfl rfl) (by decide) rfl (putFragcnt_eq me v)
    case refine_11 =>
      refine ⟨_, one rfl (writes mode rfl rfl) (by decide) rfl rfl, fun j => ?_⟩
      rw [Sparse.get_put]
    case refine_13 =>
      obtain ⟨run_, there⟩ := h
      refine ⟨?_, fun bit => ?_, fun bit => ?_, _, window_of _, ?_⟩
      · exact one rfl (writes mode rfl rfl) (by decide) rfl (onFrag_named _ run_ there)
      · exact one rfl (writes mode rfl rfl) (by decide) rfl ((if_pos (and_two v |>.2 bit)).trans (onFrag_named _ run_ there))
      · exact one rfl (writes mode rfl rfl) (by decide) rfl (if_neg fun z => absurd (and_two v |>.1 z) (by rw [bit]; decide))
      · exact one rfl (writes mode rfl rfl) (by decide) rfl (putFragmsk_named v run_ there)
    case refine_14 =>
      refine ⟨?_, ?_, fun none_ => ?_⟩
      · exact one rfl (writes mode rfl rfl) (by decide) rfl (onFrag_unnamed _ h)
      · exact one rfl (writes mode rfl rfl) (by decide) rfl ((ite_congr rfl (fun _ => onFrag_unnamed _ h) fun _ => rfl).trans (ite_self _))
      · exact one rfl (writes mode rfl rfl) (by decide) rfl (putFragmsk_unnamed v h none_)
    case refine_15 =>
      exact ⟨_, window_of _, one rfl (writes mode rfl rfl) (by decide) rfl (putFragmsk_runMask v h some_)⟩
    case refine_19 =>
      have zero : (v.setWidth 8 = (0 : BitVec 8)) = (v.toNat % 256 = 0) := by rw [BitVec.toNat_eq, BitVec.toNat_setWidth]; rfl
      refine one rfl (writes mode rfl rfl) (by decide) rfl ?_
      simp only [zero]
    all_goals exact one rfl (writes mode rfl rfl) (by decide) rfl rfl
  · exact one rfl (by cases s.me.mode <;> rfl) (by decide) rfl rfl
  · exact one rfl (by cases s.me.mode <;> rfl) (by decide) rfl rfl
  · exact ⟨(gm_write rfl).1 h, (gm_write rfl).1 h⟩
  · have both_ := And.intro ((gm_write (i := .gmWrite d) (s := s) rfl).2 h) ((gm_write (i := .sysw d 0x006) (s := s) rfl).2 h)
    rwa [gmOfNat_eq] at both_

end Sys2Proof.Machine
end

section
/-! PROOFS. How a convoy begins (R63, R87): by its first member, or by a `grp` or `grpk` before it; either way the members run
from one state and one list of words. -/

namespace Sys2Proof.Machine

/-- `u` is `s` but for the PC of the executing strand, which is `start`. -/
structure SameButPc (s u : State) (start : Word) : Prop where
  rest   : { u with strands := s.strands } = s
  others : ∀ k, k ≠ s.cur → u.strand k = s.strand k
  me     : u.me = { s.me with pc := start }

theorem SameButPc.refl (s : State) : SameButPc s s s.me.pc := ⟨rfl, fun _ _ => rfl, rfl⟩

theorem sameButPc_setMe (s : State) (pc : Word) : SameButPc s (s.setMe { s.me with pc := pc }) pc :=
  ⟨rfl, fun _ other => State.strand_setMe_ne s other _, State.me_setMe s _⟩

theorem SameButPc.cur {s u : State} {start : Word} (h : SameButPc s u start) : u.cur = s.cur := by
  have e := congrArg State.cur h.rest
  exact e

theorem SameButPc.fetch {s u : State} {start : Word} (h : SameButPc s u start) (va : Nat) :
    u.fetch u.cur va = s.fetch s.cur va := by
  have me : u.strand u.cur = { s.strand s.cur with pc := start } := h.me
  rw [h.cur] at me ⊢
  refine fetch_congr va ?_ (by rw [me]) (by rw [me])
  have e := congrArg (fun w : State => { w with cxs := s.cxs, cur := s.cur, turns := s.turns }) h.rest
  exact e

theorem gatherWords_congr {s u : State} (same : ∀ va, u.fetch u.cur va = s.fetch s.cur va) (g : Gm) (n : Nat) (va : Word) :
    u.gatherWords g n va = s.gatherWords g n va := by
  induction n generalizing va with
  | zero => rfl
  | succ n ih => unfold State.gatherWords; rw [same]; simp only [ih]

theorem gatherWords_member {s : State} {g : Gm} {va : Word} {w : IWord} {i : Instr} {m : Member}
    (fetched : s.fetch s.cur va.toNat = .ok w) (decoded : decodeWord w = .ok i) (member : memberOf g i = some m) (n : Nat) :
    s.gatherWords g (n + 1) va = (va, .ok m) :: if m.closes then [] else s.gatherWords g n (va + 4) := by
  rw [State.gatherWords, fetched]
  dsimp only
  rw [decoded]
  dsimp only
  rw [member]

theorem gatherWords_failed {s : State} {g : Gm} {va : Word} {e : Cause × Note} (failed : s.fetch s.cur va.toNat = .error e)
    (n : Nat) : s.gatherWords g (n + 1) va = [(va, .bad e.1 e.2)] := by
  rw [State.gatherWords, failed]

/-- A word of a convoy-class code that is no instruction (R63, R67). -/
theorem gatherWords_undecoded {s : State} {g : Gm} {va : Word} {w : IWord} (fetched : s.fetch s.cur va.toNat = .ok w)
    (convoy : convoyWord w.toNat = true) (n : Nat) :
    (decodeWord w = .error .unassigned → s.gatherWords g (n + 1) va = [(va, .bad .unassigned {})])
      ∧ (decodeWord w = .error .reserved → s.gatherWords g (n + 1) va = [(va, .bad .reserved {})]) := by
  refine ⟨fun bad => ?_, fun bad => ?_⟩ <;>
  · rw [State.gatherWords, fetched]
    dsimp only
    rw [bad]
    exact if_pos convoy

/-- A fetch looks at the partition and the mode of the strand alone. -/
theorem fetch_setMe (s : State) {t : Strand} (part : t.part = s.me.part) (mode : t.mode = s.me.mode) (va : Nat) :
    (s.setMe t).fetch s.cur va = s.fetch s.cur va := by
  have me : (s.setMe t).strand s.cur = t := State.me_setMe s t
  exact fetch_congr va rfl (by rw [me]; exact part) (by rw [me]; exact mode)

/-- Writing the gm-and-PC strand of a heading instruction, then its own PC again, leaves `gm` written alone. -/
theorem setMe_headed (v : State) (pc : Word) (g : Gm) :
    (v.setMe { v.me with pc := pc, gm := g }).setMe
        { (v.setMe { v.me with pc := pc, gm := g }).me with pc := v.me.pc } = v.setMe { v.me with gm := g } := by
  rw [setMe_setMe, State.me_setMe]

section
variable {i x : Instr} {s v u : State}

theorem Begins.same (h : Begins i s x v u) : SameButPc s u v.me.pc := by
  cases h with
  | itself => exact .refl s
  | headed gk g v w bad fetched decoded state => exact sameButPc_setMe s _

theorem Begins.cur (h : Begins i s x v u) : v.cur = s.cur := by
  cases h with
  | itself => rfl
  | headed gk g v w bad fetched decoded state => rw [state]; rfl

theorem Begins.fetch (h : Begins i s x v u) (va : Nat) : v.fetch v.cur va = s.fetch s.cur va := by
  cases h with
  | itself => rfl
  | headed gk g v w bad fetched decoded state =>
      rw [state]
      refine (fetch_setMe v ?_ ?_ va).symm <;> rfl

/-- The words of the convoy that member `m` opens at the PC. -/
def State.convoyWords (s : State) (m : Member) : List (Word × Fetched) :=
  (s.me.pc, .ok m) :: if m.closes then [] else s.gatherWords s.me.gm 8 (s.me.pc + 4)

theorem exec_member {m : Member} (member : memberOf s.me.gm i = some m) : exec i s = s.convoy i false none := by
  have opens : opensConvoy s.me.gm i = true := by
    unfold opensConvoy
    split
    · rfl
    · rfl
    · rw [member]; rfl
  rw [exec_eq_reopen opens]
  unfold State.reopen
  split
  · cases member
  · cases member
  · rfl

/-- Headed or not, the members run from `u` over the words from the first of them on. -/
theorem Begins.exec {m : Member} (h : Begins i s x v u) (member : memberOf s.me.gm i = some m) :
    exec x v = v.runConvoy u v.me.pc (s.convoyWords m) false none := by
  have same := h.same
  have fetch := h.fetch
  cases h with
  | itself =>
      rw [exec_member member]
      unfold State.convoy
      rw [member]
      rfl
  | headed gk g v w bad fetched decoded state =>
      have gm : gmOf g gk = s.me.gm := by rw [state, State.me_setMe]; rfl
      have pc : s.me.pc = v.me.pc + 4 := by rw [state, State.me_setMe]
      have here : v.setMe { v.me with gm := gmOf g gk } = s.setMe { s.me with pc := v.me.pc } := by
        rw [state, setMe_headed]; rfl
      have head : Machine.exec (if gk then .grpk g else .grp g) v = v.headed gk g false none := by cases gk <;> rfl
      rw [head]
      unfold State.headed
      rw [if_neg (by rw [bad]; exact Bool.false_ne_true), here]
      have words : (s.setMe { s.me with pc := v.me.pc }).gatherWords (s.setMe { s.me with pc := v.me.pc }).me.gm 9 (v.me.pc + 4)
          = s.convoyWords m := by
        rw [gatherWords_congr same.fetch, State.me_setMe]
        unfold State.convoyWords
        rw [pc]
        exact gatherWords_member ((fetch _).symm.trans fetched) decoded member 8
      dsimp only
      rw [words, if_neg (by exact Bool.false_ne_true)]

end

end Sys2Proof.Machine
end

section
/-! PROOFS. The decode checks of a convoy (R63-R65): its words as the members and what stands after them, and the first
defect among them. -/

namespace Sys2Proof.Machine

/-- Members at consecutive words from `va` on. -/
def placed (va : Word) : List Member → List (Word × Fetched)
  | [] => []
  | m :: t => (va, .ok m) :: placed (va + 4) t

theorem next_word (va : Word) (k : Nat) : va + 4 + BitVec.ofNat 64 (4 * k) = va + BitVec.ofNat 64 (4 * (k + 1)) := by
  rw [Nat.mul_add, Nat.add_comm (4 * k), BitVec.ofNat_add, BitVec.add_assoc]; rfl

/-- Members that do not close the convoy are followed by what is gathered after them. -/
theorem gatherWords_placed {s : State} {g : Gm} {ms : List Member} {va : Word}
    (there : ∀ k m, ms[k]? = some m → ∃ w j, s.fetch s.cur (va + BitVec.ofNat 64 (4 * k)).toNat = .ok w
      ∧ decodeWord w = .ok j ∧ memberOf g j = some m)
    (going : ∀ m ∈ ms, m.closes = false) (n : Nat) :
    s.gatherWords g (ms.length + n) va = placed va ms ++ s.gatherWords g n (va + BitVec.ofNat 64 (4 * ms.length)) := by
  induction ms generalizing va with
  | nil => simp [placed]
  | cons m ms ih =>
      obtain ⟨w, j, fetched, decoded, member⟩ := there 0 m rfl
      have here : s.fetch s.cur va.toNat = .ok w := by simpa using fetched
      rw [List.length_cons, Nat.add_right_comm, gatherWords_member here decoded member, going m (List.mem_cons_self ..)]
      rw [if_neg Bool.false_ne_true, ih (fun k x hx => ?_) fun x hx => going x (List.mem_cons_of_mem _ hx), next_word]
      · rfl
      · rw [next_word]; exact there (k + 1) x hx

/-- The words of a convoy: the members before position `p`, and what stands from there on. -/
theorem convoyWords_split {s : State} {i : Instr} {ms : List Member} {m : Member} {p : Nat} (h : s.gathers i ms)
    (member : memberOf s.me.gm i = some m) (short : p ≤ 8) (going : ∀ x ∈ ms.take p, x.closes = false) :
    ∃ rest, s.convoyWords m = placed s.me.pc (ms.take p) ++ rest
      ∧ (∀ x, ms[p]? = some x → ∃ t, rest = (s.me.pc + BitVec.ofNat 64 (4 * p), .ok x) :: t)
      ∧ (p = ms.length → rest = s.gatherWords s.me.gm (9 - p) (s.me.pc + BitVec.ofNat 64 (4 * p))) := by
  obtain ⟨any, first, next, -⟩ := h
  match ms with
  | [] => exact absurd rfl any
  | y :: tl =>
      obtain rfl : m = y := by rw [member] at first; exact Option.some.inj first
      match p with
      | 0 => exact ⟨_, rfl, fun x hx => by cases hx; exact ⟨_, by simp; rfl⟩, fun e => by simp at e⟩
      | p + 1 =>
          have open_ : m.closes = false := going m (List.mem_cons_self ..)
          have there : ∀ k x, tl[k]? = some x → ∃ w j, s.fetch s.cur (s.me.pc + 4 + BitVec.ofNat 64 (4 * k)).toNat = .ok w
              ∧ decodeWord w = .ok j ∧ memberOf s.me.gm j = some x := fun k x hx => by
            rw [next_word]; exact next (k + 1) x (Nat.succ_pos k) hx
          have later : ∀ x ∈ tl.take p, x.closes = false := fun x hx => going x (List.mem_cons_of_mem _ hx)
          have there' : ∀ k x, (tl.take p)[k]? = some x → _ := fun k x hx => there k x (by
            rw [List.getElem?_take] at hx; split at hx
            · exact hx
            · cases hx)
          have size : (tl.take p).length + (8 - (tl.take p).length) = 8 := by
            have := List.length_take_le p tl; omega
          refine ⟨s.gatherWords s.me.gm (8 - (tl.take p).length) (s.me.pc + 4 + BitVec.ofNat 64 (4 * (tl.take p).length)),
            ?_, fun x hx => ?_, fun e => ?_⟩
          · unfold State.convoyWords
            rw [open_, if_neg Bool.false_ne_true, ← size, gatherWords_placed there' later, size]
            rfl
          · have hx' : tl[p]? = some x := hx
            have at_ : (tl.take p).length = p := by
              rw [List.length_take]
              have := (List.getElem?_eq_some_iff.1 hx').1
              omega
            obtain ⟨w, j, fetched, decoded, is⟩ := there p x hx'
            rw [at_, show 8 - p = (7 - p) + 1 by omega, gatherWords_member fetched decoded is, next_word]
            exact ⟨_, rfl⟩
          · have len : p = tl.length := by simpa using e
            rw [List.length_take, len, Nat.min_self, next_word, show 9 - (tl.length + 1) = 8 - tl.length by omega]

/-! ### The checks -/

/-- The members examined. -/
def scanOf (st : Strand) (ms : List Member) : Scan := ms.foldl (fun sc m => sc.add st m) {}

theorem scanOf_snoc (st : Strand) (ms : List Member) (m : Member) : scanOf st (ms ++ [m]) = (scanOf st ms).add st m := by
  unfold scanOf; rw [List.foldl_append]; rfl

/-- What the examined members add up to, stream registers apart. -/
structure Scan.Sums (sc : Scan) (l : List Member) : Prop where
  ms      : sc.ms = l
  reads   : sc.reads = l.flatMap Member.reads
  writes  : sc.writes = l.flatMap Member.writes
  mreads  : sc.mreads = l.flatMap Member.mreads
  mwrites : sc.mwrites = l.flatMap fun m => m.mwrite.toList
  loads   : sc.loads = (l.map (·.loads)).sum
  stores  : sc.stores = (l.map (·.stores)).sum

theorem scanOf_sums (st : Strand) (ms : List Member) : (scanOf st ms).Sums ms := by
  induction ms using List.reverseRecOn with
  | nil => exact ⟨rfl, rfl, rfl, rfl, rfl, rfl, rfl⟩
  | append_singleton ms m ih =>
      obtain ⟨h1, h2, h3, h4, h5, h6, h7⟩ := ih
      rw [scanOf_snoc]
      constructor <;> simp [Scan.add, h1, h2, h3, h4, h5, h6, h7]

theorem scanOf_streams (st : Strand) (ms : List Member) :
    (scanOf st ms).streams.map (·.1) = ((ms.flatMap Member.reads).filter st.streamed).eraseDups := by
  induction ms using List.reverseRecOn with
  | nil => rfl
  | append_singleton ms m ih =>
      have seen (c : CReg) : ((scanOf st ms).streams.any fun x => x.1 == c) = ((ms.flatMap Member.reads).filter st.streamed).elem c := by
        rw [Bool.eq_iff_iff, List.elem_iff, ← List.mem_eraseDups, ← ih]
        simp
      rw [scanOf_snoc, List.flatMap_append, List.filter_append, List.eraseDups_append, ← ih]
      simp only [Scan.add, List.map_append, List.map_map, Function.comp_def, List.map_id', List.flatMap_cons, List.flatMap_nil,
        List.append_nil, Scan.fresh, seen, List.removeAll, List.filter_filter, Bool.and_comm]

theorem streams_length {s : State} {st : Strand} (chains : st.streamed = s.me.streamed) (ms : List Member) (m : Member) :
    (scanOf st ms).streams.length + ((scanOf st ms).fresh st m).length = (s.streamsOf (ms ++ [m])).length := by
  have e := congrArg List.length (scanOf_streams st (ms ++ [m]))
  rw [scanOf_snoc] at e
  unfold State.streamsOf
  rw [← chains, ← e]
  simp [Scan.add]

/-- A chain register that an earlier member writes or reads is written (R64). -/
theorem writes_taken {sc : Scan} {l : List Member} (h : sc.Sums l) (m : Member) :
    (m.writes.any sc.writes.contains = true ∨ m.writes.any sc.reads.contains = true) ↔
      ∃ c ∈ m.writes, ∃ q ∈ l, c ∈ q.writes ∨ c ∈ q.reads := by
  simp only [h.writes, h.reads, List.any_eq_true, List.contains_iff_mem, List.mem_flatMap, ← exists_or, ← and_or_left]

/-- Whether the mask register written is one that an earlier member writes or reads, or the guard (R64). -/
def Scan.takesMask (sc : Scan) (g : Gm) (m : Member) : Bool :=
  match m.mwrite with
  | some d => sc.mwrites.contains d || sc.mreads.contains d || (!g.gk && g.guard == d)
  | none => false

theorem breaks_eq (sc : Scan) (st : Strand) (m : Member) : sc.breaks st m =
    (decide (8 ≤ sc.ms.length) || sc.ms.any Member.isCitp
      || decide (2 < sc.loads + m.loads + sc.streams.length + (sc.fresh st m).length)
      || decide (1 < sc.stores + m.stores)
      || twice m.writes || m.writes.any sc.writes.contains || m.writes.any sc.reads.contains
      || sc.takesMask st.gm m || m.clash) := rfl

theorem takesMask_iff {sc : Scan} {l : List Member} (h : sc.Sums l) (g : Gm) (m : Member) :
    sc.takesMask g m = true ↔
      ∃ d, m.mwrite = some d ∧ ((∃ q ∈ l, q.mwrite = some d ∨ d ∈ q.mreads) ∨ (g.gk = false ∧ g.guard = d)) := by
  unfold Scan.takesMask
  cases m.mwrite with
  | none => simp
  | some d => simp [h.mwrites, h.mreads, ← exists_or, ← and_or_left]

/-- The limits of R64 as the checks find them are the ones of `breaksLimit`. -/
theorem breaks_iff {s : State} {st : Strand} (chains : st.streamed = s.me.streamed) (gm : st.gm = s.me.gm)
    {ms : List Member} {p : Nat} {m : Member} (at_ : ms[p]? = some m) :
    (scanOf st (ms.take p)).breaks st m = true ↔ s.breaksLimit ms p m := by
  have sums := scanOf_sums st (ms.take p)
  have len : (ms.take p).length = p := by
    rw [List.length_take]; have := (List.getElem?_eq_some_iff.1 at_).1; omega
  rw [breaks_eq]
  unfold State.breaksLimit
  dsimp only
  rw [← streams_length chains (ms.take p) m, ← gm, ← takesMask_iff sums]
  simp only [Bool.or_eq_true, decide_eq_true_eq, or_assoc, ← writes_taken sums, sums.ms, sums.loads, sums.stores, len,
    List.map_append, List.sum_append, List.map_cons, List.map_nil, List.sum_cons, List.sum_nil, Nat.add_zero, Nat.add_assoc]

/-- Members without a defect are examined one after another. -/
theorem scan_placed {st : Strand} {l : List Member} {before : List Member} {va : Word} (rest : List (Word × Fetched))
    (sound : ∀ q m, l[q]? = some m → (scanOf st (before ++ l.take q)).defect st m = none) :
    Scan.run st (scanOf st before) (placed va l ++ rest) = Scan.run st (scanOf st (before ++ l)) rest := by
  induction l generalizing before va with
  | nil => simp [placed]
  | cons m l ih =>
      have here : (scanOf st before).defect st m = none := by simpa using sound 0 m rfl
      rw [placed, List.cons_append, Scan.run, here, ← scanOf_snoc]
      rw [ih fun q x hx => by simpa using sound (q + 1) x hx, List.append_assoc]
      rfl

theorem scan_pc (st : Strand) (pc : Word) (sc : Scan) (l : List (Word × Fetched)) :
    Scan.run { st with pc := pc } sc l = Scan.run st sc l := by
  induction l generalizing sc with
  | nil => rfl
  | cons y l ih =>
      match y with
      | (va, .bad c n) => rfl
      | (va, .ok m) =>
          rw [Scan.run, Scan.run]
          split <;> rename_i h <;> rw [show sc.defect st m = _ from h]
          exact ih _

/-! ### The first defect -/

section
variable {s : State} {ms : List Member} {p : Nat} {m : Member}

theorem not_streamed {t : Strand} {l : List CReg} : l.any t.streamed = false ↔ ∀ c ∈ l, t.streamed c = false := by
  simp

/-- A member has no defect exactly when it is sound. -/
theorem defect_none (at_ : ms[p]? = some m) :
    (scanOf s.me (ms.take p)).defect s.me m = none ↔ s.soundAt ms p m := by
  unfold Scan.defect State.soundAt
  rw [← breaks_iff (s := s) (st := s.me) rfl rfl at_, ← not_streamed]
  cases m.fits <;> cases m.writes.any s.me.streamed <;> simp

/-- The first defect of a member, in the order of R65. -/
theorem defect_of (at_ : ms[p]? = some m) :
    (m.fits = false → (scanOf s.me (ms.take p)).defect s.me m = some .mode)
    ∧ (m.fits = true → (∃ c ∈ m.writes, s.me.streamed c = true) → (scanOf s.me (ms.take p)).defect s.me m = some .stream)
    ∧ (m.fits = true → (∀ c ∈ m.writes, s.me.streamed c = false) → s.breaksLimit ms p m →
        (scanOf s.me (ms.take p)).defect s.me m = some .convoy) := by
  unfold Scan.defect
  rw [← breaks_iff (s := s) (st := s.me) rfl rfl at_, ← not_streamed, ← List.any_eq_true]
  exact ⟨fun f => by simp [f], fun f w => by simp [f, w], fun f w b => by simp [f, w, b]⟩

/-- Sound members are examined, and what stands after them decides. -/
theorem scan_sound (sound : ∀ q m, q < p → ms[q]? = some m → s.soundAt ms q m) (va : Word) (rest : List (Word × Fetched)) :
    Scan.run s.me {} (placed va (ms.take p) ++ rest) = Scan.run s.me (scanOf s.me (ms.take p)) rest := by
  refine scan_placed (before := []) rest fun q x hx => ?_
  rw [List.getElem?_take] at hx
  split at hx
  next less =>
    rw [List.nil_append, List.take_take, Nat.min_eq_left (Nat.le_of_lt less)]
    exact (defect_none hx).2 (sound q x less hx)
  next => cases hx

/-- Sound members are at most eight. -/
theorem sound_short (sound : ∀ q m, q < p → ms[q]? = some m → s.soundAt ms q m) (inside : p ≤ ms.length) : p ≤ 8 := by
  by_contra long
  have less : 8 < ms.length := by omega
  obtain ⟨-, -, fine⟩ := sound 8 ms[8] (by omega) (List.getElem?_eq_getElem less)
  exact fine (.inl (Nat.le_refl 8))

end

/-! ### The traps -/

/-- A trap after a read that has found a line uncorrectable. -/
theorem trapsFrom_noted {i : Instr} {s : State} {c : Cause} {n : Note} {eval : Word}
    (h : exec i s = .next ((s.noted n).trap c eval)) : TrapsFrom i s (s.noted n) c eval := by
  have strand (k : Nat) : (s.noted n).strand k = s.strand k := bare_strand (noted_bare s n) k
  obtain ⟨trapped, only⟩ := trap_spec (s.noted n) c eval
  rw [me_noted, noted_cur] at trapped
  refine ⟨_, h, trapped.of_same (by rw [strand]) (by rw [strand]) (by rw [strand]) ?_, only⟩
  unfold State.vector
  rw [strand, mvec_noted, bare_part (noted_bare s n)]

section
variable {i x : Instr} {s v u : State} {ms : List Member} {p : Nat}

/-- A convoy whose first defect is found traps before any of it executes (R65). -/
theorem exec_of_scan {m : Member} {va : Word} {c : Cause} {n : Note} (begins : Begins i s x v u)
    (member : memberOf s.me.gm i = some m) (found : Scan.run s.me {} (s.convoyWords m) = .error (va, c, n)) :
    exec x v = .next ((v.noted n).trap c va) := by
  rw [begins.exec member]
  unfold State.runConvoy
  rw [begins.same.me, scan_pc, found]

/-- What is found at position `p` after sound members is the convoy's trap. -/
theorem traps_at (gathers : s.gathers i ms) (begins : Begins i s x v u)
    (sound : ∀ q m, q < p → ms[q]? = some m → s.soundAt ms q m) (inside : p ≤ ms.length)
    (going : ∀ m ∈ ms.take p, m.closes = false) :
    (∀ m c, ms[p]? = some m → (scanOf s.me (ms.take p)).defect s.me m = some c →
        Traps x v c (s.me.pc + BitVec.ofNat 64 (4 * p)))
    ∧ (∀ c n, p = ms.length → s.gatherWords s.me.gm (9 - p) (s.me.pc + BitVec.ofNat 64 (4 * p))
          = [(s.me.pc + BitVec.ofNat 64 (4 * p), .bad c n)] →
        TrapsFrom x v (v.noted n) c (s.me.pc + BitVec.ofNat 64 (4 * p))) := by
  obtain ⟨m0, first⟩ : ∃ m0, memberOf s.me.gm i = some m0 := by
    rw [gathers.first]
    exact ⟨_, List.head?_eq_some_head gathers.any⟩
  obtain ⟨rest, words, here, past⟩ := convoyWords_split gathers first (sound_short sound inside) going
  have scanned : Scan.run s.me {} (s.convoyWords m0) = Scan.run s.me (scanOf s.me (ms.take p)) rest := by
    rw [words, scan_sound sound]
  refine ⟨fun m c at_ defect => ?_, fun c n last bad => ?_⟩
  · obtain ⟨t, rfl⟩ := here m at_
    refine trapsFrom_noted (n := {}) (exec_of_scan begins first (scanned.trans ?_))
    rw [Scan.run, defect]
  · refine trapsFrom_noted (exec_of_scan begins first (scanned.trans ?_))
    rw [past last, bad, Scan.run]

end

/-! ### Headed by `grp` or `grpk` -/

theorem memberOf_isSome (g g' : Gm) (i : Instr) : (memberOf g i).isSome = (memberOf g' i).isSome := by cases i <;> rfl

section
variable {s : State} {m : GrpMode} {gk : Bool}

/-- What a `grp` or `grpk` executes as. -/
theorem exec_head (gk : Bool) (m : GrpMode) (s : State) :
    exec (if gk then .grpk m else .grp m) s = s.headed gk m false none := by cases gk <;> rfl

theorem head_traps (bad : badMode m.fa.toNat m.fb.toNat m.rnd.toNat m.g.toNat = true) :
    Traps (if gk then .grpk m else .grp m) s .mode s.me.pc := by
  refine traps_of_trap ((exec_head gk m s).trans ?_)
  unfold State.headed
  rw [if_pos bad]
  rfl

/-- Before words that are no member (R65). -/
theorem head_bad {c : Cause} {n : Note} (fine : badMode m.fa.toNat m.fb.toNat m.rnd.toNat m.g.toNat = false)
    (found : ∀ g, s.gatherWords g 9 (s.me.pc + 4) = [(s.me.pc + 4, .bad c n)]) :
    TrapsFrom (if gk then .grpk m else .grp m) s (s.noted n) c (s.me.pc + 4) := by
  refine trapsFrom_noted ((exec_head gk m s).trans ?_)
  have words (g : Gm) : (s.setMe { s.me with gm := gmOf m gk }).gatherWords g 9 (s.me.pc + 4) = [(s.me.pc + 4, .bad c n)] :=
    (gatherWords_congr (fetch_setMe s (t := { s.me with gm := gmOf m gk }) rfl rfl) g 9 _).trans (found g)
  unfold State.headed
  rw [if_neg (by rw [fine]; exact Bool.false_ne_true)]
  dsimp only
  rw [words]
  rfl

/-- Before a scalar-class instruction (R87). -/
theorem head_empty (fine : badMode m.fa.toNat m.fb.toNat m.rnd.toNat m.g.toNat = false) (next : s.scalarNext) :
    Becomes (if gk then .grpk m else .grp m) s { s.me with gm := gmOf m gk, pc := s.me.pc + 4, wait := .none } := by
  have fetch := fetch_setMe s (t := { s.me with gm := gmOf m gk }) rfl rfl
  have words (g : Gm) : (s.setMe { s.me with gm := gmOf m gk }).gatherWords g 9 (s.me.pc + 4) = [] := by
    obtain ⟨w, i, fetched, decoded, scalar⟩ := next
    have scalar' : memberOf g i = none := by
      rw [← Option.isNone_iff_eq_none, ← Option.not_isSome, memberOf_isSome g s.me.gm, scalar]; rfl
    rw [gatherWords_congr fetch, State.gatherWords, fetched]
    simp only [decoded, scalar']
  have ran : exec (if gk then .grpk m else .grp m) s =
      .next (s.setMe { s.me with gm := gmOf m gk, pc := s.me.pc + 4, wait := .none }) := by
    rw [exec_head]
    unfold State.headed
    rw [if_neg (by rw [fine]; exact Bool.false_ne_true)]
    dsimp only
    rw [words, if_pos List.isEmpty_nil]
    unfold State.advance Strand.go
    rw [setMe_setMe, State.me_setMe]
  exact ⟨_, ran, State.me_setMe .., setMe_onlyMe ..⟩

/-- What a `grp` or `grpk` alone does (R64, R65, R87). -/
theorem head_spec (gk : Bool) (m : GrpMode) (s : State) :
    let bad := badMode m.fa.toNat m.fb.toNat m.rnd.toNat m.g.toNat
    let i : Instr := if gk then .grpk m else .grp m
    let at_ := s.me.pc + 4
    (bad = false →
      (∀ c note, s.fetch s.cur at_.toNat = .error (c, note) → TrapsFrom i s (s.noted note) c at_)
      ∧ ∀ w, s.fetch s.cur at_.toNat = .ok w → convoyWord w.toNat = true →
        (decodeWord w = .error .unassigned → Traps i s .unassigned at_)
        ∧ (decodeWord w = .error .reserved → Traps i s .reserved at_)) := by
  dsimp only
  refine fun fine => ⟨fun c n failed => head_bad fine fun g => gatherWords_failed failed 8, fun w fetched convoy => ?_⟩
  have words (g : Gm) := gatherWords_undecoded (g := g) fetched convoy 8
  exact ⟨fun bad => head_bad (n := {}) fine fun g => (words g).1 bad, fun bad => head_bad (n := {}) fine fun g => (words g).2 bad⟩

end

/-- Settles O14: a heading instruction by its mode and the word after it, a convoy by its first defect. -/
theorem groupModes : Obligations.GroupModes := by
  unfold Obligations.GroupModes
  refine ⟨fun s m => ⟨fun bad => ⟨head_traps (gk := false) bad, head_traps (gk := true) bad⟩, ?_, ?_⟩, ?_⟩
  · rintro fine i (rfl | rfl)
    · exact head_spec false m s fine
    · exact head_spec true m s fine
  · exact fun fine next => ⟨head_empty (gk := false) fine next, head_empty (gk := true) fine next⟩
  · intro i x s v u ms p at_ gathers begins sound
    refine ⟨fun last open_ => ?_, fun m here => ?_⟩
    · have nine : 9 - p = (8 - p) + 1 := by
        have := sound_short sound last.le
        omega
      obtain ⟨-, bad⟩ := traps_at gathers begins sound last.le fun m hm => open_ m (List.mem_of_mem_take hm)
      rw [nine] at bad
      refine ⟨fun c n failed => bad c n last (gatherWords_failed failed _), fun w fetched convoy => ?_⟩
      obtain ⟨unassigned, reserved⟩ := gatherWords_undecoded (g := s.me.gm) fetched convoy (8 - p)
      exact ⟨fun no => bad _ {} last (unassigned no), fun no => bad _ {} last (reserved no)⟩
    · have inside : p < ms.length := (List.getElem?_eq_some_iff.1 here).1
      have going : ∀ y ∈ ms.take p, y.closes = false := fun y hy => by
        obtain ⟨k, hk⟩ := List.mem_iff_getElem?.1 hy
        rw [List.getElem?_take] at hk
        split at hk
        next less => exact gathers.going k y (by omega) hk
        next => cases hk
      obtain ⟨found, -⟩ := traps_at gathers begins sound inside.le going
      obtain ⟨mode, stream, limit⟩ := defect_of (s := s) here
      exact ⟨fun f => found m _ here (mode f), fun f w => found m _ here (stream f w), fun f w b => found m _ here (limit f w b)⟩

end Sys2Proof.Machine
end

section
/-! PROOFS. What accesses record of themselves (R181, R201, R281, R306): reads and acquires change the ordering model's
bookkeeping and the counts of accesses alone. -/

namespace Sys2Proof.Machine

/-- `t` is `s` but for what the ordering model and the page counters hold. -/
def Recorded (s t : State) : Prop := { t with order := s.order, pageUse := s.pageUse } = s

theorem Recorded.refl (s : State) : Recorded s s := rfl

theorem Recorded.trans {s t u : State} (first : Recorded s t) (second : Recorded t u) : Recorded s u :=
  Eq.trans (congrArg (fun v : State => { v with order := s.order, pageUse := s.pageUse }) second) first

theorem recorded_foldl {α : Type} {f : State → α → State} (each : ∀ s x, Recorded s (f s x)) (l : List α) (s : State) :
    Recorded s (l.foldl f s) := by
  induction l generalizing s with
  | nil => exact .refl s
  | cons x l ih => exact (each s x).trans (ih (f s x))

theorem recorded_used (s : State) (g : Page) : Recorded s (s.used g) := by
  unfold State.used
  split <;> rfl

theorem recorded_touchAll (s : State) (a : Access) (g : Page) (l n : Nat) (w : Bool) : Recorded s (s.touchAll a g l n w) := by
  unfold State.touchAll
  split
  · exact recorded_foldl (f := fun s k => s.touch a.agent a.family a.name k w) (fun _ _ => rfl) _ s
  · rfl

theorem recorded_sawTokens (s : State) (a k : Nat) : Recorded s (s.sawTokens a k) := by
  unfold State.sawTokens
  dsimp only
  split <;> rfl

theorem recorded_wroteTokens (s : State) (a k : Nat) : Recorded s (s.wroteTokens a k) := by
  unfold State.wroteTokens
  dsimp only
  split <;> rfl

theorem recorded_load (s : State) (a : Access) (g : Page) (n : Nat) : Recorded s (s.load a g n).2 := by
  have seen := (recorded_used s g).trans (recorded_touchAll (s.used g) a g (s.locate a g) n false)
  unfold State.load
  dsimp only
  split
  · exact seen
  · exact seen.trans (recorded_foldl (fun _ _ => recorded_sawTokens ..) _ _)

theorem recorded_myAcquire (s : State) (t : Scope) (l : List Token) : Recorded s (s.myAcquire t l) := by
  unfold State.myAcquire State.acquire
  dsimp only
  split <;> rfl

theorem recorded_acquireBits (s : State) (k : KMask) (l : List Nat) : Recorded s (s.acquireBits k l) := by
  unfold State.acquireBits
  dsimp only
  split
  · rfl
  · exact recorded_foldl (fun _ _ => recorded_myAcquire ..) _ s

theorem recorded_readSpot (s : State) (a : Access) (f : Fmt) (nm : NumMode) (bit : Nat) (sp : Spot) :
    Recorded s (s.readSpot a f nm bit sp).2 := by
  cases sp with
  | plain g => exact recorded_load ..
  | stored g sf k => exact recorded_load ..
  | book g k t =>
      exact ((((recorded_load s a _ 16).trans (recorded_load _ a _ 16)).trans (recorded_load _ a _ 16)).trans
        (recorded_load _ a t 16))

theorem Recorded.plain {s t : State} (h : Recorded s t) (key l n : Nat) : t.plain key l n = s.plain key l n := by
  have e := congrArg (fun v : State => v.plain key l n) h
  exact e

end Sys2Proof.Machine
end

section
/-! PROOFS. Vector stores to formatted pages (R162, R320): the byte that holds a packed element may lie in the Dusk region
though the element's own address does not. -/

namespace Sys2Proof.Machine

/-- A partition with translation that owns all of memory. -/
def duskPart : Partition := { pbound := [(0, 0xFFFFFFFF00000000)], ptroot := 0x40000, cplxlo := 0xFF }

/-- A supervisor strand about to store one i4 element, from byte 0 of near buffer 4, to VA 0x13800. -/
def duskStrand : Strand :=
  { resident := true, uid := 1, mode := .supervisor, pc := 0x1000, vl := 1, vlmax := 64, gm := { fa := 2, fb := 2 }
    regs := [(2, 0x13800)], chains := [(1, { segs := [⟨4, 0, 1⟩] })] }

/-- A package with that strand, `v` in its buffer. VA page 0 holds its program, a `nop` after the store; VA page 1 is a page
of stored format i4 at PA 0x7C70000000, in the top group of eight channels, under home policy 1. -/
@[irreducible] def duskStore (v : Byte) : State :=
  let s : State := { State.reset with
    strands := [(0, duskStrand)], parts := [(0, duskPart)]
    cxs := [(0, { near := { enable := true, count := 8 }, sram := [(256, v)] })] }
  (((((s.setBytes 0x1007 [0x04]).setBytes 0x40000 (leBytes 8 0x110000001)).setBytes 0x44000
    (leBytes 8 0x120000001)).setBytes 0x48000 (leBytes 8 0x130000001)).setBytes 0x4C000 (leBytes 8 0x1F)).setBytes 0x4C008
    (leBytes 8 0x1F1C001000030F)

/-- The page of the element's address, on channel 254. -/
def duskPage : Page := { pa := 0x7C70003800, home := 1, format := 3, exec := false }

/-- Its element: number 14,336 of the page, in frame byte 7,168, on channel 255. -/
def duskSpot : Spot := .stored duskPage (.i 4) 14336

/-- The page of that byte, the first of the Dusk region. -/
def duskByte : Page := { duskPage with pa := 0x7C70001C00 }

theorem placeOf_duskByte : placeOf duskByte.pa duskByte.home = duskBase := by decide +kernel

theorem ok_of_toOption {ε α : Type} {e : Except ε α} {a : α} (h : e.toOption = some a) : e = .ok a := by
  cases e with
  | ok b => exact congrArg Except.ok (Option.some.inj h)
  | error x => cases h

/-- The bit of the element, as its buffer holds it. -/
def duskBit (b : Bool) : Nat := if b then 1 else 0

theorem duskStore_operand (b : Bool) :
    let s := duskStore (BitVec.ofNat 8 (duskBit b))
    s.operands (memberVst 1 2 s.me.gm) 0 = .val [duskBit b] := by cases b <;> decide +kernel

/-- What the store meets, whichever bit its element is. -/
theorem duskStore_meets (b : Bool) :
    let s := duskStore (BitVec.ofNat 8 (duskBit b))
    (s.fetch s.cur (s.me.pc + 4).toNat).toOption = some 0x04000000 ∧ s.me = duskStrand
      ∧ s.countFor (memberVst 1 2 s.me.gm) = 1 ∧ s.active 0 = true
      ∧ (s.elementAt s.myAccess .unit (s.reg 2) [duskBit b] 0).2.1 = 0
      ∧ s.lost duskByte.pa = false
      ∧ (s.elementSpot s.myAccess .unit (s.reg 2) [duskBit b] 0 true).toOption = some duskSpot := by
  cases b <;> decide +kernel

/-- A store whose bytes lie in the Dusk region places none of them. -/
theorem recorded_store_dusk {s : State} {a : Access} {g : Page} (inside : g.pa < mboxBase) (held : s.lost g.pa = false)
    (plain : g.tagged = false) (dusk : inDusk (placeOf g.pa g.home) = true) (bs : List Byte) :
    Recorded s (s.store a g bs false) := by
  have tag : a.tagOn g = 0 := by unfold Access.tagOn; rw [plain]; rfl
  have here (t : State) : t.locate a g = placeOf g.pa g.home := by unfold State.locate; rw [tag]; rfl
  have cell (t : State) : t.needsCell a g = false := by unfold State.needsCell; rw [tag]; rfl
  have used_lost : (s.used g).lost g.pa = false := by
    have e := congrArg (fun v : State => v.lost g.pa) (recorded_used s g)
    exact Eq.trans e held
  have poked : (s.used g).poke a g bs false = s.used g := by
    unfold State.poke
    rw [if_neg (Nat.not_le.2 inside), used_lost, if_neg Bool.false_ne_true, cell, if_neg Bool.false_ne_true]
    dsimp only
    rw [here, Bool.false_and, if_neg Bool.false_ne_true]
    unfold State.putPlain
    exact if_pos dusk
  have touched : Recorded s ((s.used g).touchAll a g (placeOf g.pa g.home) bs.length true) :=
    (recorded_used s g).trans (recorded_touchAll ..)
  unfold State.store
  dsimp only
  rw [poked, here]
  split
  · exact touched
  · exact touched.trans (recorded_foldl (fun _ _ => recorded_wroteTokens ..) _ _)

/-- The byte of the element before the store, which no key slot reads: Folman's key is in none. -/
def duskOld (b : Bool) : Byte := (duskStore (BitVec.ofNat 8 (duskBit b))).plainByte 0 duskBase

/-- A byte of the Dusk region is unreadable under every key slot (R320). -/
theorem plainByte_dusk (s : State) (k : Nat) {l : Nat} (below : l < dramTop) (dusk : inDusk (l / 64 * 64) = true) :
    s.plainByte k l = Config.unreadable Key.folman.num (s.keyNow k).num l (s.bytesAt (l / 64 * 64) 64) := by
  have key : s.keyOf (l / 64) = some .folman := if_pos dusk
  have other : Key.folman ≠ s.keyNow k := by
    unfold State.keyNow
    dsimp only
    split <;> exact nofun
  unfold State.plainByte
  rw [if_neg (Nat.not_le.2 below), key]
  exact if_neg other

/-- It does not depend on the element. -/
theorem duskOld_same : duskOld true = duskOld false := by
  have hidden (b : Bool) := plainByte_dusk (duskStore (BitVec.ofNat 8 (duskBit b))) 0 (l := duskBase) (by decide) (by decide)
  have same : (duskStore (BitVec.ofNat 8 (duskBit true))).keyNow 0 = (duskStore (BitVec.ofNat 8 (duskBit false))).keyNow 0
      ∧ (duskStore (BitVec.ofNat 8 (duskBit true))).bytesAt (duskBase / 64 * 64) 64
        = (duskStore (BitVec.ofNat 8 (duskBit false))).bytesAt (duskBase / 64 * 64) 64 := by decide +kernel
  unfold duskOld
  rw [hidden, hidden, same.1, same.2]

/-- The states before and after the element is stored. -/
def duskStates (b : Bool) : Nat → State
  | 0 => duskStore (BitVec.ofNat 8 (duskBit b))
  | _ + 1 =>
      let s := duskStore (BitVec.ofNat 8 (duskBit b))
      (s.writeSpot s.myAccess s.me.gm.fmtA s.me.gm.num 0 false (duskBit b) duskSpot).2

/-- A byte that equals itself with `v` in its low half has `v` there. -/
theorem low_of_packedPut {x : Byte} {v : Nat} (small : v < 16)
    (same : x = BitVec.ofNat 8 (packedPut 4 14336 (leNat [x]) (v % 2 ^ 4))) : x.toNat % 16 = v := by
  have value : leNat [x] = x.toNat := by simp [leNat]
  have e := congrArg BitVec.toNat same
  rw [value, BitVec.toNat_ofNat] at e
  unfold packedPut packedGet at e
  have lt := x.isLt
  simp at e
  omega

/-- What the statement claims of the store: that the low half of the byte is the element. -/
theorem duskOld_of_vectorStores (h : Obligations.VectorStores) (b : Bool) : (duskOld b).toNat % 16 = duskBit b := by
  obtain ⟨next, me, count, active, bit, held, spot⟩ := duskStore_meets b
  have operand := duskStore_operand b
  have old : duskOld b = (duskStates b 0).plainByte 0 duskBase := rfl
  have states (e : Nat) : duskStates b (e + 1)
      = ((duskStates b 0).writeSpot (duskStates b 0).myAccess (duskStates b 0).me.gm.fmtA (duskStates b 0).me.gm.num 0 false
        (duskBit b) duskSpot).2 := rfl
  have first : duskStates b 0 = duskStore (BitVec.ofNat 8 (duskBit b)) := rfl
  rw [← first] at next me count active bit held spot operand
  generalize hs : duskStates b 0 = s at *
  dsimp only at operand next me count active bit held spot
  have opens : Opens (.vst 1 2) s (memberVst 1 2 s.me.gm) := by
    have chains (c : CReg) : s.me.streamed c = false := by rw [me]; revert c; decide
    exact ⟨rfl, .inr ⟨_, .nop, ok_of_toOption next, ok_of_toOption (by decide +kernel), rfl⟩, rfl, rfl,
      fun c _ => chains c, nofun, rfl, .inr nofun⟩
  have guard (u : State) (same : u.me.gm.gk = false) (e : Nat) : u.guardSeen e = u := by
    unfold State.guardSeen; rw [same]; rfl
  have claim := h (.vst 1 2) (.vst 1 2) s s s (memberVst 1 2 s.me.gm) .unit 2 false (duskStates b) (fun _ => [duskBit b])
    (fun _ => duskSpot) opens .itself (by rw [me]; rfl) rfl hs
  have quiet : (duskStates b 0).guardSeen 0 = s := by rw [hs]; exact guard s (by rw [me]; rfl) 0
  dsimp only at claim
  simp only [Bool.false_eq_true, if_false, count] at claim
  obtain ⟨-, -, -, -, -, -, -, -, stored, -⟩ := claim fun e below => by
    obtain rfl : e = 0 := Nat.lt_one_iff.1 below
    rw [if_pos active, quiet, bit]
    exact ⟨operand, ok_of_toOption spot, states 0⟩
  have fact := stored 0 Nat.one_pos active duskByte
  rw [quiet, bit, states 0] at fact
  have fmt : s.me.gm.fmtA = .i 4 := by rw [me]; rfl
  rw [fmt] at fact
  have place : s.locate s.myAccess duskByte = duskBase := placeOf_duskByte
  have peek : s.peek s.myAccess duskByte 1 = [duskOld b] := by
    unfold State.peek
    rw [if_neg (by decide), place, old]
    rfl
  obtain ⟨bytes, -, -⟩ := fact _ rfl (by decide) held nofun
  have same := (recorded_store_dusk (s := s) (a := s.myAccess) (g := duskByte) (by decide) held rfl (by decide +kernel)
    (leBytes 1 (packedPut 4 14336 (leNat (s.peek s.myAccess duskByte 1)) (recode (.i 4) (.i 4) s.me.gm.num (duskBit b)).1))).plain
    0 duskBase 1
  have told : s.plain 0 duskBase 1
      = leBytes 1 (packedPut 4 14336 (leNat (s.peek s.myAccess duskByte 1)) (duskBit b % 2 ^ 4)) := same.symm.trans bytes
  have one : s.plain 0 duskBase 1 = [duskOld b] := by rw [old]; rfl
  rw [peek, one] at told
  exact low_of_packedPut (by cases b <;> decide) (List.cons.inj told).1

/-- Refutes O24: the store of an i4 element to a formatted page of home policy 1, in the top eight channels. The element's
address is on channel 254, its frame byte the first of the Dusk region on channel 255. R320's refusal looks at the address
alone, and the store, which passes, places nothing; the statement claims the element stored, so one and the same byte would
end in 0 and in 1. -/
theorem not_vectorStores : ¬ Obligations.VectorStores := by
  intro h
  have zero := duskOld_of_vectorStores h false
  have one := duskOld_of_vectorStores h true
  rw [duskOld_same] at one
  exact absurd (zero.symm.trans one) (by decide)

end Sys2Proof.Machine
end

section
/-! PROOFS. The run of a lone member whose elements read memory and the guard (R58, R165): what its elements leave of the
package is what they leave in the state in which its convoy opened, and again once its buffers have been granted. -/

namespace Sys2Proof.Machine

/-! ### Effects of elements in states that hold other strands and complexes -/

/-- `t` with the strands and the complexes of `x`. -/
def State.onto (t x : State) : State := { t with strands := x.strands, cxs := x.cxs }

theorem foldl_onto {α : Type} {f : State → α → State} (x : State) (each : ∀ t y, f (t.onto x) y = (f t y).onto x) (l : List α)
    (t : State) : l.foldl f (t.onto x) = (l.foldl f t).onto x := by
  induction l generalizing t with
  | nil => rfl
  | cons y l ih => rw [List.foldl_cons, each, ih]; rfl

theorem used_onto (t x : State) (g : Page) : (t.onto x).used g = (t.used g).onto x := by
  have cond : (t.onto x).peers = t.peers := rfl
  unfold State.used
  rw [cond]
  split <;> rfl

theorem touchAll_onto (t x : State) (a : Access) (g : Page) (l n : Nat) (w : Bool) :
    (t.onto x).touchAll a g l n w = (t.touchAll a g l n w).onto x := by
  unfold State.touchAll
  split
  · exact foldl_onto x (fun _ _ => rfl) _ t
  · rfl

theorem sawTokens_onto (t x : State) (a k : Nat) : (t.onto x).sawTokens a k = (t.sawTokens a k).onto x := by
  have same : (t.onto x).tokensAt k = t.tokensAt k := rfl
  unfold State.sawTokens
  dsimp only
  rw [same]
  split <;> rfl

theorem load_onto (t x : State) (a : Access) (g : Page) (n : Nat) :
    (t.onto x).load a g n = ((t.load a g n).1, (t.load a g n).2.onto x) := by
  have bytes : (t.onto x).peek a g n = t.peek a g n := rfl
  have place : (t.onto x).locate a g = t.locate a g := rfl
  have tag : (t.onto x).readTag a g = t.readTag a g := rfl
  have cells : (t.onto x).order = t.order := rfl
  unfold State.load
  dsimp only
  rw [bytes, place, tag, cells, used_onto, touchAll_onto]
  split
  · rfl
  · rw [foldl_onto x (f := fun s i => s.sawTokens a.agent (byteKey (t.readTag a g) (placeOf g.pa g.home + i)))
      (fun _ _ => sawTokens_onto ..)]

theorem readSpot_onto (t x : State) (a : Access) (f : Fmt) (nm : NumMode) (bit : Nat) (sp : Spot) :
    (t.onto x).readSpot a f nm bit sp = ((t.readSpot a f nm bit sp).1, (t.readSpot a f nm bit sp).2.onto x) := by
  cases sp with
  | plain g => unfold State.readSpot; dsimp only; rw [load_onto]
  | stored g sf k => unfold State.readSpot; dsimp only; rw [load_onto]
  | book g k t => unfold State.readSpot State.loadBlock; simp only [load_onto]

/-- An acquire is the same to a strand of the same number in the same place. -/
theorem myAcquire_onto {t x : State} (uid : (t.onto x).me.uid = t.me.uid) (sc : Scope) (l : List Token) :
    (t.onto x).myAcquire sc l = (t.myAcquire sc l).onto x := by
  have loc : (t.onto x).myLoc = t.myLoc := by unfold State.myLoc; rw [uid]; rfl
  unfold State.myAcquire
  rw [uid, loc]
  unfold State.acquire
  dsimp only
  split <;> rfl

theorem Recorded.me {s t : State} (h : Recorded s t) : t.me = s.me := by
  have e := congrArg State.me h
  exact e

theorem acquireBits_onto {t x : State} (uid : (t.onto x).me.uid = t.me.uid) (k : KMask) (l : List Nat) :
    (t.onto x).acquireBits k l = (t.acquireBits k l).onto x := by
  unfold State.acquireBits
  dsimp only
  split
  · rfl
  · generalize k.tokens l = toks
    induction toks generalizing t with
    | nil => rfl
    | cons y toks ih =>
        have one := recorded_myAcquire t y.scope [y]
        have cur : (t.myAcquire y.scope [y]).cur = t.cur := by have e := congrArg State.cur one; exact e
        have still : ((t.myAcquire y.scope [y]).onto x).me.uid = (t.myAcquire y.scope [y]).me.uid := by
          have same : ((t.myAcquire y.scope [y]).onto x).me = (t.onto x).me := congrArg x.strand cur
          rw [same, uid, one.me]
        rw [List.foldl_cons, myAcquire_onto uid, List.foldl_cons, ih still]

/-! ### What the run has done to the package -/

/-- The effects of a run of states, newest first, as `Run.log` holds them. -/
abbrev Effects := List (Option Nat × (State → State))

/-- Every effect of `l`, the oldest first. -/
def Effects.all (l : Effects) (x : State) : State := l.foldr (fun y s => y.2 s) x

/-- `u` is `s` as the members of a convoy find it; they have come to the scratch state `a` with the effects `l`, and `t` is
what these make of `s`. Once the convoy has been granted its buffers, they make the same of that. -/
structure Tracks (s u a : State) (l : Effects) (t : State) : Prop where
  scratch  : a = t.onto u
  recorded : Recorded s t
  replayed : ∀ x : State, { x with cxs := u.cxs } = u → l.all x = t.onto x
  each     : ∀ y ∈ l, ∀ x, Recorded x (y.2 x)

section
variable {s u : State} {start : Word}

theorem SameButPc.onto (h : SameButPc s u start) {t x : State} (recorded : Recorded s t) (kin : { x with cxs := u.cxs } = u) :
    (t.onto x).me = u.me := by
  have cur : t.cur = u.cur := by
    have e := congrArg State.cur recorded
    exact Eq.trans e h.cur.symm
  have strands : x.strands = u.strands := by
    have e := congrArg State.strands kin
    exact e
  unfold State.me State.strand
  change Sparse.get {} t.cur x.strands = Sparse.get {} u.cur u.strands
  rw [cur, strands]

theorem SameButPc.tracks (h : SameButPc s u start) : Tracks s u u [] s := by
  have same (x : State) (kin : { x with cxs := u.cxs } = u) : x = s.onto x := by
    have e := congrArg (fun v : State => { v with strands := x.strands, cxs := x.cxs }) kin
    have e' := congrArg (fun v : State => { v with strands := x.strands, cxs := x.cxs }) h.rest
    exact Eq.trans e e'
  exact ⟨same u rfl, .refl s, fun x kin => same x kin, nofun⟩

/-- One effect more. -/
theorem Tracks.eff {a t t' : State} {l : Effects} (h : Tracks s u a l t) {f : State → State} (e : Nat)
    (makes : ∀ x : State, { x with cxs := u.cxs } = u → f (t.onto x) = t'.onto x) (records : ∀ x, Recorded x (f x))
    (after : Recorded t t') : Tracks s u (f a) ((some e, f) :: l) t' := by
  obtain ⟨scratch, recorded, replayed, each⟩ := h
  refine ⟨by rw [scratch]; exact makes u rfl, recorded.trans after, fun x kin => ?_, fun y hy => ?_⟩
  · exact (congrArg f (replayed x kin)).trans (makes x kin)
  · rcases List.mem_cons.1 hy with rfl | hy
    · exact records
    · exact each y hy

theorem Tracks.me {a t : State} {l : Effects} (h : Tracks s u a l t) (same : SameButPc s u start) : a.me = u.me := by
  rw [h.scratch]
  exact same.onto h.recorded rfl

end

theorem recorded_chunkSeen (s : State) (k : KReg) (j : Nat) : Recorded s (s.chunkSeen k j) := by
  unfold State.chunkSeen
  dsimp only
  split
  · exact recorded_acquireBits ..
  · exact .refl s

theorem recorded_guardSeen (s : State) (e : Nat) : Recorded s (s.guardSeen e) := by
  unfold State.guardSeen
  split
  · exact recorded_chunkSeen ..
  · exact .refl s

/-! ### The run -/

/-- The run of lone member `m` at address `pc`, opened in `u` and to be stopped by `b`: its member has come to `p`, its scratch
state to `a`, with the effects `l`. -/
def laneRun (u : State) (pc : Word) (m : Member) (b : Option Hit) (a : State) (l : Effects) (p : Prog) : Run :=
  { openRun u [m] [pc] with best := b, s := a, log := l, progs := [p] }

/-- Reading the guard for element `e`. -/
theorem Tracks.guarded {s u a t : State} {start : Word} {l : Effects} (h : Tracks s u a l t) (same : SameButPc s u start)
    (pc : Word) (m : Member) (b : Option Hit) (p : Prog) (e : Nat) :
    ∃ a' l', (laneRun u pc m b a l p).guarded (laneRun u pc m b a l p).fab e = laneRun u pc m b a' l' p
      ∧ Tracks s u a' l' (t.guardSeen e) := by
  have me : u.me = { s.me with pc := start } := same.me
  have mine : t.me = s.me := h.recorded.me
  have gm : (laneRun u pc m b a l p).st.gm = t.me.gm := by rw [mine]; change u.me.gm = _; rw [me]
  have chunk : e * (laneRun u pc m b a l p).fab / 4096 = t.guardChunk e := by
    unfold Run.fab State.guardChunk; rw [gm]
  have kmask : a.me.kmask = t.me.kmask := by rw [h.me same, me, mine]; rfl
  unfold Run.guarded State.guardSeen
  rw [gm, chunk]
  split
  · unfold Run.acquires State.chunkSeen
    dsimp only
    have here : (laneRun u pc m b a l p).s = a := rfl
    rw [here, kmask]
    split
    · refine ⟨a.acquireBits (a.me.kmask t.me.gm.guard) [t.guardChunk e], _, rfl,
        h.eff (f := fun s => s.acquireBits (s.me.kmask t.me.gm.guard) [t.guardChunk e]) e (fun x kin => ?_)
          (fun x => recorded_acquireBits ..) (recorded_acquireBits ..)⟩
      have at_ : (t.onto x).me = { t.me with pc := start } := by rw [same.onto h.recorded kin, me, mine]
      have mask : (t.onto x).me.kmask t.me.gm.guard = t.me.kmask t.me.gm.guard := by rw [at_]; rfl
      rw [mask]
      exact acquireBits_onto (by rw [at_]) _ _
    · exact ⟨a, l, rfl, h⟩
  · exact ⟨a, l, rfl, h⟩

/-- Active(e) of R130 in the run is that of the state in which its convoy opened. -/
theorem Tracks.active {s u a t : State} {start : Word} {l : Effects} (h : Tracks s u a l t) (same : SameButPc s u start)
    (pc : Word) (m : Member) (b : Option Hit) (p : Prog) (e : Nat) :
    (laneRun u pc m b a l p).active (laneRun u pc m b a l p).fab e = s.active e := by
  have me : u.me = { s.me with pc := start } := same.me
  have kmask : a.me.kmask = s.me.kmask := by rw [h.me same, me]; rfl
  have st : (laneRun u pc m b a l p).st = { s.me with pc := start } := me
  have here : (laneRun u pc m b a l p).s = a := rfl
  unfold Run.active Run.fab State.active State.guardChunk
  rw [st, here, kmask]
  rfl

/-- An operand that a member of the run reads is the one that its register held when the convoy opened. -/
theorem Tracks.operand {s u a t : State} {start : Word} {l : Effects} (h : Tracks s u a l t) (same : SameButPc s u start)
    (c : Src) (e : Nat) : a.operand c e = s.operand c e := by
  have me : u.me = { s.me with pc := start } := same.me
  have cxs : u.cxs = s.cxs := by have e := congrArg State.cxs same.rest; exact e
  have chains : (a.me.chain c.reg).segs = (s.me.chain c.reg).segs := by rw [h.me same, me]; rfl
  unfold State.operand
  rw [chains, h.scratch]
  have read (x : Nat) (k : List Seg) (f : Fmt) : (t.onto u).chainElem x k f e = s.chainElem x k f e := by
    have one : (t.onto u).chainElem x k f e = (t.onto s).chainElem x k f e := by
      unfold State.onto; rw [cxs]; rfl
    have two := congrArg (fun v : State => (v.onto s).chainElem x k f e) h.recorded
    exact one.trans two
  have cx : (t.onto u).myCx = s.myCx := by
    have e := congrArg State.myCx h.recorded; exact e
  rw [read, cx]

theorem Tracks.oldElement {s u a t : State} {start : Word} {l : Effects} (h : Tracks s u a l t) (same : SameButPc s u start)
    (d : CReg × Nat) (e : Nat) : a.oldElement d e = s.oldElement d e := by
  have me : u.me = { s.me with pc := start } := same.me
  have chains : a.me.chain d.1 = s.me.chain d.1 := by rw [h.me same, me]; rfl
  have read := h.operand same ⟨d.1, .n d.2⟩ e
  unfold State.operand at read
  unfold State.oldElement
  rw [read, chains]

end Sys2Proof.Machine
end

section
/-! PROOFS. Results placed in chain registers (R119, R126, R130): each in its own buffers, one after another, and what they
leave of the package. -/

namespace Sys2Proof.Machine

/-! ### Steps that write bytes of buffers, counts and strands -/

/-- From `s` to `t`, no bytes have changed but those of the segments `l` of complex `x`; of that complex, only the pools'
counts and bytes have changed, and of the package nothing beside it but the strands. -/
structure BytesIn (x : Nat) (l : List Seg) (s t : State) : Prop where
  rest      : { t with strands := s.strands, cxs := s.cxs, mem := s.mem, poison := s.poison, badLines := s.badLines } = s
  memory    : ∀ p, (∀ g ∈ l, ¬ s.spans x true g p) → t.byteAt p = s.byteAt p
  marks     : (∀ g ∈ l, idFar g.id = false) → t.poison = s.poison ∧ t.badLines = s.badLines
  near      : ∀ p, (∀ g ∈ l, ¬ s.spans x false g p) → Sparse.get 0 p (t.cx x).sram = Sparse.get 0 p (s.cx x).sram
  complexes : ∀ y, y ≠ x → t.cx y = s.cx y
  complex   : { t.cx x with near := (s.cx x).near, far := (s.cx x).far, sram := (s.cx x).sram
                            sramPoison := (s.cx x).sramPoison, reclaim := (s.cx x).reclaim } = s.cx x
  pools     : ∀ far, { t.pool x far with free := (s.pool x far).free, refs := (s.pool x far).refs } = s.pool x far

theorem BytesIn.layout {x : Nat} {l : List Seg} {s t : State} (h : BytesIn x l s t) (far : Bool) :
    (t.pool x far).size = (s.pool x far).size ∧ (t.pool x far).base = (s.pool x far).base := by
  have bsize := congrArg Pool.bsize (h.pools far)
  have base := congrArg Pool.base (h.pools far)
  dsimp only at bsize base
  unfold Pool.size
  rw [bsize, base]
  exact ⟨rfl, rfl⟩

theorem BytesIn.spans {x : Nat} {l : List Seg} {s t : State} (h : BytesIn x l s t) (far : Bool) (g : Seg) (p : Nat) :
    t.spans x far g p ↔ s.spans x far g p := by
  unfold State.spans State.bufAt
  rw [(h.layout _).1, (h.layout _).2]

theorem BytesIn.refl (x : Nat) (s : State) : BytesIn x [] s s :=
  ⟨rfl, fun _ _ => rfl, fun _ => ⟨rfl, rfl⟩, fun _ _ => rfl, fun _ _ => rfl, rfl, fun _ => rfl⟩

theorem BytesIn.trans {x : Nat} {k l : List Seg} {s t u : State} (first : BytesIn x k s t) (second : BytesIn x l t u) :
    BytesIn x (k ++ l) s u where
  rest := (congrArg (fun v : State => { v with
      strands := s.strands, cxs := s.cxs, mem := s.mem, poison := s.poison, badLines := s.badLines }) second.rest).trans first.rest
  memory p free := (second.memory p fun g hg => (first.spans ..).not.2 (free g (List.mem_append_right _ hg))).trans
    (first.memory p fun g hg => free g (List.mem_append_left _ hg))
  marks near := by
    obtain ⟨poison, bad⟩ := first.marks fun g hg => near g (List.mem_append_left _ hg)
    obtain ⟨poison', bad'⟩ := second.marks fun g hg => near g (List.mem_append_right _ hg)
    exact ⟨poison'.trans poison, bad'.trans bad⟩
  near p free := (second.near p fun g hg => (first.spans ..).not.2 (free g (List.mem_append_right _ hg))).trans
    (first.near p fun g hg => free g (List.mem_append_left _ hg))
  complexes y other := (second.complexes y other).trans (first.complexes y other)
  complex := (congrArg (fun c : Complex => { c with near := (s.cx x).near, far := (s.cx x).far, sram := (s.cx x).sram
                                                    sramPoison := (s.cx x).sramPoison, reclaim := (s.cx x).reclaim })
    second.complex).trans first.complex
  pools far := (congrArg (fun p : Pool => { p with free := (s.pool x far).free, refs := (s.pool x far).refs })
    (second.pools far)).trans (first.pools far)

theorem Fills.bytesIn {x : Nat} {l : List Seg} {s t : State} (h : Fills x l s t) : BytesIn x l s t where
  rest := congrArg (fun v : State => { v with strands := s.strands }) h.rest
  memory := h.memory
  marks near := (h.marks near).2
  near := h.near
  complexes := h.complexes
  complex := congrArg (fun c : Complex => { c with near := (s.cx x).near, far := (s.cx x).far, reclaim := (s.cx x).reclaim })
    h.complex
  pools far := by rw [h.pool]

theorem bytesIn_setStrand (x : Nat) (s : State) (i : Nat) (m : Strand) : BytesIn x [] s (s.setStrand i m) :=
  ⟨rfl, fun _ _ => rfl, fun _ => ⟨rfl, rfl⟩, fun _ _ => rfl, fun _ _ => rfl, rfl, fun _ => rfl⟩

theorem bytesIn_setMe (x : Nat) (s : State) (m : Strand) : BytesIn x [] s (s.setMe m) := bytesIn_setStrand ..

theorem bytesIn_dropRefs (x : Nat) (s : State) (l : List Seg) : BytesIn x [] s (s.dropRefs x l) where
  rest := congrArg (fun v : State => { v with strands := s.strands, mem := s.mem, poison := s.poison, badLines := s.badLines })
    (dropRefs_rest s x l)
  memory p _ := by unfold State.byteAt; rw [dropRefs_mem]
  marks _ := by
    have poison := congrArg State.poison (dropRefs_rest s x l)
    have bad := congrArg State.badLines (dropRefs_rest s x l)
    exact ⟨poison, bad⟩
  near p _ := by rw [dropRefs_sram]
  complexes := (dropRefs_cx s x l).1
  complex := congrArg (fun c : Complex => { c with sram := (s.cx x).sram, sramPoison := (s.cx x).sramPoison })
    (dropRefs_cx s x l).2
  pools far := congrArg (fun p : Pool => { p with free := (s.pool x far).free }) (dropRefs_pool_rest s x x l far)

/-- Buffers taken from a pool. -/
theorem bytesIn_setPool (x : Nat) (s : State) (far : Bool) {p : Pool}
    (rest : { p with free := (s.pool x far).free, refs := (s.pool x far).refs } = s.pool x far) :
    BytesIn x [] s (s.setPool x far p) where
  rest := rfl
  memory _ _ := rfl
  marks _ := ⟨rfl, rfl⟩
  near p _ := by rw [sram_setPool]
  complexes y other := by unfold State.setPool; rw [State.cx_setCx, if_neg other]
  complex := by
    unfold State.setPool Complex.setPool
    rw [State.cx_setCx_same]
    cases far <;> rfl
  pools g := by
    rw [pool_setPool]
    split
    · next h => rw [h.2]; exact rest
    · rfl

theorem bytesIn_allocs {x : Nat} {far : Bool} {n : Nat} {s t : State} {ids : List Nat} (h : s.allocs x far n = .ok (ids, t)) :
    BytesIn x [] s t := by
  induction n generalizing s t ids with
  | zero =>
      rw [State.allocs, Except.ok.injEq, Prod.mk.injEq] at h
      rw [← h.2]
      exact .refl x s
  | succ n ih =>
      rw [State.allocs] at h
      cases one : s.alloc x far with
      | error e => rw [one] at h; cases h
      | ok v =>
          obtain ⟨i, u⟩ := v
          rw [one] at h
          dsimp only at h
          cases more : u.allocs x far n with
          | error e => rw [more] at h; cases h
          | ok v =>
              obtain ⟨is, w⟩ := v
              rw [more, Except.ok.injEq, Prod.mk.injEq] at h
              rw [← h.2]
              refine BytesIn.trans (k := []) ?_ (ih more)
              have enable := enable_of_alloc one
              cases free : (s.pool x far).free with
              | nil => simp [State.alloc, enable, free] at one
              | cons j rest =>
                  rw [alloc_cons enable free, Except.ok.injEq, Prod.mk.injEq] at one
                  rw [← one.2]
                  exact bytesIn_setPool x s far rfl

/-- What has been written, with the strands beside the executing one as they were, is what `BytesOnly` says. -/
theorem BytesIn.bytesOnly {s u t : State} {l : List Seg} (h : BytesIn s.myCx l u t) (layout : u.cxs = s.cxs)
    (others : ∀ i, i ≠ s.cur → t.strand i = s.strand i) : BytesOnly s u t l := by
  have cx (y : Nat) : u.cx y = s.cx y := congrArg (Sparse.get Complex.reset y) layout
  have pool (far : Bool) : u.pool s.myCx far = s.pool s.myCx far := by unfold State.pool; rw [cx]
  have spans (far : Bool) (g : Seg) (p : Nat) : u.spans s.myCx far g p ↔ s.spans s.myCx far g p := by
    unfold State.spans State.bufAt; rw [pool, pool]
  obtain ⟨rest, memory, marks, near, complexes, complex, pools⟩ := h
  refine ⟨others, ?_, fun p free => memory p fun g hg => (spans ..).not.2 (spans_far.not.2 (free g hg)), marks,
    fun p free => near p fun g hg => (spans ..).not.2 (spans_near.not.2 (free g hg)), complexes, complex, pools⟩
  exact congrArg (fun v : State => { v with
    strands := s.strands, cxs := s.cxs, mem := s.mem, poison := s.poison, badLines := s.badLines }) rest

/-! ### One result placed -/

/-- A result for chain register `d`: its bytes, and the buffers that it has been given. -/
structure ChainOut where
  d   : CReg
  ids : List Nat
  bs  : List Byte

/-- Its dense chain (R130), in buffers of the near or far pool. -/
def ChainOut.segs (z : ChainOut) (far : Bool) (size : Nat) : List Seg := denseSegs size z.bs.length (z.ids.map (mkId far))

/-- The result placed in its register. -/
def State.placeOut (s : State) (far : Bool) (size : Nat) (z : ChainOut) : State :=
  (s.fill s.myCx (z.segs far size) z.bs).writeChain z.d (z.segs far size)

section
variable (s : State) (x : Nat) (l : List Seg) (bs : List Byte)

theorem fill_strands : (s.fill x l bs).strands = s.strands := by
  have e := congrArg State.strands (fills_fill s x l bs).rest
  exact e

theorem fill_me : (s.fill x l bs).me = s.me := by
  unfold State.me State.strand
  rw [fill_cur, fill_strands]

theorem fill_myCx : (s.fill x l bs).myCx = s.myCx := by
  unfold State.myCx
  rw [fill_cur]

end

section
variable (s : State) (far : Bool) (size : Nat) (z : ChainOut)

theorem placeOut_eq : s.placeOut far size z = ((s.fill s.myCx (z.segs far size) z.bs).setMe
    (s.me.setChain z.d { segs := z.segs far size })).dropRefs s.myCx (s.segs z.d) := by
  unfold State.placeOut State.writeChain
  rw [fill_me, fill_myCx]
  rfl

theorem placeOut_me : (s.placeOut far size z).me = s.me.setChain z.d { segs := z.segs far size } := by
  rw [placeOut_eq, dropRefs_me, State.me_setMe]

theorem placeOut_cur : (s.placeOut far size z).cur = s.cur := by
  rw [placeOut_eq, dropRefs_cur, State.setMe_cur, fill_cur]

theorem placeOut_myCx : (s.placeOut far size z).myCx = s.myCx := by
  unfold State.myCx
  rw [placeOut_cur]

theorem placeOut_strand {k : Nat} (other : k ≠ s.cur) : (s.placeOut far size z).strand k = s.strand k := by
  have e : (s.placeOut far size z).strand k
      = ((s.fill s.myCx (z.segs far size) z.bs).setMe (s.me.setChain z.d { segs := z.segs far size })).strand k := by
    rw [placeOut_eq]
    unfold State.strand
    rw [dropRefs_strands]
  rw [e, State.strand_setMe_ne _ (by rw [fill_cur]; exact other)]
  unfold State.strand
  rw [fill_strands]

theorem bytesIn_placeOut : BytesIn s.myCx (z.segs far size) s (s.placeOut far size z) := by
  have e := (((fills_fill s s.myCx (z.segs far size) z.bs).bytesIn.trans (bytesIn_setMe ..)).trans
    (bytesIn_dropRefs s.myCx ((s.fill s.myCx (z.segs far size) z.bs).setMe (s.me.setChain z.d { segs := z.segs far size }))
      (s.segs z.d)))
  rw [List.append_nil, List.append_nil, ← placeOut_eq] at e
  exact e

theorem sameBytes_placeOut (x : Nat) : SameBytes x (s.fill s.myCx (z.segs far size) z.bs) (s.placeOut far size z) := by
  rw [placeOut_eq]
  exact (sameBytes_setMe ..).trans (sameBytes_dropRefs ..)

theorem placeOut_free (y : Nat) (g : Bool) : ((s.placeOut far size z).pool y g).free = (s.pool y g).free := by
  rw [placeOut_eq, (dropRefs_pool ..).1]
  exact congrArg Pool.free (fill_pool s s.myCx (z.segs far size) z.bs y g)

theorem placeOut_ref (g : Bool) (k : Nat) :
    ((s.placeOut far size z).pool s.myCx g).ref k = (s.pool s.myCx g).ref k - named g k (s.segs z.d) := by
  rw [placeOut_eq, ref_dropRefs]
  have e : ((s.fill s.myCx (z.segs far size) z.bs).setMe (s.me.setChain z.d { segs := z.segs far size })).pool s.myCx g
      = s.pool s.myCx g := fill_pool ..
  rw [e]

end

/-! ### Results placed one after another -/

/-- The results `l`, placed in their order. -/
def State.placeOuts (s : State) (far : Bool) (size : Nat) (l : List ChainOut) : State := l.foldl (fun s z => s.placeOut far size z) s

theorem placeOuts_cons (s : State) (far : Bool) (size : Nat) (z : ChainOut) (l : List ChainOut) :
    s.placeOuts far size (z :: l) = (s.placeOut far size z).placeOuts far size l := rfl

/-- Results that can be placed in buffers of a pool: each register and each buffer once, no buffer in the Dusk region, and
room for their bytes. -/
structure ChainsFit (s : State) (far : Bool) (l : List ChainOut) : Prop where
  once : (l.flatMap ChainOut.ids).Nodup
  low  : ∀ i ∈ l.flatMap ChainOut.ids, i < 2 ^ 23
  dusk : far = true → (s.pool s.myCx far).offDusk (l.flatMap ChainOut.ids)
  room : ∀ z ∈ l, z.bs.length ≤ z.ids.length * (s.pool s.myCx far).size
  regs : (l.map ChainOut.d).Nodup

/-- What placing results leaves. -/
structure ChainsPut (s t : State) (far : Bool) (size : Nat) (l : List ChainOut) : Prop where
  cur    : t.cur = s.cur
  others : ∀ k, k ≠ s.cur → t.strand k = s.strand k
  bytesIn : BytesIn s.myCx (l.flatMap fun z => z.segs far size) s t
  free   : ∀ y g, (t.pool y g).free = (s.pool y g).free
  refs   : ∀ g k, (t.pool s.myCx g).ref k = (s.pool s.myCx g).ref k - named g k (l.flatMap fun z => s.segs z.d)
  chain  : ∀ z ∈ l, t.me.chain z.d = { segs := z.segs far size }
  chains : ∀ c, c ∉ l.map ChainOut.d → t.me.chain c = s.me.chain c
  dirty  : ∀ c : CReg, t.me.cdirty.getLsbD c.toNat = (s.me.cdirty.getLsbD c.toNat || l.any fun z => z.d == c)
  strand : { t.me with chains := s.me.chains, cdirty := s.me.cdirty } = s.me

theorem named_append (far : Bool) (i : Nat) (k l : List Seg) : named far i (k ++ l) = named far i k + named far i l :=
  List.countP_append

theorem placeOuts_placed (s : State) (far : Bool) (size : Nat) (l : List ChainOut) (regs : (l.map ChainOut.d).Nodup) :
    ChainsPut s (s.placeOuts far size l) far size l := by
  induction l generalizing s with
  | nil =>
      exact ⟨rfl, fun _ _ => rfl, .refl _ s, fun _ _ => rfl, fun _ _ => rfl, nofun, fun _ _ => rfl,
        fun c => (Bool.or_false _).symm, rfl⟩
  | cons z l ih =>
      rw [List.map_cons, List.nodup_cons] at regs
      obtain ⟨fresh, regs⟩ := regs
      obtain ⟨cur, others, wrote, free, refs, chain, chains, dirty, strand⟩ := ih (s.placeOut far size z) regs
      rw [placeOut_myCx] at wrote refs
      rw [placeOut_cur] at cur others
      have me := placeOut_me s far size z
      have segs : l.flatMap (fun z' => (s.placeOut far size z).segs z'.d) = l.flatMap fun z' => s.segs z'.d := by
        refine List.flatMap_congr fun z' hz => ?_
        have differ : z'.d ≠ z.d := fun e => fresh (e ▸ List.mem_map.2 ⟨z', hz, rfl⟩)
        unfold State.segs
        rw [me, Strand.chain_setChain, if_neg differ]
      rw [placeOuts_cons]
      refine ⟨cur, fun k other => (others k other).trans (placeOut_strand s far size z other), ?_,
        fun y g => (free y g).trans (placeOut_free ..), fun g k => ?_, fun z' hz => ?_, fun c out => ?_, fun c => ?_, ?_⟩
      · exact (bytesIn_placeOut s far size z).trans wrote
      · rw [refs, placeOut_ref, segs, List.flatMap_cons, named_append, Nat.sub_add_eq]
      · rcases List.mem_cons.1 hz with rfl | hz
        · rw [chains _ fresh, me, Strand.chain_setChain, if_pos rfl]
        · exact chain z' hz
      · rw [List.map_cons, List.mem_cons, not_or] at out
        rw [chains c out.2, me, Strand.chain_setChain, if_neg out.1]
      · rw [dirty c, me, cdirty_setChain, List.any_cons, Bool.or_assoc]
      · rw [me] at strand
        have e := congrArg (fun t : Strand => { t with chains := s.me.chains, cdirty := s.me.cdirty }) strand
        exact e

/-- The buffers of a placing are whole buffers of its pool. -/
theorem ChainOut.mem_segs {z : ChainOut} {far : Bool} {size : Nat} (low : ∀ i ∈ z.ids, i < 2 ^ 23) {g : Seg}
    (h : g ∈ z.segs far size) : ∃ i ∈ z.ids, idFar g.id = far ∧ idIndex g.id = i ∧ g.start = 0 ∧ g.count ≤ size := by
  obtain ⟨named_, start, count⟩ := mem_dense h
  obtain ⟨i, hi, id⟩ := List.mem_map.1 named_
  obtain ⟨far_, index⟩ := idIndex_mkId far (low i hi)
  exact ⟨i, hi, by rw [← id]; exact far_, by rw [← id]; exact index, start, count⟩

theorem ChainOut.inside {z : ChainOut} {far : Bool} {s : State} {x : Nat} (low : ∀ i ∈ z.ids, i < 2 ^ 23) {g : Seg}
    (h : g ∈ z.segs far (s.pool x far).size) : s.inside x g := by
  obtain ⟨i, -, far_, -, start, count⟩ := z.mem_segs low h
  unfold State.inside
  rw [far_, start, Nat.zero_add]
  exact count

/-- Results placed in other buffers leave the bytes of a segment. -/
theorem bufBytes_placeOuts_apart {s : State} {far : Bool} {size : Nat} {b : Seg} {l : List ChainOut}
    (size_eq : (s.pool s.myCx far).size = size) (low : ∀ z ∈ l, ∀ i ∈ z.ids, i < 2 ^ 23)
    (apart : ∀ z ∈ l, ∀ g ∈ z.segs far size, g.apart b) (inside : s.inside s.myCx b) :
    (s.placeOuts far size l).bufBytes s.myCx b.id b.start b.count = s.bufBytes s.myCx b.id b.start b.count := by
  induction l generalizing s with
  | nil => rfl
  | cons z l ih =>
      have layout := (bytesIn_placeOut s far size z).layout
      have cx := placeOut_myCx s far size z
      have rest := ih (s := s.placeOut far size z) (by rw [cx, (layout far).1, size_eq]) (fun y hy => low y (List.mem_cons_of_mem _ hy))
        (fun y hy => apart y (List.mem_cons_of_mem _ hy)) (by unfold State.inside; rw [cx, (layout _).1]; exact inside)
      rw [cx] at rest
      rw [placeOuts_cons, rest, (sameBytes_placeOut s far size z s.myCx).bufBytes,
        bufBytes_fill_apart _ (apart z List.mem_cons_self) (fun g hg => ?_) inside]
      subst size_eq
      exact z.inside (low z List.mem_cons_self) hg

/-- Each register that a result has been placed in holds its bytes. -/
theorem segBytes_placeOuts {s : State} {far : Bool} {size : Nat} {l : List ChainOut} (size_eq : (s.pool s.myCx far).size = size)
    (h : ChainsFit s far l) : ∀ z ∈ l, (s.placeOuts far size l).segBytes s.myCx (z.segs far size) = z.bs := by
  induction l generalizing s with
  | nil => nofun
  | cons z l ih =>
      obtain ⟨once, low, dusk, room, regs⟩ := h
      have layout := (bytesIn_placeOut s far size z).layout
      have cx := placeOut_myCx s far size z
      rw [List.flatMap_cons] at once low dusk
      obtain ⟨mine, later, differ⟩ := List.nodup_append.1 once
      have low_z : ∀ i ∈ z.ids, i < 2 ^ 23 := fun i hi => low i (List.mem_append_left _ hi)
      have low_l : ∀ y ∈ l, ∀ i ∈ y.ids, i < 2 ^ 23 := fun y hy i hi =>
        low i (List.mem_append_right _ (List.mem_flatMap.2 ⟨y, hy, hi⟩))
      intro y hy
      rw [placeOuts_cons]
      rcases List.mem_cons.1 hy with rfl | hy
      · have own : (s.placeOut far size y).segBytes s.myCx (y.segs far size) = y.bs := by
          rw [(sameBytes_placeOut s far size y s.myCx).segBytes]
          subst size_eq
          exact segBytes_dense mine low_z (fun isFar i hi => dusk isFar i (List.mem_append_left _ hi)) (room y List.mem_cons_self)
        refine Eq.trans ?_ own
        unfold State.segBytes
        refine List.flatMap_congr fun b hb => ?_
        obtain ⟨i, hi, far_i, index_i, -⟩ := y.mem_segs low_z hb
        have e := bufBytes_placeOuts_apart (s := s.placeOut far size y) (l := l) (b := b) (far := far) (size := size)
          (by rw [cx, (layout far).1, size_eq]) low_l ?_ ?_
        · rw [cx] at e
          exact e
        · intro z' hz' g hg same
          obtain ⟨j, hj, far_j, index_j, -⟩ := z'.mem_segs (low_l z' hz') hg
          refine differ i hi j (List.mem_flatMap.2 ⟨z', hz', hj⟩) ?_
          rw [← index_i, ← index_j, same.2]
        · unfold State.inside
          rw [cx, (layout _).1]
          subst size_eq
          exact y.inside low_z hb
      · rw [List.map_cons, List.nodup_cons] at regs
        have rest := ih (s := s.placeOut far size z) (by rw [cx, (layout far).1, size_eq])
          ⟨later, fun i hi => low i (List.mem_append_right _ hi), fun isFar i hi o below => ?_,
            fun y hy => by rw [cx, (layout far).1]; exact room y (List.mem_cons_of_mem _ hy), regs.2⟩ y hy
        · rw [cx] at rest
          exact rest
        · rw [cx, (layout far).1] at below
          have place : ((s.placeOut far size z).pool s.myCx far).farPlace i = (s.pool s.myCx far).farPlace i := by
            unfold Pool.farPlace
            rw [(layout far).1, (layout far).2]
          rw [cx, place]
          exact dusk isFar i (List.mem_append_right _ hi) o below

end Sys2Proof.Machine
end

section
/-! PROOFS. The convoy of a lone member with one result that closes (R86, R130): its buffers granted, the effects of its elements
made, its chain placed. -/

namespace Sys2Proof.Machine

/-! ### What a close leaves in general -/

section
variable {s u : State} {start : Word} (same : SameButPc s u start)
include same

theorem SameButPc.cxs : u.cxs = s.cxs := by
  have e := congrArg State.cxs same.rest
  exact e

theorem SameButPc.pool (x : Nat) (far : Bool) : u.pool x far = s.pool x far := by
  unfold State.pool State.cx
  rw [same.cxs]

theorem SameButPc.myCx : u.myCx = s.myCx := by
  unfold State.myCx
  rw [same.cur]

theorem SameButPc.farPool : u.me.farPool = s.me.farPool := by
  rw [same.me]

theorem SameButPc.myPool : u.myPool = s.myPool := by
  unfold State.myPool
  rw [same.myCx, same.farPool, same.pool]

end

/-- A write of the executing strand leaves the residents beside it. -/
theorem mem_residents_setMe {s : State} {t : Strand} {i : Nat} (other : i ≠ s.cur) :
    i ∈ (s.setMe t).residents ↔ i ∈ s.residents := by
  have entries (e : Nat × Strand) (at_ : e.1 = i) :
      e ∈ Sparse.put Strand.blank s.cur t s.strands ↔ e ∈ s.strands := by
    have ne : e.1 ≠ s.cur := at_ ▸ other
    unfold Sparse.put
    split
    · rw [Sparse.mem_erase]
      exact and_iff_left ne
    · rw [Sparse.mem_place, Sparse.mem_erase]
      exact ⟨fun h => (h.resolve_left fun e' => ne (e' ▸ rfl)).1, fun h => .inr ⟨h, ne⟩⟩
  have member (l : Sparse Strand) : i ∈ (l.filter fun e => e.2.resident).map (·.1) ↔ ∃ e ∈ l, e.2.resident = true ∧ e.1 = i := by
    simp [List.mem_map, List.mem_filter, and_assoc]
  have strands : (s.setMe t).strands = Sparse.put Strand.blank s.cur t s.strands := rfl
  unfold State.residents
  rw [member, member, strands]
  constructor
  · rintro ⟨e, he, resident, at_⟩
    exact ⟨e, (entries e at_).1 he, resident, at_⟩
  · rintro ⟨e, he, resident, at_⟩
    exact ⟨e, (entries e at_).2 he, resident, at_⟩

theorem behind_setMe (s : State) (t : Strand) (x : Nat) (far : Bool) : (s.setMe t).behind x far = s.behind x far := by
  rw [Bool.eq_iff_iff]
  unfold State.behind State.onCx
  rw [List.any_eq_true, List.any_eq_true]
  have waits {i : Nat} (other : i ≠ s.cur) : (s.setMe t).waitsFor far i = s.waitsFor far i := by
    unfold State.waitsFor
    rw [State.strand_setMe_ne s other]
  refine exists_congr fun i => ?_
  rw [State.setMe_cur]
  by_cases here : i = s.cur
  · simp [here]
  · rw [List.mem_filter, List.mem_filter, mem_residents_setMe here, waits here]

theorem Begins.behind {i x : Instr} {s v u : State} (h : Begins i s x v u) (y : Nat) (far : Bool) :
    u.behind y far = s.behind y far := by
  cases h with
  | itself => rfl
  | headed gk g v w bad fetched decoded state => exact behind_setMe ..

/-- The results `l` have been placed, in `t`, from the first `total` buffers that were free in `s`, and nothing else has changed
but the executing strand and what its elements have made of the package in `a`. -/
structure Closes (s a t : State) (l : List ChainOut) (total : Nat) : Prop where
  chain  : ∀ z ∈ l, t.me.chain z.d = { segs := z.segs s.me.farPool s.myPool.size }
  bytes  : ∀ z ∈ l, t.segBytes s.myCx (z.segs s.me.farPool s.myPool.size) = z.bs
  chains : ∀ c, c ∉ l.map ChainOut.d → t.me.chain c = s.me.chain c
  dirty  : ∀ c : CReg, t.me.cdirty.getLsbD c.toNat = (s.me.cdirty.getLsbD c.toNat || l.any fun z => z.d == c)
  free   : ∀ far, (t.pool s.myCx far).free
    = if far = s.me.farPool then s.myPool.free.drop total else (s.pool s.myCx far).free
  refs   : ∀ far i, (t.pool s.myCx far).ref i
    = (if far = s.me.farPool ∧ i ∈ s.myPool.free.take total then 1 else (s.pool s.myCx far).ref i)
      - named far i (l.flatMap fun z => s.segs z.d)
  only   : BytesOnly s a t (l.flatMap fun z => z.segs s.me.farPool s.myPool.size)

theorem closes_of_placed {s u v a : State} {start : Word} {l : List ChainOut} {total : Nat} {ids : List Nat}
    (same : SameButPc s u start) (recorded : Recorded s a) (enable : total ≠ 0 → s.myPool.enable = true)
    (enough : total ≤ s.myPool.free.length) (taken : u.allocs s.myCx s.me.farPool total = .ok (ids, v))
    (fit : ChainsFit s s.me.farPool l) {m : Strand}
    (chains : m.chains = ((a.onto v).placeOuts s.me.farPool s.myPool.size l).me.chains)
    (dirty : m.cdirty = ((a.onto v).placeOuts s.me.farPool s.myPool.size l).me.cdirty) :
    Closes s a (((a.onto v).placeOuts s.me.farPool s.myPool.size l).setMe m) l total := by
  have pool : u.pool s.myCx s.me.farPool = s.myPool := same.pool ..
  obtain ⟨v', taken', rest, free, others, -, -, -, -, ref⟩ := allocs_ok s.myCx s.me.farPool total u
    (by rw [pool]; exact enable) (by rw [pool]; exact enough)
  obtain rfl : v' = v := by
    rw [taken'] at taken
    exact (Prod.mk.inj (Except.ok.inj taken)).2
  rw [pool] at free
  have at_ : (a.onto v').myCx = s.myCx := by
    have e := congrArg State.myCx recorded
    exact e
  have me : (a.onto v').me = u.me := same.onto recorded rest
  have strand (k : Nat) : (a.onto v').strand k = u.strand k := by
    have e := congrArg State.strands rest
    exact congrArg (Sparse.get {} k) e
  have mine : (a.onto v').me.chains = s.me.chains ∧ (a.onto v').me.cdirty = s.me.cdirty := by
    rw [me, same.me]
    exact ⟨rfl, rfl⟩
  have kept (c : CReg) : (a.onto v').me.chain c = s.me.chain c := by unfold Strand.chain; rw [mine.1]
  have segs (c : CReg) : (a.onto v').segs c = s.segs c := congrArg Chain.segs (kept c)
  have poolOf (far : Bool) : (a.onto v').pool s.myCx far = v'.pool s.myCx far := rfl
  have start_ : BytesIn s.myCx [] a (a.onto v') := by
    have b := bytesIn_allocs taken
    have cx (y : Nat) : a.cx y = u.cx y := by
      have e := congrArg State.cxs recorded
      exact congrArg (Sparse.get Complex.reset y) (Eq.trans e same.cxs.symm)
    have pool (far : Bool) : a.pool s.myCx far = u.pool s.myCx far := by unfold State.pool; rw [cx]
    refine ⟨rfl, fun _ _ => rfl, fun _ => ⟨rfl, rfl⟩, fun p free => ?_, fun y other => ?_, ?_, fun far => ?_⟩
    · rw [cx]; exact b.near p nofun
    · rw [cx]; exact b.complexes y other
    · rw [cx]; exact b.complex
    · rw [pool]; exact b.pools far
  have layout (far : Bool) : (v'.pool s.myCx far).size = (s.pool s.myCx far).size
      ∧ (v'.pool s.myCx far).base = (s.pool s.myCx far).base := by
    rw [← same.pool]
    exact (bytesIn_allocs taken).layout far
  have size : ((a.onto v').pool (a.onto v').myCx s.me.farPool).size = s.myPool.size := by
    rw [at_]
    exact (layout _).1
  have placed := placeOuts_placed (a.onto v') s.me.farPool s.myPool.size l fit.regs
  have bytes := segBytes_placeOuts (s := a.onto v') (far := s.me.farPool) (size := s.myPool.size) (l := l) size (by
    obtain ⟨once, low, dusk, room, regs⟩ := fit
    refine ⟨once, low, fun isFar i hi o below => ?_, fun z hz => by rw [size]; exact room z hz, regs⟩
    rw [size] at below
    have place : ((a.onto v').pool (a.onto v').myCx s.me.farPool).farPlace i = (s.pool s.myCx s.me.farPool).farPlace i := by
      unfold Pool.farPlace
      rw [size, at_, poolOf, (layout _).2]
      rfl
    rw [place]
    exact dusk isFar i hi o below)
  generalize (a.onto v').placeOuts s.me.farPool s.myPool.size l = w at placed bytes chains dirty
  obtain ⟨w_cur, w_others, w_bytes, w_free, w_refs, w_chain, w_chains, w_dirty, -⟩ := placed
  rw [at_] at w_bytes w_refs bytes
  have a_cur : (a.onto v').cur = s.cur := by
    have e := congrArg State.cur recorded
    exact e
  rw [a_cur] at w_cur w_others
  have chain (c : CReg) : (w.setMe m).me.chain c = w.me.chain c := by
    rw [State.me_setMe]
    unfold Strand.chain
    rw [chains]
  refine ⟨fun z hz => (chain _).trans (w_chain z hz), fun z hz => ?_, fun c out => ?_, fun c => ?_, fun far => ?_, fun far i => ?_,
    ?_⟩
  · rw [(sameBytes_setMe ..).segBytes]
    exact bytes z hz
  · rw [chain, w_chains c out, kept]
  · rw [State.me_setMe, dirty, w_dirty, mine.2]
  · refine (w_free s.myCx far).trans ?_
    rw [poolOf]
    by_cases mine_ : far = s.me.farPool
    · rw [if_pos mine_, mine_, free]
    · rw [if_neg mine_, others _ _ fun e => mine_ e.2, same.pool]
  · refine (w_refs far i).trans ?_
    simp only [segs, poolOf]
    congr 1
    by_cases mine_ : far = s.me.farPool
    · rw [mine_, ref, pool]
      by_cases new : i ∈ s.myPool.free.take total
      · rw [if_pos new, if_pos ⟨rfl, new⟩]
      · rw [if_neg new, if_neg fun e => new e.2]
        rfl
    · rw [others _ _ fun e => mine_ e.2, same.pool, if_neg fun e => mine_ e.1]
  · have all := (start_.trans w_bytes).trans (bytesIn_setMe s.myCx w m)
    rw [List.nil_append, List.append_nil] at all
    refine all.bytesOnly ?_ fun i other => ?_
    · have e := congrArg State.cxs recorded
      exact e
    · rw [State.strand_setMe_ne _ (by rw [w_cur]; exact other), w_others i other, strand, same.others i other]

/-! ### One result -/

/-- The buffers of a new chain are the first that were free. -/
theorem newSegs_eq {s : State} {n : Nat} (enough : s.buffersFor n ≤ s.myPool.free.length) (d : CReg) {bs : List Byte}
    (length : bs.length = n) : s.newSegs n
      = ChainOut.segs ⟨d, s.myPool.free.take (s.buffersFor n), bs⟩ s.me.farPool s.myPool.size := by
  have ids : (List.range (s.buffersFor n)).map (fun i => mkId s.me.farPool (s.myPool.free.getD (i * 1 + 0) 0))
      = (s.myPool.free.take (s.buffersFor n)).map (mkId s.me.farPool) := by
    refine List.ext_getElem ?_ fun i below below' => ?_
    · rw [List.length_map, List.length_map, List.length_range, List.length_take, Nat.min_eq_left enough]
    · rw [List.length_map, List.length_range] at below
      have inside : i < s.myPool.free.length := Nat.lt_of_lt_of_le below enough
      simp [inside]
  unfold State.newSegs ChainOut.segs
  rw [ids, length]

/-- One result that fits its buffers. -/
theorem chainsFit_one {s : State} {d : CReg} {bs : List Byte} (buffers : s.hasBuffers (s.buffersFor bs.length)) :
    ChainsFit s s.me.farPool [⟨d, s.myPool.free.take (s.buffersFor bs.length), bs⟩] := by
  obtain ⟨-, enough, -, once, low, dusk, -⟩ := buffers
  rw [Nat.one_mul] at enough
  have among : ∀ i ∈ s.myPool.free.take (s.buffersFor bs.length), i ∈ s.myPool.free := fun i hi => List.mem_of_mem_take hi
  refine ⟨?_, fun i hi => ?_, fun isFar i hi o below => ?_, fun z hz => ?_, List.nodup_singleton d⟩
  · rw [List.flatMap_singleton]
    exact once.sublist (List.take_sublist ..)
  · rw [List.flatMap_singleton] at hi
    exact low i (among i hi)
  · rw [List.flatMap_singleton] at hi
    exact dusk isFar i (among i hi) o below
  · rw [List.mem_singleton.1 hz, List.length_take, Nat.min_eq_left enough]
    exact le_buffers _ _ (size_pos _)

/-- The one chain of a close that places one result. -/
theorem Closes.newChain {s a t : State} {d : CReg} {bs : List Byte} (enough : s.buffersFor bs.length ≤ s.myPool.free.length)
    (h : Closes s a t [⟨d, s.myPool.free.take (s.buffersFor bs.length), bs⟩] (s.buffersFor bs.length)) :
    NewChain s t d bs ∧ PoolsOnly s a t 1 bs.length := by
  obtain ⟨chain, bytes, chains, dirty, free, refs, only⟩ := h
  have segs := newSegs_eq enough d (bs := bs) rfl
  have mine := chain _ List.mem_cons_self
  rw [← segs] at mine
  refine ⟨⟨fun k below => ?_, fun k _ => ?_, ?_, fun far i => ?_, fun c other => ?_, fun c => ?_⟩, ?_, ?_⟩
  · rw [Nat.lt_one_iff.1 below]
    exact mine
  · have e := bytes _ List.mem_cons_self
    rw [← segs] at e
    unfold State.segs
    rw [mine]
    exact e
  · rw [Nat.one_mul, free, if_pos rfl]
  · rw [Nat.one_mul, refs]
    rfl
  · exact chains c (by simpa using other 0 Nat.zero_lt_one)
  · rw [dirty c]
    rfl
  · rw [List.flatMap_singleton] at only
    rw [List.range_one, List.flatMap_singleton, segs]
    exact only
  · rw [free, if_neg]
    cases s.me.farPool <;> decide

/-! ### The lone member -/

/-- What the end of a run looks at of a lone element-wise member or load that makes one result, `d`, in elements of `w` bits. -/
structure Member.Lone (m : Member) (d : CReg) (w : Nat) : Prop where
  dests  : m.dests = [(d, w)]
  width  : w ∈ formatWidths
  counts : w ≤ m.counts.foldl Nat.max 0
  mwrite : m.mwrite = none
  swrite : m.swrite = none
  body   : (∃ op scal sel mrg, m.body = .map op scal sel mrg) ∨ ∃ at_ base kind, m.body = .load at_ base kind

section
variable {m : Member} {d : CReg} {w : Nat} (h : m.Lone d w)
include h

theorem Member.Lone.last : m.last = false := by
  unfold Member.last
  rcases h.body with ⟨_, _, _, _, body⟩ | ⟨_, _, _, body⟩ <;> rw [body]

theorem Member.Lone.notComp : m.isComp = false := by
  unfold Member.isComp
  rcases h.body with ⟨_, _, _, _, body⟩ | ⟨_, _, _, body⟩ <;> rw [body]

theorem Member.Lone.notMask : m.isMask = false := by
  unfold Member.isMask
  rcases h.body with ⟨_, _, _, _, body⟩ | ⟨_, _, _, body⟩ <;> rw [body]

theorem Member.Lone.keepsPrior : m.keepsPrior = m.readsOld := by
  unfold Member.keepsPrior
  rcases h.body with ⟨_, _, _, _, body⟩ | ⟨_, _, _, body⟩ <;> rw [body] <;> exact Bool.or_false _

end

/-- The progress of a member that has handled `k` of its `n` elements; of a `vldff`, whether it has read one, and where it has
been cut. -/
def laneProg (n k : Nat) (fin : Bool) (R : Nat → Nat × Flags) (seen : Bool) (cut : Option Nat) : Prog :=
  { mapProg n k fin R with seen := seen, cut := cut }

theorem size_laneProg (n k : Nat) (fin : Bool) (R : Nat → Nat × Flags) (seen : Bool) (cut : Option Nat) :
    ((laneProg n k fin R seen cut).outs.getD 0 #[]).size = k := by
  change ((List.range k).map fun e => (R e).1).toArray.size = k
  simp

/-- `vl` as a convoy leaves it whose `vldff`, if it holds one, has been cut at element `c` (R169). -/
def Strand.vlCut (t : Strand) : Option Nat → BitVec 16
  | some c => BitVec.ofNat 16 (Nat.min t.vl.toNat c)
  | none => t.vl

/-- The flags that all elements have raised. -/
theorem foldl_raised (R : Nat → Nat × Flags) (n : Nat) :
    (raisedBelow R n).foldl (fun f x => f ||| x.2) (0 : Flags) = flagsOf n fun e => (R e).2 := by
  have start (l : List (Nat × Flags)) (f : Flags) :
      l.foldl (fun f x => f ||| x.2) f = f ||| l.foldl (fun f x => f ||| x.2) (0 : Flags) := by
    induction l generalizing f with
    | nil => exact BitVec.or_zero.symm
    | cons x l ih => rw [List.foldl_cons, List.foldl_cons, ih, ih (0 ||| x.2), show (0 : Flags) ||| x.2 = x.2 from BitVec.zero_or,
        BitVec.or_assoc]
  induction n with
  | zero => rfl
  | succ n ih =>
      rw [flagsOf_succ, raisedBelow]
      split
      · next none_ => rw [ih, none_]; exact BitVec.or_zero.symm
      · rw [List.foldl_cons, start, ih, show (0 : Flags) ||| (n, (R n).2).2 = (R n).2 from BitVec.zero_or, BitVec.or_comm]

/-- A run that has handled all its elements, its buffers to be had at once, closes. -/
theorem settles_lane {s u a t : State} {start : Word} {m : Member} {d : CReg} {w n : Nat} {R : Nat → Nat × Flags} {l : Effects}
    (same : SameButPc s u start) (lone : m.Lone d w) (tracks : Tracks s u a l t) (seen : Bool) (cut : Option Nat)
    (turn : u.behind s.myCx s.me.farPool = s.behind s.myCx s.me.farPool)
    (buffers : s.hasBuffers (s.buffersFor (pack w ((List.range n).map fun e => (R e).1)).length)) (s0 : State) :
    let bs := pack w ((List.range n).map fun e => (R e).1)
    ∃ z, (laneRun u s.me.pc m none a l (laneProg n n true R seen cut)).settles s0 u [] false none start = .next z
      ∧ NewChain s z d bs ∧ PoolsOnly s t z 1 bs.length
      ∧ { z.me with chains := s.me.chains, cdirty := s.me.cdirty } = Strand.closed { s.me with
          fflags := s.me.fflags ||| flagsOf n fun e => (R e).2
          vl := s.me.vlCut cut } (s.me.pc + 4) := by
  dsimp only
  generalize hbs : pack w ((List.range n).map fun e => (R e).1) = bs at buffers
  have fit := chainsFit_one (d := d) buffers
  obtain ⟨enable, enough, quiet, -, -, -, spine⟩ := buffers
  rw [Nat.one_mul] at enable enough
  have length : bs.length = (n * w + 7) / 8 := by
    rw [← hbs, length_pack lone.width, List.length_map, List.length_range]
  generalize hr : laneRun u s.me.pc m none a l (laneProg n n true R seen cut) = r
  have one : r.One m := by rw [← hr]; exact ⟨rfl, rfl, rfl, rfl, rfl, rfl⟩
  have prog : r.prog 0 = laneProg n n true R seen cut := by rw [← hr]; rfl
  have far : r.st.farPool = s.me.farPool := by rw [← hr]; exact same.farPool
  have upool : u.pool s.myCx s.me.farPool = s.myPool := same.pool ..
  obtain ⟨v, taken, rest, -, -, -, -, -, -, -⟩ := allocs_ok s.myCx s.me.farPool (s.buffersFor bs.length) u
    (by rw [upool]; exact enable) (by rw [upool]; exact enough)
  rw [upool] at taken
  have alloc : r.allocate u false = .ok v (((s.myPool.free.take (s.buffersFor bs.length)).map (mkId s.me.farPool)).map
      fun i => ({ pos := 0, k := 0, id := i } : Grant)) none := by
    refine allocate_one one lone.last lone.dests (k := s.buffersFor bs.length) ?_ spine ?_ ?_
    · rw [prog, size_laneProg, far, same.myCx, upool, length, buffersFor_eq]
    · rw [far, same.myCx, turn]
      exact quiet
    · rw [far, same.myCx]
      exact taken
  have replay : r.replay v none = t.onto v := by
    rw [← tracks.replayed v rest, ← hr]
    unfold Run.replay Effects.all
    congr 1
    funext y x
    cases y.1 <;> rfl
  have at_ : (t.onto v).myCx = s.myCx := by
    have e := congrArg State.myCx tracks.recorded
    exact e
  have size : ((t.onto v).pool s.myCx s.me.farPool).size = s.myPool.size := by
    change (v.pool s.myCx s.me.farPool).size = _
    rw [((bytesIn_allocs taken).layout _).1, upool]
  have outs : ((r.prog 0).outs.getD 0 #[]).toList = (List.range n).map fun e => (R e).1 := by rw [prog]; rfl
  have closed := close_dest one lone.last lone.dests v ((s.myPool.free.take (s.buffersFor bs.length)).map (mkId s.me.farPool))
    (r.addr 0 + 4) (by
      rw [replay, at_, far, size, outs, hbs, List.length_map, List.length_take, Nat.min_eq_left enough]
      rfl)
  dsimp only at closed
  rw [replay, at_, far, size, outs, hbs] at closed
  have placed : (t.onto v).placeOuts s.me.farPool s.myPool.size [⟨d, s.myPool.free.take (s.buffersFor bs.length), bs⟩]
      = ((t.onto v).fill s.myCx (denseSegs s.myPool.size bs.length ((s.myPool.free.take (s.buffersFor bs.length)).map
          (mkId s.me.farPool))) bs).writeChain d (denseSegs s.myPool.size bs.length
            ((s.myPool.free.take (s.buffersFor bs.length)).map (mkId s.me.farPool))) := by
    change (t.onto v).placeOut s.me.farPool s.myPool.size _ = _
    unfold State.placeOut
    rw [at_]
    rfl
  have strand := (placeOuts_placed (t.onto v) s.me.farPool s.myPool.size
    [⟨d, s.myPool.free.take (s.buffersFor bs.length), bs⟩] fit.regs).strand
  rw [same.onto tracks.recorded rest, same.me] at strand
  rw [← placed, setMe_setMe, State.me_setMe] at closed
  have leaves := closes_of_placed same tracks.recorded enable enough taken fit
    (m := (r.closeStrand (r.placeRest 0 m none ((t.onto v).placeOuts s.me.farPool s.myPool.size
      [⟨d, s.myPool.free.take (s.buffersFor bs.length), bs⟩]).me)).go (r.addr 0 + 4))
  generalize (t.onto v).placeOuts s.me.farPool s.myPool.size [⟨d, s.myPool.free.take (s.buffersFor bs.length), bs⟩] = z
    at closed leaves strand
  have rest_ : (r.closeStrand (r.placeRest 0 m none z.me)).go (r.addr 0 + 4) = Strand.closed { z.me with
      fflags := z.me.fflags ||| flagsOf n fun e => (R e).2
      vl := z.me.vlCut cut } (s.me.pc + 4) := by
    have flags : (r.prog 0).flags.foldl (fun f x => f ||| x.2) (0 : Flags) = flagsOf n fun e => (R e).2 := by
      rw [prog]
      exact foldl_raised R n
    have placed_ : r.placeRest 0 m none z.me = z.me.raise (flagsOf n fun e => (R e).2) := by
      unfold Run.placeRest
      dsimp only
      rw [lone.mwrite, lone.swrite]
      simp only [if_true]
      rw [flags]
    have ms : r.ms = [m] := one.ms
    have progs : r.progs = [laneProg n n true R seen cut] := by rw [← hr]; rfl
    have addr : r.addr 0 = s.me.pc := by rw [← hr]; rfl
    rw [placed_, addr]
    unfold Run.closeStrand
    rw [ms, progs]
    dsimp only
    rw [List.any_cons, List.any_nil]
    rcases lone.body with ⟨_, _, _, _, body⟩ | ⟨_, _, _, body⟩ <;>
    · rw [body]
      cases cut <;> rfl
  rw [rest_] at closed leaves
  obtain ⟨chain, only⟩ := (leaves rfl rfl).newChain enough
  refine ⟨_, (settles_one one lone.last alloc).trans (congrArg Host.Outcome.next closed), chain, only, ?_⟩
  rw [State.me_setMe]
  have e := congrArg (fun q : Strand => { Strand.closed { q with
      fflags := q.fflags ||| flagsOf n fun e => (R e).2
      vl := q.vlCut cut } (s.me.pc + 4) with
        chains := s.me.chains, cdirty := s.me.cdirty }) strand
  exact e

end Sys2Proof.Machine
end

section
/-! PROOFS. From an instruction, headed or not, to the run of a lone member, and the loop of that run (R37, R87, R130). -/

namespace Sys2Proof.Machine

/-- A lone member reads no strip that its format reaches past. -/
theorem Opens.narrow {i : Instr} {s : State} {m : Member} (h : Opens i s m) {sc : Scan} {st : Strand} (ms : sc.ms = [m])
    (chains : st.chains = s.me.chains) : sc.widens st = false := by
  unfold Scan.widens
  rw [ms]
  simp only [List.any_cons, List.any_nil, Bool.or_false, List.any_eq_false]
  intro c hc
  have plain := h.plain c.reg (List.mem_append_left _ (List.mem_map.2 ⟨c, hc, rfl⟩))
  have chain : st.chain c.reg = s.me.chain c.reg := by unfold Strand.chain; rw [chains]
  unfold Strand.streamed at plain
  rw [chain]
  cases stream : (s.me.chain c.reg).stream <;> simp [stream] at plain ⊢

/-- The convoy of a lone member is its loop, and what settles it, wherever the convoy begins. -/
theorem Begins.exec_lone {i x : Instr} {s v u : State} {m : Member} (h : Begins i s x v u) (opens : Opens i s m)
    (loads : m.loads ≤ 2) (stores : m.stores ≤ 1) :
    Machine.exec x v = (Run.loop (openRun u [m] [s.me.pc]).fuel (openRun u [m] [s.me.pc])).settles v u [] false none v.me.pc := by
  have same := h.same
  have words : s.convoyWords m = [(s.me.pc, .ok m)] := by
    unfold State.convoyWords
    rcases opens.next with closes | next
    · rw [if_pos closes]
    · rw [gatherWords_scalar next]; split <;> rfl
  have still : m.writes.find? v.copyInto = none := by
    have copies : v.copyInto = s.copyInto := by
      cases h with
      | itself => rfl
      | headed gk g v w bad fetched decoded state =>
          funext c
          unfold State.copyInto
          rw [state, State.me_setMe]
          rfl
    rw [copies, List.find?_eq_none]
    intro c hc
    simp [opens.still c hc]
  rw [h.exec opens.member, words]
  unfold State.runConvoy
  rw [same.me, scan_pc, scan_alone opens loads stores]
  dsimp only
  rw [still]
  simp only [State.pops, List.map_nil, List.map_cons, List.foldl_nil]
  rw [opens.narrow rfl (by rw [same.me]), if_neg Bool.false_ne_true]

/-! ### The loop -/

/-- The loop takes one step after another of a lone member. -/
theorem loop_steps {I : Nat → Run → Prop} {k n : Nat} (le : k ≤ n)
    (step : ∀ j r, k ≤ j → j < n → I j r → r.cell = false ∧ (∃ e, r.cands = [(e, 0)]) ∧ ∃ t, r.step 0 = some t ∧ I (j + 1) t)
    {r : Run} (first : I k r) (fuel : Nat) : ∃ t, I n t ∧ Run.loop (fuel + (n - k)) r = Run.loop fuel t := by
  induction n, le using Nat.le_induction generalizing fuel with
  | base => exact ⟨r, first, by rw [Nat.sub_self]; rfl⟩
  | succ n le ih =>
      obtain ⟨t, here, loop⟩ := ih (fun j r low high => step j r low (Nat.lt_succ_of_lt high)) (fuel + 1)
      obtain ⟨cell, ⟨e, one⟩, t', next, there⟩ := step n t le (Nat.lt_succ_self n) here
      refine ⟨t', there, ?_⟩
      rw [show fuel + (n + 1 - k) = fuel + 1 + (n - k) by omega, loop]
      exact loop_moves cell one next fuel

end Sys2Proof.Machine
end

section
/-! PROOFS. The elements of a vector load (R165, R166, R169): the run of the lone member reads them one by one. -/

namespace Sys2Proof.Machine

/-! ### What a load asks of the convoy machine -/

theorem load_of_memberOf {i : Instr} {g : Gm} {m : Member} (member : memberOf g i = some m) {at_ : Form} {base : SReg}
    {kind : LoadKind} (body : m.body = .load at_ base kind) (whole : ∀ k, kind ≠ .chunk k) {d : CReg} {w : Nat}
    (dests : m.dests = [(d, w)]) : m.Lone d w ∧ m.loads ≤ 2 ∧ m.stores ≤ 1 ∧ (kind = .first → m.bound = []) := by
  have parts : m.mwrite = none ∧ m.swrite = none ∧ m.counted = true ∧ m.loads = 1 ∧ m.stores = 0 ∧ w = g.fmtA.bits
      ∧ (kind = .first → m.bound = []) := by
    cases i
    case vld | vlds | vldff | vldt =>
      obtain rfl := Option.some.inj member
      exact ⟨rfl, rfl, rfl, rfl, rfl, (Prod.mk.inj (List.cons.inj dests).1).2.symm, fun _ => rfl⟩
    case vldx =>
      obtain rfl := Option.some.inj member
      injection body with _ _ plain
      exact ⟨rfl, rfl, rfl, rfl, rfl, (Prod.mk.inj (List.cons.inj dests).1).2.symm, fun first => by rw [← plain] at first; cases first⟩
    case vldk d' a b =>
      obtain rfl := Option.some.inj member
      injection body with _ _ chunk
      exact absurd chunk.symm (whole b)
    all_goals
      cases member <;> cases body
  obtain ⟨mwrite, swrite, counted, loads, stores, width, first⟩ := parts
  refine ⟨⟨dests, by rw [width]; exact fmtA_bits g, ?_, mwrite, swrite, .inr ⟨at_, base, kind, body⟩⟩, by rw [loads]; decide,
    by rw [stores]; decide, first⟩
  refine le_foldl_max _ _ _ (.inr ?_)
  unfold Member.counts
  rw [counted, dests]
  simp

end Sys2Proof.Machine
end

section
/-! PROOFS. One element of a vector load in the run of a lone member (R58, R165, R166, R169). -/

namespace Sys2Proof.Machine

/-! ### What the element finds -/

theorem SameButPc.gm {s u : State} {start : Word} (same : SameButPc s u start) : u.me.gm = s.me.gm := by
  rw [same.me]

section
variable {s u a t : State} {start : Word} {l : Effects} (tracks : Tracks s u a l t) (same : SameButPc s u start) (pc : Word)
  (m : Member) (b : Option Hit) (p : Prog)

include tracks same in
theorem loadAccess_lane (kind : LoadKind) : (laneRun u pc m b a l p).loadAccess kind = s.loadAs kind := by
  have me : a.me = { s.me with pc := start } := (tracks.me same).trans same.me
  have cur : a.cur = s.cur := by
    rw [tracks.scratch]
    have e := congrArg State.cur tracks.recorded
    exact e
  have st : (laneRun u pc m b a l p).st = { s.me with pc := start } := same.me
  have scratch : (laneRun u pc m b a l p).s = a := rfl
  unfold Run.loadAccess State.loadAs State.myAccess State.reg
  rw [st, scratch, me, cur]
  cases kind <;> rfl

include same in
theorem scalar_lane (c : SReg) : (laneRun u pc m b a l p).scalar 0 c = .val (s.reg c) := by
  have e : (laneRun u pc m b a l p).scalar 0 c = .val (u.me.reg c) := rfl
  rw [e, same.me]
  rfl

include tracks same in
theorem srcs_lane {e : Nat} (plain : ∀ c ∈ m.bound, s.me.streamed c.reg = false) (below : e < s.countFor m) :
    (laneRun u pc m b a l p).srcs 0 e m = s.operands m e := by
  have me : a.me = { s.me with pc := start } := (tracks.me same).trans same.me
  have chain (c : CReg) : a.me.chain c = s.me.chain c := by rw [me]; rfl
  refine (srcs_opened (s := a) (tracks.me same).symm rfl (fun c hc => ?_) fun c hc => ?_).trans ?_
  · have e := plain c hc
    unfold Strand.streamed at e ⊢
    rw [chain]
    exact e
  · unfold State.lenOf
    rw [chain]
    exact Nat.lt_of_lt_of_le below (countFor_le_len s m hc)
  · unfold State.operands
    congr 1
    exact List.map_congr_left fun c _ => tracks.operand same c e

include tracks same in
theorem address_lane (e : Nat) (c : Access) (at_ : Form) (base : Word) (v : List Nat) :
    (laneRun u pc m b a l p).address 0 e c at_ base v = .val (t.elementAt c at_ base v e) := by
  have me : t.me = s.me := tracks.recorded.me
  have st : (laneRun u pc m b a l p).st.gm = t.me.gm := by
    rw [me]
    exact same.gm
  have reg (q : SReg) : t.reg q = s.reg q := by unfold State.reg; rw [me]
  have format (va : Int) : (laneRun u pc m b a l p).s.formatAt c va = t.formatAt c va := by
    change a.formatAt c va = _
    rw [tracks.scratch]
    rfl
  unfold Run.address State.elementAt
  rw [st]
  cases at_ with
  | unit => dsimp only; rw [format]
  | stride q => dsimp only; rw [scalar_lane same, reg]
  | index k => rfl

include tracks in
theorem spot_lane (c : Access) (z : Nat) (va : Int) (load store covers : Bool) (unit : Option Nat) :
    (laneRun u pc m b a l p).s.spot c z va load store covers unit = t.spot c z va load store covers unit := by
  change a.spot c z va load store covers unit = _
  rw [tracks.scratch]
  rfl

end

/-! ### The step -/

section
variable {s u a t : State} {start : Word} {l : Effects} (tracks : Tracks s u a l t) (same : SameButPc s u start) (pc : Word)
  (m : Member) (b : Option Hit) (p : Prog) {at_ : Form} {base : SReg} {kind : LoadKind} {e : Nat}

theorem operands_known (s : State) (m : Member) (e : Nat) : s.operands m e ≠ .wait ∧ s.operands m e ≠ .short := by
  refine gotAll_known _ fun g hg => ?_
  obtain ⟨c, -, rfl⟩ := List.mem_map.1 hg
  exact chainElem_known ..

include tracks same

/-- An element that is not active is zero. -/
theorem stepLoad_idle (whole : ∀ k, kind ≠ .chunk k) (plain : ∀ c ∈ m.bound, s.me.streamed c.reg = false)
    (below : e < s.countFor m) (idle : ¬ s.active e = true) :
    ∃ a' l', (laneRun u pc m b a l p).stepLoad 0 e m at_ base kind = some ((laneRun u pc m b a' l' p).push 0 (0, 0))
      ∧ Tracks s u a' l' (t.guardSeen e) := by
  obtain ⟨a', l', guarded, after⟩ := tracks.guarded same pc m b p e
  refine ⟨a', l', ?_, after⟩
  have known := operands_known s m e
  have active := after.active same pc m b p e
  unfold Run.stepLoad
  rw [srcs_lane tracks same pc m b p plain below, scalar_lane same]
  have off : s.active e = false := by simpa using idle
  cases all : s.operands m e with
  | wait => exact absurd all known.1
  | short => exact absurd all known.2
  | val | bad =>
      dsimp only
      rw [guarded, active, off]
      cases kind with
      | chunk k => exact absurd rfl (whole k)
      | _ => rfl

/-- An element that is active is read from its place. -/
theorem stepLoad_read (whole : ∀ k, kind ≠ .chunk k) (plain : ∀ c ∈ m.bound, s.me.streamed c.reg = false)
    (below : e < s.countFor m) (active : s.active e = true) {v : List Nat} (all : s.operands m e = .val v) {t' : State}
    {x : Nat × Flags} (reads : ReadsElement (t.guardSeen e) t' (s.loadAs kind) at_ (s.reg base) v e x) :
    ∃ a' l', (laneRun u pc m b a l p).stepLoad 0 e m at_ base kind
        = some (((laneRun u pc m b a' l' p).push 0 x).setProg 0 { ((laneRun u pc m b a' l' p).push 0 x).prog 0 with seen := true })
      ∧ Tracks s u a' l' t' := by
  obtain ⟨a', l', guarded, after⟩ := tracks.guarded same pc m b p e
  obtain ⟨sp, found, value⟩ := reads
  have on := after.active same pc m b p e
  have me : (t.guardSeen e).me = s.me := after.recorded.me
  have gm : u.me.gm = s.me.gm := same.gm
  unfold State.elementSpot at found
  rw [me] at found value
  generalize hf : s.me.gm.fmtA = f at found value
  generalize hn : s.me.gm.num = nm at value
  generalize hl : (t.guardSeen e).elementAt (s.loadAs kind) at_ (s.reg base) v e = place at found value
  have read (y : State) : ((t.guardSeen e).onto y).readSpot (s.loadAs kind) f nm place.2.1 sp = (x, t'.onto y) := by
    rw [readSpot_onto, value]
  have effect := after.eff (f := fun s_ => (s_.readSpot (s.loadAs kind) f nm place.2.1 sp).2) (t' := t') e
    (fun y _ => by rw [read]) (fun y => recorded_readSpot ..) (by
      have e := recorded_readSpot (t.guardSeen e) (s.loadAs kind) f nm place.2.1 sp
      rw [value] at e
      exact e)
  refine ⟨_, _, ?_, effect⟩
  have got : (a'.readSpot (s.loadAs kind) f nm place.2.1 sp).1 = x := by rw [after.scratch, read]
  unfold Run.stepLoad
  rw [srcs_lane tracks same pc m b p plain below, scalar_lane same, loadAccess_lane tracks same, all]
  dsimp only
  rw [guarded, on, active]
  have address := address_lane after same pc m b p e (s.loadAs kind) at_ (s.reg base) v
  have spot := spot_lane after pc m b p (s.loadAs kind) ((f.bits + 7) / 8) place.1 true false false place.2.2
  rw [hl] at address
  have spot' := spot.trans found
  have st : (laneRun u pc m b a' l' p).st.gm = s.me.gm := gm
  cases kind with
  | chunk k => exact absurd rfl (whole k)
  | plain | first | tagged q =>
    dsimp only
    rw [address]
    simp only [st, hf, hn, spot']
    rw [show (laneRun u pc m b a' l' p).s = a' from rfl, got]
    rfl

/-- An element that fails its checks ends the load (R169), or is a fault (R166). -/
theorem stepLoad_fails (whole : ∀ k, kind ≠ .chunk k) (plain : ∀ c ∈ m.bound, s.me.streamed c.reg = false)
    (below : e < s.countFor m) (active : s.active e = true) {v : List Nat} (all : s.operands m e = .val v) {c : Cause} {va : Int}
    {note : Note} (fails : (t.guardSeen e).elementSpot (s.loadAs kind) at_ (s.reg base) v e false = .error (.bad c va note)) :
    ∃ a' l', (laneRun u pc m b a l p).stepLoad 0 e m at_ base kind
        = (if kind = .first ∧ p.seen = true ∧ (c = .notPresent ∨ c = .permission) then
            some (laneRun u pc m b a' l' { p with n := some e, cut := some e })
          else some ((laneRun u pc m b a' l' p).hit 0 e c (BitVec.ofInt 64 va) note))
      ∧ Tracks s u a' l' (t.guardSeen e) := by
  obtain ⟨a', l', guarded, after⟩ := tracks.guarded same pc m b p e
  have on := after.active same pc m b p e
  have me : (t.guardSeen e).me = s.me := after.recorded.me
  have gm : u.me.gm = s.me.gm := same.gm
  unfold State.elementSpot at fails
  rw [me] at fails
  generalize hf : s.me.gm.fmtA = f at fails
  generalize hl : (t.guardSeen e).elementAt (s.loadAs kind) at_ (s.reg base) v e = place at fails
  refine ⟨a', l', ?_, after⟩
  unfold Run.stepLoad
  rw [srcs_lane tracks same pc m b p plain below, scalar_lane same, loadAccess_lane tracks same, all]
  dsimp only
  rw [guarded, on, active]
  have address := address_lane after same pc m b p e (s.loadAs kind) at_ (s.reg base) v
  have spot := spot_lane after pc m b p (s.loadAs kind) ((f.bits + 7) / 8) place.1 true false false place.2.2
  rw [hl] at address
  have spot' := spot.trans fails
  have st : (laneRun u pc m b a' l' p).st.gm = s.me.gm := gm
  cases kind with
  | chunk k => exact absurd rfl (whole k)
  | plain | first | tagged q =>
    dsimp only
    rw [address]
    simp only [st, hf, spot']
    rfl

end

end Sys2Proof.Machine
end

section
/-! PROOFS. The loop of a lone member with one result: how it begins, ends and stops, and the loop of a vector load (R130, R165,
R169). -/

namespace Sys2Proof.Machine

/-! ### The first step and the last -/

section
variable {s u : State} {start : Word} (same : SameButPc s u start) (pc : Word) {m : Member} {d : CReg} {w : Nat}
  (lone : m.Lone d w) (b : Option Hit)

include same lone in
/-- The member begins with its element count. -/
theorem begins_lane (plain : ∀ c ∈ m.bound, s.me.streamed c.reg = false) (p : Prog) (fresh : p.begun = false) :
    (laneRun u pc m b u [] p).step 0 = some ((laneRun u pc m b u [] p).opens 0 m (s.countFor m)) := by
  have count : (laneRun u pc m b u [] p).minLen 0 (laneRun u pc m b u [] p).vl m.bound = .val (s.countFor m) := by
    have chain (c : CReg) : u.me.chain c = s.me.chain c := by rw [same.me]; rfl
    have len (c : Src) : u.lenOf c = s.lenOf c := by unfold State.lenOf; rw [chain]
    have vl : (laneRun u pc m b u [] p).vl = s.me.vl.toNat := by
      change u.me.vl.toNat = _
      rw [same.me]
    rw [minLen_opened (s := u) rfl m.bound (fun c hc => by
      have e := plain c hc
      unfold Strand.streamed at e ⊢
      rw [chain]
      exact e), vl]
    simp only [len]
    rfl
  have step : (laneRun u pc m b u [] p).step 0 = (laneRun u pc m b u [] p).begins 0 m := by
    have at_ : (laneRun u pc m b u [] p).ms[0]? = some m := rfl
    have prog : (laneRun u pc m b u [] p).prog 0 = p := rfl
    unfold Run.step
    rw [at_]
    dsimp only
    rw [prog, fresh]
    rfl
  rw [step]
  unfold Run.begins
  rcases lone.body with ⟨_, _, _, _, body⟩ | ⟨_, _, _, body⟩ <;>
  · rw [body]
    dsimp only
    rw [count]

variable {a : State} {l : Effects} {n k : Nat} {R : Nat → Nat × Flags} {seen : Bool} {cut : Option Nat}

/-- Its result for element `k`. -/
theorem push_lane : (laneRun u pc m b a l (laneProg n k false R seen cut)).push 0 (R k)
    = laneRun u pc m b a l (laneProg n (k + 1) false R seen cut) := by
  unfold Run.push laneRun laneProg Run.setProg Run.prog mapProg
  dsimp only [List.getD_cons_zero, List.set_cons_zero]
  congr 2
  simp [List.range_succ, raisedBelow]

include lone in
theorem step_lane (below : k < n) : (laneRun u pc m b a l (laneProg n k false R seen cut)).step 0
    = (laneRun u pc m b a l (laneProg n k false R seen cut)).element 0 k m := by
  have at_ : (laneRun u pc m b a l (laneProg n k false R seen cut)).ms[0]? = some m := rfl
  have prog : (laneRun u pc m b a l (laneProg n k false R seen cut)).prog 0 = laneProg n k false R seen cut := rfl
  have limit : (laneRun u pc m b a l (laneProg n k false R seen cut)).limit 0 m = n := by
    unfold Run.limit
    rw [lone.notComp]
    rfl
  unfold Run.step
  rw [at_]
  dsimp only
  rw [prog, limit, if_neg (by simp [laneProg, mapProg]), if_pos (show (laneProg n k false R seen cut).done < n from below)]
  rfl

include lone in
/-- After its last element it finishes. -/
theorem finishes_lane : (laneRun u pc m b a l (laneProg n n false R seen cut)).step 0
    = some (laneRun u pc m b a l (laneProg n n true R seen cut)) := by
  have at_ : (laneRun u pc m b a l (laneProg n n false R seen cut)).ms[0]? = some m := rfl
  have prog : (laneRun u pc m b a l (laneProg n n false R seen cut)).prog 0 = laneProg n n false R seen cut := rfl
  have limit : (laneRun u pc m b a l (laneProg n n false R seen cut)).limit 0 m = n := by
    unfold Run.limit
    rw [lone.notComp]
    rfl
  unfold Run.step
  rw [at_]
  dsimp only
  rw [prog, limit, if_neg (by simp [laneProg, mapProg]), if_neg (by simp [laneProg, mapProg])]
  unfold Run.finishes
  rcases lone.body with ⟨_, _, _, _, body⟩ | ⟨_, _, _, body⟩ <;>
  · rw [body]
    rfl

include lone in
theorem cands_lane : (laneRun u pc m none a l (laneProg n k false R seen cut)).cands = [(k, 0)] :=
  cands_going rfl lone.last rfl nofun

include lone in
/-- From its last element on, the loop ends with the member finished. -/
theorem loop_finishes (fuel : Nat) : Run.loop (fuel + 1) (laneRun u pc m none a l (laneProg n n false R seen cut))
    = laneRun u pc m none a l (laneProg n n true R seen cut) := by
  rw [loop_moves rfl (cands_lane pc lone) (finishes_lane pc lone none)]
  exact loop_stops rfl (cands_finished rfl rfl) fuel

end

/-- The loop may take more steps than its elements are, its beginning and its end. -/
theorem fuel_openRun {s u : State} {start : Word} (same : SameButPc s u start) (m : Member) (pc : Word) {k : Nat}
    (le : k ≤ s.countFor m) : ∃ f, (openRun u [m] [pc]).fuel = f + 3 + k := by
  have vl : (openRun u [m] [pc]).vl = s.me.vl.toNat := by
    change u.me.vl.toNat = _
    rw [same.me]
  have enough := countFor_le_vl s m
  have more : s.me.vl.toNat ≤ Nat.max s.me.vl.toNat 1024 := Nat.le_max_left ..
  have fuel : (openRun u [m] [pc]).fuel = 1 * (Nat.max s.me.vl.toNat 1024 + 3) := by
    unfold Run.fuel
    rw [vl]
    rfl
  exact ⟨(openRun u [m] [pc]).fuel - 3 - k, by omega⟩

end Sys2Proof.Machine
end

section
/-! PROOFS. The loop of a vector load: to its last element, to the element at which a `vldff` is cut, or to the fault of one
(R165, R166, R169). -/

namespace Sys2Proof.Machine

/-- What the elements of a load below `g` read: the states that they leave, and their results. -/
structure Loads (s : State) (m : Member) (at_ : Form) (base : SReg) (kind : LoadKind) (g : Nat) (σ : Nat → State)
    (R : Nat → Nat × Flags) : Prop where
  first : σ 0 = s
  body  : m.body = .load at_ base kind
  whole : ∀ k, kind ≠ .chunk k
  plain : ∀ c ∈ m.bound, s.me.streamed c.reg = false
  start : s.me.vstart = 0
  count : g ≤ s.countFor m
  each  : ∀ e, e < g → if s.active e = true then
      ∃ l, ((σ e).guardSeen e).operands m e = .val l
        ∧ ReadsElement ((σ e).guardSeen e) (σ (e + 1)) (s.loadAs kind) at_ (s.reg base) l e (R e)
    else R e = (0, 0) ∧ σ (e + 1) = (σ e).guardSeen e

/-- The operands of an element stand through reads and acquires. -/
theorem Recorded.operands {s t : State} (h : Recorded s t) (m : Member) (e : Nat) : t.operands m e = s.operands m e := by
  have k := congrArg (fun v : State => v.operands m e) h
  exact k

section
variable {s u : State} {start : Word} (same : SameButPc s u start) (pc : Word) {m : Member} {d : CReg} {w : Nat}
  (lone : m.Lone d w) {at_ : Form} {base : SReg} {kind : LoadKind} {g : Nat} {σ : Nat → State} {R : Nat → Nat × Flags}
  (loads : Loads s m at_ base kind g σ R)

/-- The run with the elements below `k` read. -/
def loadRun (s u : State) (pc : Word) (m : Member) (R : Nat → Nat × Flags) (a : State) (l : Effects) (k : Nat) : Run :=
  laneRun u pc m none a l (laneProg (s.countFor m) k false R ((List.range k).any s.active) none)

include lone in
theorem cands_load (a : State) (l : Effects) (k : Nat) : (loadRun s u pc m R a l k).cands = [(k, 0)] := cands_lane pc lone

include lone loads in
theorem step_load (a : State) (l : Effects) {k : Nat} (below : k < s.countFor m) :
    (loadRun s u pc m R a l k).step 0 = (loadRun s u pc m R a l k).stepLoad 0 k m at_ base kind := by
  refine (step_lane pc lone none below).trans ?_
  unfold Run.element
  rw [loads.body]
  rfl

include same lone loads

theorem loop_loads (fuel : Nat) : ∃ a l, Tracks s u a l (σ g)
    ∧ Run.loop (fuel + 1 + g) (openRun u [m] [pc]) = Run.loop fuel (loadRun s u pc m R a l g) := by
  have opened : (openRun u [m] [pc]).step 0 = some (loadRun s u pc m R u [] 0) := by
    refine (begins_lane same pc lone none loads.plain {} rfl).trans (congrArg some ?_)
    have vstart : (laneRun u pc m none u [] {}).vstart = 0 := by
      change u.me.vstart.toNat = 0
      rw [same.me, loads.start]
      rfl
    unfold Run.opens
    rw [vstart, lone.mwrite]
    dsimp only
    rw [show Nat.min 0 (s.countFor m) = 0 from Nat.zero_min _]
    unfold Run.oldBad
    rw [lone.dests]
    rfl
  have one : (openRun u [m] [pc]).cands = [(0, 0)] := cands_going (r := openRun u [m] [pc]) rfl lone.last rfl nofun
  obtain ⟨r, ⟨a, l, rfl, tracks⟩, loop⟩ := loop_steps (Nat.zero_le g)
    (I := fun k r => ∃ a l, r = loadRun s u pc m R a l k ∧ Tracks s u a l (σ k)) (fun k r _ below here => by
      obtain ⟨a, l, rfl, tracks⟩ := here
      refine ⟨rfl, ⟨k, cands_load pc lone a l k⟩, ?_⟩
      have inside : k < s.countFor m := Nat.lt_of_lt_of_le below loads.count
      have element := step_load (u := u) pc lone loads a l inside
      have more : (List.range (k + 1)).any s.active = ((List.range k).any s.active || s.active k) := by
        rw [List.range_succ, List.any_append, List.any_cons, List.any_nil, Bool.or_false]
      have each := loads.each k below
      rw [element]
      by_cases active : s.active k = true
      · rw [if_pos active] at each
        obtain ⟨v, all, reads⟩ := each
        rw [(tracks.recorded.trans (recorded_guardSeen (σ k) k)).operands] at all
        obtain ⟨a', l', step, after⟩ := stepLoad_read tracks same pc m none _ loads.whole loads.plain inside active all reads
        refine ⟨_, step, a', l', ?_, after⟩
        rw [push_lane]
        unfold loadRun
        rw [more, active, Bool.or_true]
        rfl
      · rw [if_neg active] at each
        obtain ⟨zero, state⟩ := each
        obtain ⟨a', l', step, after⟩ := stepLoad_idle tracks same pc m none
          (laneProg (s.countFor m) k false R ((List.range k).any s.active) none) (at_ := at_) (base := base) loads.whole
          loads.plain inside active
        refine ⟨_, step, a', l', ?_, by rw [state]; exact after⟩
        rw [← zero, push_lane]
        unfold loadRun
        rw [more, Bool.eq_false_of_not_eq_true active, Bool.or_false])
    (r := loadRun s u pc m R u [] 0) ⟨u, [], rfl, by rw [loads.first]; exact same.tracks⟩ fuel
  refine ⟨a, l, tracks, ?_⟩
  rw [show fuel + 1 + g = fuel + g + 1 by omega, loop_moves rfl one opened]
  rw [Nat.sub_zero] at loop
  exact loop

/-- A load that reaches its last element. -/
theorem loop_whole_load (all : g = s.countFor m) : ∃ a l seen, Tracks s u a l (σ g)
    ∧ Run.loop (openRun u [m] [pc]).fuel (openRun u [m] [pc]) = laneRun u pc m none a l (laneProg g g true R seen none) := by
  obtain ⟨f, fuel⟩ := fuel_openRun same m pc loads.count
  obtain ⟨a, l, tracks, loop⟩ := loop_loads same pc lone loads (f + 1 + 1)
  refine ⟨a, l, (List.range g).any s.active, tracks, ?_⟩
  rw [fuel, show f + 3 + g = f + 1 + 1 + 1 + g by omega, loop]
  unfold loadRun
  rw [← all]
  exact loop_finishes pc lone _

/-- A `vldff` that is cut. -/
theorem loop_cut_load (below : g < s.countFor m) (active : s.active g = true) {v : List Nat} (all : s.operands m g = .val v)
    {c : Cause} {va : Int} {note : Note}
    (fails : ((σ g).guardSeen g).elementSpot (s.loadAs kind) at_ (s.reg base) v g false = .error (.bad c va note))
    (cut : kind = .first ∧ (∃ e, e < g ∧ s.active e = true) ∧ (c = .notPresent ∨ c = .permission)) :
    ∃ a l seen, Tracks s u a l ((σ g).guardSeen g)
      ∧ Run.loop (openRun u [m] [pc]).fuel (openRun u [m] [pc])
        = laneRun u pc m none a l (laneProg g g true R seen (some g)) := by
  obtain ⟨f, fuel⟩ := fuel_openRun same m pc loads.count
  obtain ⟨a, l, tracks, loop⟩ := loop_loads same pc lone loads (f + 1 + 1)
  obtain ⟨a', l', step, after⟩ := stepLoad_fails tracks same pc m none
    (laneProg (s.countFor m) g false R ((List.range g).any s.active) none) loads.whole loads.plain below active all fails
  obtain ⟨first, ⟨e, less, on⟩, cause⟩ := cut
  have seen : (List.range g).any s.active = true := List.any_eq_true.2 ⟨e, List.mem_range.2 less, on⟩
  rw [if_pos ⟨first, seen, cause⟩] at step
  refine ⟨a', l', (List.range g).any s.active, after, ?_⟩
  rw [fuel, show f + 3 + g = f + 1 + 1 + 1 + g by omega, loop,
    loop_moves rfl (cands_load pc lone a l g) ((step_load pc lone loads a l below).trans step)]
  exact loop_finishes pc lone f

/-- A load that an element's fault stops. -/
theorem loop_failed_load (below : g < s.countFor m) (active : s.active g = true) {v : List Nat} (all : s.operands m g = .val v)
    {c : Cause} {va : Int} {note : Note}
    (fails : ((σ g).guardSeen g).elementSpot (s.loadAs kind) at_ (s.reg base) v g false = .error (.bad c va note))
    (fault : ¬ (kind = .first ∧ (∃ e, e < g ∧ s.active e = true) ∧ (c = .notPresent ∨ c = .permission))) :
    ∃ a l seen, Tracks s u a l ((σ g).guardSeen g)
      ∧ Run.loop (openRun u [m] [pc]).fuel (openRun u [m] [pc])
        = laneRun u pc m (some { e := g, pos := 0, at_ := g, cause := c, eval := BitVec.ofInt 64 va, note := note }) a l
          (laneProg (s.countFor m) g false R seen none) := by
  obtain ⟨f, fuel⟩ := fuel_openRun same m pc loads.count
  obtain ⟨a, l, tracks, loop⟩ := loop_loads same pc lone loads (f + 1 + 1)
  obtain ⟨a', l', step, after⟩ := stepLoad_fails tracks same pc m none
    (laneProg (s.countFor m) g false R ((List.range g).any s.active) none) loads.whole loads.plain below active all fails
  rw [if_neg fun ⟨first, seen, cause⟩ => fault ⟨first, by
    obtain ⟨e, he, on⟩ := List.any_eq_true.1 seen
    exact ⟨e, List.mem_range.1 he, on⟩, cause⟩] at step
  refine ⟨a', l', (List.range g).any s.active, after, ?_⟩
  rw [fuel, show f + 3 + g = f + 1 + 1 + 1 + g by omega, loop,
    loop_moves rfl (cands_load pc lone a l g) ((step_load pc lone loads a l below).trans step)]
  exact loop_stops rfl (cands_reached rfl rfl rfl (Nat.le_refl g)) _

end

end Sys2Proof.Machine
end

section
/-! PROOFS. A lone member's run with one result that a fault stops: where it stops, and what it leaves there (R106, R133, R289). -/

namespace Sys2Proof.Machine

/-- Run `r` of lone member `m`, opened in `u` at element 0, has handled `k` of its `n` elements with the results `R`. -/
structure Run.Lane (r : Run) (u : State) (m : Member) (n k : Nat) (R : Nat → Nat × Flags) : Prop where
  st     : r.st = u.me
  start  : r.st.vstart = 0
  live   : r.st.redlive = 0
  ms     : r.ms = [m]
  prog   : ∃ fin seen cut, r.prog 0 = laneProg n k fin R seen cut

section
variable {r : Run} {u : State} {m : Member} {d : CReg} {w n k : Nat} {R : Nat → Nat × Flags} (lane : r.Lane u m n k R)
  (lone : m.Lone d w)

include lane

theorem Run.Lane.vstart : r.vstart = 0 := by
  unfold Run.vstart
  rw [lane.start]
  rfl

theorem Run.Lane.range : List.range r.ms.length = [0] := by rw [lane.ms]; rfl

theorem Run.Lane.get : r.ms[0]? = some m := by rw [lane.ms]; rfl

theorem Run.Lane.count : (r.prog 0).n = some n := by
  obtain ⟨fin, seen, cut, prog⟩ := lane.prog
  rw [prog]
  rfl

include lone

/-! ### The precise point -/

theorem Run.Lane.gran : r.gran = 4096 / m.counts.foldl Nat.max 0 := by
  have some_ : m.counts.foldl Nat.max 0 ≠ 0 :=
    (Nat.lt_of_lt_of_le (formatWidths_pos lone.width) lone.counts).ne'
  unfold Run.gran
  rw [lane.ms, List.flatMap_singleton]
  exact congrArg (4096 / ·) (if_neg some_)

theorem Run.Lane.whole : r.whole = false := by
  unfold Run.whole
  rw [lane.ms, List.any_cons, lone.notComp]
  rfl

theorem Run.Lane.fits {v : Nat} (le : v ≤ n) : r.fits u.myPool.size v = true
    ↔ u.buffersFor ((v * w + 7) / 8) + (u.priorShare m d w v).length ≤ 32 := by
  have share : (if m.keepsPrior then (segsDrop ((v * w + 7) / 8) (r.st.chain d).segs).length else 0)
      = (u.priorShare m d w v).length := by
    unfold State.priorShare
    rw [lone.keepsPrior, lane.st]
    split <;> rfl
  unfold Run.fits
  rw [lane.range]
  simp only [List.all_cons, List.all_nil, Bool.and_true, lane.get, lone.last, Bool.false_or, lone.dests, lane.count,
    Option.getD_some]
  rw [show Nat.min v n = v from Nat.min_eq_left le, share]
  exact decide_eq_true_iff

/-- The precise point of a fault at element `x.at_`, of those that the member has handled. -/
theorem Run.Lane.point {x : Hit} (busy : x.idle = false) (fault : x.cause ≠ .preemption) (done : x.at_ ≤ k) (le : x.at_ ≤ n) :
    u.precise m d w x.at_ (r.point u.myPool.size x) := by
  have start := lane.vstart
  have gran := lane.gran lone
  have whole := lane.whole lone
  have completed : Nat.min x.at_ (r.completed 0 m) = x.at_ := by
    obtain ⟨fin, seen, cut, prog⟩ := lane.prog
    have e : r.completed 0 m = k := by
      unfold Run.completed
      rw [lone.notComp, start, prog]
      exact Nat.max_zero k
    rw [e]
    exact Nat.min_eq_left done
  have low : (if (r.complete 0 m || m.isMask || m.last) = true then x.at_ else Nat.min x.at_ (r.completed 0 m)) = x.at_ := by
    rw [completed]; exact ite_self _
  have early : r.early x = false := by
    unfold Run.early
    rw [start]
    exact decide_eq_false (Nat.not_lt_zero _)
  have quiet : (x.cause == .preemption) = false := by simpa using fault
  have point : r.point u.myPool.size x = r.lower u.myPool.size r.gran (x.at_ / r.gran) (x.at_ / r.gran * r.gran) := by
    unfold Run.point
    rw [whole, busy, lane.range]
    simp only [List.foldl_cons, List.foldl_nil, lane.get, if_neg fault, low, early, start, Nat.zero_div, Nat.zero_mul,
      Nat.not_lt_zero, decide_false, quiet, Bool.or_self, Bool.false_eq_true, if_false]
  have fits (v : Nat) (below : v ≤ x.at_) : r.fits u.myPool.size v = true
      ↔ u.buffersFor ((v * w + 7) / 8) + (if m.readsOld then (segsDrop ((v * w + 7) / 8) (u.segs d)).length else 0) ≤ 32 := by
    rw [lane.fits lone (below.trans le)]
    unfold State.priorShare
    split <;> rfl
  rw [point]
  unfold State.precise
  dsimp only
  rw [← gran]
  rcases Nat.eq_zero_or_pos r.gran with zero | pos
  · rw [zero]
    refine ⟨?_, ?_, ?_, fun u divides more _ => ?_⟩
    · simp [Run.lower]
    · simp [Run.lower]
    · simp [Run.lower]
    · rw [Nat.mod_zero] at divides
      omega
  · obtain ⟨j, below, found, ok, above⟩ := lower_spec r u.myPool.size r.gran pos (x.at_ / r.gran)
    rw [found]
    have le_top (q : Nat) (hq : q ≤ x.at_ / r.gran) : q * r.gran ≤ x.at_ := Nat.mul_le_of_le_div _ _ _ hq
    refine ⟨Nat.mul_mod_left .., le_top j below, ?_, fun v divides more within_ fit => ?_⟩
    · rcases ok with rfl | ok
      · exact .inl (Nat.zero_mul _)
      · exact .inr ((fits _ (le_top j below)).1 ok)
    · obtain ⟨q, rfl⟩ : ∃ q, v = q * r.gran := ⟨v / r.gran, (Nat.div_mul_cancel (Nat.dvd_of_mod_eq_zero divides)).symm⟩
      have higher : j < q := Nat.lt_of_mul_lt_mul_right more
      have reach : q ≤ x.at_ / r.gran := (Nat.le_div_iff_mul_le pos).2 within_
      have short := above q higher reach
      rcases fit with none_ | fit
      · exact absurd none_ (Nat.ne_of_gt (Nat.lt_of_le_of_lt (Nat.zero_le _) more))
      · rw [(fits _ within_).2 fit] at short
        cases short

/-- The prior chain stays whole where not even it fits at the start (log 71). -/
theorem Run.Lane.holds {x : Hit} (busy : x.idle = false) : r.holds u.myPool.size x
    = (decide (r.point u.myPool.size x = 0) && !r.fits u.myPool.size 0) := by
  have early : r.early x = false := by
    unfold Run.early
    rw [lane.vstart]
    exact decide_eq_false (Nat.not_lt_zero _)
  unfold Run.holds
  rw [lane.whole lone, busy, early, lane.vstart]
  rfl

/-! ### What is placed -/

theorem Run.Lane.placeRest {v : Nat} (le : v ≤ k) (t : Strand) :
    r.placeRest 0 m (some v) t = t.raise (flagsOf v fun e => (R e).2) := by
  obtain ⟨fin, seen, cut, prog⟩ := lane.prog
  have flags : (r.prog 0).flags.foldl
      (fun f x => if decide (x.1 < v) = true then f ||| x.2 else f) (0 : Flags) = flagsOf v fun e => (R e).2 := by
    have e := foldl_raisedBelow R v k 0
    rw [Nat.min_eq_left le] at e
    rw [prog]
    exact e.trans (by simp)
  unfold Run.placeRest
  dsimp only
  rw [lone.mwrite, lone.swrite, flags]

/-- With every prior chain kept, what was taken is given back. -/
theorem Run.Lane.places_kept {t : State} {q : Nat} {ids : List Nat} (granted : Granted u t q ids) (log : r.log = [])
    (reads : m.readsOld = true) :
    Interim u (r.places t (ids.map fun i => ({ pos := 0, k := 0, id := i } : Grant)) (some 0) true) m d w 0 R := by
  have strands : t.strands = u.strands := by have e := congrArg State.strands granted.rest; exact e
  have cur : t.cur = u.cur := by have e := congrArg State.cur granted.rest; exact e
  have me : t.me = u.me := by unfold State.me State.strand; rw [strands, cur]
  generalize hl : ids.map (fun i => ({ pos := 0, k := 0, id := i } : Grant)) = l
  have placed : r.places t l (some 0) true
      = (t.dropRefs t.myCx ((l.filter fun g => g.pos == 0).map fun g => { id := g.id, start := 0, count := 1 })).setMe
          (u.me.raise (flagsOf 0 fun e => (R e).2)) := by
    have replay : r.replay t (some 0) = t := by unfold Run.replay; rw [log]; rfl
    unfold Run.places
    rw [lane.range, replay]
    simp only [List.foldl_cons, List.foldl_nil, lane.get]
    rw [lane.placeRest lone (Nat.zero_le k)]
    unfold Run.placeMember
    rw [lone.last, if_neg Bool.false_ne_true, Bool.true_or, if_pos rfl, dropRefs_me, me]
  rw [placed]
  generalize (l.filter fun g => g.pos == 0).map (fun g => ({ id := g.id, start := 0, count := 1 } : Seg)) = drop
  have dropped := dropRefs_rest t t.myCx drop
  have mem : (t.dropRefs t.myCx drop).mem = u.mem := by
    rw [dropRefs_mem]; have e := congrArg State.mem granted.rest; exact e
  refine ⟨?_, ?_, fun q _ => ?_, ⟨[], ?_, ?_⟩, fun _ => mem⟩
  · have e := (congrArg (fun v : State => { v with cxs := u.cxs }) dropped).trans granted.rest
    exact congrArg (fun v : State => { v with strands := u.strands, mem := u.mem, poison := u.poison, badLines := u.badLines }) e
  · rw [State.me_setMe]
    rfl
  · rw [State.me_setMe]
    rfl
  · unfold State.segs State.priorShare
    rw [State.me_setMe, if_pos reads, Nat.zero_mul, List.nil_append]
    exact (segsDrop_zero (u.segs d)).symm
  · unfold pack
    split <;> rfl

end

/-- An interim chain placed: a new dense chain, the share of the prior one, and the buffers that neither needs given back. -/
def State.placeInterim (t : State) (x : Nat) (d : CReg) (g share spare : List Seg) (bs : List Byte) : State :=
  (((t.fill x g bs).addRefs x share).writeChain d (g ++ share)).dropRefs x spare

section
variable (t : State) (x : Nat) (d : CReg) (g share spare : List Seg) (bs : List Byte)

theorem placeInterim_me : (t.placeInterim x d g share spare bs).me = t.me.setChain d { segs := g ++ share } := by
  unfold State.placeInterim
  rw [dropRefs_me]
  unfold State.writeChain
  rw [dropRefs_me, State.me_setMe, addRefs_me, fill_me]

theorem sameBytes_placeInterim (y : Nat) : SameBytes y (t.fill x g bs) (t.placeInterim x d g share spare bs) :=
  ((sameBytes_addRefs ..).trans (sameBytes_writeChain ..)).trans (sameBytes_dropRefs ..)

theorem placeInterim_rest : { t.placeInterim x d g share spare bs with
    strands := t.strands, cxs := t.cxs, mem := t.mem, poison := t.poison, badLines := t.badLines } = t := by
  unfold State.placeInterim State.writeChain
  generalize hf : t.fill x g bs = f
  have one := dropRefs_rest (((f.addRefs x share).setMe ((f.addRefs x share).me.setChain d { segs := g ++ share })).dropRefs
    (f.addRefs x share).myCx ((f.addRefs x share).me.chain d).segs) x spare
  have two := dropRefs_rest ((f.addRefs x share).setMe ((f.addRefs x share).me.setChain d { segs := g ++ share }))
    (f.addRefs x share).myCx ((f.addRefs x share).me.chain d).segs
  have three := addRefs_rest f x share
  have four := (fills_fill t x g bs).rest
  rw [hf] at four
  have e := congrArg (fun v : State => { v with
    strands := t.strands, cxs := t.cxs, mem := t.mem, poison := t.poison, badLines := t.badLines }) one
  have e' := congrArg (fun v : State => { v with
    strands := t.strands, cxs := t.cxs, mem := t.mem, poison := t.poison, badLines := t.badLines }) two
  have e'' := congrArg (fun v : State => { v with
    strands := t.strands, cxs := t.cxs, mem := t.mem, poison := t.poison, badLines := t.badLines }) three
  have e''' := congrArg (fun v : State => { v with strands := t.strands }) four
  exact Eq.trans e (Eq.trans e' (Eq.trans e'' e'''))

end

section
variable {r : Run} {u : State} {m : Member} {d : CReg} {w n k : Nat} {R : Nat → Nat × Flags} (lane : r.Lane u m n k R)
  (lone : m.Lone d w)

include lane lone

/-- The places of a run that stops at `v`. -/
theorem Run.Lane.places_eq {t : State} {q v : Nat} {ids : List Nat} (granted : Granted u t q ids) (log : r.log = [])
    (le : v ≤ k) {bs : List Byte} (packed : pack w ((List.range v).map fun e => (R e).1) = bs) :
    r.places t (ids.map fun i => ({ pos := 0, k := 0, id := i } : Grant)) (some v) false
      = (t.placeInterim u.myCx d (denseSegs u.myPool.size bs.length (ids.take (u.buffersFor bs.length))) (u.priorShare m d w v)
          ((ids.drop (u.buffersFor bs.length)).map fun i => { id := i, start := 0, count := 1 }) bs).setMe
        ((t.placeInterim u.myCx d (denseSegs u.myPool.size bs.length (ids.take (u.buffersFor bs.length))) (u.priorShare m d w v)
          ((ids.drop (u.buffersFor bs.length)).map fun i => { id := i, start := 0, count := 1 }) bs).me.raise
            (flagsOf v fun e => (R e).2)) := by
  obtain ⟨fin, seen, cut, prog⟩ := lane.prog
  have cur : t.cur = u.cur := by have e := congrArg State.cur granted.rest; exact e
  have cx : t.myCx = u.myCx := by unfold State.myCx; rw [cur]
  have size : (t.pool u.myCx u.me.farPool).size = u.myPool.size := by
    unfold Pool.size State.myPool; rw [(granted.layout _).1]
  have replay : r.replay t (some v) = t := by unfold Run.replay; rw [log]; rfl
  have member : r.placeMember 0 m (ids.map fun i => ({ pos := 0, k := 0, id := i } : Grant)) (some v) false t
      = t.placeInterim u.myCx d (denseSegs u.myPool.size bs.length (ids.take (u.buffersFor bs.length))) (u.priorShare m d w v)
          ((ids.drop (u.buffersFor bs.length)).map fun i => { id := i, start := 0, count := 1 }) bs := by
    have begun : (r.prog 0).begun = true := by rw [prog]; rfl
    have far : r.st.farPool = u.me.farPool := by rw [lane.st]
    have outs : ((r.prog 0).outs.getD 0 #[]).toList.take v = (List.range v).map fun e => (R e).1 := by
      rw [prog]
      exact take_map_range v k _ le
    have prior : (if m.keepsPrior = true then segsDrop ((v * w + 7) / 8) (r.st.chain d).segs else [])
        = u.priorShare m d w v := by rw [lone.keepsPrior, lane.st]; rfl
    unfold Run.placeMember
    rw [lone.last, begun, lone.dests]
    simp only [Bool.not_true, Bool.and_false, Bool.or_self, Bool.false_eq_true, if_false, List.length_cons,
      List.length_nil, Nat.zero_add, List.range_one, List.foldl_cons, List.foldl_nil, List.getD_cons_zero]
    unfold Run.placeDest
    dsimp only
    rw [own_grants, outs, packed, cx, far, size, prior]
    rfl
  unfold Run.places
  rw [lane.range, replay]
  simp only [List.foldl_cons, List.foldl_nil, lane.get]
  rw [lane.placeRest lone le, member]

/-- The destination holds the interim chain at `v`. -/
theorem Run.Lane.places_interim {t : State} {q v : Nat} {ids : List Nat} (granted : Granted u t q ids) (log : r.log = [])
    (le : v ≤ k) (room : (v * w + 7) / 8 ≤ q * u.myPool.size) :
    Interim u (r.places t (ids.map fun i => ({ pos := 0, k := 0, id := i } : Grant)) (some v) false) m d w v R := by
  generalize packed : pack w ((List.range v).map fun e => (R e).1) = bs
  rw [lane.places_eq lone granted log le packed]
  obtain ⟨rest, ids_eq, count, layout, -, once, low, dusk⟩ := granted
  have strands : t.strands = u.strands := by have e := congrArg State.strands rest; exact e
  have cur : t.cur = u.cur := by have e := congrArg State.cur rest; exact e
  have me : t.me = u.me := by unfold State.me State.strand; rw [strands, cur]
  have size : (t.pool u.myCx u.me.farPool).size = u.myPool.size := by
    unfold Pool.size State.myPool; rw [(layout _).1]
  have place (i : Nat) : (t.pool u.myCx u.me.farPool).farPlace i = u.myPool.farPlace i := by
    unfold Pool.farPlace; rw [size, (layout _).2]; rfl
  have length : bs.length = (v * w + 7) / 8 := by
    rw [← packed, length_pack lone.width, List.length_map, List.length_range]
  have enough : u.buffersFor bs.length ≤ q := by rw [length]; exact buffers_le (size_pos _) room
  generalize hl : u.myPool.free.take (u.buffersFor bs.length) = l
  have given : ids.take (u.buffersFor bs.length) = l.map (mkId u.me.farPool) := by
    rw [ids_eq, ← List.map_take, List.take_take, Nat.min_eq_left enough, hl]
  have among : ∀ i ∈ l, i ∈ u.myPool.free := fun i hi => List.mem_of_mem_take (hl ▸ hi)
  have llen : l.length = u.buffersFor bs.length := by rw [← hl, List.length_take, Nat.min_eq_left (enough.trans count)]
  rw [given]
  generalize (ids.drop (u.buffersFor bs.length)).map (fun i => ({ id := i, start := 0, count := 1 } : Seg)) = spare
  generalize hg : denseSegs u.myPool.size bs.length (l.map (mkId u.me.farPool)) = g
  have holds : (t.fill u.myCx g bs).segBytes u.myCx g = bs := by
    have dense := segBytes_dense (s := t) (x := u.myCx) (far := u.me.farPool) (l := l) (bs := bs)
      (hl ▸ once.sublist (List.take_sublist ..)) (fun i hi => low i (among i hi)) ?_ ?_
    · rw [size, hg] at dense
      exact dense
    · intro far i hi o below
      rw [size] at below
      rw [place]
      exact dusk far i (among i hi) o below
    · rw [size, llen]
      exact le_buffers _ _ (size_pos _)
  have mine := placeInterim_me t u.myCx d g (u.priorShare m d w v) spare bs
  have same := sameBytes_placeInterim t u.myCx d g (u.priorShare m d w v) spare bs u.myCx
  have frame := placeInterim_rest t u.myCx d g (u.priorShare m d w v) spare bs
  generalize t.placeInterim u.myCx d g (u.priorShare m d w v) spare bs = z at mine same frame
  rw [mine, me]
  refine ⟨?_, ?_, fun q other => ?_, ⟨g, ?_, ?_⟩, fun near => ?_⟩
  · have e := congrArg (fun v : State => { v with strands := u.strands, cxs := u.cxs, mem := u.mem, poison := u.poison
                                                  badLines := u.badLines }) frame
    have e' := congrArg (fun v : State => { v with strands := u.strands, mem := u.mem, poison := u.poison
                                                   badLines := u.badLines }) rest
    exact e.trans e'
  · rw [State.me_setMe]
    rfl
  · rw [State.me_setMe]
    exact (Strand.chain_setChain u.me q d _).trans (if_neg other)
  · unfold State.segs
    rw [State.me_setMe]
    exact congrArg Chain.segs ((Strand.chain_setChain u.me d d _).trans (if_pos rfl))
  · rw [(same.trans (sameBytes_setMe ..)).segBytes, holds, packed]
  · have sides : ∀ a ∈ g, idFar a.id = false := by
      intro a ha
      rw [← hg] at ha
      obtain ⟨j, hj, id⟩ := List.mem_map.1 (mem_dense ha).1
      rw [← id, (idIndex_mkId u.me.farPool (low j (among j hj))).1, near]
    have mem : t.mem = u.mem := by have e := congrArg State.mem rest; exact e
    exact same.mem.trans (((fills_fill t u.myCx g bs).marks sides).1.trans mem)

/-- The prior chain stays whole for a member alone that reads it. -/
theorem Run.Lane.reads_of_holds {x : Hit} (busy : x.idle = false) (holds : r.holds u.myPool.size x = true) :
    r.point u.myPool.size x = 0 ∧ m.readsOld = true := by
  rw [lane.holds lone busy, Bool.and_eq_true] at holds
  obtain ⟨zero, unfit⟩ := holds
  refine ⟨of_decide_eq_true zero, ?_⟩
  by_contra reads
  have fits : r.fits u.myPool.size 0 = true := by
    rw [lane.fits lone (Nat.zero_le n)]
    have share : u.priorShare m d w 0 = [] := if_neg reads
    have none_ : u.buffersFor ((0 * w + 7) / 8) = 0 := by
      rw [Nat.zero_mul]
      exact Nat.div_eq_of_lt (by have := size_pos u.myPool; omega)
    rw [share, none_]
    decide
  rw [fits] at unfit
  cases unfit

/-- The interim chain at `v`, or the prior chain kept whole. -/
theorem Run.Lane.interim {t : State} {q v : Nat} {kept : Bool} {ids : List Nat} (granted : Granted u t q ids) (log : r.log = [])
    (le : v ≤ k) (room : (v * w + 7) / 8 ≤ q * u.myPool.size) (reads : kept = true → v = 0 ∧ m.readsOld = true) :
    Interim u (r.places t (ids.map fun i => ({ pos := 0, k := 0, id := i } : Grant)) (some v) kept) m d w v R := by
  cases kept with
  | true =>
      obtain ⟨rfl, old⟩ := reads rfl
      exact lane.places_kept lone granted log old
  | false => exact lane.places_interim lone granted log le room

/-! ### The trap -/

theorem Run.Lane.keepRed (v : Nat) (t : Strand) : r.keepRed v t = { t with redlive := 0 } := by
  unfold Run.keepRed
  rw [lane.range]
  rcases lone.body with ⟨_, _, _, _, body⟩ | ⟨_, _, _, body⟩ <;>
    simp only [List.foldl_cons, List.foldl_nil, lane.get, body]

theorem Run.Lane.performed (v : Nat) : r.performed v = u.me.memdone := by
  have none_ : r.stands (some v) 0 = false := by
    unfold Run.stands Run.standing
    dsimp only
    rw [lane.range]
    simp only [List.foldl_cons, List.foldl_nil, lane.get, lone.notMask, Bool.false_and, List.nil_append, List.getD_cons_zero]
  unfold Run.performed
  rw [lane.range]
  simp only [List.foldl_cons, List.foldl_nil, none_]
  exact congrArg Strand.memdone lane.st

end

end Sys2Proof.Machine
end

section
/-! PROOFS. What the interruption of a convoy leaves of the other strands, and the interruption of a lone member's run (R133, R289). -/

namespace Sys2Proof.Machine

/-! ### The other strands -/

/-- No strand but the executing one differs. -/
structure OthersKept (s t : State) : Prop where
  cur    : t.cur = s.cur
  strand : ∀ k, k ≠ s.cur → t.strand k = s.strand k

theorem OthersKept.refl (s : State) : OthersKept s s := ⟨rfl, fun _ _ => rfl⟩

theorem OthersKept.trans {s t u : State} (first : OthersKept s t) (second : OthersKept t u) : OthersKept s u :=
  ⟨second.cur.trans first.cur, fun k other =>
    (second.strand k (by rw [first.cur]; exact other)).trans (first.strand k other)⟩

theorem OthersKept.of_strands {s t : State} (cur : t.cur = s.cur) (strands : t.strands = s.strands) : OthersKept s t :=
  ⟨cur, fun k _ => congrArg (Sparse.get Strand.blank k) strands⟩

theorem othersKept_foldl {α : Type} {f : State → α → State} (each : ∀ s x, OthersKept s (f s x)) (l : List α) (s : State) :
    OthersKept s (l.foldl f s) := by
  induction l generalizing s with
  | nil => exact .refl s
  | cons x l ih => exact (each s x).trans (ih (f s x))

theorem othersKept_setMe (s : State) (t : Strand) : OthersKept s (s.setMe t) :=
  ⟨rfl, fun _ other => State.strand_setMe_ne s other t⟩

theorem othersKept_dropRefs (s : State) (x : Nat) (l : List Seg) : OthersKept s (s.dropRefs x l) :=
  .of_strands (dropRefs_cur ..) (dropRefs_strands ..)

theorem othersKept_placeDest (r : Run) (pos k : Nat) (m : Member) (d : CReg × Nat) (l : List Grant) (v : Option Nat) (s : State) :
    OthersKept s (r.placeDest pos k m d l v s) := by
  unfold Run.placeDest
  dsimp only
  refine OthersKept.trans ?_ (othersKept_dropRefs ..)
  unfold State.writeChain
  refine OthersKept.trans ?_ (othersKept_dropRefs ..)
  refine OthersKept.trans ?_ (othersKept_setMe ..)
  exact (OthersKept.of_strands (fill_cur ..) (fill_strands ..)).trans (.of_strands (addRefs_cur ..) (addRefs_strands ..))

theorem othersKept_placeMember (r : Run) (pos : Nat) (m : Member) (l : List Grant) (v : Option Nat) (kept : Bool) (s : State) :
    OthersKept s (r.placeMember pos m l v kept s) := by
  unfold Run.placeMember
  split
  · exact .refl s
  · split
    · exact othersKept_dropRefs ..
    · exact othersKept_foldl (fun _ _ => othersKept_placeDest ..) _ s

theorem Recorded.othersKept {s t : State} (h : Recorded s t) : OthersKept s t := by
  have cur := congrArg State.cur h
  have strands := congrArg State.strands h
  exact .of_strands cur strands

/-- Effects that record accesses alone do so in any selection of them. -/
theorem recorded_replay {r : Run} (each : ∀ y ∈ r.log, ∀ x, Recorded x (y.2 x)) (s : State) (v : Option Nat) :
    Recorded s (r.replay s v) := by
  unfold Run.replay
  generalize r.log = l at each
  induction l with
  | nil => exact .refl s
  | cons y l ih =>
      obtain ⟨here, later⟩ := List.forall_mem_cons.1 each
      rw [List.foldr_cons]
      refine (ih later).trans ?_
      split
      · split
        · exact here _
        · exact .refl _
      · exact here _

theorem othersKept_places {r : Run} (each : ∀ y ∈ r.log, ∀ x, Recorded x (y.2 x)) (s : State) (l : List Grant) (v : Option Nat)
    (kept : Bool) : OthersKept s (r.places s l v kept) := by
  unfold Run.places
  dsimp only
  refine ((recorded_replay each s v).othersKept.trans (othersKept_foldl (fun s q => ?_) _ _)).trans (othersKept_setMe ..)
  split
  · exact othersKept_placeMember ..
  · exact .refl s

theorem othersKept_noted (s : State) (n : Note) : OthersKept s (s.noted n) :=
  ⟨noted_cur s n, fun k _ => bare_strand (noted_bare s n) k⟩

theorem othersKept_trapIn (s : State) (r : TrapRec) : OthersKept s (s.trapIn s.cur r) := ⟨rfl, (trapIn_frame s s.cur r).1⟩

theorem othersKept_interrupt {r : Run} (each : ∀ y ∈ r.log, ∀ x, Recorded x (y.2 x)) (s : State) (l : List Grant) (start : Word)
    {h : Hit} (fault : h.cause ≠ .preemption) (v : Nat) (kept : Bool) : OthersKept s (r.interrupt s l start h v kept) := by
  unfold Run.interrupt
  dsimp only
  rw [if_neg fault]
  exact (((othersKept_places each s l (some v) kept).trans (othersKept_noted _ h.note)).trans (othersKept_setMe ..)).trans
    (othersKept_trapIn ..)

/-! ### The interruption of a lone member's run -/

theorem logs_rest (s : State) (e : LogEvent) : { s.logs e with log := s.log } = s := by
  unfold State.logs
  generalize (s.log ++ [e]).drop (s.log.length + 1 - 4096) = l
  rfl

/-- What a fault notes is a marker and a record of the log (R305, R307). -/
theorem noted_rest (s : State) (n : Note) :
    { s.noted n with log := s.log, badLines := s.badLines, poison := s.poison } = s := by
  have logs (l : List (Party × Party)) (t : State) :
      { l.foldl (fun s r => s.logs (.race r.1 r.2)) t with log := t.log } = t := by
    induction l generalizing t with
    | nil => rfl
    | cons x l ih =>
        have one := logs_rest t (.race x.1 x.2)
        have rest := ih (t.logs (.race x.1 x.2))
        rw [List.foldl_cons]
        generalize t.logs (.race x.1 x.2) = t' at one rest
        exact Eq.trans (congrArg (fun v : State => { v with log := t.log }) rest) one
  unfold State.noted
  dsimp only
  refine (congrArg (fun v : State => { v with log := s.log, badLines := s.badLines, poison := s.poison }) (logs n.rivals _)).trans ?_
  split
  · next line _ =>
    split
    · have e := logs_rest { s with badLines := s.badLines.filter (· != line), poison := line :: s.poison } (.uncorrectable line)
      exact congrArg (fun v : State => { v with badLines := s.badLines, poison := s.poison }) e
    · rfl
  · rfl

theorem sameBytes_noted (x : Nat) (s : State) (n : Note) : SameBytes x s (s.noted n) := by
  have e := noted_rest s n
  have mem := congrArg State.mem e
  have line := congrArg State.lineKey e
  have loads := congrArg State.keyLoads e
  have bytes := congrArg State.keyBytes e
  have cxs := congrArg State.cxs e
  exact .of_cxs x mem line loads bytes cxs

/-- `u` but for what its elements have recorded of themselves and what a fault has noted. -/
def State.booked (u : State) (o : Order) (p : Sparse Nat) (l : List LogEvent) : State := { u with order := o, pageUse := p, log := l }

section
variable {u : State} {o : Order} {p : Sparse Nat} {q : List LogEvent} {m : Member} {d : CReg} {w : Nat} {R : Nat → Nat × Flags}

theorem StoppedAt.of_booked {t : State} {e v : Nat} {c : Cause} {eval : Word}
    (h : StoppedAt (u.booked o p q) t m d w e v c eval R) : StoppedAt u t m d w e v c eval R := by
  obtain ⟨trap, chain, others, asked, strand, memory⟩ := h
  exact ⟨trap.of_strands rfl rfl rfl, chain, others, asked, strand, memory⟩

theorem Interim.noted {z : State} {v : Nat} (h : Interim (u.booked o p q) z m d w v R) (n : Note) :
    Interim (u.booked o p (z.noted n).log) (z.noted n) m d w v R := by
  obtain ⟨rest, strand, others, ⟨new, segs, bytes⟩, memory⟩ := h
  have same := noted_rest z n
  have me := me_noted z n
  refine ⟨?_, by rw [me]; exact strand, by rw [me]; exact others, ⟨new, ?_, ?_⟩, fun near => ?_⟩
  · have e := congrArg (fun v : State => { v with strands := u.strands, cxs := u.cxs, mem := u.mem, poison := u.poison
                                                  badLines := u.badLines, log := (z.noted n).log }) same
    have e' := congrArg (fun v : State => { v with log := (z.noted n).log }) rest
    exact Eq.trans e e'
  · have at_ : (z.noted n).segs d = z.segs d := by unfold State.segs; rw [me]
    rw [at_]
    exact segs
  · exact ((sameBytes_noted ..).segBytes new).trans bytes
  · have e := congrArg State.mem same
    exact Eq.trans e (memory near)

end

/-- A fault at an element that the member has handled, or has come to, stops it at the precise point. -/
theorem Run.Lane.stops {r : Run} {u : State} {m : Member} {d : CReg} {w n k : Nat} {R : Nat → Nat × Flags} (lane : r.Lane u m n k R)
    (lone : m.Lone d w) {x : Hit} {t : State} {q : Nat} {ids : List Nat} (busy : x.idle = false) (fault : x.cause ≠ .preemption)
    (done : x.at_ ≤ k) (le : k ≤ n) (granted : Granted u t q ids) (each : ∀ y ∈ r.log, ∀ z, Recorded z (y.2 z))
    (room : (x.at_ * w + 7) / 8 ≤ q * u.myPool.size) :
    StoppedAt u (r.interrupt t (ids.map fun i => ({ pos := 0, k := 0, id := i } : Grant)) u.me.pc x (r.point u.myPool.size x)
      (r.holds u.myPool.size x)) m d w x.e (r.point u.myPool.size x) x.cause x.eval R := by
  obtain ⟨-, below, -⟩ := lane.point lone busy fault done (done.trans le)
  generalize hv : r.point u.myPool.size x = v at below
  generalize hk : r.holds u.myPool.size x = kept
  generalize hl : ids.map (fun i => ({ pos := 0, k := 0, id := i } : Grant)) = l
  have replayed := recorded_replay each t (some v)
  generalize ht : r.replay t (some v) = t' at replayed
  have places : r.places t l (some v) kept = Run.places { r with log := [] } t' l (some v) kept := by
    rw [← ht]; rfl
  have bare : Run.Lane { r with log := [] } (u.booked t'.order t'.pageUse u.log) m n k R :=
    ⟨lane.st, lane.start, lane.live, lane.ms, lane.prog⟩
  have after : Granted (u.booked t'.order t'.pageUse u.log) t' q ids := by
    obtain ⟨rest, is, count, layout, enable, once, low, dusk⟩ := granted
    have cxs := congrArg State.cxs replayed
    have pool (far : Bool) : t'.pool u.myCx far = t.pool u.myCx far :=
      congrArg (fun c => (Sparse.get Complex.reset u.myCx c).pool far) cxs
    refine ⟨?_, is, count, fun far => ?_, ?_, once, low, dusk⟩
    · have e := congrArg (fun v : State => { v with cxs := u.cxs, order := t'.order, pageUse := t'.pageUse }) replayed
      have e' := congrArg (fun v : State => { v with order := t'.order, pageUse := t'.pageUse }) rest
      exact Eq.trans e e'
    · refine Eq.mp ?_ (layout far)
      rw [← pool]
      rfl
    · refine Eq.mp ?_ enable
      rw [← pool]
      rfl
  have interim := bare.interim lone after rfl (below.trans done)
    (le_trans (Nat.div_le_div_right (Nat.add_le_add_right (Nat.mul_le_mul_right w below) 7)) room)
    (kept := kept) fun holds => by
      rw [← hv]
      exact lane.reads_of_holds lone busy (hk.trans holds)
  rw [hl] at interim
  have placed := (interim.noted x.note).setMe_me
  rw [← places] at placed
  generalize hz : (r.places t l (some v) kept).noted x.note = z at placed
  have strand := placed.strand
  rw [State.me_setMe] at strand
  have redlive : z.me.redlive = 0 := by
    have e := congrArg Strand.redlive strand
    have live : u.me.redlive = 0 := by rw [← lane.st]; exact lane.live
    exact Eq.trans e live
  have memdone : z.me.memdone = u.me.memdone := by
    have e := congrArg Strand.memdone strand
    exact e
  have me : { r.keepRed v z.me with memdone := r.performed v } = z.me := by
    rw [lane.keepRed lone, lane.performed lone, ← memdone]
    exact congrArg (fun b => { z.me with redlive := b }) redlive.symm
  have stop := placed.stoppedAt_trap fault x.eval x.e 0 false []
  refine StoppedAt.of_booked (o := t'.order) (p := t'.pageUse) (q := z.log) ?_
  unfold Run.interrupt
  dsimp only
  rw [hz, me, if_neg fault]
  exact stop

end Sys2Proof.Machine
end

section
/-! PROOFS. The checks of a vector element fail with causes of R166 alone. -/

namespace Sys2Proof.Machine

/-- The causes with which the checks of one element fail (R166). -/
def elementCauses : List Cause := [.misaligned, .notPresent, .permission, .format, .tag, .cellStore, .race, .poison]

theorem elementCauses_busy {c : Cause} (h : c ∈ elementCauses) : c ≠ .preemption ∧ ∀ x : Hit, x.cause = c → x.idle = false := by
  unfold Hit.idle
  simp only [elementCauses, List.mem_cons, List.not_mem_nil, or_false] at h
  rcases h with rfl | rfl | rfl | rfl | rfl | rfl | rfl | rfl <;>
    exact ⟨nofun, fun x cause => by rw [cause]⟩

theorem checkLate_cause {s : State} {a : Access} {g : Page} {n : Nat} {load store covers : Bool} {c : Cause} {note : Note}
    (h : s.checkLate a g n load store covers = .bad c note) : c ∈ elementCauses := by
  unfold State.checkLate at h
  dsimp only at h
  split at h
  · cases h; decide
  split at h
  · split at h <;> cases h
    decide
  generalize (if (!a.quiet && g.covered) = true then
    (granules (s.locate a g) n).flatMap fun k => s.racers a.agent a.family k store else []) = rivals at h
  split at h
  · cases h; decide
  split at h
  · cases h; decide
  split at h
  · cases h; decide
  split at h <;> cases h
  decide

/-- Whether every failed check that `r` may be has a cause of R166. -/
def FailsAsElement (r : Except Miss Spot) : Prop := ∀ c va note, r = .error (.bad c va note) → c ∈ elementCauses

theorem failsAsElement_bad {c : Cause} (h : c ∈ elementCauses) (va : Int) (n : Note) : FailsAsElement (.error (.bad c va n)) := by
  intro c' va' n' e
  cases e
  exact h

theorem failsAsElement_late {s : State} {a : Access} {g : Page} {n : Nat} {load store covers : Bool} {va : Int}
    {k : Page → Except Miss Spot} (rest : ∀ g, FailsAsElement (k g)) :
    FailsAsElement ((s.checkLate a g n load store covers).spot va k) := by
  intro c va' note e
  cases h : s.checkLate a g n load store covers with
  | ok g' => rw [h] at e; exact rest g' c va' note e
  | bad c' n' =>
      rw [h] at e
      cases e
      exact checkLate_cause h
  | cell => rw [h] at e; cases e

theorem failsAsElement_unless {p : Prop} [Decidable p] {c : Cause} {va : Int} {n : Note} {r : Except Miss Spot}
    (h : c ∈ elementCauses) (rest : FailsAsElement r) : FailsAsElement (if p then .error (.bad c va n) else r) := by
  split
  · exact failsAsElement_bad h va n
  · exact rest

theorem failsAsElement_ok (sp : Spot) : FailsAsElement (.ok sp) := nofun

theorem bookSpot_fails (s : State) (a : Access) (g : Page) (va : Nat) (odd : Bool) : FailsAsElement (s.bookSpot a g va odd) := by
  unfold State.bookSpot
  dsimp only
  split
  · split <;> exact failsAsElement_bad (by decide) _ _
  · split
    · exact failsAsElement_bad (by decide) _ _
    · refine failsAsElement_unless (by decide) (failsAsElement_unless (by decide) (failsAsElement_unless (by decide)
        (failsAsElement_unless (by decide) ?_)))
      exact failsAsElement_late fun _ => failsAsElement_late fun _ => failsAsElement_late fun _ => failsAsElement_late fun _ =>
        failsAsElement_ok _

theorem spot_fails (s : State) (a : Access) (z : Nat) (va : Int) (load store covers : Bool) (unit : Option Nat) :
    FailsAsElement (s.spot a z va load store covers unit) := by
  unfold State.spot
  dsimp only
  generalize s.page a.part a.mode va = pg
  refine failsAsElement_unless (by decide) ?_
  cases pg with
  | none => exact failsAsElement_bad (by decide) _ _
  | some g =>
      dsimp only
      split
      · exact bookSpot_fails _ _ _ _ _
      · refine failsAsElement_unless (by decide) (failsAsElement_unless (by decide) ?_)
        split
        · exact failsAsElement_unless (by decide) (failsAsElement_late fun _ => failsAsElement_ok _)
        · refine failsAsElement_unless (by decide) ?_
          split
          · exact failsAsElement_bad (by decide) _ _
          · exact failsAsElement_late fun _ => failsAsElement_ok _

end Sys2Proof.Machine
end

section
/-! PROOFS. A lone member's run that a fault of one of its elements stops, its buffers to be had (R166, R289, R299). -/

namespace Sys2Proof.Machine

/-- The buffers that the results below a fault need. -/
theorem needs_lane {r : Run} {m : Member} {d : CReg} {w n k : Nat} {fin : Bool} {R : Nat → Nat × Flags} {seen : Bool}
    {cut : Option Nat} (ms : r.ms = [m]) (lone : m.Lone d w) (prog : r.prog 0 = laneProg n k fin R seen cut) (late : r.late = [])
    (below : ∀ x, r.best = some x → k ≤ x.e) (p : Pool) :
    r.needs p.size = (List.range (Nat.min (buffersOf p.size w k) 33)).map fun i =>
      ({ e := i * p.size * 8 / w, pos := 0, k := 0, i := i } : Need) := by
  have size : ((r.prog 0).outs.getD 0 #[]).size = k := by rw [prog, size_laneProg]
  have needs := needs_lone ms lone.last lone.dests (size := p.size)
  rw [size] at needs
  refine needs fun i hi => ?_
  have before := need_below (size_pos p) (formatWidths_pos lone.width) hi
  cases best : r.best with
  | none => unfold Run.within Run.lateHit; rw [late, best]; rfl
  | some x => exact within_of_best late best (Nat.lt_of_lt_of_le before (below x best))

section
variable {s u : State} {start : Word} (same : SameButPc s u start) {m : Member}
include same

theorem SameButPc.buffersFor (n : Nat) : u.buffersFor n = s.buffersFor n := by
  unfold State.buffersFor
  rw [same.myPool]

theorem SameButPc.segs (d : CReg) : u.segs d = s.segs d := by
  unfold State.segs
  rw [same.me]
  rfl

theorem SameButPc.precise {d : CReg} {w h v : Nat} (p : u.precise m d w h v) : s.precise m d w h v := by
  unfold State.precise at *
  dsimp only at *
  simpa only [same.buffersFor, same.segs] using p

end

/-- What an interruption at the element that a lone member has come to leaves, the buffers for the results below it granted. -/
theorem Run.Lane.stopped {r : Run} {s u v : State} {start : Word} {m : Member} {d : CReg} {w n k : Nat} {R : Nat → Nat × Flags}
    (lane : r.Lane u m n k R) (lone : m.Lone d w) (same : SameButPc s u start) {x : Hit} (busy : x.idle = false)
    (fault : x.cause ≠ .preemption) (at_ : x.at_ = x.e) (done : x.e ≤ k) (le : k ≤ n) {q : Nat} {ids : List Nat}
    (granted : Granted u v q ids) (each : ∀ y ∈ r.log, ∀ z, Recorded z (y.2 z)) (room : (x.e * w + 7) / 8 ≤ q * u.myPool.size) :
    let z := r.interrupt v (ids.map fun i => ({ pos := 0, k := 0, id := i } : Grant)) u.me.pc x (r.point u.myPool.size x)
      (r.holds u.myPool.size x)
    s.precise m d w x.e (r.point u.myPool.size x)
      ∧ StoppedAt u z m d w x.e (r.point u.myPool.size x) x.cause x.eval R ∧ ∀ j, j ≠ s.cur → z.strand j = s.strand j := by
  dsimp only
  have done' : x.at_ ≤ k := at_ ▸ done
  have precise := lane.point lone busy fault done' (done'.trans le)
  rw [at_] at precise
  refine ⟨same.precise precise, lane.stops lone busy fault done' le granted each (at_ ▸ room), fun j other => ?_⟩
  have cur : v.cur = u.cur := by
    have e := congrArg State.cur granted.rest
    exact e
  have strands : v.strands = u.strands := by
    have e := congrArg State.strands granted.rest
    exact e
  have off : j ≠ u.cur := by
    rw [same.cur]
    exact other
  have stopped := (othersKept_interrupt each v (ids.map fun i => ({ pos := 0, k := 0, id := i } : Grant)) u.me.pc fault
    (r.point u.myPool.size x) (r.holds u.myPool.size x)).strand j (by rw [cur]; exact off)
  exact stopped.trans (((OthersKept.of_strands cur strands).strand j off).trans (same.others j other))

/-- A fault at the element that the member has come to stops it at the precise point. -/
theorem settles_stopped {s u a t : State} {start : Word} {m : Member} {d : CReg} {w n k : Nat} {R : Nat → Nat × Flags} {l : Effects}
    (same : SameButPc s u start) (lone : m.Lone d w) (tracks : Tracks s u a l t) (seen : Bool)
    (turn : u.behind s.myCx s.me.farPool = s.behind s.myCx s.me.farPool) (first : s.me.vstart = 0) (live : s.me.redlive = 0)
    (buffers : s.hasBuffers (s.buffersFor ((k * w + 7) / 8))) (s0 : State) {x : Hit} (busy : x.idle = false)
    (fault : x.cause ≠ .preemption) (at_ : x.at_ = k) (element : x.e = k) (le : k ≤ n) :
    ∃ z p, (laneRun u s.me.pc m (some x) a l (laneProg n k false R seen none)).settles s0 u [] false none start = .next z
      ∧ s.precise m d w k p ∧ StoppedAt u z m d w k p x.cause x.eval R ∧ ∀ j, j ≠ s.cur → z.strand j = s.strand j := by
  generalize hr : laneRun u s.me.pc m (some x) a l (laneProg n k false R seen none) = r
  obtain ⟨enable, enough, quiet, once, low, dusk, spine⟩ := buffers
  rw [buffersFor_eq, Nat.one_mul] at enable enough
  rw [buffersFor_eq] at spine
  rw [← same.myPool] at enable enough once low dusk spine
  rw [← same.farPool] at dusk
  obtain ⟨v, taken, granted⟩ := granted_of_allocs enable enough once low dusk
  have best : r.best = some x := by rw [← hr]; rfl
  have late : r.late = [] := by rw [← hr]; rfl
  have lane : r.Lane u m n k R := by
    rw [← hr]
    exact ⟨rfl, by change u.me.vstart = 0; rw [same.me]; exact first, by change u.me.redlive = 0; rw [same.me]; exact live, rfl,
      false, seen, none, rfl⟩
  have alloc : r.allocate u false = .ok v (((u.myPool.free.take (buffersOf u.myPool.size w k)).map (mkId u.me.farPool)).map
      fun i => ({ pos := 0, k := 0, id := i } : Grant)) none := by
    have needs := needs_lane lane.ms lone (by rw [← hr]; rfl : r.prog 0 = laneProg n k false R seen none) late (fun y e => by
      rw [best] at e
      rw [← Option.some.inj e, element]) u.myPool
    have far : r.st.farPool = u.me.farPool := by rw [lane.st]
    have room : u.behind u.myCx u.me.farPool = false := by rw [same.myCx, same.farPool, turn]; exact quiet
    unfold Run.allocate
    dsimp only
    rw [far, room_alone room]
    change u.grants u.myCx u.me.farPool false r.addrs u.myPool.free.length (r.needs u.myPool.size) [] = _
    rw [needs, show Nat.min (buffersOf u.myPool.size w k) 33 = buffersOf u.myPool.size w k from
      Nat.min_eq_left (spine.trans (by decide))]
    refine (grants_eq _ _ _ _ _ _ u v [] _ (fun y hy => ?_) (by simpa using enough) (by simpa using taken)).trans rfl
    obtain ⟨j, hj, rfl⟩ := List.mem_map.1 hy
    exact ⟨Nat.lt_of_lt_of_le (List.mem_range.1 hj) spine, rfl, rfl⟩
  have settled := settles_granted (r := r) (s0 := s0) (s := u) (x := x) (pre := none) (start := start)
    (by rw [← hr]; rfl) (by rw [← hr]; rfl) alloc (judged_of_best late best)
  have size : (v.pool v.myCx r.st.farPool).size = u.myPool.size := by
    rw [lane.st]
    exact granted.size
  have pc : u.me.pc = start := by rw [same.me]
  have each : ∀ y ∈ r.log, ∀ z, Recorded z (y.2 z) := by rw [← hr]; exact tracks.each
  rw [size, ← pc] at settled
  obtain ⟨precise, stops, others⟩ := lane.stopped lone same busy fault (at_.trans element.symm) (Nat.le_of_eq element) le
    granted each (by
      rw [element]
      exact le_buffers _ _ (size_pos u.myPool))
  rw [element] at precise stops
  exact ⟨_, _, by rw [← pc]; exact settled, precise, stops, others⟩

end Sys2Proof.Machine
end

section
/-! PROOFS. Vector loads (R165, R169): one that reads all its elements, a `vldff` that is cut, and one whose element fails. -/

namespace Sys2Proof.Machine

/-- The states between the elements differ in what their reads recorded. -/
theorem Loads.recorded {s : State} {m : Member} {at_ : Form} {base : SReg} {kind : LoadKind} {g : Nat} {σ : Nat → State}
    {R : Nat → Nat × Flags} (loads : Loads s m at_ base kind g σ R) {k : Nat} (le : k ≤ g) : Recorded s (σ k) := by
  induction k with
  | zero => rw [loads.first]; exact .refl s
  | succ k ih =>
    have seen := (ih (Nat.le_of_succ_le le)).trans (recorded_guardSeen (σ k) k)
    have each := loads.each k le
    by_cases active : s.active k = true
    · rw [if_pos active] at each
      obtain ⟨_, -, sp, -, value⟩ := each
      have read := congrArg Prod.snd value
      rw [show σ (k + 1) = _ from read.symm]
      exact seen.trans (recorded_readSpot ..)
    · rw [if_neg active] at each
      rw [each.2]
      exact seen

/-- Settles O22: the load read element by element as the state in which its convoy opened lets it, then closed, cut short, or
stopped at the precise point of the element that fails. -/
theorem vectorLoads : Obligations.VectorLoads := by
  intro i x s v u m at_ base kind d w g σ R opens begins start live memdone body whole dests
  dsimp only
  intro first count each buffers
  have same := begins.same
  have turn := begins.behind s.myCx s.me.farPool
  obtain ⟨lone, few, none_, unit⟩ := load_of_memberOf opens.member body whole dests
  have plain : ∀ c ∈ m.bound, s.me.streamed c.reg = false := fun c hc =>
    opens.plain c.reg (List.mem_append_left _ (List.mem_map.2 ⟨c, List.mem_append_left _ hc, rfl⟩))
  have loads : Loads s m at_ base kind g σ R := ⟨first, body, whole, plain, start, count, each⟩
  have run := begins.exec_lone opens few (none_.trans (by decide))
  refine ⟨fun ends => ?_, fun l c va note below active operands fails fault => ?_⟩
  · rcases Nat.lt_or_eq_of_le count with below | all
    · obtain all | ⟨active, c, va, note, cut, fails⟩ := ends
      · exact absurd all (Nat.ne_of_lt below)
      have none_ : s.operands m g = .val [] := by
        unfold State.operands
        rw [unit cut.1]
        rfl
      obtain ⟨a, l, seen, tracks, loop⟩ := loop_cut_load same s.me.pc lone loads below active none_ fails cut
      obtain ⟨z, next, chain, only, strand⟩ := settles_lane same lone tracks seen (some g) turn buffers v
      rw [if_pos below, if_pos below]
      refine ⟨z, by rw [run, loop]; exact next, chain, only, ?_, strand⟩
      have e := congrArg State.mem tracks.recorded
      exact e
    · obtain ⟨a, l, seen, tracks, loop⟩ := loop_whole_load same s.me.pc lone loads all
      obtain ⟨z, next, chain, only, strand⟩ := settles_lane same lone tracks seen none turn buffers v
      have whole_ : ¬ g < s.countFor m := by rw [all]; exact Nat.lt_irrefl _
      rw [if_neg whole_, if_neg whole_]
      refine ⟨z, by rw [run, loop]; exact next, chain, only, ?_, strand⟩
      have e := congrArg State.mem tracks.recorded
      exact e
  · have known : s.operands m g = .val l :=
      ((loads.recorded (Nat.le_refl g)).trans (recorded_guardSeen (σ g) g)).operands m g ▸ operands
    have cause := spot_fails _ _ _ _ _ _ _ _ c va note fails
    obtain ⟨fault_, idle⟩ := elementCauses_busy cause
    obtain ⟨a, l', seen, tracks, loop⟩ := loop_failed_load same s.me.pc lone loads below active known fails fault
    have length : (pack w ((List.range g).map fun e => (R e).1)).length = (g * w + 7) / 8 := by
      rw [length_pack lone.width, List.length_map, List.length_range]
    rw [length] at buffers
    obtain ⟨z, p, next, precise, stops, others⟩ := settles_stopped same lone tracks seen (n := s.countFor m) (R := R) turn start live buffers v
      (x := { e := g, pos := 0, at_ := g, cause := c, eval := BitVec.ofInt 64 va, note := note }) (idle _ rfl) fault_ rfl rfl count
    exact ⟨z, p, by rw [run, loop]; exact next, precise, stops, others⟩

end Sys2Proof.Machine
end

section
/-! PROOFS. The patterns of a chain's bytes (R95, R123): element by element in its segments, and in its bytes as one number. -/

namespace Sys2Proof.Machine

/-! ### Bytes as a number -/

theorem leNat_append (k l : List Byte) : leNat (k ++ l) = leNat k + 256 ^ k.length * leNat l := by
  induction k with
  | nil => simp [leNat]
  | cons b k ih =>
      rw [List.cons_append, leNat, leNat, ih, List.length_cons, Nat.pow_succ]
      ring

theorem leNat_lt (l : List Byte) : leNat l < 256 ^ l.length := by
  induction l with
  | nil => exact Nat.one_pos
  | cons b l ih =>
      have low : b.toNat < 256 := b.isLt
      rw [leNat, List.length_cons, Nat.pow_succ]
      omega

theorem leNat_take (l : List Byte) (n : Nat) : leNat (l.take n) = leNat l % 256 ^ n := by
  have below := leNat_lt (l.take n)
  rcases Nat.le_total n l.length with le | le
  · have whole := leNat_append (l.take n) (l.drop n)
    rw [List.length_take, Nat.min_eq_left le] at below whole
    rw [List.take_append_drop] at whole
    rw [whole, Nat.add_mul_mod_self_left, Nat.mod_eq_of_lt below]
  · rw [List.take_of_length_le le] at below ⊢
    exact (Nat.mod_eq_of_lt (Nat.lt_of_lt_of_le below (Nat.pow_le_pow_right (by decide) le))).symm

theorem leNat_drop (l : List Byte) (n : Nat) : leNat (l.drop n) = leNat l / 256 ^ n := by
  rcases Nat.le_total n l.length with le | le
  · have below := leNat_lt (l.take n)
    have whole := leNat_append (l.take n) (l.drop n)
    rw [List.length_take, Nat.min_eq_left le] at below whole
    rw [List.take_append_drop] at whole
    rw [whole, Nat.add_mul_div_left _ _ (Nat.pow_pos (by decide)), Nat.div_eq_of_lt below, Nat.zero_add]
  · rw [List.drop_of_length_le le, Nat.div_eq_of_lt]
    · rfl
    · exact Nat.lt_of_lt_of_le (leNat_lt l) (Nat.pow_le_pow_right (by decide) le)

/-- Pattern `e` of `b` bits in the bytes `bs` (R95). -/
def patternAt (b : Nat) (bs : List Byte) (e : Nat) : Nat := leNat bs / 2 ^ (e * b) % 2 ^ b

/-- The bits from `r` on of a number cut above them. -/
theorem cut_bits (x : Nat) {r w n : Nat} (inside : r + w ≤ n) : x % 2 ^ n / 2 ^ r % 2 ^ w = x / 2 ^ r % 2 ^ w := by
  obtain ⟨k, rfl⟩ := Nat.exists_eq_add_of_le inside
  rw [show r + w + k = r + (w + k) by omega, Nat.pow_add, Nat.mod_mul_right_div_self, Nat.pow_add, Nat.mod_mul_right_mod]

theorem unpack_eq (b : Nat) (bs : List Byte) (n : Nat) : unpack b bs n = (List.range n).map (patternAt b bs) := rfl

theorem patternAt_take {b : Nat} (bs : List Byte) {n e : Nat} (inside : (e + 1) * b ≤ 8 * n) :
    patternAt b (bs.take n) e = patternAt b bs e := by
  unfold patternAt
  rw [leNat_take, show (256 : Nat) = 2 ^ 8 from rfl, ← Nat.pow_mul]
  exact cut_bits _ (by rw [Nat.add_mul, Nat.one_mul] at inside; exact inside)

/-- An element lies in the bytes that it takes a part of. -/
theorem element_inside {w : Nat} (hw : w ∈ formatWidths) (e : Nat) : e * w % 8 + w ≤ 8 * ((w + 7) / 8) := by
  have cases_ : w = 2 ∨ w = 4 ∨ w = 8 ∨ w = 16 ∨ w = 32 ∨ w = 64 := by simpa [formatWidths] using hw
  rcases cases_ with rfl | rfl | rfl | rfl | rfl | rfl <;> omega

/-- Pattern `e` is the same read from its own bytes. -/
theorem patternAt_slice {w : Nat} (hw : w ∈ formatWidths) (bs : List Byte) (e : Nat) :
    leNat ((bs.drop (e * w / 8)).take ((w + 7) / 8)) / 2 ^ (e * w % 8) % 2 ^ w = patternAt w bs e := by
  have split : 2 ^ (e * w) = 256 ^ (e * w / 8) * 2 ^ (e * w % 8) := by
    rw [show (256 : Nat) = 2 ^ 8 from rfl, ← Nat.pow_mul, ← Nat.pow_add]
    congr 1
    omega
  rw [leNat_take, leNat_drop, show (256 : Nat) ^ ((w + 7) / 8) = 2 ^ (8 * ((w + 7) / 8)) by rw [Nat.pow_mul],
    cut_bits _ (element_inside hw e)]
  unfold patternAt
  rw [split, Nat.div_div_eq_div_mul]

/-! ### The bytes of segments -/

theorem bufBytes_slice (s : State) (x id o : Nat) {n k j : Nat} (inside : k + j ≤ n) :
    ((s.bufBytes x id o n).drop k).take j = s.bufBytes x id (o + k) j := by
  refine List.ext_getElem ?_ fun i below below' => ?_
  · simp
    omega
  · unfold State.bufBytes
    dsimp only
    split <;> simp [Nat.add_assoc]

theorem segBytes_cons (s : State) (x : Nat) (g : Seg) (l : List Seg) :
    s.segBytes x (g :: l) = s.bufBytes x g.id g.start g.count ++ s.segBytes x l := List.flatMap_cons ..

theorem segBytes_segsTake (s : State) (x : Nat) (l : List Seg) (n : Nat) :
    s.segBytes x (segsTake n l) = (s.segBytes x l).take n := by
  induction l generalizing n with
  | nil => simp [segsTake, State.segBytes]
  | cons g l ih =>
      unfold segsTake
      rw [segBytes_cons]
      split
      · next zero => rw [zero, List.take_zero]; rfl
      split
      · next whole =>
        rw [segBytes_cons, ih, List.take_append, length_bufBytes]
        rw [List.take_of_length_le (l := s.bufBytes x g.id g.start g.count) (by rw [length_bufBytes]; exact whole)]
      · next part =>
        have below : n ≤ g.count := Nat.le_of_lt (Nat.not_le.1 part)
        rw [List.take_append_of_le_length (by rw [length_bufBytes]; exact below)]
        have slice := bufBytes_slice s x g.id g.start (n := g.count) (k := 0) (j := n) (by omega)
        rw [List.drop_zero, Nat.add_zero] at slice
        rw [slice]
        exact List.flatMap_singleton ..

/-- What `segAt` finds holds those bytes of the chain. -/
theorem segAt_bytes (s : State) (x : Nat) {l : List Seg} {o n i k off : Nat} (found : segAt o n l i = some (k, off)) :
    i ≤ k ∧ ∃ g, l[k - i]? = some g ∧ ((s.segBytes x l).drop o).take n = s.bufBytes x g.id off n := by
  induction l generalizing o i with
  | nil => cases found
  | cons g l ih =>
      rw [segBytes_cons]
      unfold segAt at found
      split at found
      · next below =>
        split at found
        · next inside =>
          obtain ⟨rfl, rfl⟩ := Prod.mk.inj (Option.some.inj found)
          refine ⟨Nat.le_refl i, g, by rw [Nat.sub_self]; rfl, ?_⟩
          rw [List.drop_append_of_le_length (by rw [length_bufBytes]; omega),
            List.take_append_of_le_length (by rw [List.length_drop, length_bufBytes]; omega)]
          exact bufBytes_slice s x g.id g.start inside
        · cases found
      · next past =>
        obtain ⟨le, h, at_, bytes⟩ := ih found
        refine ⟨Nat.le_of_succ_le le, h, ?_, ?_⟩
        · rw [← at_, show k - i = (k - (i + 1)) + 1 by omega, List.getElem?_cons_succ]
        · rw [List.drop_append, List.drop_of_length_le (by rw [length_bufBytes]; omega), List.nil_append, length_bufBytes]
          exact bytes

/-- An element that is read is the pattern of the chain's bytes. -/
theorem chainElem_pattern {s : State} {x : Nat} {l : List Seg} {f : Fmt} (hf : f.bits ∈ formatWidths) {e v : Nat}
    (read : s.chainElem x l f e = .val v) : v = patternAt f.bits (s.segBytes x l) e := by
  unfold State.chainElem at read
  split at read
  · cases read
  · next k off found =>
    obtain ⟨-, g, at_, bytes⟩ := segAt_bytes s x found
    dsimp only at read
    rw [Nat.sub_zero] at at_
    rw [at_, Option.map_some, Option.getD_some, ← bytes] at read
    split at read
    · cases read
    · rw [← Got.val.inj read, patternAt_slice hf]

/-! ### The old elements of a destination -/

/-- The elements of a destination below `vstart` that the run takes over are those that its register holds, zero where it has
none (R130). -/
theorem olds_opened {r : Run} {u : State} (st : r.st = u.me) (scratch : r.s = u) {d : CReg} {w : Nat} (hw : w ∈ formatWidths)
    {k : Nat} {v : Nat → Nat} (olds : ∀ e, e < k → u.oldElement (d, w) e = .val (v e)) :
    r.olds (d, w) k = ((List.range k).map v).toArray := by
  unfold Run.olds
  split
  · next zero => rw [zero]; rfl
  rw [st, scratch]
  dsimp only
  generalize hl : (u.me.chain d).segs = l
  generalize hc : elems (.n w) (segsLen l) = c
  have old (e : Nat) (below : e < k) : v e = if c ≤ e then 0 else patternAt w (u.segBytes u.myCx l) e := by
    have o := olds e below
    unfold State.oldElement at o
    dsimp only at o
    rw [hl, hc] at o
    split at o
    · next past => rw [if_pos past]; exact (Got.val.inj o).symm
    · next inside => rw [if_neg inside]; exact chainElem_pattern (f := .n w) hw o
  congr 1
  rw [unpack_eq]
  refine List.ext_getElem ?_ fun e below below' => ?_
  · simp
  · rw [List.getElem_map, List.getElem_range]
    rw [List.length_map, List.length_range] at below'
    rw [old e below']
    have min : Nat.min k c = Min.min k c := rfl
    by_cases past : c ≤ e
    · rw [if_pos past, List.getElem_append_right (by simp [min]; omega), List.getElem_replicate]
    · rw [if_neg past, List.getElem_append_left (by simp [min]; omega), List.getElem_map, List.getElem_range, segBytes_segsTake]
      refine patternAt_take _ ?_
      have one : e + 1 ≤ Nat.min k c := by rw [min]; omega
      have bits : (e + 1) * w ≤ Nat.min k c * w := Nat.mul_le_mul_right w one
      omega

end Sys2Proof.Machine
end

section
/-! PROOFS. The loop of a lone element-wise member from `vstart` on, under either guard (R58, R87, R90, R130). -/

namespace Sys2Proof.Machine

/-! ### The element-wise member -/

/-- An element-wise member that writes one register is a lone member of the machine. -/
theorem Elementwise.lone {m : Member} {g : Gm} (ew : Elementwise m g) {op : Nat → List Nat → Nat → Bool → Nat × Flags}
    {scal : Option (SReg × Nat)} {sel : Option MReg} {mrg : Bool} (body : m.body = .map op scal sel mrg) {d : CReg} {w : Nat}
    (dests : m.dests = [(d, w)]) : m.Lone d w :=
  ⟨dests, ew.width dests, ew.le_counts dests, ew.mwrite, ew.swrite, .inl ⟨op, scal, sel, mrg, body⟩⟩

/-! ### The guard over the elements -/

theorem guardsSeen_succ (s : State) (v k : Nat) :
    s.guardsSeen v (k + 1) = if v ≤ k then (s.guardsSeen v k).guardSeen k else s.guardsSeen v k := by
  unfold State.guardsSeen
  rw [List.range_succ, List.foldl_append]
  rfl

theorem guardsSeen_below (s : State) {v k : Nat} (le : k ≤ v) : s.guardsSeen v k = s := by
  induction k with
  | zero => rfl
  | succ k ih => rw [guardsSeen_succ, if_neg (Nat.not_le.2 le), ih (Nat.le_of_succ_le le)]

/-! ### One element -/

section
variable {s u a t : State} {start : Word} {l : Effects} (tracks : Tracks s u a l t) (same : SameButPc s u start) (pc : Word)
  (m : Member) (b : Option Hit) (p : Prog)

include same in
theorem broadcast_lane (scal : Option (SReg × Nat)) : (laneRun u pc m b a l p).broadcast 0 scal = .val (s.scalarOf scal) := by
  refine (broadcast_opened (s := u) rfl scal).trans (congrArg Got.val ?_)
  have reg (c : SReg) : u.reg c = s.reg c := by
    unfold State.reg
    rw [same.me]
    rfl
  cases scal with
  | none => rfl
  | some x => exact congrArg (fun v : Word => v.toNat % 2 ^ x.2) (reg x.1)

include same in
theorem optBit_lane (e : Nat) (sel : Option MReg) : (laneRun u pc m b a l p).optBit 0 e sel = .val (s.selected e sel) := by
  refine (optBit_opened (s := u) rfl e sel).trans (congrArg Got.val ?_)
  unfold State.selected
  rw [same.me]
  rfl

include tracks same in
theorem oldElem_lane (d : CReg × Nat) (e : Nat) : (laneRun u pc m b a l p).oldElem d e = s.oldElement d e :=
  (oldElem_opened (r := laneRun u pc m b a l p) (s := a) (tracks.me same).symm rfl d e).trans (tracks.oldElement same d e)

include tracks same in
/-- An element is what the state in which the convoy opened gives it, the guard having been read for it. -/
theorem stepMap_lane {e : Nat} {op : Nat → List Nat → Nat → Bool → Nat × Flags} {scal : Option (SReg × Nat)} {sel : Option MReg}
    {mrg : Bool} {v : Nat × Flags} (plain : ∀ c ∈ m.bound, s.me.streamed c.reg = false) (below : e < s.countFor m)
    (value : s.mapElement m op scal sel mrg e = .val v) :
    ∃ a' l', (laneRun u pc m b a l p).stepMap 0 e m op scal sel mrg = some ((laneRun u pc m b a' l' p).push 0 v)
      ∧ Tracks s u a' l' (t.guardSeen e) := by
  obtain ⟨a', l', guarded, after⟩ := tracks.guarded same pc m b p e
  refine ⟨a', l', ?_, after⟩
  have known := operands_known s m e
  have guard := after.active same pc m b p e
  unfold Run.stepMap
  rw [srcs_lane tracks same pc m b p plain below]
  by_cases active : s.active e = true
  · cases all : s.operands m e with
    | wait => exact absurd all known.1
    | short => exact absurd all known.2
    | bad c n => rw [mapElement_bad active all] at value; cases value
    | val x =>
        rw [mapElement_active active all] at value
        dsimp only
        rw [guarded, guard, active, broadcast_lane same, optBit_lane same, ← Got.val.inj value]
        rfl
  · have idle := mapElement_idle active value
    cases all : s.operands m e with
    | wait => exact absurd all known.1
    | short => exact absurd all known.2
    | bad | val =>
        dsimp only
        rw [guarded, guard, Bool.eq_false_of_not_eq_true active]
        rcases idle with ⟨rfl, rfl⟩ | ⟨rfl, w, old, rfl⟩
        · rfl
        · rw [oldElem_lane after same, old]
          rfl

end

/-! ### All elements -/

/-- The elements of lone element-wise member `m`, which begins at `vstart`: `R` (R130). -/
structure Maps (s : State) (m : Member) (d : CReg) (w : Nat) (R : Nat → Nat × Flags) : Prop where
  lone  : m.Lone d w
  plain : ∀ c ∈ m.bound, s.me.streamed c.reg = false
  value : ∃ op scal sel mrg, m.body = .map op scal sel mrg ∧ ∀ e, e < s.countFor m →
    if e < s.me.vstart.toNat then s.oldElement (d, w) e = .val (R e).1 ∧ (R e).2 = 0
    else s.mapElement m op scal sel mrg e = .val (R e)

theorem raisedBelow_none {R : Nat → Nat × Flags} {k : Nat} (none_ : ∀ e, e < k → (R e).2 = 0) : raisedBelow R k = [] := by
  induction k with
  | zero => rfl
  | succ k ih => rw [raisedBelow, if_pos (none_ k (Nat.lt_succ_self k)), ih fun e he => none_ e (Nat.lt_succ_of_lt he)]

section
variable {s u : State} {start : Word} (same : SameButPc s u start) (pc : Word) {m : Member} {d : CReg} {w : Nat}
  {R : Nat → Nat × Flags} (maps : Maps s m d w R)
include same maps

/-- The member begins with the elements below `vstart` as its register holds them (R90, R130). -/
theorem begins_maps : (openRun u [m] [pc]).step 0 = some (laneRun u pc m none u []
    (laneProg (s.countFor m) (Min.min s.me.vstart.toNat (s.countFor m)) false R false none)) := by
  obtain ⟨lone, plain, op, scal, sel, mrg, -, value⟩ := maps
  generalize hk : Min.min s.me.vstart.toNat (s.countFor m) = k
  have old (e : Nat) (below : e < k) : s.oldElement (d, w) e = .val (R e).1 ∧ (R e).2 = 0 := by
    have here := value e (by omega)
    rwa [if_pos (by omega)] at here
  have tracks := same.tracks
  have vstart : (laneRun u pc m none u [] {}).vstart = s.me.vstart.toNat := by
    change u.me.vstart.toNat = _
    rw [same.me]
  have good : (laneRun u pc m none u [] {}).oldBad m k = none := by
    unfold Run.oldBad
    rw [List.findSome?_eq_none_iff]
    intro e he
    rw [lone.dests]
    simp only [List.findSome?_cons, List.findSome?_nil, oldElem_lane tracks same, (old e (List.mem_range.1 he)).1]
  have olds : (laneRun u pc m none u [] {}).olds (d, w) k = ((List.range k).map fun e => (R e).1).toArray :=
    olds_opened (u := u) rfl rfl lone.width fun e he => (tracks.oldElement same (d, w) e).trans (old e he).1
  refine (begins_lane same pc lone none plain {} rfl).trans (congrArg some ?_)
  unfold Run.opens
  rw [vstart, lone.mwrite, show Nat.min s.me.vstart.toNat (s.countFor m) = k from hk]
  dsimp only
  rw [good, lone.dests]
  dsimp only
  rw [List.map_singleton, olds]
  unfold laneProg mapProg
  rw [raisedBelow_none fun e he => (old e he).2]
  rfl

/-- The member takes its elements to the last. -/
theorem loop_maps : ∃ a l, Tracks s u a l (s.guardsSeen s.me.vstart.toNat (s.countFor m))
    ∧ Run.loop (openRun u [m] [pc]).fuel (openRun u [m] [pc])
      = laneRun u pc m none a l (laneProg (s.countFor m) (s.countFor m) true R false none) := by
  have begins := begins_maps same pc maps
  obtain ⟨lone, plain, op, scal, sel, mrg, body, value⟩ := maps
  obtain ⟨f, fuel⟩ := fuel_openRun same m pc (Nat.le_refl (s.countFor m))
  have some_ : Min.min s.me.vstart.toNat (s.countFor m) ≤ s.countFor m := Nat.min_le_right ..
  obtain ⟨r, ⟨a, l, rfl, tracks⟩, loop⟩ := loop_steps some_
    (I := fun k r => ∃ a l, r = laneRun u pc m none a l (laneProg (s.countFor m) k false R false none)
      ∧ Tracks s u a l (s.guardsSeen s.me.vstart.toNat k)) (fun k r past below here => by
      obtain ⟨a, l, rfl, tracks⟩ := here
      refine ⟨rfl, ⟨k, cands_lane pc lone⟩, ?_⟩
      have late : s.me.vstart.toNat ≤ k := by omega
      have here := value k below
      rw [if_neg (Nat.not_lt.2 late)] at here
      obtain ⟨a', l', step, after⟩ := stepMap_lane tracks same pc m none (laneProg (s.countFor m) k false R false none)
        plain below here
      refine ⟨_, (step_lane pc lone none below).trans ?_, a', l', rfl, ?_⟩
      · unfold Run.element
        rw [body]
        dsimp only
        rw [step, push_lane]
      · rw [guardsSeen_succ, if_pos late]
        exact after)
    (r := laneRun u pc m none u [] (laneProg (s.countFor m) (Min.min s.me.vstart.toNat (s.countFor m)) false R false none))
    ⟨u, [], rfl, by rw [guardsSeen_below s (Nat.min_le_left ..)]; exact same.tracks⟩
    (f + 1 + Min.min s.me.vstart.toNat (s.countFor m) + 1)
  refine ⟨a, l, tracks, ?_⟩
  have one : (openRun u [m] [pc]).cands = [(0, 0)] := cands_going (r := openRun u [m] [pc]) rfl lone.last rfl nofun
  rw [fuel, show f + 3 + s.countFor m = f + 1 + Min.min s.me.vstart.toNat (s.countFor m) + 1
    + (s.countFor m - Min.min s.me.vstart.toNat (s.countFor m)) + 1 by omega, loop_moves rfl one begins, loop]
  exact loop_finishes pc lone _

end

end Sys2Proof.Machine
end

section
/-! PROOFS. A lone element-wise member that closes its convoy, or whose result needs more than 32 segments (R130, R133, R299). -/

namespace Sys2Proof.Machine

/-! ### Buffers granted one after another -/

/-- The grant that answers a need. -/
def Need.grant (n : Need) (id : Nat) : Grant := { pos := n.pos, k := n.k, id := id }

/-- Needs that the pool can meet are met first, each with the next buffer. -/
theorem grants_append (x : Nat) (far fails : Bool) (addrs : List Word) (room : Nat) (l k : List Need) (s s' : State)
    (acc : List Grant) (ids : List Nat) (small : ∀ n ∈ l, n.i < 32) (enough : l.length ≤ room)
    (taken : s.allocs x far l.length = .ok (ids, s')) : s.grants x far fails addrs room (l ++ k) acc
      = s'.grants x far fails addrs (room - l.length) k (acc ++ List.zipWith Need.grant l ids) := by
  induction l generalizing s acc ids room with
  | nil =>
      obtain ⟨rfl, rfl⟩ := Prod.mk.inj (Except.ok.inj taken)
      simp
  | cons n l ih =>
      obtain ⟨room, rfl⟩ : ∃ j, room = j + 1 := ⟨room - 1, by rw [List.length_cons] at enough; omega⟩
      have here := small n List.mem_cons_self
      rw [List.length_cons, State.allocs] at taken
      rw [List.cons_append]
      conv_lhs => unfold State.grants
      dsimp only
      rw [if_neg (Nat.not_le.2 here)]
      cases one : s.alloc x far with
      | error e => rw [one] at taken; cases taken
      | ok v =>
          rw [one] at taken
          rw [enable_of_alloc one, Bool.not_true, if_neg Bool.false_ne_true]
          dsimp only at taken ⊢
          cases more : v.2.allocs x far l.length with
          | error e => rw [more] at taken; cases taken
          | ok z =>
              rw [more] at taken
              obtain ⟨rfl, rfl⟩ := Prod.mk.inj (Except.ok.inj taken)
              rw [ih room v.2 _ _ (fun z hz => small z (List.mem_cons_of_mem _ hz))
                (by rw [List.length_cons] at enough; omega) more]
              rw [List.zipWith_cons_cons, List.append_assoc, List.length_cons, Nat.add_sub_add_right]
              rfl

/-- A chain's 33rd segment is refused (R122). -/
theorem grants_refused (s : State) (x : Nat) (far fails : Bool) (addrs : List Word) (room : Nat) {n : Need} (k : List Need)
    (acc : List Grant) (past : 32 ≤ n.i) : s.grants x far fails addrs room (n :: k) acc = .ok s acc
      (some { e := n.e, pos := n.pos, at_ := n.e, cause := .spine, eval := addrs.getD n.pos 0 }) := by
  unfold State.grants
  exact if_pos past

theorem grant_one (l : List Need) (ids : List Nat) (one : ∀ n ∈ l, n.pos = 0 ∧ n.k = 0) (length : l.length = ids.length) :
    List.zipWith Need.grant l ids = ids.map fun i => ({ pos := 0, k := 0, id := i } : Grant) := by
  induction l generalizing ids with
  | nil =>
      obtain rfl := List.length_eq_zero_iff.1 length.symm
      rfl
  | cons n l ih =>
      obtain ⟨i, ids, rfl⟩ := List.exists_cons_of_length_eq_add_one length.symm
      obtain ⟨pos, k⟩ := one n List.mem_cons_self
      rw [List.zipWith_cons_cons, ih ids (fun z hz => one z (List.mem_cons_of_mem _ hz)) (Nat.succ.inj length), List.map_cons]
      unfold Need.grant
      rw [pos, k]

/-- The fault of a lone member whose result needs more than 32 segments: it stands at the element that the 33rd would hold. -/
def spineHit (pc : Word) (size w : Nat) : Hit :=
  { e := 32 * size * 8 / w, pos := 0, at_ := 32 * size * 8 / w, cause := .spine, eval := pc }

/-- All elements have been handled, and the result does not fit (R130, R133). -/
theorem settles_spine {s u a t : State} {start : Word} {m : Member} {d : CReg} {w n : Nat} {R : Nat → Nat × Flags} {l : Effects}
    (same : SameButPc s u start) (lone : m.Lone d w) (tracks : Tracks s u a l t)
    (turn : u.behind s.myCx s.me.farPool = s.behind s.myCx s.me.farPool) (first : s.me.vstart = 0) (live : s.me.redlive = 0)
    (long : 32 < s.buffersFor ((n * w + 7) / 8)) (buffers : s.hasBuffers 32) (s0 : State) :
    ∃ z p, (laneRun u s.me.pc m none a l (laneProg n n true R false none)).settles s0 u [] false none start = .next z
      ∧ s.precise m d w (32 * s.myPool.size * 8 / w) p ∧ StoppedAt u z m d w (32 * s.myPool.size * 8 / w) p .spine s.me.pc R
      ∧ ∀ j, j ≠ s.cur → z.strand j = s.strand j := by
  generalize hr : laneRun u s.me.pc m none a l (laneProg n n true R false none) = r
  obtain ⟨enable, enough, quiet, once, low, dusk, -⟩ := buffers
  rw [Nat.one_mul] at enable enough
  rw [buffersFor_eq] at long
  rw [← same.myPool] at enable enough once low dusk long ⊢
  rw [← same.farPool] at dusk
  obtain ⟨v, taken, granted⟩ := granted_of_allocs enable enough once low dusk
  generalize hx : spineHit s.me.pc u.myPool.size w = x
  have element : x.e = 32 * u.myPool.size * 8 / w := by rw [← hx]; rfl
  have best : (r.hitAt x).best = some x := by rw [← hr]; rfl
  have late : (r.hitAt x).late = [] := by rw [← hr]; rfl
  have lane : Run.Lane (r.hitAt x) u m n n R := by
    rw [← hr]
    exact ⟨rfl, by change u.me.vstart = 0; rw [same.me]; exact first, by change u.me.redlive = 0; rw [same.me]; exact live, rfl,
      true, false, none, rfl⟩
  have below : x.e < n := by
    rw [element]
    exact need_below (size_pos u.myPool) (formatWidths_pos lone.width) long
  have alloc : r.allocate u false = .ok v (((u.myPool.free.take 32).map (mkId u.me.farPool)).map
      fun i => ({ pos := 0, k := 0, id := i } : Grant)) (some x) := by
    have needs := needs_lane (r := r) (by rw [← hr]; rfl) lone (by rw [← hr]; rfl : r.prog 0 = laneProg n n true R false none)
      (by rw [← hr]; rfl) (fun y e => by rw [← hr] at e; cases e) u.myPool
    have far : r.st.farPool = u.me.farPool := by rw [← hr]; rfl
    have addrs : r.addrs = [s.me.pc] := by rw [← hr]; rfl
    have room : u.behind u.myCx u.me.farPool = false := by rw [same.myCx, same.farPool, turn]; exact quiet
    rw [show Nat.min (buffersOf u.myPool.size w n) 33 = 33 from Nat.min_eq_right long, List.range_succ, List.map_append] at needs
    have met := grants_append u.myCx u.me.farPool false [s.me.pc] u.myPool.free.length
      ((List.range 32).map fun i => ({ e := i * u.myPool.size * 8 / w, pos := 0, k := 0, i := i } : Need))
      [{ e := 32 * u.myPool.size * 8 / w, pos := 0, k := 0, i := 32 }] u v [] (small := fun y hy => by
        obtain ⟨j, hj, rfl⟩ := List.mem_map.1 hy
        exact List.mem_range.1 hj) (by simpa using enough) (ids := (u.myPool.free.take 32).map (mkId u.me.farPool))
      (by rw [List.length_map, List.length_range]; exact taken)
    rw [grant_one _ _ (fun y hy => by
      obtain ⟨j, -, rfl⟩ := List.mem_map.1 hy
      exact ⟨rfl, rfl⟩) (by simp [Nat.min_eq_left enough])] at met
    unfold Run.allocate
    dsimp only
    rw [far, room_alone room, addrs]
    change u.grants u.myCx u.me.farPool false [s.me.pc] u.myPool.free.length (r.needs u.myPool.size) [] = _
    rw [needs]
    refine met.trans ((grants_refused v _ _ _ _ _ [] _ (Nat.le_refl 32)).trans ?_)
    rw [← hx]
    rfl
  have settled := settles_refused (r := r) (s0 := s0) (s := u) (x := x) (pre := none) (start := start)
    (by rw [← hr]; rfl) (by rw [← hr]; rfl) alloc rfl (judged_of_best late best)
  have size : (v.pool v.myCx (r.hitAt x).st.farPool).size = u.myPool.size := by
    rw [lane.st]
    exact granted.size
  have pc : u.me.pc = start := by rw [same.me]
  have each : ∀ y ∈ (r.hitAt x).log, ∀ z, Recorded z (y.2 z) := by rw [← hr]; exact tracks.each
  have far : r.st.farPool = (r.hitAt x).st.farPool := by rw [← hr]; rfl
  rw [far, size, ← pc] at settled
  obtain ⟨precise, stops, others⟩ := lane.stopped lone same (x := x) (by rw [← hx]; rfl) (by rw [← hx]; exact nofun)
    (by rw [← hx]; rfl) below.le (Nat.le_refl n) granted each (by
      rw [element]
      have whole : 32 * u.myPool.size * 8 / w * w ≤ 32 * u.myPool.size * 8 := Nat.div_mul_le_self ..
      omega)
  rw [element] at precise stops
  have cause : x.cause = .spine ∧ x.eval = s.me.pc := by rw [← hx]; exact ⟨rfl, rfl⟩
  rw [cause.1, cause.2] at stops
  exact ⟨_, _, by rw [← pc]; exact settled, precise, stops, others⟩

/-- O16 of an instruction alone in its convoy: it begins, takes its elements, and closes or is refused its 33rd segment. -/
theorem elementwise_alone {i x : Instr} {s v u : State} {m : Member} {op : Nat → List Nat → Nat → Bool → Nat × Flags}
    {scal : Option (SReg × Nat)} {sel : Option MReg} {mrg : Bool} {d : CReg} {w : Nat} {R : Nat → Nat × Flags}
    (ew : elementwise i = true) (opens : Opens i s m) (begins : Begins i s x v u) (body : m.body = .map op scal sel mrg)
    (dests : m.dests = [(d, w)]) (value : ∀ e, e < s.countFor m →
      if e < s.me.vstart.toNat then s.oldElement (d, w) e = .val (R e).1 ∧ (R e).2 = 0
      else s.mapElement m op scal sel mrg e = .val (R e)) :
    let n := s.countFor m
    let bs := pack w ((List.range n).map fun e => (R e).1)
    (s.hasBuffers (s.buffersFor bs.length) →
      ∃ t, exec x v = .next t ∧ NewChain s t d bs ∧ PoolsOnly s (s.guardsSeen s.me.vstart.toNat n) t 1 bs.length
        ∧ { t.me with chains := s.me.chains, cdirty := s.me.cdirty } =
            Strand.closed { s.me with fflags := s.me.fflags ||| flagsOf n fun e => (R e).2 } (s.me.pc + 4))
    ∧ (32 < s.buffersFor bs.length → s.hasBuffers 32 → s.me.vstart.toNat = 0 → s.me.redlive = 0 →
      ∃ t p, exec x v = .next t ∧ s.precise m d w (32 * s.myPool.size * 8 / w) p
        ∧ StoppedAt u t m d w (32 * s.myPool.size * 8 / w) p .spine s.me.pc R ∧ ∀ k, k ≠ s.cur → t.strand k = s.strand k) := by
  dsimp only
  have same := begins.same
  have turn := begins.behind s.myCx s.me.farPool
  have kind := elementwise_of_memberOf ew opens.member
  have lone := kind.lone body dests
  have plain : ∀ c ∈ m.bound, s.me.streamed c.reg = false := fun c hc =>
    opens.plain c.reg (List.mem_append_left _ (List.mem_map.2 ⟨c, List.mem_append_left _ hc, rfl⟩))
  have run := begins.exec_lone opens (by rw [kind.loads]; decide) (by rw [kind.stores]; decide)
  obtain ⟨a, l, tracks, loop⟩ := loop_maps same s.me.pc ⟨lone, plain, op, scal, sel, mrg, body, value⟩
  refine ⟨fun buffers => ?_, fun long buffers first live => ?_⟩
  · obtain ⟨z, next, chain, only, strand⟩ := settles_lane same lone tracks false none turn buffers v
    exact ⟨z, by rw [run, loop]; exact next, chain, only, strand⟩
  · have length : (pack w ((List.range (s.countFor m)).map fun e => (R e).1)).length = (s.countFor m * w + 7) / 8 := by
      rw [length_pack lone.width, List.length_map, List.length_range]
    rw [length] at long
    obtain ⟨z, p, next, precise, stops, others⟩ := settles_spine same lone tracks turn
      (BitVec.eq_of_toNat_eq first) live long buffers v
    exact ⟨z, p, by rw [run, loop]; exact next, precise, stops, others⟩

end Sys2Proof.Machine
end

section
/-! PROOFS. The results of element-wise operations are patterns of their format (R95, R101-R105, R140-R142). -/

namespace Sys2Proof.Machine

/-! ### Writing a value to a format -/

/-- The bits of `f` beside its sign. -/
def Fmt.magBits (f : Fmt) : Nat := if f.spec.signed then f.bits - 1 else f.bits

/-- The NaN and the magnitudes of `f` are patterns of it and leave room for the sign: of a format with a code (R58). -/
structure Fmt.Bounded (f : Fmt) : Prop where
  some_ : 0 < f.bits
  nan   : f.nan < 2 ^ f.bits
  sign  : f.isInt = false → f.spec.ieee = true → f.spec.signed = true
  mag   : f.isInt = false → ∀ inf, f.maxMag inf < 2 ^ f.magBits
  top   : f.isInt = false → ∀ inf, f.spec.ieee = true ∨ inf = true → f.maxMag inf + 1 < 2 ^ f.magBits

theorem bounded_ofCode (c : BitVec 5) : ((Fmt.ofCode c.toNat).getD (.i 8)).Bounded := by
  have facts : ∀ c : BitVec 5, let f := (Fmt.ofCode c.toNat).getD (.i 8)
      0 < f.bits ∧ f.nan < 2 ^ f.bits ∧ (f.isInt = false → f.spec.ieee = true → f.spec.signed = true)
        ∧ (f.isInt = false → ∀ inf, f.maxMag inf < 2 ^ f.magBits)
        ∧ (f.isInt = false → ∀ inf, f.spec.ieee = true ∨ inf = true → f.maxMag inf + 1 < 2 ^ f.magBits) := by decide +kernel
  obtain ⟨some_, nan, sign, mag, top⟩ := facts c
  exact ⟨some_, nan, sign, mag, top⟩

theorem bounded_fp32 : Fmt.fp32.Bounded := bounded_ofCode 14

theorem Gm.fmtA_bounded (g : Gm) : g.fmtA.Bounded := bounded_ofCode g.fa

theorem Gm.fmtB_bounded (g : Gm) : g.fmtB.Bounded := bounded_ofCode g.fb

/-- A choice between two bounded patterns. -/
theorem fst_ite_lt {c : Prop} [Decidable c] {x y : Nat × Flags} {n : Nat} (hx : c → x.1 < n) (hy : ¬ c → y.1 < n) :
    (if c then x else y).1 < n := by
  split
  · next yes => exact hx yes
  · next no => exact hy no

section
variable {f : Fmt} (h : f.Bounded) (nm : NumMode)
include h

omit h in
theorem intTo_lt (sat : Bool) (v : Int) : (intTo f sat v).1 < 2 ^ f.bits := by
  have some_ : ((2 ^ f.bits : Nat) : Int) ≠ 0 := by exact_mod_cast (Nat.two_pow_pos f.bits).ne'
  have cut (x : Int) : (x % (2 ^ f.bits : Nat)).toNat < 2 ^ f.bits := by
    have low := Int.emod_nonneg x some_
    have high := Int.emod_lt_of_pos x (b := (2 ^ f.bits : Nat)) (by exact_mod_cast Nat.two_pow_pos f.bits)
    omega
  unfold intTo
  exact fst_ite_lt (fun _ => cut _) fun _ => cut _

variable (float : f.isInt = false)
include float

omit float in
theorem signed_lt {neg : Bool} {mag : Nat} (room : mag < 2 ^ f.magBits) (sign : neg = true → f.spec.signed = true) :
    f.signed neg mag < 2 ^ f.bits := by
  have double : 2 ^ f.bits = 2 ^ (f.bits - 1) + 2 ^ (f.bits - 1) := by
    have e := Nat.pow_succ (n := 2) (m := f.bits - 1)
    rw [Nat.succ_eq_add_one, Nat.sub_add_cancel h.some_] at e
    omega
  unfold Fmt.signed
  unfold Fmt.magBits at room
  cases neg with
  | true =>
      rw [if_pos (sign rfl)] at room
      rw [if_pos rfl]
      omega
  | false =>
      rw [if_neg Bool.false_ne_true]
      split at room <;> omega

theorem zeroOf_lt (neg : Bool) : zeroOf f neg < 2 ^ f.bits := by
  unfold zeroOf
  split
  · next ieee => exact signed_lt h (Nat.two_pow_pos _) fun _ => h.sign float ieee
  · exact Nat.two_pow_pos _

omit float in
theorem negIntoUnsigned_lt : (negIntoUnsigned f nm).1 < 2 ^ f.bits := by
  unfold negIntoUnsigned
  dsimp only
  split
  · exact Nat.two_pow_pos _
  · exact h.nan

theorem overflow_lt (mode : Rnd) {neg : Bool} (sign : neg = true → f.spec.signed = true) :
    (overflow f nm mode neg).1 < 2 ^ f.bits := by
  have big := signed_lt h (h.mag float nm.inf) sign
  unfold overflow
  dsimp only
  split
  · exact big
  split
  · next ieee =>
    split
    · exact big
    · exact big
    · exact big
    · exact signed_lt h (h.top float nm.inf (.inl ieee)) sign
  split
  · next inf => exact signed_lt h (h.top float nm.inf (.inr inf)) sign
  · exact h.nan

theorem infTo_lt (neg : Bool) : (infTo f nm neg).1 < 2 ^ f.bits := by
  unfold infTo
  split
  · next ieee => exact signed_lt h (h.top float nm.inf (.inl ieee)) fun _ => h.sign float ieee
  split
  · exact negIntoUnsigned_lt h nm
  next fits =>
  have sign : neg = true → f.spec.signed = true := fun minus => by
    by_contra unsigned
    exact fits ⟨minus, unsigned⟩
  split
  · next inf => exact signed_lt h (h.top float nm.inf (.inr inf)) sign
  · dsimp only
    split
    · exact signed_lt h (h.mag float nm.inf) sign
    · exact h.nan

theorem roundRat_lt (mode : Rnd) (neg : Bool) (num den : Nat) (e : Int) : (roundRat f nm mode neg num den e).1 < 2 ^ f.bits := by
  unfold roundRat
  refine fst_ite_lt (fun _ => zeroOf_lt h float neg) fun _ => fst_ite_lt (fun _ => negIntoUnsigned_lt h nm) fun fits => ?_
  have sign : neg = true → f.spec.signed = true := fun minus => by
    by_contra unsigned
    exact fits ⟨minus, unsigned⟩
  exact fst_ite_lt (fun _ => overflow_lt h nm float mode sign) fun le =>
    signed_lt h (Nat.lt_of_le_of_lt (Nat.not_lt.1 le) (h.mag float nm.inf)) sign

theorem roundVal_lt (mode : Rnd) (v : Val) : (roundVal f nm mode v).1 < 2 ^ f.bits := by
  cases v with
  | nan s => exact h.nan
  | inf neg => exact infTo_lt h nm float neg
  | fin neg m e =>
      unfold roundVal
      dsimp only
      split
      · exact zeroOf_lt h float neg
      · exact roundRat_lt h nm float mode neg m 1 e

theorem divVal_lt (x y : Val) : (divVal f nm x y).1 < 2 ^ f.bits := by
  unfold divVal
  split
  · exact h.nan
  · exact h.nan
  · exact h.nan
  · exact infTo_lt h nm float _
  · exact zeroOf_lt h float _
  split
  · split
    · exact h.nan
    · exact infTo_lt h nm float _
  split
  · exact zeroOf_lt h float _
  · exact roundRat_lt h nm float ..

end

/-! ### The operations -/

section
variable {f : Fmt} (h : f.Bounded) (fb : Fmt) (nm : NumMode) (a b d : Nat)
include h

theorem writeVal_lt (r : Val × Bool) : (writeVal f nm r).1 < 2 ^ f.bits := by
  unfold writeVal
  split
  · exact h.nan
  split
  · exact intTo_lt ..
  · next float => exact roundVal_lt h nm (by simpa using float) ..

theorem fuse_lt (x : Val) (p : Val × Bool) : (fuse f nm x p).1 < 2 ^ f.bits := by
  unfold fuse
  split
  · exact h.nan
  split
  · exact h.nan
  · exact writeVal_lt h ..

theorem opFma_lt : (opFma f fb nm a b d).1 < 2 ^ f.bits := by
  unfold opFma
  dsimp only
  split
  · exact h.nan
  · exact fuse_lt h ..

theorem opFms_lt : (opFms f fb nm a b d).1 < 2 ^ f.bits := by
  unfold opFms
  dsimp only
  split
  · exact h.nan
  · exact fuse_lt h ..

theorem opDiv_lt : (opDiv f fb nm a b).1 < 2 ^ f.bits := by
  unfold opDiv
  split
  · split
    · exact Nat.sub_lt (Nat.two_pow_pos _) Nat.one_pos
    · exact intTo_lt ..
  · next float => exact divVal_lt h nm (by simpa using float) ..

theorem opMinMax_lt (least : Bool) : (opMinMax least f fb nm a b).1 < 2 ^ f.bits := by
  unfold opMinMax
  dsimp only
  split
  · exact intTo_lt ..
  · next float => exact roundVal_lt h nm (by simpa using float) ..

omit h in
theorem opShift_lt (kind : Nat) : (opShift kind f fb a b).1 < 2 ^ f.bits := by
  have some_ := Nat.two_pow_pos f.bits
  unfold opShift
  dsimp only
  split
  · split
    · exact some_
    · exact Nat.mod_lt _ some_
  · split
    · exact some_
    · exact Nat.lt_of_le_of_lt (Nat.div_le_self ..) (Nat.mod_lt _ some_)
  · split
    · split
      · exact Nat.sub_lt some_ Nat.one_pos
      · exact some_
    · have high := Int.emod_lt_of_pos (signedOf f.bits (a % 2 ^ f.bits) / (2 ^ (fb.int b).toNat : Nat)) (b := (2 ^ f.bits : Nat))
        (by exact_mod_cast some_)
      have low := Int.emod_nonneg (signedOf f.bits (a % 2 ^ f.bits) / (2 ^ (fb.int b).toNat : Nat)) (b := (2 ^ f.bits : Nat))
        (by exact_mod_cast some_.ne')
      omega

omit h in
theorem opFsh_lt : (opFsh f fb a b d).1 < 2 ^ f.bits := Nat.mod_lt _ (Nat.two_pow_pos _)

omit h in
theorem opBext_lt : (opBext f fb a b).1 < 2 ^ f.bits :=
  Nat.lt_of_le_of_lt (Nat.mod_le ..) (Nat.lt_of_le_of_lt (Nat.div_le_self ..) (Nat.mod_lt _ (Nat.two_pow_pos _)))

theorem opAbs_lt : (opAbs f nm a).1 < 2 ^ f.bits := by
  unfold opAbs
  split
  · exact intTo_lt ..
  · next float => exact roundVal_lt h nm (by simpa using float) ..

theorem opNeg_lt : (opNeg f nm a).1 < 2 ^ f.bits := by
  unfold opNeg
  split
  · exact intTo_lt ..
  · next float => exact roundVal_lt h nm (by simpa using float) ..

/-- A conversion into `f` (R113). -/
theorem opCvt_lt : (opCvt fb f nm a).1 < 2 ^ f.bits := by
  unfold opCvt
  split
  · split
    · exact intTo_lt ..
    split
    · exact Nat.two_pow_pos _
    · split
      · exact intTo_lt ..
      · exact Nat.two_pow_pos _
    · exact intTo_lt ..
  · next float => exact roundVal_lt h nm (by simpa using float) ..

variable (ieee : f.isIeee = true)
include ieee

omit h in
theorem float_of_isIeee : f.isInt = false := by
  cases f with
  | i | n | ps | pu => cases ieee
  | bf16 | fp16 | fp32 => rfl

theorem opRcp_lt : (opRcp f nm a).1 < 2 ^ f.bits := divVal_lt h nm (float_of_isIeee ieee) ..

theorem opSqrt_lt : (opSqrt f nm a).1 < 2 ^ f.bits := by
  have float := float_of_isIeee ieee
  unfold opSqrt
  split
  · exact h.nan
  · split
    · exact h.nan
    · exact infTo_lt h nm float false
  · split
    · exact zeroOf_lt h float _
    split
    · exact h.nan
    · exact roundRat_lt h nm float ..

theorem opExp2_lt : (opExp2 f nm a).1 < 2 ^ f.bits := by
  have float := float_of_isIeee ieee
  have fin32 (y : Nat) (below : y < 2 ^ 32) :
      (if f = .fp32 then (y, 0) else roundVal f nm nm.rnd (Fmt.val .fp32 false y)).1 < 2 ^ f.bits := by
    split
    · next single => rw [single]; exact below
    · exact roundVal_lt h nm float ..
  unfold opExp2
  dsimp only
  split
  · exact h.nan
  · split <;> exact fin32 _ (by decide)
  · split
    · exact fin32 _ (by decide)
    split
    · exact fin32 _ (by decide)
    split
    · exact fin32 _ (roundVal_lt bounded_fp32 rneMode rfl ..)
    · exact fin32 _ (by decide)

end

theorem popCount_le (k v : Nat) : popCount k v ≤ k := by
  induction k generalizing v with
  | zero => exact Nat.le_refl 0
  | succ k ih =>
      have rest := ih (v / 2)
      unfold popCount
      omega

theorem leadZeros_le (k v : Nat) : leadZeros k v ≤ k := by
  induction k with
  | zero => exact Nat.le_refl 0
  | succ k ih =>
      unfold leadZeros
      split <;> omega

/-! ### The members -/

/-- The operands of a member: one pattern of its format for each bounding register. -/
def Member.Patterns (m : Member) (v : List Nat) : Prop := List.Forall₂ (fun c x => x < 2 ^ c.fmt.bits) m.bound v

theorem Member.Patterns.arg {m : Member} {v : List Nat} (h : m.Patterns v) {j : Nat} {c : Src} (at_ : m.bound[j]? = some c) :
    arg v j < 2 ^ c.fmt.bits := by
  unfold Member.Patterns at h
  obtain ⟨below, rfl⟩ := List.getElem?_eq_some_iff.1 at_
  have below' : j < v.length := h.length_eq ▸ below
  have e := h.get (i := j) below below'
  unfold Machine.arg
  rw [List.getD_eq_getElem _ _ below']
  exact e

/-- The result of an element-wise operation is a pattern of the member's result format. -/
theorem map_lt {i : Instr} {g : Gm} {m : Member} (ew : elementwise i = true) (member : memberOf g i = some m)
    (fits : m.fits = true) {op : Nat → List Nat → Nat → Bool → Nat × Flags} {scal : Option (SReg × Nat)} {sel : Option MReg}
    {mrg : Bool} (body : m.body = .map op scal sel mrg) {d : CReg} {w : Nat} (dests : m.dests = [(d, w)]) (e : Nat) {v : List Nat}
    (operands : m.Patterns v) {b : Nat} (scalar : ∀ a z, scal = some (a, z) → b < 2 ^ z) (t : Bool) : (op e v b t).1 < 2 ^ w := by
  have hA := g.fmtA_bounded
  have hB := g.fmtB_bounded
  have one {c : Src} {l : List Src} (bound : m.bound = c :: l) : arg v 0 < 2 ^ c.fmt.bits := operands.arg (by rw [bound]; rfl)
  have two {c c' : Src} {l : List Src} (bound : m.bound = c :: c' :: l) : arg v 1 < 2 ^ c'.fmt.bits :=
    operands.arg (by rw [bound]; rfl)
  have widthB (eq : (g.fmtA.bits == g.fmtB.bits) = true) : g.fmtB.bits = g.fmtA.bits := (beq_iff_eq.1 eq).symm
  have bothBits (ok : (bothInt g.fmtA g.fmtB && g.fmtA.bits == g.fmtB.bits) = true) : (g.fmtA.bits == g.fmtB.bits) = true :=
    (Bool.and_eq_true_iff.1 ok).2
  cases i
  case vadd | vaddScalar | vsub | vsubScalar | vmul | vmulScalar =>
    obtain rfl := Option.some.inj member
    cases body
    cases dests
    exact writeVal_lt hA ..
  case vfma | vfmaScalar =>
    obtain rfl := Option.some.inj member
    cases body
    cases dests
    exact opFma_lt hA ..
  case vfms | vfmsScalar =>
    obtain rfl := Option.some.inj member
    cases body
    cases dests
    exact opFms_lt hA ..
  case vdiv | vdivScalar =>
    obtain rfl := Option.some.inj member
    cases body
    cases dests
    exact opDiv_lt hA ..
  case vmin | vminScalar | vmax | vmaxScalar =>
    obtain rfl := Option.some.inj member
    cases body
    cases dests
    exact opMinMax_lt hA ..
  case vand | vandScalar =>
    obtain rfl := Option.some.inj member
    cases body
    cases dests
    exact Nat.lt_of_le_of_lt Nat.and_le_left (one rfl)
  case vor =>
    obtain rfl := Option.some.inj member
    cases body
    cases dests
    exact Nat.or_lt_two_pow (one rfl) (widthB (bothBits fits) ▸ two rfl)
  case vorScalar =>
    obtain rfl := Option.some.inj member
    cases body
    cases dests
    exact Nat.or_lt_two_pow (one rfl) (widthB (bothBits fits) ▸ scalar _ _ rfl)
  case vxor =>
    obtain rfl := Option.some.inj member
    cases body
    cases dests
    exact Nat.xor_lt_two_pow (one rfl) (widthB (bothBits fits) ▸ two rfl)
  case vxorScalar =>
    obtain rfl := Option.some.inj member
    cases body
    cases dests
    exact Nat.xor_lt_two_pow (one rfl) (widthB (bothBits fits) ▸ scalar _ _ rfl)
  case vshl | vshlScalar | vshr | vshrScalar | vsra | vsraScalar =>
    obtain rfl := Option.some.inj member
    cases body
    cases dests
    exact opShift_lt ..
  case vfsh | vfshScalar =>
    obtain rfl := Option.some.inj member
    cases body
    cases dests
    exact opFsh_lt ..
  case vbext | vbextScalar =>
    obtain rfl := Option.some.inj member
    cases body
    cases dests
    exact opBext_lt ..
  case vsel =>
    obtain rfl := Option.some.inj member
    cases body
    cases dests
    cases t with
    | true => exact one rfl
    | false => exact widthB fits ▸ two rfl
  case vselScalar =>
    obtain rfl := Option.some.inj member
    cases body
    cases dests
    cases t with
    | true => exact one rfl
    | false => exact widthB fits ▸ scalar _ _ rfl
  case vabs =>
    obtain rfl := Option.some.inj member
    cases body
    cases dests
    exact opAbs_lt hA ..
  case vneg =>
    obtain rfl := Option.some.inj member
    cases body
    cases dests
    exact opNeg_lt hA ..
  case vpopc =>
    obtain rfl := Option.some.inj member
    cases body
    cases dests
    exact Nat.lt_of_le_of_lt (popCount_le ..) Nat.lt_two_pow_self
  case vclz =>
    obtain rfl := Option.some.inj member
    cases body
    cases dests
    exact Nat.lt_of_le_of_lt (leadZeros_le ..) Nat.lt_two_pow_self
  case vcvt | vcvtSat =>
    obtain rfl := Option.some.inj member
    cases body
    cases dests
    exact opCvt_lt hB ..
  case vexp2 =>
    obtain rfl := Option.some.inj member
    cases body
    cases dests
    exact opExp2_lt hA _ _ fits
  case vrcp =>
    obtain rfl := Option.some.inj member
    cases body
    cases dests
    exact opRcp_lt hA _ _ fits
  case vsqrt =>
    obtain rfl := Option.some.inj member
    cases body
    cases dests
    exact opSqrt_lt hA _ _ fits
  case vidx =>
    obtain rfl := Option.some.inj member
    cases body
    cases dests
    exact fst_ite_lt (fun _ => intTo_lt ..) fun float => roundVal_lt hA _ (by simpa using float) ..
  case vmv =>
    obtain rfl := Option.some.inj member
    cases body
    cases dests
    exact one rfl
  case vmvScalar =>
    obtain rfl := Option.some.inj member
    cases body
    cases dests
    exact scalar _ _ rfl
  all_goals exact absurd ew Bool.false_ne_true

end Sys2Proof.Machine
end

section
/-! PROOFS. What an element reads of an earlier result of its convoy is what it would read of that result's bytes (R95, R130). -/

namespace Sys2Proof.Machine

/-! ### Packed patterns as digits -/

theorem ofDigits_pattern {B : Nat} (hB : 1 < B) {l : List Nat} (small : ∀ x ∈ l, x < B) (i : Nat) :
    Nat.ofDigits B l / B ^ i % B = l.getD i 0 := by
  induction l generalizing i with
  | nil => simp [Nat.ofDigits]
  | cons x l ih =>
      obtain ⟨here, more⟩ := List.forall_mem_cons.1 small
      rw [Nat.ofDigits_cons]
      cases i with
      | zero =>
          rw [Nat.pow_zero, Nat.div_one, List.getD_cons_zero]
          exact (Nat.add_mul_mod_self_left ..).trans (Nat.mod_eq_of_lt here)
      | succ i =>
          rw [List.getD_cons_succ, ← ih more, Nat.pow_succ', ← Nat.div_div_eq_div_mul]
          congr 2
          exact (Nat.add_mul_div_left _ _ (Nat.lt_of_succ_lt hB)).trans (by rw [Nat.div_eq_of_lt here, Nat.zero_add])

/-- Whole bytes: each pattern after the other. -/
theorem leNat_wide {k : Nat} (l : List Nat) (small : ∀ x ∈ l, x < 256 ^ k) :
    leNat (l.flatMap fun v => leBytes k v) = Nat.ofDigits (256 ^ k) l := by
  induction l with
  | nil => rfl
  | cons x l ih =>
      obtain ⟨here, more⟩ := List.forall_mem_cons.1 small
      rw [List.flatMap_cons, leNat_append, length_leBytes, leNat_leBytes, ih more, Nat.mod_eq_of_lt here, Nat.ofDigits_cons]

/-- Parts of bytes: the patterns of a byte, and then those of the next. -/
theorem leNat_chunks {b k : Nat} (byte : (2 ^ b) ^ k = 256) (hb : 1 < 2 ^ b) (fuel : Nat) (l : List Nat)
    (enough : l.length ≤ fuel) (small : ∀ x ∈ l, x < 2 ^ b) :
    leNat ((chunksOf k fuel l).map fun g => BitVec.ofNat 8 (g.foldr (fun v x => v % 2 ^ b + x * 2 ^ b) 0))
      = Nat.ofDigits (2 ^ b) l := by
  have some_ : 0 < k := by
    rcases Nat.eq_zero_or_pos k with rfl | pos
    · cases byte
    · exact pos
  have digits (l : List Nat) (small : ∀ x ∈ l, x < 2 ^ b) : l.foldr (fun v x => v % 2 ^ b + x * 2 ^ b) 0 = Nat.ofDigits (2 ^ b) l := by
    induction l with
    | nil => rfl
    | cons x l ih =>
        obtain ⟨here, more⟩ := List.forall_mem_cons.1 small
        rw [List.foldr_cons, ih more, Nat.mod_eq_of_lt here, Nat.ofDigits_cons, Nat.mul_comm]
  induction fuel generalizing l with
  | zero =>
      obtain rfl := List.eq_nil_of_length_eq_zero (Nat.le_zero.1 enough)
      rfl
  | succ fuel ih =>
      unfold chunksOf
      cases l with
      | nil => rfl
      | cons x l =>
          generalize hl : x :: l = m at *
          have more : m ≠ [] := by rw [← hl]; simp
          have take_small : ∀ y ∈ m.take k, y < 2 ^ b := fun y hy => small y (List.mem_of_mem_take hy)
          have low : Nat.ofDigits (2 ^ b) (m.take k) < 256 := by
            have below := Nat.ofDigits_lt_base_pow_length hb take_small
            refine Nat.lt_of_lt_of_le below ?_
            rw [← byte]
            exact Nat.pow_le_pow_right (Nat.two_pow_pos b) (List.length_take_le ..)
          rw [if_neg (by simpa using more), List.map_cons, leNat, ih _ (by
              rw [List.length_drop]
              have long : m.length ≠ 0 := by simpa using more
              omega) fun y hy => small y (List.mem_of_mem_drop hy), digits _ take_small, BitVec.toNat_ofNat, Nat.mod_eq_of_lt low]
          conv_rhs => rw [← List.take_append_drop k m, Nat.ofDigits_append]
          rcases Nat.le_total k m.length with full | part
          · rw [List.length_take, Nat.min_eq_left full, byte]
          · rw [List.drop_of_length_le part]
            simp [Nat.ofDigits]

/-- Packed patterns are the digits of the number that their bytes hold (R95). -/
theorem leNat_pack {w : Nat} (hw : w ∈ formatWidths) (l : List Nat) (small : ∀ x ∈ l, x < 2 ^ w) :
    leNat (pack w l) = Nat.ofDigits (2 ^ w) l := by
  have cases_ : w = 2 ∨ w = 4 ∨ w = 8 ∨ w = 16 ∨ w = 32 ∨ w = 64 := by simpa [formatWidths] using hw
  unfold pack
  rcases cases_ with rfl | rfl | rfl | rfl | rfl | rfl
  · exact leNat_chunks (k := 4) (by decide) (by decide) _ l (Nat.le_refl _) small
  · exact leNat_chunks (k := 2) (by decide) (by decide) _ l (Nat.le_refl _) small
  · exact leNat_wide l small
  · exact leNat_wide (k := 2) l small
  · exact leNat_wide (k := 4) l small
  · exact leNat_wide (k := 8) l small

/-! ### Elements of an earlier result -/

/-- The results that `bitsFrom` takes are digits of the number of all. -/
theorem foldl_digits {ob : Nat} (hB : 1 < 2 ^ ob) {l : List Nat} (small : ∀ x ∈ l, x < 2 ^ ob) (lo n : Nat) :
    (List.range n).foldl (fun x j => x + l.toArray.getD (lo + j) 0 * 2 ^ (j * ob)) 0
      = Nat.ofDigits (2 ^ ob) l / (2 ^ ob) ^ lo % (2 ^ ob) ^ n := by
  induction n with
  | zero => rw [Nat.pow_zero, Nat.mod_one]; rfl
  | succ n ih =>
      have digit := ofDigits_pattern hB small (lo + n)
      rw [List.range_succ, List.foldl_append, ih, List.foldl_cons, List.foldl_nil, Nat.mod_pow_succ, Nat.div_div_eq_div_mul,
        ← Nat.pow_add, digit, Nat.mul_comm n, Nat.pow_mul, Nat.mul_comm ((2 ^ ob) ^ n)]
      congr 2
      simp

theorem bitsFrom_pack {ob b : Nat} (hw : ob ∈ formatWidths) {l : List Nat} (small : ∀ x ∈ l, x < 2 ^ ob) (e : Nat) :
    bitsFrom l.toArray ob b e = patternAt b (pack ob l) e := by
  have some_ := formatWidths_pos hw
  have hB : 1 < 2 ^ ob := Nat.one_lt_two_pow some_.ne'
  unfold bitsFrom patternAt
  dsimp only
  rw [foldl_digits hB small, leNat_pack hw l small]
  generalize hlo : e * b / ob = lo
  generalize hhi : ((e + 1) * b + ob - 1) / ob = hi
  have low : lo * ob ≤ e * b := hlo ▸ Nat.div_mul_le_self ..
  have next : (e + 1) * b = e * b + b := by rw [Nat.add_mul, Nat.one_mul]
  have high : (e + 1) * b ≤ hi * ob := by
    have whole := Nat.div_add_mod ((e + 1) * b + ob - 1) ob
    have rest := Nat.mod_lt ((e + 1) * b + ob - 1) some_
    rw [hhi, Nat.mul_comm] at whole
    omega
  have inside : e * b - lo * ob + b ≤ ob * (hi - lo) := by
    rw [Nat.mul_comm ob, Nat.sub_mul]
    omega
  rw [← Nat.pow_mul, ← Nat.pow_mul, cut_bits _ inside, Nat.div_div_eq_div_mul, ← Nat.pow_add, Nat.mul_comm ob lo,
    Nat.add_sub_cancel' low]

/-- What is read of the results so far is what will be read of all. -/
theorem bitsFrom_partial (f : Nat → Nat) {ob b e j n : Nat} (le : j ≤ n)
    (enough : Nat.min (((e + 1) * b + ob - 1) / ob) n ≤ j) :
    bitsFrom ((List.range j).map f).toArray ob b e = bitsFrom ((List.range n).map f).toArray ob b e := by
  rcases Nat.lt_or_ge j n with part | whole
  · have reach : ((e + 1) * b + ob - 1) / ob ≤ j := by
      have m : Nat.min (((e + 1) * b + ob - 1) / ob) n = Min.min (((e + 1) * b + ob - 1) / ob) n := rfl
      omega
    unfold bitsFrom
    dsimp only
    have same (x : Nat) (i : Nat) (hi : i ∈ List.range (((e + 1) * b + ob - 1) / ob - e * b / ob)) :
        x + ((List.range j).map f).toArray.getD (e * b / ob + i) 0 * 2 ^ (i * ob)
          = x + ((List.range n).map f).toArray.getD (e * b / ob + i) 0 * 2 ^ (i * ob) := by
      have below := List.mem_range.1 hi
      have at_ : e * b / ob + i < j := by omega
      simp [at_, Nat.lt_trans at_ part]
    rw [List.foldl_ext _ _ _ same]
  · rw [Nat.le_antisymm le whole]

end Sys2Proof.Machine
end

section
/-! PROOFS. A convoy of element-wise members (R64, R130, R167): each waits for what earlier ones make, and what it then reads are
their results. -/

namespace Sys2Proof.Machine

/-! ### What the members read -/

/-- The bytes of result `p`. -/
def outBytes (w n : Nat → Nat) (R : Nat → Nat → Nat × Flags) (p : Nat) : List Byte :=
  pack (w p) ((List.range (n p)).map fun e => (R p e).1)

/-- The result that member `p` reads for chain register `c`: that of the earlier member which writes it, if there is one. -/
def earlierOut (d : Nat → CReg) (out : Nat → List Byte) (p : Nat) (c : CReg) : Option (List Byte) :=
  (List.range p).findSome? fun q => if d q = c then some (out q) else none

/-- Element `e` of operand `c` of member `p`. -/
def State.convoySrc (s : State) (d : Nat → CReg) (out : Nat → List Byte) (p : Nat) (c : Src) (e : Nat) : Got Nat :=
  match earlierOut d out p c.reg with
  | some bs => .val (leNat bs / 2 ^ (e * c.fmt.bits) % 2 ^ c.fmt.bits)
  | none => s.operand c e

/-- LenE of operand `c` of member `p`. -/
def State.convoyLen (s : State) (d : Nat → CReg) (out : Nat → List Byte) (p : Nat) (c : Src) : Nat :=
  match earlierOut d out p c.reg with
  | some bs => elems c.fmt bs.length
  | none => s.lenOf c

/-- Member `p` of a convoy, `m`, writes `d p` with its results. -/
structure ConvoyMember (s : State) (d : Nat → CReg) (w n : Nat → Nat) (R : Nat → Nat → Nat × Flags) (p : Nat) (m : Member) :
    Prop where
  ew    : Elementwise m s.me.gm
  dests : m.dests = [(d p, w p)]
  plain : ∀ c ∈ m.bound, s.me.streamed c.reg = false
  count : n p = m.bound.foldl (fun k c => Min.min k (s.convoyLen d (outBytes w n R) p c)) s.me.vl.toNat
  small : ∀ e, e < n p → (R p e).1 < 2 ^ w p
  value : ∃ op scal sel mrg, m.body = .map op scal sel mrg
    ∧ ∀ e, e < n p → s.mapFrom (s.convoySrc d (outBytes w n R) p) m op scal sel mrg e = .val (R p e)

/-- The members `ms` are an element-wise convoy, from element 0 under an element-mask guard. -/
structure MapConvoy (s : State) (ms : List Member) (d : Nat → CReg) (w n : Nat → Nat) (R : Nat → Nat → Nat × Flags) : Prop where
  start  : s.me.vstart = 0
  masked : s.me.gm.gk = false
  each   : ∀ p m, ms[p]? = some m → ConvoyMember s d w n R p m

/-! ### The run -/

/-- The progress of a member of `n` elements: it has not begun, has handled some, or is finished. -/
def stageProg (n : Nat) (R : Nat → Nat × Flags) : Nat → Prog
  | 0 => {}
  | j + 1 => laneProg n (Min.min j n) (decide (n < j)) R false none

theorem stageProg_going {n j : Nat} (R : Nat → Nat × Flags) (le : j ≤ n) :
    stageProg n R (j + 1) = laneProg n j false R false none := by
  change laneProg n (Min.min j n) (decide (n < j)) R false none = _
  rw [Nat.min_eq_left le, decide_eq_false (Nat.not_lt.2 le)]

theorem stageProg_done (n : Nat) (R : Nat → Nat × Flags) : stageProg n R (n + 2) = laneProg n n true R false none := by
  change laneProg n (Min.min (n + 1) n) (decide (n < n + 1)) R false none = _
  rw [Nat.min_eq_right (Nat.le_succ n), decide_eq_true (Nat.lt_succ_self n)]

/-- The convoy's run with its members at the stages `c`. -/
def convoyRun (s : State) (ms : List Member) (addrs : List Word) (n : Nat → Nat) (R : Nat → Nat → Nat × Flags) (c : Nat → Nat) :
    Run :=
  { openRun s ms addrs with progs := (List.range ms.length).map fun q => stageProg (n q) (R q) (c q) }

/-- The stages with member `p` one further. -/
def advance (c : Nat → Nat) (p : Nat) : Nat → Nat := fun q => if q = p then c q + 1 else c q

section
variable (s : State) (ms : List Member) (addrs : List Word) (n : Nat → Nat) (R : Nat → Nat → Nat × Flags) (c : Nat → Nat)

theorem convoyRun_open : openRun s ms addrs = convoyRun s ms addrs n R fun _ => 0 := by
  have progs : ms.map (fun _ => ({} : Prog)) = (List.range ms.length).map fun q => stageProg (n q) (R q) 0 :=
    List.ext_getElem (by simp) fun i _ _ => by simp [stageProg]
  unfold convoyRun
  rw [← progs]
  rfl

theorem prog_convoyRun {p : Nat} (inside : p < ms.length) :
    (convoyRun s ms addrs n R c).prog p = stageProg (n p) (R p) (c p) := by
  unfold Run.prog convoyRun
  simp [inside]

theorem setProg_convoyRun (p : Nat) (x : Prog) (next : x = stageProg (n p) (R p) (c p + 1)) :
    (convoyRun s ms addrs n R c).setProg p x = convoyRun s ms addrs n R (advance c p) := by
  unfold Run.setProg convoyRun
  dsimp only
  congr 1
  refine List.ext_getElem (by simp) fun i below _ => ?_
  rw [List.getElem_set]
  by_cases here : p = i
  · subst here
    simp [next, advance]
  · simp [here, advance, Ne.symm here]

end

/-- The first of the members before `p` that writes `c`. -/
def firstWriter (d : Nat → CReg) (p : Nat) (c : CReg) : Option Nat := (List.range p).find? fun q => decide (d q = c)

theorem findSome_ite {α : Type} (l : List Nat) (P : Nat → Prop) [DecidablePred P] (g : Nat → α) :
    l.findSome? (fun q => if P q then some (g q) else none) = (l.find? fun q => decide (P q)).map g := by
  induction l with
  | nil => rfl
  | cons q l ih =>
      rw [List.findSome?_cons, List.find?_cons]
      by_cases h : P q <;> simp [h, ih]

theorem findSome_congr {α β : Type} {f g : α → Option β} {l : List α} (same : ∀ x ∈ l, f x = g x) :
    l.findSome? f = l.findSome? g := by
  induction l with
  | nil => rfl
  | cons x l ih =>
      obtain ⟨here, more⟩ := List.forall_mem_cons.1 same
      rw [List.findSome?_cons, List.findSome?_cons, here, ih more]

theorem earlierOut_eq (d : Nat → CReg) (out : Nat → List Byte) (p : Nat) (c : CReg) :
    earlierOut d out p c = (firstWriter d p c).map out := findSome_ite (List.range p) (fun q => d q = c) out

theorem firstWriter_lt {d : Nat → CReg} {p q : Nat} {c : CReg} (h : firstWriter d p c = some q) : q < p :=
  List.mem_range.1 (List.mem_of_find?_eq_some h)

section
variable {s : State} {ms : List Member} {d : Nat → CReg} {w n : Nat → Nat} {R : Nat → Nat → Nat × Flags}
  (h : MapConvoy s ms d w n R) (addrs : List Word) (c : Nat → Nat)
include h

theorem MapConvoy.get {p : Nat} (inside : p < ms.length) : ∃ m, ms[p]? = some m ∧ ConvoyMember s d w n R p m :=
  ⟨ms[p], List.getElem?_eq_getElem inside, h.each p _ (List.getElem?_eq_getElem inside)⟩

theorem producer_convoyRun {p : Nat} (inside : p ≤ ms.length) (x : CReg) :
    (convoyRun s ms addrs n R c).producer p x = (firstWriter d p x).map fun q => (q, 0, w q) := by
  rw [← show (List.range p).findSome? (fun q => if d q = x then some (q, 0, w q) else none)
    = (firstWriter d p x).map fun q => (q, 0, w q) from findSome_ite ..]
  unfold Run.producer
  refine findSome_congr fun q hq => ?_
  obtain ⟨m, at_, member⟩ := h.get (Nat.lt_of_lt_of_le (List.mem_range.1 hq) inside)
  have ms_ : (convoyRun s ms addrs n R c).ms = ms := rfl
  rw [ms_, at_]
  dsimp only
  rw [member.dests]
  by_cases here : d q = x <;> simp [here]

/-- Whether some member before `p` has still to finish. -/
def Pending (n c : Nat → Nat) (p : Nat) : Prop := ∃ q, q < p ∧ c q < n q + 2

theorem len_convoyRun {p : Nat} {m : Member} (at_ : ms[p]? = some m) {x : Src} (hx : x ∈ m.bound) :
    (convoyRun s ms addrs n R c).len p x = .val (s.convoyLen d (outBytes w n R) p x)
      ∨ (convoyRun s ms addrs n R c).len p x = .wait ∧ Pending n c p := by
  have inside : p < ms.length := (List.getElem?_eq_some_iff.1 at_).1
  unfold Run.len State.convoyLen
  rw [producer_convoyRun h addrs c inside.le, earlierOut_eq]
  cases writer : firstWriter d p x.reg with
  | none =>
      have plain := (h.each p m at_).plain x hx
      have stream : (s.me.chain x.reg).stream = none := by
        unfold Strand.streamed at plain
        simpa using plain
      refine .inl (congrArg Got.val ?_)
      change (s.me.chain x.reg).opened x.fmt = s.lenOf x
      unfold Chain.opened
      rw [stream]
      rfl
  | some q =>
      have below := firstWriter_lt writer
      obtain ⟨m', at_', member⟩ := h.get (below.trans inside)
      have length : (outBytes w n R q).length = (n q * w q + 7) / 8 := by
        unfold outBytes
        rw [length_pack (member.ew.width member.dests), List.length_map, List.length_range]
      simp only [Option.map_some]
      rw [prog_convoyRun _ _ _ _ _ _ (below.trans inside), length]
      cases stage : c q with
      | zero => exact .inr ⟨rfl, q, below, by omega⟩
      | succ j => exact .inl rfl

theorem minLen_convoyRun {p : Nat} {m : Member} (at_ : ms[p]? = some m) {l : List Src} (sub : ∀ x ∈ l, x ∈ m.bound) (k : Nat) :
    (convoyRun s ms addrs n R c).minLen p k l
        = .val (l.foldl (fun k x => Min.min k (s.convoyLen d (outBytes w n R) p x)) k)
      ∨ (convoyRun s ms addrs n R c).minLen p k l = .wait ∧ Pending n c p := by
  induction l generalizing k with
  | nil => exact .inl rfl
  | cons x l ih =>
      unfold Run.minLen
      rcases len_convoyRun h addrs c at_ (sub x List.mem_cons_self) with known | ⟨waits, pending⟩
      · rw [known]
        exact ih (fun y hy => sub y (List.mem_cons_of_mem _ hy)) _
      · rw [waits]
        exact .inr ⟨rfl, pending⟩

omit h in
/-- An operand that no earlier member writes is read from the chain that it held when the convoy opened. -/
theorem src_kept {r : Run} (st : r.st = s.me) (scratch : r.s = s) {p : Nat} {x : Src} {e : Nat}
    (none_ : r.producer p x.reg = none) (plain : s.me.streamed x.reg = false) (below : e < s.lenOf x) :
    r.src p x e = s.operand x e := by
  have stream : (s.me.chain x.reg).stream = none := by
    unfold Strand.streamed at plain
    simpa using plain
  have data : (s.me.chain x.reg).data = (s.me.chain x.reg).segs := by unfold Chain.data; rw [stream]
  have opened : (s.me.chain x.reg).opened x.fmt = s.lenOf x := by unfold Chain.opened; rw [stream]; rfl
  have inside : (e + 1) * x.fmt.bits ≤ 8 * segsLen (s.me.chain x.reg).segs := by
    rw [Nat.mul_comm 8]
    exact Nat.mul_le_of_le_div _ _ _ below
  unfold Run.src
  rw [none_, st, scratch]
  dsimp only
  rw [opened, data, if_neg (Nat.not_le.2 below), if_pos inside]
  rfl

/-- An operand's element is the one that the finished convoy would give it, once it has been computed. -/
theorem src_convoyRun {p : Nat} {m : Member} (at_ : ms[p]? = some m) {x : Src} (hx : x ∈ m.bound) {e : Nat} (below : e < n p) :
    (convoyRun s ms addrs n R c).src p x e = s.convoySrc d (outBytes w n R) p x e
      ∨ (convoyRun s ms addrs n R c).src p x e = .wait ∧ Pending n c p := by
  have inside : p < ms.length := (List.getElem?_eq_some_iff.1 at_).1
  have member := h.each p m at_
  have len : e < s.convoyLen d (outBytes w n R) p x := by
    have le := (foldl_min_le (s.convoyLen d (outBytes w n R) p) m.bound s.me.vl.toNat).2 x hx
    rw [← member.count] at le
    omega
  unfold State.convoySrc
  unfold State.convoyLen at len
  rw [earlierOut_eq] at len ⊢
  cases writer : firstWriter d p x.reg with
  | none =>
      rw [writer] at len
      exact .inl (src_kept rfl rfl (by rw [producer_convoyRun h addrs c inside.le, writer]; rfl) (member.plain x hx) len)
  | some q =>
      rw [writer] at len
      have before := firstWriter_lt writer
      obtain ⟨m', at_', member'⟩ := h.get (before.trans inside)
      have width := member'.ew.width member'.dests
      simp only [Option.map_some] at len ⊢
      have length : (outBytes w n R q).length = (n q * w q + 7) / 8 := by
        unfold outBytes
        rw [length_pack width, List.length_map, List.length_range]
      rw [length] at len
      unfold Run.src
      rw [producer_convoyRun h addrs c inside.le, writer]
      simp only [Option.map_some]
      rw [prog_convoyRun _ _ _ _ _ _ (before.trans inside)]
      cases stage : c q with
      | zero =>
          have bits : 0 < x.fmt.bits := by
            rcases Nat.eq_zero_or_pos x.fmt.bits with zero | pos
            · unfold elems at len
              rw [zero, Nat.div_zero] at len
              exact absurd len (Nat.not_lt_zero e)
            · exact pos
          have wide : 1 ≤ ((e + 1) * x.fmt.bits + w q - 1) / w q := by
            rw [Nat.le_div_iff_mul_le (formatWidths_pos width), Nat.one_mul]
            have some_ : 0 < (e + 1) * x.fmt.bits := Nat.mul_pos (Nat.succ_pos e) bits
            omega
          exact .inr ⟨if_neg (Nat.not_le.2 wide), q, before, by omega⟩
      | succ j =>
          have count : (stageProg (n q) (R q) (j + 1)).n = some (n q) := rfl
          have outs : (stageProg (n q) (R q) (j + 1)).outs.getD 0 #[]
              = ((List.range (Min.min j (n q))).map fun e => (R q e).1).toArray := rfl
          have size : ((List.range (Min.min j (n q))).map fun e => (R q e).1).toArray.size = Min.min j (n q) := by simp
          rw [count, outs, size]
          dsimp only
          rw [if_neg (Nat.not_le.2 len)]
          split
          · next ready =>
            refine .inl (congrArg Got.val ?_)
            rw [bitsFrom_partial (fun e => (R q e).1) (Nat.min_le_right j (n q)) ready]
            refine bitsFrom_pack width (fun y hy => ?_) e
            obtain ⟨i, hi, rfl⟩ := List.mem_map.1 hy
            exact member'.small i (List.mem_range.1 hi)
          · next waits =>
            have le : Nat.min (((e + 1) * x.fmt.bits + w q - 1) / w q) (n q) ≤ n q := Nat.min_le_right ..
            exact .inr ⟨rfl, q, before, by omega⟩

omit h in
/-- Operands of which one has not come are waited for. -/
theorem gotAll_wait {l : List (Got Nat)} (waits : .wait ∈ l) : gotAll l = .wait := by
  induction l with
  | nil => exact absurd waits List.not_mem_nil
  | cons g l ih =>
      unfold gotAll
      rcases List.mem_cons.1 waits with rfl | later
      · rfl
      · rw [ih later]
        cases g <;> rfl

/-- The operands' elements, once all have been computed. -/
theorem srcs_convoyRun {p : Nat} {m : Member} (at_ : ms[p]? = some m) {e : Nat} (below : e < n p) :
    (convoyRun s ms addrs n R c).srcs p e m = gotAll (m.bound.map fun x => s.convoySrc d (outBytes w n R) p x e)
      ∨ (convoyRun s ms addrs n R c).srcs p e m = .wait ∧ Pending n c p := by
  have each := fun x (hx : x ∈ m.bound) => src_convoyRun h addrs c at_ hx below
  by_cases all : ∀ x ∈ m.bound, (convoyRun s ms addrs n R c).src p x e = s.convoySrc d (outBytes w n R) p x e
  · exact .inl (congrArg gotAll (List.map_congr_left all))
  · push Not at all
    obtain ⟨x, hx, differs⟩ := all
    obtain ⟨waits, pending⟩ := (each x hx).resolve_left differs
    exact .inr ⟨gotAll_wait (List.mem_map.2 ⟨x, hx, waits⟩), pending⟩

end

end Sys2Proof.Machine
end

section
/-! PROOFS. The loop of an element-wise convoy: some member can always go on, and each ends with its results (R130, R167). -/

namespace Sys2Proof.Machine

/-! ### One element of a member -/

theorem convoySrc_known (s : State) (d : Nat → CReg) (out : Nat → List Byte) (p : Nat) (x : Src) (e : Nat) :
    s.convoySrc d out p x e ≠ .wait ∧ s.convoySrc d out p x e ≠ .short := by
  unfold State.convoySrc
  split
  · exact ⟨nofun, nofun⟩
  · exact chainElem_known ..

section
variable {s : State} {src : Src → Nat → Got Nat} {m : Member} {op : Nat → List Nat → Nat → Bool → Nat × Flags}
  {scal : Option (SReg × Nat)} {sel : Option MReg} {mrg : Bool} {e : Nat} {v : Nat × Flags}

/-- An active element is the operation on its operands. -/
theorem mapFrom_active (active : s.active e = true) (value : s.mapFrom src m op scal sel mrg e = .val v)
    (known : gotAll (m.bound.map fun c => src c e) ≠ .wait ∧ gotAll (m.bound.map fun c => src c e) ≠ .short) :
    ∃ l, gotAll (m.bound.map fun c => src c e) = .val l ∧ v = op e l (s.scalarOf scal) (s.selected e sel) := by
  unfold State.mapFrom at value
  rw [if_pos active] at value
  cases all : gotAll (m.bound.map fun c => src c e) with
  | wait => exact absurd all known.1
  | short => exact absurd all known.2
  | bad c n => rw [all] at value; cases value
  | val l =>
      rw [all] at value
      refine ⟨l, rfl, (Got.val.inj value).symm.trans ?_⟩
      cases scal <;> cases sel <;> rfl

/-- An element that is not active is zero, or the old one under the merge bit. -/
theorem mapFrom_idle (idle : ¬ s.active e = true) (value : s.mapFrom src m op scal sel mrg e = .val v) :
    (mrg = false ∧ v = (0, 0)) ∨ (mrg = true ∧ ∃ x, s.oldElement (m.dests.headD (0, 8)) e = .val x ∧ v = (x, 0)) := by
  unfold State.mapFrom at value
  rw [if_neg idle] at value
  cases mrg with
  | false => exact .inl ⟨rfl, (Got.val.inj value).symm⟩
  | true =>
      rw [if_pos rfl] at value
      cases old : s.oldElement (m.dests.headD (0, 8)) e with
      | val x => rw [old] at value; exact .inr ⟨rfl, x, rfl, (Got.val.inj value).symm⟩
      | bad c n => rw [old] at value; cases value
      | wait => rw [old] at value; cases value
      | short => rw [old] at value; cases value

/-- A step whose operands have come takes the element. -/
theorem stepMap_known {r : Run} (st : r.st = s.me) (scratch : r.s = s) (gk : s.me.gm.gk = false) {p : Nat}
    (srcs : r.srcs p e m = gotAll (m.bound.map fun c => src c e)) (knowns : ∀ c, src c e ≠ .wait ∧ src c e ≠ .short)
    (scalar : r.broadcast p scal = .val (s.scalarOf scal)) (bit : r.optBit p e sel = .val (s.selected e sel))
    (value : s.mapFrom src m op scal sel mrg e = .val v) : r.stepMap p e m op scal sel mrg = some (r.push p v) := by
  have known : gotAll (m.bound.map fun c => src c e) ≠ .wait ∧ gotAll (m.bound.map fun c => src c e) ≠ .short := by
    refine gotAll_known _ fun g hg => ?_
    obtain ⟨c, -, rfl⟩ := List.mem_map.1 hg
    exact knowns c
  have guarded : r.guarded r.fab e = r := by
    unfold Run.guarded
    rw [st, gk]
    rfl
  unfold Run.stepMap
  rw [srcs]
  by_cases active : s.active e = true
  · obtain ⟨l, all, rfl⟩ := mapFrom_active active value known
    rw [all]
    dsimp only
    rw [guarded, active_opened st gk, if_neg (by simp [active]), scalar, bit]
  · have off : (!r.active r.fab e) = true := by rw [active_opened st gk]; simp [active]
    have idle := mapFrom_idle active value
    cases all : gotAll (m.bound.map fun c => src c e) with
    | wait => exact absurd all known.1
    | short => exact absurd all known.2
    | bad | val =>
        dsimp only
        rw [guarded, if_pos off]
        rcases idle with ⟨rfl, rfl⟩ | ⟨rfl, x, old, rfl⟩
        · rfl
        · rw [oldElem_opened st scratch, old]
          rfl

end

/-! ### One step of a member -/

section
variable {s : State} {ms : List Member} {d : Nat → CReg} {w n : Nat → Nat} {R : Nat → Nat → Nat × Flags}
  (h : MapConvoy s ms d w n R) (addrs : List Word) (c : Nat → Nat)
include h

theorem scalar_convoyRun {p : Nat} (inside : p ≤ ms.length) (x : SReg) :
    (convoyRun s ms addrs n R c).scalar p x = .val (s.reg x) := by
  unfold Run.scalar
  dsimp only
  generalize writer : List.find? _ (List.range p).reverse = q
  cases q with
  | none => rfl
  | some q =>
      have before := List.mem_range.1 (List.mem_reverse.1 (List.mem_of_find?_eq_some writer))
      obtain ⟨m, at_, member⟩ := h.get (before.trans_le inside)
      have writes := List.find?_some writer
      rw [show (convoyRun s ms addrs n R c).ms[q]? = some m from at_] at writes
      simp [member.ew.swrite] at writes

theorem broadcast_convoyRun {p : Nat} (inside : p ≤ ms.length) (scal : Option (SReg × Nat)) :
    (convoyRun s ms addrs n R c).broadcast p scal = .val (s.scalarOf scal) := by
  cases scal with
  | none => rfl
  | some x =>
      unfold Run.broadcast
      dsimp only
      rw [scalar_convoyRun h addrs c inside]
      rfl

theorem optBit_convoyRun {p : Nat} (inside : p ≤ ms.length) (e : Nat) (sel : Option MReg) :
    (convoyRun s ms addrs n R c).optBit p e sel = .val (s.selected e sel) := by
  cases sel with
  | none => rfl
  | some x =>
      have none_ : (convoyRun s ms addrs n R c).maskProducer p x = none := by
        cases writer : (convoyRun s ms addrs n R c).maskProducer p x with
        | none => rfl
        | some q =>
            unfold Run.maskProducer at writer
            have before := List.mem_range.1 (List.mem_reverse.1 (List.mem_of_find?_eq_some writer))
            obtain ⟨m, at_, member⟩ := h.get (before.trans_le inside)
            have writes := List.find?_some writer
            rw [show (convoyRun s ms addrs n R c).ms[q]? = some m from at_] at writes
            simp [member.ew.mwrite] at writes
      unfold Run.optBit Run.maskBit
      dsimp only
      rw [none_]
      rfl

/-- A member begins once the counts of its operands are known. -/
theorem step_fresh {p : Nat} {m : Member} (at_ : ms[p]? = some m) (fresh : c p = 0) :
    (convoyRun s ms addrs n R c).step p = some (convoyRun s ms addrs n R (advance c p))
      ∨ (convoyRun s ms addrs n R c).step p = none ∧ Pending n c p := by
  have inside : p < ms.length := (List.getElem?_eq_some_iff.1 at_).1
  have member := h.each p m at_
  obtain ⟨op, scal, sel, mrg, body, -⟩ := member.value
  have prog : (convoyRun s ms addrs n R c).prog p = {} := by rw [prog_convoyRun _ _ _ _ _ _ inside, fresh]; rfl
  have step : (convoyRun s ms addrs n R c).step p
      = match (convoyRun s ms addrs n R c).minLen p s.me.vl.toNat m.bound with
        | .val k => some ((convoyRun s ms addrs n R c).opens p m k)
        | _ => none := by
    unfold Run.step
    rw [show (convoyRun s ms addrs n R c).ms[p]? = some m from at_]
    dsimp only
    rw [prog]
    change (convoyRun s ms addrs n R c).begins p m = _
    unfold Run.begins
    rw [body]
    rfl
  rw [step]
  rcases minLen_convoyRun h addrs c at_ (fun x hx => hx) s.me.vl.toNat with known | ⟨waits, pending⟩
  · rw [known, ← member.count]
    refine .inl (congrArg some ?_)
    have start : (convoyRun s ms addrs n R c).vstart = 0 := congrArg BitVec.toNat h.start
    unfold Run.opens
    rw [start, member.ew.mwrite, show Nat.min 0 (n p) = 0 from Nat.zero_min _]
    dsimp only
    rw [show (convoyRun s ms addrs n R c).oldBad m 0 = none from rfl]
    dsimp only
    rw [prog, member.dests]
    refine setProg_convoyRun s ms addrs n R c p _ ?_
    rw [fresh, stageProg_going _ (Nat.zero_le _)]
    rfl
  · rw [waits]
    exact .inr ⟨rfl, pending⟩

/-- A member takes its next element once the operands for it have been computed. -/
theorem step_going {p j : Nat} {m : Member} (at_ : ms[p]? = some m) (stage : c p = j + 1) (below : j < n p) :
    (convoyRun s ms addrs n R c).step p = some (convoyRun s ms addrs n R (advance c p))
      ∨ (convoyRun s ms addrs n R c).step p = none ∧ Pending n c p := by
  have inside : p < ms.length := (List.getElem?_eq_some_iff.1 at_).1
  have member := h.each p m at_
  obtain ⟨op, scal, sel, mrg, body, value⟩ := member.value
  have comp : m.isComp = false := by unfold Member.isComp; rw [body]
  have prog : (convoyRun s ms addrs n R c).prog p = laneProg (n p) j false (R p) false none := by
    rw [prog_convoyRun _ _ _ _ _ _ inside, stage]
    exact stageProg_going _ below.le
  have step : (convoyRun s ms addrs n R c).step p = (convoyRun s ms addrs n R c).stepMap p j m op scal sel mrg := by
    have limit : (convoyRun s ms addrs n R c).limit p m = n p := by
      unfold Run.limit
      rw [comp, prog]
      rfl
    unfold Run.step
    rw [show (convoyRun s ms addrs n R c).ms[p]? = some m from at_]
    dsimp only
    rw [prog, limit, if_neg (by simp [laneProg, mapProg]),
      if_pos (show (laneProg (n p) j false (R p) false none).done < n p from below)]
    unfold Run.element
    rw [body]
    rfl
  rw [step]
  rcases srcs_convoyRun h addrs c at_ below with known | ⟨waits, pending⟩
  · refine .inl ((stepMap_known rfl rfl h.masked known (fun x => convoySrc_known ..)
      (broadcast_convoyRun h addrs c inside.le scal) (optBit_convoyRun h addrs c inside.le j sel) (value j below)).trans ?_)
    refine congrArg some (setProg_convoyRun s ms addrs n R c p _ ?_)
    rw [stage, prog, stageProg_going _ below]
    unfold laneProg mapProg
    simp [List.range_succ, raisedBelow]
  · refine .inr ⟨?_, pending⟩
    unfold Run.stepMap
    rw [waits]

/-- A member that has taken its last element finishes. -/
theorem step_last {p : Nat} {m : Member} (at_ : ms[p]? = some m) (stage : c p = n p + 1) :
    (convoyRun s ms addrs n R c).step p = some (convoyRun s ms addrs n R (advance c p)) := by
  have inside : p < ms.length := (List.getElem?_eq_some_iff.1 at_).1
  obtain ⟨op, scal, sel, mrg, body, -⟩ := (h.each p m at_).value
  have comp : m.isComp = false := by unfold Member.isComp; rw [body]
  have prog : (convoyRun s ms addrs n R c).prog p = laneProg (n p) (n p) false (R p) false none := by
    rw [prog_convoyRun _ _ _ _ _ _ inside, stage]
    exact stageProg_going _ (Nat.le_refl _)
  have limit : (convoyRun s ms addrs n R c).limit p m = n p := by
    unfold Run.limit
    rw [comp, prog]
    rfl
  unfold Run.step
  rw [show (convoyRun s ms addrs n R c).ms[p]? = some m from at_]
  dsimp only
  rw [prog, limit, if_neg (by simp [laneProg, mapProg]), if_neg (by simp [laneProg, mapProg])]
  unfold Run.finishes
  rw [body]
  refine congrArg some (setProg_convoyRun s ms addrs n R c p _ ?_)
  rw [stage, prog]
  exact (stageProg_done ..).symm

/-- A member that is not finished goes on, or waits for an earlier one that is not. -/
theorem step_convoyRun {p : Nat} (inside : p < ms.length) (going : c p < n p + 2) :
    (convoyRun s ms addrs n R c).step p = some (convoyRun s ms addrs n R (advance c p))
      ∨ (convoyRun s ms addrs n R c).step p = none ∧ Pending n c p := by
  obtain ⟨m, at_, -⟩ := h.get inside
  rcases Nat.eq_zero_or_pos (c p) with fresh | begun
  · exact step_fresh h addrs c at_ fresh
  obtain ⟨j, stage⟩ : ∃ j, c p = j + 1 := ⟨c p - 1, by omega⟩
  rcases Nat.lt_or_ge j (n p) with below | last
  · exact step_going h addrs c at_ stage below
  · exact .inl (step_last h addrs c at_ (by omega))

end

end Sys2Proof.Machine
end

section
/-! PROOFS. The loop of an element-wise convoy ends with every member finished (R130, R167). -/

namespace Sys2Proof.Machine

/-! ### The member that advances -/

theorem mem_insKey (x y : Nat × Nat) (l : List (Nat × Nat)) : y ∈ insKey x l ↔ y = x ∨ y ∈ l := by
  induction l with
  | nil => simp [insKey]
  | cons z l ih =>
      unfold insKey
      split
      · simp
      · rw [List.mem_cons, ih, List.mem_cons]
        tauto

theorem inOrder_some {r t : Run} {held : Bool} {l : List (Nat × Nat)} (h : r.inOrder held l = some t) :
    ∃ k ∈ l, r.step k.2 = some t := by
  induction l generalizing held with
  | nil => cases h
  | cons k l ih =>
      unfold Run.inOrder at h
      have later {held : Bool} (h : r.inOrder held l = some t) : ∃ z ∈ k :: l, r.step z.2 = some t := by
        obtain ⟨z, hz, step⟩ := ih h
        exact ⟨z, List.mem_cons_of_mem _ hz, step⟩
      split at h
      · exact later h
      · split at h
        · next step => exact ⟨k, List.mem_cons_self, step.trans h⟩
        · exact later h

/-- Where some candidate can advance, one does. -/
theorem pick_some {r : Run} {l : List (Nat × Nat)} (able : ∃ k ∈ l, ∃ t, r.step k.2 = some t) :
    ∃ k ∈ l, ∃ t, r.step k.2 = some t ∧ r.pick l = some t := by
  unfold Run.pick
  cases first : r.inOrder false l with
  | some t =>
      obtain ⟨k, hk, step⟩ := inOrder_some first
      exact ⟨k, hk, t, step, rfl⟩
  | none =>
      dsimp only
      cases second : (l.filter fun k => decide (k.2 < r.holder l)).findSome? fun k => r.step k.2 with
      | some t =>
          obtain ⟨k, hk, step⟩ := List.exists_of_findSome?_eq_some second
          exact ⟨k, (List.mem_filter.1 hk).1, t, step, rfl⟩
      | none =>
          cases third : l.findSome? fun k => r.step k.2 with
          | some t =>
              obtain ⟨k, hk, step⟩ := List.exists_of_findSome?_eq_some third
              exact ⟨k, hk, t, step, rfl⟩
          | none =>
              obtain ⟨k, hk, t, step⟩ := able
              rw [List.findSome?_eq_none_iff.1 third k hk] at step
              cases step

/-- What a fold that puts elements in holds at its end. -/
theorem mem_foldl {α β : Type} {f : List β → α → List β} {y : β} {P : α → Prop} (each : ∀ l q, y ∈ f l q ↔ y ∈ l ∨ P q)
    (qs : List α) (l : List β) : y ∈ qs.foldl f l ↔ y ∈ l ∨ ∃ q ∈ qs, P q := by
  induction qs generalizing l with
  | nil => simp
  | cons q qs ih => rw [List.foldl_cons, ih, each, List.exists_mem_cons_iff, or_assoc]

/-- The candidates of a run without a fault: its unfinished members. -/
theorem mem_cands {r : Run} (none_ : r.best = none) (y : Nat × Nat) :
    y ∈ r.cands ↔ ∃ q ∈ List.range r.ms.length, ∃ m, r.ms[q]? = some m ∧ (r.prog q).fin = false ∧ m.last = false
      ∧ y = ((r.prog q).done, q) := by
  unfold Run.cands
  refine (mem_foldl (P := fun q => ∃ m, r.ms[q]? = some m ∧ (r.prog q).fin = false ∧ m.last = false
    ∧ y = ((r.prog q).done, q)) (fun l q => ?_) _ _).trans (by simp)
  rw [none_]
  cases at_ : r.ms[q]? with
  | none => simp
  | some m =>
      dsimp only
      split
      · next out =>
        refine (or_iff_left ?_).symm
        rintro ⟨x, same, fin, last, -⟩
        rw [← Option.some.inj same] at last
        simp [fin, last] at out
      · next going =>
        have parts : (r.prog q).fin = false ∧ m.last = false := by simpa using going
        rw [mem_insKey, or_comm]
        simp [parts.1, parts.2]

/-! ### The loop -/

/-- The steps that the members still have to take. -/
def stepsLeft (n c : Nat → Nat) (N : Nat) : Nat := ((List.range N).map fun q => n q + 2 - c q).sum

theorem stepsLeft_advance {n c : Nat → Nat} {p N : Nat} (inside : p < N) (going : c p < n p + 2) :
    stepsLeft n (advance c p) N + 1 = stepsLeft n c N := by
  induction N with
  | zero => exact absurd inside (Nat.not_lt_zero p)
  | succ N ih =>
      have snoc (c : Nat → Nat) : stepsLeft n c (N + 1) = stepsLeft n c N + (n N + 2 - c N) := by
        unfold stepsLeft
        rw [List.range_succ, List.map_append, List.sum_append]
        simp
      rw [snoc, snoc]
      rcases Nat.lt_or_eq_of_le (Nat.le_of_lt_succ inside) with less | rfl
      · have other : advance c p N = c N := if_neg (Nat.ne_of_gt less)
        rw [other, ← ih less]
        omega
      · have same : stepsLeft n (advance c p) p = stepsLeft n c p := by
          unfold stepsLeft
          refine congrArg List.sum (List.map_congr_left fun q hq => ?_)
          rw [show advance c p q = c q from if_neg (Nat.ne_of_lt (List.mem_range.1 hq))]
        have here : advance c p p = c p + 1 := if_pos rfl
        rw [same, here]
        omega

section
variable {s : State} {ms : List Member} {d : Nat → CReg} {w n : Nat → Nat} {R : Nat → Nat → Nat × Flags}
  (h : MapConvoy s ms d w n R) (addrs : List Word)
include h

omit h in
theorem ConvoyMember.last {p : Nat} {m : Member} (member : ConvoyMember s d w n R p m) : m.last = false := by
  obtain ⟨op, scal, sel, mrg, body, -⟩ := member.value
  unfold Member.last
  rw [body]

omit h in
/-- A member is finished after its last step only. -/
theorem fin_stageProg {n : Nat} {R : Nat → Nat × Flags} {j : Nat} (le : j ≤ n + 2) :
    (stageProg n R j).fin = false ↔ j < n + 2 := by
  cases j with
  | zero => simp [stageProg]
  | succ j =>
      change decide (n < j) = false ↔ _
      rw [decide_eq_false_iff_not]
      omega

theorem cands_convoyRun {c : Nat → Nat} (bound : ∀ q, q < ms.length → c q ≤ n q + 2) (y : Nat × Nat) :
    y ∈ (convoyRun s ms addrs n R c).cands
      ↔ ∃ q, q < ms.length ∧ c q < n q + 2 ∧ y = ((stageProg (n q) (R q) (c q)).done, q) := by
  have ms_ : (convoyRun s ms addrs n R c).ms = ms := rfl
  rw [mem_cands rfl, ms_]
  constructor
  · rintro ⟨q, hq, m, -, fin, -, rfl⟩
    have inside := List.mem_range.1 hq
    rw [prog_convoyRun _ _ _ _ _ _ inside, fin_stageProg (bound q inside)] at fin
    exact ⟨q, inside, fin, by rw [prog_convoyRun _ _ _ _ _ _ inside]⟩
  · rintro ⟨q, inside, going, rfl⟩
    obtain ⟨m, at_, member⟩ := h.get inside
    refine ⟨q, List.mem_range.2 inside, m, at_, ?_, member.last, by rw [prog_convoyRun _ _ _ _ _ _ inside]⟩
    rw [prog_convoyRun _ _ _ _ _ _ inside]
    exact (fin_stageProg (bound q inside)).2 going

/-- While a member is not finished, one of them takes a step. -/
theorem pick_convoyRun {c : Nat → Nat} (bound : ∀ q, q < ms.length → c q ≤ n q + 2) (some_ : stepsLeft n c ms.length ≠ 0) :
    ∃ p, p < ms.length ∧ c p < n p + 2
      ∧ (convoyRun s ms addrs n R c).pick (convoyRun s ms addrs n R c).cands = some (convoyRun s ms addrs n R (advance c p)) := by
  have exists_ : ∃ p, p < ms.length ∧ c p < n p + 2 := by
    by_contra none_
    refine some_ (List.sum_eq_zero fun x hx => ?_)
    obtain ⟨q, hq, rfl⟩ := List.mem_map.1 hx
    by_contra left
    exact none_ ⟨q, List.mem_range.1 hq, by omega⟩
  obtain ⟨⟨inside, going⟩, least⟩ : (Nat.find exists_ < ms.length ∧ c (Nat.find exists_) < n (Nat.find exists_) + 2)
      ∧ ∀ q, q < Nat.find exists_ → ¬ (q < ms.length ∧ c q < n q + 2) :=
    ⟨Nat.find_spec exists_, fun q hq => Nat.find_min exists_ hq⟩
  generalize Nat.find exists_ = p at inside going least
  have free : ¬ Pending n c p := fun ⟨q, before, waits⟩ => least q before ⟨before.trans inside, waits⟩
  have able := (step_convoyRun h addrs c inside going).resolve_right fun e => free e.2
  obtain ⟨y, among, t, step, pick⟩ := pick_some (r := convoyRun s ms addrs n R c) (l := (convoyRun s ms addrs n R c).cands)
    ⟨_, (cands_convoyRun h addrs bound _).2 ⟨p, inside, going, rfl⟩, _, able⟩
  obtain ⟨q, inside_q, going_q, rfl⟩ := (cands_convoyRun h addrs bound y).1 among
  refine ⟨q, inside_q, going_q, pick.trans ?_⟩
  rcases step_convoyRun h addrs c inside_q going_q with moves | ⟨waits, -⟩
  · exact step.symm.trans moves
  · rw [waits] at step
    cases step

omit h in
theorem convoyRun_congr {c c' : Nat → Nat} (same : ∀ q, q < ms.length → c q = c' q) :
    convoyRun s ms addrs n R c = convoyRun s ms addrs n R c' := by
  unfold convoyRun
  rw [List.map_congr_left fun q hq => by rw [same q (List.mem_range.1 hq)]]

/-- The loop ends with every member finished. -/
theorem loop_convoyRun (fuel : Nat) {c : Nat → Nat} (bound : ∀ q, q < ms.length → c q ≤ n q + 2)
    (enough : stepsLeft n c ms.length ≤ fuel) :
    Run.loop fuel (convoyRun s ms addrs n R c) = convoyRun s ms addrs n R fun q => n q + 2 := by
  induction fuel generalizing c with
  | zero =>
      have done (q : Nat) (inside : q < ms.length) : c q = n q + 2 := by
        have none_ := List.sum_eq_zero_iff.1 (Nat.le_zero.1 enough) _ (List.mem_map.2 ⟨q, List.mem_range.2 inside, rfl⟩)
        have le := bound q inside
        omega
      exact convoyRun_congr addrs done
  | succ fuel ih =>
      rcases Nat.eq_zero_or_pos (stepsLeft n c ms.length) with none_ | some_
      · have rest : (convoyRun s ms addrs n R c).cands = [] := by
          refine List.eq_nil_iff_forall_not_mem.2 fun y hy => ?_
          obtain ⟨q, inside, going, -⟩ := (cands_convoyRun h addrs bound y).1 hy
          have done := List.sum_eq_zero_iff.1 none_ _ (List.mem_map.2 ⟨q, List.mem_range.2 inside, rfl⟩)
          omega
        rw [loop_stops rfl rest]
        have again := ih bound (none_.le.trans (Nat.zero_le fuel))
        rwa [loop_stops rfl rest] at again
      · obtain ⟨p, inside, going, pick⟩ := pick_convoyRun h addrs bound some_.ne'
        have left := stepsLeft_advance (n := n) inside going
        have cell : (convoyRun s ms addrs n R c).cell = false := rfl
        unfold Run.loop
        rw [cell, if_neg Bool.false_ne_true, pick]
        refine ih (fun q hq => ?_) (by omega)
        unfold advance
        split
        · next here => rw [here]; exact going
        · exact bound q hq

/-- An element-wise convoy's loop, from its opening to its end. -/
theorem loop_openRun : Run.loop (openRun s ms addrs).fuel (openRun s ms addrs) = convoyRun s ms addrs n R fun q => n q + 2 := by
  have le (q : Nat) (inside : q < ms.length) : n q ≤ Nat.max s.me.vl.toNat 1024 := by
    obtain ⟨m, -, member⟩ := h.get inside
    rw [member.count]
    exact (foldl_min_le _ m.bound _).1.trans (Nat.le_max_left ..)
  have fuel : (openRun s ms addrs).fuel = ms.length * (Nat.max s.me.vl.toNat 1024 + 3) := rfl
  rw [fuel, convoyRun_open s ms addrs n R]
  refine loop_convoyRun h addrs _ (fun q _ => Nat.zero_le _) ?_
  refine (List.sum_le_card_nsmul _ (Nat.max s.me.vl.toNat 1024 + 3) fun x hx => ?_).trans (by simp)
  obtain ⟨q, hq, rfl⟩ := List.mem_map.1 hx
  have here := le q (List.mem_range.1 hq)
  omega

end

end Sys2Proof.Machine
end

section
/-! PROOFS. The buffers of an element-wise convoy: each result has as many as it needs, of those that are granted (R130, R299). -/

namespace Sys2Proof.Machine

/-! ### What is needed -/

theorem insNeed_perm (x : Need) (l : List Need) : (insNeed x l).Perm (x :: l) := by
  induction l with
  | nil => exact .refl _
  | cons y l ih =>
      unfold insNeed
      split
      · exact .refl _
      · exact (ih.cons y).trans (.swap x y l)

theorem mergeNeeds_perm (a b : List Need) : (mergeNeeds a b).Perm (a ++ b) := by
  unfold mergeNeeds
  induction b generalizing a with
  | nil => rw [List.append_nil]; exact .refl _
  | cons x b ih =>
      rw [List.foldl_cons]
      exact (ih (insNeed x a)).trans (((insNeed_perm x a).append_right b).trans List.perm_middle.symm)

/-- The buffers that result `p` needs: of `n` elements of `w` bits, in buffers of `size` bytes. -/
def memberNeeds (size w n p : Nat) : List Need :=
  (List.range (buffersOf size w n)).map fun i => { e := i * size * 8 / w, pos := p, k := 0, i := i }

/-- The buffers that the results of members below `N` need, in ascending element order. -/
def convoyNeeds (size : Nat) (w n : Nat → Nat) (N : Nat) : List Need :=
  (List.range N).foldl (fun l q => mergeNeeds l (memberNeeds size (w q) (n q) q)) []

section
variable (size : Nat) (w n : Nat → Nat)

theorem convoyNeeds_succ (N : Nat) : convoyNeeds size w n (N + 1)
    = mergeNeeds (convoyNeeds size w n N) (memberNeeds size (w N) (n N) N) := by
  unfold convoyNeeds
  rw [List.range_succ, List.foldl_append]
  rfl

theorem convoyNeeds_perm (N : Nat) : (convoyNeeds size w n (N + 1)).Perm
    (convoyNeeds size w n N ++ memberNeeds size (w N) (n N) N) := by
  rw [convoyNeeds_succ]
  exact mergeNeeds_perm ..

/-- Every need is one of a member's. -/
theorem mem_convoyNeeds {N : Nat} {x : Need} (hx : x ∈ convoyNeeds size w n N) :
    ∃ q, q < N ∧ x.pos = q ∧ x.k = 0 ∧ x.i < buffersOf size (w q) (n q) := by
  induction N with
  | zero => cases hx
  | succ N ih =>
      rcases List.mem_append.1 ((convoyNeeds_perm size w n N).mem_iff.1 hx) with old | new
      · obtain ⟨q, less, rest⟩ := ih old
        exact ⟨q, Nat.lt_succ_of_lt less, rest⟩
      · obtain ⟨i, hi, rfl⟩ := List.mem_map.1 new
        exact ⟨N, Nat.lt_succ_self N, rfl, rfl, List.mem_range.1 hi⟩

theorem length_convoyNeeds (N : Nat) :
    (convoyNeeds size w n N).length = ((List.range N).map fun q => buffersOf size (w q) (n q)).sum := by
  induction N with
  | zero => rfl
  | succ N ih =>
      rw [(convoyNeeds_perm size w n N).length_eq, List.length_append, ih, List.range_succ, List.map_append, List.sum_append]
      simp [memberNeeds]

/-- As many needs are a member's as its result takes buffers. -/
theorem count_convoyNeeds {N q : Nat} (inside : q < N) :
    (convoyNeeds size w n N).countP (fun x => x.pos == q && x.k == 0) = buffersOf size (w q) (n q) := by
  have own (p : Nat) : (memberNeeds size (w p) (n p) p).countP (fun x => x.pos == q && x.k == 0)
      = if p = q then buffersOf size (w q) (n q) else 0 := by
    unfold memberNeeds
    rw [List.countP_map]
    split
    · next here =>
      subst here
      simp [Function.comp_def]
    · next other => simp [Function.comp_def, other]
  have none_ (N : Nat) (le : N ≤ q) : (convoyNeeds size w n N).countP (fun x => x.pos == q && x.k == 0) = 0 := by
    rw [List.countP_eq_zero]
    intro x hx
    obtain ⟨p, less, pos, -⟩ := mem_convoyNeeds size w n hx
    simp [pos, Nat.ne_of_lt (less.trans_le le)]
  induction N with
  | zero => exact absurd inside (Nat.not_lt_zero q)
  | succ N ih =>
      rw [(convoyNeeds_perm size w n N).countP_eq, List.countP_append, own]
      rcases Nat.lt_or_eq_of_le (Nat.le_of_lt_succ inside) with less | rfl
      · rw [ih less, if_neg (Nat.ne_of_gt less), Nat.add_zero]
      · rw [none_ q (Nat.le_refl q), if_pos rfl, Nat.zero_add]

end

/-! ### What is granted -/

/-- The buffers of result `q`, of those `F` that have answered the needs `L` in their order. -/
def ownIds (L : List Need) (F : List Nat) (q : Nat) : List Nat :=
  ((L.zip F).filter fun y => y.1.pos == q && y.1.k == 0).map (·.2)

theorem ownIds_grants (L : List Need) (F : List Nat) (f : Nat → Nat) (q : Nat) :
    ((List.zipWith Need.grant L (F.map f)).filter fun g => g.pos == q && g.k == 0).map (·.id) = (ownIds L F q).map f := by
  unfold ownIds
  induction L generalizing F with
  | nil => rfl
  | cons x L ih =>
      cases F with
      | nil => rfl
      | cons i F =>
          rw [List.map_cons, List.zipWith_cons_cons, List.zip_cons_cons]
          have here : (x.grant (f i)).pos = x.pos ∧ (x.grant (f i)).k = x.k := ⟨rfl, rfl⟩
          rw [List.filter_cons, List.filter_cons, here.1, here.2]
          dsimp only
          split
          · rw [List.map_cons, List.map_cons, List.map_cons, ih]
            rfl
          · exact ih F

section
variable {L : List Need} {F : List Nat} {q : Nat}

theorem mem_ownIds {i : Nat} (hi : i ∈ ownIds L F q) : i ∈ F := by
  obtain ⟨y, hy, rfl⟩ := List.mem_map.1 hi
  exact (List.of_mem_zip (List.mem_filter.1 hy).1).2

theorem length_ownIds (length : L.length = F.length) :
    (ownIds L F q).length = L.countP fun x => x.pos == q && x.k == 0 := by
  have all : (L.zip F).map Prod.fst = L := List.map_fst_zip length.le
  unfold ownIds
  rw [List.length_map, ← List.countP_eq_length_filter]
  conv_rhs => rw [← all, List.countP_map]
  rfl

/-- No buffer is given to two results. -/
theorem nodup_ownIds (length : L.length = F.length) (once : F.Nodup) (N : Nat) : ((List.range N).flatMap (ownIds L F)).Nodup := by
  have second : ((L.zip F).map Prod.snd).Nodup := by
    rw [List.map_snd_zip length.ge]
    exact once
  have apart : ∀ y ∈ L.zip F, ∀ z ∈ L.zip F, y.2 = z.2 → y = z := fun y hy z hz same =>
    List.inj_on_of_nodup_map second hy hz same
  rw [List.nodup_flatMap]
  refine ⟨fun q _ => ?_, ?_⟩
  · exact List.Nodup.map_on (fun y hy z hz same => apart y (List.mem_filter.1 hy).1 z (List.mem_filter.1 hz).1 same)
      (second.of_map.filter _)
  · refine (List.nodup_range (n := N)).imp fun {p q} differ => ?_
    intro i hp hq
    obtain ⟨y, hy, rfl⟩ := List.mem_map.1 hp
    obtain ⟨z, hz, same⟩ := List.mem_map.1 hq
    obtain ⟨hy, pos⟩ := List.mem_filter.1 hy
    obtain ⟨hz, pos'⟩ := List.mem_filter.1 hz
    obtain rfl := apart z hz y hy same
    simp only [Bool.and_eq_true, beq_iff_eq] at pos pos'
    exact differ (pos.1.symm.trans pos'.1)

end

end Sys2Proof.Machine
end

section
/-! PROOFS. The close of an element-wise convoy: every result granted its buffers and placed, every flag raised (R86, R106, R130). -/

namespace Sys2Proof.Machine

/-! ### Results placed one after another keep the layout of the pools -/

theorem placeOuts_layout (s : State) (far : Bool) (size : Nat) (l : List ChainOut) :
    (s.placeOuts far size l).myCx = s.myCx
      ∧ ((s.placeOuts far size l).pool s.myCx far).size = (s.pool s.myCx far).size := by
  induction l generalizing s with
  | nil => exact ⟨rfl, rfl⟩
  | cons z l ih =>
      obtain ⟨cx, pool⟩ := ih (s.placeOut far size z)
      rw [placeOut_myCx] at cx pool
      exact ⟨cx, pool.trans ((bytesIn_placeOut s far size z).layout far).1⟩

theorem placeOuts_snoc (s : State) (far : Bool) (size : Nat) (l : List ChainOut) (z : ChainOut) :
    s.placeOuts far size (l ++ [z]) = (s.placeOuts far size l).placeOut far size z := by
  unfold State.placeOuts
  rw [List.foldl_append]
  rfl

/-- Steps that place one result each place all. -/
theorem foldl_placeOut {f : State → Nat → State} {v : State} {far : Bool} {size N : Nat} {out : Nat → ChainOut}
    (size_eq : (v.pool v.myCx far).size = size)
    (each : ∀ q, q < N → ∀ t, (t.pool t.myCx far).size = size → f t q = t.placeOut far size (out q)) :
    (List.range N).foldl f v = v.placeOuts far size ((List.range N).map out) := by
  induction N with
  | zero => rfl
  | succ N ih =>
      obtain ⟨cx, pool⟩ := placeOuts_layout v far size ((List.range N).map out)
      rw [List.range_succ, List.foldl_append, ih fun q hq => each q (Nat.lt_succ_of_lt hq), List.foldl_cons, List.foldl_nil,
        List.map_append, List.map_singleton, placeOuts_snoc]
      exact each N (Nat.lt_succ_self N) _ (by rw [cx, pool, size_eq])

/-- Steps that raise the flags of one member each raise them all. -/
theorem foldl_raise {f : Strand → Nat → Strand} {N : Nat} {x : Nat → Flags}
    (each : ∀ q, q < N → ∀ t, f t q = t.raise (x q)) (t : Strand) :
    (List.range N).foldl f t = { t with fflags := t.fflags ||| flagsOf N x } := by
  induction N with
  | zero =>
      have none_ : t.fflags ||| flagsOf 0 x = t.fflags := BitVec.or_zero
      rw [none_]
      rfl
  | succ N ih =>
      rw [List.range_succ, List.foldl_append, ih fun q hq => each q (Nat.lt_succ_of_lt hq), List.foldl_cons, List.foldl_nil,
        each N (Nat.lt_succ_self N), flagsOf_succ, ← BitVec.or_assoc]
      rfl

/-! ### The run at its end -/

/-- The run with every member finished. -/
def doneRun (s : State) (ms : List Member) (addrs : List Word) (n : Nat → Nat) (R : Nat → Nat → Nat × Flags) : Run :=
  convoyRun s ms addrs n R fun q => n q + 2

/-- Result `q`, in the buffers that are its own of those granted, `F`. -/
def convoyOut (d : Nat → CReg) (w n : Nat → Nat) (R : Nat → Nat → Nat × Flags) (L : List Need) (F : List Nat) (q : Nat) : ChainOut :=
  ⟨d q, ownIds L F q, outBytes w n R q⟩

section
variable {s : State} {ms : List Member} {d : Nat → CReg} {w n : Nat → Nat} {R : Nat → Nat → Nat × Flags}
  (h : MapConvoy s ms d w n R) (addrs : List Word)

theorem prog_doneRun {q : Nat} (inside : q < ms.length) :
    (doneRun s ms addrs n R).prog q = laneProg (n q) (n q) true (R q) false none := by
  unfold doneRun
  rw [prog_convoyRun _ _ _ _ _ _ inside, stageProg_done]

include h

/-- The buffers that the results need, none of them more than 32. -/
theorem needs_doneRun {size : Nat} (few : ∀ q, q < ms.length → buffersOf size (w q) (n q) ≤ 32) :
    (doneRun s ms addrs n R).needs size = convoyNeeds size w n ms.length := by
  unfold Run.needs convoyNeeds
  refine List.foldl_ext _ _ _ fun l q hq => ?_
  have inside : q < ms.length := List.mem_range.1 hq
  obtain ⟨m, at_, member⟩ := h.get inside
  rw [show (doneRun s ms addrs n R).ms[q]? = some m from at_]
  dsimp only
  have all (x : Need) : (doneRun s ms addrs n R).within x.e x.pos = true := rfl
  have min : Nat.min (buffersOf size (w q) (n q)) 33 = buffersOf size (w q) (n q) :=
    Nat.min_eq_left ((few q inside).trans (by decide))
  rw [member.last, member.dests, prog_doneRun addrs inside]
  simp only [Bool.false_eq_true, if_false, List.length_singleton, List.range_one, List.foldl_cons, List.foldl_nil,
    List.getD_cons_zero, size_laneProg, all, List.filter_true, min]
  rfl

/-- What is placed of a member. -/
theorem placeMember_doneRun {q : Nat} {m : Member} (at_ : ms[q]? = some m) {L : List Need} {F : List Nat} {far : Bool}
    (side : s.me.farPool = far) {t : State} {size : Nat} (size_eq : (t.pool t.myCx far).size = size)
    (own : (ownIds L F q).length = ((outBytes w n R q).length + size - 1) / size) :
    (doneRun s ms addrs n R).placeMember q m (List.zipWith Need.grant L (F.map (mkId far))) none false t
      = t.placeOut far size (convoyOut d w n R L F q) := by
  have member := h.each q m at_
  have inside : q < ms.length := (List.getElem?_eq_some_iff.1 at_).1
  have st : (doneRun s ms addrs n R).st.farPool = far := side
  have out : (((doneRun s ms addrs n R).prog q).outs.getD 0 #[]).toList = (List.range (n q)).map fun e => (R q e).1 := by
    rw [prog_doneRun addrs inside]
    rfl
  unfold Run.placeMember
  rw [member.last, member.dests]
  simp only [Bool.false_eq_true, if_false, Option.isSome_none, Bool.false_and, Bool.or_self, List.length_singleton,
    List.range_one, List.foldl_cons, List.foldl_nil, List.getD_cons_zero]
  unfold Run.placeDest
  dsimp only
  have bytes : pack (w q) ((List.range (n q)).map fun e => (R q e).1) = outBytes w n R q := rfl
  rw [st, size_eq, out, ownIds_grants, bytes, ← own, ← List.length_map (f := mkId far) (as := ownIds L F q), List.take_length, List.drop_length, List.map_nil,
    addRefs_nil, dropRefs_nil, List.append_nil]
  rfl

/-- The flags of a member. -/
theorem placeRest_doneRun {q : Nat} {m : Member} (at_ : ms[q]? = some m) (t : Strand) :
    (doneRun s ms addrs n R).placeRest q m none t = t.raise (flagsOf (n q) fun e => (R q e).2) := by
  have member := h.each q m at_
  have inside : q < ms.length := (List.getElem?_eq_some_iff.1 at_).1
  have flags : ((doneRun s ms addrs n R).prog q).flags.foldl (fun f x => f ||| x.2) (0 : Flags)
      = flagsOf (n q) fun e => (R q e).2 := by
    rw [prog_doneRun addrs inside]
    exact foldl_raised (R q) (n q)
  unfold Run.placeRest
  dsimp only
  rw [member.ew.mwrite, member.ew.swrite]
  simp only [if_true]
  rw [flags]

/-- All results placed, and all flags raised. -/
theorem places_doneRun {L : List Need} {F : List Nat} {far : Bool} (side : s.me.farPool = far) {v : State} {size : Nat}
    (size_eq : (v.pool v.myCx far).size = size)
    (own : ∀ q, q < ms.length → (ownIds L F q).length = ((outBytes w n R q).length + size - 1) / size) :
    let z := v.placeOuts far size ((List.range ms.length).map (convoyOut d w n R L F))
    (doneRun s ms addrs n R).places v (List.zipWith Need.grant L (F.map (mkId far))) none false
      = z.setMe { z.me with fflags := z.me.fflags ||| flagsOf ms.length fun q => flagsOf (n q) fun e => (R q e).2 } := by
  dsimp only
  have get {q : Nat} (inside : q < ms.length) : ∃ m, (doneRun s ms addrs n R).ms[q]? = some m ∧ ms[q]? = some m := by
    obtain ⟨m, at_, -⟩ := h.get inside
    exact ⟨m, at_, at_⟩
  have len : (doneRun s ms addrs n R).ms.length = ms.length := rfl
  have replay : (doneRun s ms addrs n R).replay v none = v := rfl
  unfold Run.places
  dsimp only
  rw [replay, len, foldl_placeOut (out := convoyOut d w n R L F) size_eq fun q inside t layout => by
      obtain ⟨m, here, at_⟩ := get inside
      rw [here]
      exact placeMember_doneRun h addrs at_ side layout (own q inside),
    foldl_raise (x := fun q => flagsOf (n q) fun e => (R q e).2) fun q inside t => by
      obtain ⟨m, here, at_⟩ := get inside
      rw [here]
      exact placeRest_doneRun h addrs at_ t]

/-- What closes the convoy does to the strand. -/
theorem closeStrand_doneRun (t : Strand) (next : Word) :
    ((doneRun s ms addrs n R).closeStrand t).go next = Strand.closed t next := by
  have cuts : (doneRun s ms addrs n R).progs.filterMap (·.cut) = [] := by
    rw [List.filterMap_eq_nil_iff]
    intro p hp
    obtain ⟨q, -, rfl⟩ := List.mem_map.1 hp
    rw [stageProg_done]
    rfl
  have fed {f : Member → Bool} (none_ : ∀ m op scal sel mrg, m.body = .map op scal sel mrg → f m = false) :
      ms.any f = false := by
    rw [List.any_eq_false]
    intro m hm
    obtain ⟨q, inside, rfl⟩ := List.getElem_of_mem hm
    obtain ⟨op, scal, sel, mrg, body, -⟩ := (h.each q _ (List.getElem?_eq_getElem inside)).value
    rw [none_ _ _ _ _ _ body]
    exact Bool.false_ne_true
  unfold Run.closeStrand
  dsimp only
  rw [cuts, show (doneRun s ms addrs n R).ms = ms from rfl, fed fun m op scal sel mrg body => by rw [body]]
  rfl

end

end Sys2Proof.Machine
end

section
/-! PROOFS. From an element-wise convoy's words to its close (R37, R63, R86, R130). -/

namespace Sys2Proof.Machine

/-! ### The members are element-wise ones -/

theorem elementwise_of_body {i : Instr} {g : Gm} {m : Member} (member : memberOf g i = some m)
    {op : Nat → List Nat → Nat → Bool → Nat × Flags} {scal : Option (SReg × Nat)} {sel : Option MReg} {mrg : Bool}
    (body : m.body = .map op scal sel mrg) : elementwise i = true := by
  by_contra other
  cases i
  case vadd | vsub | vmul | vfma | vfms | vdiv | vmin | vmax | vand | vor | vxor | vshl | vshr | vsra | vfsh | vbext |
      vabs | vneg | vpopc | vclz | vsel | vaddScalar | vsubScalar | vmulScalar | vfmaScalar | vfmsScalar | vdivScalar |
      vminScalar | vmaxScalar | vandScalar | vorScalar | vxorScalar | vshlScalar | vshrScalar | vsraScalar |
      vfshScalar | vbextScalar | vselScalar | vexp2 | vrcp | vsqrt | vidx | vmv | vmvScalar | vcvt | vcvtSat =>
    exact other rfl
  all_goals
    cases member <;> cases body

theorem chainElem_lt {s : State} {x : Nat} {l : List Seg} {f : Fmt} {e v : Nat} (read : s.chainElem x l f e = .val v) :
    v < 2 ^ f.bits := by
  unfold State.chainElem at read
  split at read
  · cases read
  · dsimp only at read
    split at read
    · cases read
    · rw [← Got.val.inj read]
      exact Nat.mod_lt _ (Nat.two_pow_pos _)

theorem oldElement_lt {s : State} {d : CReg × Nat} {e v : Nat} (read : s.oldElement d e = .val v) : v < 2 ^ d.2 := by
  unfold State.oldElement at read
  split at read
  · rw [← Got.val.inj read]
    exact Nat.two_pow_pos _
  · exact chainElem_lt (f := .n d.2) read

theorem gotAll_val {l : List (Got Nat)} {v : List Nat} (all : gotAll l = .val v) : List.Forall₂ (fun g x => g = .val x) l v := by
  induction l generalizing v with
  | nil =>
      obtain rfl := Got.val.inj all
      exact .nil
  | cons g l ih =>
      unfold gotAll at all
      split at all
      · cases all
      · cases all
      · cases all
      · cases all
      · cases all
      · cases all
      · next rest =>
        obtain rfl := Got.val.inj all
        exact .cons rfl (ih rest)

/-- The elements of a member of a convoy are patterns of its result format. -/
theorem mapFrom_lt {i : Instr} {s : State} {g : Gm} {m : Member} (member : memberOf g i = some m) (fits : m.fits = true)
    {op : Nat → List Nat → Nat → Bool → Nat × Flags} {scal : Option (SReg × Nat)} {sel : Option MReg} {mrg : Bool}
    (body : m.body = .map op scal sel mrg) {d : CReg} {w : Nat} (dests : m.dests = [(d, w)]) {src : Src → Nat → Got Nat} {e : Nat}
    (knowns : ∀ c, src c e ≠ .wait ∧ src c e ≠ .short) (pattern : ∀ c x, src c e = .val x → x < 2 ^ c.fmt.bits) {v : Nat × Flags}
    (value : s.mapFrom src m op scal sel mrg e = .val v) : v.1 < 2 ^ w := by
  by_cases active : s.active e = true
  · obtain ⟨l, all, rfl⟩ := mapFrom_active active value (gotAll_known _ fun g hg => by
      obtain ⟨c, -, rfl⟩ := List.mem_map.1 hg
      exact knowns c)
    refine map_lt (elementwise_of_body member body) member fits body dests e ?_ (fun a z scalar => ?_) _
    · unfold Member.Patterns
      have each := gotAll_val all
      rw [List.forall₂_map_left_iff] at each
      exact each.imp fun c x read => pattern c x read
    · rw [scalar]
      exact Nat.mod_lt _ (Nat.two_pow_pos _)
  · rcases mapFrom_idle active value with ⟨-, rfl⟩ | ⟨-, x, old, rfl⟩
    · exact Nat.two_pow_pos _
    · rw [dests] at old
      exact oldElement_lt old

theorem convoySrc_lt {s : State} {d : Nat → CReg} {out : Nat → List Byte} {p : Nat} {c : Src} {e x : Nat}
    (read : s.convoySrc d out p c e = .val x) : x < 2 ^ c.fmt.bits := by
  unfold State.convoySrc at read
  split at read
  · rw [← Got.val.inj read]
    exact Nat.mod_lt _ (Nat.two_pow_pos _)
  · exact chainElem_lt read

/-! ### The convoy runs -/

theorem addr_placed (va : Word) (ms : List Member) {q : Nat} (inside : q < ms.length) :
    ((placed va ms).map (·.1)).getD q 0 = va + BitVec.ofNat 64 (4 * q) := by
  induction ms generalizing va q with
  | nil => exact absurd inside (Nat.not_lt_zero q)
  | cons m ms ih =>
      rw [placed, List.map_cons]
      cases q with
      | zero => simp
      | succ q =>
          rw [List.getD_cons_succ, ih (va + 4) (Nat.lt_of_succ_lt_succ inside)]
          exact next_word va q

/-- A sound convoy of members that read no stream is its loop, and what settles it. -/
theorem exec_convoy {i : Instr} {s : State} {ms : List Member} (convoy : s.convoyOf i ms)
    (sound : ∀ p m, ms[p]? = some m → s.soundAt ms p m) (going : ∀ m ∈ ms, m.closes = false)
    (plain : ∀ m ∈ ms, ∀ c ∈ m.reads, s.me.streamed c = false) (still : ∀ m ∈ ms, ∀ c ∈ m.writes, s.copyInto c = false) :
    let addrs := (placed s.me.pc ms).map (·.1)
    exec i s = (Run.loop (openRun s ms addrs).fuel (openRun s ms addrs)).settles s s [] false none s.me.pc := by
  dsimp only
  obtain ⟨m0, first⟩ : ∃ m0, memberOf s.me.gm i = some m0 := by
    rw [convoy.first]
    exact ⟨_, List.head?_eq_some_head convoy.any⟩
  have sound' : ∀ q m, q < ms.length → ms[q]? = some m → s.soundAt ms q m := fun q m _ at_ => sound q m at_
  have short := sound_short sound' (Nat.le_refl _)
  obtain ⟨rest, words, -, past⟩ := convoyWords_split convoy.togathers first short fun x hx => going x (List.mem_of_mem_take hx)
  have ends : rest = [] := by
    obtain ⟨w, j, fetched, decoded, scalar⟩ := convoy.after
    rw [past rfl, show 9 - ms.length = 8 - ms.length + 1 by omega, State.gatherWords, fetched]
    simp only [decoded, scalar]
  rw [ends, List.append_nil, List.take_length] at words
  have scanned : Scan.run s.me {} (placed s.me.pc ms) = .ok (scanOf s.me ms) := by
    have e := scan_sound sound' s.me.pc []
    rw [List.take_length, List.append_nil] at e
    exact e
  have sums := scanOf_sums s.me ms
  have writes : (scanOf s.me ms).writes.find? s.copyInto = none := by
    rw [sums.writes, List.find?_eq_none]
    intro c hc
    obtain ⟨m, hm, hc⟩ := List.mem_flatMap.1 hc
    simp [still m hm c hc]
  have streams : (scanOf s.me ms).streams = [] := by
    have e := scanOf_streams s.me ms
    have none_ : (ms.flatMap Member.reads).filter s.me.streamed = [] := by
      rw [List.filter_eq_nil_iff]
      intro c hc
      obtain ⟨m, hm, hc⟩ := List.mem_flatMap.1 hc
      simp [plain m hm c hc]
    rw [none_] at e
    exact List.map_eq_nil_iff.1 e
  have narrow : (scanOf s.me ms).widens s.me = false := by
    unfold Scan.widens
    rw [sums.ms, List.any_eq_false]
    intro m hm
    rw [Bool.not_eq_true, List.any_eq_false]
    intro c hc
    have none_ := plain m hm c.reg (List.mem_map.2 ⟨c, hc, rfl⟩)
    unfold Strand.streamed at none_
    cases stream : (s.me.chain c.reg).stream <;> simp [stream] at none_ ⊢
  rw [Begins.itself.exec first, words]
  unfold State.runConvoy
  rw [scanned]
  dsimp only
  rw [writes, streams]
  simp only [State.pops, List.map_nil, List.foldl_nil]
  rw [narrow, if_neg Bool.false_ne_true, sums.ms]

end Sys2Proof.Machine
end

section
/-! PROOFS. O16: element-wise convoys of one member and of several (R130-R133). -/

namespace Sys2Proof.Machine

/-- A state that differs in its complexes alone is `s` with its own. -/
theorem onto_self {s v : State} (rest : { v with cxs := s.cxs } = s) : v = s.onto v := by
  have e := congrArg (fun x : State => { x with strands := v.strands, cxs := v.cxs }) rest
  exact e

section
variable {s : State} {ms : List Member} {d : Nat → CReg} {w n : Nat → Nat} {R : Nat → Nat → Nat × Flags}
  (h : MapConvoy s ms d w n R) (addrs : List Word)
include h

theorem length_outBytes {q : Nat} (inside : q < ms.length) : (outBytes w n R q).length = (n q * w q + 7) / 8 := by
  obtain ⟨m, -, member⟩ := h.get inside
  unfold outBytes
  rw [length_pack (member.ew.width member.dests), List.length_map, List.length_range]

theorem buffersFor_outBytes {q : Nat} (inside : q < ms.length) :
    s.buffersFor (outBytes w n R q).length = buffersOf s.myPool.size (w q) (n q) := by
  rw [length_outBytes h inside, buffersFor_eq]

/-- Every result is granted its buffers, and the convoy closes. -/
theorem settles_doneRun (any : ms ≠ []) (regs : ((List.range ms.length).map d).Nodup) {total : Nat}
    (sum : total = ((List.range ms.length).map fun q => s.buffersFor (outBytes w n R q).length).sum)
    (few : ∀ q, q < ms.length → s.buffersFor (outBytes w n R q).length ≤ 32) (buffers : s.hasBuffers 1 total) :
    ∃ z l, (doneRun s ms addrs n R).settles s s [] false none s.me.pc = .next z ∧ Closes s s z l total
      ∧ l.map ChainOut.d = (List.range ms.length).map d ∧ (∀ q, q < ms.length → ∃ y ∈ l, y.d = d q ∧ y.bs = outBytes w n R q)
      ∧ { z.me with chains := s.me.chains, cdirty := s.me.cdirty } = Strand.closed { s.me with
          fflags := s.me.fflags ||| flagsOf ms.length fun q => flagsOf (n q) fun e => (R q e).2 }
        ((doneRun s ms addrs n R).addr (ms.length - 1) + 4) := by
  obtain ⟨enable, enough, quiet, once, low, dusk, -⟩ := buffers
  rw [Nat.mul_one] at enable enough
  generalize hL : convoyNeeds s.myPool.size w n ms.length = L
  generalize hF : s.myPool.free.take total = F
  have among (i : Nat) (hi : i ∈ F) : i ∈ s.myPool.free := by
    rw [← hF] at hi
    exact List.mem_of_mem_take hi
  have lengthF : F.length = total := by rw [← hF, List.length_take, Nat.min_eq_left enough]
  have lengthL : L.length = total := by
    rw [← hL, length_convoyNeeds, sum]
    exact congrArg List.sum (List.map_congr_left fun q hq => (buffersFor_outBytes h (List.mem_range.1 hq)).symm)
  have own (q : Nat) (inside : q < ms.length) : (ownIds L F q).length = s.buffersFor (outBytes w n R q).length := by
    rw [length_ownIds (lengthL.trans lengthF.symm), ← hL, count_convoyNeeds _ _ _ inside, buffersFor_outBytes h inside]
  obtain ⟨v, taken, granted⟩ := granted_of_allocs enable enough once low dusk
  rw [hF] at taken
  have alloc : (doneRun s ms addrs n R).allocate s false
      = .ok v (List.zipWith Need.grant L (F.map (mkId s.me.farPool))) none := by
    have needs := needs_doneRun h addrs (size := s.myPool.size) fun q inside => by
      rw [← buffersFor_outBytes h inside]
      exact few q inside
    have met := grants_append s.myCx s.me.farPool false addrs s.myPool.free.length L [] s v [] (F.map (mkId s.me.farPool))
      (fun x hx => by
        obtain ⟨q, inside, -, -, small⟩ := mem_convoyNeeds _ _ _ (hL ▸ hx)
        rw [← buffersFor_outBytes h inside] at small
        exact small.trans_le (few q inside))
      (by rw [lengthL]; exact enough) (by rw [lengthL]; exact taken)
    rw [List.append_nil, List.nil_append] at met
    unfold Run.allocate
    dsimp only
    change s.grants s.myCx s.me.farPool false addrs (s.room s.myCx s.me.farPool)
      ((doneRun s ms addrs n R).needs s.myPool.size) [] = _
    rw [room_alone quiet, needs, hL]
    exact met.trans (by unfold State.grants; rfl)
  have onto := onto_self granted.rest
  have size : (v.pool v.myCx s.me.farPool).size = s.myPool.size := granted.size
  have places := places_doneRun h addrs (F := F) (L := L) rfl size own
  generalize hl : (List.range ms.length).map (convoyOut d w n R L F) = l at places
  have regs_ : l.map ChainOut.d = (List.range ms.length).map d := by rw [← hl, List.map_map]; rfl
  have ids : l.flatMap ChainOut.ids = (List.range ms.length).flatMap (ownIds L F) := by
    rw [← hl, List.flatMap_map]
    rfl
  have mine (i : Nat) (hi : i ∈ l.flatMap ChainOut.ids) : i ∈ s.myPool.free := by
    rw [ids] at hi
    obtain ⟨q, -, hi⟩ := List.mem_flatMap.1 hi
    exact among i (mem_ownIds hi)
  have each (y : ChainOut) (hy : y ∈ l) : ∃ q, q < ms.length ∧ y = convoyOut d w n R L F q := by
    rw [← hl] at hy
    obtain ⟨q, hq, rfl⟩ := List.mem_map.1 hy
    exact ⟨q, List.mem_range.1 hq, rfl⟩
  have fit : ChainsFit s s.me.farPool l := by
    refine ⟨?_, fun i hi => low i (mine i hi), fun isFar i hi o below => dusk isFar i (mine i hi) o below, fun y hy => ?_, ?_⟩
    · rw [ids]
      exact nodup_ownIds (lengthL.trans lengthF.symm) (hF ▸ once.sublist (List.take_sublist ..)) _
    · obtain ⟨q, inside, rfl⟩ := each y hy
      change (outBytes w n R q).length ≤ (ownIds L F q).length * s.myPool.size
      rw [own q inside]
      exact le_buffers _ _ (size_pos _)
    · rw [regs_]
      exact regs
  have strand := (placeOuts_placed v s.me.farPool s.myPool.size l fit.regs).strand
  rw [show v.me = s.me from by rw [onto]; exact (SameButPc.refl s).onto (.refl s) granted.rest] at strand
  generalize hnext : (doneRun s ms addrs n R).addr (ms.length - 1) + 4 = next
  have settled : (doneRun s ms addrs n R).settles s s [] false none s.me.pc
      = .next ((doneRun s ms addrs n R).close v (List.zipWith Need.grant L (F.map (mkId s.me.farPool))) [] next) := by
    have some_ : ms.length - 1 < ms.length := Nat.sub_lt (List.length_pos_iff.2 any) Nat.one_pos
    obtain ⟨m, at_, member⟩ := h.get some_
    obtain ⟨op, scal, sel, mrg, body, -⟩ := member.value
    have patched : (doneRun s ms addrs n R).patched = doneRun s ms addrs n R := rfl
    have cell : (doneRun s ms addrs n R).cell = false := rfl
    have judged : (doneRun s ms addrs n R).judged = none := rfl
    unfold Run.settles
    dsimp only
    rw [patched, cell, if_neg Bool.false_ne_true, alloc]
    dsimp only
    rw [judged]
    dsimp only
    unfold Run.ends
    dsimp only
    rw [show (doneRun s ms addrs n R).ms[(doneRun s ms addrs n R).ms.length - 1]? = some m from at_]
    dsimp only
    rw [body, show (doneRun s ms addrs n R).ms.length = ms.length from rfl, hnext]
  generalize hx : flagsOf ms.length (fun q => flagsOf (n q) fun e => (R q e).2) = x at places
  generalize hz : v.placeOuts s.me.farPool s.myPool.size l = z at places strand
  have close : (doneRun s ms addrs n R).close v (List.zipWith Need.grant L (F.map (mkId s.me.farPool))) [] next
      = z.setMe (Strand.closed { z.me with fflags := z.me.fflags ||| x } next) := by
    unfold Run.close
    dsimp only
    rw [places, State.me_setMe, closeStrand_doneRun h, setMe_setMe]
    rfl
  have closes := closes_of_placed (SameButPc.refl s) (.refl s) enable enough taken fit
    (m := Strand.closed { z.me with fflags := z.me.fflags ||| x } next)
  rw [← onto, hz] at closes
  refine ⟨_, l, settled.trans (congrArg Host.Outcome.next close), closes rfl rfl, regs_, fun q inside => ?_, ?_⟩
  · refine ⟨convoyOut d w n R L F q, ?_, rfl, rfl⟩
    rw [← hl]
    exact List.mem_map.2 ⟨q, List.mem_range.2 inside, rfl⟩
  · rw [State.me_setMe]
    have e := congrArg (fun t : Strand => { Strand.closed { t with fflags := t.fflags ||| x } next with
      chains := s.me.chains, cdirty := s.me.cdirty }) strand
    exact e

end

/-! ### The convoy that the manual describes -/

/-- The registers that sound members write are different ones (R64). -/
theorem nodup_of_sound {s : State} {ms : List Member} {d : Nat → CReg} {w : Nat → Nat}
    (each : ∀ p m, ms[p]? = some m → s.soundAt ms p m ∧ m.dests = [(d p, w p)]) : ((List.range ms.length).map d).Nodup := by
  have writes {p : Nat} {m : Member} (at_ : ms[p]? = some m) : m.writes = [d p] := by
    unfold Member.writes
    rw [(each p m at_).2]
    rfl
  have differ {p q : Nat} (less : p < q) (inside : q < ms.length) : d p ≠ d q := by
    intro same
    have at_p := List.getElem?_eq_getElem (less.trans inside)
    have at_q := List.getElem?_eq_getElem inside
    obtain ⟨⟨-, -, fine⟩, -⟩ := each q _ at_q
    refine fine (.inr (.inr (.inr (.inr (.inr (.inl ⟨d q, ?_, ms[p], ?_, .inl ?_⟩))))))
    · rw [writes at_q]
      exact List.mem_singleton.2 rfl
    · exact List.mem_take_iff_getElem.2 ⟨p, by omega, rfl⟩
    · rw [writes at_p, same]
      exact List.mem_singleton.2 rfl
  refine List.Nodup.map_on (fun p hp q hq same => ?_) List.nodup_range
  rcases Nat.lt_trichotomy p q with less | rfl | more
  · exact absurd same (differ less (List.mem_range.1 hq))
  · rfl
  · exact absurd same.symm (differ more (List.mem_range.1 hp))

/-- The instruction that a member of a convoy stands for. -/
theorem member_of_gathers {s : State} {i : Instr} {ms : List Member} (h : s.gathers i ms) {p : Nat} {m : Member}
    (at_ : ms[p]? = some m) : ∃ j, memberOf s.me.gm j = some m := by
  rcases Nat.eq_zero_or_pos p with rfl | later
  · rw [← List.head?_eq_getElem?] at at_
    exact ⟨i, h.first.trans at_⟩
  · obtain ⟨-, j, -, -, member⟩ := h.next p m later at_
    exact ⟨j, member⟩

/-- Settles O16: a lone member takes its elements from `vstart` on and closes or is refused its 33rd segment; of several
members some one can always go on, and each ends with the results that it would have of the finished ones before it. -/
theorem elementwiseConvoy : Obligations.ElementwiseConvoy := by
  refine ⟨?_, ?_⟩
  · intro i x s v u m op scal sel mrg d w R ew opens begins body dests
    dsimp only
    intro value
    obtain ⟨closes, stops⟩ := elementwise_alone ew opens begins body dests value
    exact ⟨closes, fun long buffers first live _ => stops long buffers first live⟩
  · intro i s ms op scal sel mrg d w n R
    dsimp only
    intro _ convoy start gk _ each buffers
    have member {p : Nat} {m : Member} (at_ : ms[p]? = some m) : ConvoyMember s d w n R p m := by
      obtain ⟨sound, body, dests, -, plain, count, -, value⟩ := each p m at_
      obtain ⟨j, is⟩ := member_of_gathers convoy.togathers at_
      refine ⟨elementwise_of_memberOf (elementwise_of_body is body) is, dests, fun c hc => ?_, count, fun e below => ?_,
        op p, scal p, sel p, mrg p, body, value⟩
      · exact plain c.reg (List.mem_map.2 ⟨c, List.mem_append_left _ hc, rfl⟩)
      · exact mapFrom_lt (src := s.convoySrc d (outBytes w n R) p) is sound.1 body dests (fun c => convoySrc_known ..)
          (fun c x read => convoySrc_lt read) (value e below)
    have h : MapConvoy s ms d w n R := ⟨start, gk, fun p m at_ => member at_⟩
    have sound : ∀ p m, ms[p]? = some m → s.soundAt ms p m := fun p m at_ => (each p m at_).1
    have regs := nodup_of_sound (d := d) (w := w) fun p m at_ => ⟨sound p m at_, (member at_).dests⟩
    have all {P : Member → Prop} (of : ∀ p m, ms[p]? = some m → P m) : ∀ m ∈ ms, P m := fun m hm => by
      obtain ⟨p, at_⟩ := List.mem_iff_getElem?.1 hm
      exact of p m at_
    have run := exec_convoy convoy sound
      (all fun p m at_ => by
        obtain ⟨-, body, -⟩ := each p m at_
        unfold Member.closes
        rw [body])
      (all fun p m at_ => (each p m at_).2.2.2.2.1)
      (all fun p m at_ c hc => by
        obtain ⟨-, -, dests, still, -⟩ := each p m at_
        unfold Member.writes at hc
        rw [dests] at hc
        rw [List.mem_singleton.1 hc]
        exact still)
    dsimp only at run
    generalize haddrs : (placed s.me.pc ms).map (·.1) = addrs at run
    obtain ⟨z, l, settled, closes, names, outs, strand⟩ := settles_doneRun h addrs convoy.any regs rfl (fun q inside => by
      obtain ⟨m, at_, -⟩ := h.get inside
      obtain ⟨-, -, -, -, -, -, few, -⟩ := each q m at_
      exact few) buffers
    have some_ : 0 < ms.length := List.length_pos_iff.2 convoy.any
    have next : (doneRun s ms addrs n R).addr (ms.length - 1) + 4 = s.me.pc + BitVec.ofNat 64 (4 * ms.length) := by
      have at_ : (doneRun s ms addrs n R).addr (ms.length - 1) = s.me.pc + BitVec.ofNat 64 (4 * (ms.length - 1)) := by
        have e := addr_placed s.me.pc ms (q := ms.length - 1) (by omega)
        rw [haddrs] at e
        exact e
      have swap (a b : Word) : a + b + 4 = a + 4 + b := by rw [BitVec.add_assoc, BitVec.add_comm b, BitVec.add_assoc]
      rw [at_, swap, next_word, Nat.sub_add_cancel some_]
    rw [next] at strand
    obtain ⟨chain, bytes, chains, dirty, free, refs, only⟩ := closes
    have segs : ∀ y ∈ l, z.segs y.d = y.segs s.me.farPool s.myPool.size := fun y hy => congrArg Chain.segs (chain y hy)
    have per {α : Type} (f : CReg → List α) : (l.flatMap fun y => f y.d) = (List.range ms.length).flatMap fun p => f (d p) := by
      rw [← List.flatMap_map ChainOut.d f, names, List.flatMap_map]
    refine ⟨z, by rw [run, loop_openRun h]; exact settled, fun p inside => ?_, fun c other => chains c ?_, fun c => ?_, ?_,
      fun far k => ?_, ?_, strand⟩
    · obtain ⟨y, hy, reg, out⟩ := outs p inside
      rw [← reg]
      refine ⟨?_, by rw [chain y hy]⟩
      rw [segs y hy, bytes y hy, out]
      rfl
    · rw [names]
      intro hc
      obtain ⟨p, hp, rfl⟩ := List.mem_map.1 hc
      exact other p (List.mem_range.1 hp) rfl
    · have written : (l.any fun y => y.d == c) = (l.map ChainOut.d).any (· == c) := by rw [List.any_map]; rfl
      rw [dirty c, written, names, List.any_map]
      rfl
    · rw [free, if_pos rfl]
      rfl
    · rw [refs, per s.segs]
      rfl
    · rw [← per z.segs, List.flatMap_congr segs]
      exact only

end Sys2Proof.Machine
end
